-- ==== Sys2Proof/Word.lean ====
section
/-! DEFINITION. The plain number types of the TS612: bytes, words, and the numbers by which the manual names feeders,
sections, channels, points, keys and bands (00_scope.md, Numbering). -/

namespace Sys2Proof

/-- One byte of a frame, message, image or operand. -/
abbrev Byte := BitVec 8

/-- A 16-bit word: a sample-frame value or flag word, a check code, a two-byte operand. -/
abbrev Half := BitVec 16

/-- Feeders 0 to 5; feeder k feeds section k. -/
abbrev FeederNo := Fin 6

/-- Sections 0 to 6; section 6 is the station's positive bus. -/
abbrev SectionNo := Fin 7

/-- The sixteen channels the manual names, in the order of the sample frame (11_formats.md, 11.2): UB, IB1, IB2, IF0 to IF5,
UL0 to UL5, TT, here 0 to 15. The manual counts them as fifteen (assumption 2). -/
abbrev ChannelNo := Fin 16

/-- Annunciation points 0 to 78. -/
abbrev PointNo := Fin 79

/-- Panel hold keys 1 to 7, here 0 to 6: key n serves section n - 1. -/
abbrev KeyNo := Fin 7

/-- Watch bands 0 to 7. -/
abbrev BandNo := Fin 8

/-- Settings groups 0 to 3. -/
abbrev GroupNo := Fin 4

end Sys2Proof
end

