-- ==== Sys2Proof/Syntax.lean ====
section
/-! DEFINITION. The commands and events that reach the TS612: one constructor of `Instr` for each row of
spec/opcode_table.json, with the data that come in with it. The rows of the station port carry their operands as the bytes
of the frame (11_formats.md, 11.1); the rows of the links carry the fields of the message (11.3); the rows of timers name
the timer. -/

namespace Sys2Proof

/-- The two neighbour link ports. -/
inductive Port where
  | a | b
  deriving DecidableEq, Repr

/-- The two six-pulse bridges. -/
inductive Bridge where
  | one | two
  deriving DecidableEq, Repr

/-- The kinds of hold, in the order the hold record lists them (06_isolation_holds.md, 6.1). -/
inductive HoldKind where
  | isolate | earth | noreclose
  deriving DecidableEq, Repr

/-- The reasons a DENY carries: FULL, SECTION, BREAKER (R118). -/
inductive DenyReason where
  | full | wrongSection | breaker
  deriving DecidableEq, Repr

/-- The causes an INTERTRIP carries, lowest first (R154). -/
inductive IntertripCause where
  | fault | backup | emergency
  deriving DecidableEq, Repr

/-- The feeder class of a beacon entry (R70). -/
inductive FeederClass where
  | inService | reclosing | opened
  deriving DecidableEq, Repr

/-- One entry of a BEACON: a line section, the breaker state there and the feeder class (7.2). -/
structure BeaconEntry where
  line : Byte
  closed : Bool
  feederClass : FeederClass
  deriving DecidableEq, Repr

/-- The eight kinds of link message with their fields (7.2). -/
inductive MsgBody where
  | beacon (entries : List BeaconEntry) (delivering : Bool)
  | intertrip (line : Byte) (cause : IntertripCause)
  | ask (id line : Byte) (kind : HoldKind)
  | grant (id holdId : Byte)
  | deny (id : Byte) (reason : DenyReason)
  | drop (id : Byte)
  | dropped (id : Byte)
  | audit (ids : List Byte)
  deriving DecidableEq, Repr

/-- The hardwired contact inputs (1.4, R209, 10.6): CLOSED and OPEN contacts of six breakers, six earth switches and the AC
breaker; the authority, settings and supervisor keys; the ISOLATE contacts of the seven hold keys and the EARTH contacts of
keys 1 to 6; the OPEN and CLOSE pushbuttons of each feeder, START, STOP and EMERGENCY. -/
inductive InputId where
  | breakerClosed (k : FeederNo)
  | breakerOpen (k : FeederNo)
  | earthClosed (k : FeederNo)
  | earthOpen (k : FeederNo)
  | acClosed
  | acOpen
  | authorityKey
  | settingsKey
  | supervisorKey
  | holdIsolate (n : KeyNo)
  | holdEarth (k : FeederNo)
  | openButton (k : FeederNo)
  | closeButton (k : FeederNo)
  | startButton
  | stopButton
  | emergencyButton
  deriving DecidableEq, Repr

/-- The thirteen pairs of contacts from which a switch position is derived (1.4). -/
inductive PairId where
  | breaker (k : FeederNo)
  | earth (k : FeederNo)
  | ac
  deriving DecidableEq, Repr

/-- The blocks that take a sample arrival (R8), and the two that judge on every arrival besides: the waits of a feeder in
DEAD-TIME (R57) and the dead proof of the holds (R124). -/
inductive ArrivalTaker where
  | engine (k : FeederNo)
  | sections
  | rectifier
  | bands
  | holds
  | waits (k : FeederNo)
  deriving DecidableEq, Repr

/-- A sample frame as it stands on the sample bus (11.2): sequence number, the fifteen values of its bytes 1 to 30, the VALID word
and the SATURATED word, whose bit 15 is ignored (R213), and the check code it carries. The names of R1 are sixteen: the reading of
TT, the last of them, comes beside the thirty-seven bytes with a VALID and a SATURATED bit of its own (assumption 2). -/
structure SampleFrame where
  seq : Byte
  values : Vector Half 15
  valid : Half
  saturated : Half
  check : Half
  tt : Half
  ttValid : Bool
  ttSaturated : Bool
  deriving DecidableEq, Repr

/-- The commands and events of spec/opcode_table.json, one constructor a row, in the table's order. -/
inductive Instr where
  /-- POWER_ON -/
  | powerOn
  /-- RESET_INPUT: the input is asserted. -/
  | resetInput
  /-- EQUIPMENT_VERIFICATION_END -/
  | equipmentVerificationEnd
  /-- SAMPLE_FRAME: `order` is the order in which the blocks take the arrival, which R8 does not fix. -/
  | sampleFrame (f : SampleFrame) (order : List ArrivalTaker)
  /-- FRAME_TIMEOUT -/
  | frameTimeout
  /-- CONTACT_RAW_CHANGE: the raw level of an input becomes `on`. -/
  | contactRawChange (i : InputId) (on : Bool)
  /-- INPUT_CHANGE: the raw level of an input has stood for 3 ms. -/
  | inputChange (i : InputId)
  /-- TRANSIT_TIMER_EXPIRY -/
  | transitTimerExpiry (p : PairId)
  /-- OPEN_TIMER_EXPIRY -/
  | openTimerExpiry (k : FeederNo)
  /-- CLOSE_TIMER_EXPIRY -/
  | closeTimerExpiry (k : FeederNo)
  /-- DEAD_TIMER_EXPIRY -/
  | deadTimerExpiry (k : FeederNo)
  /-- TEST_TIMER_EXPIRY -/
  | testTimerExpiry (k : FeederNo)
  /-- RECLAIM_TIMER_EXPIRY -/
  | reclaimTimerExpiry (k : FeederNo)
  /-- COMMUTATION_REFERENCE: `elapsed` is the time since the previous reference in microseconds, as the part measures it. -/
  | commutationReference (elapsed : Nat)
  /-- GATE_PULSE: the placement time of the oldest pending pulse of this pair (1 to 6) of this bridge comes. -/
  | gatePulse (bridge : Bridge) (pair : Nat)
  /-- REFERENCE_SUPERVISION_EXPIRY -/
  | referenceSupervisionExpiry
  /-- SYNC_TIMER_EXPIRY -/
  | syncTimerExpiry
  /-- WAKE_TIMER_EXPIRY -/
  | wakeTimerExpiry
  /-- EARTH_MISMATCH_TIMER_EXPIRY -/
  | earthMismatchTimerExpiry (k : FeederNo)
  /-- SECURING_LIMIT_EXPIRY -/
  | securingLimitExpiry (id : Byte)
  /-- PROVING_WAIT_EXPIRY -/
  | provingWaitExpiry (id : Byte)
  /-- PROVING_LIMIT_EXPIRY -/
  | provingLimitExpiry (id : Byte)
  /-- EARTHING_LIMIT_EXPIRY -/
  | earthingLimitExpiry (id : Byte)
  /-- DROP_LIMIT_EXPIRY -/
  | dropLimitExpiry (id : Byte)
  /-- RETIRE_TIMER_EXPIRY -/
  | retireTimerExpiry (id : Byte)
  /-- MINUTE_TIMER_EXPIRY -/
  | minuteTimerExpiry (id : Byte)
  /-- BEACON -/
  | beacon (p : Port) (station : Byte) (entries : List BeaconEntry) (delivering : Bool)
  /-- INTERTRIP -/
  | intertrip (p : Port) (station : Byte) (line : Byte) (cause : IntertripCause)
  /-- ASK -/
  | ask (p : Port) (station : Byte) (id line : Byte) (kind : HoldKind)
  /-- GRANT -/
  | grant (p : Port) (station : Byte) (id holdId : Byte)
  /-- DENY -/
  | deny (p : Port) (station : Byte) (id : Byte) (reason : DenyReason)
  /-- DROP -/
  | drop (p : Port) (station : Byte) (id : Byte)
  /-- DROPPED -/
  | dropped (p : Port) (station : Byte) (id : Byte)
  /-- AUDIT -/
  | audit (p : Port) (station : Byte) (ids : List Byte)
  /-- DISCARDED_MESSAGE -/
  | discardedMessage (p : Port)
  /-- SUPERVISION_TIMER_EXPIRY -/
  | supervisionTimerExpiry (p : Port)
  /-- TRANSMISSION_COMPLETION -/
  | transmissionCompletion (p : Port)
  /-- BEACON_TIMER_EXPIRY -/
  | beaconTimerExpiry (p : Port)
  /-- STATION_TIME_TICK -/
  | stationTimeTick
  /-- SELECTION_TIMER_EXPIRY -/
  | selectionTimerExpiry
  /-- ERASE_COMPLETION: `verified` is the outcome of the verify of the target's bytes. -/
  | eraseCompletion (verified : Bool)
  /-- PROGRAM_COMPLETION: `verified` is the outcome of the read-back. -/
  | programCompletion (verified : Bool)
  /-- SEL_ARMING -/
  | selArming
  /-- EMPTY_FRAME -/
  | emptyFrame
  /-- BROKEN_FRAME -/
  | brokenFrame
  /-- UNKNOWN_COMMAND -/
  | unknownCommand (code : Byte)
  /-- READ_STATUS -/
  | readStatus
  /-- READ_FEEDER -/
  | readFeeder (feeder : Byte)
  /-- READ_TRIP_RECORD -/
  | readTripRecord (feeder choice : Byte)
  /-- READ_SECTION -/
  | readSection (number : Byte)
  /-- READ_HOLD -/
  | readHold (id : Byte)
  /-- LIST_HOLDS -/
  | listHolds
  /-- READ_RECTIFIER -/
  | readRectifier
  /-- READ_ALERTS -/
  | readAlerts
  /-- READ_POINT -/
  | readPoint (point : Byte)
  /-- READ_LINK -/
  | readLink (port : Byte)
  /-- READ_SETTINGS_STATUS -/
  | readSettingsStatus
  /-- READ_STAGING -/
  | readStaging (offset : Half) (length : Byte)
  /-- READ_TIME -/
  | readTime
  /-- SELECT -/
  | select (target action : Byte)
  /-- OPERATE -/
  | operate (target action : Byte)
  /-- CANCEL_SELECTION -/
  | cancelSelection
  /-- RESET_LOCKOUT -/
  | resetLockout (feeder : Byte)
  /-- CLEAR_TRIP_RECORDS: a feeder, or 255 for all. -/
  | clearTripRecords (feeder : Byte)
  /-- PLACE_HOLD: kind, holder tag, section count, that many sections, duration in minutes (0 for absent). -/
  | placeHold (kind : Byte) (tag : Half) (count : Byte) (sections : List Byte) (duration : Half)
  /-- RELEASE_HOLD -/
  | releaseHold (id : Byte) (tag : Half)
  /-- EXTEND_HOLD -/
  | extendHold (id : Byte) (tag duration : Half)
  /-- DISMISS_HOLD -/
  | dismissHold (id : Byte) (tag : Half)
  /-- FORCE_RELEASE -/
  | forceRelease (id : Byte)
  /-- ACKNOWLEDGE_POINT -/
  | acknowledgePoint (point : Byte)
  /-- ACKNOWLEDGE_ALL -/
  | acknowledgeAll
  /-- SET_TIME -/
  | setTime (time : BitVec 48)
  /-- WRITE_STAGING: offset, count, that many data bytes. -/
  | writeStaging (offset : Half) (count : Byte) (data : List Byte)
  /-- ERASE -/
  | erase (target : Byte)
  /-- PROGRAM -/
  | program (target : Byte)
  /-- ACTIVATE -/
  | activate (group : Byte)
  /-- CLEAR_SETTINGS_STATUS -/
  | clearSettingsStatus
  /-- SET_LOCK -/
  | setLock
  /-- CLEAR_LOCK -/
  | clearLock
  /-- RESTART -/
  | restart
  /-- RESET_INPUT_RELEASE -/
  | resetInputRelease
  deriving DecidableEq, Repr

end Sys2Proof
end

