-- ==== Sys2Proof/Decode.lean ====
section
/-! DEFINITION. Table words. No row of spec/opcode_table.json gives bits: the commands and events of this part are frames,
messages, contact levels and timers, and none is spelled by a word (assumption 22). How the bytes of a frame of the station
port and of a link message spell their commands stands in Machine/Framing.lean. -/

namespace Sys2Proof

/-- The command that a table word spells: none, for no row of the table has bits. -/
def decodeTableWord (_nbits _w : Nat) : Option Instr := none

end Sys2Proof
end

