-- ==== Sys2Proof/Config.lean ====
section
/-! DEFINITION. What the manual leaves open as a value (free values), and the bound the model itself sets on the handing of
consequences within one event. -/

namespace Sys2Proof.Config

/-- FREE VALUE. The byte a read shows for a field whose table marks it as always present while the part has no value for it:
the state of the sequencer of feeder k before equipment verification has ended (R71; number 2k) and the position of its
breaker while its pair is not settled and none has been handed (R12, R14, R16; number 2k + 1). Nothing constrains it (assumption 19). -/
opaque unstatedCode : Nat → Byte

/-- The greatest number of handings that one event carries out; what would then be left is dropped (DESIGN CHOICE,
assumption 3). -/
def handingBound : Nat := 4096

end Sys2Proof.Config
end

