-- ==== Sys2Proof/Machine/Settings.lean ====
section
/-! DEFINITION. The settings groups and the configuration record as the blocks use them, with the values of the FACTORY group
and of the factory configuration (2.4, 3.1, 4.1, 5.1, 8.4, 9.1). -/

namespace Sys2Proof.Machine

open Sys2Proof

/-- One parameter set of a feeder, SINGLE or DOUBLE (2.4). -/
structure ParamSet where
  imax : Nat
  dstart : Nat
  dreset : Nat
  ditrip : Nat
  wmax : Nat
  cconf : Nat
  irev : Nat
  trev : Nat
  revEnable : Bool
  deriving DecidableEq, Repr

/-- The thermal setting of a feeder: Ith in amperes, t2 in seconds (2.4). -/
structure ThermalSetting where
  ith : Nat
  t2 : Nat
  enable : Bool
  deriving DecidableEq, Repr

/-- The reclose settings of a feeder: T_dead and T_offset in half-seconds, T_reclaim in seconds, t_test in units of 10 ms, as
the image counts them (3.1, 11.4). -/
structure RecloseSettings where
  nRec : Nat
  tDead : Nat
  tOffset : Nat
  tReclaim : Nat
  uBusmin : Nat
  tTest : Nat
  qPass : Nat
  deriving DecidableEq, Repr

/-- All settings of one feeder in a group. -/
structure FeederSettings where
  single : ParamSet
  double : ParamSet
  thermal : ThermalSetting
  reclose : RecloseSettings
  deriving DecidableEq, Repr

/-- The rectifier settings of a group (4.1); `wakeLong` is the wake delay of 100 ms, else 20 ms. -/
structure RectSettings where
  uSet : Nat
  rd : Nat
  sRamp : Nat
  kv : Nat
  kc : Nat
  iLim : Nat
  uWake : Nat
  wakeLong : Bool
  tWarn : Nat
  tTrip : Nat
  deriving DecidableEq, Repr

/-- The settings of one watch band (8.4); bit n of the mask selects channel n. -/
structure BandSettings where
  enable : Bool
  mask : Half
  low : Int
  high : Int
  outside : Bool
  delay : Nat
  selfReset : Bool
  deriving DecidableEq, Repr

/-- One settings group. -/
structure GroupSettings where
  feeders : Vector FeederSettings 6
  rect : RectSettings
  uLive : Nat
  uDead : Nat
  bands : Vector BandSettings 8
  deriving DecidableEq, Repr

/-- Use of a link port and the number of the neighbour on it. -/
structure PortConfig where
  used : Bool
  neighbour : Byte
  deriving DecidableEq, Repr

/-- The configuration record (9.1). Times are in milliseconds, angles in tenths of a degree. -/
structure ConfigRec where
  station : Byte
  portA : PortConfig
  portB : PortConfig
  fitted : Vector Bool 6
  share : Vector (Option (Port × Byte)) 6
  rTest : Vector Nat 6
  tOpenMax : Nat
  tCloseMax : Nat
  tTransit : Nat
  alphaMin : Nat
  alphaMax : Nat
  autostart : Bool
  restartEnable : Bool
  masks : Vector Bool 79
  deriving DecidableEq, Repr

/-- The configuration of one port. -/
def ConfigRec.port (c : ConfigRec) : Port → PortConfig
  | .a => c.portA
  | .b => c.portB

/-- FACTORY values of a parameter set; SINGLE and DOUBLE are equal (2.4). -/
def factoryParams : ParamSet :=
  { imax := 4000, dstart := 40, dreset := 20, ditrip := 1500, wmax := 80, cconf := 4, irev := 2000, trev := 400,
    revEnable := false }

/-- FACTORY settings of every feeder (2.4, 3.1). -/
def factoryFeeder : FeederSettings :=
  { single := factoryParams
    double := factoryParams
    thermal := { ith := 1000, t2 := 60, enable := true }
    reclose := { nRec := 2, tDead := 10, tOffset := 4, tReclaim := 30, uBusmin := 500, tTest := 20, qPass := 64 } }

/-- FACTORY rectifier settings (4.1). -/
def factoryRect : RectSettings :=
  { uSet := 750, rd := 10, sRamp := 16, kv := 32, kc := 16, iLim := 6000, uWake := 650, wakeLong := true, tWarn := 110,
    tTrip := 130 }

/-- FACTORY settings of every watch band (8.4). -/
def factoryBand : BandSettings :=
  { enable := false, mask := 0, low := 0, high := 0, outside := false, delay := 1, selfReset := false }

/-- The FACTORY group, built into the part (R185). -/
def factoryGroup : GroupSettings :=
  { feeders := Vector.replicate 6 factoryFeeder, rect := factoryRect, uLive := 500, uDead := 50,
    bands := Vector.replicate 8 factoryBand }

/-- The factory configuration (9.1). -/
def factoryConfig : ConfigRec :=
  { station := 1
    portA := { used := false, neighbour := 0 }
    portB := { used := false, neighbour := 0 }
    fitted := Vector.replicate 6 true
    share := Vector.replicate 6 none
    rTest := Vector.replicate 6 20
    tOpenMax := 60
    tCloseMax := 300
    tTransit := 100
    alphaMin := 150
    alphaMax := 1500
    autostart := false
    restartEnable := true
    masks := Vector.replicate 79 false }

end Sys2Proof.Machine
end

