-- ==== Sys2Proof/Machine/Records.lean ====
section
/-! DEFINITION. The records the blocks of the TS612 own (00_scope.md, The device in outline), field by field as the tables of
the chapters list them. Remaining times are in milliseconds; `none` is a stopped timer or an absent field. -/

namespace Sys2Proof.Machine

open Sys2Proof

/-- A stamp: station time with TIME-NOT-SET as it stood (R181). -/
structure Stamp where
  time : BitVec 48
  notSet : Bool
  deriving DecidableEq, Repr

/-- The refusal codes in the order of the table of 10.1, which is the order of their codes 0x01 to 0x11 (11.1). -/
inductive RefusalCode where
  | badCommand | badOperand | badSection | notFitted | authority | notSelected | interlock | state | busy | full | notFound
  | notHolder | locked | notErased | activeGroup | range | disabled
  deriving DecidableEq, Repr

/-- The result of a command: ACCEPTED or a refusal code. -/
inductive CmdResult where
  | accepted
  | refused (code : RefusalCode)
  deriving DecidableEq, Repr

/-! ### Measurement Interface (chapter 1) -/

/-- The states of a channel record (R7). -/
inductive ChannelState where
  | good | stale | failed
  deriving DecidableEq, Repr

/-- A channel record (1.1). -/
structure Channel where
  value : Int
  saturated : Bool
  state : ChannelState
  miss : Nat
  goodRun : Nat
  deriving DecidableEq, Repr

/-- The reception record of the sample bus (1.2). -/
structure Reception where
  lastSeq : Option Byte
  charge : Nat
  timeout : Option Nat
  deriving DecidableEq, Repr

/-- A contact input: its raw level (the pin), its debounced level once settled, its stability timer (R11). -/
structure ContactInput where
  raw : Bool
  level : Option Bool
  stability : Option Nat
  deriving DecidableEq, Repr

/-- The switch positions of R12. -/
inductive Pos where
  | closed | opened | transit | discrepant
  deriving DecidableEq, Repr

/-- A pair of contacts: the position derived from them (R12, R13), the position last handed to the owners (R14, R15), and the
transit timer. -/
structure SwitchPair where
  derived : Option Pos
  handed : Option Pos
  transit : Option Nat
  deriving DecidableEq, Repr

/-- The Measurement Interface. `mismatch` is its contribution to point 62 (R15, step 2). -/
structure Measurement where
  channels : Vector Channel 16
  reception : Reception
  inputs : Vector ContactInput 57
  pairs : Vector SwitchPair 13
  mismatch : Bool
  deriving DecidableEq, Repr

/-! ### Feeder Units (chapters 2 and 3) -/

/-- The parameter sets a feeder may use. -/
inductive SetSel where
  | single | double
  deriving DecidableEq, Repr

/-- The group a copy of settings was taken from. -/
inductive GroupSource where
  | group (g : GroupNo)
  | factory
  deriving DecidableEq, Repr

/-- The DELTA stages (2.1). -/
inductive Stage where
  | idle | rising | confirm | tripped
  deriving DecidableEq, Repr

/-- The arming fields (2.1). -/
structure Arming where
  base : Nat
  window : Nat
  confirm : Nat
  lowRun : Nat
  rate : Int
  peak : Nat
  deriving DecidableEq, Repr

/-- The settings copy of an engine (R22). -/
structure SettingsCopy where
  single : ParamSet
  double : ParamSet
  thermal : ThermalSetting
  source : GroupSource
  deriving DecidableEq, Repr

/-- The discrimination record (2.1); `history` holds at most two feed currents, newest first. -/
structure Engine where
  stage : Stage
  history : List Nat
  imaxCount : Nat
  revCount : Nat
  arming : Option Arming
  heat : Nat
  warning : Bool
  recloseBar : Bool
  copy : SettingsCopy
  setInUse : SetSel
  wanted : SetSel
  groupPending : Bool
  deriving DecidableEq, Repr

/-- The trip causes of a feeder in the order of the sequencer record (3.1). -/
inductive TripCause where
  | imax | delta | thermal | reverse | direct | intertrip | backup | measure | emergency | command | hold
  deriving DecidableEq, Repr

/-- The items of a trip record that stand only with the baseline (R34). -/
structure RiseData where
  base : Nat
  delta : Int
  rate : Int
  window : Nat
  deriving DecidableEq, Repr

/-- A trip record (R34, R45). -/
structure TripRecord where
  cause : TripCause
  feed : Nat
  saturated : Bool
  peak : Nat
  rise : Option RiseData
  set : SetSel
  source : GroupSource
  heatShare : Nat
  attempt : Nat
  stamp : Stamp
  deriving DecidableEq, Repr

/-- The states of a breaker sequencer (3.1). -/
inductive SeqState where
  | notFitted | inService | tripping | opened | deadTime | lineTest | closing | lockout | breakerFault
  deriving DecidableEq, Repr

/-- The outcome override of TRIPPING. -/
inductive Override where
  | opened | lockout
  deriving DecidableEq, Repr

/-- AUTOMATIC or MANUAL. -/
inductive CloseKind where
  | automatic | manual
  deriving DecidableEq, Repr

/-- The reasons for which a feeder waits in DEAD-TIME (R56). -/
inductive WaitReason where
  | bus | limit | thermal
  deriving DecidableEq, Repr

/-- The kinds of failure in BREAKER-FAULT. -/
inductive FailureKind where
  | openFailed | discrepant
  deriving DecidableEq, Repr

/-- The last close outcome (3.1). -/
inductive CloseOutcome where
  | none | closed | closeFailed | testFailed
  deriving DecidableEq, Repr

/-- The sequencer record (3.1). The trip coil is driven while `openPulse` runs. `closeTimer` may go on running after
`closeCoil` has been released (R65). `state` is absent until equipment verification has ended (R71). -/
structure Sequencer where
  state : Option SeqState
  cause : Option TripCause
  override : Option Override
  inReclaim : Option Bool
  attempts : Nat
  closeKind : Option CloseKind
  wait : Option WaitReason
  holdOpenPending : Bool
  failure : Option FailureKind
  deadTimer : Option Nat
  testTimer : Option Nat
  reclaimTimer : Option Nat
  openPulse : Option Nat
  closeCoil : Bool
  closeTimer : Option Nat
  testContactor : Bool
  lastClose : CloseOutcome
  trips : Nat
  first : Option TripRecord
  last : Option TripRecord
  deriving DecidableEq, Repr

/-! ### Rectifier Group Controller (chapter 4) -/

/-- The states of the rectifier group (4.1). -/
inductive RectState where
  | off | syncing | ramping | regulating | limiting | standby | tripped
  deriving DecidableEq, Repr

/-- The trip causes of the rectifier group (4.1). -/
inductive RectCause where
  | busFault | temp | mains | acBreaker | measure | backup | emergency | bridge
  deriving DecidableEq, Repr

/-- What the rectifier record keeps of one bridge: whether its use is LOST, its low count, its pair counter. -/
structure BridgeRec where
  lost : Bool
  low : Nat
  pair : Nat
  deriving DecidableEq, Repr

/-- A gate pulse: bridge, pair, and its place in microseconds after its reference (R73). -/
structure GatePulse where
  bridge : Bridge
  pair : Nat
  delay : Int
  deriving DecidableEq, Repr

/-- The rectifier record (4.1), with the reference supervision timer (R72), whether a reference has been taken since the
reset, the pending gate pulses in the order they were placed, and the pulse last emitted on the gate outputs. `settings` are the rectifier settings that apply: those of a new group
from the next sample arrival on (R92). -/
structure Rectifier where
  state : RectState
  cause : Option RectCause
  tripTime : Option Stamp
  alpha : Int
  ramp : Option Nat
  uRef : Option Int
  degraded : Bool
  bridge1 : BridgeRec
  bridge2 : BridgeRec
  syncCount : Option Nat
  syncTimer : Option Nat
  wakeTimer : Option Nat
  refSeen : Bool
  lastInterval : Option Nat
  refTimer : Option Nat
  refsPresent : Bool
  busFault : Nat
  acDrive : Bool
  dips : Nat
  autostart : Option CmdResult
  pulses : List GatePulse
  gateOut : Option GatePulse
  settings : RectSettings
  deriving DecidableEq, Repr

/-! ### Section Table (chapter 5) -/

/-- What the neighbour last reported about its breaker (R98). -/
inductive NeighbourBreaker where
  | closed | opened | unknown
  deriving DecidableEq, Repr

/-- Energisation of a section (R96). -/
inductive Energisation where
  | live | dead | unproven
  deriving DecidableEq, Repr

/-- Feed mode of a section (R99). -/
inductive FeedMode where
  | fedBoth | fedLocal | fedRemote | unfed
  deriving DecidableEq, Repr

/-- The drive of an earth switch (R106). -/
inductive EarthDrive where
  | close | opened | none
  deriving DecidableEq, Repr

/-- The set of bar reasons; the permission is BARRED while one holds (R108). -/
structure BarReasons where
  held : Bool
  busHeld : Bool
  earthed : Bool
  lockout : Bool
  breakerFault : Bool
  notFitted : Bool
  deriving DecidableEq, Repr

/-- A section record (5.1). Kind, fitted, sharing port and line section are those of the configuration in use (R95) and stand
there once. `mismatch` is the condition of point 36+k that the Section Table holds (R107). -/
structure SectionRec where
  neighbour : Option NeighbourBreaker
  energisation : Energisation
  deadRun : Nat
  feed : FeedMode
  isolate : Nat
  earth : Nat
  noreclose : Nat
  commandedClosed : Bool
  drive : EarthDrive
  mismatchTimer : Option Nat
  mismatch : Bool
  bars : BarReasons
  wanted : SetSel
  deriving DecidableEq, Repr

/-! ### Hold Table (chapter 6) -/

/-- Origin of a hold. -/
inductive Origin where
  | station | panel | peerA | peerB
  deriving DecidableEq, Repr

/-- States of a hold. -/
inductive HoldState where
  | securing | proving | earthing | active | releasing | failed
  deriving DecidableEq, Repr

/-- Status of a peer ask. -/
inductive AskStatus where
  | none | asked | granted | denied
  deriving DecidableEq, Repr

/-- One peer ask of a hold (6.1). -/
structure PeerAsk where
  port : Port
  line : Byte
  status : AskStatus
  peerId : Option Byte
  deny : Option DenyReason
  awaiting : Bool
  deriving DecidableEq, Repr

/-- Purpose of a release. -/
inductive Purpose where
  | retire | convert
  deriving DecidableEq, Repr

/-- Phase of a release. -/
inductive Phase where
  | earthOpen | peerDrop
  deriving DecidableEq, Repr

/-- Failure reasons of a hold (6.1). -/
inductive FailReason where
  | breaker | live | measure | peerDenied | peerLost | earth | timeout | reset
  deriving DecidableEq, Repr

/-- The timers of a hold (6.1). -/
structure HoldTimers where
  securing : Option Nat
  provingWait : Option Nat
  provingLimit : Option Nat
  earthing : Option Nat
  drop : Option Nat
  retire : Option Nat
  minute : Option Nat
  deriving DecidableEq, Repr

/-- A hold record (6.1). `unearth` is the set of sections a hold in EARTH-OPEN waits for (R134, R135). -/
structure Hold where
  id : Byte
  kind : HoldKind
  origin : Origin
  tag : Half
  sections : List SectionNo
  state : HoldState
  remaining : Option Nat
  asks : List PeerAsk
  purpose : Option Purpose
  phase : Option Phase
  unearth : List SectionNo
  failure : Option FailReason
  placed : Stamp
  timers : HoldTimers
  deriving DecidableEq, Repr

/-- Positions of a hold key. -/
inductive KeyPos where
  | off | isolate | earth
  deriving DecidableEq, Repr

/-- A key record (6.1). -/
structure KeyRec where
  pos : KeyPos
  bound : Option Byte
  needsCycling : Bool
  lastRefusal : Option RefusalCode
  deriving DecidableEq, Repr

/-- The Hold Table. `resetFailed` says that the last reset made a record FAILED, until verification ends (R144). -/
structure HoldTable where
  holds : List Hold
  lastId : Byte
  keys : Vector KeyRec 7
  resetFailed : Bool
  deriving DecidableEq, Repr

/-! ### Neighbour Link Unit (chapter 7) -/

/-- Link states (7.1). -/
inductive LinkState where
  | unused | down | joining | up
  deriving DecidableEq, Repr

/-- The neighbour report: the contents of the last valid BEACON. -/
structure Report where
  entries : List BeaconEntry
  delivering : Bool
  deriving DecidableEq, Repr

/-- The last intertrip received. -/
structure IntertripRec where
  line : Byte
  cause : IntertripCause
  stamp : Stamp
  deriving DecidableEq, Repr

/-- A pending INTERTRIP. -/
structure PendingIntertrip where
  line : Byte
  cause : IntertripCause
  deriving DecidableEq, Repr

/-- A pending hold message or AUDIT (R152, R153); the AUDIT takes its list only when its sending begins. -/
inductive HoldMsg where
  | ask (id line : Byte) (kind : HoldKind)
  | drop (id : Byte)
  | grant (id holdId : Byte)
  | deny (id : Byte) (reason : DenyReason)
  | dropped (id : Byte)
  | audit
  deriving DecidableEq, Repr

/-- The message in flight: the sender's station number as it stood when the sending began, and its fields. -/
structure InFlight where
  station : Byte
  body : MsgBody
  deriving DecidableEq, Repr

/-- A link record (7.1). Use and neighbour station number are those of the configuration in use (R146) and stand there once. -/
structure Link where
  state : LinkState
  joinCount : Option Nat
  supervision : Option Nat
  errors : Nat
  report : Option Report
  lastIntertrip : Option IntertripRec
  intertrips : List PendingIntertrip
  messages : List HoldMsg
  beaconDue : Bool
  beaconTimer : Option Nat
  inFlight : Option InFlight
  deriving DecidableEq, Repr

/-! ### Annunciation Unit (chapter 8) -/

/-- States of a point (8.1). -/
inductive PointState where
  | normal | unack | acked | clearedUnack
  deriving DecidableEq, Repr

/-- Classes of a point. -/
inductive PointClass where
  | latching | selfReset
  deriving DecidableEq, Repr

/-- A point record (8.1). Class and mask are those of the map (R178), the group in use and the configuration in use.
`gathered` counts the pulses handed while the AU gathers after a reset (R184). -/
structure PointRec where
  condition : Bool
  state : PointState
  rise : Option Stamp
  repeats : Option Nat
  gathered : Nat
  deriving DecidableEq, Repr

/-- What the AU keeps of a watch band (8.4). -/
structure BandRec where
  condition : Bool
  run : Nat
  deriving DecidableEq, Repr

/-- The Annunciation Unit. `joining` holds, within one event, the points that join the alert list in it, in ascending number
(R174); it is empty between events. -/
structure Annunciation where
  points : Vector PointRec 79
  alerts : List PointNo
  joining : List PointNo
  attn : Bool
  bands : Vector BandRec 8
  time : BitVec 48
  timeNotSet : Bool
  deriving DecidableEq, Repr

/-! ### Settings Store (chapter 9) -/

/-- States of an image (R185). -/
inductive ImageState where
  | empty | valid | invalid
  deriving DecidableEq, Repr

/-- A stored image: its content bytes and the check code stored with them. -/
structure Image where
  state : ImageState
  content : List Byte
  code : Half
  deriving DecidableEq, Repr

/-- The targets of ERASE and PROGRAM. -/
inductive StoreTarget where
  | group (g : GroupNo)
  | config
  deriving DecidableEq, Repr

/-- The two operations of the store that take time. -/
inductive OpKind where
  | erase | program
  deriving DecidableEq, Repr

/-- An operation under way, with the station time of its start and the milliseconds since. -/
structure Operation where
  kind : OpKind
  target : StoreTarget
  start : Stamp
  elapsed : Nat
  deriving DecidableEq, Repr

/-- What the retained area keeps (R197). -/
structure Retained where
  holds : List Hold
  lastId : Byte
  active : GroupNo
  lock : Bool
  deriving DecidableEq, Repr

/-- One bank of the retained area; `good` says that its check code matches its copy and count. -/
structure Bank where
  copy : Retained
  generation : Nat
  good : Bool
  deriving DecidableEq, Repr

/-- The Settings Store (9.1). `configFault` is the device mode CONFIG-FAULT. -/
structure Store where
  groups : Vector Image 4
  config : Image
  staging : Vector Byte 512
  operation : Option Operation
  eraseError : Bool
  programError : Bool
  retainedLost : Bool
  fittedPending : Bool
  active : GroupNo
  factoryInUse : Bool
  configFault : Bool
  lock : Bool
  inUse : GroupSettings
  cfg : ConfigRec
  bank0 : Bank
  bank1 : Bank
  deriving DecidableEq, Repr

/-! ### Station Port and Panel (chapter 10) -/

/-- A switching target. -/
inductive Target where
  | feeder (k : FeederNo)
  | rectifier
  deriving DecidableEq, Repr

/-- A switching action. -/
inductive SwitchAction where
  | opened | close | start | stop | standby
  deriving DecidableEq, Repr

/-- The selection. -/
structure Selection where
  target : Target
  action : SwitchAction
  deriving DecidableEq, Repr

/-- The frame in progress (R200): code, bytes taken, operand bytes still required, and the snapshot of a read (R202). -/
structure FrameRec where
  code : Byte
  taken : Nat
  required : Nat
  snapshot : List Byte
  deriving DecidableEq, Repr

/-- The last command result. -/
structure LastResult where
  code : Byte
  result : CmdResult
  value : Nat
  deriving DecidableEq, Repr

/-- The port record (10.1). A frame stands between SEL asserted and SEL released only; since every row of the table is a whole
frame, none stands between two of them. `shown` is the model's own: the last frame of a read whose response data out has carried
to its end, as it stood at the release of SEL (assumption 20). -/
structure StationPort where
  localAuthority : Bool
  settingsKey : Bool
  supervisorKey : Bool
  emergency : Bool
  selection : Option Selection
  selectionTimer : Option Nat
  frame : Option FrameRec
  lastResult : Option LastResult
  frameErrors : Nat
  selArmed : Bool
  shown : Option FrameRec
  deriving DecidableEq, Repr

/-! ### Handings between the blocks -/

/-- A handing of one block to another that waits to be carried out within the event that made it. -/
inductive Signal where
  /-- A channel entered FAILED (R9). -/
  | channelFailed (c : ChannelNo)
  /-- A channel returned to GOOD from FAILED (R9). -/
  | channelRecovered (c : ChannelNo)
  /-- The values of a sample arrival are taken into the channel records (R3, R6). -/
  | takeValues (f : SampleFrame)
  /-- A sample arrival reaches a block; `valid` is the frame's VALID word (R8). -/
  | arrival (t : ArrivalTaker) (valid : Half)
  /-- The sequencer of a feeder changed its state (R70). -/
  | seqChanged (k : FeederNo)
  /-- The waits of a feeder are judged afresh (R57). -/
  | judgeWait (k : FeederNo)
  /-- A hold demand, or an open demand with cause HOLD (R65, R128). -/
  | holdDemand (k : FeederNo)
  /-- A noreclose count became nonzero (R58, R103). -/
  | recloseBar (k : FeederNo)
  /-- The isolate count of the bus became nonzero (R91). -/
  | busHold
  /-- A backup demand to a sequencer (R51). -/
  | backupTo (k : FeederNo)
  /-- A backup demand to the rectifier group (R90). -/
  | backupRectifier
  /-- A feeder enters CLOSING or LINE-TEST, or asks for the bus (R83). -/
  | wake
  /-- The rectifier group changed its state (R74). -/
  | rectChanged
  /-- A hold in SECURING is judged (R119, R120). -/
  | judgeHold (id : Byte)
  /-- A hold in EARTHING judges its earth switches (R126). -/
  | judgeEarthing (id : Byte)
  /-- A hold in phase EARTH-OPEN judges its unearth set (R135). -/
  | judgeUnearth (id : Byte)
  /-- The free transmitter of a port makes its choice for a demand that was queued (R153, R154). -/
  | choose (p : Port)
  /-- A link reached UP (R123, R150). -/
  | linkReachedUp (p : Port)
  /-- A link left UP (R123, R149). -/
  | linkLeftUp (p : Port)
  /-- A valid message is handed on by its kind (R151). -/
  | message (p : Port) (body : MsgBody)
  /-- A hold key takes the next position on its way (R140, R209). -/
  | keyMove (n : KeyNo) (pos : KeyPos)
  /-- A sequencer takes its starting state (R71). -/
  | startSequencer (k : FeederNo)
  /-- The Section Table and the rectifier group take the starting positions (R15 step 3, R111, R94). -/
  | startSections
  /-- The panel levels found are handed (R15 step 4, R145, R212). -/
  | startPanel
  /-- The Hold Table ends its settling after the reset (R144). -/
  | startHolds
  /-- AUTOSTART is judged (R94). -/
  | autostart
  /-- The links begin to send (R168). -/
  | startLinks
  deriving DecidableEq, Repr

end Sys2Proof.Machine
end

