-- ==== Sys2Proof/Machine/Codec.lean ====
section
/-! DEFINITION. Bytes: the check code (00_scope.md, Check code), the encoding of numbers (R213), the sample frame (11.2), and the
settings images with their range check (11.4, R187). -/

namespace Sys2Proof.Machine

open Sys2Proof

/-! ### Check code and numbers -/

/-- One bit of the check code: generator x^16 + x^12 + x^5 + 1, most significant bit first. -/
def crcBit (c : Half) : Half := if c.msb then (c <<< 1) ^^^ 0x1021 else c <<< 1

/-- One byte of the check code. -/
def crcByte (c : Half) (b : Byte) : Half :=
  crcBit (crcBit (crcBit (crcBit (crcBit (crcBit (crcBit (crcBit (c ^^^ (b.setWidth 16 <<< 8)))))))))

/-- The check code of a string of bytes: initial value 0xFFFF, no inversion of the result. -/
def checkCode (bytes : List Byte) : Half := bytes.foldl crcByte 0xFFFF

/-- R213: a number in `size` bytes, most significant byte first. -/
def bytesOfNat : (size : Nat) → Nat → List Byte
  | 0, _ => []
  | n + 1, v => bytesOfNat n (v / 256) ++ [BitVec.ofNat 8 v]

/-- R213: a number whose range includes negative values, in two's complement. -/
def bytesOfInt (size : Nat) (v : Int) : List Byte := bytesOfNat size (v % (256 ^ size : Nat)).toNat

/-- The number that bytes hold, most significant byte first. -/
def natOfBytes (bytes : List Byte) : Nat := bytes.foldl (fun a b => a * 256 + b.toNat) 0

/-- The two bytes of a word. -/
def bytesOfHalf (w : Half) : List Byte := [(w >>> 8).setWidth 8, w.setWidth 8]

/-- The word that two bytes hold. -/
def halfOfBytes (hi lo : Byte) : Half := (hi.setWidth 16 <<< 8) ||| lo.setWidth 16

/-! ### Sample frame (11.2) -/

/-- The bytes 0 to 34 of a sample frame, over which its check code stands: sequence number, values, VALID word, SATURATED word. -/
def frameBody (f : SampleFrame) : List Byte :=
  f.seq :: (f.values.toList.flatMap bytesOfHalf ++ bytesOfHalf f.valid ++ bytesOfHalf f.saturated)

/-- The value a frame carries for a channel: values 0 to 14 stand in the order UB, IB1, IB2, IF0 to IF5, UL0 to UL5 (11.2); TT
comes beside them (assumption 2). -/
def carriedValue (f : SampleFrame) (c : ChannelNo) : Int :=
  if h : c.val < 15 then (f.values.get ⟨c.val, h⟩).toInt else f.tt.toInt

/-- The VALID bits of a frame, bit n for channel n; bit 15 of the frame's own word is ignored (R213), and TT brings its bit with
it (assumption 2). -/
def validBits (f : SampleFrame) : Half := BitVec.cons f.ttValid (f.valid.setWidth 15)

/-- The SATURATED bits of a frame, in the same way. -/
def saturatedBits (f : SampleFrame) : Half := BitVec.cons f.ttSaturated (f.saturated.setWidth 15)

/-- R3: the check code computed over the frame matches the code it carries. -/
def frameChecks (f : SampleFrame) : Bool := checkCode (frameBody f) == f.check

/-- The frame with the check code its body calls for. -/
def sealFrame (f : SampleFrame) : SampleFrame := { f with check := checkCode (frameBody f) }

/-! ### Fields of an area (11.4) -/

/-- The number in `size` bytes of an area from offset `at`. -/
def areaNat (area : List Byte) (start size : Nat) : Nat := natOfBytes ((area.drop start).take size)

/-- The signed number in two bytes of an area. -/
def areaInt (area : List Byte) (start : Nat) : Int := (BitVec.ofNat 16 (areaNat area start 2)).toInt

/-- A value inside a range that both ends belong to. -/
def inRange (lo hi v : Nat) : Bool := decide (lo ≤ v) && decide (v ≤ hi)

/-- A value inside a range whose step is counted from the lower bound. -/
def inSteps (lo hi step v : Nat) : Bool := inRange lo hi v && (v - lo) % step == 0

/-- The nine fields of a parameter set, each against its range (2.4, R187). -/
def setChecks (a : List Byte) (o : Nat) : List Bool :=
  let dstart := areaNat a (o + 2) 2
  [ inSteps 1000 12000 50 (areaNat a o 2),
    inSteps 5 400 5 dstart,
    decide (areaNat a (o + 4) 2 + 5 ≤ dstart),
    inSteps 200 8000 50 (areaNat a (o + 6) 2),
    inRange 10 400 (areaNat a (o + 8) 2),
    inRange 1 40 (areaNat a (o + 10) 1),
    inRange 200 6000 (areaNat a (o + 11) 2),
    inRange 2 2000 (areaNat a (o + 13) 2),
    inRange 0 1 (areaNat a (o + 15) 1) ]

/-- The 28 fields of a feeder (11.4). -/
def feederChecks (a : List Byte) (o : Nat) : List Bool :=
  setChecks a o ++ setChecks a (o + 16) ++
  [ inSteps 200 4000 10 (areaNat a (o + 32) 2),
    inRange 10 600 (areaNat a (o + 34) 2),
    inRange 0 1 (areaNat a (o + 36) 1),
    inRange 0 3 (areaNat a (o + 37) 1),
    inRange 1 120 (areaNat a (o + 38) 1),
    inRange 0 40 (areaNat a (o + 39) 1),
    inRange 5 120 (areaNat a (o + 40) 1),
    inRange 300 800 (areaNat a (o + 41) 2),
    inRange 5 100 (areaNat a (o + 43) 1),
    inRange 1 255 (areaNat a (o + 44) 1) ]

/-- The ten rectifier fields and the two energisation thresholds (4.1, 5.1). -/
def stationChecks (a : List Byte) : List Bool :=
  [ inRange 550 900 (areaNat a 270 2),
    inRange 0 20 (areaNat a 272 1),
    inRange 1 255 (areaNat a 273 1),
    inRange 1 255 (areaNat a 274 1),
    inRange 1 255 (areaNat a 275 1),
    inRange 1000 8000 (areaNat a 276 2),
    inRange 500 740 (areaNat a 278 2),
    inRange 0 1 (areaNat a 280 1),
    inRange 60 140 (areaNat a 281 1),
    inRange (areaNat a 281 1) 160 (areaNat a 282 1),
    inRange 200 600 (areaNat a 283 2),
    inRange 30 200 (areaNat a 285 1) && decide (areaNat a 285 1 < areaNat a 283 2) ]

/-- The seven fields of a watch band (8.4). Every bit of the mask selects one of the sixteen channels (assumption 2), so that
field never fails. -/
def bandChecks (a : List Byte) (o : Nat) : List Bool :=
  let low := areaInt a (o + 3)
  let high := areaInt a (o + 5)
  [ inRange 0 1 (areaNat a o 1),
    true,
    decide (-12000 ≤ low) && decide (low ≤ 12000),
    decide (low ≤ high) && decide (high ≤ 12000),
    inRange 0 1 (areaNat a (o + 7) 1),
    inRange 1 2000 (areaNat a (o + 8) 2),
    inRange 0 1 (areaNat a (o + 10) 1) ]

/-- R187: all fields of a group area in the order of their field index, from 1. -/
def groupChecks (a : List Byte) : List Bool :=
  ([0, 1, 2, 3, 4, 5].flatMap fun k => feederChecks a (45 * k)) ++ stationChecks a ++
  ([0, 1, 2, 3, 4, 5, 6, 7].flatMap fun b => bandChecks a (286 + 11 * b))

/-- R187, 11.4: the sharing check made at the line section field of section `k`. -/
def sharingCheck (a : List Byte) (k : Nat) : Bool :=
  let port (j : Nat) := areaNat a (11 + 2 * j) 1
  let line (j : Nat) := areaNat a (12 + 2 * j) 1
  let use := if port k == 1 then areaNat a 1 1 else areaNat a 3 1
  let earlier := (List.range k).filter fun j => port j == port k
  port k == 0 ||
    (decide (0 < line k) && use == 0 && decide (earlier.length ≤ 1) && earlier.all fun j => line j != line k)

/-- R187: all fields of the configuration area in the order of their field index, from 1. -/
def configChecks (a : List Byte) : List Bool :=
  [ inRange 1 255 (areaNat a 0 1),
    inRange 0 1 (areaNat a 1 1),
    areaNat a 1 1 != 0 || inRange 1 255 (areaNat a 2 1),
    inRange 0 1 (areaNat a 3 1),
    areaNat a 3 1 != 0 || inRange 1 255 (areaNat a 4 1) ] ++
  ([0, 1, 2, 3, 4, 5].map fun k => inRange 0 1 (areaNat a (5 + k) 1)) ++
  ([0, 1, 2, 3, 4, 5].flatMap fun k => [inRange 0 2 (areaNat a (11 + 2 * k) 1), sharingCheck a k]) ++
  ([0, 1, 2, 3, 4, 5].map fun k => inRange 5 50 (areaNat a (23 + k) 1)) ++
  [ inRange 20 200 (areaNat a 29 1),
    inRange 100 1000 (areaNat a 30 2),
    inRange 20 500 (areaNat a 32 2),
    inRange 30 300 (areaNat a 34 2),
    inRange 1200 1600 (areaNat a 36 2),
    inRange 0 1 (areaNat a 38 1),
    inRange 0 1 (areaNat a 39 1),
    decide (areaNat a 49 1 < 2 ^ 7) ]

/-- The field index of the first check that fails, counting from `i`. -/
def firstFailing : Nat → List Bool → Option Nat
  | _, [] => none
  | i, ok :: rest => if ok then firstFailing (i + 1) rest else some i

/-! ### Images taken into use -/

/-- A parameter set read from an image. -/
def readParamSet (a : List Byte) (o : Nat) : ParamSet :=
  { imax := areaNat a o 2, dstart := areaNat a (o + 2) 2, dreset := areaNat a (o + 4) 2, ditrip := areaNat a (o + 6) 2,
    wmax := areaNat a (o + 8) 2, cconf := areaNat a (o + 10) 1, irev := areaNat a (o + 11) 2,
    trev := areaNat a (o + 13) 2, revEnable := areaNat a (o + 15) 1 == 1 }

/-- The settings of a feeder read from an image. -/
def readFeederSettings (a : List Byte) (o : Nat) : FeederSettings :=
  { single := readParamSet a o
    double := readParamSet a (o + 16)
    thermal := { ith := areaNat a (o + 32) 2, t2 := areaNat a (o + 34) 2, enable := areaNat a (o + 36) 1 == 1 }
    reclose :=
      { nRec := areaNat a (o + 37) 1, tDead := areaNat a (o + 38) 1, tOffset := areaNat a (o + 39) 1,
        tReclaim := areaNat a (o + 40) 1, uBusmin := areaNat a (o + 41) 2, tTest := areaNat a (o + 43) 1,
        qPass := areaNat a (o + 44) 1 } }

/-- The settings of a watch band read from an image; codes by R213: INSIDE 0, OUTSIDE 1; LATCHING 0, SELF-RESET 1. -/
def readBandSettings (a : List Byte) (o : Nat) : BandSettings :=
  { enable := areaNat a o 1 == 1, mask := BitVec.ofNat 16 (areaNat a (o + 1) 2), low := areaInt a (o + 3),
    high := areaInt a (o + 5), outside := areaNat a (o + 7) 1 == 1, delay := areaNat a (o + 8) 2,
    selfReset := areaNat a (o + 10) 1 == 1 }

/-- A settings group read from a group image (11.4). -/
def readGroup (a : List Byte) : GroupSettings :=
  { feeders := #v[readFeederSettings a 0, readFeederSettings a 45, readFeederSettings a 90, readFeederSettings a 135,
                  readFeederSettings a 180, readFeederSettings a 225]
    rect :=
      { uSet := areaNat a 270 2, rd := areaNat a 272 1, sRamp := areaNat a 273 1, kv := areaNat a 274 1,
        kc := areaNat a 275 1, iLim := areaNat a 276 2, uWake := areaNat a 278 2, wakeLong := areaNat a 280 1 == 1,
        tWarn := areaNat a 281 1, tTrip := areaNat a 282 1 }
    uLive := areaNat a 283 2
    uDead := areaNat a 285 1
    bands := #v[readBandSettings a 286, readBandSettings a 297, readBandSettings a 308, readBandSettings a 319,
                readBandSettings a 330, readBandSettings a 341, readBandSettings a 352, readBandSettings a 363] }

/-- The sharing entry of section `k` in a configuration image: port 0 none, 1 A, 2 B (11.4). -/
def readShare (a : List Byte) (k : Nat) : Option (Port × Byte) :=
  let line := BitVec.ofNat 8 (areaNat a (12 + 2 * k) 1)
  match areaNat a (11 + 2 * k) 1 with
  | 1 => some (.a, line)
  | 2 => some (.b, line)
  | _ => none

/-- The use and neighbour of a port in a configuration image; USED is code 0, UNUSED code 1 (R213, 7.1). -/
def readPort (a : List Byte) (o : Nat) : PortConfig :=
  { used := areaNat a o 1 == 0, neighbour := BitVec.ofNat 8 (areaNat a (o + 1) 1) }

/-- The mask of point `n`: bit n of byte 40 + n/8, counted from the least significant bit (11.4). -/
def readMask (a : List Byte) (n : Nat) : Bool := (areaNat a (40 + n / 8) 1).testBit (n % 8)

/-- A configuration record read from a configuration image (11.4). -/
def readConfig (a : List Byte) : ConfigRec :=
  let flag (o : Nat) := areaNat a o 1 == 1
  { station := BitVec.ofNat 8 (areaNat a 0 1)
    portA := readPort a 1
    portB := readPort a 3
    fitted := #v[flag 5, flag 6, flag 7, flag 8, flag 9, flag 10]
    share := #v[readShare a 0, readShare a 1, readShare a 2, readShare a 3, readShare a 4, readShare a 5]
    rTest := #v[areaNat a 23 1, areaNat a 24 1, areaNat a 25 1, areaNat a 26 1, areaNat a 27 1, areaNat a 28 1]
    tOpenMax := areaNat a 29 1
    tCloseMax := areaNat a 30 2
    tTransit := areaNat a 32 2
    alphaMin := areaNat a 34 2
    alphaMax := areaNat a 36 2
    autostart := flag 38
    restartEnable := flag 39
    masks := Vector.ofFn fun n : Fin 79 => readMask a n.val }

end Sys2Proof.Machine
end

