-- ==== Sys2Proof/Machine/Initial.lean ====
section
/-! DEFINITION. The reset values of the records, as the last section of each chapter states them (R16, R41, R71, R94, R111,
R145, R168, R184, R198, R212). -/

namespace Sys2Proof.Machine

open Sys2Proof

/-- R28: Hlim is 3·Ik²·t2·2,000 with Ik = Ith/10 truncated. -/
def heatLimit (t : ThermalSetting) : Nat := 3 * (t.ith / 10) ^ 2 * t.t2 * 2000

/-- R16: a channel record after either reset. -/
def initialChannel : Channel := { value := 0, saturated := false, state := .stale, miss := 0, goodRun := 0 }

/-- R5, R16: the reception record after either reset; the first frame timeout comes 202 ms after the reset. -/
def initialReception : Reception := { lastSeq := none, charge := 0, timeout := some 202 }

/-- R11, R16: an input after either reset is not settled; the raw level is the plant's and stays. -/
def initialInput (raw : Bool) : ContactInput := { raw := raw, level := none, stability := none }

/-- R16: a pair of contacts after either reset. -/
def initialPair : SwitchPair := { derived := none, handed := none, transit := none }

/-- R22: a settings copy of a feeder's settings in one group. -/
def settingsCopyOf (f : FeederSettings) (source : GroupSource) : SettingsCopy :=
  { single := f.single, double := f.double, thermal := f.thermal, source := source }

/-- R41: the discrimination record after either reset. -/
def initialEngine (f : FeederSettings) (source : GroupSource) : Engine :=
  { stage := .idle, history := [], imaxCount := 0, revCount := 0, arming := none, heat := heatLimit f.thermal / 2,
    warning := false, recloseBar := false, copy := settingsCopyOf f source, setInUse := .single, wanted := .single,
    groupPending := false }

/-- R71: the sequencer record after a reset, with the trip counter and records it is given. -/
def initialSequencer (trips : Nat) (first last : Option TripRecord) : Sequencer :=
  { state := none, cause := none, override := none, inReclaim := none, attempts := 0, closeKind := none, wait := none,
    holdOpenPending := false, failure := none, deadTimer := none, testTimer := none, reclaimTimer := none,
    openPulse := none, closeCoil := false, closeTimer := none, testContactor := false, lastClose := .none, trips := trips,
    first := first, last := last }

/-- A bridge in use with nothing counted. -/
def initialBridge : BridgeRec := { lost := false, low := 0, pair := 0 }

/-- R94: the rectifier record after a reset, with the settings of the group in use, α_max of the configuration in use and the
mains dip counter it is given. -/
def initialRectifier (settings : RectSettings) (alphaMax : Nat) (dips : Nat) : Rectifier :=
  { state := .off, cause := none, tripTime := none, alpha := alphaMax, ramp := none, uRef := none, degraded := false,
    bridge1 := initialBridge, bridge2 := initialBridge, syncCount := none, syncTimer := none, wakeTimer := none,
    refSeen := false, lastInterval := none, refTimer := none, refsPresent := false, busFault := 0, acDrive := false,
    dips := dips, autostart := none, pulses := [], gateOut := none, settings := settings }

/-- R111: a section record after either reset, before the counts and the derivations are made. -/
def initialSection (shared : Bool) : SectionRec :=
  { neighbour := if shared then some .unknown else none, energisation := .unproven, deadRun := 0, feed := .unfed,
    isolate := 0, earth := 0, noreclose := 0, commandedClosed := false, drive := .none, mismatchTimer := none,
    mismatch := false,
    bars := { held := false, busHeld := false, earthed := false, lockout := false, breakerFault := false,
              notFitted := false },
    wanted := .single }

/-- A key record before it is rebuilt (R145). -/
def initialKey : KeyRec := { pos := .off, bound := none, needsCycling := false, lastRefusal := none }

/-- No timer of a hold runs. -/
def noHoldTimers : HoldTimers :=
  { securing := none, provingWait := none, provingLimit := none, earthing := none, drop := none, retire := none,
    minute := none }

/-- R168: a link record after a reset, with the error counter it is given. -/
def initialLink (used : Bool) (errors : Nat) : Link :=
  { state := if used then .down else .unused, joinCount := none, supervision := none, errors := errors, report := none,
    lastIntertrip := none, intertrips := [], messages := [], beaconDue := false, beaconTimer := none, inFlight := none }

/-- R184: a point record after either reset. -/
def initialPoint : PointRec := { condition := false, state := .normal, rise := none, repeats := none, gathered := 0 }

/-- R184, R181: the Annunciation Unit after either reset. -/
def initialAnnunciation : Annunciation :=
  { points := Vector.replicate 79 initialPoint, alerts := [], joining := [], attn := false,
    bands := Vector.replicate 8 { condition := false, run := 0 }, time := 0, timeNotSet := true }

/-- R212: the port record after a reset, with the frame error count it is given. -/
def initialPort (frameErrors : Nat) : StationPort :=
  { localAuthority := false, settingsKey := false, supervisorKey := false, emergency := false, selection := none,
    selectionTimer := none, frame := none, lastResult := none, frameErrors := frameErrors, selArmed := false, shown := none }

/-- An image that has been erased (R185); its contents are not used. -/
def emptyImage : Image := { state := .empty, content := [], code := 0 }

/-- R197: what the retained area holds when neither bank is good. -/
def lostRetained : Retained := { holds := [], lastId := 0, active := 0, lock := true }

/-- The Settings Store of a part whose images have never been programmed (assumption 1). -/
def initialStore : Store :=
  { groups := Vector.replicate 4 emptyImage, config := emptyImage, staging := Vector.replicate 512 0, operation := none,
    eraseError := false, programError := false, retainedLost := false, fittedPending := false, active := 0,
    factoryInUse := true, configFault := true, lock := true, inUse := factoryGroup, cfg := factoryConfig,
    bank0 := { copy := lostRetained, generation := 0, good := true },
    bank1 := { copy := lostRetained, generation := 1, good := true } }

end Sys2Proof.Machine
end

