-- ==== Sys2Proof/Machine/State.lean ====
section
/-! DEFINITION. The state of the TS612: the records of its ten blocks, the handings that wait within an event, and the queue of
the commands and events that wait to be taken. -/

namespace Sys2Proof.Machine

open Sys2Proof

/-- The whole state. Plain data only. -/
structure State where
  /-- Measurement Interface (chapter 1). -/
  mi : Measurement
  /-- The discrimination engines of feeders 0 to 5 (chapter 2). -/
  engines : Vector Engine 6
  /-- The breaker sequencers of feeders 0 to 5 (chapter 3). -/
  seqs : Vector Sequencer 6
  /-- The backup latch shared by the sequencers (R50). -/
  backupLatch : Bool
  /-- Rectifier Group Controller (chapter 4). -/
  rect : Rectifier
  /-- Section Table (chapter 5). -/
  sections : Vector SectionRec 7
  /-- Hold Table (chapter 6). -/
  ht : HoldTable
  /-- Neighbour link on port A (chapter 7). -/
  linkA : Link
  /-- Neighbour link on port B. -/
  linkB : Link
  /-- Annunciation Unit (chapter 8). -/
  au : Annunciation
  /-- Settings Store (chapter 9). -/
  store : Store
  /-- Station Port and Panel (chapter 10). -/
  sp : StationPort
  /-- The RESET input stands asserted (R211). -/
  resetHeld : Bool
  /-- Remaining time of equipment verification; `none` once it has ended (R15). -/
  verification : Option Nat
  /-- Handings that wait to be carried out within the event (assumption 3). -/
  agenda : List Signal
  /-- Commands and events that wait, first in, first out. -/
  pending : List Instr
  deriving DecidableEq, Repr

/-- No command of this part ends in a fault: what the manual calls failures are effects on the state. The type has no
constructor, so nothing can raise one (safe). -/
inductive Fault where
  deriving DecidableEq, Repr

/-- The refusals of a step. -/
inductive Refusal where
  /-- Raised by `exec` alone, for a command that has no meaning yet; no arm of `exec` answers with it (safe). -/
  | notModelled (mnemonic : String)
  deriving DecidableEq, Repr

/-- The machine right after a POWER-ON reset of a part whose images have never been programmed and whose retained area holds
the values of R197 (assumption 1): the reset values of every block, on the factory configuration and the FACTORY group. -/
def State.reset : State :=
  { mi :=
      { channels := Vector.replicate 16 initialChannel, reception := initialReception,
        inputs := Vector.replicate 57 (initialInput false), pairs := Vector.replicate 13 initialPair, mismatch := false }
    engines := Vector.replicate 6 (initialEngine factoryFeeder .factory)
    seqs := Vector.replicate 6 (initialSequencer 0 none none)
    backupLatch := false
    rect := initialRectifier factoryRect factoryConfig.alphaMax 0
    sections :=
      (Vector.replicate 7
        { initialSection false with bars := { (initialSection false).bars with earthed := true } }).set 6
        (initialSection false)
    ht := { holds := [], lastId := 0, keys := Vector.replicate 7 initialKey, resetFailed := false }
    linkA := initialLink false 0
    linkB := initialLink false 0
    au := initialAnnunciation
    store := initialStore
    sp := initialPort 0
    resetHeld := false
    verification := some 200
    agenda := []
    pending := [] }

end Sys2Proof.Machine
end

