-- ==== Sys2Proof/Machine/Ops.lean ====
section
/-! DEFINITION. The named reads and writes of the state that every block's rules are written over, and the handing of a
consequence from one block to another. -/

namespace Sys2Proof.Machine

open Sys2Proof

/-! ### Fixed tables -/

/-- A table with `f` applied to every entry. -/
def vmap {α β : Type} {n : Nat} (v : Vector α n) (f : α → β) : Vector β n := ⟨⟨v.toList.map f⟩, by simp⟩

/-- Feeders in ascending order. -/
def allFeeders : List FeederNo := [0, 1, 2, 3, 4, 5]

/-- Sections in ascending order. -/
def allSections : List SectionNo := [0, 1, 2, 3, 4, 5, 6]

/-- Hold keys in ascending order. -/
def allKeys : List KeyNo := [0, 1, 2, 3, 4, 5, 6]

/-- Channels in the order of the frame. -/
def allChannels : List ChannelNo := [0, 1, 2, 3, 4, 5, 6, 7, 8, 9, 10, 11, 12, 13, 14, 15]

/-- Watch bands in ascending order. -/
def allBands : List BandNo := [0, 1, 2, 3, 4, 5, 6, 7]

/-- Points in ascending order. -/
def allPoints : List PointNo := List.finRange 79

/-- Section 6, the station's positive bus. -/
def busSection : SectionNo := 6

/-- The line section of feeder k is section k. -/
def sectionOf (k : FeederNo) : SectionNo := k.castSucc

/-- The feeder of a line section; none for the bus. -/
def feederOf (n : SectionNo) : Option FeederNo := if h : n.val < 6 then some ⟨n.val, h⟩ else none

/-- Bus voltage. -/
def chUB : ChannelNo := 0

/-- Bridge currents. -/
def chIB1 : ChannelNo := 1

@[inherit_doc chIB1]
def chIB2 : ChannelNo := 2

/-- Winding temperature. -/
def chTT : ChannelNo := 15

/-- The current channel of feeder k. -/
def chIF (k : FeederNo) : ChannelNo := ⟨3 + k.val, by omega⟩

/-- The voltage channel of section k. -/
def chUL (k : FeederNo) : ChannelNo := ⟨9 + k.val, by omega⟩

/-- The voltage channel by which a section's energisation is judged (R96). -/
def voltageChannel (n : SectionNo) : ChannelNo := match feederOf n with
  | some k => chUL k
  | none => chUB

/-- Points base + k of the feeders (R178). -/
def feederPoint (base : Nat) (k : FeederNo) (h : base ≤ 73 := by decide) : PointNo := ⟨base + k.val, by omega⟩

/-- The place of an input in the table of inputs. -/
def inputIndex : InputId → Fin 57
  | .breakerClosed k => ⟨k.val, by omega⟩
  | .breakerOpen k => ⟨6 + k.val, by omega⟩
  | .earthClosed k => ⟨12 + k.val, by omega⟩
  | .earthOpen k => ⟨18 + k.val, by omega⟩
  | .acClosed => 24
  | .acOpen => 25
  | .authorityKey => 26
  | .settingsKey => 27
  | .supervisorKey => 28
  | .holdIsolate n => ⟨29 + n.val, by omega⟩
  | .holdEarth k => ⟨36 + k.val, by omega⟩
  | .openButton k => ⟨42 + k.val, by omega⟩
  | .closeButton k => ⟨48 + k.val, by omega⟩
  | .startButton => 54
  | .stopButton => 55
  | .emergencyButton => 56

/-- The place of a pair in the table of pairs. -/
def pairIndex : PairId → Fin 13
  | .breaker k => ⟨k.val, by omega⟩
  | .earth k => ⟨6 + k.val, by omega⟩
  | .ac => 12

/-! ### Reading -/

/-- The record of a channel. -/
def State.channel (s : State) (c : ChannelNo) : Channel := s.mi.channels.get c

/-- A channel stands FAILED. -/
def State.chFailed (s : State) (c : ChannelNo) : Bool := (s.channel c).state == .failed

/-- The record of an input. -/
def State.input (s : State) (i : InputId) : ContactInput := s.mi.inputs.get (inputIndex i)

/-- A pair of contacts. -/
def State.pair (s : State) (p : PairId) : SwitchPair := s.mi.pairs.get (pairIndex p)

/-- The breaker position of feeder k as handed to the owners (R14, R15). -/
def State.breakerPos (s : State) (k : FeederNo) : Option Pos := (s.pair (.breaker k)).handed

/-- The earth switch position of section k as handed. -/
def State.earthPos (s : State) (k : FeederNo) : Option Pos := (s.pair (.earth k)).handed

/-- The AC breaker position as handed. -/
def State.acPos (s : State) : Option Pos := (s.pair .ac).handed

/-- The discrimination record of feeder k. -/
def State.engine (s : State) (k : FeederNo) : Engine := s.engines.get k

/-- The sequencer record of feeder k. -/
def State.seq (s : State) (k : FeederNo) : Sequencer := s.seqs.get k

/-- The sequencer of feeder k stands in a state. -/
def State.seqIn (s : State) (k : FeederNo) (q : SeqState) : Bool := (s.seq k).state == some q

/-- A section record. -/
def State.sec (s : State) (n : SectionNo) : SectionRec := s.sections.get n

/-- The link record of a port. -/
def State.link (s : State) : Port → Link
  | .a => s.linkA
  | .b => s.linkB

/-- A point record. -/
def State.point (s : State) (p : PointNo) : PointRec := s.au.points.get p

/-- A key record. -/
def State.key (s : State) (n : KeyNo) : KeyRec := s.ht.keys.get n

/-- The hold of an ID, if one stands in the table. -/
def State.hold (s : State) (id : Byte) : Option Hold := s.ht.holds.find? fun h => h.id == id

/-- Feeder k is fitted in the configuration in use. -/
def State.fitted (s : State) (k : FeederNo) : Bool := s.store.cfg.fitted.get k

/-- The sharing port and line section of section k in the configuration in use (R95). -/
def State.share (s : State) (k : FeederNo) : Option (Port × Byte) := s.store.cfg.share.get k

/-- The settings of feeder k in the group in use. -/
def State.feederSettings (s : State) (k : FeederNo) : FeederSettings := s.store.inUse.feeders.get k

/-- The reclose settings of feeder k in the group in use. -/
def State.reclose (s : State) (k : FeederNo) : RecloseSettings := (s.feederSettings k).reclose

/-- R92: the rectifier settings that apply. -/
def State.rectSettings (s : State) : RectSettings := s.rect.settings

/-- The group whose settings are in use. -/
def State.groupSource (s : State) : GroupSource := if s.store.factoryInUse then .factory else .group s.store.active

/-- Equipment verification has not ended since the last reset (R15). -/
def State.verifying (s : State) : Bool := s.verification.isSome

/-- R9: between the failure event of a channel and its recovery event no arrival carries the channel valid to the judgements of
temperature (R87) and of energisation (R97), although the slot itself may be valid (R6). Until equipment verification has ended
no failure event has been handed (R15; assumption 28). -/
def State.channelLost (s : State) (c : ChannelNo) : Bool := !s.verifying && s.chFailed c

/-- R181: the stamp an event takes. -/
def State.stamp (s : State) : Stamp := { time := s.au.time, notSet := s.au.timeNotSet }

/-- The isolate count of section k or of the bus is nonzero. -/
def State.isolated (s : State) (k : FeederNo) : Bool :=
  (s.sec (sectionOf k)).isolate != 0 || (s.sec busSection).isolate != 0

/-- The noreclose count of section k or of the bus is nonzero. -/
def State.reclosBarred (s : State) (k : FeederNo) : Bool :=
  (s.sec (sectionOf k)).noreclose != 0 || (s.sec busSection).noreclose != 0

/-- A port's link is UP. -/
def State.linkUp (s : State) (p : Port) : Bool := (s.link p).state == .up

/-- The section shared on a port with a line section (7.2). -/
def State.sharedOn (s : State) (p : Port) (line : Byte) : Option FeederNo :=
  allFeeders.find? fun k => s.share k == some (p, line)

/-! ### Writing -/

/-- A new channel record. -/
def State.setChannel (c : ChannelNo) (r : Channel) (s : State) : State :=
  { s with mi := { s.mi with channels := s.mi.channels.set c r } }

/-- A new reception record. -/
def State.setReception (r : Reception) (s : State) : State := { s with mi := { s.mi with reception := r } }

/-- A new input record. -/
def State.setInput (i : InputId) (r : ContactInput) (s : State) : State :=
  { s with mi := { s.mi with inputs := s.mi.inputs.set (inputIndex i) r } }

/-- A new record of a pair. -/
def State.setPair (p : PairId) (r : SwitchPair) (s : State) : State :=
  { s with mi := { s.mi with pairs := s.mi.pairs.set (pairIndex p) r } }

/-- A change of the discrimination record of feeder k. -/
def State.modEngine (k : FeederNo) (f : Engine → Engine) (s : State) : State :=
  { s with engines := s.engines.set k (f (s.engines.get k)) }

/-- A change of the sequencer record of feeder k. -/
def State.modSeq (k : FeederNo) (f : Sequencer → Sequencer) (s : State) : State :=
  { s with seqs := s.seqs.set k (f (s.seqs.get k)) }

/-- A change of the rectifier record. -/
def State.modRect (f : Rectifier → Rectifier) (s : State) : State := { s with rect := f s.rect }

/-- A change of a section record. -/
def State.modSec (n : SectionNo) (f : SectionRec → SectionRec) (s : State) : State :=
  { s with sections := s.sections.set n (f (s.sections.get n)) }

/-- R197: a generation count after another, with the wrap. -/
def nextGeneration (n : Nat) : Nat := if n = 65535 then 0 else n + 1

/-- R197: bank 1 holds the latest copy; none when neither bank is good. -/
def Store.latest (st : Store) : Option Bool :=
  match st.bank0.good, st.bank1.good with
  | true, true =>
    if st.bank1.generation = nextGeneration st.bank0.generation then some true
    else if st.bank0.generation = nextGeneration st.bank1.generation then some false
    else some (decide (st.bank0.generation < st.bank1.generation))
  | true, false => some false
  | false, true => some true
  | false, false => none

/-- R197: bank 0 after a full copy has been written into the bank that does not hold the latest good one; its generation count
follows that of the latest copy. -/
def Store.nextBank0 (copy : Retained) (st : Store) : Bank :=
  match st.latest with
  | some true => { copy := copy, generation := nextGeneration st.bank1.generation, good := true }
  | some false => st.bank0
  | none => { copy := copy, generation := 0, good := true }

/-- R197: bank 1 after the same write. -/
def Store.nextBank1 (copy : Retained) (st : Store) : Bank :=
  match st.latest with
  | some false => { copy := copy, generation := nextGeneration st.bank0.generation, good := true }
  | some true | none => st.bank1

/-- R197: a full copy is written. -/
def Store.writeCopy (copy : Retained) (st : Store) : Store :=
  { st with bank0 := st.nextBank0 copy, bank1 := st.nextBank1 copy }

/-- R114: what the retained area keeps of a record: the timers and the model's own unearth set are not retained. -/
def retainedHold (h : Hold) : Hold := { h with timers := noHoldTimers, unearth := [] }

/-- R197: what the retained area keeps of the part as it stands. -/
def State.retainedView (s : State) : Retained :=
  { holds := s.ht.holds.map retainedHold, lastId := s.ht.lastId, active := s.store.active, lock := s.store.lock }

/-- R114, R197: the store when a table is handed to it by a part that has kept `view` of itself and keeps `now` with that table:
a change is written, a full copy for each table handed. -/
def Store.takeTable (view now : Retained) (st : Store) : Store :=
  { st with
    bank0 := if now = view then st.bank0 else st.nextBank0 now
    bank1 := if now = view then st.bank1 else st.nextBank1 now }

/-- R114, R197: the Hold Table has a new table, and hands it to the Settings Store within the event (assumption 14). -/
def State.handTable (holds : List Hold) (lastId : Byte) (s : State) : State :=
  { s with
    ht := { s.ht with holds := holds, lastId := lastId }
    store := s.store.takeTable s.retainedView
      { s.retainedView with holds := holds.map retainedHold, lastId := lastId } }

/-- A change of the hold table's records. -/
def State.modHolds (f : List Hold → List Hold) (s : State) : State := s.handTable (f s.ht.holds) s.ht.lastId

/-- A change of the record of one hold. -/
def State.modHold (id : Byte) (f : Hold → Hold) (s : State) : State :=
  s.modHolds fun l => l.map fun h => if h.id = id then f h else h

/-- A change of a key record. -/
def State.modKey (n : KeyNo) (f : KeyRec → KeyRec) (s : State) : State :=
  { s with ht := { s.ht with keys := s.ht.keys.set n (f (s.ht.keys.get n)) } }

/-- A change of a link record. -/
def State.modLink (p : Port) (f : Link → Link) (s : State) : State :=
  match p with
  | .a => { s with linkA := f s.linkA }
  | .b => { s with linkB := f s.linkB }

/-- A change of the Annunciation Unit. -/
def State.modAu (f : Annunciation → Annunciation) (s : State) : State := { s with au := f s.au }

/-- A change of the Settings Store. -/
def State.modStore (f : Store → Store) (s : State) : State := { s with store := f s.store }

/-- A change of the port record. -/
def State.modSp (f : StationPort → StationPort) (s : State) : State := { s with sp := f s.sp }

/-- A consequence is handed on; it is carried out within the same event, after what has been handed before it by the same
block (assumption 3). -/
def State.hand (g : Signal) (s : State) : State := { s with agenda := s.agenda ++ [g] }

/-- Several consequences are handed on, in order. -/
def State.handAll (gs : List Signal) (s : State) : State := { s with agenda := s.agenda ++ gs }

/-- A step made for each item of a list, in order. -/
def forEach {α : Type} (l : List α) (f : α → State → State) (s : State) : State := l.foldl (fun s a => f a s) s

/-! ### Numbers -/

/-- A counter that saturates. -/
def satSucc (top n : Nat) : Nat := if n < top then n + 1 else top

/-- A value limited to a range (00_scope.md). -/
def clampInt (lo hi v : Int) : Int := max lo (min hi v)

/-- One millisecond of a remaining time. -/
def tickDown (t : Option Nat) : Option Nat := t.map (· - 1)

/-- What a command's owner answers: the state it leaves, the result, and the value for the last command result. -/
structure Answer where
  state : State
  result : CmdResult
  value : Nat

/-- A refusal changes nothing (R203). -/
def refuse (s : State) (code : RefusalCode) (value : Nat := 0) : Answer :=
  { state := s, result := .refused code, value := value }

/-- An acceptance. -/
def accept (s : State) (value : Nat := 0) : Answer := { state := s, result := .accepted, value := value }

end Sys2Proof.Machine
end

