-- ==== Sys2Proof/Machine/Flags.lean ====
section
/-! DEFINITION. The level conditions of the annunciation points, each from the record of the block that owns it (R178), the
classes and the masks of the points. -/

namespace Sys2Proof.Machine

open Sys2Proof

/-- Points 71 to 78 report watch bands 0 to 7. -/
def bandOfPoint (p : PointNo) : Option BandNo := if h : 71 ≤ p.val then some ⟨p.val - 71, by omega⟩ else none

/-- Whether a point number lies in the six points from `base`, and for which feeder. -/
def feederInGroup (base : Nat) (p : PointNo) : Option FeederNo :=
  if h : base ≤ p.val ∧ p.val < base + 6 then some ⟨p.val - base, by omega⟩ else none

/-- R178: the class of a point; 71 to 78 take theirs from the watch bands of the group in use. -/
def State.pointClass (s : State) (p : PointNo) : PointClass :=
  match bandOfPoint p with
  | some b => if (s.store.inUse.bands.get b).selfReset then .selfReset else .latching
  | none =>
    if (6 ≤ p.val ∧ p.val ≤ 11) ∨ (18 ≤ p.val ∧ p.val ≤ 23) ∨ (30 ≤ p.val ∧ p.val ≤ 35) ∨ p.val = 46 ∨ p.val = 51 ∨
        p.val = 52 ∨ p.val = 63 then .selfReset
    else .latching

/-- R173: the mask of a point, from the configuration in use. -/
def State.masked (s : State) (p : PointNo) : Bool := s.store.cfg.masks.get p

/-- R87, R92: TT is FAILED, or its value is T_warn or more; a new T_warn is judged at once. -/
def State.tempWarning (s : State) : Bool :=
  s.chFailed chTT || decide ((s.store.inUse.rect.tWarn : Int) ≤ (s.channel chTT).value)

/-- R199: the Settings Store's contributions to point 62, with the Measurement Interface's (R15). -/
def State.configPoint (s : State) : Bool := s.mi.mismatch || s.store.configFault || s.store.fittedPending

/-- The levels of the points that stand six to a group, one for each feeder. -/
def State.feederLevel (s : State) (p : PointNo) : Bool :=
  match feederInGroup 6 p with
  | some k => s.seqIn k .lockout
  | none =>
  match feederInGroup 12 p with
  | some k => s.seqIn k .breakerFault
  | none =>
  match feederInGroup 18 p with
  | some k => (s.engine k).warning
  | none =>
  match feederInGroup 24 p with
  | some k => s.chFailed (chIF k) || s.chFailed (chUL k)
  | none =>
  match feederInGroup 30 p with
  | some k => (s.seq k).wait == some .bus
  | none =>
  match feederInGroup 36 p with
  | some k => (s.sec (sectionOf k)).mismatch
  | none => false

/-- R178: the condition of a point, true while at least one of its level contributions is (R169). Points that only pulse have
none. -/
def State.levelOf (s : State) (p : PointNo) : Bool :=
  match bandOfPoint p with
  | some b => (s.au.bands.get b).condition
  | none =>
  match p.val with
  | 42 => s.chFailed chUB
  | 43 => s.chFailed chIB1 || s.chFailed chIB2
  | 44 => s.rect.state == .tripped
  | 45 => s.rect.bridge1.lost || s.rect.bridge2.lost
  | 46 => s.tempWarning
  | 51 => s.linkA.state == .down
  | 52 => s.linkB.state == .down
  | 60 => s.store.factoryInUse
  | 62 => s.configPoint
  | 63 => s.sp.localAuthority
  | _ => s.feederLevel p

end Sys2Proof.Machine
end

