-- ==== Sys2Proof/Machine/Annunciation.lean ====
section
/-! DEFINITION. The Annunciation Unit's taking of rises, clears, pulses and acknowledgements (R169 to R176), the alert list and
ATTN (R174), the start-up evaluation (R184), and the watch bands (R179, R180). -/

namespace Sys2Proof.Machine

open Sys2Proof

/-- R174: the list holds the points in UNACK and in CLEARED-UNACK. -/
def onList : PointState → Bool
  | .unack | .clearedUnack => true
  | .normal | .acked => false

/-- R170, R171: the condition rises. -/
def riseOn (now : Stamp) (r : PointRec) : PointRec :=
  match r.state with
  | .normal => { r with state := .unack, rise := some now, repeats := some 0 }
  | .clearedUnack => { r with state := .unack, repeats := r.repeats.map (satSucc 255) }
  | .unack | .acked => r

/-- A point at rest. -/
def toNormal (r : PointRec) : PointRec := { r with state := .normal, rise := none, repeats := none }

/-- R170, R171: the condition clears. -/
def clearOn (cls : PointClass) (r : PointRec) : PointRec :=
  match r.state, cls with
  | .unack, .latching => { r with state := .clearedUnack }
  | .unack, .selfReset => toNormal r
  | .acked, _ => toNormal r
  | .normal, _ | .clearedUnack, _ => r

/-- R172: a pulse on a standing condition is a fresh occurrence. -/
def pulseStanding (now : Stamp) (r : PointRec) : PointRec :=
  match r.state with
  | .unack => { r with repeats := r.repeats.map (satSucc 255) }
  | .acked => { r with state := .unack, rise := some now, repeats := some 0 }
  | .normal | .clearedUnack => r

/-- R170, R171, R175: the point is acknowledged. -/
def ackOn (r : PointRec) : PointRec :=
  match r.state with
  | .unack => { r with state := .acked, repeats := none }
  | .clearedUnack => toNormal r
  | .normal | .acked => r

/-- A point number put into a list in its ascending place. -/
def insertPoint (p : PointNo) : List PointNo → List PointNo
  | [] => [p]
  | q :: rest => if p.val < q.val then p :: q :: rest else q :: insertPoint p rest

/-- A point's new record; the point joins the list or leaves it as its state asks (R174). -/
def State.putPoint (p : PointNo) (r : PointRec) (s : State) : State :=
  s.modAu fun a =>
    let before := onList (a.points.get p).state
    let after := onList r.state
    { a with
      points := a.points.set p r
      alerts := if before && !after then a.alerts.erase p else a.alerts
      joining :=
        if before && !after then a.joining.erase p
        else if !before && after then insertPoint p a.joining
        else a.joining }

/-- R169, R170, R172, R173: a pulse is handed on a point. While the AU gathers it is counted (R184). -/
def State.pulse (p : PointNo) (s : State) : State :=
  let r := s.point p
  if s.masked p then s
  else if s.verifying then s.putPoint p { r with gathered := r.gathered + 1 }
  else if r.condition then s.putPoint p (pulseStanding s.stamp r)
  else s.putPoint p (clearOn (s.pointClass p) (riseOn s.stamp r))

/-- R169, R173: a point's condition follows its level. -/
def State.setLevel (p : PointNo) (level : Bool) (s : State) : State :=
  let r := s.point p
  if r.condition = level then s
  else
    let r := { r with condition := level }
    if s.masked p then s.putPoint p r
    else if level then s.putPoint p (riseOn s.stamp r)
    else s.putPoint p (clearOn (s.pointClass p) r)

/-- R169: at the end of an event every condition follows its level. Until equipment verification ends nothing is raised
(R184). -/
def State.syncLevels (s : State) : State :=
  if s.verifying then s else forEach allPoints (fun p s => s.setLevel p (s.levelOf p)) s

/-- R174: the points that joined in the event stand behind the list, and ATTN follows. -/
def State.closeAlerts (s : State) : State :=
  s.modAu fun a =>
    let l := a.alerts ++ a.joining
    { a with alerts := l, joining := [], attn := !l.isEmpty }

/-- R184: one point in the start-up evaluation. -/
def startUpPoint (now : Stamp) (maskedPoint level : Bool) (r : PointRec) : PointRec :=
  let again := some (min 255 (r.gathered - 1))
  if maskedPoint then { toNormal r with condition := level, gathered := 0 }
  else if level then { condition := true, state := .unack, rise := some now, repeats := again, gathered := 0 }
  else if r.gathered = 0 then { r with condition := false, gathered := 0 }
  else { condition := false, state := .clearedUnack, rise := some now, repeats := again, gathered := 0 }

/-- R184: the start-up evaluation, in ascending point number. -/
def State.evaluatePoints (s : State) : State :=
  forEach allPoints (fun p s => s.putPoint p (startUpPoint s.stamp (s.masked p) (s.levelOf p) (s.point p))) s

/-- R173: the masks of a new configuration come into use; `before` are the masks until now. -/
def State.remask (before : Vector Bool 79) (s : State) : State :=
  forEach allPoints (fun p s =>
    let r := s.point p
    if s.masked p then
      if before.get p then s else s.putPoint p (toNormal r)
    else if before.get p && r.condition && !s.verifying then s.putPoint p (riseOn s.stamp r)
    else s) s

/-- R175: a point on the list is acknowledged. -/
def State.ackPoint (p : PointNo) (s : State) : State := s.putPoint p (ackOn (s.point p))

/-- R176: every point on the list is acknowledged, from head to tail. -/
def State.ackList (s : State) : State := forEach s.au.alerts State.ackPoint s

/-! ### Watch bands -/

/-- The change of a band's record by an arrival that meets or fails it (R179). -/
def bandArrival (delay : Nat) (meets : Bool) (b : BandRec) : BandRec :=
  if meets = b.condition then { b with run := 0 }
  else if delay ≤ b.run + 1 then { condition := !b.condition, run := 0 }
  else { b with run := b.run + 1 }

/-- R179: a selected channel satisfies the band. -/
def bandSatisfied (set : BandSettings) (v : Int) : Bool :=
  if set.outside then decide (v < set.low) || decide (set.high < v) else decide (set.low ≤ v) && decide (v ≤ set.high)

/-- R179: the arrival meets the band. -/
def State.bandMeets (s : State) (set : BandSettings) : Bool :=
  allChannels.any fun c =>
    set.mask.getLsbD c.val && (s.channel c).state == .good && bandSatisfied set (s.channel c).value

/-- R179: the watch bands take a sample arrival. -/
def State.bandsTakeArrival (s : State) : State :=
  forEach allBands (fun b s =>
    let set := s.store.inUse.bands.get b
    if set.enable then
      s.modAu fun a => { a with bands := a.bands.set b (bandArrival set.delay (s.bandMeets set) (a.bands.get b)) }
    else s.modAu fun a => { a with bands := a.bands.set b { condition := false, run := 0 } }) s

/-- Point 71 + b. -/
def bandPoint (b : BandNo) : PointNo := ⟨71 + b.val, by omega⟩

/-- R180, step 2: the point of a band that the new group disables clears in the class it had, `old` the settings until now. -/
def State.disableBand (b : BandNo) (old : BandSettings) (s : State) : State :=
  let r := s.point (bandPoint b)
  if r.condition then
    let r := { r with condition := false }
    s.putPoint (bandPoint b)
      (if s.masked (bandPoint b) then r else clearOn (if old.selfReset then .selfReset else .latching) r)
  else s

/-- R180: the bands of a new group apply; `before` are the settings in use until now. First the condition of a band that the new
group disables is made false, then point 71+b takes the new class, in which a CLEARED-UNACK point that has become SELF-RESET goes
to NORMAL. -/
def State.rebands (before : GroupSettings) (s : State) : State :=
  forEach allBands (fun b s =>
    let set := s.store.inUse.bands.get b
    let s := s.modAu fun a =>
      { a with bands := a.bands.set b { condition := set.enable && (a.bands.get b).condition, run := 0 } }
    let s := if set.enable then s else s.disableBand b (before.bands.get b)
    let r := s.point (bandPoint b)
    if set.selfReset && r.state == .clearedUnack then s.putPoint (bandPoint b) (toNormal r) else s) s

end Sys2Proof.Machine
end

