-- ==== Sys2Proof/Machine/Links.lean ====
section
/-! DEFINITION. The outbound lists of the Neighbour Link Unit: queueing and merging (R152 to R155), the transmitter's choice
(R153, R156), beacons (R157, R158) and the list of an AUDIT (R165). -/

namespace Sys2Proof.Machine

open Sys2Proof

/-- R152: the subject of a pending hold message: the asker's, the grantor's, or the AUDIT's own. -/
inductive Subject where
  | asker (id : Byte)
  | grantor (id : Byte)
  | audit
  deriving DecidableEq, Repr

/-- R152. -/
def subjectOf : HoldMsg → Subject
  | .ask id _ _ => .asker id
  | .drop id => .asker id
  | .grant id _ => .grantor id
  | .deny id _ => .grantor id
  | .dropped id => .grantor id
  | .audit => .audit

/-- R155: a message is queued by its subject; one of the same subject is replaced in its place. -/
def queueBySubject (m : HoldMsg) : List HoldMsg → List HoldMsg
  | [] => [m]
  | x :: rest => if subjectOf x = subjectOf m then m :: rest else x :: queueBySubject m rest

/-- R154: the order of the causes, EMERGENCY above BACKUP above FAULT. -/
def causeRank : IntertripCause → Nat
  | .fault => 0
  | .backup => 1
  | .emergency => 2

/-- R154: an INTERTRIP joins the end of its class, or is merged into the pending one of its line section, which carries the
higher cause. -/
def queueIntertrip (line : Byte) (cause : IntertripCause) : List PendingIntertrip → List PendingIntertrip
  | [] => [{ line := line, cause := cause }]
  | x :: rest =>
    if x.line = line then { x with cause := if causeRank x.cause < causeRank cause then cause else x.cause } :: rest
    else x :: queueIntertrip line cause rest

/-- A link that takes messages into its list: JOINING or UP. -/
def takesMessages : LinkState → Bool
  | .joining | .up => true
  | .unused | .down => false

/-- R70: the feeder class a sequencer presents. -/
def feederClass (q : Sequencer) : FeederClass :=
  match q.state with
  | some .inService => .inService
  | some .deadTime => .reclosing
  | some .lineTest | some .closing => if q.closeKind = some .automatic then .reclosing else .opened
  | _ => .opened

/-- R93: the rectifier delivers. -/
def delivering : RectState → Bool
  | .ramping | .regulating | .limiting => true
  | .off | .syncing | .standby | .tripped => false

/-- R158: the breaker state reported for feeder k. -/
def State.reportsClosed (s : State) (k : FeederNo) : Bool := s.fitted k && s.breakerPos k == some .closed

/-- An entry put into a list in ascending order of line section. -/
def insertEntry (e : BeaconEntry) : List BeaconEntry → List BeaconEntry
  | [] => [e]
  | x :: rest => if e.line.toNat < x.line.toNat then e :: x :: rest else x :: insertEntry e rest

/-- R158: the entries of a BEACON on a port. -/
def State.beaconEntries (s : State) (p : Port) : List BeaconEntry :=
  allFeeders.foldl (fun acc k => match s.share k with
    | some (q, line) =>
      if q = p then
        insertEntry { line := line, closed := s.reportsClosed k, feederClass := feederClass (s.seq k) } acc
      else acc
    | none => acc) []

/-- The origin of the PEER records of a port. -/
def peerOrigin : Port → Origin
  | .a => .peerA
  | .b => .peerB

/-- R165: the list an AUDIT takes when its sending begins. -/
def State.auditList (s : State) (p : Port) : List Byte :=
  (s.ht.holds.filter fun h => h.origin == peerOrigin p && (h.state == .securing || h.state == .active)).map
    fun h => h.tag.setWidth 8

/-- The fields a pending message is sent with. -/
def State.messageBody (s : State) (p : Port) : HoldMsg → MsgBody
  | .ask id line kind => .ask id line kind
  | .drop id => .drop id
  | .grant id holdId => .grant id holdId
  | .deny id reason => .deny id reason
  | .dropped id => .dropped id
  | .audit => .audit (s.auditList p)

/-- R153: the choice of a free transmitter: the oldest INTERTRIP, else the oldest hold message or AUDIT, else a due BEACON. -/
def State.chooseMessage (s : State) (p : Port) : Option (MsgBody × (Link → Link)) :=
  let l := s.link p
  match l.intertrips, l.messages with
  | x :: rest, _ => some (.intertrip x.line x.cause, fun l => { l with intertrips := rest })
  | [], m :: rest => some (s.messageBody p m, fun l => { l with messages := rest })
  | [], [] =>
    if l.beaconDue then
      some (.beacon (s.beaconEntries p) (delivering s.rect.state), fun l => { l with beaconDue := false })
    else none

/-- R153, R168: a free transmitter of a USED port begins the message chosen; until equipment verification ends it sends
nothing. -/
def State.transmit (p : Port) (s : State) : State :=
  if s.verifying || (s.link p).state == .unused || (s.link p).inFlight.isSome then s
  else match s.chooseMessage p with
    | some (body, take) =>
      s.modLink p fun l => { take l with inFlight := some { station := s.store.cfg.station, body := body } }
    | none => s

/-- R153, R155: a hold message is handed to a port; a free transmitter begins at once. -/
def State.queueMessage (p : Port) (m : HoldMsg) (s : State) : State :=
  if takesMessages (s.link p).state then
    (s.modLink p fun l => { l with messages := queueBySubject m l.messages }).transmit p
  else s

/-- R153: a transmitter that is free makes its choice once the block that hands demands has handed them all, so that two demands
of one event for one line section reach one pending INTERTRIP (R154, R210; assumption 6). -/
def State.chooseNext (p : Port) (s : State) : State :=
  if (s.link p).inFlight.isSome then s else s.hand (.choose p)

/-- R154: an intertrip demand is handed to a port; on a DOWN link it is not sent and point 56 pulses. -/
def State.intertripDemand (p : Port) (line : Byte) (cause : IntertripCause) (s : State) : State :=
  if takesMessages (s.link p).state then
    (s.modLink p fun l => { l with intertrips := queueIntertrip line cause l.intertrips }).chooseNext p
  else s.pulse 56

/-- R46, R50, R210: an intertrip demand for the section of feeder k, if it is shared. -/
def State.intertripFor (k : FeederNo) (cause : IntertripCause) (s : State) : State :=
  match s.share k with
  | some (p, line) => s.intertripDemand p line cause
  | none => s

/-- R153, R157: a beacon falls due on a USED port, and a free transmitter begins at once. -/
def State.beaconDue (p : Port) (s : State) : State :=
  if (s.link p).state == .unused then s else (s.modLink p fun l => { l with beaconDue := true }).transmit p

end Sys2Proof.Machine
end

