-- ==== Sys2Proof/Machine/Discrimination.lean ====
section
/-! DEFINITION. The discrimination engines (chapter 2): the four criteria over one arrival, the thermal accumulator, and the
moments at which a pending set or group takes effect. -/

namespace Sys2Proof.Machine

open Sys2Proof

/-! ### Pure judgements over one record -/

/-- The parameter set in use, taken from the copy (R22). -/
def Engine.params (e : Engine) : ParamSet := match e.setInUse with
  | .single => e.copy.single
  | .double => e.copy.double

/-- R20: the feed current. -/
def feedCurrent (i : Int) : Nat := i.toNat

/-- R20: the rise rate, defined when the history is full. -/
def riseRate (feed : Nat) (history : List Nat) : Option Int :=
  match history with
  | [_, older] => some ((feed : Int) - older)
  | _ => none

/-- R20: the history after an arrival. -/
def pushHistory (feed : Nat) (history : List Nat) : List Nat := (feed :: history).take 2

/-- R28: the thermal accumulator after an arrival, limited to 0..2·Hlim. -/
def heatAfter (t : ThermalSetting) (feed heat : Nat) : Nat :=
  min (heat + (feed / 10) ^ 2 - (t.ith / 10) ^ 2) (2 * heatLimit t)

/-- R29: the thermal warning of a fitted feeder. -/
def heatWarns (fitted : Bool) (t : ThermalSetting) (heat : Nat) : Bool :=
  fitted && t.enable && decide (heatLimit t * 3 / 4 ≤ heat)

/-- R31: the thermal reclose bar. -/
def heatBars (t : ThermalSetting) (heat : Nat) : Bool := t.enable && decide (heatLimit t / 2 < heat)

/-- R29, R31: warning and bar judged on the heat and the copy as they stand. -/
def judgeHeat (fitted : Bool) (e : Engine) : Engine :=
  { e with warning := heatWarns fitted e.copy.thermal e.heat, recloseBar := heatBars e.copy.thermal e.heat }

/-- R23: the IMAX count after an arrival; it decides at 2. -/
def imaxAfter (p : ParamSet) (feed count : Nat) : Nat := if p.imax ≤ feed then count + 1 else 0

/-- R27: the REVERSE count after an arrival; it decides at Trev. -/
def revAfter (p : ParamSet) (i : Int) (count : Nat) : Nat :=
  if p.revEnable && decide (i ≤ -(p.irev : Int)) then count + 1 else 0

/-- R24: DELTA in IDLE. R24 gives the confirm count no value at arming; the model makes it 0 (DESIGN CHOICE, assumption 31). -/
def deltaIdle (p : ParamSet) (feed : Nat) (rate : Option Int) (history : List Nat) (e : Engine) : Engine :=
  match rate, history with
  | some d, [_, older] =>
    if (p.dstart : Int) ≤ d then
      { e with
        stage := .rising
        arming := some { base := older, window := 0, confirm := 0, lowRun := 0, rate := d, peak := feed } }
    else e
  | _, _ => e

/-- The engine back in IDLE without arming fields. -/
def disarm (e : Engine) : Engine := { e with stage := .idle, arming := none }

/-- R25: DELTA in RISING. -/
def deltaRising (p : ParamSet) (feed : Nat) (rate : Option Int) (a : Arming) (e : Engine) : Engine :=
  let a := { a with window := satSucc 65535 a.window, peak := max a.peak feed }
  if (p.ditrip : Int) ≤ (feed : Int) - a.base then
    { e with stage := .confirm, arming := some { a with confirm := 0 } }
  else
    let low := match rate with
      | some d => decide (d < (p.dreset : Int))
      | none => false
    let run := if low then a.lowRun + 1 else 0
    if 2 ≤ run then disarm e
    else if p.wmax ≤ a.window then disarm e
    else { e with arming := some { a with lowRun := run } }

/-- R26: DELTA in CONFIRM; the second component says that it decides a trip. -/
def deltaConfirm (p : ParamSet) (feed : Nat) (a : Arming) (e : Engine) : Engine × Bool :=
  let a := { a with window := satSucc 65535 a.window, confirm := a.confirm + 1, peak := max a.peak feed }
  if (feed : Int) - a.base < ((p.ditrip * 7 / 8 : Nat) : Int) then
    ({ e with stage := .rising, arming := some { a with confirm := 0, lowRun := 0 } }, false)
  else ({ e with arming := some a }, decide (p.cconf ≤ a.confirm))

/-- R24 to R26: DELTA on an arrival on which the engine runs. -/
def deltaJudge (p : ParamSet) (feed : Nat) (rate : Option Int) (e : Engine) : Engine × Bool :=
  match e.stage, e.arming with
  | .idle, _ => (deltaIdle p feed rate e.history e, false)
  | .rising, some a => (deltaRising p feed rate a e, false)
  | .confirm, some a => deltaConfirm p feed a e
  | _, _ => (e, false)

/-- R33: all four criteria on an arrival, and the cause of the trip they decide, if any, in the order IMAX, DELTA, REVERSE,
THERMAL. -/
def judgeCriteria (i : Int) (e : Engine) : Engine × Option TripCause :=
  let p := e.params
  let feed := feedCurrent i
  let rate := riseRate feed e.history
  let imax := imaxAfter p feed e.imaxCount
  let rev := revAfter p i e.revCount
  let (e, delta) := deltaJudge p feed rate e
  let e := { e with imaxCount := imax, revCount := rev }
  let cause :=
    if 2 ≤ imax then some TripCause.imax
    else if delta then some TripCause.delta
    else if p.revEnable && decide (p.trev ≤ rev) then some TripCause.reverse
    else if e.copy.thermal.enable && decide (heatLimit e.copy.thermal ≤ e.heat) then some TripCause.thermal
    else none
  (e, cause)

/-- R34, R45: a trip record of an engine as it stands. -/
def tripRecordOf (e : Engine) (cause : TripCause) (feed : Nat) (saturated : Bool) (rise : Option Arming) (attempt : Nat)
    (stamp : Stamp) : TripRecord :=
  { cause := cause
    feed := feed
    saturated := saturated
    peak := match rise with
      | some a => a.peak
      | none => feed
    rise := rise.map fun a =>
      { base := a.base, delta := (feed : Int) - a.base, rate := a.rate, window := a.window }
    set := e.setInUse
    source := e.copy.source
    heatShare := e.heat * 256 / heatLimit e.copy.thermal
    attempt := attempt
    stamp := stamp }

/-! ### Moments of take-over -/

/-- R38: the stage is IDLE and both counts are 0. -/
def Engine.resting (e : Engine) : Bool := e.stage == .idle && e.imaxCount == 0 && e.revCount == 0

/-- R22, R32: a new copy is made, and H is limited to it. -/
def Engine.recopy (f : FeederSettings) (source : GroupSource) (e : Engine) : Engine :=
  { e with
    copy := settingsCopyOf f source
    heat := min e.heat (2 * heatLimit f.thermal)
    groupPending := false }

/-- R38: a pending change of set or group takes effect if the engine rests. -/
def Engine.takeOver (f : FeederSettings) (source : GroupSource) (fitted : Bool) (e : Engine) : Engine :=
  if e.resting && (e.groupPending || e.wanted != e.setInUse) then
    let e := if e.groupPending then e.recopy f source else e
    judgeHeat fitted { e with setInUse := e.wanted }
  else e

/-- The engine of feeder k changes, a pending change takes effect if it now may (R38), and a change of the reclose bar is
handed to the waits (R57). -/
def State.changeEngine (k : FeederNo) (f : Engine → Engine) (s : State) : State :=
  let before := (s.engine k).recloseBar
  let s := s.modEngine k fun e => (f e).takeOver (s.feederSettings k) s.groupSource (s.fitted k)
  if (s.engine k).recloseBar = before then s else s.hand (.judgeWait k)

/-- The engine in IDLE with both counts 0 and no arming fields. -/
def Engine.cleared (e : Engine) : Engine := { disarm e with imaxCount := 0, revCount := 0 }

/-- R18: the sequencer enters CLOSING. -/
def State.engineClosing (k : FeederNo) (s : State) : State := s.changeEngine k Engine.cleared

/-- R19: the engine stops running. -/
def State.engineStop (k : FeederNo) (s : State) : State :=
  s.changeEngine k fun e => match e.stage with
    | .tripped => e
    | .idle => { e with imaxCount := 0, revCount := 0 }
    | .rising | .confirm => e.cleared

/-- R35: the breaker is seen OPEN; TRIPPED ends. -/
def State.engineOpen (k : FeederNo) (s : State) : State :=
  if (s.engine k).stage = .tripped then s.changeEngine k Engine.cleared else s

/-- R21: a failure of IFk empties the history. -/
def State.engineLosesCurrent (k : FeederNo) (s : State) : State := s.modEngine k fun e => { e with history := [] }

/-- R36: the Section Table hands the wanted set. -/
def State.wantSet (k : FeederNo) (w : SetSel) (s : State) : State := s.changeEngine k fun e => { e with wanted := w }

/-- R37: an activation reaches the engine of feeder k; the copy of a feeder not fitted is made at once (R22). Its H keeps within
the new limit (R32), its warning stays false, and its thermal reclose bar is judged afresh on the new copy by R31 and R32, where
R41 would have it keep its reset value (DESIGN CHOICE, assumption 16). -/
def State.engineActivate (k : FeederNo) (s : State) : State :=
  if s.fitted k then s.changeEngine k fun e => { e with groupPending := true }
  else s.modEngine k fun e => judgeHeat false (e.recopy (s.feederSettings k) s.groupSource)

/-- R17: the engine runs while the sequencer is in IN-SERVICE or CLOSING. -/
def runsIn : Option SeqState → Bool
  | some .inService | some .closing => true
  | _ => false

end Sys2Proof.Machine
end

