-- ==== Sys2Proof/Machine/SectionTable.lean ====
section
/-! DEFINITION. The Section Table (chapter 5): energisation, the neighbour's end, feed mode, hold counts and what a change of
them hands on, earth switches, close permission and the wanted parameter set. -/

namespace Sys2Proof.Machine

open Sys2Proof

/-! ### Energisation -/

/-- R96: a voltage judged against the thresholds. -/
def energisationOf (uLive uDead : Nat) (v : Int) : Energisation :=
  if (uLive : Int) ≤ v then .live else if v ≤ (uDead : Int) then .dead else .unproven

/-- R96: energisation and dead run after an arrival that carries the section's voltage. -/
def energise (uLive uDead : Nat) (v : Int) (r : SectionRec) : SectionRec :=
  let e := energisationOf uLive uDead v
  { r with energisation := e, deadRun := if e = .dead then satSucc 8 r.deadRun else 0 }

/-- R96, R97: the Section Table takes a sample arrival. From the failure event of a section's voltage channel to its recovery
event, no arrival carries that voltage: energisation and dead run stay as the failure set them (assumption 28). -/
def State.sectionsTakeArrival (valid : Half) (s : State) : State :=
  forEach allSections (fun n s =>
    let c := voltageChannel n
    if valid.getLsbD c.val && !s.channelLost c then
      s.modSec n (energise s.store.inUse.uLive s.store.inUse.uDead (s.channel c).value)
    else s) s

/-- R97: the voltage channel of a section fails. -/
def State.sectionLosesVoltage (n : SectionNo) (s : State) : State :=
  s.modSec n fun r => { r with energisation := .unproven, deadRun := 0 }

/-! ### Feed mode (R99) -/

/-- R99: the feed mode for the two ends. -/
def feedModeOf (localEnd remoteEnd : Bool) : FeedMode :=
  match localEnd, remoteEnd with
  | true, true => .fedBoth
  | true, false => .fedLocal
  | false, true => .fedRemote
  | false, false => .unfed

/-- R99: the remote end of section k feeds. -/
def State.remoteFeeds (s : State) (k : FeederNo) : Bool :=
  (s.share k).isSome && (s.sec (sectionOf k)).neighbour == some .closed

/-- R99: the feed mode of a line section. -/
def State.lineFeed (s : State) (k : FeederNo) : FeedMode := feedModeOf (s.breakerPos k == some .closed) (s.remoteFeeds k)

/-- R99: the feed mode of the bus. -/
def State.busFeed (s : State) : FeedMode :=
  feedModeOf (delivering s.rect.state) (allFeeders.any fun k => (s.sec (sectionOf k)).feed == .fedBoth)

/-- R99: the feed mode of section k, and with it that of the bus, derived afresh. -/
def State.deriveFeed (k : FeederNo) (s : State) : State :=
  let s := s.modSec (sectionOf k) fun r => { r with feed := s.lineFeed k }
  s.modSec busSection fun r => { r with feed := s.busFeed }

/-- R99: the feed mode of the bus derived afresh. -/
def State.deriveBusFeed (s : State) : State := s.modSec busSection fun r => { r with feed := s.busFeed }

/-! ### Close permission (R108) -/

/-- R108: the bar reasons of a section. -/
def State.barsOf (s : State) (n : SectionNo) : BarReasons :=
  let busHeld := (s.sec busSection).isolate != 0
  match feederOf n with
  | some k =>
    { held := (s.sec n).isolate != 0
      busHeld := busHeld
      earthed := (s.sec n).commandedClosed || s.earthPos k != some .opened
      lockout := s.seqIn k .lockout
      breakerFault := s.seqIn k .breakerFault
      notFitted := !s.fitted k }
  | none =>
    { held := false, busHeld := busHeld, earthed := false, lockout := false, breakerFault := false, notFitted := false }

/-- R108: the permission is BARRED while a reason holds. -/
def BarReasons.barred (b : BarReasons) : Bool :=
  b.held || b.busHeld || b.earthed || b.lockout || b.breakerFault || b.notFitted

/-- R108: the bar reasons of a section derived afresh. -/
def State.deriveBars (n : SectionNo) (s : State) : State := s.modSec n fun r => { r with bars := s.barsOf n }

/-- R108: the bar reasons of every section derived afresh, as a change of a bus count asks. -/
def State.deriveAllBars (s : State) : State := forEach allSections State.deriveBars s

/-! ### The wanted parameter set (R36, R109) -/

/-- R36: the set derived for feeder k. -/
def State.wantedOf (s : State) (k : FeederNo) : SetSel :=
  match s.share k with
  | some (p, _) =>
    if s.linkUp p && (s.sec (sectionOf k)).neighbour == some .closed && s.breakerPos k == some .closed then .double
    else .single
  | none => .single

/-- R36, R109: the wanted set of a fitted section derived afresh, and handed to the engine when it changes. -/
def State.deriveWanted (k : FeederNo) (s : State) : State :=
  if s.fitted k then
    let w := s.wantedOf k
    if (s.sec (sectionOf k)).wanted = w then s
    else (s.modSec (sectionOf k) fun r => { r with wanted := w }).wantSet k w
  else s

/-- R109: the wanted sets of the sections shared on a port. -/
def State.deriveWantedOn (p : Port) (s : State) : State :=
  forEach allFeeders (fun k s => match s.share k with
    | some (q, _) => if q = p then s.deriveWanted k else s
    | none => s) s

/-! ### The neighbour's breakers (R98) -/

/-- R98: the neighbour breaker of section k becomes known, and the derivations follow. -/
def State.setNeighbour (k : FeederNo) (b : NeighbourBreaker) (s : State) : State :=
  if (s.sec (sectionOf k)).neighbour = some b then s
  else ((s.modSec (sectionOf k) fun r => { r with neighbour := some b }).deriveFeed k).deriveWanted k

/-- R98: what a beacon says of a line section. -/
def reportedBreaker (entries : List BeaconEntry) (line : Byte) : NeighbourBreaker :=
  match entries.find? fun e => e.line == line with
  | some e => if e.closed then .closed else .opened
  | none => .unknown

/-- R98: the contents of a beacon reach the sections shared on its port. -/
def State.takeReport (p : Port) (entries : List BeaconEntry) (s : State) : State :=
  forEach allFeeders (fun k s => match s.share k with
    | some (q, line) => if q = p then s.setNeighbour k (reportedBreaker entries line) else s
    | none => s) s

/-- R98: the link of a port goes DOWN. -/
def State.forgetReport (p : Port) (s : State) : State :=
  forEach allFeeders (fun k s => match s.share k with
    | some (q, _) => if q = p then s.setNeighbour k .unknown else s
    | none => s) s

/-! ### Earth switches (R104 to R107) -/

/-- The position of a switch is the commanded state. -/
def atCommand (closed : Bool) (pos : Option Pos) : Bool := pos == some (if closed then .closed else .opened)

/-- The holds in phase EARTH-OPEN that cover a section. -/
def State.unearthing (s : State) (n : SectionNo) : List Byte :=
  (s.ht.holds.filter fun h => h.phase == some .earthOpen && h.sections.contains n).map Hold.id

/-- R104, R105, R106, R107: the commanded state of an earth switch becomes CLOSED or OPEN; its drive and its mismatch timer
start, unless the switch stands there already. -/
def State.commandEarth (k : FeederNo) (closed : Bool) (s : State) : State :=
  let n := sectionOf k
  if (s.sec n).commandedClosed = closed then s
  else
    let there := atCommand closed (s.earthPos k)
    let s := s.modSec n fun r =>
      { r with
        commandedClosed := closed
        drive := if there then .none else if closed then .close else .opened
        mismatchTimer := if there then none else some 10000 }
    let s := s.deriveBars n
    if closed then s.handAll ((s.unearthing n).map Signal.judgeUnearth) else s

/-- R104: the answers to an earth close request. -/
inductive EarthAnswer where
  | granted | badSection | breaker
  deriving DecidableEq, Repr

/-- R104: the answer to an earth close request, by the first case that holds. -/
def State.earthAnswer (s : State) (n : SectionNo) : EarthAnswer :=
  match feederOf n with
  | none => .badSection
  | some k =>
    if !s.fitted k then .badSection
    else if (s.sec n).earth = 0 then .breaker
    else if s.breakerPos k ≠ some .opened then .breaker
    else .granted

/-- R105: an earth open request for a section. -/
def State.earthOpenRequest (n : SectionNo) (s : State) : State :=
  match feederOf n with
  | some k => s.commandEarth k false
  | none => s

/-- R106: the breaker of feeder k changed its position; a standing CLOSE drive drops, or starts again. -/
def State.earthInterlock (k : FeederNo) (s : State) : State :=
  let n := sectionOf k
  let r := s.sec n
  if s.breakerPos k ≠ some .opened then
    if r.drive = .close then s.modSec n fun r => { r with drive := .none } else s
  else if s.fitted k && r.commandedClosed && decide (r.earth ≠ 0) && s.earthPos k != some .closed then
    s.modSec n fun r => { r with drive := .close }
  else s

/-- R106, R107: the record of a fitted section when its earth switch takes a position. -/
def earthAt (pos : Pos) (r : SectionRec) : SectionRec :=
  let there := atCommand r.commandedClosed (some pos)
  { r with
    drive :=
      match r.drive, pos with
      | .close, .closed => .none
      | .opened, .opened => .none
      | d, _ => d
    mismatchTimer :=
      if there then none
      else if r.mismatchTimer.isSome then r.mismatchTimer
      else some 10000
    mismatch := if there then false else if pos = .discrepant then true else r.mismatch }

/-- R106, R107, R108: an earth switch position change reaches the Section Table. -/
def State.sectionTakesEarth (k : FeederNo) (pos : Pos) (s : State) : State :=
  let s := if s.fitted k then s.modSec (sectionOf k) (earthAt pos) else s
  s.deriveBars (sectionOf k)

/-- R111: an earth switch is set in motion when its starting position has been handed. -/
def State.startEarth (k : FeederNo) (s : State) : State :=
  if s.fitted k then
    let pos := s.earthPos k
    let open_ := s.breakerPos k == some .opened
    s.modSec (sectionOf k) fun r =>
      let there := atCommand r.commandedClosed pos
      { r with
        drive :=
          if there then .none
          else if !r.commandedClosed then .opened
          else if open_ && decide (r.earth ≠ 0) then .close
          else .none
        mismatchTimer := if there then none else some 10000
        mismatch := pos == some .discrepant }
  else s

/-! ### Hold counts (R101 to R103) -/

/-- The feeders whose sequencers a count of a section concerns: feeder k for section k, every one for the bus. -/
def concerned (n : SectionNo) : List FeederNo := match feederOf n with
  | some k => [k]
  | none => allFeeders

/-- R103, R108: what every change of a count hands on: permission afresh, and the waits of the sequencers concerned. -/
def State.countChanged (n : SectionNo) (s : State) : State :=
  let s := match feederOf n with
    | some _ => s.deriveBars n
    | none => s.deriveAllBars
  s.handAll ((concerned n).map Signal.judgeWait)

/-- R102: the isolate count of a section rises; from 0 it is a hold demand, and for the bus a bus hold. -/
def State.raiseIsolate (n : SectionNo) (s : State) : State :=
  let before := (s.sec n).isolate
  let s := s.modSec n fun r => { r with isolate := r.isolate + 1 }
  let s := if before = 0 then s.handAll ((concerned n).map Signal.holdDemand) else s
  let s := if before = 0 ∧ feederOf n = none then s.hand .busHold else s
  s.countChanged n

/-- R101: the isolate count of a section falls. -/
def State.lowerIsolate (n : SectionNo) (s : State) : State :=
  (s.modSec n fun r => { r with isolate := r.isolate - 1 }).countChanged n

/-- R101: the earth count of a section rises. The bus has none. -/
def State.raiseEarth (n : SectionNo) (s : State) : State :=
  match feederOf n with
  | some _ => (s.modSec n fun r => { r with earth := r.earth + 1 }).countChanged n
  | none => s

/-- R101, R105: the earth count of a section falls; at 0 the switch is commanded OPEN. -/
def State.lowerEarth (n : SectionNo) (s : State) : State :=
  match feederOf n with
  | some k =>
    let s := (s.modSec n fun r => { r with earth := r.earth - 1 }).countChanged n
    if (s.sec n).earth = 0 then s.commandEarth k false else s
  | none => s

/-- R101, R103: the noreclose count of a section rises; from 0 it is a reclose bar. The bus has none. -/
def State.raiseNoreclose (n : SectionNo) (s : State) : State :=
  match feederOf n with
  | some k =>
    let before := (s.sec n).noreclose
    let s := s.modSec n fun r => { r with noreclose := r.noreclose + 1 }
    let s := if before = 0 then s.hand (.recloseBar k) else s
    s.countChanged n
  | none => s

/-- R101: the noreclose count of a section falls. -/
def State.lowerNoreclose (n : SectionNo) (s : State) : State :=
  match feederOf n with
  | some _ => (s.modSec n fun r => { r with noreclose := r.noreclose - 1 }).countChanged n
  | none => s

/-- R101: the counts of a kind rise on a section. -/
def State.raiseCounts (kind : HoldKind) (n : SectionNo) (s : State) : State :=
  match kind with
  | .isolate => s.raiseIsolate n
  | .earth => (s.raiseIsolate n).raiseEarth n
  | .noreclose => s.raiseNoreclose n

/-- R101: the counts of a kind fall on a section. -/
def State.lowerCounts (kind : HoldKind) (n : SectionNo) (s : State) : State :=
  match kind with
  | .isolate => s.lowerIsolate n
  | .earth => (s.lowerIsolate n).lowerEarth n
  | .noreclose => s.lowerNoreclose n

/-- R101: a hold counts on a section with a count of a kind, by its own kind. -/
def countsIsolate (h : Hold) : Bool := h.kind == .isolate || h.kind == .earth

/-- R101: the holds that count: every state but FAILED. -/
def counting (holds : List Hold) (n : SectionNo) : List Hold :=
  holds.filter fun h => h.state != .failed && h.sections.contains n

/-- R101: the counts of a section recomputed from the table. -/
def recount (holds : List Hold) (n : SectionNo) (r : SectionRec) : SectionRec :=
  let line := (feederOf n).isSome
  let here := counting holds n
  { r with
    isolate := (here.filter countsIsolate).length
    earth := if line then (here.filter fun h => h.kind == .earth).length else 0
    noreclose := if line then (here.filter fun h => h.kind == .noreclose).length else 0 }

end Sys2Proof.Machine
end

