-- ==== Sys2Proof/Machine/BreakerSequencer.lean ====
section
/-! DEFINITION. The breaker sequencers (chapter 3): pulses, trips, confirmation, failures, dead time and its waits, line test,
closing and reclaim, the commands, and the demands of the other blocks. -/

namespace Sys2Proof.Machine

open Sys2Proof

/-! ### The record and its states -/

/-- R42 and the table of 3.1: the fields that stand in a state only are removed with it; `q` is the state that is entered. A
close pulse stands in CLOSING alone, the test contactor is CLOSED in LINE-TEST alone; an open pulse goes on. -/
def enterFields (q : SeqState) (r : Sequencer) : Sequencer :=
  { r with
    state := some q
    override := if q = .tripping then r.override else none
    inReclaim := if q = .tripping then r.inReclaim else none
    closeKind :=
      if q = .lineTest ∨ q = .closing ∨ (q = .inService ∧ r.reclaimTimer.isSome) then r.closeKind else none
    wait := if q = .deadTime then r.wait else none
    holdOpenPending := decide (q = .closing) && r.holdOpenPending
    failure := if q = .breakerFault then r.failure else none
    deadTimer := if q = .deadTime then r.deadTimer else none
    testTimer := if q = .lineTest then r.testTimer else none
    reclaimTimer := if q = .inService then r.reclaimTimer else none
    closeCoil := decide (q = .closing) && r.closeCoil
    closeTimer := if q = .closing then r.closeTimer else none
    testContactor := decide (q = .lineTest) }

/-- R70: the sequencer of feeder k enters a state with the fields `f` gives; the engine of its unit starts afresh on CLOSING
(R18) and stops when it ran and may not go on (R19); the change is handed to the other blocks. -/
def State.enter (k : FeederNo) (q : SeqState) (f : Sequencer → Sequencer) (s : State) : State :=
  let before := (s.seq k).state
  let s := s.modSeq k fun r => enterFields q (f r)
  let s :=
    if q = .closing then s.engineClosing k
    else if runsIn before && !runsIn (some q) then s.engineStop k
    else s
  if before = some q then s else s.hand (.seqChanged k)

/-- R43: an open pulse starts. It drops any close pulse, leaves a running pulse as it stands, and ends at once on a breaker
that stands OPEN. -/
def State.startOpenPulse (k : FeederNo) (s : State) : State :=
  let limit := s.store.cfg.tOpenMax
  let opened := s.breakerPos k == some .opened
  s.modSeq k fun r =>
    { r with
      closeCoil := false
      closeTimer := none
      openPulse := if opened then none else if r.openPulse.isSome then r.openPulse else some limit }

/-- R43, R61: CLOSING is entered with a close pulse, and the rectifier group is told. -/
def State.beginClosing (k : FeederNo) (kind : CloseKind) (s : State) : State :=
  let limit := s.store.cfg.tCloseMax
  (s.enter k .closing fun r =>
    { r with closeKind := some kind, holdOpenPending := false, closeCoil := true, closeTimer := some limit }).hand .wake

/-- OPEN with c = 0. -/
def State.seqToOpen (k : FeederNo) (s : State) : State := s.enter k .opened fun r => { r with attempts := 0 }

/-- LOCKOUT; c is kept. -/
def State.seqToLockout (k : FeederNo) (s : State) : State := s.enter k .lockout id

/-- LOCKOUT with a new trip cause (R51, R67, R68). -/
def State.seqToLockoutFor (k : FeederNo) (cause : TripCause) (s : State) : State :=
  s.enter k .lockout fun r => { r with cause := some cause }

/-- R49, R60: the dead time in milliseconds for an attempt count, min(T_dead·2^c, 60 s). -/
def deadTime (set : RecloseSettings) (attempts : Nat) : Nat := min (set.tDead * 500 * 2 ^ attempts) 60000

/-- T_offset in milliseconds. -/
def offsetTime (set : RecloseSettings) : Nat := set.tOffset * 500

/-- R49, R60: the length of a dead timer; T_offset is added, after the limit, for a trip of cause INTERTRIP. -/
def deadLength (set : RecloseSettings) (r : Sequencer) : Nat :=
  deadTime set r.attempts + if r.cause = some .intertrip then offsetTime set else 0

/-- R49, R60: DEAD-TIME is entered with its dead timer and no wait reason. -/
def State.enterDeadTime (k : FeederNo) (s : State) : State :=
  let set := s.reclose k
  s.enter k .deadTime fun r => { r with deadTimer := some (deadLength set r), wait := none }

/-- R66: the dead timer restarted by an intertrip; any wait ends and T_offset is added whatever the cause. -/
def State.restartDeadTime (k : FeederNo) (s : State) : State :=
  let set := s.reclose k
  s.enter k .deadTime fun r =>
    { r with deadTimer := some (deadTime set r.attempts + offsetTime set), wait := none }

/-! ### Trips (R44 to R49) -/

/-- R45: causes that pulse no feeder trip point. -/
def silentCause : TripCause → Bool
  | .command | .hold => true
  | _ => false

/-- R46: the intertrip cause handed on for a trip cause. -/
def intertripOf : TripCause → Option IntertripCause
  | .imax | .delta | .reverse | .direct => some .fault
  | .backup => some .backup
  | .emergency => some .emergency
  | .thermal | .measure | .command | .hold | .intertrip => none

/-- R45: the record of a trip that the engine did not decide. -/
def State.builtRecord (s : State) (k : FeederNo) (cause : TripCause) : TripRecord :=
  let e := s.engine k
  tripRecordOf e cause (e.history.headD 0) (s.channel (chIF k)).saturated none (s.seq k).attempts s.stamp

/-- R45: a trip is counted and recorded, and the feeder trip point pulses. -/
def State.recordTrip (k : FeederNo) (rec : TripRecord) (s : State) : State :=
  let s := s.modSeq k fun r =>
    { r with
      trips := satSucc 65535 r.trips
      last := some rec
      first := if r.first.isNone then some rec else r.first }
  if silentCause rec.cause then s else s.pulse (feederPoint 0 k)

/-- R44, steps 2 and 3: the fields of a trip from IN-SERVICE or CLOSING. -/
def tripFields (cause : TripCause) (r : Sequencer) : Sequencer :=
  { r with
    inReclaim := some (r.reclaimTimer.isSome || (decide (r.state = some .closing) && decide (r.closeKind = some .automatic)))
    cause := some cause
    override := if r.state = some .closing ∧ r.holdOpenPending = true then some .opened else none }

/-- Where a confirmed open leads (R48, R49). -/
inductive OpenOutcome where
  | opened
  | lockout (attempts : Nat)
  | dead (attempts : Nat)
  deriving DecidableEq, Repr

/-- R49: the reclose path judged; `isolated` and `barred` are the counts, `n` is N_rec. -/
def reclosePath (isolated barred : Bool) (n : Nat) (r : Sequencer) : OpenOutcome :=
  if isolated then .opened
  else if barred then .lockout r.attempts
  else if r.inReclaim = some true then
    let c := min (r.attempts + 1) n
    if n ≤ c then .lockout c else .dead c
  else if n = 0 then .lockout 0 else .dead 0

/-- R48: where a confirmed open leads. -/
def confirmedOutcome (isolated barred : Bool) (n : Nat) (r : Sequencer) : OpenOutcome :=
  match r.override, r.cause with
  | some .opened, _ => .opened
  | some .lockout, _ => .lockout r.attempts
  | none, some .command | none, some .hold => .opened
  | none, some .backup | none, some .measure | none, some .emergency => .lockout r.attempts
  | none, _ => reclosePath isolated barred n r

/-- R48, R49: the open is confirmed in TRIPPING. -/
def State.openConfirmed (k : FeederNo) (s : State) : State :=
  let s := (s.modSeq k fun r => { r with openPulse := none }).engineOpen k
  match confirmedOutcome (s.isolated k) (s.reclosBarred k) (s.reclose k).nRec (s.seq k) with
  | .opened => s.seqToOpen k
  | .lockout c => s.enter k .lockout fun r => { r with attempts := c }
  | .dead c => (s.modSeq k fun r => { r with attempts := c }).enterDeadTime k

/-- R44: a sequencer in IN-SERVICE or CLOSING takes a demand as a trip; `captured` is the record the engine hands with its own
decision (R34). An open pulse that ends at once on an OPEN breaker confirms the open at once (R43, R54). -/
def State.seqTrip (k : FeederNo) (cause : TripCause) (captured : Option TripRecord) (s : State) : State :=
  let s := s.enter k .tripping (tripFields cause)
  let s := s.startOpenPulse k
  let rec_ := match captured with
    | some r => r
    | none => s.builtRecord k cause
  let s := s.recordTrip k rec_
  let s := match intertripOf cause with
    | some c => s.intertripFor k c
    | none => s
  if s.breakerPos k = some .opened then s.openConfirmed k else s

/-- R47: an override set by a demand in TRIPPING; LOCKOUT stands above OPEN. -/
def overrideWith (o : Override) (r : Sequencer) : Sequencer :=
  { r with override := if o = .lockout then some .lockout else if r.override = some .lockout then some .lockout else some .opened }

/-! ### Failures (R50 to R53) -/

/-- R50: an open failure. -/
def State.openFailure (k : FeederNo) (s : State) : State :=
  let s := s.enter k .breakerFault fun r => { r with failure := some .openFailed }
  if s.backupLatch then s
  else
    let s := { s with backupLatch := true }
    let s := s.hand .backupRectifier
    let s := s.handAll ((allFeeders.filter (· ≠ k)).map Signal.backupTo)
    let s := s.intertripFor k .backup
    s.pulse 49

/-- R51: a backup demand reaches a sequencer. -/
def State.seqBackup (k : FeederNo) (s : State) : State :=
  match (s.seq k).state with
  | some .inService | some .closing => s.seqTrip k .backup none
  | some .lineTest => s.seqToLockoutFor k .backup
  | some .tripping => s.modSeq k (overrideWith .lockout)
  | some .deadTime | some .opened | some .lockout | some .breakerFault | some .notFitted | none => s

/-- R52: a close failure. -/
def State.closeFailure (k : FeederNo) (s : State) : State :=
  let s := (s.enter k .lockout fun r => { r with lastClose := .closeFailed }).startOpenPulse k
  s.pulse (feederPoint 65 k)

/-- R53: a breaker position of DISCREPANT. -/
def State.seqDiscrepant (k : FeederNo) (s : State) : State :=
  let fault := fun s : State => s.enter k .breakerFault fun r => { r with failure := some .discrepant }
  match (s.seq k).state with
  | some .inService | some .closing => (fault s).startOpenPulse k
  | some .tripping | some .lineTest | some .deadTime | some .opened | some .lockout => fault s
  | some .breakerFault | some .notFitted | none => s

/-! ### Dead time and line test (R55 to R60) -/

/-- What the list of R56 says. -/
inductive DeadVerdict where
  | opened
  | lockout
  | waits (w : WaitReason)
  | test
  deriving DecidableEq, Repr

/-- R60, R63: UB is FAILED or below U_busmin. -/
def State.busLow (s : State) (k : FeederNo) : Bool :=
  s.chFailed chUB || decide ((s.channel chUB).value < ((s.reclose k).uBusmin : Int))

/-- R56: the list judged in order. -/
def State.deadVerdict (s : State) (k : FeederNo) : DeadVerdict :=
  if s.isolated k then .opened
  else if s.reclosBarred k || (s.reclose k).nRec == 0 then .lockout
  else if s.busLow k then .waits .bus
  else if s.rect.state = .limiting then .waits .limit
  else if (s.engine k).recloseBar then .waits .thermal
  else if s.chFailed (chUL k) then .lockout
  else .test

/-- R59: a line test begins, or is skipped on a section that is live. -/
def State.beginLineTest (k : FeederNo) (kind : CloseKind) (s : State) : State :=
  if (s.channel chUB).value * 4 / 5 ≤ (s.channel (chUL k)).value then s.beginClosing k kind
  else
    let length := (s.reclose k).tTest * 10
    (s.enter k .lineTest fun r =>
      { r with closeKind := some kind, testContactor := true, testTimer := some length }).hand .wake

/-- R57: a feeder in DEAD-TIME waits with a reason; a wait for the bus asks the rectifier group to wake. -/
def State.waitFor (k : FeederNo) (w : WaitReason) (s : State) : State :=
  let before := (s.seq k).wait
  let s := s.modSeq k fun r => { r with wait := some w, deadTimer := none }
  if w = .bus ∧ before ≠ some .bus then s.hand .wake else s

/-- R56, R57: the list judged, and the first item that holds acted on. -/
def State.judgeDead (k : FeederNo) (s : State) : State :=
  match s.deadVerdict k with
  | .opened => s.seqToOpen k
  | .lockout => s.seqToLockout k
  | .waits w => s.waitFor k w
  | .test => s.beginLineTest k .automatic

/-- R57: a feeder that waits judges afresh. -/
def State.judgeWaits (k : FeederNo) (s : State) : State :=
  if s.seqIn k .deadTime && (s.seq k).wait.isSome then s.judgeDead k else s

/-- R58: a noreclose count became nonzero. -/
def State.seqRecloseBar (k : FeederNo) (s : State) : State :=
  match (s.seq k).state with
  | some .deadTime => s.seqToLockout k
  | some .lineTest => if (s.seq k).closeKind = some .automatic then s.seqToLockout k else s
  | _ => s

/-- R60: the manual test that fails or is not judged. -/
def State.manualTestFailed (k : FeederNo) (s : State) : State :=
  (s.enter k .opened fun r => { r with lastClose := .testFailed }).pulse (feederPoint 65 k)

/-- R60: the test passes. -/
def testPasses (qPass : Nat) (ub ul : Int) : Bool := decide ((qPass : Int) * ub ≤ 256 * ul)

/-- R60: an AUTOMATIC test that fails counts an attempt. -/
def State.automaticTestFailed (k : FeederNo) (s : State) : State :=
  let n := (s.reclose k).nRec
  let c := min ((s.seq k).attempts + 1) n
  let s := s.modSeq k fun r => { r with lastClose := .testFailed, attempts := c }
  if n ≤ c then s.seqToLockout k else s.enterDeadTime k

/-- R60: the test timer runs out; entering any other state opens the test contactor. -/
def State.judgeTest (k : FeederNo) (s : State) : State :=
  let kind := (s.seq k).closeKind
  if s.busLow k then
    if kind = some .manual then s.manualTestFailed k
    else (s.enter k .deadTime fun r => { r with wait := none, deadTimer := none }).waitFor k .bus
  else if testPasses (s.reclose k).qPass (s.channel chUB).value (s.channel (chUL k)).value then
    s.beginClosing k (if kind = some .manual then .manual else .automatic)
  else if kind = some .manual then s.manualTestFailed k
  else s.automaticTestFailed k

/-! ### Positions (R43, R48, R53 to R55, R61, R65) -/

/-- R61: the breaker closed in CLOSING. -/
def State.closingComplete (k : FeederNo) (s : State) : State :=
  let length := (s.reclose k).tReclaim * 1000
  s.enter k .inService fun r =>
    { r with
      lastClose := .closed
      reclaimTimer := if r.closeKind = some .automatic then some length else none }

/-- R43, R48, R54, R55, R61, R65: a position change of breaker k reaches its sequencer. -/
def State.seqTakesPosition (k : FeederNo) (pos : Pos) (s : State) : State :=
  match pos with
  | .opened =>
    let s := (s.modSeq k fun r => { r with openPulse := none }).engineOpen k
    match (s.seq k).state with
    | some .inService => s.seqTrip k .direct none
    | some .tripping => s.openConfirmed k
    | _ => s
  | .transit =>
    match (s.seq k).state with
    | some .inService => s.seqTrip k .direct none
    | _ => s
  | .closed =>
    match (s.seq k).state with
    | some .closing => if (s.seq k).holdOpenPending then s.seqTrip k .hold none else s.closingComplete k
    | some .opened | some .lockout => s.pulse (feederPoint 12 k)
    | some .deadTime | some .lineTest => (s.pulse (feederPoint 12 k)).seqToLockout k
    | _ => s
  | .discrepant => s.seqDiscrepant k

/-! ### Timers -/

/-- R43, R50: the open timer runs out. -/
def State.openTimeout (k : FeederNo) (s : State) : State :=
  (s.modSeq k fun r => { r with openPulse := none }).openFailure k

/-- R43, R52, R65: the close timer runs out. -/
def State.closeTimeout (k : FeederNo) (s : State) : State :=
  let s := s.modSeq k fun r => { r with closeTimer := none }
  if (s.seq k).holdOpenPending then
    if s.breakerPos k = some .opened then s.seqToOpen k else s.seqTrip k .hold none
  else s.closeFailure k

/-- R61: the reclaim timer runs out. -/
def reclaimEnds (r : Sequencer) : Sequencer := { r with reclaimTimer := none, attempts := 0, closeKind := none }

/-! ### Commands (R62 to R64, R45) -/

/-- R62: OPEN of feeder k. -/
def State.commandOpen (k : FeederNo) (s : State) : Answer :=
  match (s.seq k).state with
  | some .inService | some .closing => accept (s.seqTrip k .command none)
  | some .deadTime | some .lineTest => accept (s.seqToOpen k)
  | some .opened | some .lockout =>
    if s.breakerPos k = some .opened then refuse s .state else accept (s.startOpenPulse k)
  | some .notFitted => refuse s .notFitted
  | some .tripping | some .breakerFault | none => refuse s .state

/-- R63: CLOSE of feeder k. -/
def State.commandClose (k : FeederNo) (s : State) : Answer :=
  if s.seqIn k .notFitted then refuse s .notFitted
  else if !s.seqIn k .opened || s.breakerPos k != some .opened then refuse s .state
  else if (s.sec (sectionOf k)).bars.barred then refuse s .interlock
  else if s.chFailed (chIF k) || s.chFailed (chUL k) || s.busLow k then refuse s .interlock
  else accept ((s.modSeq k fun r => { r with attempts := 0 }).beginLineTest k .manual)

/-- R50: the backup latch clears when no sequencer stands in BREAKER-FAULT with OPEN-FAILED. -/
def State.clearLatch (s : State) : State :=
  if allFeeders.any fun k => s.seqIn k .breakerFault && (s.seq k).failure == some .openFailed then s
  else { s with backupLatch := false }

/-- R64: RESET LOCKOUT of feeder k. -/
def State.commandReset (k : FeederNo) (s : State) : Answer :=
  match (s.seq k).state with
  | some .lockout => accept (s.seqToOpen k).clearLatch
  | some .breakerFault =>
    if s.breakerPos k = some .opened then accept (s.seqToOpen k).clearLatch else refuse s .state
  | some .notFitted => refuse s .notFitted
  | _ => refuse s .state

/-- R45: the trip records of feeder k are emptied. -/
def State.clearRecords (k : FeederNo) (s : State) : State := s.modSeq k fun r => { r with first := none, last := none }

/-! ### Demands of the other blocks (R65 to R69) -/

/-- R55: a corrective open of a breaker that is not OPEN. -/
def State.correctiveOpen (k : FeederNo) (s : State) : State :=
  if s.breakerPos k = some .opened then s else s.startOpenPulse k

/-- R65: a hold demand, or an open demand with cause HOLD. -/
def State.seqHoldDemand (k : FeederNo) (s : State) : State :=
  match (s.seq k).state with
  | some .inService => s.seqTrip k .hold none
  | some .tripping => s.modSeq k (overrideWith .opened)
  | some .deadTime | some .lineTest => s.seqToOpen k
  | some .closing => s.modSeq k fun r => { r with closeCoil := false, holdOpenPending := true }
  | some .opened | some .lockout => s.correctiveOpen k
  | some .breakerFault | some .notFitted | none => s

/-- R66: an intertrip received for section k. -/
def State.seqIntertrip (k : FeederNo) (s : State) : State :=
  let s := s.pulse 55
  match (s.seq k).state with
  | some .inService | some .closing => s.seqTrip k .intertrip none
  | some .deadTime => s.restartDeadTime k
  | some .lineTest => if (s.seq k).closeKind = some .automatic then s.restartDeadTime k else s
  | _ => s

/-- R67: an EMERGENCY demand. -/
def State.seqEmergency (k : FeederNo) (s : State) : State :=
  match (s.seq k).state with
  | some .inService | some .closing => s.seqTrip k .emergency none
  | some .lineTest | some .deadTime => s.seqToLockoutFor k .emergency
  | some .tripping => s.modSeq k (overrideWith .lockout)
  | some .opened | some .lockout | some .breakerFault | some .notFitted | none => s

/-- R68: a failure of IFk. -/
def State.seqLosesCurrent (k : FeederNo) (s : State) : State :=
  match (s.seq k).state with
  | some .inService | some .closing => s.seqTrip k .measure none
  | some .tripping => s.modSeq k (overrideWith .lockout)
  | some .deadTime | some .lineTest | some .opened => s.seqToLockoutFor k .measure
  | some .lockout | some .breakerFault | some .notFitted | none => s

/-- R68: a failure of ULk. -/
def State.seqLosesVoltage (k : FeederNo) (s : State) : State :=
  match (s.seq k).state with
  | some .lineTest => if (s.seq k).closeKind = some .manual then s.manualTestFailed k else s.seqToLockout k
  | _ => s

/-- R69: a group is activated; c is lowered to the new N_rec. -/
def State.seqActivate (k : FeederNo) (s : State) : State :=
  let n := (s.reclose k).nRec
  s.modSeq k fun r => { r with attempts := min r.attempts n }

/-- R71: the sequencer takes its starting state, and a hold demand if its section or the bus is held. -/
def State.startSequencer (k : FeederNo) (s : State) : State :=
  let s :=
    if !s.fitted k then s.enter k .notFitted id
    else match s.breakerPos k with
      | some .closed => s.enter k .inService fun r => { r with attempts := 0 }
      | some .opened => s.enter k .opened fun r => { r with attempts := 0 }
      | _ => s.enter k .breakerFault fun r => { r with failure := some .discrepant }
  if s.isolated k then s.seqHoldDemand k else s

/-! ### The arrival at the engine of the unit (R17, R28, R33) -/

/-- R17, R20, R28 to R34, R38: the engine of feeder k takes a sample arrival. -/
def State.engineTakesArrival (k : FeederNo) (valid : Half) (s : State) : State :=
  if !valid.getLsbD (chIF k).val || !s.fitted k then s
  else
    let current := (s.channel (chIF k)).value
    let feed := feedCurrent current
    let s := s.changeEngine k fun e => judgeHeat true { e with heat := heatAfter e.copy.thermal feed e.heat }
    let s :=
      if runsIn (s.seq k).state && (s.engine k).stage != .tripped then
        let (e, decision) := judgeCriteria current (s.engine k)
        match decision with
        | some cause =>
          let rec_ := tripRecordOf e cause feed (s.channel (chIF k)).saturated e.arming (s.seq k).attempts s.stamp
          (s.modEngine k fun _ => { e with stage := .tripped }).seqTrip k cause (some rec_)
        | none => s.changeEngine k fun _ => e
      else s
    s.modEngine k fun e => { e with history := pushHistory feed e.history }

end Sys2Proof.Machine
end

