-- ==== Sys2Proof/Machine/RectifierGroup.lean ====
section
/-! DEFINITION. The Rectifier Group Controller (chapter 4): references and firing, states and trips, starting and
synchronisation, regulation, waking, supervision, and the AC breaker. -/

namespace Sys2Proof.Machine

open Sys2Proof

/-! ### States (R74) -/

/-- R74: the states that run: SYNCING, RAMPING, REGULATING, LIMITING, STANDBY. -/
def groupRuns : RectState → Bool
  | .syncing | .ramping | .regulating | .limiting | .standby => true
  | .off | .tripped => false

/-- R74: the states in which bridge loss and bus fault are judged. -/
def holdsBus : RectState → Bool
  | .regulating | .limiting => true
  | _ => false

/-- R74: what stands in a state only is removed on leaving it; outside the pulsing states α is α_max, the low counts are 0 and
no pulse is pending. -/
def rectFields (alphaMax : Nat) (q : RectState) (r : Rectifier) : Rectifier :=
  let pulsing := delivering q
  { r with
    state := q
    cause := if q = .tripped then r.cause else none
    tripTime := if q = .tripped then r.tripTime else none
    ramp := if q = .ramping then r.ramp else none
    syncCount := if q = .syncing then r.syncCount else none
    syncTimer := if q = .syncing then r.syncTimer else none
    wakeTimer := if q = .standby then r.wakeTimer else none
    alpha := if pulsing then r.alpha else (alphaMax : Int)
    bridge1 := if pulsing then r.bridge1 else { r.bridge1 with low := 0 }
    bridge2 := if pulsing then r.bridge2 else { r.bridge2 with low := 0 }
    busFault := if holdsBus q then r.busFault else 0
    pulses := if pulsing then r.pulses else [] }

/-- R74: the group enters a state with the fields `f` gives; a change is handed to the other blocks. -/
def State.rectEnter (q : RectState) (f : Rectifier → Rectifier) (s : State) : State :=
  let before := s.rect.state
  let top := s.store.cfg.alphaMax
  let s := s.modRect fun r => rectFields top q (f r)
  if before = q then s else s.hand .rectChanged

/-! ### The AC open drive and trips (R75, R88, R90) -/

/-- R88: the AC open drive starts, unless the position is OPEN already. -/
def State.startAcDrive (s : State) : State :=
  if s.acPos = some .opened then s else s.modRect fun r => { r with acDrive := true }

/-- R75: a trip of the group; in TRIPPED the first cause stands. -/
def State.rectTrip (cause : RectCause) (s : State) : State :=
  if s.rect.state = .tripped then s
  else
    let now := s.stamp
    s.rectEnter .tripped fun r => { r with cause := some cause, tripTime := some now }

/-- R75: a trip taken only while the group runs or stands by. -/
def State.rectTripRunning (cause : RectCause) (s : State) : State :=
  if groupRuns s.rect.state then s.rectTrip cause else s

/-- R90: a backup or EMERGENCY demand. -/
def State.rectDemand (cause : RectCause) (s : State) : State := (s.rectTrip cause).startAcDrive

/-- R81: STOP. -/
def State.rectStop (s : State) : State := if s.rect.state = .off then s else s.rectEnter .off id

/-- R91: a bus hold. -/
def State.rectBusHold (s : State) : State :=
  (if groupRuns s.rect.state then s.rectStop else s).startAcDrive

/-- R88: the AC breaker takes a position. -/
def State.rectTakesAc (pos : Pos) (s : State) : State :=
  let s := match pos with
    | .opened => s.modRect fun r => { r with acDrive := false }
    | .closed => if (s.sec busSection).isolate ≠ 0 then s.startAcDrive else s
    | .transit | .discrepant => s
  if pos = .closed then s else s.rectTripRunning .acBreaker

/-! ### Starting and synchronisation (R76, R77) -/

/-- R77: SYNCING is entered. -/
def State.enterSyncing (s : State) : State :=
  s.rectEnter .syncing fun r => { r with syncCount := some 0, syncTimer := some 2000 }

/-- R77, R83: RAMPING is entered from the bus voltage. -/
def State.enterRamping (s : State) : State :=
  let ub := (s.channel chUB).value.toNat
  s.rectEnter .ramping fun r =>
    { r with
      ramp := some (16 * ub)
      bridge1 := { r.bridge1 with pair := 0 }
      bridge2 := { r.bridge2 with pair := 0 } }

/-- R76: the start interlocks. -/
def State.startInterlock (s : State) : Bool :=
  s.store.configFault || s.acPos != some .closed || (s.sec busSection).isolate != 0 ||
    s.chFailed chUB || s.chFailed chIB1 || s.chFailed chIB2 || s.backupLatch || s.sp.emergency ||
    (!s.chFailed chTT && decide ((s.rectSettings.tTrip : Int) ≤ (s.channel chTT).value))

/-- R76, case 3: TT is FAILED or its value is T_warn or more; a new T_warn applies from the next sample arrival (R92). -/
def State.tooWarm (s : State) : Bool :=
  s.chFailed chTT || decide ((s.rectSettings.tWarn : Int) ≤ (s.channel chTT).value)

/-- R76: START. -/
def State.rectStart (s : State) : Answer :=
  if groupRuns s.rect.state then refuse s .state
  else if s.startInterlock then refuse s .interlock
  else if s.rect.state = .tripped ∧ s.rect.cause = some .temp ∧ s.tooWarm = true then refuse s .interlock
  else
    accept (s.modRect fun r =>
      { r with
        cause := none
        tripTime := none
        bridge1 := { r.bridge1 with lost := false }
        bridge2 := { r.bridge2 with lost := false }
        degraded := false }).enterSyncing

/-- R82: STANDBY. -/
def State.rectStandby (s : State) : Answer :=
  if s.rect.state = .regulating then
    if allFeeders.any fun k => s.seqIn k .closing || s.seqIn k .lineTest || (s.seq k).wait == some .bus then
      refuse s .interlock
    else accept (s.rectEnter .standby fun r => { r with wakeTimer := none })
  else refuse s .state

/-- R83: the group in STANDBY wakes. -/
def State.rectWake (s : State) : State :=
  if s.rect.state = .standby then if s.rect.refsPresent then s.enterRamping else s.enterSyncing else s

/-- R94: AUTOSTART judges a START once. -/
def State.rectAutostart (s : State) : State :=
  if s.store.cfg.autostart then
    let a := s.rectStart
    a.state.modRect fun r => { r with autostart := some a.result }
  else s

/-! ### Commutation references and gate pulses (R72, R73, R84) -/

/-- R72: a good interval. -/
def goodInterval (t : Nat) : Bool := decide (1500 ≤ t) && decide (t ≤ 1833)

/-- R72: the reference is taken: its interval, supervision and references present. -/
def takeReference (elapsed : Nat) (r : Rectifier) : Rectifier :=
  { r with
    lastInterval := if r.refSeen then some (min 65535 elapsed) else none
    refSeen := true
    refTimer := some 5
    refsPresent := true }

/-- R73: the pulse of a pair, α·s/300 µs after its reference. -/
def pulseDelay (alpha : Int) (interval : Nat) : Int := (alpha * (max 1500 (min 1833 interval) : Nat)).tdiv 300

/-- R73: a bridge in use advances its pair counter. -/
def advancePair (b : BridgeRec) : BridgeRec := if b.lost then b else { b with pair := b.pair % 6 + 1 }

/-- R73: the pulse a bridge places at a reference; none is placed without an interval (assumption 17). -/
def placedPulse (which : Bridge) (alpha : Int) (interval : Option Nat) (b : BridgeRec) : List GatePulse :=
  if b.lost then []
  else match interval with
    | some t => [{ bridge := which, pair := b.pair, delay := pulseDelay alpha t }]
    | none => []

/-- R73: both bridges fire at a reference. -/
def fire (r : Rectifier) : Rectifier :=
  let b1 := advancePair r.bridge1
  let b2 := advancePair r.bridge2
  { r with
    bridge1 := b1
    bridge2 := b2
    pulses := r.pulses ++ placedPulse .one r.alpha r.lastInterval b1 ++ placedPulse .two r.alpha r.lastInterval b2 }

/-- R77: the sync count after a reference. -/
def syncAfter (interval : Option Nat) (count : Nat) : Nat :=
  match interval with
  | some t => if goodInterval t then count + 1 else 1
  | none => 1

/-- R72, R73, R77: a commutation reference. -/
def State.rectReference (elapsed : Nat) (s : State) : State :=
  let s := s.modRect (takeReference elapsed)
  if delivering s.rect.state then s.modRect fire
  else if s.rect.state = .syncing then
    let n := syncAfter s.rect.lastInterval (s.rect.syncCount.getD 0)
    let s := s.modRect fun r => { r with syncCount := some n }
    if 24 ≤ n then s.enterRamping else s
  else s

/-- A pending pulse of a pair of a bridge, the oldest first, taken out of the list. -/
def takePulse (b : Bridge) (pair : Nat) : List GatePulse → Option (GatePulse × List GatePulse)
  | [] => none
  | x :: rest =>
    if x.bridge = b ∧ x.pair = pair then some (x, rest)
    else (takePulse b pair rest).map fun (y, l) => (y, x :: l)

/-- A bridge's record. -/
def Rectifier.bridge (r : Rectifier) : Bridge → BridgeRec
  | .one => r.bridge1
  | .two => r.bridge2

/-- R73: the placement time of a pending pulse comes. -/
def emitPulse (b : Bridge) (pair : Nat) (r : Rectifier) : Rectifier :=
  match takePulse b pair r.pulses with
  | some (x, rest) =>
    { r with
      pulses := rest
      gateOut := if delivering r.state && !(r.bridge b).lost then some x else r.gateOut }
  | none => r

/-- R72, R84: the reference supervision timer runs out. -/
def State.rectDip (s : State) : State :=
  let s := s.modRect fun r => { r with refTimer := none, refsPresent := false }
  if delivering s.rect.state then
    let s := (s.modRect fun r => { r with dips := satSucc 65535 r.dips }).pulse 47
    s.enterSyncing
  else s

/-! ### Regulation (R78 to R80) -/

/-- The current limit in force, I_eff (4.1). -/
def effectiveLimit (set : RectSettings) (degraded : Bool) : Nat := if degraded then set.iLim / 2 else set.iLim

/-- R78: the reference voltage. -/
def referenceVoltage (set : RectSettings) (ir : Int) : Int := (set.uSet : Int) - ((set.rd : Int) * ir).tdiv 1000

/-- R78: state, ramp value and effective reference after the ramp step. -/
def rampStep (set : RectSettings) (uRef : Int) (r : Rectifier) : RectState × Option Nat × Int :=
  match r.state, r.ramp with
  | .ramping, some v =>
    let v := min 36000 (v + set.sRamp)
    if 16 * uRef ≤ (v : Int) then (.regulating, none, uRef) else (.ramping, some v, ((v / 16 : Nat) : Int))
  | q, v => (q, v, uRef)

/-- R79: the state after the current limit is judged, and whether the current term applies. -/
def limitStep (iEff : Nat) (ir : Int) (q : RectState) : RectState × Bool :=
  if q = .limiting then
    if ir ≤ ((iEff * 15 / 16 : Nat) : Int) then (.regulating, false) else (.limiting, true)
  else if (iEff : Int) < ir then (.limiting, true)
  else (q, false)

/-- R79: the current term Δα_c. -/
def currentTerm (kc iEff : Nat) (ir : Int) : Int := max 1 (((kc : Int) * (ir - iEff)).tdiv 64)

/-- R80: the voltage term Δα_v. -/
def voltageTerm (kv : Nat) (e : Int) : Int := (-((kv : Int) * e)).tdiv 64

/-- R78, R79, R80: one regulation step. -/
def regulate (set : RectSettings) (alphaMin alphaMax : Nat) (ub ir : Int) (r : Rectifier) : Rectifier :=
  let iEff := effectiveLimit set r.degraded
  let uRef := referenceVoltage set ir
  let (q, ramp, uEff) := rampStep set uRef r
  let (q, limited) := limitStep iEff ir q
  let dv := voltageTerm set.kv (uEff - ub)
  let step := if limited then max dv (currentTerm set.kc iEff ir) else dv
  { r with
    state := q
    ramp := if q = .ramping then ramp else none
    uRef := some uRef
    alpha := clampInt alphaMin alphaMax (r.alpha + step) }

/-! ### Supervision on arrivals (R83, R85 to R87) -/

/-- The derived rectifier current (R1). -/
def State.rectCurrent (s : State) : Int := (s.channel chIB1).value + (s.channel chIB2).value

/-- R85: a bridge's low count after an arrival. -/
def lowAfter (ir current : Int) (b : BridgeRec) : BridgeRec :=
  if b.lost then b
  else if 1000 ≤ ir ∧ current < ir / 16 then { b with low := b.low + 1 }
  else { b with low := 0 }

/-- R85: a bridge in use has reached a low count of 80. -/
def bridgeFails (b : BridgeRec) : Bool := !b.lost && decide (80 ≤ b.low)

/-- R85: a bridge becomes LOST; its pending pulses are cancelled. -/
def loseBridge (which : Bridge) (r : Rectifier) : Rectifier :=
  { r with
    bridge1 := if which = .one then { r.bridge1 with lost := true } else r.bridge1
    bridge2 := if which = .two then { r.bridge2 with lost := true } else r.bridge2
    degraded := true
    pulses := r.pulses.filter fun p => p.bridge ≠ which }

/-- R85: bridge loss judged. -/
def State.judgeBridges (s : State) : State :=
  let ir := s.rectCurrent
  let i1 := (s.channel chIB1).value
  let i2 := (s.channel chIB2).value
  let s := s.modRect fun r => { r with bridge1 := lowAfter ir i1 r.bridge1, bridge2 := lowAfter ir i2 r.bridge2 }
  if bridgeFails s.rect.bridge1 then
    if s.rect.bridge2.lost then s.rectTrip .bridge else s.modRect (loseBridge .one)
  else if bridgeFails s.rect.bridge2 then
    if s.rect.bridge1.lost then s.rectTrip .bridge else s.modRect (loseBridge .two)
  else s

/-- R86: the sum of the feeder currents flowing outward, over the fitted feeders. -/
def State.outwardCurrent (s : State) : Int :=
  allFeeders.foldl (fun acc k => if s.fitted k then acc + max 0 (s.channel (chIF k)).value else acc) 0

/-- R86: the arrival meets the bus fault condition. -/
def State.busFaultMet (s : State) (iEff : Nat) : Bool :=
  let ir := s.rectCurrent
  decide ((s.channel chUB).value < ((s.rectSettings.uSet * 3 / 10 : Nat) : Int)) && decide ((iEff : Int) ≤ ir) &&
    decide (s.outwardCurrent < ir / 2)

/-- R86: bus fault supervision; I_eff is that of the arrival's beginning (R85). -/
def State.judgeBusFault (iEff : Nat) (s : State) : State :=
  let n := if s.busFaultMet iEff then s.rect.busFault + 1 else 0
  let s := s.modRect fun r => { r with busFault := n }
  if 4 ≤ n then ((s.rectTrip .busFault).handAll (allFeeders.map Signal.backupTo)).pulse 48 else s

/-- R87: temperature supervision. -/
def State.judgeTemperature (s : State) : State :=
  if (s.rectSettings.tTrip : Int) ≤ (s.channel chTT).value then s.rectTripRunning .temp else s

/-- R83: the wake timer judged in STANDBY. -/
def wakeJudge (set : RectSettings) (ub : Int) (r : Rectifier) : Rectifier :=
  if ub < (set.uWake : Int) then
    { r with wakeTimer := if r.wakeTimer.isSome then r.wakeTimer else some (if set.wakeLong then 100 else 20) }
  else { r with wakeTimer := none }

/-- R92: the rectifier settings of the group in use apply from this sample arrival on. -/
def State.takeSettings (s : State) : State :=
  let now := s.store.inUse.rect
  s.modRect fun r => { r with settings := now }

/-- R78 to R80, R83, R85 to R87: the rectifier group takes a sample arrival. Which checks it judges is set by the state it
stands in when the arrival reaches it (assumption 8). The temperature is not judged between TT's failure event and its recovery
(R87). -/
def State.rectTakesArrival (valid : Half) (s : State) : State :=
  let s := s.takeSettings
  let at_ := s.rect.state
  let iEff := effectiveLimit s.rectSettings s.rect.degraded
  let vUB := valid.getLsbD chUB.val
  let vIB1 := valid.getLsbD chIB1.val
  let vIB2 := valid.getLsbD chIB2.val
  let cfg := s.store.cfg
  let s :=
    if delivering at_ && vUB && vIB1 && vIB2 then
      let s := s.modRect (regulate s.rectSettings cfg.alphaMin cfg.alphaMax (s.channel chUB).value s.rectCurrent)
      if s.rect.state = at_ then s else s.hand .rectChanged
    else s
  let s := if holdsBus at_ && vIB1 && vIB2 then s.judgeBridges else s
  let s := if holdsBus at_ && holdsBus s.rect.state && vUB && vIB1 && vIB2 then s.judgeBusFault iEff else s
  let s := if valid.getLsbD chTT.val && !s.channelLost chTT then s.judgeTemperature else s
  if s.rect.state = .standby ∧ vUB = true then s.modRect (wakeJudge s.rectSettings (s.channel chUB).value) else s

/-- R92: a change of the configuration in use. -/
def rectReconfigured (cfg : ConfigRec) (r : Rectifier) : Rectifier :=
  { r with
    alpha := if delivering r.state then clampInt cfg.alphaMin cfg.alphaMax r.alpha else (cfg.alphaMax : Int) }

end Sys2Proof.Machine
end

