-- ==== Sys2Proof/Machine/HoldTable.lean ====
section
/-! DEFINITION. The Hold Table (chapter 6): placement, securing, proving, earthing, what a standing hold watches, failure,
release, the panel hold keys, and the settling after a reset. -/

namespace Sys2Proof.Machine

open Sys2Proof

/-! ### The record (6.1, R112, R113) -/

/-- The feeders a hold covers (R119): those of its sections; every fitted feeder when the list names section 6. -/
def State.covers (s : State) (sections : List SectionNo) (k : FeederNo) : Bool :=
  sections.contains (sectionOf k) || (sections.contains busSection && s.fitted k)

/-- The port of a PEER origin. -/
def peerPort : Origin → Option Port
  | .peerA => some .a
  | .peerB => some .b
  | .station | .panel => none

/-- R113: the ID after an ID, wrapping from 255 to 1. -/
def nextId (id : Byte) : Byte := if id.toNat = 255 then 1 else id + 1

/-- R113: the first ID not in use, from `id` on; the search ends within `fuel` steps. -/
def freeId (inUse : Byte → Bool) : Nat → Byte → Byte
  | 0, id => id
  | fuel + 1, id => if inUse id then freeId inUse fuel (nextId id) else id

/-- R113: the new ID for a placement. -/
def drawId (holds : List Hold) (last : Byte) : Byte :=
  freeId (fun id => holds.any fun h => h.id == id) 255 (nextId last)

/-- The peer ask entries of a hold of origin STATION or PANEL, with status NONE (R116). -/
def State.asksFor (s : State) (sections : List SectionNo) : List PeerAsk :=
  sections.filterMap fun n => match feederOf n with
    | some k => match s.share k with
      | some (p, line) =>
        some { port := p, line := line, status := .none, peerId := none, deny := none, awaiting := false }
      | none => none
    | none => none

/-- R101: the counts of a hold rise on every section it covers. -/
def State.raiseHold (h : Hold) (s : State) : State := forEach h.sections (State.raiseCounts h.kind) s

/-- R101: the counts of a hold fall on every section it covers. -/
def State.lowerHold (h : Hold) (s : State) : State := forEach h.sections (State.lowerCounts h.kind) s

/-- A change of the asks of a hold on a port. -/
def modAsks (p : Port) (f : PeerAsk → PeerAsk) (h : Hold) : Hold :=
  { h with asks := h.asks.map fun a => if a.port = p then f a else a }

/-- The ask of a hold on a port. -/
def Hold.askOn (h : Hold) (p : Port) : Option PeerAsk := h.asks.find? fun a => a.port = p

/-! ### Retirement and failure (R131, R137) -/

/-- A key bound to a hold is unbound. -/
def State.unbind (id : Byte) (s : State) : State :=
  forEach allKeys (fun n s => s.modKey n fun r => if r.bound = some id then { r with bound := none } else r) s

/-- R137: a hold is retired. -/
def State.retireHold (id : Byte) (s : State) : State :=
  match s.hold id with
  | some h =>
    let s := s.modHolds fun l => l.filter fun x => x.id ≠ id
    let s := if h.state = .failed then s else s.lowerHold h
    s.unbind id
  | none => s

/-- R131, step 3: DROPs for the asks of a failed hold. -/
def State.dropAsks (h : Hold) (s : State) : State :=
  forEach h.asks (fun a s =>
    if (a.status = .asked ∨ a.status = .granted) ∧ s.linkUp a.port = true then s.queueMessage a.port (.drop h.id) else s) s

/-- R131, R144: a hold on its way to ACTIVE: the states from which it becomes FAILED, and in which a reset catches it in flight. -/
def caughtInFlight (h : Hold) : Bool := h.state == .securing || h.state == .proving || h.state == .earthing

/-- R131: the record of a hold that has become FAILED; only its retire timer runs. -/
def failedHold (reason : FailReason) (h : Hold) : Hold :=
  { h with state := .failed, failure := some reason, timers := { noHoldTimers with retire := some 600000 } }

/-- R131: a hold becomes FAILED; it never does from ACTIVE or RELEASING. -/
def State.failHold (id : Byte) (reason : FailReason) (s : State) : State :=
  match s.hold id with
  | some h =>
    if caughtInFlight h then
      let s := s.modHold id (failedHold reason)
      let s := s.lowerHold h
      let s := s.dropAsks h
      let s := match peerPort h.origin with
        | some p => if s.linkUp p then s.queueMessage p (.deny (h.tag.setWidth 8) .breaker) else s
        | none => s
      s.pulse 57
    else s
  | none => s

/-! ### EARTHING and PROVING (R124 to R127) -/

/-- The dead run of every covered section is 8 or more (R124). -/
def State.provedDead (s : State) (h : Hold) : Bool := h.sections.all fun n => decide (8 ≤ (s.sec n).deadRun)

/-- The earth switch position of every covered section is CLOSED (R126). -/
def State.allEarthed (s : State) (h : Hold) : Bool := h.sections.all fun n => match feederOf n with
  | some k => s.earthPos k == some .closed
  | none => false

/-- A hold becomes ACTIVE; only a minute timer goes on. -/
def activeHold (h : Hold) : Hold :=
  { h with state := .active, timers := { noHoldTimers with minute := h.timers.minute } }

/-- R126: the earth close requests of a hold entering EARTHING, in ascending order, until one is refused; true if none was. -/
def State.requestEarths : List SectionNo → State → State × Bool
  | [], s => (s, true)
  | n :: rest, s =>
    if (s.sec n).commandedClosed then State.requestEarths rest s
    else
      match s.earthAnswer n, feederOf n with
      | .granted, some k => State.requestEarths rest (s.commandEarth k true)
      | _, _ => (s, false)

/-- R126: a hold in EARTHING is ACTIVE once every covered switch is CLOSED. -/
def State.judgeEarthing (id : Byte) (s : State) : State :=
  match s.hold id with
  | some h => if h.state = .earthing ∧ s.allEarthed h = true then s.modHold id activeHold else s
  | none => s

/-- R126: EARTHING is entered. -/
def State.enterEarthing (id : Byte) (s : State) : State :=
  let s := s.modHold id fun h =>
    { h with
      state := .earthing
      purpose := none
      phase := none
      unearth := []
      timers := { noHoldTimers with earthing := some 10000 } }
  match s.hold id with
  | some h =>
    let (s, granted) := s.requestEarths h.sections
    if granted then s.judgeEarthing id else s.failHold id .breaker
  | none => s

/-- R124, R125: PROVING is entered, unless a voltage channel of a covered section is FAILED. -/
def State.enterProving (id : Byte) (s : State) : State :=
  match s.hold id with
  | some h =>
    if h.sections.any fun n => s.chFailed (voltageChannel n) then
      (s.modHold id fun h => { h with state := .proving }).failHold id .measure
    else
      s.modHold id fun h =>
        { h with
          state := .proving
          timers := { noHoldTimers with provingWait := some 2000, provingLimit := some 10000 } }
  | none => s

/-- R124: a hold in PROVING whose wait has ended is judged. -/
def State.judgeProof (id : Byte) (s : State) : State :=
  match s.hold id with
  | some h =>
    if h.state = .proving ∧ h.timers.provingWait = none ∧ s.provedDead h = true then
      if h.kind = .earth then s.enterEarthing id else s.modHold id activeHold
    else s
  | none => s

/-- R124: the holds in PROVING take a sample arrival. -/
def State.holdsTakeArrival (s : State) : State :=
  forEach ((s.ht.holds.filter fun h => h.state = .proving).map Hold.id) State.judgeProof s

/-- R125: the voltage channel of a section fails. -/
def State.holdsLoseVoltage (n : SectionNo) (s : State) : State :=
  forEach ((s.ht.holds.filter fun h => h.state = .proving && h.sections.contains n).map Hold.id)
    (fun id s => s.failHold id .measure) s

/-! ### SECURING (R119 to R123) -/

/-- R115, R120: a feeder in BREAKER-FAULT with its breaker position not OPEN. -/
def State.faultyFeeder (s : State) (k : FeederNo) : Bool := s.seqIn k .breakerFault && s.breakerPos k != some .opened

/-- R119: a covered feeder is secured. -/
def State.feederSecured (s : State) (k : FeederNo) : Bool :=
  s.seqIn k .notFitted ||
    ((s.seqIn k .opened || s.seqIn k .lockout || s.seqIn k .breakerFault) && s.breakerPos k == some .opened)

/-- R119: the breakers of a hold are secured. -/
def State.breakersSecured (s : State) (h : Hold) : Bool :=
  h.kind == .noreclose ||
    ((allFeeders.all fun k => !s.covers h.sections k || s.feederSecured k) &&
      (!h.sections.contains busSection ||
        ((s.rect.state == .off || s.rect.state == .tripped) && s.acPos == some .opened)))

/-- R120: a covered feeder fails the hold. -/
def State.breakerFails (s : State) (h : Hold) : Bool :=
  h.kind != .noreclose && allFeeders.any fun k => s.covers h.sections k && s.faultyFeeder k

/-- R119: a hold that is secured goes on. -/
def State.secured (id : Byte) (h : Hold) (s : State) : State :=
  match peerPort h.origin with
  | some p => (s.modHold id activeHold).queueMessage p (.grant (h.tag.setWidth 8) id)
  | none => if h.kind = .noreclose then s.modHold id activeHold else s.enterProving id

/-- R119, R120: a hold in SECURING is judged. -/
def State.judgeHold (id : Byte) (s : State) : State :=
  match s.hold id with
  | some h =>
    if h.state ≠ .securing then s
    else if s.breakerFails h then s.failHold id .breaker
    else if s.breakersSecured h && h.asks.all fun a => a.status == .granted then s.secured id h
    else s
  | none => s

/-- R119: the holds in SECURING that cover feeder k. -/
def State.securingOver (s : State) (k : FeederNo) : List Byte :=
  (s.ht.holds.filter fun h => h.state = .securing && s.covers h.sections k).map Hold.id

/-- R119: the holds in SECURING that name section 6. -/
def State.securingBus (s : State) : List Byte :=
  (s.ht.holds.filter fun h => h.state = .securing && h.sections.contains busSection).map Hold.id

/-- R121: the reason of a hold whose SECURING limit runs out. -/
def State.limitReason (s : State) (h : Hold) : FailReason :=
  if h.asks.any fun a => (a.status == .none || a.status == .asked) && !s.linkUp a.port then .peerLost else .timeout

/-! ### Placement (R115 to R118) -/

/-- R116: the record of a new hold: in SECURING with its limit running; the asks on a link that is UP are ASKED. -/
def State.newHold (s : State) (kind : HoldKind) (origin : Origin) (tag : Half) (sections : List SectionNo)
    (duration : Option Nat) : Hold :=
  let asks := if (peerPort origin).isSome then [] else s.asksFor sections
  { id := drawId s.ht.holds s.ht.lastId
    kind := kind
    origin := origin
    tag := tag
    sections := sections
    state := .securing
    remaining := duration
    asks := asks.map fun a => if s.linkUp a.port then { a with status := .asked } else a
    purpose := none
    phase := none
    unearth := []
    failure := none
    placed := s.stamp
    timers := { noHoldTimers with securing := some 30000, minute := duration.map fun _ => 60000 } }

/-- R116: what every placement does, and the ID of the new hold. -/
def State.placeHold (kind : HoldKind) (origin : Origin) (tag : Half) (sections : List SectionNo)
    (duration : Option Nat) (s : State) : State × Byte :=
  let h := s.newHold kind origin tag sections duration
  let s := s.handTable (s.ht.holds ++ [h]) h.id
  let s := forEach h.asks (fun a s => if a.status = .asked then s.queueMessage a.port (.ask h.id a.line kind) else s) s
  let s := s.raiseHold h
  (s.hand (.judgeHold h.id), h.id)

/-- R115, item 2: the list names a line section whose feeder is not fitted. -/
def State.namesUnfitted (s : State) (sections : List SectionNo) : Bool :=
  sections.any fun n => match feederOf n with
    | some k => !s.fitted k
    | none => false

/-- R115, item 3: the list names two sections shared on one port. -/
def State.sharesTwice (s : State) (sections : List SectionNo) : Bool :=
  let ports := (s.asksFor sections).map PeerAsk.port
  decide (2 ≤ (ports.filter (· = .a)).length) || decide (2 ≤ (ports.filter (· = .b)).length)

/-- R115, item 5: the lowest covered feeder in BREAKER-FAULT with its position not OPEN. -/
def State.interlockFeeder (s : State) (sections : List SectionNo) : Option FeederNo :=
  allFeeders.find? fun k => s.covers sections k && s.faultyFeeder k

/-- R115, items 2 to 5 as a key placement and PLACE HOLD share them; `bar` is item 3. -/
def State.placementRefusal (s : State) (sections : List SectionNo) (bar : Bool) : Option (RefusalCode × Nat) :=
  if s.namesUnfitted sections then some (.notFitted, 0)
  else if bar then some (.badSection, 0)
  else if 24 ≤ s.ht.holds.length then some (.full, 0)
  else match s.interlockFeeder sections with
    | some k => some (.interlock, k.val)
    | none => none

/-- R118: a PEER placement is refused with a DENY reason, or passes with the local section. -/
def State.peerAnswer (s : State) (p : Port) (line : Byte) : DenyReason ⊕ FeederNo :=
  match s.sharedOn p line with
  | none => .inl .wrongSection
  | some k =>
    if !s.fitted k then .inl .wrongSection
    else if 24 ≤ s.ht.holds.length ∨ 8 ≤ (s.ht.holds.filter fun h => h.origin = peerOrigin p).length then .inl .full
    else if s.faultyFeeder k then .inl .breaker
    else .inr k

/-- R118: the kind of a PEER hold. -/
def peerKind : HoldKind → HoldKind
  | .noreclose => .noreclose
  | .isolate | .earth => .isolate

/-- R118, R162: a new ASK is placed, or answered with a DENY. -/
def State.placePeer (p : Port) (id line : Byte) (kind : HoldKind) (s : State) : State :=
  match s.peerAnswer p line with
  | .inl reason => s.queueMessage p (.deny id reason)
  | .inr k => (s.placeHold (peerKind kind) (peerOrigin p) (id.setWidth 16) [sectionOf k] none).1

/-! ### Release (R133 to R138) -/

/-- R136: the drop phase. -/
def State.dropPhase (id : Byte) (s : State) : State :=
  match s.hold id with
  | some h =>
    let live := fun a : PeerAsk => (a.status == .asked || a.status == .granted) && s.linkUp a.port
    let waits := h.asks.any live
    let s := forEach (h.asks.filter live) (fun a s => s.queueMessage a.port (.drop id)) s
    if waits then
      s.modHold id fun h =>
        { h with
          state := .releasing
          purpose := some .retire
          phase := some .peerDrop
          unearth := []
          asks := h.asks.map fun a => if live a then { a with awaiting := true } else a
          timers := { noHoldTimers with drop := some 5000 } }
    else s.retireHold id
  | none => s

/-- R136: a hold in phase PEER-DROP whose every wait has ended is retired. -/
def State.judgeDrop (id : Byte) (s : State) : State :=
  match s.hold id with
  | some h => if h.phase = some .peerDrop ∧ h.asks.all (fun a => !a.awaiting) = true then s.retireHold id else s
  | none => s

/-- R134: the sections a releasing EARTH hold has to unearth. -/
def State.unearthSet (s : State) (h : Hold) : List SectionNo :=
  if h.kind = .earth then h.sections.filter fun n => (s.sec n).earth = 1 && (s.sec n).commandedClosed else []

/-- R134, R142: the phase EARTH-OPEN is entered for a set of sections. -/
def State.beginUnearth (id : Byte) (purpose : Purpose) (set : List SectionNo) (s : State) : State :=
  let s := s.modHold id fun h =>
    { h with
      state := .releasing
      purpose := some purpose
      phase := some .earthOpen
      unearth := set
      timers := noHoldTimers }
  (forEach set State.earthOpenRequest s).hand (.judgeUnearth id)

/-- R134: a standing hold is released. -/
def State.releaseHold (id : Byte) (s : State) : State :=
  match s.hold id with
  | some h =>
    match h.state with
    | .securing | .proving | .earthing | .active =>
      let s := s.modHold id fun h => { h with timers := noHoldTimers }
      match s.unearthSet h with
      | [] => s.dropPhase id
      | set => s.beginUnearth id .retire set
    | .releasing => if h.purpose = some .convert then s.modHold id fun h => { h with purpose := some .retire } else s
    | .failed => s
  | none => s

/-- R135: a section of the unearth set is done. -/
def State.unearthed (s : State) (n : SectionNo) : Bool :=
  (s.sec n).commandedClosed ||
    match feederOf n with
    | some k => s.earthPos k == some .opened
    | none => true

/-- R141: a hold of kind ISOLATE becomes one of kind EARTH, and counts as one. -/
def State.earthHold (id : Byte) (h : Hold) (s : State) : State :=
  forEach h.sections State.raiseEarth (s.modHold id fun x => { x with kind := .earth })

/-- R142: a hold of kind EARTH becomes one of kind ISOLATE, with the fields `f` gives, and counts as one. -/
def State.isolateHold (id : Byte) (h : Hold) (f : Hold → Hold) (s : State) : State :=
  forEach h.sections State.lowerEarth (s.modHold id fun x => { f x with kind := .isolate })

/-- R135, R142: the unearth set is judged. -/
def State.judgeUnearth (id : Byte) (s : State) : State :=
  match s.hold id with
  | some h =>
    if h.phase = some .earthOpen ∧ h.unearth.all s.unearthed = true then
      match h.purpose with
      | some .convert => s.isolateHold id h fun h => activeHold { h with purpose := none, phase := none, unearth := [] }
      | _ => s.dropPhase id
    else s
  | none => s

/-- R122: a GRANT is taken. -/
def State.takeGrant (p : Port) (id holdId : Byte) (s : State) : State :=
  let foreign := s.queueMessage p (.drop id)
  match s.hold id with
  | some h =>
    if (h.askOn p).isNone then foreign
    else
      let granted := modAsks p fun a => { a with status := .granted, peerId := some holdId }
      match h.state with
      | .failed => foreign
      | .securing => (s.modHold id granted).hand (.judgeHold id)
      | .proving | .earthing | .active => s.modHold id granted
      | .releasing =>
        let s := s.modHold id granted
        if h.phase = some .peerDrop then
          (s.queueMessage p (.drop id)).modHold id (modAsks p fun a => { a with awaiting := true })
        else s
  | none => foreign

/-- R120, R122: a DENY is taken. -/
def State.takeDeny (p : Port) (id : Byte) (reason : DenyReason) (s : State) : State :=
  match s.hold id with
  | some h =>
    match h.askOn p with
    | some a =>
      let denied := modAsks p fun a => { a with status := .denied, deny := some reason, awaiting := false }
      if h.state = .securing ∧ a.status = .asked then (s.modHold id denied).failHold id .peerDenied
      else if h.state = .releasing ∧ a.awaiting = true then (s.modHold id denied).judgeDrop id
      else s
    | none => s
  | none => s

/-- R122, R136: a DROPPED is taken. -/
def State.takeDropped (p : Port) (id : Byte) (s : State) : State :=
  match s.hold id with
  | some h =>
    match h.askOn p with
    | some a =>
      if h.state = .releasing ∧ a.awaiting = true then
        (s.modHold id (modAsks p fun a => { a with awaiting := false })).judgeDrop id
      else s
    | none => s
  | none => s

/-- The PEER hold of a port with an ask ID. -/
def State.peerHold (s : State) (p : Port) (id : Byte) : Option Hold :=
  s.ht.holds.find? fun h => h.origin = peerOrigin p && h.tag == id.setWidth 16

/-- R138, R163: a DROP is taken, and answered DROPPED in every case. -/
def State.takeDrop (p : Port) (id : Byte) (s : State) : State :=
  let s := match s.peerHold p id with
    | some h => if h.state = HoldState.failed then s.retireHold h.id else s.releaseHold h.id
    | none => s
  s.queueMessage p (.dropped id)

/-- R123: a link reaches UP; holds in SECURING ask. -/
def State.askAgain (p : Port) (s : State) : State :=
  forEach ((s.ht.holds.filter fun h => h.state = .securing).map Hold.id) (fun id s =>
    match s.hold id with
    | some h => match h.askOn p with
      | some a =>
        if a.status = .none then
          (s.modHold id (modAsks p fun a => { a with status := .asked })).queueMessage p (.ask id a.line h.kind)
        else s
      | none => s
    | none => s) s

/-- R123: a link leaves UP; the waits for DROPPED on it end. -/
def State.endWaits (p : Port) (s : State) : State :=
  forEach ((s.ht.holds.filter fun h => h.asks.any fun a => a.port = p && a.awaiting).map Hold.id)
    (fun id s => (s.modHold id (modAsks p fun a => { a with awaiting := false })).judgeDrop id) s

/-! ### What a standing hold watches (R128 to R130) -/

/-- R128: breaker k stands CLOSED while its section or the bus is held. `pending` says that its sequencer stood in CLOSING
with hold open pending when the position came. -/
def State.violation (k : FeederNo) (pending : Bool) (s : State) : State :=
  if s.isolated k && !pending then (s.pulse 59).hand (.holdDemand k) else s

/-- R129: earth switch k is seen OPEN under an ACTIVE EARTH hold. -/
def State.earthLoss (k : FeederNo) (s : State) : State :=
  if s.ht.holds.any fun h => h.state == .active && h.kind == .earth && h.sections.contains (sectionOf k) then s.pulse 59 else s

/-- R126, R129, R135: earth switch k took a position. -/
def State.holdsTakeEarth (k : FeederNo) (pos : Pos) (s : State) : State :=
  let n := sectionOf k
  let s := if pos = .opened then s.earthLoss k else s
  let s := s.handAll ((s.ht.holds.filter fun h => h.state = .earthing && h.sections.contains n).map fun h =>
    Signal.judgeEarthing h.id)
  s.handAll ((s.unearthing n).map Signal.judgeUnearth)

/-- R130: the expired hold is released. -/
def State.expireHold (id : Byte) (s : State) : State := (s.pulse 58).releaseHold id

/-- R130: a minute timer runs out. -/
def State.minuteEnds (id : Byte) (h : Hold) (s : State) : State :=
  let left := h.remaining.getD 0 - 1
  if left = 0 then
    (s.modHold id fun h => { h with remaining := some 0, timers := { h.timers with minute := none } }).expireHold id
  else s.modHold id fun h => { h with remaining := some left, timers := { h.timers with minute := some 60000 } }

/-! ### Panel hold keys (R117, R140 to R142) -/

/-- The section a key serves. -/
def keySection (n : KeyNo) : SectionNo := n

/-- The holder tag of a key, 1 to 7. -/
def keyTag (n : KeyNo) : Half := BitVec.ofNat 16 (n.val + 1)

/-- R117: a key placement is refused. -/
def State.refuseKey (n : KeyNo) (code : RefusalCode) (s : State) : State :=
  (s.modKey n fun r => { r with lastRefusal := some code, needsCycling := true }).pulse 57

/-- R117: a key turned from OFF places. -/
def State.keyPlaces (n : KeyNo) (kind : HoldKind) (s : State) : State :=
  if (s.key n).needsCycling || (s.key n).bound.isSome then s
  else match s.placementRefusal [keySection n] false with
    | some (code, _) => s.refuseKey n code
    | none =>
      let (s, id) := s.placeHold kind .panel (keyTag n) [keySection n] none
      s.modKey n fun r => { r with bound := some id, lastRefusal := none }

/-- R140: a bound hold is acted on when its key comes to OFF. -/
def State.keyReleases (id : Byte) (s : State) : State :=
  match s.hold id with
  | some h => if h.state = .failed then s.retireHold id else s.releaseHold id
  | none => s

/-- R141: a key moved from ISOLATE to EARTH. -/
def State.keyEarths (id : Byte) (s : State) : State :=
  match s.hold id with
  | some h =>
    match h.state, h.kind, h.purpose with
    | .securing, .isolate, _ | .proving, .isolate, _ => s.earthHold id h
    | .active, .isolate, _ =>
      let s := s.earthHold id h
      if s.provedDead h then s.enterEarthing id else s.enterProving id
    | .releasing, .earth, some .convert => s.enterEarthing id
    | _, _, _ => s
  | none => s

/-- R142: a key moved from EARTH to ISOLATE. -/
def State.keyIsolates (id : Byte) (s : State) : State :=
  match s.hold id with
  | some h =>
    if h.kind ≠ .earth then s
    else
      match h.state with
      | .securing | .proving => s.isolateHold id h fun x => x
      | .earthing | .active =>
        match s.unearthSet h with
        | [] => s.isolateHold id h activeHold
        | set => s.beginUnearth id .convert set
      | .releasing | .failed => s
  | none => s

/-- R140: one key move, from the position in the key record to a new one. -/
def State.keyMove (n : KeyNo) (pos : KeyPos) (s : State) : State :=
  let before := s.key n
  let s := s.modKey n fun r => { r with pos := pos }
  match before.pos, pos with
  | .off, .isolate => s.keyPlaces n .isolate
  | .off, .earth => s.keyPlaces n .earth
  | .isolate, .off | .earth, .off =>
    let s := s.modKey n fun r => { r with needsCycling := false, bound := none }
    match before.bound with
    | some id => s.keyReleases id
    | none => s
  | .isolate, .earth =>
    match before.bound with
    | some id => s.keyEarths id
    | none => s
  | .earth, .isolate =>
    match before.bound with
    | some id => s.keyIsolates id
    | none => s
  | .off, .off | .isolate, .isolate | .earth, .earth => s

/-- R145: a key record is rebuilt from the key's starting position. -/
def State.rebuildKey (n : KeyNo) (pos : KeyPos) (s : State) : State :=
  let found : Option Hold := s.ht.holds.find? fun h => h.origin == .panel && h.tag == keyTag n
  match found with
  | none => s.modKey n fun _ => { pos := pos, bound := none, needsCycling := pos != .off, lastRefusal := none }
  | some h =>
    let bind := fun cycling : Bool =>
      s.modKey n fun _ => { pos := pos, bound := some h.id, needsCycling := cycling, lastRefusal := none }
    match pos with
    | .off =>
      (s.modKey n fun _ => { pos := .off, bound := none, needsCycling := false, lastRefusal := none }).keyReleases h.id
    | .isolate =>
      if h.state = .failed then bind true
      else if h.kind = .earth then (bind false).keyIsolates h.id
      else bind false
    | .earth =>
      if h.state = .failed then bind true
      else if h.kind = .isolate then (bind false).keyEarths h.id
      else bind false

/-! ### Across resets (R114, R144) -/

/-- R144: a record settled after a reset. -/
def settleHold (h : Hold) : Hold :=
  let standing : Hold :=
    { h with
      state := .active
      purpose := none
      phase := none
      unearth := []
      asks := h.asks.map fun a => { a with awaiting := false }
      timers :=
        { noHoldTimers with
          minute := match h.remaining with
            | some (_ + 1) => some 60000
            | _ => none } }
  match h.state with
  | .active | .releasing => standing
  | .failed => { h with timers := { noHoldTimers with retire := some 600000 } }
  | .securing | .proving | .earthing =>
    { h with
      state := .failed
      failure := some .reset
      unearth := []
      timers := { noHoldTimers with retire := some 600000 } }

/-- R144: the Hold Table after a reset, from the retained table. -/
def settledTable (holds : List Hold) (lastId : Byte) : HoldTable :=
  { holds := holds.map settleHold
    lastId := lastId
    keys := Vector.replicate 7 initialKey
    resetFailed := holds.any caughtInFlight }

/-- R144: the settling ends when equipment verification ends. -/
def State.startHolds (s : State) : State :=
  let s := if s.ht.resetFailed then s.pulse 57 else s
  let s := { s with ht := { s.ht with resetFailed := false } }
  forEach ((s.ht.holds.filter fun h => h.state = .active && h.kind = .noreclose && h.remaining == some 0).map Hold.id)
    State.releaseHold s

end Sys2Proof.Machine
end

