-- ==== Sys2Proof/WellFormed.lean ====
section
/-! DEFINITION. Which terms of `Instr` stand for a command or event as the manual lets it reach the part. `exec` has a meaning for
every term; well-formedness only says which of them a sender can make. -/

namespace Sys2Proof

/-- 11.1: the command codes the port knows. -/
def knownCodes : List Byte :=
  [0x01, 0x03, 0x04, 0x05, 0x06, 0x07, 0x08, 0x09, 0x0A, 0x0B, 0x0C, 0x0D, 0x0E, 0x20, 0x21, 0x22, 0x23, 0x24, 0x30, 0x31,
   0x32, 0x33, 0x34, 0x40, 0x41, 0x42, 0x50, 0x51, 0x52, 0x53, 0x54, 0x55, 0x56, 0x5F]

/-- R8: an order of the blocks names each at most once. -/
def orderOk (order : List ArrivalTaker) : Bool := decide order.Nodup

/-- R73: the pairs of a bridge are numbered 1 to 6. -/
def pairOk (pair : Nat) : Bool := decide (1 ≤ pair) && decide (pair ≤ 6)

/-- R113: a hold ID is 1 to 255. -/
def holdIdOk (id : Byte) : Bool := id != 0

/-- R200: the bytes that a length operand calls for; a length outside its set calls for none. -/
def countOk (top : Nat) (count : Byte) (data : List Byte) : Bool :=
  data.length == if 1 ≤ count.toNat ∧ count.toNat ≤ top then count.toNat else 0

/-- R200: a section count outside its set calls for no duration either. -/
def durationOk (count : Byte) (duration : Half) : Bool :=
  (decide (1 ≤ count.toNat) && decide (count.toNat ≤ 7)) || duration == 0

/-- R147: every field of a message holds a value of its stated set, and an AUDIT repeats no ask ID. -/
def fieldsValid : MsgBody → Bool
  | .beacon entries _ => decide (entries.length ≤ 2) && entries.all fun e => e.line != 0
  | .intertrip line _ => line != 0
  | .ask id line _ => id != 0 && line != 0
  | .grant id holdId => id != 0 && holdId != 0
  | .deny id _ => id != 0
  | .drop id => id != 0
  | .dropped id => id != 0
  | .audit ids => decide (ids.length ≤ 8) && ids.all (· != 0) && decide ids.Nodup

/-- A link message that its neighbour can have sent: a station number 1 to 255 and fields within their sets. -/
def messageOk (station : Byte) (body : MsgBody) : Bool := station != 0 && fieldsValid body

/-- Well-formedness of a command or event. -/
def Instr.wf : Instr → Bool
  | .sampleFrame _ order => orderOk order
  | .gatePulse _ pair => pairOk pair
  | .securingLimitExpiry id => holdIdOk id
  | .provingWaitExpiry id => holdIdOk id
  | .provingLimitExpiry id => holdIdOk id
  | .earthingLimitExpiry id => holdIdOk id
  | .dropLimitExpiry id => holdIdOk id
  | .retireTimerExpiry id => holdIdOk id
  | .minuteTimerExpiry id => holdIdOk id
  | .beacon _ station entries delivering => messageOk station (.beacon entries delivering)
  | .intertrip _ station line cause => messageOk station (.intertrip line cause)
  | .ask _ station id line kind => messageOk station (.ask id line kind)
  | .grant _ station id holdId => messageOk station (.grant id holdId)
  | .deny _ station id reason => messageOk station (.deny id reason)
  | .drop _ station id => messageOk station (.drop id)
  | .dropped _ station id => messageOk station (.dropped id)
  | .audit _ station ids => messageOk station (.audit ids)
  | .unknownCommand code => !knownCodes.contains code
  | .placeHold _ _ count sections duration => countOk 7 count sections && durationOk count duration
  | .writeStaging _ count data => countOk 64 count data
  | .powerOn | .resetInput | .equipmentVerificationEnd | .frameTimeout | .contactRawChange _ _ | .inputChange _
  | .transitTimerExpiry _ | .openTimerExpiry _ | .closeTimerExpiry _ | .deadTimerExpiry _ | .testTimerExpiry _
  | .reclaimTimerExpiry _ | .commutationReference _ | .referenceSupervisionExpiry | .syncTimerExpiry | .wakeTimerExpiry
  | .earthMismatchTimerExpiry _ | .discardedMessage _ | .supervisionTimerExpiry _ | .transmissionCompletion _
  | .beaconTimerExpiry _ | .stationTimeTick | .selectionTimerExpiry | .eraseCompletion _ | .programCompletion _
  | .selArming | .emptyFrame | .brokenFrame | .readStatus | .readFeeder _ | .readTripRecord _ _ | .readSection _
  | .readHold _ | .listHolds | .readRectifier | .readAlerts | .readPoint _ | .readLink _ | .readSettingsStatus
  | .readStaging _ _ | .readTime | .select _ _ | .operate _ _ | .cancelSelection | .resetLockout _
  | .clearTripRecords _ | .releaseHold _ _ | .extendHold _ _ _ | .dismissHold _ _ | .forceRelease _
  | .acknowledgePoint _ | .acknowledgeAll | .setTime _ | .erase _ | .program _ | .activate _ | .clearSettingsStatus
  | .setLock | .clearLock | .restart | .resetInputRelease => true

end Sys2Proof
end

