-- ==== Sys2Proof/Machine/LinkUnit.lean ====
section
/-! DEFINITION. The Neighbour Link Unit (chapter 7): validity of messages, link states, what each message does, and the port's
transmitter and beacon timer. -/

namespace Sys2Proof.Machine

open Sys2Proof

/-! ### Validity (R147) -/

/-- R147: the message comes from the port's neighbour with valid fields. -/
def State.messageValid (s : State) (p : Port) (station : Byte) (body : MsgBody) : Bool :=
  fieldsValid body && station == (s.store.cfg.port p).neighbour

/-! ### Link states (R147 to R150) -/

/-- R149: the link record at a fall; `q` is DOWN, or UNUSED after a configuration change. -/
def fallenLink (q : LinkState) (l : Link) : Link :=
  { l with
    state := q
    joinCount := none
    supervision := none
    intertrips := []
    messages := []
    beaconDue := false
    report := none
    beaconTimer := if q = .unused then none else l.beaconTimer }

/-- R149: a link falls. -/
def State.linkFalls (p : Port) (q : LinkState) (s : State) : State :=
  let before := s.link p
  let s := s.modLink p (fallenLink q)
  let s := forEach before.intertrips (fun _ s => s.pulse 56) s
  let s := (s.forgetReport p).deriveWantedOn p
  if before.state = .up then s.hand (.linkLeftUp p) else s

/-- R150: a link reaches UP. -/
def State.linkRises (p : Port) (s : State) : State :=
  let s := s.modLink p fun l => { l with state := .up, joinCount := none }
  let s := (s.queueMessage p .audit).beaconDue p
  (s.hand (.linkReachedUp p)).deriveWantedOn p

/-- R148: a valid message acts on the link state. -/
def State.linkHears (p : Port) (s : State) : State :=
  let l := s.link p
  let s := s.modLink p fun l => { l with supervision := some 350 }
  match l.state with
  | .down => s.modLink p fun l => { l with state := .joining, joinCount := some 1 }
  | .joining =>
    let n := l.joinCount.getD 0 + 1
    if 3 ≤ n then s.linkRises p else s.modLink p fun l => { l with joinCount := some n }
  | .up | .unused => s

/-- Points 53 and 54. -/
def errorPoint : Port → PointNo
  | .a => 53
  | .b => 54

/-- R147, R148: a message is discarded. -/
def State.linkDiscards (p : Port) (s : State) : State :=
  let n := (s.link p).errors
  let s := s.modLink p fun l => { l with errors := satSucc 65535 l.errors }
  let s := if n < 65535 ∧ (n + 1) % 16 = 0 then s.pulse (errorPoint p) else s
  if (s.link p).state = .joining then s.linkFalls p .down else s

/-- R146, R147, R168: a message arrives on a port. On an UNUSED port, and until equipment verification ends, it is neither
taken nor counted. -/
def State.linkReceives (p : Port) (station : Byte) (body : MsgBody) (s : State) : State :=
  if s.verifying || (s.link p).state == .unused then s
  else if s.messageValid p station body then (s.linkHears p).hand (.message p body)
  else s.linkDiscards p

/-! ### Messages handed on (R151, R159 to R166) -/

/-- R159: a BEACON. -/
def State.takeBeacon (p : Port) (entries : List BeaconEntry) (delivers : Bool) (s : State) : State :=
  (s.modLink p fun l => { l with report := some { entries := entries, delivering := delivers } }).takeReport p entries

/-- R160: an INTERTRIP. -/
def State.takeIntertrip (p : Port) (line : Byte) (cause : IntertripCause) (s : State) : State :=
  let now := s.stamp
  let s := s.modLink p fun l => { l with lastIntertrip := some { line := line, cause := cause, stamp := now } }
  match s.sharedOn p line with
  | some k => s.seqIntertrip k
  | none => s

/-- R161: a PEER record matches an ASK. -/
def State.askMatches (s : State) (p : Port) (line : Byte) (kind : HoldKind) (h : Hold) : Bool :=
  h.kind == peerKind kind && match s.sharedOn p line with
    | some k => h.sections == [sectionOf k]
    | none => false

/-- R161: an ASK. -/
def State.takeAsk (p : Port) (id line : Byte) (kind : HoldKind) (s : State) : State :=
  match s.peerHold p id with
  | some h =>
    if !s.askMatches p line kind h || h.state == .failed then (s.retireHold h.id).placePeer p id line kind
    else if h.state = .active then s.queueMessage p (.grant id h.id)
    else s
  | none => s.placePeer p id line kind

/-- R166: a hold stands for the audit. -/
def auditStands (h : Hold) : Bool :=
  match h.state with
  | .securing | .proving | .earthing | .active => true
  | .releasing => h.phase == some .earthOpen
  | .failed => false

/-- R166: the standing holds with an ask on a port of a status, with the ask's line section. -/
def auditAsks (holds : List Hold) (p : Port) (status : AskStatus) : List (Byte × Byte × HoldKind) :=
  holds.filterMap fun h =>
    match h.askOn p with
    | some a => if auditStands h && a.status == status then some (h.id, a.line, h.kind) else none
    | none => none

/-- R166: an AUDIT. -/
def State.takeAudit (p : Port) (ids : List Byte) (s : State) : State :=
  let stands := fun id : Byte => s.ht.holds.any fun h => h.id == id && auditStands h && (h.askOn p).isSome
  let lost := (auditAsks s.ht.holds p .granted).filter fun x => !ids.contains x.1
  let asked := auditAsks s.ht.holds p .asked
  let s := forEach (ids.filter fun id => !stands id) (fun id s => s.queueMessage p (.drop id)) s
  let s := forEach asked (fun x s => s.queueMessage p (.ask x.1 x.2.1 x.2.2)) s
  let s := forEach lost (fun x s =>
    (s.modHold x.1 (modAsks p fun a => { a with status := .asked, peerId := none })).queueMessage p
      (.ask x.1 x.2.1 x.2.2)) s
  if lost.isEmpty then s else s.pulse 59

/-- R151: a valid message is handed on by its kind. -/
def State.takeMessage (p : Port) (body : MsgBody) (s : State) : State :=
  match body with
  | .beacon entries delivers => s.takeBeacon p entries delivers
  | .intertrip line cause => s.takeIntertrip p line cause
  | .ask id line kind => s.takeAsk p id line kind
  | .grant id holdId => s.takeGrant p id holdId
  | .deny id reason => s.takeDeny p id reason
  | .drop id => s.takeDrop p id
  | .dropped id => s.takeDropped p id
  | .audit ids => s.takeAudit p ids

/-! ### Transmitter and timers (R153, R156, R157, R168) -/

/-- R156: a transmission completes. -/
def State.transmissionEnds (p : Port) (s : State) : State :=
  if (s.link p).inFlight.isSome then (s.modLink p fun l => { l with inFlight := none }).transmit p else s

/-- R157: the beacon timer runs out. -/
def State.beaconTimeout (p : Port) (s : State) : State :=
  if (s.link p).beaconTimer.isSome then (s.modLink p fun l => { l with beaconTimer := some 100 }).beaconDue p else s

/-- R168, R146: a USED port begins to be heard. -/
def State.startPort (p : Port) (s : State) : State :=
  if (s.link p).state = .unused then s
  else (s.modLink p fun l => { l with beaconTimer := some 100 }).beaconDue p

/-- R146: a new configuration comes into use on a port; `before` is the port's configuration until now. -/
def State.reconfigurePort (p : Port) (before : PortConfig) (s : State) : State :=
  let now := s.store.cfg.port p
  if before.used && !now.used then s.linkFalls p .unused
  else if !before.used && now.used then
    (s.modLink p fun l => { fallenLink .down l with inFlight := l.inFlight }).startPort p
  else if now.used && now.neighbour != before.neighbour && takesMessages (s.link p).state then s.linkFalls p .down
  else s

end Sys2Proof.Machine
end

