-- ==== Sys2Proof/Machine/SettingsStore.lean ====
section
/-! DEFINITION. The Settings Store (chapter 9): staging, ERASE and PROGRAM, activation, the configuration in use, the lock, the
retained area, and the resets with their start-up loading (R195 to R198, R211). -/

namespace Sys2Proof.Machine

open Sys2Proof

/-! ### Images and the staging buffer (R185 to R187) -/

/-- The image of a target. -/
def Store.image (st : Store) : StoreTarget → Image
  | .group g => st.groups.get g
  | .config => st.config

/-- A new image of a target. -/
def Store.setImage (t : StoreTarget) (i : Image) (st : Store) : Store :=
  match t with
  | .group g => { st with groups := st.groups.set g i }
  | .config => { st with config := i }

/-- The target of a target code (9.1). -/
def targetOf (code : Byte) : Option StoreTarget :=
  if h : code.toNat < 4 then some (.group ⟨code.toNat, h⟩) else if code.toNat = 4 then some .config else none

/-- A target's code. -/
def targetCode : StoreTarget → Nat
  | .group g => g.val
  | .config => 4

/-- The bytes of the staging area of a target that are programmed: 382 for a group, 126 for the configuration (R189). -/
def Store.stagedContent (st : Store) : StoreTarget → List Byte
  | .group _ => st.staging.toList.take 382
  | .config => (st.staging.toList.drop 384).take 126

/-- R187: the field index of the first failing field of a target's area. -/
def rangeCheck (t : StoreTarget) (content : List Byte) : Option Nat :=
  firstFailing 1 (match t with
    | .group _ => groupChecks content
    | .config => configChecks content)

/-- R197: an image whose stored check code matches its content. -/
def Image.sound (i : Image) : Bool := i.state == .valid && checkCode i.content == i.code

/-- R186: data bytes written into the buffer from an offset on. -/
def writeBytes (start : Nat) (data : List Byte) (v : Vector Byte 512) : Vector Byte 512 :=
  Vector.ofFn fun i => if start ≤ i.val ∧ i.val < start + data.length then data.getD (i.val - start) 0 else v.get i

/-- R186: bounds of a part of the buffer, with a count of 1 to 64. -/
def stagingBounds (start count : Nat) : Bool :=
  decide (1 ≤ count) && decide (count ≤ 64) && decide (start ≤ 511) && decide (start + count ≤ 512)

/-- R186: WRITE STAGING. -/
def State.commandWrite (start : Nat) (data : List Byte) (s : State) : Answer :=
  if !stagingBounds start data.length then refuse s .badOperand
  else if s.store.operation.isSome then refuse s .busy
  else accept (s.modStore fun st => { st with staging := writeBytes start data st.staging }) data.length

/-! ### ERASE and PROGRAM (R188 to R190) -/

/-- R188, R189, items 2 to 4. -/
def State.storeRefusal (s : State) (t : StoreTarget) : Option RefusalCode :=
  if s.store.operation.isSome then some .busy
  else if s.store.lock then some .locked
  else if t = .group s.store.active then some .activeGroup
  else none

/-- An operation begins: its target becomes INVALID with the contents given. -/
def State.beginOperation (kind : OpKind) (t : StoreTarget) (content : List Byte) (code : Half) (s : State) : State :=
  let now := s.stamp
  s.modStore fun st =>
    { st.setImage t { state := .invalid, content := content, code := code } with
      operation := some { kind := kind, target := t, start := now, elapsed := 0 } }

/-- R188: ERASE. -/
def State.commandErase (code : Byte) (s : State) : Answer :=
  match targetOf code with
  | none => refuse s .badOperand
  | some t => match s.storeRefusal t with
    | some r => refuse s r
    | none => accept (s.beginOperation .erase t [] 0) code.toNat

/-- R189: PROGRAM. -/
def State.commandProgram (code : Byte) (s : State) : Answer :=
  match targetOf code with
  | none => refuse s .badOperand
  | some t => match s.storeRefusal t with
    | some r => refuse s r
    | none =>
      if (s.store.image t).state ≠ .empty then refuse s .notErased
      else
        let content := s.store.stagedContent t
        match rangeCheck t content with
        | some i => refuse s .range i
        | none => accept (s.beginOperation .program t content (checkCode content)) code.toNat

/-- R193: whether the fitted flags of a stored VALID configuration differ from those in use. -/
def Store.fittedDiffers (st : Store) : Bool :=
  st.config.state == .valid && (readConfig st.config.content).fitted != st.cfg.fitted

/-! ### The configuration in use (R193) -/

/-- R95: the neighbour breaker of section k when its sharing is taken afresh. -/
def resharedNeighbour (before now : Option (Port × Byte)) (n : Option NeighbourBreaker) : Option NeighbourBreaker :=
  if now = none then none else if now = before then n else some .unknown

/-- R95: the Section Table takes the sharing afresh. -/
def State.reshare (before : ConfigRec) (s : State) : State :=
  let s := forEach allFeeders (fun k s => s.modSec (sectionOf k) fun r =>
    { r with neighbour := resharedNeighbour (before.share.get k) (s.share k) r.neighbour }) s
  let s := forEach allFeeders State.deriveFeed s
  let s := s.deriveAllBars
  forEach allFeeders State.deriveWanted s

/-- R193: a configuration is handed to every block that takes fields from it: Section Table, Neighbour Link Unit, Annunciation
Unit, Rectifier Group Controller. -/
def State.handConfig (before : ConfigRec) (s : State) : State :=
  let s := s.reshare before
  let s := s.reconfigurePort .a before.portA
  let s := s.reconfigurePort .b before.portB
  let s := s.remask before.masks
  s.modRect (rectReconfigured s.store.cfg)

/-- R193: the verified configuration image comes into use; the fitted flags stay as they were. -/
def State.configIntoUse (s : State) : State :=
  let before := s.store.cfg
  let s := s.modStore fun st =>
    { st with cfg := { readConfig st.config.content with fitted := st.cfg.fitted }, configFault := false }
  s.handConfig before

/-- R193: fitted change pending is judged after an operation on the configuration image. -/
def State.judgeFitted (t : StoreTarget) (s : State) : State :=
  if t = .config then s.modStore fun st => { st with fittedPending := st.fittedDiffers } else s

/-- R188: an ERASE completes; `verified` is the outcome of its verify. -/
def State.eraseEnds (verified : Bool) (s : State) : State :=
  match s.store.operation with
  | some op =>
    if op.kind ≠ .erase then s
    else
      let s := s.modStore fun st => { st with operation := none }
      let s :=
        if verified then s.modStore (Store.setImage op.target emptyImage)
        else (s.modStore fun st => { st with eraseError := true }).pulse 61
      s.judgeFitted op.target
  | none => s

/-- R189: a PROGRAM completes; `verified` is the outcome of its read-back. -/
def State.programEnds (verified : Bool) (s : State) : State :=
  match s.store.operation with
  | some op =>
    if op.kind ≠ .program then s
    else
      let s := s.modStore fun st => { st with operation := none }
      let s :=
        if verified then
          let s := s.modStore fun st => st.setImage op.target { st.image op.target with state := .valid }
          if op.target = .config then s.configIntoUse else s
        else (s.modStore fun st => { st with programError := true }).pulse 61
      s.judgeFitted op.target
  | none => s

/-- R190: CLEAR SETTINGS STATUS. -/
def State.commandClearStatus (s : State) : Answer :=
  accept (s.modStore fun st => { st with eraseError := false, programError := false, retainedLost := false })

/-! ### Activation (R191, R192) -/

/-- R192: an activation is handed to the engines, the sequencers and the watch bands; `before` are the settings in use until now.
The rectifier group and the Section Table take theirs at the next sample arrival. -/
def State.handGroup (before : GroupSettings) (s : State) : State :=
  let s := forEach allFeeders State.engineActivate s
  let s := forEach allFeeders State.seqActivate s
  s.rebands before

/-- R191, R197: ACTIVATE; an activation writes the retained area, even of the group for which FACTORY stood. -/
def State.commandActivate (code : Byte) (s : State) : Answer :=
  if h : code.toNat < 4 then
    let g : GroupNo := ⟨code.toNat, h⟩
    if s.store.operation.isSome then refuse s .busy
    else if s.store.lock then refuse s .locked
    else if (s.store.groups.get g).state ≠ .valid then refuse s .state
    else if g = s.store.active ∧ s.store.factoryInUse = false then accept s code.toNat
    else
      let before := s.store.inUse
      let s := s.modStore fun st =>
        { st with active := g, factoryInUse := false, inUse := readGroup (st.groups.get g).content }
      let s := s.modStore (Store.writeCopy s.retainedView)
      accept (s.handGroup before) code.toNat
  else refuse s .badOperand

/-! ### The lock (R194) -/

/-- R194: SET LOCK. -/
def State.commandSetLock (s : State) : Answer := accept (s.modStore fun st => { st with lock := true })

/-- R194: CLEAR LOCK. -/
def State.commandClearLock (s : State) : Answer :=
  if s.sp.settingsKey then accept (s.modStore fun st => { st with lock := false }) else refuse s .locked

/-! ### The retained area at the end of an event -/

/-- The latest good copy. -/
def Store.latestCopy (st : Store) : Option Retained := st.latest.map fun b => if b then st.bank1.copy else st.bank0.copy

/-- R197: the retained area is written when what it keeps is not what its latest good copy holds: after a change of the lock, and
after a reset that settled its records. Every other change has been written when it was made (`State.handTable`,
`State.commandActivate`), so that at the end of an event nothing is left to write (assumption 14). -/
def State.writeRetained (s : State) : State :=
  if s.store.latestCopy = some s.retainedView then s else s.modStore (Store.writeCopy s.retainedView)

/-! ### Start-up loading and resets (R195 to R198, R211) -/

/-- R197: the retained area judged at start-up; after a loss the banks hold the empty values with counts 0 and 1. -/
def Store.loadRetained (st : Store) : Store × Retained :=
  match st.latestCopy with
  | some c => (st, c)
  | none =>
    ({ st with
       retainedLost := true
       bank0 := { copy := lostRetained, generation := 0, good := true }
       bank1 := { copy := lostRetained, generation := 1, good := true } }, lostRetained)

/-- R185, R195, R196: a VALID image whose check code is bad becomes INVALID. -/
def Image.judged (i : Image) : Image := if i.state = .valid ∧ i.sound = false then { i with state := .invalid } else i

/-- R195: the configuration loaded at start-up. -/
def Store.loadConfig (st : Store) : Store :=
  let i := st.config.judged
  let st := { st with config := i, fittedPending := false }
  if i.state = .valid then { st with cfg := readConfig i.content, configFault := false }
  else { st with cfg := factoryConfig, configFault := true }

/-- R196: the group loaded at start-up. -/
def Store.loadGroup (st : Store) : Store :=
  let i := (st.groups.get st.active).judged
  let st := { st with groups := st.groups.set st.active i }
  if i.state = .valid then { st with inUse := readGroup i.content, factoryInUse := false }
  else { st with inUse := factoryGroup, factoryInUse := true }

/-- R198: the store after a reset, and the retained copy it was loaded from. -/
def Store.restarted (warm : Bool) (st : Store) : Store × Retained :=
  let st :=
    { st with
      staging := Vector.replicate 512 0
      operation := none
      eraseError := warm && st.eraseError
      programError := warm && st.programError
      retainedLost := warm && st.retainedLost }
  let (st, copy) := st.loadRetained
  ({ st with active := copy.active, lock := copy.lock }.loadConfig.loadGroup, copy)

/-- R111: a section record after a reset, its counts recomputed from the settled table and its switch commanded by them. -/
def startingSection (cfg : ConfigRec) (holds : List Hold) (n : SectionNo) : SectionRec :=
  match feederOf n with
  | some k =>
    let r := recount holds n (initialSection (cfg.share.get k).isSome)
    { r with commandedClosed := cfg.fitted.get k && decide (r.earth ≠ 0) }
  | none => recount holds n (initialSection false)

/-- R211: the part after a reset. The plant (the raw levels of the contacts) stays; every block takes its reset values, the
Settings Store having loaded the retained area, the configuration and the group first. -/
def State.afterReset (warm held : Bool) (s : State) : State :=
  let loaded := s.store.restarted warm
  let st := loaded.1
  let copy := loaded.2
  let ht := settledTable copy.holds copy.lastId
  let source := if st.factoryInUse then GroupSource.factory else .group st.active
  { mi :=
      { channels := Vector.replicate 16 initialChannel, reception := initialReception,
        inputs := vmap s.mi.inputs fun i => initialInput i.raw, pairs := Vector.replicate 13 initialPair,
        mismatch := false }
    engines := vmap st.inUse.feeders fun f => initialEngine f source
    seqs := vmap s.seqs fun q =>
      if warm then initialSequencer q.trips q.first q.last else initialSequencer 0 none none
    backupLatch := false
    rect := initialRectifier st.inUse.rect st.cfg.alphaMax (if warm then s.rect.dips else 0)
    sections := ⟨⟨allSections.map (startingSection st.cfg ht.holds)⟩, rfl⟩
    ht := ht
    linkA := initialLink st.cfg.portA.used (if warm then s.linkA.errors else 0)
    linkB := initialLink st.cfg.portB.used (if warm then s.linkB.errors else 0)
    au := initialAnnunciation
    store := st
    sp := initialPort (if warm then s.sp.frameErrors else 0)
    resetHeld := held
    verification := some 200
    agenda := []
    pending := s.pending }

/-- R197: neither bank is good when the reset is taken. -/
def State.retainedGone (s : State) : Bool := s.store.latest.isNone

/-- R211: a reset is taken. -/
def State.takeReset (warm held : Bool) (s : State) : State :=
  let lost := s.retainedGone
  let s := (s.afterReset warm held).deriveAllBars
  let s := if lost then s.pulse 61 else s
  s.writeRetained

end Sys2Proof.Machine
end

