-- ==== Sys2Proof/Machine/Measurement.lean ====
section
/-! DEFINITION. The Measurement Interface (chapter 1): sample frames, channel records and their states, contact inputs, switch
positions, and what it hands on. -/

namespace Sys2Proof.Machine

open Sys2Proof

/-! ### Channel records (R1, R2, R6, R7) -/

/-- R1: the range of a channel. -/
def channelRange (c : ChannelNo) : Int × Int :=
  if c.val = 0 then (0, 2000)
  else if c.val ≤ 2 then (0, 6000)
  else if c.val ≤ 8 then (-12000, 12000)
  else if c.val ≤ 14 then (0, 2000)
  else (-40, 200)

/-- R2: value and SATURATED flag taken from a frame. -/
def readingOf (c : ChannelNo) (carried : Int) (saturatedBit : Bool) : Int × Bool :=
  let lo := (channelRange c).1
  let hi := (channelRange c).2
  if saturatedBit then (if 2 * carried < lo + hi then lo else hi, true)
  else if carried < lo then (lo, true)
  else if hi < carried then (hi, true)
  else (carried, false)

/-- R7: the state after a missed or invalid slot, the counts having been updated. -/
def stateAfterMiss (q : ChannelState) (miss : Nat) : ChannelState :=
  match q with
  | .failed => .failed
  | .good | .stale => if 4 ≤ miss then .failed else .stale

/-- R7: the state after a valid slot, the counts having been updated. -/
def stateAfterValid (q : ChannelState) (goodRun : Nat) : ChannelState :=
  match q with
  | .good => .good
  | .stale => if 16 ≤ goodRun then .good else .stale
  | .failed => if 16 ≤ goodRun then .good else .failed

/-- R6: a missed or invalid slot. -/
def missSlot (r : Channel) : Channel :=
  let miss := satSucc 255 r.miss
  { r with state := stateAfterMiss r.state miss, miss := miss, goodRun := 0 }

/-- Several missed slots. -/
def missSlots : Nat → Channel → Channel
  | 0, r => r
  | n + 1, r => missSlots n (missSlot r)

/-- R6: a valid slot with the reading taken. -/
def validSlot (reading : Int × Bool) (r : Channel) : Channel :=
  let run := satSucc 16 r.goodRun
  { value := reading.1, saturated := reading.2, state := stateAfterValid r.state run, miss := 0, goodRun := run }

/-- R6: a channel's slot on a sample arrival. -/
def arrivalSlot (f : SampleFrame) (c : ChannelNo) (r : Channel) : Channel :=
  if (validBits f).getLsbD c.val then validSlot (readingOf c (carriedValue f c) ((saturatedBits f).getLsbD c.val)) r
  else missSlot r

/-- R9: the failure and recovery events between two channel tables, in channel order; none until equipment verification has
ended (R15). -/
def State.channelEvents (before : Vector Channel 16) (s : State) : State :=
  if s.verifying then s
  else s.handAll (allChannels.filterMap fun c =>
    let was := (before.get c).state
    let now := (s.channel c).state
    if was ≠ .failed ∧ now = .failed then some (Signal.channelFailed c)
    else if was = .failed ∧ now = .good then some (Signal.channelRecovered c)
    else none)

/-- A change of every channel record, with its events. -/
def State.modChannels (f : ChannelNo → Channel → Channel) (s : State) : State :=
  let before := s.mi.channels
  let s := { s with mi := { s.mi with channels := ⟨⟨allChannels.map fun c => f c (before.get c)⟩, rfl⟩ } }
  s.channelEvents before

/-- R3 to R6: slots missed by every channel. -/
def State.countMissed (n : Nat) (s : State) : State := s.modChannels fun _ r => missSlots n r

/-- R6: the values of a sample arrival are taken. -/
def State.takeValues (f : SampleFrame) (s : State) : State := s.modChannels (arrivalSlot f)

/-! ### Frames (R3 to R5, R8) -/

/-- R4: the gap an arrival reveals. -/
def gapOf (last seq : Byte) : Nat := (seq.toNat + 512 - last.toNat - 1) % 256

/-- R4: the missed slots an arrival reveals. -/
def revealed (r : Reception) (seq : Byte) : Nat :=
  match r.lastSeq with
  | some last => gapOf last seq - r.charge
  | none => 0

/-- R8: every block that acts on a sample arrival, in ascending order. -/
def allTakers : List ArrivalTaker :=
  allFeeders.map ArrivalTaker.engine ++ [.sections, .rectifier, .bands, .holds] ++ allFeeders.map ArrivalTaker.waits

/-- A list with every entry once, at its first place. -/
def onceEach : List ArrivalTaker → List ArrivalTaker
  | [] => []
  | x :: rest => x :: (onceEach rest).filter (· ≠ x)

/-- R8: the order in which the blocks take an arrival: the order given, then the blocks it does not name. -/
def arrivalOrder (order : List ArrivalTaker) : List ArrivalTaker :=
  onceEach order ++ allTakers.filter fun t => !order.contains t

/-- R3: a frame is discarded: one missed slot for every channel, and the charge rises. -/
def State.frameDiscarded (s : State) : State :=
  (s.setReception { s.mi.reception with charge := s.mi.reception.charge + 1 }).countMissed 1

/-- R3 to R6, R8: a frame is a sample arrival. -/
def State.frameArrives (f : SampleFrame) (order : List ArrivalTaker) (s : State) : State :=
  let missed := revealed s.mi.reception f.seq
  let s := s.setReception { lastSeq := some f.seq, charge := 0, timeout := some 2 }
  let s := s.countMissed missed
  let s := s.hand (.takeValues f)
  s.handAll ((arrivalOrder order).map fun t => Signal.arrival t (validBits f))

/-- R3: a frame on the sample bus is judged. -/
def State.takeFrame (f : SampleFrame) (order : List ArrivalTaker) (s : State) : State :=
  if !frameChecks f then s.frameDiscarded
  else if s.mi.reception.lastSeq = some f.seq then s.frameDiscarded
  else s.frameArrives f order

/-- R5: the frame timeout runs out. -/
def State.frameTimesOut (s : State) : State :=
  (s.setReception { s.mi.reception with charge := s.mi.reception.charge + 4, timeout := some 2 }).countMissed 4

/-- R8: a sample arrival reaches a block. -/
def State.takeArrival (t : ArrivalTaker) (valid : Half) (s : State) : State :=
  match t with
  | .engine k => s.engineTakesArrival k valid
  | .sections => s.sectionsTakeArrival valid
  | .rectifier => s.rectTakesArrival valid
  | .bands => s.bandsTakeArrival
  | .holds => s.holdsTakeArrival
  | .waits k => s.judgeWaits k

/-! ### Contact inputs and pairs (R11 to R14) -/

/-- The pair an input belongs to. -/
def pairOf : InputId → Option PairId
  | .breakerClosed k | .breakerOpen k => some (.breaker k)
  | .earthClosed k | .earthOpen k => some (.earth k)
  | .acClosed | .acOpen => some .ac
  | _ => none

/-- The CLOSED and OPEN contacts of a pair. -/
def contactsOf : PairId → InputId × InputId
  | .breaker k => (.breakerClosed k, .breakerOpen k)
  | .earth k => (.earthClosed k, .earthOpen k)
  | .ac => (.acClosed, .acOpen)

/-- R12: the position two contacts show. -/
def positionOf (closed opened : Bool) : Pos :=
  match closed, opened with
  | true, false => .closed
  | false, true => .opened
  | false, false => .transit
  | true, true => .discrepant

/-- R12: the position of a pair whose contacts are settled. -/
def State.shown (s : State) (p : PairId) : Option Pos :=
  match (s.input (contactsOf p).1).level, (s.input (contactsOf p).2).level with
  | some c, some o => some (positionOf c o)
  | _, _ => none

/-! ### Position changes handed on (R14) -/

/-- R14, R98 to R109, R119, R128, R157: a position change of breaker k. -/
def State.breakerMoves (k : FeederNo) (before : Option Pos) (pos : Pos) (s : State) : State :=
  let pending := s.seqIn k .closing && (s.seq k).holdOpenPending
  let s := s.earthInterlock k
  let s := s.seqTakesPosition k pos
  let s := (s.deriveFeed k).deriveWanted k
  let s := match s.share k with
    | some (p, _) => if s.fitted k && (before == some Pos.closed) != (pos == Pos.closed) then s.beaconDue p else s
    | none => s
  let s := s.handAll ((s.securingOver k).map Signal.judgeHold)
  if pos = .closed then s.violation k pending else s

/-- R14, R107, R126, R129, R135: a position change of earth switch k. That of a feeder not fitted is shown, and nobody acts on it
(R95). -/
def State.earthMoves (k : FeederNo) (pos : Pos) (s : State) : State :=
  let s := s.sectionTakesEarth k pos
  if s.fitted k then s.holdsTakeEarth k pos else s

/-- R14, R88, R100, R119, R128: a position change of the AC breaker. -/
def State.acMoves (pos : Pos) (s : State) : State :=
  let s := s.rectTakesAc pos
  let s := s.handAll (s.securingBus.map Signal.judgeHold)
  if pos = .closed ∧ (s.sec busSection).isolate ≠ 0 then s.pulse 59 else s

/-- R14: a position change reaches its owners. -/
def State.takePosition (p : PairId) (before : Option Pos) (pos : Pos) (s : State) : State :=
  match p with
  | .breaker k => s.breakerMoves k before pos
  | .earth k => s.earthMoves k pos
  | .ac => s.acMoves pos

/-! ### Positions derived (R12 to R14) -/

/-- R14: a pair's derived position becomes `pos`, with its transit timer; a change is handed on once equipment verification
has ended. -/
def State.pairBecomes (p : PairId) (pos : Pos) (timer : Option Nat) (s : State) : State :=
  let r := s.pair p
  let changed := r.derived ≠ some pos
  let handOn := changed && !s.verifying
  let s := s.setPair p
    { derived := some pos, handed := if handOn then some pos else r.handed, transit := timer }
  if handOn then s.takePosition p r.handed pos else s

/-- R12, R13: the position is derived afresh at an input change of either contact. -/
def State.derivePair (p : PairId) (s : State) : State :=
  match s.shown p with
  | some pos => s.pairBecomes p pos (if pos = .transit then some s.store.cfg.tTransit else none)
  | none => s

/-- R11: the raw level of an input changes. -/
def rawChange (on : Bool) (r : ContactInput) : ContactInput :=
  if r.raw = on then r
  else
    { r with
      raw := on
      stability := match r.level with
        | some l => if on = l then none else some 3
        | none => some 3 }

/-- R13: the transit timer of a pair runs out. -/
def State.transitTimesOut (p : PairId) (s : State) : State := s.pairBecomes p .discrepant none

/-! ### Channel events handed on (R9) -/

/-- The feeder whose current a channel carries. -/
def currentOf (c : ChannelNo) : Option FeederNo :=
  if h : 3 ≤ c.val ∧ c.val ≤ 8 then some ⟨c.val - 3, by omega⟩ else none

/-- The feeder whose section voltage a channel carries. -/
def voltageOf (c : ChannelNo) : Option FeederNo :=
  if h : 9 ≤ c.val ∧ c.val ≤ 14 then some ⟨c.val - 9, by omega⟩ else none

/-- R9, R21, R68, R89, R97, R125: a channel failure event reaches the owners. At a failure of a feeder current the engine comes
first and empties the history, so that the MEASURE record the sequencer then builds has F = 0 (R45): the spec fixes no order
between the two (DESIGN CHOICE, assumption 24). -/
def State.channelFails (c : ChannelNo) (s : State) : State :=
  match currentOf c with
  | some k => (s.engineLosesCurrent k).seqLosesCurrent k
  | none =>
  match voltageOf c with
  | some k => ((s.seqLosesVoltage k).sectionLosesVoltage (sectionOf k)).holdsLoseVoltage (sectionOf k)
  | none =>
    if c = chUB then
      ((s.rectTripRunning .measure).sectionLosesVoltage busSection).holdsLoseVoltage busSection
    else if c = chIB1 ∨ c = chIB2 then s.rectTripRunning .measure
    else s

/-! ### Equipment verification (R15) -/

/-- R15: the starting position of a pair that is handed as DISCREPANT unless it shows `CLOSED` or `OPEN`. -/
def startingBreaker : Option Pos → Pos
  | some .closed => .closed
  | some .opened => .opened
  | _ => .discrepant

/-- R15, steps 1 and 3: the position a pair is handed at the end of verification. The breaker of a feeder not fitted is handed
to nobody; the position its contacts show is read back (R14), and it gives the local end of the section's feed mode (R99), which
the spec leaves open for such a feeder (assumption 16). -/
def State.startingPosition (s : State) (p : PairId) : Option Pos :=
  let found := (s.pair p).derived
  match p with
  | .breaker k => if s.fitted k then some (startingBreaker found) else found
  | .earth _ | .ac => some (found.getD .discrepant)

/-- All pairs. -/
def allPairs : List PairId := allFeeders.map PairId.breaker ++ allFeeders.map PairId.earth ++ [.ac]

/-- R15, steps 1 and 3: the positions found are handed. -/
def State.handPositions (s : State) : State :=
  forEach allPairs (fun p s => s.setPair p { s.pair p with handed := s.startingPosition p }) s

/-- R15, step 2: a feeder not fitted shows a contact on, or is not settled. -/
def State.mismatched (s : State) : Bool :=
  allFeeders.any fun k => !s.fitted k && s.shown (.breaker k) != some .transit

/-- R15: verification ends; what is handed on, in its order. The points are evaluated behind it (`State.endVerification`). -/
def State.verificationEnds (s : State) : State :=
  let s := s.handPositions
  let s := { s with mi := { s.mi with mismatch := s.mismatched } }
  let s := s.handAll (allFeeders.map Signal.startSequencer)
  let s := s.handAll [.startSections, .startPanel]
  let s := s.handAll ((allChannels.filter s.chFailed).map Signal.channelFailed)
  s.handAll [.autostart, .startHolds, .startLinks]

end Sys2Proof.Machine
end

