-- ==== Sys2Proof/Machine/Operands.lean ====
section
/-! DEFINITION. The operands of the station port's commands: what each byte names, and the sets they must lie in (11.1, R200,
R203 item 4), with the command codes. -/

namespace Sys2Proof.Machine

open Sys2Proof

/-- A feeder 0 to 5. -/
def feederOperand (b : Byte) : Option FeederNo := if h : b.toNat < 6 then some ⟨b.toNat, h⟩ else none

/-- A section 0 to 6. -/
def sectionOperand (b : Byte) : Option SectionNo := if h : b.toNat < 7 then some ⟨b.toNat, h⟩ else none

/-- A point 0 to 78. -/
def pointOperand (b : Byte) : Option PointNo := if h : b.toNat < 79 then some ⟨b.toNat, h⟩ else none

/-- A port: 0 A, 1 B. -/
def portOperand (b : Byte) : Option Port := if b = 0 then some .a else if b = 1 then some .b else none

/-- A kind of hold: ISOLATE 0, EARTH 1, NORECLOSE 2. -/
def kindOperand (b : Byte) : Option HoldKind :=
  if b = 0 then some .isolate else if b = 1 then some .earth else if b = 2 then some .noreclose else none

/-- A switching target: 0 to 5 a feeder, 6 the rectifier. -/
def targetOperand (b : Byte) : Option Target :=
  match feederOperand b with
  | some k => some (.feeder k)
  | none => if b = 6 then some .rectifier else none

/-- A switching action: OPEN 0, CLOSE 1, START 2, STOP 3, STANDBY 4. -/
def actionOperand (b : Byte) : Option SwitchAction :=
  if b = 0 then some .opened else if b = 1 then some .close else if b = 2 then some .start else if b = 3 then some .stop
  else if b = 4 then some .standby else none

/-- R205: the action belongs to the target. -/
def belongs : Target → SwitchAction → Bool
  | .feeder _, .opened | .feeder _, .close => true
  | .rectifier, .start | .rectifier, .stop | .rectifier, .standby => true
  | _, _ => false

/-- Section operands, all of them 0 to 6. -/
def sectionOperands : List Byte → Option (List SectionNo)
  | [] => some []
  | b :: rest =>
    match sectionOperand b, sectionOperands rest with
    | some n, some l => some (n :: l)
    | _, _ => none

/-- R115: the list is ascending without repeats. -/
def ascending : List SectionNo → Bool
  | [] => true
  | [_] => true
  | a :: b :: rest => decide (a.val < b.val) && ascending (b :: rest)

/-- R115: the duration a placement of a kind carries; 0 stands for absent. `none` is a duration out of its set. -/
def durationOperand (kind : HoldKind) (d : Half) : Option (Option Nat) :=
  if kind = .noreclose then if 1 ≤ d.toNat ∧ d.toNat ≤ 720 then some (some d.toNat) else none
  else if d = 0 then some none else none

/-- The operands of PLACE HOLD as its owner takes them. -/
structure Placement where
  kind : HoldKind
  sections : List SectionNo
  duration : Option Nat
  deriving DecidableEq, Repr

/-- R115, item 1: the operands of PLACE HOLD, `none` for BAD-OPERAND. -/
def placementOperands (kind : Byte) (tag : Half) (count : Byte) (sections : List Byte) (duration : Half) :
    Option Placement :=
  if tag = 0 ∨ count.toNat = 0 ∨ 7 < count.toNat then none
  else match kindOperand kind, sectionOperands (sections.take count.toNat) with
    | some k, some l =>
      match durationOperand k duration with
      | some d => if ascending l then some { kind := k, sections := l, duration := d } else none
      | none => none
    | _, _ => none

/-- R200: a count inside its set calls for more bytes than the frame carried, so the frame broke. -/
def shortOf (lo hi count : Byte) (data : List Byte) : Bool :=
  decide (lo.toNat ≤ count.toNat) && decide (count.toNat ≤ hi.toNat) && decide (data.length < count.toNat)

end Sys2Proof.Machine
end

