-- ==== Sys2Proof/Machine/Reads.lean ====
section
/-! DEFINITION. What the reads return (R183, R40, R70, R110, R143, R93, R177, R167, R199, R186, R182), laid out byte by byte by
R213 and 11.1. -/

namespace Sys2Proof.Machine

open Sys2Proof

/-! ### Encodings (R213) -/

/-- Yes, set, ON, on, true are 1. -/
def yes (b : Bool) : Byte := if b then 1 else 0

/-- A number in one byte. -/
def byteOf (n : Nat) : Byte := BitVec.ofNat 8 n

/-- A field that is not always present, of a given size. -/
def optField (size : Nat) : Option (List Byte) → List Byte
  | some bytes => 1 :: bytes
  | none => 0 :: List.replicate size 0

/-- A one-byte field that is not always present. -/
def optByte (b : Option Byte) : List Byte := optField 1 (b.map fun x => [x])

/-- A remaining time. -/
def optTimer (t : Option Nat) : List Byte := optField 4 (t.map (bytesOfNat 4))

/-- A stamp: six bytes of milliseconds, then TIME-NOT-SET. -/
def stampBytes (t : Stamp) : List Byte := bytesOfNat 6 t.time.toNat ++ [yes t.notSet]

/-- A list of varying length: a count byte, then its entries. -/
def counted {α : Type} (f : α → List Byte) (l : List α) : List Byte := byteOf l.length :: l.flatMap f

/-- Refusal codes 0x01 to 0x11 (11.1). -/
def refusalByte : RefusalCode → Byte
  | .badCommand => 0x01 | .badOperand => 0x02 | .badSection => 0x03 | .notFitted => 0x04 | .authority => 0x05
  | .notSelected => 0x06 | .interlock => 0x07 | .state => 0x08 | .busy => 0x09 | .full => 0x0A | .notFound => 0x0B
  | .notHolder => 0x0C | .locked => 0x0D | .notErased => 0x0E | .activeGroup => 0x0F | .range => 0x10 | .disabled => 0x11

/-- The outcome byte (11.1). -/
def outcomeByte : CmdResult → Byte
  | .accepted => 0
  | .refused code => refusalByte code

/-- Switch positions (5.1). -/
def posByte : Pos → Byte
  | .closed => 0 | .opened => 1 | .transit => 2 | .discrepant => 3

/-- Channel states (1.3). -/
def channelStateByte : ChannelState → Byte
  | .good => 0 | .stale => 1 | .failed => 2

/-- DELTA stages. -/
def stageByte : Stage → Byte
  | .idle => 0 | .rising => 1 | .confirm => 2 | .tripped => 3

/-- SINGLE or DOUBLE. -/
def setByte : SetSel → Byte
  | .single => 0 | .double => 1

/-- Group 0 to 3, or FACTORY as 4 (assumption 21). -/
def sourceByte : GroupSource → Byte
  | .group g => byteOf g.val
  | .factory => 4

/-- Sequencer states (3.1). -/
def seqStateByte : SeqState → Byte
  | .notFitted => 0 | .inService => 1 | .tripping => 2 | .opened => 3 | .deadTime => 4 | .lineTest => 5 | .closing => 6
  | .lockout => 7 | .breakerFault => 8

/-- Trip causes of a feeder (3.1). -/
def tripCauseByte : TripCause → Byte
  | .imax => 0 | .delta => 1 | .thermal => 2 | .reverse => 3 | .direct => 4 | .intertrip => 5 | .backup => 6 | .measure => 7
  | .emergency => 8 | .command => 9 | .hold => 10

/-- Outcome overrides. -/
def overrideByte : Override → Byte
  | .opened => 0 | .lockout => 1

/-- Close kinds. -/
def closeKindByte : CloseKind → Byte
  | .automatic => 0 | .manual => 1

/-- Wait reasons. -/
def waitByte : WaitReason → Byte
  | .bus => 0 | .limit => 1 | .thermal => 2

/-- Failure kinds. -/
def failureByte : FailureKind → Byte
  | .openFailed => 0 | .discrepant => 1

/-- Close outcomes. -/
def closeOutcomeByte : CloseOutcome → Byte
  | .none => 0 | .closed => 1 | .closeFailed => 2 | .testFailed => 3

/-- Rectifier states (4.1). -/
def rectStateByte : RectState → Byte
  | .off => 0 | .syncing => 1 | .ramping => 2 | .regulating => 3 | .limiting => 4 | .standby => 5 | .tripped => 6

/-- Trip causes of the rectifier group. -/
def rectCauseByte : RectCause → Byte
  | .busFault => 0 | .temp => 1 | .mains => 2 | .acBreaker => 3 | .measure => 4 | .backup => 5 | .emergency => 6
  | .bridge => 7

/-- Neighbour breakers. -/
def neighbourByte : NeighbourBreaker → Byte
  | .closed => 0 | .opened => 1 | .unknown => 2

/-- Energisations. -/
def energisationByte : Energisation → Byte
  | .live => 0 | .dead => 1 | .unproven => 2

/-- Feed modes. -/
def feedByte : FeedMode → Byte
  | .fedBoth => 0 | .fedLocal => 1 | .fedRemote => 2 | .unfed => 3

/-- Earth switch drives. -/
def driveByte : EarthDrive → Byte
  | .close => 0 | .opened => 1 | .none => 2

/-- Ports. -/
def portByte : Port → Byte
  | .a => 0 | .b => 1

/-- Kinds of hold. -/
def kindByte : HoldKind → Byte
  | .isolate => 0 | .earth => 1 | .noreclose => 2

/-- Origins. -/
def originByte : Origin → Byte
  | .station => 0 | .panel => 1 | .peerA => 2 | .peerB => 3

/-- States of a hold. -/
def holdStateByte : HoldState → Byte
  | .securing => 0 | .proving => 1 | .earthing => 2 | .active => 3 | .releasing => 4 | .failed => 5

/-- Ask statuses. -/
def askByte : AskStatus → Byte
  | .none => 0 | .asked => 1 | .granted => 2 | .denied => 3

/-- DENY reasons. -/
def denyByte : DenyReason → Byte
  | .full => 0 | .wrongSection => 1 | .breaker => 2

/-- Failure reasons of a hold. -/
def failByte : FailReason → Byte
  | .breaker => 0 | .live => 1 | .measure => 2 | .peerDenied => 3 | .peerLost => 4 | .earth => 5 | .timeout => 6 | .reset => 7

/-- Positions of a hold key. -/
def keyByte : KeyPos → Byte
  | .off => 0 | .isolate => 1 | .earth => 2

/-- Link states. -/
def linkStateByte : LinkState → Byte
  | .unused => 0 | .down => 1 | .joining => 2 | .up => 3

/-- INTERTRIP causes. -/
def intertripByte : IntertripCause → Byte
  | .fault => 0 | .backup => 1 | .emergency => 2

/-- Feeder classes. -/
def classByte : FeederClass → Byte
  | .inService => 0 | .reclosing => 1 | .opened => 2

/-- Breaker state of a beacon entry: CLOSED 0, OPEN 1. -/
def beaconStateByte (closed : Bool) : Byte := if closed then 0 else 1

/-- Classes of a point. -/
def pointClassByte : PointClass → Byte
  | .latching => 0 | .selfReset => 1

/-- States of a point. -/
def pointStateByte : PointState → Byte
  | .normal => 0 | .unack => 1 | .acked => 2 | .clearedUnack => 3

/-- States of an image. -/
def imageByte : ImageState → Byte
  | .empty => 0 | .valid => 1 | .invalid => 2

/-- ERASE 0, PROGRAM 1. -/
def opByte : OpKind → Byte
  | .erase => 0 | .program => 1

/-- A channel: value, validity, SATURATED flag, state. R6 defines validity on an arrival only; between arrivals a channel reads as
valid when its last slot was a valid one (assumption 29). -/
def channelBytes (r : Channel) : List Byte :=
  bytesOfInt 2 r.value ++ [yes (r.goodRun != 0), yes r.saturated, channelStateByte r.state]

/-! ### Status summary (R183, 11.1) -/

/-- The lowest feeder in LOCKOUT or BREAKER-FAULT. -/
def State.lowestOut (s : State) : Option FeederNo :=
  allFeeders.find? fun k => s.seqIn k .lockout || s.seqIn k .breakerFault

/-- The last command result: code, result, value. -/
def lastBytes : Option LastResult → List Byte
  | some r => [r.code, outcomeByte r.result] ++ bytesOfNat 2 r.value
  | none => [0, 0, 0, 0]

/-- R183: the status summary. -/
def State.statusBytes (s : State) : List Byte :=
  [ 0,
    yes s.store.configFault,
    if s.sp.localAuthority then 0 else 1,
    yes s.sp.settingsKey + 2 * yes s.sp.supervisorKey + 4 * yes s.sp.emergency,
    rectStateByte s.rect.state,
    linkStateByte s.linkA.state,
    linkStateByte s.linkB.state,
    byteOf s.au.alerts.length,
    match s.au.alerts with
      | [] => 0xFF
      | p :: _ => byteOf p.val,
    byteOf s.ht.holds.length,
    byteOf s.store.active.val,
    yes s.store.factoryInUse + 2 * yes s.store.operation.isSome + 4 * yes s.au.timeNotSet,
    match s.lowestOut with
      | some k => byteOf k.val
      | none => 0xFF ] ++
  bytesOfNat 6 s.au.time.toNat ++ bytesOfNat 2 s.sp.frameErrors ++ lastBytes s.sp.lastResult

/-! ### Feeder and trip records (R40, R70, R34) -/

/-- R40: the engine's part. -/
def engineBytes (e : Engine) : List Byte :=
  let a := e.arming
  [stageByte e.stage, byteOf e.imaxCount] ++ bytesOfNat 2 e.revCount ++
  optField 2 (a.map fun a => bytesOfNat 2 a.base) ++ optField 2 (a.map fun a => bytesOfNat 2 a.window) ++
  optByte (a.map fun a => byteOf a.confirm) ++ optByte (a.map fun a => byteOf a.lowRun) ++
  optField 2 (a.map fun a => bytesOfInt 2 a.rate) ++ optField 2 (a.map fun a => bytesOfNat 2 a.peak) ++
  bytesOfNat 2 (e.heat * 256 / heatLimit e.copy.thermal) ++ bytesOfNat 5 (heatLimit e.copy.thermal) ++
  [yes e.warning, yes e.recloseBar, setByte e.setInUse, setByte e.wanted, sourceByte e.copy.source, yes e.groupPending,
   byteOf e.history.length]

/-- R14: the breaker position that READ FEEDER shows: the one handed to the owners; until one has been handed, the one the contacts
show (R12, R16). -/
def State.shownPosition (s : State) (k : FeederNo) : Option Pos :=
  match s.breakerPos k with
  | some p => some p
  | none => (s.pair (.breaker k)).derived

/-- R70: the sequencer's part. A state that the sequencer does not have yet, and the position of a pair that is not settled yet,
read as an unstated byte. -/
def State.sequencerBytes (s : State) (k : FeederNo) : List Byte :=
  let q := s.seq k
  [ match q.state with
      | some x => seqStateByte x
      | none => Config.unstatedCode (2 * k.val),
    match s.shownPosition k with
      | some p => posByte p
      | none => Config.unstatedCode (2 * k.val + 1) ] ++
  optByte (q.cause.map tripCauseByte) ++ optByte (q.override.map overrideByte) ++
  [byteOf q.attempts, byteOf (s.reclose k).nRec] ++
  optByte (q.closeKind.map closeKindByte) ++ optByte (q.wait.map waitByte) ++ optByte (q.failure.map failureByte) ++
  optTimer q.deadTimer ++ optTimer q.testTimer ++ optTimer q.reclaimTimer ++ optTimer q.openPulse ++
  optTimer q.closeTimer ++
  [yes q.testContactor, closeOutcomeByte q.lastClose] ++ bytesOfNat 2 q.trips ++ [yes s.backupLatch]

/-- R40, R70, R2: the feeder record: the engine's part, the sequencer's part, and behind them the channel of the feeder's current
with its SATURATED flag, which R2 has read back here and neither list names (assumption 30). -/
def State.feederBytes (s : State) (k : FeederNo) : List Byte :=
  engineBytes (s.engine k) ++ s.sequencerBytes k ++ channelBytes (s.channel (chIF k))

/-- R34: a trip record. -/
def tripBytes (r : TripRecord) : List Byte :=
  [tripCauseByte r.cause] ++ bytesOfNat 2 r.feed ++ [yes r.saturated] ++ bytesOfNat 2 r.peak ++
  optField 2 (r.rise.map fun x => bytesOfNat 2 x.base) ++ optField 2 (r.rise.map fun x => bytesOfInt 2 x.delta) ++
  optField 2 (r.rise.map fun x => bytesOfInt 2 x.rate) ++ optField 2 (r.rise.map fun x => bytesOfNat 2 x.window) ++
  [setByte r.set, sourceByte r.source] ++ bytesOfNat 2 r.heatShare ++ [byteOf r.attempt] ++ stampBytes r.stamp

/-- The length of a trip record. -/
def tripLength : Nat := 30

/-! ### Section record (R110) -/

/-- The bar reasons as a set in one byte, the first of the list in bit 0: R213 gives no coding for a set (assumption 21). -/
def barByte (b : BarReasons) : Byte :=
  yes b.held + 2 * yes b.busHeld + 4 * yes b.earthed + 8 * yes b.lockout + 16 * yes b.breakerFault + 32 * yes b.notFitted

/-- R110: a section record. -/
def State.sectionBytes (s : State) (n : SectionNo) : List Byte :=
  let r := s.sec n
  let f := feederOf n
  let share := f.bind s.share
  let fittedLine := f.bind fun k => if s.fitted k then some () else none
  let isBus := if f.isNone then some () else none
  [ byteOf n.val,
    if f.isSome then 0 else 1,
    match f with
      | some k => yes (s.fitted k)
      | none => 1 ] ++
  optByte (share.map fun x => portByte x.1) ++ optByte (share.map fun x => x.2) ++
  optByte (r.neighbour.map neighbourByte) ++
  [energisationByte r.energisation, byteOf r.deadRun, feedByte r.feed, byteOf r.isolate, byteOf r.earth,
   byteOf r.noreclose] ++
  optByte (fittedLine.map fun _ => yes r.commandedClosed) ++ optByte (fittedLine.map fun _ => driveByte r.drive) ++
  optByte ((f.bind s.earthPos).map posByte) ++ optByte ((isBus.bind fun _ => s.acPos).map posByte) ++
  optTimer r.mismatchTimer ++ [yes r.bars.barred] ++
  optByte (if r.bars.barred then some (barByte r.bars) else none) ++
  optByte (f.map fun _ => setByte r.wanted) ++
  channelBytes (s.channel (voltageChannel n)) ++
  optByte ((f.bind fun k => (s.seq k).state).map seqStateByte) ++ optByte ((f.bind s.breakerPos).map posByte)

/-! ### Holds (R143) -/

/-- A peer ask. -/
def askBytes (a : PeerAsk) : List Byte :=
  [portByte a.port, a.line, askByte a.status] ++ optByte a.peerId ++ optByte (a.deny.map denyByte) ++
  optByte (if a.awaiting then some 1 else none)

/-- The peer asks of a hold stand in its record for origin STATION or PANEL (6.1), behind a presence byte and a count byte. -/
def asksBytes (h : Hold) : List Byte :=
  match h.origin with
  | .station | .panel => 1 :: counted askBytes h.asks
  | .peerA | .peerB => [0, 0]

/-- R143: a hold record. -/
def holdBytes (h : Hold) : List Byte :=
  [h.id, kindByte h.kind, originByte h.origin] ++ bytesOfHalf h.tag ++ counted (fun n => [byteOf n.val]) h.sections ++
  [holdStateByte h.state] ++ optField 2 (h.remaining.map (bytesOfNat 2)) ++ asksBytes h ++
  optByte (h.purpose.map fun p => if p = .retire then 0 else 1) ++
  optByte (h.phase.map fun p => if p = .earthOpen then 0 else 1) ++ optByte (h.failure.map failByte) ++
  stampBytes h.placed ++ optTimer h.timers.securing ++ optTimer h.timers.provingWait ++ optTimer h.timers.provingLimit ++
  optTimer h.timers.earthing ++ optTimer h.timers.drop ++ optTimer h.timers.retire ++ optTimer h.timers.minute

/-- A key record (R213). -/
def keyBytes (r : KeyRec) : List Byte :=
  [ keyByte r.pos, r.bound.getD 0, yes r.needsCycling,
    match r.lastRefusal with
      | some code => refusalByte code
      | none => 0 ]

/-- R143: the answer of LIST HOLDS. -/
def State.holdListBytes (s : State) : List Byte :=
  counted (fun h : Hold => [h.id, kindByte h.kind, originByte h.origin, holdStateByte h.state] ++
    optByte (h.failure.map failByte)) s.ht.holds ++
  [s.ht.lastId] ++ s.ht.keys.toList.flatMap keyBytes

/-! ### Rectifier record (R93) -/

/-- The state of the derived IR: the worse of its two channels (assumption 21). -/
def worseState (a b : ChannelState) : ChannelState :=
  if a = .failed ∨ b = .failed then .failed else if a = .stale ∨ b = .stale then .stale else .good

/-- R1, R93: the derived rectifier current. -/
def State.derivedCurrent (s : State) : Channel :=
  let x := s.channel chIB1
  let y := s.channel chIB2
  { value := x.value + y.value, saturated := x.saturated || y.saturated, state := worseState x.state y.state,
    miss := max x.miss y.miss, goodRun := min x.goodRun y.goodRun }

/-- R93: the rectifier record and its channels. -/
def State.rectifierBytes (s : State) : List Byte :=
  let r := s.rect
  let bridgeUse := fun b : BridgeRec => if b.lost then (1 : Byte) else 0
  [rectStateByte r.state] ++ optByte (r.cause.map rectCauseByte) ++ optField 7 (r.tripTime.map stampBytes) ++
  bytesOfInt 2 r.alpha ++ optField 2 (r.ramp.map (bytesOfNat 2)) ++ optField 2 (r.uRef.map (bytesOfInt 2)) ++
  [yes r.degraded, bridgeUse r.bridge1, bridgeUse r.bridge2, byteOf r.bridge1.low, byteOf r.bridge2.low,
   byteOf r.bridge1.pair, byteOf r.bridge2.pair] ++
  optByte (r.syncCount.map byteOf) ++ optTimer r.syncTimer ++ optTimer r.wakeTimer ++
  optField 2 (r.lastInterval.map (bytesOfNat 2)) ++ [yes r.refsPresent, byteOf r.busFault] ++
  optByte (s.acPos.map posByte) ++ [if r.acDrive then 0 else 1] ++ bytesOfNat 2 r.dips ++
  optByte (r.autostart.map outcomeByte) ++
  channelBytes (s.channel chUB) ++ channelBytes (s.channel chIB1) ++ channelBytes (s.channel chIB2) ++
  channelBytes s.derivedCurrent ++ channelBytes (s.channel chTT)

/-! ### Points (R177) -/

/-- An entry of READ ALERTS. -/
def State.alertBytes (s : State) (p : PointNo) : List Byte :=
  let r := s.point p
  [byteOf p.val, pointStateByte r.state] ++ optField 7 (r.rise.map stampBytes) ++ optByte (r.repeats.map byteOf)

/-- R177: the answer of READ ALERTS. -/
def State.alertListBytes (s : State) : List Byte :=
  byteOf s.au.alerts.length :: counted s.alertBytes (s.au.alerts.take 16)

/-- R177: the answer of READ POINT. -/
def State.pointBytes (s : State) (p : PointNo) : List Byte :=
  let r := s.point p
  [pointClassByte (s.pointClass p), if s.masked p then 0 else 1, yes r.condition, pointStateByte r.state] ++
  optField 7 (r.rise.map stampBytes) ++ optByte (r.repeats.map byteOf)

/-! ### Links (R167) -/

/-- The kind byte of a message (11.3). READ LINK shows the kind of a message by this byte; R213 would count from 0
(assumption 21). -/
def kindOfBody : MsgBody → Byte
  | .beacon _ _ => 1 | .intertrip _ _ => 2 | .ask _ _ _ => 3 | .grant _ _ => 4 | .deny _ _ => 5 | .drop _ => 6
  | .dropped _ => 7 | .audit _ => 8

/-- Kind and subject of a message: the line section of an INTERTRIP, the ask ID of a hold message, 0 else. -/
def bodySubject (m : MsgBody) : List Byte :=
  [ kindOfBody m,
    match m with
      | .intertrip line _ => line
      | .ask id _ _ | .grant id _ | .deny id _ | .drop id | .dropped id => id
      | .beacon _ _ | .audit _ => 0 ]

/-- Kind and subject of a pending hold message or AUDIT. -/
def pendingSubject : HoldMsg → List Byte
  | .ask id _ _ => [3, id] | .grant id _ => [4, id] | .deny id _ => [5, id] | .drop id => [6, id] | .dropped id => [7, id]
  | .audit => [8, 0]

/-- A neighbour report. -/
def reportBytes (r : Report) : List Byte :=
  counted (fun e : BeaconEntry => [e.line, beaconStateByte e.closed, classByte e.feederClass]) r.entries ++
  [yes r.delivering]

/-- The message in flight of a USED port; `none` reads as kind 0 and subject 0 (assumption 21). -/
def flightBytes : Option InFlight → List Byte
  | some x => bodySubject x.body
  | none => [0, 0]

/-- R167: a link record. The outbound list and the message in flight stand in it while the port is USED (7.1). -/
def State.linkBytes (s : State) (p : Port) : List Byte :=
  let l := s.link p
  let used := l.state != .unused
  [if used then 0 else 1] ++ optByte (if used then some (s.store.cfg.port p).neighbour else none) ++
  [linkStateByte l.state] ++ optByte (l.joinCount.map byteOf) ++ optTimer l.supervision ++ bytesOfNat 2 l.errors ++
  optField 2 (l.report.map reportBytes) ++
  optField 9 (l.lastIntertrip.map fun x => [x.line, intertripByte x.cause] ++ stampBytes x.stamp) ++
  optField 2 (if used then some (flightBytes l.inFlight) else none) ++
  optField 1 (if used then
      some (counted id (l.intertrips.map (fun x => [(2 : Byte), x.line]) ++ l.messages.map pendingSubject))
    else none) ++
  optByte (if used then some (yes l.beaconDue) else none)

/-! ### Settings status (R199) and the staging buffer (R186) -/

/-- R199: the answer of READ SETTINGS STATUS. -/
def State.settingsBytes (s : State) : List Byte :=
  let st := s.store
  let images := st.groups.toList ++ [st.config]
  images.map (fun i => imageByte i.state) ++
  images.flatMap (fun i => optField 2 (if i.state = .valid then some (bytesOfHalf i.code) else none)) ++
  [byteOf st.active.val, yes st.factoryInUse, yes st.configFault, yes st.lock, yes s.sp.settingsKey] ++
  optField 6 (st.operation.map fun o => [opByte o.kind, byteOf (targetCode o.target)] ++ bytesOfNat 4 o.elapsed) ++
  [yes st.eraseError, yes st.programError, yes st.retainedLost, yes st.fittedPending]

/-- R186: bytes of the staging buffer. -/
def State.stagedBytes (s : State) (start count : Nat) : List Byte := (s.store.staging.toList.drop start).take count

end Sys2Proof.Machine
end

