-- ==== Sys2Proof/Machine/Panel.lean ====
section
/-! DEFINITION. The local panel (10.6 to 10.8): pushbuttons, keys, EMERGENCY, and the inputs of all kinds as they settle or
change. -/

namespace Sys2Proof.Machine

open Sys2Proof

/-! ### Keys (R204, R209, R212) -/

/-- A debounced level stands on; an input that is not settled counts as off. -/
def State.inputOn (s : State) (i : InputId) : Bool := (s.input i).level == some true

/-- R209: the position two key contacts show; with both on the key keeps the position it had. -/
def keyShows (isolate earth : Bool) (before : KeyPos) : KeyPos :=
  match isolate, earth with
  | false, false => .off
  | true, false => .isolate
  | false, true => .earth
  | true, true => before

/-- R209: the position of hold key n; the bus key has no EARTH contact. -/
def State.keyPosition (s : State) (n : KeyNo) (before : KeyPos) : KeyPos :=
  let earth := match feederOf n with
    | some k => s.inputOn (.holdEarth k)
    | none => false
  keyShows (s.inputOn (.holdIsolate n)) earth before

/-- R209: the moves between two positions, one for each step. -/
def keySteps : KeyPos → KeyPos → List KeyPos
  | .off, .earth => [.isolate, .earth]
  | .earth, .off => [.isolate, .off]
  | a, b => if a = b then [] else [b]

/-- R209: a contact of hold key n changed. -/
def State.keyTurns (n : KeyNo) (s : State) : State :=
  let before := (s.key n).pos
  s.handAll ((keySteps before (s.keyPosition n before)).map fun p => Signal.keyMove n p)

/-- The selection removed and its timer stopped (R207). -/
def dropSelection (r : StationPort) : StationPort := { r with selection := none, selectionTimer := none }

/-- R204: the authority takes the key's level. -/
def takeAuthority (isLocal : Bool) (r : StationPort) : StationPort :=
  let r := { r with localAuthority := isLocal }
  if isLocal then dropSelection r else r

/-! ### Pushbuttons (R208, R210) -/

/-- R208: a press of a switching pushbutton; `code` is its panel code. -/
def State.panelPress (code : Byte) (target : Nat) (owner : State → Answer) (s : State) : State :=
  if s.sp.localAuthority then
    let a := owner s
    a.state.modSp fun r => { r with lastResult := some { code := code, result := a.result, value := target } }
  else s

/-- R81: STOP as a command; it is accepted in every state. -/
def State.commandStop (s : State) : Answer := accept s.rectStop

/-- R210: a press of EMERGENCY. The sequencers take their demands first, then the rectifier group, then the links
(assumption 6). The transmitters choose when all demands have been handed, so that the INTERTRIP of a feeder tripped here and the
one of the press reach one pending INTERTRIP (R154). -/
def State.emergencyPress (s : State) : State :=
  let s := forEach allFeeders State.seqEmergency s
  let s := s.rectDemand .emergency
  let s := forEach allFeeders (fun k s => s.intertripFor k .emergency) s
  (s.modSp dropSelection).pulse 50

/-- R208 to R210: a panel input takes a level; `change` says that it is an input change and not a first settling, which
presses nothing (R15). -/
def State.panelInput (i : InputId) (on change : Bool) (s : State) : State :=
  let press := on && change
  match i with
  | .authorityKey => s.modSp (takeAuthority on)
  | .settingsKey => s.modSp fun r => { r with settingsKey := on }
  | .supervisorKey => s.modSp fun r => { r with supervisorKey := on }
  | .holdIsolate n => s.keyTurns n
  | .holdEarth k => s.keyTurns k.castSucc
  | .openButton k => if press then s.panelPress 0x70 k.val (State.commandOpen k) else s
  | .closeButton k => if press then s.panelPress 0x71 k.val (State.commandClose k) else s
  | .startButton => if press then s.panelPress 0x72 6 State.rectStart else s
  | .stopButton => if press then s.panelPress 0x73 6 State.commandStop else s
  | .emergencyButton =>
    let s := s.modSp fun r => { r with emergency := on }
    if press then s.emergencyPress else s
  | .breakerClosed _ | .breakerOpen _ | .earthClosed _ | .earthOpen _ | .acClosed | .acOpen => s

/-! ### Inputs of all kinds (R11, R15) -/

/-- R11, R12, R15: a debounced level is handed on. Panel inputs are held back until equipment verification has ended. -/
def State.inputTaken (i : InputId) (change : Bool) (s : State) : State :=
  match pairOf i with
  | some p => s.derivePair p
  | none => if s.verifying then s else s.panelInput i (s.inputOn i) change

/-- R11: the raw level of an input has stood for 3 ms. An input that is not settled settles on it; a settled one has an input
change. -/
def State.takeInput (i : InputId) (s : State) : State :=
  let r := s.input i
  let taken := s.setInput i { r with level := some r.raw, stability := none }
  match r.level with
  | some l => if r.stability.isSome && r.raw != l then taken.inputTaken i true else s
  | none => taken.inputTaken i false

/-! ### Starting levels (R15 step 4, R212) -/

/-- R212, R145: the starting levels of the panel are handed. -/
def State.startPanel (s : State) : State :=
  let s := s.modSp fun r =>
    takeAuthority (s.inputOn .authorityKey)
      { r with
        settingsKey := s.inputOn .settingsKey
        supervisorKey := s.inputOn .supervisorKey
        emergency := s.inputOn .emergencyButton }
  forEach allKeys (fun n s => s.rebuildKey n (s.keyPosition n .off)) s

end Sys2Proof.Machine
end

