-- ==== Sys2Proof/Machine/Events.lean ====
section
/-! DEFINITION. How an event is carried out: the consequences that one block hands to another are carried out one after the
other within the event, and at its end the conditions of the points, the alert list and the retained area follow
(assumption 3). -/

namespace Sys2Proof.Machine

open Sys2Proof

/-! ### Starting states (R15, R71, R94, R111, R168, R184) -/

/-- R15 step 3, R94, R111: the Section Table derives its records, the earth switches are set in motion, and the rectifier
group takes a bus hold that stands. -/
def State.startSections (s : State) : State :=
  let s := forEach allFeeders State.deriveFeed s
  let s := s.deriveAllBars
  let s := forEach allFeeders State.deriveWanted s
  let s := forEach allFeeders State.startEarth s
  if (s.sec busSection).isolate ≠ 0 then s.rectBusHold else s

/-- R168: the links begin. -/
def State.startLinks (s : State) : State := (s.startPort .a).startPort .b

/-- R184: verification is over; the points are evaluated, and the transmitters begin (R168). -/
def State.startEvaluation (s : State) : State :=
  let s := { s with verification := none }
  (s.evaluatePoints.transmit .a).transmit .b

/-! ### Handings -/

/-- R70, R108, R119: the state of the sequencer of feeder k changed. -/
def State.seqChanged (k : FeederNo) (s : State) : State :=
  (s.deriveBars (sectionOf k)).handAll ((s.securingOver k).map Signal.judgeHold)

/-- R57, R74, R99, R119: the state of the rectifier group changed. -/
def State.rectChanged (s : State) : State :=
  let s := s.deriveBusFeed
  let s := s.handAll (allFeeders.map Signal.judgeWait)
  s.handAll (s.securingBus.map Signal.judgeHold)

/-- One handing carried out. -/
def State.handle (g : Signal) (s : State) : State :=
  match g with
  | .channelFailed c => s.channelFails c
  | .channelRecovered _ => s
  | .takeValues f => s.takeValues f
  | .arrival t valid => s.takeArrival t valid
  | .seqChanged k => s.seqChanged k
  | .judgeWait k => s.judgeWaits k
  | .holdDemand k => s.seqHoldDemand k
  | .recloseBar k => s.seqRecloseBar k
  | .busHold => s.rectBusHold
  | .backupTo k => s.seqBackup k
  | .backupRectifier => s.rectDemand .backup
  | .wake => s.rectWake
  | .rectChanged => s.rectChanged
  | .judgeHold id => s.judgeHold id
  | .judgeEarthing id => s.judgeEarthing id
  | .judgeUnearth id => s.judgeUnearth id
  | .choose p => s.transmit p
  | .linkReachedUp p => s.askAgain p
  | .linkLeftUp p => s.endWaits p
  | .message p body => s.takeMessage p body
  | .keyMove n pos => s.keyMove n pos
  | .startSequencer k => s.startSequencer k
  | .startSections => s.startSections
  | .startPanel => s.startPanel
  | .startHolds => s.startHolds
  | .autostart => s.rectAutostart
  | .startLinks => s.startLinks

/-- The handings that wait are carried out in order; what one of them hands on in turn comes before the rest. At most `n` are
carried out. -/
def State.settle : Nat → State → State
  | 0, s => s
  | n + 1, s =>
    match s.agenda with
    | [] => s
    | g :: rest =>
      let t := State.handle g { s with agenda := [] }
      State.settle n { t with agenda := t.agenda ++ rest }

/-- The end of an event: the point conditions follow their levels, the alert list and ATTN follow the points, and the
retained area follows what it keeps (R169, R174, R197). -/
def State.finish (s : State) : State := (s.syncLevels.closeAlerts).writeRetained

/-- What the bound of the model leaves of the handings of an event is dropped; the handings of an event end long before it
(assumption 3). -/
def State.atRest (s : State) : State := { s with agenda := [] }

/-- One event, whole: its first effect, then every consequence. -/
def State.event (f : State → State) (s : State) : State := ((f s).settle Config.handingBound).atRest.finish

/-- R15: equipment verification ends: what was found is handed on with every consequence of it, and then the points are evaluated
(R184). -/
def State.endVerification (s : State) : State :=
  (s.verificationEnds.settle Config.handingBound).atRest.startEvaluation.finish

/-- What an event of the part answers: while the RESET input stays asserted it is not taken (R211). -/
def taken (f : State → State) (s : State) : Host.Outcome State Fault Refusal := .next (if s.resetHeld then s else f s)

/-- An event with consequences. -/
def event (f : State → State) : State → Host.Outcome State Fault Refusal := taken (State.event f)

end Sys2Proof.Machine
end

