-- ==== Sys2Proof/Machine/PlantEvents.lean ====
section
/-! DEFINITION. The meanings of the events of the plant and of the part itself: resets, frames, contacts, references, station
time, and the timers of the blocks. A timer's expiry acts only while that timer runs (assumption 9). -/

namespace Sys2Proof.Machine

open Sys2Proof

/-! ### Resets and verification -/

/-- POWER_ON: R211, R195 to R198, R212. -/
def execPowerOn (s : State) : Host.Outcome State Fault Refusal := .next (s.takeReset false false)

/-- RESET_INPUT: R211; the part stays at its reset values until the input is released. -/
def execResetInput (s : State) : Host.Outcome State Fault Refusal := .next (s.takeReset true true)

/-- RESET_INPUT_RELEASE: R211; the moment of the reset. -/
def execResetInputRelease (s : State) : Host.Outcome State Fault Refusal := .next { s with resetHeld := false }

/-- EQUIPMENT_VERIFICATION_END: R15. -/
def execEquipmentVerificationEnd (s : State) : Host.Outcome State Fault Refusal :=
  taken (fun s => if s.verifying then s.endVerification else s.event id) s

/-! ### Measurement -/

/-- SAMPLE_FRAME: R3. -/
def execSampleFrame (f : SampleFrame) (order : List ArrivalTaker) (s : State) : Host.Outcome State Fault Refusal :=
  event (State.takeFrame f order) s

/-- FRAME_TIMEOUT: R5. -/
def execFrameTimeout (s : State) : Host.Outcome State Fault Refusal := event State.frameTimesOut s

/-- CONTACT_RAW_CHANGE: R11. While the RESET input stands the pin alone follows (R211). -/
def execContactRawChange (i : InputId) (on : Bool) (s : State) : Host.Outcome State Fault Refusal :=
  .next (s.setInput i (if s.resetHeld then { s.input i with raw := on } else rawChange on (s.input i)))

/-- INPUT_CHANGE: R11. -/
def execInputChange (i : InputId) (s : State) : Host.Outcome State Fault Refusal := event (State.takeInput i) s

/-- TRANSIT_TIMER_EXPIRY: R13. -/
def execTransitTimerExpiry (p : PairId) (s : State) : Host.Outcome State Fault Refusal :=
  event (fun s => if (s.pair p).transit.isSome then s.transitTimesOut p else s) s

/-! ### Breaker sequencers -/

/-- OPEN_TIMER_EXPIRY: R43, R50. -/
def execOpenTimerExpiry (k : FeederNo) (s : State) : Host.Outcome State Fault Refusal :=
  event (fun s => if (s.seq k).openPulse.isSome then s.openTimeout k else s) s

/-- CLOSE_TIMER_EXPIRY: R43, R52, R65. -/
def execCloseTimerExpiry (k : FeederNo) (s : State) : Host.Outcome State Fault Refusal :=
  event (fun s => if (s.seq k).closeTimer.isSome then s.closeTimeout k else s) s

/-- DEAD_TIMER_EXPIRY: R56. -/
def execDeadTimerExpiry (k : FeederNo) (s : State) : Host.Outcome State Fault Refusal :=
  event (fun s =>
    if (s.seq k).deadTimer.isSome then (s.modSeq k fun r => { r with deadTimer := none }).judgeDead k else s) s

/-- TEST_TIMER_EXPIRY: R60. -/
def execTestTimerExpiry (k : FeederNo) (s : State) : Host.Outcome State Fault Refusal :=
  event (fun s => if (s.seq k).testTimer.isSome then s.judgeTest k else s) s

/-- RECLAIM_TIMER_EXPIRY: R61. -/
def execReclaimTimerExpiry (k : FeederNo) (s : State) : Host.Outcome State Fault Refusal :=
  taken (fun s => if (s.seq k).reclaimTimer.isSome then s.modSeq k reclaimEnds else s) s

/-! ### Rectifier group -/

/-- COMMUTATION_REFERENCE: R72, R73, R77. -/
def execCommutationReference (elapsed : Nat) (s : State) : Host.Outcome State Fault Refusal :=
  event (State.rectReference elapsed) s

/-- GATE_PULSE: R73. -/
def execGatePulse (bridge : Bridge) (pair : Nat) (s : State) : Host.Outcome State Fault Refusal :=
  taken (State.modRect (emitPulse bridge pair)) s

/-- REFERENCE_SUPERVISION_EXPIRY: R72, R84. -/
def execReferenceSupervisionExpiry (s : State) : Host.Outcome State Fault Refusal :=
  event (fun s => if s.rect.refTimer.isSome then s.rectDip else s) s

/-- SYNC_TIMER_EXPIRY: R77. -/
def execSyncTimerExpiry (s : State) : Host.Outcome State Fault Refusal :=
  event (fun s => if s.rect.syncTimer.isSome then s.rectTrip .mains else s) s

/-- WAKE_TIMER_EXPIRY: R83. -/
def execWakeTimerExpiry (s : State) : Host.Outcome State Fault Refusal :=
  event (fun s => if s.rect.wakeTimer.isSome then s.rectWake else s) s

/-! ### Section Table and Hold Table -/

/-- EARTH_MISMATCH_TIMER_EXPIRY: R107. -/
def execEarthMismatchTimerExpiry (k : FeederNo) (s : State) : Host.Outcome State Fault Refusal :=
  event (fun s =>
    if (s.sec (sectionOf k)).mismatchTimer.isSome then
      s.modSec (sectionOf k) fun r => { r with mismatchTimer := none, mismatch := true }
    else s) s

/-- An expiry of one of a hold's timers: `timer` picks it, `f` is what its end does. -/
def State.holdTimer (id : Byte) (timer : HoldTimers → Option Nat) (f : Hold → State → State) (s : State) : State :=
  match s.hold id with
  | some h => if (timer h.timers).isSome then f h s else s
  | none => s

/-- SECURING_LIMIT_EXPIRY: R121. -/
def execSecuringLimitExpiry (id : Byte) (s : State) : Host.Outcome State Fault Refusal :=
  event (State.holdTimer id HoldTimers.securing fun h s => s.failHold id (s.limitReason h)) s

/-- PROVING_WAIT_EXPIRY: R124. -/
def execProvingWaitExpiry (id : Byte) (s : State) : Host.Outcome State Fault Refusal :=
  event (State.holdTimer id HoldTimers.provingWait fun _ s =>
    (s.modHold id fun h => { h with timers := { h.timers with provingWait := none } }).judgeProof id) s

/-- PROVING_LIMIT_EXPIRY: R124. -/
def execProvingLimitExpiry (id : Byte) (s : State) : Host.Outcome State Fault Refusal :=
  event (State.holdTimer id HoldTimers.provingLimit fun _ s => s.failHold id .live) s

/-- EARTHING_LIMIT_EXPIRY: R127. -/
def execEarthingLimitExpiry (id : Byte) (s : State) : Host.Outcome State Fault Refusal :=
  event (State.holdTimer id HoldTimers.earthing fun _ s => s.failHold id .earth) s

/-- DROP_LIMIT_EXPIRY: R136. -/
def execDropLimitExpiry (id : Byte) (s : State) : Host.Outcome State Fault Refusal :=
  event (State.holdTimer id HoldTimers.drop fun _ s => s.retireHold id) s

/-- RETIRE_TIMER_EXPIRY: R132. -/
def execRetireTimerExpiry (id : Byte) (s : State) : Host.Outcome State Fault Refusal :=
  event (State.holdTimer id HoldTimers.retire fun _ s => s.retireHold id) s

/-- MINUTE_TIMER_EXPIRY: R130. -/
def execMinuteTimerExpiry (id : Byte) (s : State) : Host.Outcome State Fault Refusal :=
  event (State.holdTimer id HoldTimers.minute fun h s => s.minuteEnds id h) s

/-! ### Settings Store -/

/-- ERASE_COMPLETION: R188. -/
def execEraseCompletion (verified : Bool) (s : State) : Host.Outcome State Fault Refusal :=
  event (State.eraseEnds verified) s

/-- PROGRAM_COMPLETION: R189. -/
def execProgramCompletion (verified : Bool) (s : State) : Host.Outcome State Fault Refusal :=
  event (State.programEnds verified) s

/-! ### Station time -/

/-- One millisecond of the timers of a sequencer. -/
def tickSeq (r : Sequencer) : Sequencer :=
  { r with
    deadTimer := tickDown r.deadTimer
    testTimer := tickDown r.testTimer
    reclaimTimer := tickDown r.reclaimTimer
    openPulse := tickDown r.openPulse
    closeTimer := tickDown r.closeTimer }

/-- One millisecond of the timers of the rectifier group. -/
def tickRect (r : Rectifier) : Rectifier :=
  { r with
    syncTimer := tickDown r.syncTimer
    wakeTimer := tickDown r.wakeTimer
    refTimer := tickDown r.refTimer }

/-- One millisecond of the timers of a hold. -/
def tickHold (h : Hold) : Hold :=
  { h with
    timers :=
      { securing := tickDown h.timers.securing, provingWait := tickDown h.timers.provingWait,
        provingLimit := tickDown h.timers.provingLimit, earthing := tickDown h.timers.earthing,
        drop := tickDown h.timers.drop, retire := tickDown h.timers.retire, minute := tickDown h.timers.minute } }

/-- One millisecond of the timers of a link. -/
def tickLink (l : Link) : Link :=
  { l with supervision := tickDown l.supervision, beaconTimer := tickDown l.beaconTimer }

/-- R181: station time advances by 1, and every remaining time is a millisecond shorter (assumption 9). -/
def State.tick (s : State) : State :=
  { s with
    mi :=
      { s.mi with
        reception := { s.mi.reception with timeout := tickDown s.mi.reception.timeout }
        inputs := vmap s.mi.inputs fun r => { r with stability := tickDown r.stability }
        pairs := vmap s.mi.pairs fun r => { r with transit := tickDown r.transit } }
    seqs := vmap s.seqs tickSeq
    rect := tickRect s.rect
    sections := vmap s.sections fun r => { r with mismatchTimer := tickDown r.mismatchTimer }
    ht := { s.ht with holds := s.ht.holds.map tickHold }
    linkA := tickLink s.linkA
    linkB := tickLink s.linkB
    au := { s.au with time := s.au.time + 1 }
    store := { s.store with operation := s.store.operation.map fun o => { o with elapsed := o.elapsed + 1 } }
    sp := { s.sp with selectionTimer := tickDown s.sp.selectionTimer }
    verification := tickDown s.verification }

/-- STATION_TIME_TICK: R181. -/
def execStationTimeTick (s : State) : Host.Outcome State Fault Refusal := taken State.tick s

end Sys2Proof.Machine
end

