-- ==== Sys2Proof/Machine/LinkEvents.lean ====
section
/-! DEFINITION. The meanings of the events of the neighbour links (chapter 7): the eight kinds of message, a discarded message,
and the timers and transmissions of a port. -/

namespace Sys2Proof.Machine

open Sys2Proof

/-- BEACON: R147 to R151, R159. -/
def execBeacon (p : Port) (station : Byte) (entries : List BeaconEntry) (delivers : Bool) (s : State) :
    Host.Outcome State Fault Refusal := event (State.linkReceives p station (.beacon entries delivers)) s

/-- INTERTRIP: R147 to R151, R160. -/
def execIntertrip (p : Port) (station line : Byte) (cause : IntertripCause) (s : State) :
    Host.Outcome State Fault Refusal := event (State.linkReceives p station (.intertrip line cause)) s

/-- ASK: R147 to R151, R161. -/
def execAsk (p : Port) (station id line : Byte) (kind : HoldKind) (s : State) : Host.Outcome State Fault Refusal :=
  event (State.linkReceives p station (.ask id line kind)) s

/-- GRANT: R147 to R151, R122. -/
def execGrant (p : Port) (station id holdId : Byte) (s : State) : Host.Outcome State Fault Refusal :=
  event (State.linkReceives p station (.grant id holdId)) s

/-- DENY: R147 to R151, R122. -/
def execDeny (p : Port) (station id : Byte) (reason : DenyReason) (s : State) : Host.Outcome State Fault Refusal :=
  event (State.linkReceives p station (.deny id reason)) s

/-- DROP: R147 to R151, R163. -/
def execDrop (p : Port) (station id : Byte) (s : State) : Host.Outcome State Fault Refusal :=
  event (State.linkReceives p station (.drop id)) s

/-- DROPPED: R147 to R151, R122. -/
def execDropped (p : Port) (station id : Byte) (s : State) : Host.Outcome State Fault Refusal :=
  event (State.linkReceives p station (.dropped id)) s

/-- AUDIT: R147 to R151, R166. -/
def execAudit (p : Port) (station : Byte) (ids : List Byte) (s : State) : Host.Outcome State Fault Refusal :=
  event (State.linkReceives p station (.audit ids)) s

/-- DISCARDED_MESSAGE: R147, R148. -/
def execDiscardedMessage (p : Port) (s : State) : Host.Outcome State Fault Refusal :=
  event (fun s => if s.verifying || (s.link p).state == .unused then s else s.linkDiscards p) s

/-- SUPERVISION_TIMER_EXPIRY: R148, R149. -/
def execSupervisionTimerExpiry (p : Port) (s : State) : Host.Outcome State Fault Refusal :=
  event (fun s => if (s.link p).supervision.isSome then s.linkFalls p .down else s) s

/-- TRANSMISSION_COMPLETION: R156. -/
def execTransmissionCompletion (p : Port) (s : State) : Host.Outcome State Fault Refusal :=
  taken (State.transmissionEnds p) s

/-- BEACON_TIMER_EXPIRY: R157. -/
def execBeaconTimerExpiry (p : Port) (s : State) : Host.Outcome State Fault Refusal := taken (State.beaconTimeout p) s

end Sys2Proof.Machine
end

