-- ==== Sys2Proof/Machine/PortFrames.lean ====
section
/-! DEFINITION. The station port's frames (10.2, 10.3): arming, empty and broken frames, the checks that belong to the port, the
last command result, and the reads. -/

namespace Sys2Proof.Machine

open Sys2Proof

/-! ### Frames and checks (R200 to R204) -/

/-- What the port itself asks of an action command (R203, R204): its code, whether it is refused until equipment verification
has ended, whether it needs REMOTE, whether it needs the supervisor key. -/
structure PortRow where
  code : Byte
  waits : Bool := false
  remote : Bool := false
  supervisor : Bool := false

/-- R203, R204: the port's checks in their order, then the owner's rule; no owner stands for an operand outside its set. -/
def State.portAnswer (row : PortRow) (owner : Option (State → Answer)) (s : State) : Answer :=
  if row.waits && s.verifying then refuse s .busy
  else if row.remote && s.sp.localAuthority then refuse s .authority
  else if row.supervisor && !s.sp.supervisorKey then refuse s .authority
  else match owner with
    | some f => f s
    | none => refuse s .badOperand

/-- R203: the last command result; `target` is the value of a command whose value is the target named. -/
def State.record (row : PortRow) (target : Option Nat) (a : Answer) : State :=
  a.state.modSp fun r =>
    { r with frame := none, lastResult := some { code := row.code, result := a.result, value := target.getD a.value } }

/-- R200, R203: an action command at the clean close of its frame. No frame opens until SEL is armed. -/
def State.port (row : PortRow) (target : Option Nat) (owner : Option (State → Answer)) (s : State) : State :=
  if s.sp.selArmed then State.record row target (s.portAnswer row owner) else s

/-- R202: the frame of a read at its last operand byte: the snapshot is taken. -/
def readFrameOf (code : Byte) (operands : Nat) (response : List Byte) : FrameRec :=
  { code := code, taken := operands + 1, required := 0, snapshot := response }

/-- R200, R202: what data out carries in a byte of the frame of a read, counted from the code byte: 0 while the code and operand
bytes are shifted in, then the response, and 0 in every byte beyond it. -/
def FrameRec.dataOut (f : FrameRec) (n : Nat) : Byte := if n < f.taken then 0 else f.snapshot.getD (n - f.taken) 0

/-- What data out carried in a byte of the last frame of a read. In every other frame it carries 0. -/
def State.dataOut (s : State) (n : Nat) : Byte := match s.sp.shown with
  | some f => f.dataOut n
  | none => 0

/-- R200, R202: a read is answered with the snapshot taken. Its frame ends at the release of SEL; what data out carried in it stays
readable in `shown`. -/
def State.portRead (code : Byte) (operands : Nat) (response : List Byte) (s : State) : State :=
  if s.sp.selArmed then s.modSp fun r => { r with frame := none, shown := some (readFrameOf code operands response) }
  else s

/-- R201: a broken frame. -/
def State.frameBreaks (s : State) : State :=
  if s.sp.selArmed then
    (s.modSp fun r => { r with frame := none, frameErrors := satSucc 65535 r.frameErrors }).pulse 64
  else s

/-- A response that carries a record. -/
def answered (bytes : List Byte) : List Byte := 0 :: bytes

/-- A response that refuses; every byte after the outcome reads 0 (R202), as data out does beyond a response. -/
def refused (code : RefusalCode) : List Byte := [refusalByte code]

/-- SEL_ARMING: R200. -/
def execSelArming (s : State) : Host.Outcome State Fault Refusal :=
  taken (State.modSp fun r => { r with selArmed := true, frame := none }) s

/-- EMPTY_FRAME: R200; the frame is ignored and nothing is counted. -/
def execEmptyFrame (s : State) : Host.Outcome State Fault Refusal :=
  taken (fun s => if s.sp.selArmed then s.modSp fun r => { r with frame := none } else s) s

/-- BROKEN_FRAME: R201. -/
def execBrokenFrame (s : State) : Host.Outcome State Fault Refusal := event State.frameBreaks s

/-- UNKNOWN_COMMAND: R203, item 1. -/
def execUnknownCommand (code : Byte) (s : State) : Host.Outcome State Fault Refusal :=
  taken (State.port { code := code } none (some fun s => refuse s .badCommand)) s

/-! ### Reads (R202) -/

/-- READ_STATUS: R183. -/
def execReadStatus (s : State) : Host.Outcome State Fault Refusal :=
  taken (fun s => s.portRead 0x01 0 s.statusBytes) s

/-- READ_FEEDER: R40, R70, R2. -/
def execReadFeeder (feeder : Byte) (s : State) : Host.Outcome State Fault Refusal :=
  taken (fun s => s.portRead 0x03 1 (match feederOperand feeder with
    | some k => answered (s.feederBytes k)
    | none => refused .badOperand)) s

/-- R70: the record READ TRIP RECORD names, or marked empty. -/
def State.tripResponse (s : State) (k : FeederNo) (choice : Byte) : List Byte :=
  if choice = 0 then answered (optField tripLength ((s.seq k).first.map tripBytes))
  else if choice = 1 then answered (optField tripLength ((s.seq k).last.map tripBytes))
  else refused .badOperand

/-- READ_TRIP_RECORD: R70. -/
def execReadTripRecord (feeder choice : Byte) (s : State) : Host.Outcome State Fault Refusal :=
  taken (fun s => s.portRead 0x04 2 (match feederOperand feeder with
    | some k => s.tripResponse k choice
    | none => refused .badOperand)) s

/-- READ_SECTION: R110. -/
def execReadSection (number : Byte) (s : State) : Host.Outcome State Fault Refusal :=
  taken (fun s => s.portRead 0x05 1 (match sectionOperand number with
    | some n => answered (s.sectionBytes n)
    | none => refused .badOperand)) s

/-- READ_HOLD: R143. -/
def execReadHold (id : Byte) (s : State) : Host.Outcome State Fault Refusal :=
  taken (fun s => s.portRead 0x06 1 (match s.hold id with
    | some h => answered (holdBytes h)
    | none => refused .notFound)) s

/-- LIST_HOLDS: R143. -/
def execListHolds (s : State) : Host.Outcome State Fault Refusal :=
  taken (fun s => s.portRead 0x07 0 (answered s.holdListBytes)) s

/-- READ_RECTIFIER: R93. -/
def execReadRectifier (s : State) : Host.Outcome State Fault Refusal :=
  taken (fun s => s.portRead 0x08 0 (answered s.rectifierBytes)) s

/-- READ_ALERTS: R177. -/
def execReadAlerts (s : State) : Host.Outcome State Fault Refusal :=
  taken (fun s => s.portRead 0x09 0 (answered s.alertListBytes)) s

/-- READ_POINT: R177. -/
def execReadPoint (point : Byte) (s : State) : Host.Outcome State Fault Refusal :=
  taken (fun s => s.portRead 0x0A 1 (match pointOperand point with
    | some p => answered (s.pointBytes p)
    | none => refused .badOperand)) s

/-- READ_LINK: R167. -/
def execReadLink (port : Byte) (s : State) : Host.Outcome State Fault Refusal :=
  taken (fun s => s.portRead 0x0B 1 (match portOperand port with
    | some p => answered (s.linkBytes p)
    | none => refused .badOperand)) s

/-- READ_SETTINGS_STATUS: R199. -/
def execReadSettingsStatus (s : State) : Host.Outcome State Fault Refusal :=
  taken (fun s => s.portRead 0x0C 0 (answered s.settingsBytes)) s

/-- READ_STAGING: R186. -/
def execReadStaging (offset : Half) (length : Byte) (s : State) : Host.Outcome State Fault Refusal :=
  taken (fun s => s.portRead 0x0D 3
    (if stagingBounds offset.toNat length.toNat then answered (s.stagedBytes offset.toNat length.toNat)
     else refused .badOperand)) s

/-- READ_TIME: R182. -/
def execReadTime (s : State) : Host.Outcome State Fault Refusal :=
  taken (fun s => s.portRead 0x0E 0 (answered (stampBytes s.stamp))) s

end Sys2Proof.Machine
end

