-- ==== Sys2Proof/Machine/PortActions.lean ====
section
/-! DEFINITION. The meanings of the action commands of the station port (chapters 6, 8, 9 and 10), each behind the port's checks
(R203, R204). -/

namespace Sys2Proof.Machine

open Sys2Proof

/-! ### Switching (R205 to R207) -/

/-- R205: SELECT as its owner judges it. -/
def State.commandSelect (t : Target) (a : SwitchAction) (s : State) : Answer :=
  let unfitted := match t with
    | .feeder k => !s.fitted k
    | .rectifier => false
  if unfitted then refuse s .notFitted
  else accept (s.modSp fun r => { r with selection := some { target := t, action := a }, selectionTimer := some 10000 })

/-- R206: the action handed to the target's rule. -/
def State.switchTarget (t : Target) (a : SwitchAction) (s : State) : Answer :=
  match t, a with
  | .feeder k, .opened => s.commandOpen k
  | .feeder k, .close => s.commandClose k
  | .rectifier, .start => s.rectStart
  | .rectifier, .stop => s.commandStop
  | .rectifier, .standby => s.rectStandby
  | _, _ => refuse s .notSelected

/-- R206: OPERATE as its owner judges it; it uses the selection whatever comes of it. -/
def State.commandOperate (t : Target) (a : SwitchAction) (s : State) : Answer :=
  let used := s.modSp dropSelection
  if s.sp.selection = some { target := t, action := a } then used.switchTarget t a else refuse used .notSelected

/-- SELECT: R205. -/
def execSelect (target action : Byte) (s : State) : Host.Outcome State Fault Refusal :=
  taken (State.port { code := 0x20, waits := true, remote := true } (some target.toNat)
    (match targetOperand target, actionOperand action with
      | some t, some a => if belongs t a then some (State.commandSelect t a) else none
      | _, _ => none)) s

/-- OPERATE: R206. -/
def execOperate (target action : Byte) (s : State) : Host.Outcome State Fault Refusal :=
  event (State.port { code := 0x21, waits := true, remote := true } (some target.toNat)
    (match targetOperand target, actionOperand action with
      | some t, some a => some (State.commandOperate t a)
      | _, _ => none)) s

/-- CANCEL_SELECTION: R207. -/
def execCancelSelection (s : State) : Host.Outcome State Fault Refusal :=
  taken (State.port { code := 0x22 } none (some fun s => accept (s.modSp dropSelection))) s

/-- SELECTION_TIMER_EXPIRY: R205. -/
def execSelectionTimerExpiry (s : State) : Host.Outcome State Fault Refusal :=
  taken (fun s => if s.sp.selectionTimer.isSome then s.modSp dropSelection else s) s

/-- RESET_LOCKOUT: R64. -/
def execResetLockout (feeder : Byte) (s : State) : Host.Outcome State Fault Refusal :=
  event (State.port { code := 0x23, waits := true } (some feeder.toNat)
    ((feederOperand feeder).map fun k => State.commandReset k)) s

/-- R45: CLEAR TRIP RECORDS of one feeder. -/
def State.commandClear (k : FeederNo) (s : State) : Answer :=
  if s.fitted k then accept (s.clearRecords k) else refuse s .notFitted

/-- R45: CLEAR TRIP RECORDS of all feeders. -/
def State.commandClearAll (s : State) : Answer := accept (forEach allFeeders State.clearRecords s)

/-- CLEAR_TRIP_RECORDS: R45. -/
def execClearTripRecords (feeder : Byte) (s : State) : Host.Outcome State Fault Refusal :=
  taken (State.port { code := 0x24, waits := true } (some feeder.toNat)
    (if feeder = 255 then some State.commandClearAll else (feederOperand feeder).map fun k => State.commandClear k)) s

/-! ### Holds (R115, R130, R132, R133, R139) -/

/-- R115, item 3: a section of the wrong kind, or two sections shared on one port. -/
def State.badSections (s : State) (kind : HoldKind) (sections : List SectionNo) : Bool :=
  (kind != .isolate && sections.contains busSection) || s.sharesTwice sections

/-- R115: PLACE HOLD as its owner judges it. -/
def State.commandPlace (p : Placement) (tag : Half) (s : State) : Answer :=
  match s.placementRefusal p.sections (s.badSections p.kind p.sections) with
  | some (code, value) => refuse s code value
  | none =>
    let placed := s.placeHold p.kind .station tag p.sections p.duration
    accept placed.1 placed.2.toNat

/-- PLACE_HOLD: R115. A frame whose sections are fewer than its count is broken (R200). -/
def execPlaceHold (kind : Byte) (tag : Half) (count : Byte) (sections : List Byte) (duration : Half) (s : State) :
    Host.Outcome State Fault Refusal :=
  event (if shortOf 1 7 count sections then State.frameBreaks
    else State.port { code := 0x30, waits := true } none
      ((placementOperands kind tag count sections duration).map fun p => State.commandPlace p tag)) s

/-- R133, R132, R130: the hold of an ID that a station command with a holder tag may act on, or its refusal. -/
def State.stationHold (s : State) (id : Byte) (tag : Half) : RefusalCode ⊕ Hold :=
  match s.hold id with
  | none => .inl .notFound
  | some h => if h.origin ≠ .station ∨ h.tag ≠ tag then .inl .notHolder else .inr h

/-- A hold ID and a holder tag inside their sets. -/
def holderOperands (id : Byte) (tag : Half) : Bool := id != 0 && tag != 0

/-- R133: RELEASE HOLD as its owner judges it. -/
def State.commandRelease (id : Byte) (tag : Half) (s : State) : Answer :=
  match s.stationHold id tag with
  | .inl code => refuse s code
  | .inr h =>
    if h.state = .failed ∨ h.state = .releasing then refuse s .state else accept (s.releaseHold id) id.toNat

/-- RELEASE_HOLD: R133. -/
def execReleaseHold (id : Byte) (tag : Half) (s : State) : Host.Outcome State Fault Refusal :=
  event (State.port { code := 0x31, waits := true } none
    (if holderOperands id tag then some (State.commandRelease id tag) else none)) s

/-- R130: EXTEND HOLD as its owner judges it. -/
def State.commandExtend (id : Byte) (tag : Half) (duration : Nat) (s : State) : Answer :=
  if duration = 0 ∨ 720 < duration then refuse s .badOperand
  else match s.stationHold id tag with
    | .inl code => refuse s code
    | .inr h =>
      if h.kind ≠ .noreclose ∨ (h.state ≠ .securing ∧ h.state ≠ .active) then refuse s .state
      else
        accept (s.modHold id fun h =>
          { h with remaining := some duration, timers := { h.timers with minute := some 60000 } }) id.toNat

/-- EXTEND_HOLD: R130. -/
def execExtendHold (id : Byte) (tag duration : Half) (s : State) : Host.Outcome State Fault Refusal :=
  event (State.port { code := 0x32, waits := true } none
    (if holderOperands id tag then some (State.commandExtend id tag duration.toNat) else none)) s

/-- R132: DISMISS HOLD as its owner judges it. -/
def State.commandDismiss (id : Byte) (tag : Half) (s : State) : Answer :=
  match s.stationHold id tag with
  | .inl code => refuse s code
  | .inr h => if h.state = .failed then accept (s.retireHold id) id.toNat else refuse s .state

/-- DISMISS_HOLD: R132. -/
def execDismissHold (id : Byte) (tag : Half) (s : State) : Host.Outcome State Fault Refusal :=
  event (State.port { code := 0x33, waits := true } none
    (if holderOperands id tag then some (State.commandDismiss id tag) else none)) s

/-- R139: a key bound to a hold is unbound by force; one that stands off OFF must be cycled. -/
def State.forceUnbind (id : Byte) (s : State) : State :=
  forEach allKeys (fun n s => s.modKey n fun r =>
    if r.bound = some id then { r with bound := none, needsCycling := r.needsCycling || r.pos != .off } else r) s

/-- R139: FORCE RELEASE as its owner judges it. -/
def State.commandForce (id : Byte) (s : State) : Answer :=
  match s.hold id with
  | none => refuse s .notFound
  | some h =>
    match h.state with
    | .releasing => refuse s .state
    | .failed => accept ((s.forceUnbind id).retireHold id) id.toNat
    | .securing | .proving | .earthing | .active => accept ((s.forceUnbind id).releaseHold id) id.toNat

/-- FORCE_RELEASE: R139. -/
def execForceRelease (id : Byte) (s : State) : Host.Outcome State Fault Refusal :=
  event (State.port { code := 0x34, waits := true, supervisor := true } none
    (if id = 0 then none else some (State.commandForce id))) s

/-! ### Annunciation (R175, R176, R182) -/

/-- R175: ACKNOWLEDGE POINT as its owner judges it. -/
def State.commandAck (p : PointNo) (s : State) : Answer :=
  if onList (s.point p).state then accept (s.ackPoint p) p.val else refuse s .state

/-- ACKNOWLEDGE_POINT: R175. -/
def execAcknowledgePoint (point : Byte) (s : State) : Host.Outcome State Fault Refusal :=
  taken (fun s => (s.port { code := 0x40 } none ((pointOperand point).map fun p => State.commandAck p)).closeAlerts) s

/-- R176: ACKNOWLEDGE ALL as its owner judges it. -/
def State.commandAckAll (s : State) : Answer := accept s.ackList s.au.alerts.length

/-- ACKNOWLEDGE_ALL: R176. -/
def execAcknowledgeAll (s : State) : Host.Outcome State Fault Refusal :=
  taken (fun s => (s.port { code := 0x41 } none (some State.commandAckAll)).closeAlerts) s

/-- SET_TIME: R182. -/
def execSetTime (time : BitVec 48) (s : State) : Host.Outcome State Fault Refusal :=
  taken (State.port { code := 0x42 } none
    (some fun s => accept (s.modAu fun a => { a with time := time, timeNotSet := false }))) s

/-! ### Settings (R186, R188 to R194) -/

/-- WRITE_STAGING: R186. A frame whose data are fewer than its count is broken (R200). -/
def execWriteStaging (offset : Half) (count : Byte) (data : List Byte) (s : State) : Host.Outcome State Fault Refusal :=
  if shortOf 1 64 count data then event State.frameBreaks s
  else
    taken (State.port { code := 0x50 } none
      (if 1 ≤ count.toNat ∧ count.toNat ≤ 64 then some (State.commandWrite offset.toNat (data.take count.toNat))
       else none)) s

/-- ERASE: R188. -/
def execErase (target : Byte) (s : State) : Host.Outcome State Fault Refusal :=
  taken (State.port { code := 0x51 } none (some (State.commandErase target))) s

/-- PROGRAM: R189. -/
def execProgram (target : Byte) (s : State) : Host.Outcome State Fault Refusal :=
  taken (State.port { code := 0x52 } none (some (State.commandProgram target))) s

/-- ACTIVATE: R191, R192. -/
def execActivate (group : Byte) (s : State) : Host.Outcome State Fault Refusal :=
  event (State.port { code := 0x53 } none (some (State.commandActivate group))) s

/-- CLEAR_SETTINGS_STATUS: R190. -/
def execClearSettingsStatus (s : State) : Host.Outcome State Fault Refusal :=
  taken (State.port { code := 0x54 } none (some State.commandClearStatus)) s

/-- SET_LOCK: R194, R197. -/
def execSetLock (s : State) : Host.Outcome State Fault Refusal :=
  taken (fun s => (s.port { code := 0x55 } none (some State.commandSetLock)).writeRetained) s

/-- CLEAR_LOCK: R194, R197. -/
def execClearLock (s : State) : Host.Outcome State Fault Refusal :=
  taken (fun s => (s.port { code := 0x56 } none (some State.commandClearLock)).writeRetained) s

/-! ### RESTART (R211) -/

/-- R211: RESTART as its owner judges it. -/
def State.commandRestart (s : State) : Answer := if s.store.cfg.restartEnable then accept s else refuse s .disabled

/-- R211: the acceptance is written, and the WARM reset is taken within the same event. -/
def State.portRestart (s : State) : State :=
  if s.sp.selArmed then
    let row : PortRow := { code := 0x5F, remote := true }
    let a := s.portAnswer row (some State.commandRestart)
    let t := State.record row none a
    if a.result = .accepted then t.takeReset true false else t
  else s

/-- RESTART: R211. -/
def execRestart (s : State) : Host.Outcome State Fault Refusal := taken State.portRestart s

end Sys2Proof.Machine
end

