-- ==== Sys2Proof/Machine/Framing.lean ====
section
/-! DEFINITION. How bytes spell commands: the frames of the station port (R200, 11.1) and the messages of the links (R147, 11.3),
each read from its bytes and written to them. -/

namespace Sys2Proof.Machine

open Sys2Proof

/-! ### Frames of the station port (R200, 11.1) -/

/-- A word of two operand bytes. -/
def operandHalf (hi lo : Byte) : Half := hi ++ lo

/-- A station time of six operand bytes. -/
def operandTime (a b c d e f : Byte) : BitVec 48 := a ++ b ++ c ++ d ++ e ++ f

/-- The commands without operands. -/
def bareCommand (code : Byte) : Option Instr :=
  match code.toNat with
  | 0x01 => some .readStatus
  | 0x07 => some .listHolds
  | 0x08 => some .readRectifier
  | 0x09 => some .readAlerts
  | 0x0C => some .readSettingsStatus
  | 0x0E => some .readTime
  | 0x22 => some .cancelSelection
  | 0x41 => some .acknowledgeAll
  | 0x54 => some .clearSettingsStatus
  | 0x55 => some .setLock
  | 0x56 => some .clearLock
  | 0x5F => some .restart
  | _ => none

/-- The commands with one operand byte. -/
def oneByteCommand (code x : Byte) : Option Instr :=
  match code.toNat with
  | 0x03 => some (.readFeeder x)
  | 0x05 => some (.readSection x)
  | 0x06 => some (.readHold x)
  | 0x0A => some (.readPoint x)
  | 0x0B => some (.readLink x)
  | 0x23 => some (.resetLockout x)
  | 0x24 => some (.clearTripRecords x)
  | 0x34 => some (.forceRelease x)
  | 0x40 => some (.acknowledgePoint x)
  | 0x51 => some (.erase x)
  | 0x52 => some (.program x)
  | 0x53 => some (.activate x)
  | _ => none

/-- The commands with two operand bytes. -/
def twoByteCommand (code x y : Byte) : Option Instr :=
  match code.toNat with
  | 0x04 => some (.readTripRecord x y)
  | 0x20 => some (.select x y)
  | 0x21 => some (.operate x y)
  | _ => none

/-- The commands with three operand bytes. -/
def threeByteCommand (code x y z : Byte) : Option Instr :=
  match code.toNat with
  | 0x0D => some (.readStaging (operandHalf x y) z)
  | 0x31 => some (.releaseHold x (operandHalf y z))
  | 0x33 => some (.dismissHold x (operandHalf y z))
  | _ => none

/-- R200: WRITE STAGING from its operand bytes; a count outside its set calls for no data. -/
def writeFrame : List Byte → Instr
  | hi :: lo :: count :: data =>
    let n := if 1 ≤ count.toNat ∧ count.toNat ≤ 64 then count.toNat else 0
    if data.length < n then .brokenFrame else .writeStaging (operandHalf hi lo) count (data.take n)
  | _ => .brokenFrame

/-- R200: PLACE HOLD from its operand bytes; a section count outside its set calls for no section and no duration. -/
def placeFrame : List Byte → Instr
  | kind :: t1 :: t2 :: count :: data =>
    if 1 ≤ count.toNat ∧ count.toNat ≤ 7 then
      match data.drop count.toNat with
      | d1 :: d2 :: _ => .placeHold kind (operandHalf t1 t2) count (data.take count.toNat) (operandHalf d1 d2)
      | _ => .brokenFrame
    else .placeHold kind (operandHalf t1 t2) count [] 0
  | _ => .brokenFrame

/-- The longer commands of fixed length: EXTEND HOLD and SET TIME. -/
def longCommand (code : Byte) : List Byte → Option Instr
  | a :: b :: c :: d :: e :: rest =>
    if code = 0x32 then some (.extendHold a (operandHalf b c) (operandHalf d e))
    else match rest with
      | f :: _ => if code = 0x42 then some (.setTime (operandTime a b c d e f)) else none
      | [] => none
  | _ => none

/-- A command of fixed length from its operand bytes; bytes after the last operand are surplus (R200). -/
def fixedCommand (code : Byte) (operands : List Byte) : Option Instr :=
  (bareCommand code).or <| match operands with
    | [] => none
    | x :: rest => (oneByteCommand code x).or <| match rest with
      | [] => none
      | y :: rest => (twoByteCommand code x y).or <| match rest with
        | [] => none
        | z :: _ => (threeByteCommand code x y z).or (longCommand code operands)

/-- R200, R203: what a frame carries at the release of SEL, its bytes being complete. -/
def commandOfFrame : List Byte → Instr
  | [] => .emptyFrame
  | code :: operands =>
    if code = 0x50 then writeFrame operands
    else if code = 0x30 then placeFrame operands
    else if knownCodes.contains code then (fixedCommand code operands).getD .brokenFrame
    else .unknownCommand code

/-- The two bytes of an operand word. -/
def halfOperand (w : Half) : List Byte := [w.extractLsb' 8 8, w.extractLsb' 0 8]

/-- The six bytes of a station time. -/
def timeOperand (t : BitVec 48) : List Byte :=
  [t.extractLsb' 40 8, t.extractLsb' 32 8, t.extractLsb' 24 8, t.extractLsb' 16 8, t.extractLsb' 8 8, t.extractLsb' 0 8]

/-- 11.1: the bytes of the frame that carries a command of the station port, without surplus; `none` for what no clean frame
carries. -/
def frameOfCommand : Instr → Option (List Byte)
  | .emptyFrame => some []
  | .unknownCommand code => some [code]
  | .readStatus => some [0x01]
  | .readFeeder x => some [0x03, x]
  | .readTripRecord x y => some [0x04, x, y]
  | .readSection x => some [0x05, x]
  | .readHold x => some [0x06, x]
  | .listHolds => some [0x07]
  | .readRectifier => some [0x08]
  | .readAlerts => some [0x09]
  | .readPoint x => some [0x0A, x]
  | .readLink x => some [0x0B, x]
  | .readSettingsStatus => some [0x0C]
  | .readStaging offset length => some (0x0D :: halfOperand offset ++ [length])
  | .readTime => some [0x0E]
  | .select x y => some [0x20, x, y]
  | .operate x y => some [0x21, x, y]
  | .cancelSelection => some [0x22]
  | .resetLockout x => some [0x23, x]
  | .clearTripRecords x => some [0x24, x]
  | .placeHold kind tag count sections duration =>
    let head := 0x30 :: kind :: halfOperand tag ++ [count]
    if 1 ≤ count.toNat ∧ count.toNat ≤ 7 then some (head ++ sections ++ halfOperand duration) else some head
  | .releaseHold id tag => some (0x31 :: id :: halfOperand tag)
  | .extendHold id tag duration => some (0x32 :: id :: halfOperand tag ++ halfOperand duration)
  | .dismissHold id tag => some (0x33 :: id :: halfOperand tag)
  | .forceRelease x => some [0x34, x]
  | .acknowledgePoint x => some [0x40, x]
  | .acknowledgeAll => some [0x41]
  | .setTime t => some (0x42 :: timeOperand t)
  | .writeStaging offset count data => some (0x50 :: halfOperand offset ++ count :: data)
  | .erase x => some [0x51, x]
  | .program x => some [0x52, x]
  | .activate x => some [0x53, x]
  | .clearSettingsStatus => some [0x54]
  | .setLock => some [0x55]
  | .clearLock => some [0x56]
  | .restart => some [0x5F]
  | _ => none

/-! ### Link messages (R147, 11.3) -/

/-- The bytes of an entry of a BEACON. -/
def entryBytes (e : BeaconEntry) : List Byte := [e.line, beaconStateByte e.closed, classByte e.feederClass]

/-- The fields of a message after its station number. -/
def messageFields : MsgBody → List Byte
  | .beacon entries delivers => counted entryBytes entries ++ [yes delivers]
  | .intertrip line cause => [line, intertripByte cause]
  | .ask id line kind => [id, line, kindByte kind]
  | .grant id holdId => [id, holdId]
  | .deny id reason => [id, denyByte reason]
  | .drop id => [id]
  | .dropped id => [id]
  | .audit ids => counted (fun id => [id]) ids

/-- 11.3: the bytes of a message, its check code the last two. -/
def messageBytes (station : Byte) (body : MsgBody) : List Byte :=
  let head := kindOfBody body :: station :: messageFields body
  head ++ halfOperand (checkCode head)

/-- The breaker state of a beacon entry. -/
def stateOfByte (b : Byte) : Option Bool := if b = 0 then some true else if b = 1 then some false else none

/-- Yes or no. -/
def flagOfByte (b : Byte) : Option Bool := if b = 0 then some false else if b = 1 then some true else none

/-- A feeder class. -/
def classOfByte (b : Byte) : Option FeederClass :=
  if b = 0 then some .inService else if b = 1 then some .reclosing else if b = 2 then some .opened else none

/-- An intertrip cause. -/
def causeOfByte (b : Byte) : Option IntertripCause :=
  if b = 0 then some .fault else if b = 1 then some .backup else if b = 2 then some .emergency else none

/-- A DENY reason. -/
def reasonOfByte (b : Byte) : Option DenyReason :=
  if b = 0 then some .full else if b = 1 then some .wrongSection else if b = 2 then some .breaker else none

/-- The entries of a BEACON, `n` of them, and the bytes after them. -/
def entriesOf : Nat → List Byte → Option (List BeaconEntry × List Byte)
  | 0, bytes => some ([], bytes)
  | n + 1, line :: st :: cls :: rest =>
    match stateOfByte st, classOfByte cls, entriesOf n rest with
    | some closed, some c, some (l, rest) => some ({ line := line, closed := closed, feederClass := c } :: l, rest)
    | _, _, _ => none
  | _ + 1, _ => none

/-- The fields of a message of a kind; `none` where a byte lies outside its coding or the length is not the one called for. -/
def bodyOf (kind : Byte) (fields : List Byte) : Option MsgBody :=
  match kind.toNat, fields with
  | 1, count :: rest =>
    match entriesOf count.toNat rest with
    | some (entries, [d]) => (flagOfByte d).map fun d => .beacon entries d
    | _ => none
  | 2, [line, c] => (causeOfByte c).map fun c => .intertrip line c
  | 3, [id, line, k] => (kindOperand k).map fun k => .ask id line k
  | 4, [id, holdId] => some (.grant id holdId)
  | 5, [id, r] => (reasonOfByte r).map fun r => .deny id r
  | 6, [id] => some (.drop id)
  | 7, [id] => some (.dropped id)
  | 8, count :: ids => if ids.length = count.toNat then some (.audit ids) else none
  | _, _ => none

/-- The event that a message with given fields makes on a port. -/
def eventOfMessage (p : Port) (station : Byte) : MsgBody → Instr
  | .beacon entries delivers => .beacon p station entries delivers
  | .intertrip line cause => .intertrip p station line cause
  | .ask id line kind => .ask p station id line kind
  | .grant id holdId => .grant p station id holdId
  | .deny id reason => .deny p station id reason
  | .drop id => .drop p station id
  | .dropped id => .dropped p station id
  | .audit ids => .audit p station ids

/-- R147: the station number and the fields of a message whose check code, kind, length and fields are in order. -/
def readMessage (bytes : List Byte) : Option (Byte × MsgBody) :=
  let head := bytes.take (bytes.length - 2)
  if bytes.drop (bytes.length - 2) = halfOperand (checkCode head) then
    match head with
    | kind :: station :: fields =>
      match bodyOf kind fields with
      | some body => if fieldsValid body then some (station, body) else none
      | none => none
    | _ => none
  else none

/-- R147: the event that the bytes of a message make on a port: a message of its kind, or a discarded one. -/
def eventOfBytes (p : Port) (bytes : List Byte) : Instr :=
  match readMessage bytes with
  | some (station, body) => eventOfMessage p station body
  | none => .discardedMessage p

end Sys2Proof.Machine
end

