-- ==== Sys2Proof/Machine/Dispatch.lean ====
section
/-! DEFINITION. One arm for each command and event: what it does to everything but the queue. -/

namespace Sys2Proof.Machine

open Sys2Proof

def exec (i : Instr) (s : State) : Host.Outcome State Fault Refusal :=
  match i with
  | .powerOn => Sys2Proof.Machine.execPowerOn s
  | .resetInput => Sys2Proof.Machine.execResetInput s
  | .equipmentVerificationEnd => Sys2Proof.Machine.execEquipmentVerificationEnd s
  | .sampleFrame f order => Sys2Proof.Machine.execSampleFrame f order s
  | .frameTimeout => Sys2Proof.Machine.execFrameTimeout s
  | .contactRawChange input on => Sys2Proof.Machine.execContactRawChange input on s
  | .inputChange input => Sys2Proof.Machine.execInputChange input s
  | .transitTimerExpiry p => Sys2Proof.Machine.execTransitTimerExpiry p s
  | .openTimerExpiry k => Sys2Proof.Machine.execOpenTimerExpiry k s
  | .closeTimerExpiry k => Sys2Proof.Machine.execCloseTimerExpiry k s
  | .deadTimerExpiry k => Sys2Proof.Machine.execDeadTimerExpiry k s
  | .testTimerExpiry k => Sys2Proof.Machine.execTestTimerExpiry k s
  | .reclaimTimerExpiry k => Sys2Proof.Machine.execReclaimTimerExpiry k s
  | .commutationReference elapsed => Sys2Proof.Machine.execCommutationReference elapsed s
  | .gatePulse bridge pair => Sys2Proof.Machine.execGatePulse bridge pair s
  | .referenceSupervisionExpiry => Sys2Proof.Machine.execReferenceSupervisionExpiry s
  | .syncTimerExpiry => Sys2Proof.Machine.execSyncTimerExpiry s
  | .wakeTimerExpiry => Sys2Proof.Machine.execWakeTimerExpiry s
  | .earthMismatchTimerExpiry k => Sys2Proof.Machine.execEarthMismatchTimerExpiry k s
  | .securingLimitExpiry id => Sys2Proof.Machine.execSecuringLimitExpiry id s
  | .provingWaitExpiry id => Sys2Proof.Machine.execProvingWaitExpiry id s
  | .provingLimitExpiry id => Sys2Proof.Machine.execProvingLimitExpiry id s
  | .earthingLimitExpiry id => Sys2Proof.Machine.execEarthingLimitExpiry id s
  | .dropLimitExpiry id => Sys2Proof.Machine.execDropLimitExpiry id s
  | .retireTimerExpiry id => Sys2Proof.Machine.execRetireTimerExpiry id s
  | .minuteTimerExpiry id => Sys2Proof.Machine.execMinuteTimerExpiry id s
  | .beacon p station entries delivering => Sys2Proof.Machine.execBeacon p station entries delivering s
  | .intertrip p station line cause => Sys2Proof.Machine.execIntertrip p station line cause s
  | .ask p station id line kind => Sys2Proof.Machine.execAsk p station id line kind s
  | .grant p station id holdId => Sys2Proof.Machine.execGrant p station id holdId s
  | .deny p station id reason => Sys2Proof.Machine.execDeny p station id reason s
  | .drop p station id => Sys2Proof.Machine.execDrop p station id s
  | .dropped p station id => Sys2Proof.Machine.execDropped p station id s
  | .audit p station ids => Sys2Proof.Machine.execAudit p station ids s
  | .discardedMessage p => Sys2Proof.Machine.execDiscardedMessage p s
  | .supervisionTimerExpiry p => Sys2Proof.Machine.execSupervisionTimerExpiry p s
  | .transmissionCompletion p => Sys2Proof.Machine.execTransmissionCompletion p s
  | .beaconTimerExpiry p => Sys2Proof.Machine.execBeaconTimerExpiry p s
  | .stationTimeTick => Sys2Proof.Machine.execStationTimeTick s
  | .selectionTimerExpiry => Sys2Proof.Machine.execSelectionTimerExpiry s
  | .eraseCompletion verified => Sys2Proof.Machine.execEraseCompletion verified s
  | .programCompletion verified => Sys2Proof.Machine.execProgramCompletion verified s
  | .selArming => Sys2Proof.Machine.execSelArming s
  | .emptyFrame => Sys2Proof.Machine.execEmptyFrame s
  | .brokenFrame => Sys2Proof.Machine.execBrokenFrame s
  | .unknownCommand code => Sys2Proof.Machine.execUnknownCommand code s
  | .readStatus => Sys2Proof.Machine.execReadStatus s
  | .readFeeder feeder => Sys2Proof.Machine.execReadFeeder feeder s
  | .readTripRecord feeder choice => Sys2Proof.Machine.execReadTripRecord feeder choice s
  | .readSection number => Sys2Proof.Machine.execReadSection number s
  | .readHold id => Sys2Proof.Machine.execReadHold id s
  | .listHolds => Sys2Proof.Machine.execListHolds s
  | .readRectifier => Sys2Proof.Machine.execReadRectifier s
  | .readAlerts => Sys2Proof.Machine.execReadAlerts s
  | .readPoint point => Sys2Proof.Machine.execReadPoint point s
  | .readLink port => Sys2Proof.Machine.execReadLink port s
  | .readSettingsStatus => Sys2Proof.Machine.execReadSettingsStatus s
  | .readStaging offset length => Sys2Proof.Machine.execReadStaging offset length s
  | .readTime => Sys2Proof.Machine.execReadTime s
  | .select target action => Sys2Proof.Machine.execSelect target action s
  | .operate target action => Sys2Proof.Machine.execOperate target action s
  | .cancelSelection => Sys2Proof.Machine.execCancelSelection s
  | .resetLockout feeder => Sys2Proof.Machine.execResetLockout feeder s
  | .clearTripRecords feeder => Sys2Proof.Machine.execClearTripRecords feeder s
  | .placeHold kind tag count sections duration => Sys2Proof.Machine.execPlaceHold kind tag count sections duration s
  | .releaseHold id tag => Sys2Proof.Machine.execReleaseHold id tag s
  | .extendHold id tag duration => Sys2Proof.Machine.execExtendHold id tag duration s
  | .dismissHold id tag => Sys2Proof.Machine.execDismissHold id tag s
  | .forceRelease id => Sys2Proof.Machine.execForceRelease id s
  | .acknowledgePoint point => Sys2Proof.Machine.execAcknowledgePoint point s
  | .acknowledgeAll => Sys2Proof.Machine.execAcknowledgeAll s
  | .setTime time => Sys2Proof.Machine.execSetTime time s
  | .writeStaging offset count data => Sys2Proof.Machine.execWriteStaging offset count data s
  | .erase target => Sys2Proof.Machine.execErase target s
  | .program target => Sys2Proof.Machine.execProgram target s
  | .activate group => Sys2Proof.Machine.execActivate group s
  | .clearSettingsStatus => Sys2Proof.Machine.execClearSettingsStatus s
  | .setLock => Sys2Proof.Machine.execSetLock s
  | .clearLock => Sys2Proof.Machine.execClearLock s
  | .restart => Sys2Proof.Machine.execRestart s
  | .resetInputRelease => Sys2Proof.Machine.execResetInputRelease s

end Sys2Proof.Machine
end

