-- ==== Sys2Proof/Safety.lean ====
section
/-! DEFINITION. The terms in which claims are stated: safe steps, what a command leaves alone, and the laws that the records of the
blocks obey in every state that a step leaves. -/

namespace Sys2Proof.Machine

open Sys2Proof

/-! ### Safe steps -/

/-- A step of the part ends in a next state. -/
def Completes (s : State) : Prop := ∃ t, step s = .next t

/-- No handing waits: every consequence of the events so far has been carried out (assumption 3). -/
def Quiet (s : State) : Prop := s.agenda = []

/-- A safe state: the step taken from it completes, and no handing waits in it. -/
def Safe (s : State) : Prop := Completes s ∧ Quiet s

/-- The part takes events: the RESET input does not hold it (R211), and no handing waits. -/
structure Ready (s : State) : Prop where
  running : s.resetHeld = false
  quiet : s.agenda = []

/-- The station port takes frames: SEL has been armed since the reset (R200). -/
structure PortReady (s : State) : Prop extends Ready s where
  armed : s.sp.selArmed = true

/-- Equipment verification has ended (R15). -/
def Verified (s : State) : Prop := s.verification = none

/-- The commands that R203, item 2, refuses with BUSY before equipment verification ends are taken. -/
structure PortOpen (s : State) : Prop extends PortReady s where
  verified : s.verification = none

/-! ### Commands apart -/

/-- R211: the commands by which a reset is taken or ends. A RESTART takes one only when it is accepted. -/
def touchesReset : Instr → Bool
  | .powerOn | .resetInput | .resetInputRelease | .restart => true
  | _ => false

/-- R181, R182: the commands that write the station clock, resets apart. -/
def touchesClock : Instr → Bool
  | .stationTimeTick | .setTime _ => true
  | _ => false

/-! ### What a command leaves alone -/

/-- The parts of the state that statements name when they say what a command leaves alone. -/
inductive Part where
  | channels | reception | inputs | pairs | mismatch
  | engines | sequencers | latch | rectifier | sections | holds | linkA | linkB
  | points | bands | clock
  | settings | banks
  | port | reset | verification | agenda | queue
  deriving DecidableEq, Repr

/-- A part of the state is the same after as before. `settings` is the Settings Store without the banks of its retained area,
which follow what they keep (R197); `points` are the point records, the alert list and ATTN. -/
def Same (p : Part) (s t : State) : Prop :=
  match p with
  | .channels => t.mi.channels = s.mi.channels
  | .reception => t.mi.reception = s.mi.reception
  | .inputs => t.mi.inputs = s.mi.inputs
  | .pairs => t.mi.pairs = s.mi.pairs
  | .mismatch => t.mi.mismatch = s.mi.mismatch
  | .engines => t.engines = s.engines
  | .sequencers => t.seqs = s.seqs
  | .latch => t.backupLatch = s.backupLatch
  | .rectifier => t.rect = s.rect
  | .sections => t.sections = s.sections
  | .holds => t.ht = s.ht
  | .linkA => t.linkA = s.linkA
  | .linkB => t.linkB = s.linkB
  | .points => t.au.points = s.au.points ∧ t.au.alerts = s.au.alerts ∧ t.au.joining = s.au.joining ∧ t.au.attn = s.au.attn
  | .bands => t.au.bands = s.au.bands
  | .clock => t.au.time = s.au.time ∧ t.au.timeNotSet = s.au.timeNotSet
  | .settings => { t.store with bank0 := s.store.bank0, bank1 := s.store.bank1 } = s.store
  | .banks => t.store.bank0 = s.store.bank0 ∧ t.store.bank1 = s.store.bank1
  | .port => t.sp = s.sp
  | .reset => t.resetHeld = s.resetHeld
  | .verification => t.verification = s.verification
  | .agenda => t.agenda = s.agenda
  | .queue => t.pending = s.pending

/-- Nothing changes but the parts named. -/
def OnlyChanges (parts : List Part) (s t : State) : Prop := ∀ p, p ∉ parts → Same p s t

/-- The parts that the consequences of an event may reach: the feeder units, the rectifier group, the sections, the holds, the
links and the Annunciation Unit, with the retained area that follows the holds. The measurement, the settings, the port, the
backup latch, the clock and the queue change by an event's own first effect only. -/
def reached : List Part :=
  [.engines, .sequencers, .rectifier, .sections, .holds, .linkA, .linkB, .points, .bands, .banks, .agenda]

/-! ### What a frame of the port leaves -/

/-- R200, R202: the part has shown the response of a read: no frame is in progress, and data out has carried the response behind
the code and operand bytes. -/
def State.showing (code : Byte) (operands : Nat) (response : List Byte) (s : State) : State :=
  { s with
    sp := { s.sp with
            frame := none
            shown := some { code := code, taken := operands + 1, required := 0, snapshot := response } } }

/-- R203: the last command result of an action command, its frame closed. -/
def State.resulting (code : Byte) (result : CmdResult) (value : Nat) (s : State) : State :=
  { s with sp := { s.sp with frame := none, lastResult := some { code := code, result := result, value := value } } }

/-- R203: a refusal, which changes nothing but the last command result. -/
def State.refusing (code : Byte) (reason : RefusalCode) (s : State) : State := s.resulting code (.refused reason) 0

/-! ### States in which consequences end at once -/

/-- No feeder waits in DEAD-TIME with a reason (R57), and no hold in SECURING names the bus (R119): a change of the state of
the rectifier group then reaches the feed mode of the bus alone. -/
structure NothingWaits (s : State) : Prop where
  waits : ∀ k, (s.seq k).wait = none
  securing : s.securingBus = []

/-- The engine of feeder k rests: it stands in IDLE without arming fields with both counts at 0, and no change of set or of group
is pending (R22, R37, R38). -/
structure EngineRests (s : State) (k : FeederNo) : Prop where
  stage : (s.engine k).stage = .idle
  arming : (s.engine k).arming = none
  imax : (s.engine k).imaxCount = 0
  reverse : (s.engine k).revCount = 0
  group : (s.engine k).groupPending = false
  set : (s.engine k).wanted = (s.engine k).setInUse

/-- The engine of feeder k rests, and no hold in SECURING covers the feeder (R119): a change of the state of its sequencer then
reaches the close permission of its section alone. -/
structure FeederQuiet (s : State) (k : FeederNo) : Prop extends EngineRests s k where
  securing : s.securingOver k = []

/-! ### What the rules of a feeder leave -/

/-- R42 and the table of 3.1: a sequencer in a state, with none of the fields that stand in a state only, its pulses and contactor
off but for a running open pulse. -/
def Sequencer.bare (q : SeqState) (r : Sequencer) : Sequencer :=
  { r with
    state := some q, override := none, inReclaim := none, closeKind := none, wait := none, holdOpenPending := false,
    failure := none, deadTimer := none, testTimer := none, reclaimTimer := none, closeCoil := false, closeTimer := none,
    testContactor := false }

/-- R45: the record of a trip that a demand makes: the feed current is the newer entry of the history, 0 when it is empty, the peak
is that current, and there are no fields of a rise. -/
def State.demandRecord (s : State) (k : FeederNo) (cause : TripCause) : TripRecord :=
  let feed := match (s.engine k).history with
    | [] => 0
    | newer :: _ => newer
  { cause := cause, feed := feed, saturated := (s.channel (chIF k)).saturated, peak := feed, rise := none,
    set := (s.engine k).setInUse, source := (s.engine k).copy.source,
    heatShare := (s.engine k).heat * 256 / heatLimit (s.engine k).copy.thermal,
    attempt := (s.seq k).attempts, stamp := s.stamp }

/-- R44, R45: a sequencer in IN-SERVICE or CLOSING that has taken a trip with a record: in TRIPPING with its cause, in-reclaim mark
and override, the open pulse `pulse`, the trip counted, and FIRST and LAST kept. -/
def Sequencer.tripped (rec : TripRecord) (pulse : Option Nat) (r : Sequencer) : Sequencer :=
  { r.bare .tripping with
    cause := some rec.cause
    inReclaim := some (decide (r.reclaimTimer.isSome ∨ (r.state = some .closing ∧ r.closeKind = some .automatic)))
    override := if r.state = some .closing ∧ r.holdOpenPending = true then some .opened else none
    openPulse := pulse
    trips := min 65535 (r.trips + 1)
    last := some rec
    first := match r.first with
      | some x => some x
      | none => some rec }

/-- R48, R49: a sequencer in TRIPPING whose open is confirmed, where `o` says. -/
def Sequencer.confirmed (set : RecloseSettings) (o : OpenOutcome) (r : Sequencer) : Sequencer :=
  match o with
  | .opened => { r.bare .opened with attempts := 0, openPulse := none }
  | .lockout c => { r.bare .lockout with attempts := c, openPulse := none }
  | .dead c =>
    { r.bare .deadTime with
      attempts := c, openPulse := none, deadTimer := some (deadLength set { r with attempts := c }) }

/-- R70, R108: the sequencer of feeder k has the fields `f` gives, and the close permission of its section follows. -/
def State.entering (k : FeederNo) (f : Sequencer → Sequencer) (s : State) : State :=
  State.deriveBars (sectionOf k) (s.modSeq k f)

/-! ### The part after a reset -/

/-- What both kinds of reset leave (R16, R41, R71, R94, R111, R168, R184, R198, R212). -/
structure FreshlyReset (t : State) : Prop where
  channels : ∀ c, t.channel c = { value := 0, saturated := false, state := .stale, miss := 0, goodRun := 0 }
  reception : t.mi.reception = { lastSeq := none, charge := 0, timeout := some 202 }
  inputs : ∀ i, (t.input i).level = none ∧ (t.input i).stability = none
  pairs : ∀ p, t.pair p = { derived := none, handed := none, transit := none }
  engines : ∀ k, t.engine k =
    { stage := .idle, history := [], imaxCount := 0, revCount := 0, arming := none,
      heat := heatLimit (t.feederSettings k).thermal / 2, warning := false, recloseBar := false,
      copy := settingsCopyOf (t.feederSettings k) t.groupSource, setInUse := .single, wanted := .single,
      groupPending := false }
  sequencers : ∀ k, t.seq k =
    { state := none, cause := none, override := none, inReclaim := none, attempts := 0, closeKind := none, wait := none,
      holdOpenPending := false, failure := none, deadTimer := none, testTimer := none, reclaimTimer := none,
      openPulse := none, closeCoil := false, closeTimer := none, testContactor := false, lastClose := .none,
      trips := (t.seq k).trips, first := (t.seq k).first, last := (t.seq k).last }
  latch : t.backupLatch = false
  rectifier : t.rect =
    { state := .off, cause := none, tripTime := none, alpha := (t.store.cfg.alphaMax : Int), ramp := none, uRef := none,
      degraded := false, bridge1 := { lost := false, low := 0, pair := 0 },
      bridge2 := { lost := false, low := 0, pair := 0 }, syncCount := none, syncTimer := none, wakeTimer := none,
      refSeen := false, lastInterval := none, refTimer := none, refsPresent := false, busFault := 0, acDrive := false,
      dips := t.rect.dips, autostart := none, pulses := [], gateOut := none,
      settings := t.store.inUse.rect }
  energisation : ∀ n, (t.sec n).energisation = .unproven ∧ (t.sec n).deadRun = 0
  earthSwitches : ∀ n, (t.sec n).drive = .none ∧ (t.sec n).mismatchTimer = none ∧ (t.sec n).mismatch = false
  neighbours : ∀ k, (t.sec (sectionOf k)).neighbour = if (t.share k).isSome then some .unknown else none
  wanted : ∀ n, (t.sec n).wanted = .single
  commanded : ∀ k, (t.sec (sectionOf k)).commandedClosed = (t.fitted k && decide ((t.sec (sectionOf k)).earth ≠ 0))
  counts : ∀ n, (t.sec n).isolate = (recount t.ht.holds n (t.sec n)).isolate ∧
    (t.sec n).earth = (recount t.ht.holds n (t.sec n)).earth ∧
    (t.sec n).noreclose = (recount t.ht.holds n (t.sec n)).noreclose
  links : ∀ p, t.link p =
    { state := if (t.store.cfg.port p).used then .down else .unused, joinCount := none, supervision := none,
      errors := (t.link p).errors, report := none, lastIntertrip := none, intertrips := [], messages := [],
      beaconDue := false, beaconTimer := none, inFlight := none }
  points : ∀ p, (t.point p).condition = false ∧ (t.point p).state = .normal ∧ (t.point p).rise = none ∧
    (t.point p).repeats = none
  alerts : t.au.alerts = [] ∧ t.au.attn = false
  bands : ∀ b, t.au.bands.get b = { condition := false, run := 0 }
  clock : t.au.time = 0 ∧ t.au.timeNotSet = true
  staging : ∀ i, t.store.staging.get i = 0
  operation : t.store.operation = none ∧ t.store.fittedPending = false
  port : t.sp =
    { localAuthority := false, settingsKey := false, supervisorKey := false, emergency := false, selection := none,
      selectionTimer := none, frame := none, lastResult := none, frameErrors := t.sp.frameErrors, selArmed := false,
      shown := none }
  verification : t.verification = some 200
  agenda : t.agenda = []

/-- What a POWER-ON reset clears and a WARM reset keeps (R71, R94, R168, R198, R212): the trip counters and records, the mains
dip counter, the error counters of the links, the frame error count and the error bits of the Settings Store. -/
structure CountersClear (t : State) : Prop where
  trips : ∀ k, (t.seq k).trips = 0 ∧ (t.seq k).first = none ∧ (t.seq k).last = none
  dips : t.rect.dips = 0
  errors : ∀ p, (t.link p).errors = 0
  frames : t.sp.frameErrors = 0
  bits : t.store.eraseError = false ∧ t.store.programError = false

/-- The same items kept. -/
structure CountersKept (s t : State) : Prop where
  trips : ∀ k, (t.seq k).trips = (s.seq k).trips ∧ (t.seq k).first = (s.seq k).first ∧ (t.seq k).last = (s.seq k).last
  dips : t.rect.dips = s.rect.dips
  errors : ∀ p, (t.link p).errors = (s.link p).errors
  frames : t.sp.frameErrors = s.sp.frameErrors
  bits : t.store.eraseError = s.store.eraseError ∧ t.store.programError = s.store.programError

/-- R198: the image is VALID and the check code stored with it is that of its content. -/
def Image.good (i : Image) : Prop := i.state = .valid ∧ i.code = checkCode i.content

/-- What the part loads from what it keeps, at either reset (R195 to R198, R144): the retained area, the settled hold table,
the configuration and the group in use. -/
structure Loaded (s t : State) : Prop where
  retained : ∀ kept, s.store.latestCopy = some kept →
    t.store.active = kept.active ∧ t.store.lock = kept.lock ∧ t.ht.lastId = kept.lastId ∧
      t.ht.holds = kept.holds.map settleHold
  lost : s.store.latestCopy = none →
    t.store.active = 0 ∧ t.store.lock = true ∧ t.ht.lastId = 0 ∧ t.ht.holds = [] ∧ t.store.retainedLost = true
  config : s.store.config.good → t.store.cfg = readConfig s.store.config.content ∧ t.store.configFault = false
  fallback : ¬ s.store.config.good → t.store.cfg = factoryConfig ∧ t.store.configFault = true
  group : (s.store.groups.get t.store.active).good →
    t.store.inUse = readGroup (s.store.groups.get t.store.active).content ∧ t.store.factoryInUse = false
  factory : ¬ (s.store.groups.get t.store.active).good → t.store.inUse = factoryGroup ∧ t.store.factoryInUse = true
  contents : (∀ g, (t.store.groups.get g).content = (s.store.groups.get g).content) ∧
    t.store.config.content = s.store.config.content

/-! ### Laws of the records -/

/-- R28, R24 to R26, R20: the thermal accumulator stays within 0..2·Hlim of the copy in use, arming fields stand in RISING and
CONFIRM and never in IDLE, and the history holds at most two currents. -/
structure EngineLaw (e : Engine) : Prop where
  heat : e.heat ≤ 2 * heatLimit e.copy.thermal
  idle : e.stage = .idle → e.arming = none
  rising : e.stage = .rising → e.arming.isSome
  confirm : e.stage = .confirm → e.arming.isSome
  history : e.history.length ≤ 2

/-- The table of 3.1, R42 and R43: what stands in a state of a sequencer only. -/
structure SequencerLaw (r : Sequencer) : Prop where
  override : r.override.isSome → r.state = some .tripping
  inReclaim : r.inReclaim.isSome → r.state = some .tripping
  closeKind : r.closeKind.isSome →
    r.state = some .lineTest ∨ r.state = some .closing ∨ (r.state = some .inService ∧ r.reclaimTimer.isSome)
  wait : r.wait.isSome → r.state = some .deadTime
  holdOpen : r.holdOpenPending = true → r.state = some .closing
  failure : r.failure.isSome → r.state = some .breakerFault
  deadTimer : r.deadTimer.isSome → r.state = some .deadTime
  testTimer : r.testTimer.isSome → r.state = some .lineTest
  reclaimTimer : r.reclaimTimer.isSome → r.state = some .inService
  closeCoil : r.closeCoil = true → r.state = some .closing
  closeTimer : r.closeTimer.isSome → r.state = some .closing
  contactor : r.testContactor = true ↔ r.state = some .lineTest

/-- R74 and the table of 4.1: what stands in a state of the rectifier group only. -/
structure RectifierLaw (r : Rectifier) : Prop where
  cause : r.cause.isSome → r.state = .tripped
  tripTime : r.tripTime.isSome → r.state = .tripped
  ramp : r.ramp.isSome → r.state = .ramping
  syncCount : r.syncCount.isSome → r.state = .syncing
  syncTimer : r.syncTimer.isSome → r.state = .syncing
  wakeTimer : r.wakeTimer.isSome → r.state = .standby
  pulses : r.pulses ≠ [] → delivering r.state = true

/-- R152 to R155: the outbound list holds at most one message for each subject and one INTERTRIP for each line section, and a
link that is UNUSED or DOWN holds none. -/
structure LinkLaw (l : Link) : Prop where
  subjects : (l.messages.map subjectOf).Nodup
  lines : (l.intertrips.map PendingIntertrip.line).Nodup
  down : takesMessages l.state = false → l.messages = [] ∧ l.intertrips = []

/-- The laws of the records of all blocks. -/
structure RecordLaws (s : State) : Prop where
  engines : ∀ k, EngineLaw (s.engine k)
  sequencers : ∀ k, SequencerLaw (s.seq k)
  rectifier : RectifierLaw s.rect
  links : ∀ p, LinkLaw (s.link p)

/-- R174: the alert list holds every point in UNACK or CLEARED-UNACK once and no other, and ATTN is asserted while it is not
empty. -/
structure AlertLaw (s : State) : Prop where
  once : (s.au.alerts ++ s.au.joining).Nodup
  points : ∀ p, p ∈ s.au.alerts ++ s.au.joining ↔ onList (s.point p).state = true

/-- R174: no point waits to join the list, and ATTN is asserted while the list is not empty. -/
def AttnLaw (s : State) : Prop := s.au.joining = [] ∧ s.au.attn = !s.au.alerts.isEmpty

/-- R169: once equipment verification has ended, the condition of every point is its level. -/
def LevelLaw (s : State) : Prop := s.verification = none → ∀ p, (s.point p).condition = s.levelOf p

/-! ### Laws of the holds and of what they hold -/

/-- R112: the hold table holds at most 24 records, at most 8 of each PEER origin; no hold ID appears twice, and no two PEER
records of one port share a holder tag. -/
structure TableLaw (holds : List Hold) : Prop where
  size : holds.length ≤ 24
  ids : (holds.map Hold.id).Nodup
  peers : ∀ p, (holds.filter fun h => h.origin = peerOrigin p).length ≤ 8
  tags : ∀ p, ((holds.filter fun h => h.origin = peerOrigin p).map Hold.tag).Nodup

/-- R115, R134 to R136, R142: a hold names each of its sections once; purpose and phase stand in RELEASING only, and only an EARTH
hold is on its way to ISOLATE. -/
structure HoldLaw (h : Hold) : Prop where
  sections : h.sections.Nodup
  purpose : h.purpose.isSome → h.state = .releasing
  phase : h.phase.isSome → h.state = .releasing
  convert : h.purpose = some .convert → h.kind = .earth

/-- R101: the counts of every section are those of the hold records that cover it and are not FAILED. -/
def CountLaw (s : State) : Prop :=
  ∀ n, (s.sec n).isolate = (recount s.ht.holds n (s.sec n)).isolate ∧
    (s.sec n).earth = (recount s.ht.holds n (s.sec n)).earth ∧
    (s.sec n).noreclose = (recount s.ht.holds n (s.sec n)).noreclose

/-- R104: a record whose earth switch has a CLOSE drive is commanded CLOSED, its earth count is not 0, and the breaker of its feeder
stands OPEN. -/
def DriveOk (s : State) (n : SectionNo) (r : SectionRec) : Prop :=
  r.drive = .close → r.commandedClosed = true ∧ r.earth ≠ 0 ∧ ∀ k, n = sectionOf k → s.breakerPos k = some .opened

/-- The laws of the hold table, of the counts it keeps and of the earth switches (R101, R104, R112). Until equipment verification
ends no breaker position has been handed (R15). -/
structure PlantLaws (s : State) : Prop where
  table : TableLaw s.ht.holds
  holds : ∀ h ∈ s.ht.holds, HoldLaw h
  counts : CountLaw s
  drives : ∀ n, DriveOk s n (s.sec n)
  unhanded : s.verifying = true → ∀ k, s.breakerPos k = none

/-- R114, R197: the latest good copy of the retained area holds what the area keeps, as it stands. -/
def RetainedLaw (s : State) : Prop := s.store.latestCopy = some s.retainedView

end Sys2Proof.Machine
end

