-- ==== Sys2Proof/Certificates/Slice0/Obligations.lean ====
section
/-! DEFINITION. The statements put to the provers. Each cites in OBLIGATIONS.json the rules or sections it rests on; a statement of
how the part completes a command gives the whole next state: `State.finish` is the end of the event, in which the points
and the retained area follow the rest (`Obligations.EventEnd` says what it may write). -/

section

open Sys2Proof Sys2Proof.Machine

/-! ### The part as a whole -/

/-- The queue is first in, first out, and a step is `exec` of its front (tier 1 in place of a processor's fetch). On an empty
queue the part idles, which is the model's choice (log entry 1). -/
def Obligations.StepTakesTheFront : Prop :=
  (∀ (c : Instr) (rest : List Instr) (s : State),
    step { s with pending := c :: rest } = exec c { s with pending := rest }) ∧
  ∀ s : State, s.pending = [] → step s = .next s

/-- No command touches the queue behind it. -/
def Obligations.QueueUntouched : Prop :=
  ∀ (c : Instr) (s : State), ∃ t, exec c s = .next t ∧ t.pending = s.pending

/-- R211: while the RESET input stays asserted the part takes nothing but resets; of a contact the pin alone follows, and a
RESTART is not taken either. -/
def Obligations.HeldPartTakesNothing : Prop :=
  ∀ s : State, s.resetHeld = true →
    (∀ c : Instr, touchesReset c = false → (∀ i on, c ≠ .contactRawChange i on) → exec c s = .next s) ∧
    (∀ i on, exec (.contactRawChange i on) s = .next (s.setInput i { s.input i with raw := on })) ∧
    exec .restart s = .next s

/-- POWER_ON, from every state: the reset values of every block with all counters clear, the start-up loading, and the pins of
the contacts as they were. That POWER_ON ends an asserted RESET is the model's choice (log entry 13). -/
def Obligations.PowerOnReset : Prop :=
  ∀ s : State, ∃ t, exec .powerOn s = .next t ∧ FreshlyReset t ∧ CountersClear t ∧ Loaded s t ∧ t.resetHeld = false ∧
    (∀ i, (t.input i).raw = (s.input i).raw) ∧ t.pending = s.pending

/-- RESET_INPUT and RESET_INPUT_RELEASE, from every state: a WARM reset keeps the counters, and the part stays at its reset
values until the input is released (R211). -/
def Obligations.WarmReset : Prop :=
  ∀ s : State,
    (∃ t, exec .resetInput s = .next t ∧ FreshlyReset t ∧ CountersKept s t ∧ Loaded s t ∧ t.resetHeld = true ∧
      (∀ i, (t.input i).raw = (s.input i).raw) ∧ t.pending = s.pending) ∧
    exec .resetInputRelease s = .next { s with resetHeld := false }

/-- RESTART (R211, R204): refused with AUTHORITY under LOCAL, with DISABLED where RESTART-ENABLE is clear; else the WARM reset
is taken, and the last command result is empty after it. -/
def Obligations.RestartJudged : Prop :=
  ∀ s : State, s.resetHeld = false → s.sp.selArmed = true →
    (s.sp.localAuthority = true → exec .restart s = .next (s.refusing 0x5F .authority)) ∧
    (s.sp.localAuthority = false → s.store.cfg.restartEnable = false →
      exec .restart s = .next (s.refusing 0x5F .disabled)) ∧
    (s.sp.localAuthority = false → s.store.cfg.restartEnable = true →
      ∃ t, exec .restart s = .next t ∧ FreshlyReset t ∧ CountersKept s t ∧ Loaded s t ∧ t.resetHeld = false ∧
        (∀ i, (t.input i).raw = (s.input i).raw) ∧ t.pending = s.pending)

/-- The end of an event: it writes the points and the retained area alone, every condition is then its level, ATTN follows the
alert list, the retained area holds what it keeps; where all of this held already, nothing changes. -/
def Obligations.EventEnd : Prop :=
  ∀ s : State, OnlyChanges [.points, .banks] s s.finish ∧ LevelLaw s.finish ∧ AttnLaw s.finish ∧ RetainedLaw s.finish ∧
    (AlertLaw s → AlertLaw s.finish) ∧ (LevelLaw s → AttnLaw s → RetainedLaw s → s.finish = s)

/-! ### What every step keeps -/

/-- Every step keeps the alert list exact: each point in UNACK or CLEARED-UNACK stands on it once and no other, and ATTN is
asserted while the list is not empty. -/
def Obligations.AlertListInvariant : Prop :=
  ∀ s t : State, AlertLaw s → AttnLaw s → step s = .next t → AlertLaw t ∧ AttnLaw t

/-- Every step keeps the condition of every point equal to its level, once equipment verification has ended. -/
def Obligations.LevelInvariant : Prop := ∀ s t : State, LevelLaw s → step s = .next t → LevelLaw t

/-- Every step keeps the latest good copy of the retained area equal to what the area keeps. -/
def Obligations.RetainedInvariant : Prop := ∀ s t : State, RetainedLaw s → step s = .next t → RetainedLaw t

/-- Every step keeps the laws of the records: what stands in a state of an engine, a sequencer, the rectifier group or a link
only, stands in that state only. And every step keeps the laws of the plant: the hold table is bounded with distinct IDs, the
counts of every section are those of the holds that cover it, and a CLOSE drive stands only where the breaker is OPEN, the
switch is commanded CLOSED and a hold earths. (A reset reads the table back from the retained area, which `RetainedInvariant`
keeps equal to it.) -/
def Obligations.RecordInvariant : Prop :=
  (∀ s t : State, RecordLaws s → step s = .next t → RecordLaws t) ∧
  ∀ s t : State, RetainedLaw s → PlantLaws s → step s = .next t → PlantLaws t

/-- The state after a POWER-ON reset of a part that was never programmed (log entry 1) obeys every law. -/
def Obligations.ResetObeysTheLaws : Prop :=
  AlertLaw State.reset ∧ AttnLaw State.reset ∧ LevelLaw State.reset ∧ RetainedLaw State.reset ∧ RecordLaws State.reset ∧
    PlantLaws State.reset ∧ FreshlyReset State.reset

/-- No command but a reset changes the fitted flags in use. -/
def Obligations.FittedOnlyAtReset : Prop :=
  ∀ (c : Instr) (s t : State), touchesReset c = false → exec c s = .next t →
    t.store.cfg.fitted = s.store.cfg.fitted

/-- Station time and TIME-NOT-SET are written by the tick, SET TIME and resets alone. -/
def Obligations.ClockOnlyByClockCommands : Prop :=
  ∀ (c : Instr) (s t : State), touchesReset c = false → touchesClock c = false → exec c s = .next t →
    t.au.time = s.au.time ∧ t.au.timeNotSet = s.au.timeNotSet

/-! ### Frames and messages as bytes -/

/-- The bytes of every well-formed command of the port, with any surplus bytes behind them, carry that command; released before
they are complete, wherever after the code, the frame is broken. -/
def Obligations.FrameRoundTrip : Prop :=
  ∀ (c : Instr) (bytes surplus : List Byte), c.wf = true → frameOfCommand c = some bytes →
    ((c = .emptyFrame → surplus = []) → commandOfFrame (bytes ++ surplus) = c) ∧
    ∀ n, 0 < n → n < bytes.length → commandOfFrame (bytes.take n) = .brokenFrame

/-- The bytes of every link message with valid fields make its event; with any other check code they are discarded. -/
def Obligations.MessageRoundTrip : Prop :=
  ∀ (p : Port) (station : Byte) (body : MsgBody), fieldsValid body = true →
    eventOfBytes p (messageBytes station body) = eventOfMessage p station body ∧
    ∀ check : Half, check ≠ checkCode (kindOfBody body :: station :: messageFields body) →
      eventOfBytes p (kindOfBody body :: station :: messageFields body ++ halfOperand check) = .discardedMessage p

/-- Frames and messages written out from the tables of 11.1 and 11.3 (a BEACON, an INTERTRIP, an ASK, and an ASK whose check
code is wrong), and the check code of the nine digits. -/
def Obligations.WrittenOutFrames : Prop :=
  commandOfFrame [0x01] = .readStatus ∧
  commandOfFrame [0x0D, 0x01, 0x80, 0x40] = .readStaging 384 64 ∧
  commandOfFrame [0x20, 0x03, 0x01] = .select 3 1 ∧
  commandOfFrame [0x30, 0x02, 0x12, 0x34, 0x02, 0x00, 0x05, 0x00, 0x3C] = .placeHold 2 0x1234 2 [0, 5] 60 ∧
  commandOfFrame [0x42, 0x00, 0x00, 0x00, 0x01, 0x00, 0x02] = .setTime 0x10002 ∧
  commandOfFrame [0x50, 0x00, 0x10, 0x02, 0xAB, 0xCD] = .writeStaging 16 2 [0xAB, 0xCD] ∧
  commandOfFrame [0x5F] = .restart ∧ commandOfFrame [] = .emptyFrame ∧ commandOfFrame [0x02] = .unknownCommand 2 ∧
  commandOfFrame [0x20, 0x03] = .brokenFrame ∧
  checkCode [0x31, 0x32, 0x33, 0x34, 0x35, 0x36, 0x37, 0x38, 0x39] = 0x29B1 ∧
  (∀ p, eventOfBytes p [0x01, 0x07, 0x01, 0x15, 0x01, 0x01, 0x01, 0x98, 0x7D] =
    .beacon p 7 [{ line := 21, closed := false, feederClass := .reclosing }] true) ∧
  (∀ p, eventOfBytes p [0x02, 0x07, 0x15, 0x01, 0x00, 0x9F] = .intertrip p 7 21 .backup) ∧
  (∀ p, eventOfBytes p [0x03, 0x07, 0x2B, 0x15, 0x02, 0x04, 0x00] = .ask p 7 43 21 .noreclose) ∧
  (∀ p, eventOfBytes p [0x03, 0x07, 0x2B, 0x15, 0x02, 0x04, 0x01] = .discardedMessage p)

/-! ### The station port: frames and reads -/

/-- SEL_ARMING, EMPTY_FRAME and UNKNOWN_COMMAND: the port is armed by the release of SEL, an empty frame is ignored, a code the
port does not know is refused with BAD-COMMAND. Until it is armed the port opens no frame: no frame of any command changes
anything (nor counts as broken). -/
def Obligations.PortArming : Prop :=
  ∀ s : State, s.resetHeld = false →
    exec .selArming s = .next { s with sp := { s.sp with selArmed := true, frame := none } } ∧
    (s.sp.selArmed = true →
      exec .emptyFrame s = .next { s with sp := { s.sp with frame := none } } ∧
      ∀ code, exec (.unknownCommand code) s = .next (s.refusing code .badCommand)) ∧
    (s.sp.selArmed = false → Quiet s → LevelLaw s → AttnLaw s → RetainedLaw s →
      ∀ c : Instr, c = .brokenFrame ∨ (frameOfCommand c).isSome → exec c s = .next s)

/-- BROKEN_FRAME: the frame is lost, the frame error count rises to 65,535 at most, point 64 pulses, and the last command result
stays. WRITE_STAGING with too few data is such a frame. -/
def Obligations.BrokenFrame : Prop :=
  ∀ s : State, PortReady s →
    let broken := { s with sp := { s.sp with frame := none, frameErrors := min 65535 (s.sp.frameErrors + 1) } }
    s.sp.frameErrors ≤ 65535 →
    exec .brokenFrame s = .next (broken.pulse 64).finish ∧
    ∀ offset count data, 1 ≤ count.toNat → count.toNat ≤ 64 → data.length < count.toNat →
      exec (.writeStaging offset count data) s = .next (broken.pulse 64).finish

/-- Every read answers with its record, or refuses an operand outside its set, and changes nothing but the frame that carries
the answer: READ STATUS, FEEDER, TRIP RECORD, SECTION, HOLD, RECTIFIER, ALERTS, POINT, LINK, SETTINGS STATUS, STAGING, TIME and
LIST HOLDS. Data out carries 0 while the code and operand bytes are shifted in, then the response, and 0 beyond it. -/
def Obligations.ReadsAnswer : Prop :=
  ∀ s : State, s.resetHeld = false → s.sp.selArmed = true →
    exec .readStatus s = .next (s.showing 0x01 0 s.statusBytes) ∧
    (∀ (b : Byte) (k : FeederNo), b.toNat = k.val →
      exec (.readFeeder b) s = .next (s.showing 0x03 1 (0 ::
        (engineBytes (s.engine k) ++ s.sequencerBytes k ++ channelBytes (s.channel (chIF k))))) ∧
      exec (.readTripRecord b 0) s =
        .next (s.showing 0x04 2 (0 :: optField 30 ((s.seq k).first.map tripBytes))) ∧
      exec (.readTripRecord b 1) s =
        .next (s.showing 0x04 2 (0 :: optField 30 ((s.seq k).last.map tripBytes))) ∧
      ∀ choice : Byte, 2 ≤ choice.toNat → exec (.readTripRecord b choice) s = .next (s.showing 0x04 2 [0x02])) ∧
    (∀ b : Byte, 6 ≤ b.toNat → exec (.readFeeder b) s = .next (s.showing 0x03 1 [0x02]) ∧
      ∀ choice, exec (.readTripRecord b choice) s = .next (s.showing 0x04 2 [0x02])) ∧
    (∀ (b : Byte) (n : SectionNo), b.toNat = n.val →
      exec (.readSection b) s = .next (s.showing 0x05 1 (0 :: s.sectionBytes n))) ∧
    (∀ b : Byte, 7 ≤ b.toNat → exec (.readSection b) s = .next (s.showing 0x05 1 [0x02])) ∧
    (∀ (id : Byte) (h : Hold), s.hold id = some h →
      exec (.readHold id) s = .next (s.showing 0x06 1 (0 :: holdBytes h))) ∧
    (∀ id : Byte, s.hold id = none → exec (.readHold id) s = .next (s.showing 0x06 1 [0x0B])) ∧
    exec .listHolds s = .next (s.showing 0x07 0 (0 :: s.holdListBytes)) ∧
    exec .readRectifier s = .next (s.showing 0x08 0 (0 :: s.rectifierBytes)) ∧
    exec .readAlerts s = .next (s.showing 0x09 0 (0 :: s.alertListBytes)) ∧
    (∀ (b : Byte) (p : PointNo), b.toNat = p.val →
      exec (.readPoint b) s = .next (s.showing 0x0A 1 (0 :: s.pointBytes p))) ∧
    (∀ b : Byte, 79 ≤ b.toNat → exec (.readPoint b) s = .next (s.showing 0x0A 1 [0x02])) ∧
    exec (.readLink 0) s = .next (s.showing 0x0B 1 (0 :: s.linkBytes .a)) ∧
    exec (.readLink 1) s = .next (s.showing 0x0B 1 (0 :: s.linkBytes .b)) ∧
    (∀ b : Byte, 2 ≤ b.toNat → exec (.readLink b) s = .next (s.showing 0x0B 1 [0x02])) ∧
    exec .readSettingsStatus s = .next (s.showing 0x0C 0 (0 :: s.settingsBytes)) ∧
    (∀ (o : Half) (l : Byte), 1 ≤ l.toNat → l.toNat ≤ 64 → o.toNat + l.toNat ≤ 512 →
      exec (.readStaging o l) s = .next (s.showing 0x0D 3 (0 :: (s.store.staging.toList.drop o.toNat).take l.toNat))) ∧
    (∀ (o : Half) (l : Byte), l.toNat = 0 ∨ 64 < l.toNat ∨ 512 < o.toNat + l.toNat →
      exec (.readStaging o l) s = .next (s.showing 0x0D 3 [0x02])) ∧
    exec .readTime s = .next (s.showing 0x0E 0 (0 :: (bytesOfNat 6 s.au.time.toNat ++ [if s.au.timeNotSet then 1 else 0]))) ∧
    ∀ (code : Byte) (operands : Nat) (response : List Byte) (n : Nat),
      (s.showing code operands response).dataOut n = if n ≤ operands then 0 else response.getD (n - operands - 1) 0

/-- The status summary is 25 bytes long in every state, and its fields stand at the offsets of 11.1. -/
def Obligations.StatusSummaryLayout : Prop :=
  ∀ s : State, s.statusBytes.length = 25 ∧
    s.statusBytes[0]? = some 0 ∧
    s.statusBytes[2]? = some (if s.sp.localAuthority then 0 else 1) ∧
    s.statusBytes[4]? = some (rectStateByte s.rect.state) ∧
    s.statusBytes[5]? = some (linkStateByte s.linkA.state) ∧ s.statusBytes[6]? = some (linkStateByte s.linkB.state) ∧
    s.statusBytes[7]? = some (BitVec.ofNat 8 s.au.alerts.length) ∧
    (∀ p l, s.au.alerts = p :: l → s.statusBytes[8]? = some (BitVec.ofNat 8 p.val)) ∧
    (s.au.alerts = [] → s.statusBytes[8]? = some 0xFF) ∧
    s.statusBytes[9]? = some (BitVec.ofNat 8 s.ht.holds.length) ∧
    s.statusBytes[10]? = some (BitVec.ofNat 8 s.store.active.val) ∧
    ((∀ k, s.seqIn k .lockout = false ∧ s.seqIn k .breakerFault = false) → s.statusBytes[12]? = some 0xFF) ∧
    (∀ k : FeederNo, (s.seqIn k .lockout || s.seqIn k .breakerFault) = true →
      (∀ j : FeederNo, j.val < k.val → s.seqIn j .lockout = false ∧ s.seqIn j .breakerFault = false) →
      s.statusBytes[12]? = some (BitVec.ofNat 8 k.val)) ∧
    natOfBytes ((s.statusBytes.drop 13).take 6) = s.au.time.toNat ∧
    (s.sp.frameErrors ≤ 65535 → natOfBytes ((s.statusBytes.drop 19).take 2) = s.sp.frameErrors) ∧
    (∀ r, s.sp.lastResult = some r → s.statusBytes[21]? = some r.code ∧ s.statusBytes[22]? = some (outcomeByte r.result) ∧
      (r.value ≤ 65535 → natOfBytes (s.statusBytes.drop 23) = r.value)) ∧
    (s.sp.lastResult = none → s.statusBytes.drop 21 = [0, 0, 0, 0])

/-! ### The station port: switching -/

/-- SELECT and the expiry of the selection timer; CANCEL_SELECTION, taken under either authority. -/
def Obligations.SelectJudged : Prop :=
  ∀ (s : State) (t a : Byte), s.resetHeld = false → s.sp.selArmed = true → s.verification = none →
    let accepted := fun (target : Target) (action : SwitchAction) =>
      { s with
        sp := { s.sp with
                frame := none, lastResult := some { code := 0x20, result := .accepted, value := t.toNat },
                selection := some { target := target, action := action }, selectionTimer := some 10000 } }
    let refused := fun reason => s.resulting 0x20 (.refused reason) t.toNat
    (s.sp.localAuthority = true → exec (.select t a) s = .next (refused .authority)) ∧
    (s.sp.localAuthority = false →
      (6 < t.toNat ∨ (t.toNat < 6 ∧ 1 < a.toNat) ∨ (t.toNat = 6 ∧ (a.toNat < 2 ∨ 4 < a.toNat)) →
        exec (.select t a) s = .next (refused .badOperand)) ∧
      (∀ k : FeederNo, t.toNat = k.val → a.toNat ≤ 1 → s.fitted k = false →
        exec (.select t a) s = .next (refused .notFitted)) ∧
      (∀ k : FeederNo, t.toNat = k.val → s.fitted k = true →
        (a.toNat = 0 → exec (.select t a) s = .next (accepted (.feeder k) .opened)) ∧
        (a.toNat = 1 → exec (.select t a) s = .next (accepted (.feeder k) .close))) ∧
      (t.toNat = 6 →
        (a.toNat = 2 → exec (.select t a) s = .next (accepted .rectifier .start)) ∧
        (a.toNat = 3 → exec (.select t a) s = .next (accepted .rectifier .stop)) ∧
        (a.toNat = 4 → exec (.select t a) s = .next (accepted .rectifier .standby)))) ∧
    (s.sp.selectionTimer.isSome →
      exec .selectionTimerExpiry s = .next { s with sp := { s.sp with selection := none, selectionTimer := none } }) ∧
    exec .cancelSelection s =
      .next { s with
              sp := { s.sp with
                      frame := none, lastResult := some { code := 0x22, result := .accepted, value := 0 },
                      selection := none, selectionTimer := none } }

/-- The commands that are refused with BUSY until equipment verification has ended. -/
def Obligations.BusyUntilVerified : Prop :=
  ∀ s : State, PortReady s → s.verification.isSome →
    (∀ t a, exec (.select t a) s = .next (s.resulting 0x20 (.refused .busy) t.toNat)) ∧
    (∀ t a, exec (.operate t a) s = .next (s.resulting 0x21 (.refused .busy) t.toNat).finish) ∧
    (∀ k, exec (.resetLockout k) s = .next (s.resulting 0x23 (.refused .busy) k.toNat).finish) ∧
    (∀ k, exec (.clearTripRecords k) s = .next (s.resulting 0x24 (.refused .busy) k.toNat)) ∧
    (∀ kind tag count l d, 1 ≤ count.toNat → count.toNat ≤ 7 → l.length = count.toNat →
      exec (.placeHold kind tag count l d) s = .next (s.refusing 0x30 .busy).finish) ∧
    (∀ id tag, exec (.releaseHold id tag) s = .next (s.refusing 0x31 .busy).finish) ∧
    (∀ id tag d, exec (.extendHold id tag d) s = .next (s.refusing 0x32 .busy).finish) ∧
    (∀ id tag, exec (.dismissHold id tag) s = .next (s.refusing 0x33 .busy).finish) ∧
    (∀ id, exec (.forceRelease id) s = .next (s.refusing 0x34 .busy).finish)

/-- OPERATE: refused with AUTHORITY under LOCAL with the selection kept; refused with NOT-SELECTED where the selection differs;
a matching OPERATE uses the selection, hands the action to the target's rule and records what it answers: STOP on a group that is
OFF; OPEN on a feeder in each of its states (R44, R45, R62), where a trip whose breaker is already OPEN is confirmed at once; and
CLOSE refused and taken (R63), with the line test and without it (R59). -/
def Obligations.OperateJudged : Prop :=
  ∀ (s : State) (t a : Byte) (target : Target) (action : SwitchAction), PortOpen s →
    targetOperand t = some target → actionOperand a = some action →
    let used := { s with sp := { s.sp with selection := none, selectionTimer := none } }
    (s.sp.localAuthority = true → exec (.operate t a) s = .next (s.resulting 0x21 (.refused .authority) t.toNat).finish) ∧
    (s.sp.localAuthority = false → s.sp.selection ≠ some { target := target, action := action } →
      exec (.operate t a) s = .next (used.resulting 0x21 (.refused .notSelected) t.toNat).finish) ∧
    (s.sp.localAuthority = false → s.sp.selection = some { target := target, action := action } →
      (target = .rectifier → action = .stop → s.rect.state = .off →
        exec (.operate t a) s = .next (used.resulting 0x21 .accepted 6).finish) ∧
      ∀ k, target = .feeder k →
        let refused := fun reason => exec (.operate t a) s = .next (used.resulting 0x21 (.refused reason) k.val).finish
        let takes := fun f : Sequencer → Sequencer =>
          exec (.operate t a) s = .next ((used.resulting 0x21 .accepted k.val).entering k f).finish
        let q := (s.seq k).state
        let tripping := fun (pulse : Option Nat) (r : Sequencer) => r.tripped (s.demandRecord k .command) pulse
        (action = .opened →
          (q = some .opened ∨ q = some .lockout →
            (s.breakerPos k = some .opened → refused .state) ∧
            (s.breakerPos k ≠ some .opened →
              exec (.operate t a) s =
                .next ((used.resulting 0x21 .accepted k.val).modSeq k fun r =>
                  { r with closeCoil := false, closeTimer := none,
                           openPulse := some (r.openPulse.getD s.store.cfg.tOpenMax) }).finish)) ∧
          (q = some .notFitted → refused .notFitted) ∧
          (q = some .tripping ∨ q = some .breakerFault → refused .state) ∧
          (FeederQuiet s k → q = some .deadTime ∨ q = some .lineTest →
            takes fun r => { r.bare .opened with attempts := 0 }) ∧
          (FeederQuiet s k → q = some .inService ∨ q = some .closing →
            (s.breakerPos k ≠ some .opened →
              takes fun r => tripping (some (r.openPulse.getD s.store.cfg.tOpenMax)) r) ∧
            (s.breakerPos k = some .opened →
              takes fun r => (tripping none r).confirmed (s.reclose k) .opened))) ∧
        (action = .close →
          let bus := (s.channel chUB).value
          let line := (s.channel (chUL k)).value
          let ready := q = some .opened ∧ s.breakerPos k = some .opened ∧ (s.sec (sectionOf k)).bars.barred = false
          let measured := (s.channel (chIF k)).state ≠ .failed ∧ (s.channel (chUL k)).state ≠ .failed ∧
            (s.channel chUB).state ≠ .failed ∧ ((s.reclose k).uBusmin : Int) ≤ bus
          (q = some .notFitted → refused .notFitted) ∧
          (q ≠ some .notFitted → q ≠ some .opened ∨ s.breakerPos k ≠ some .opened → refused .state) ∧
          (q = some .opened → s.breakerPos k = some .opened → (s.sec (sectionOf k)).bars.barred = true →
            refused .interlock) ∧
          (ready → ¬ measured → refused .interlock) ∧
          (FeederQuiet s k → s.rect.state ≠ .standby → ready → measured →
            (line < bus * 4 / 5 →
              takes fun r =>
                { r.bare .lineTest with
                  attempts := 0, closeKind := some .manual, testContactor := true,
                  testTimer := some ((s.reclose k).tTest * 10) }) ∧
            (bus * 4 / 5 ≤ line →
              takes fun r =>
                { r.bare .closing with
                  attempts := 0, closeKind := some .manual, closeCoil := true,
                  closeTimer := some s.store.cfg.tCloseMax }))))

/-- START, STOP and STANDBY of the rectifier group by OPERATE: the start interlocks item by item (R76) and the refusals, then, with
nothing waiting, what each leaves in the rectifier record (R76, R77, R81, R82). -/
def Obligations.OperateRectifier : Prop :=
  ∀ (s : State) (action : SwitchAction), PortOpen s → s.sp.localAuthority = false →
    s.sp.selection = some { target := .rectifier, action := action } →
    let used := { s with sp := { s.sp with selection := none, selectionTimer := none } }
    let refused := fun (code : Byte) reason =>
      exec (.operate 6 code) s = .next (used.resulting 0x21 (.refused reason) 6).finish
    let becomes := fun (code : Byte) (r : Rectifier) =>
      exec (.operate 6 code) s = .next (State.deriveBusFeed { used.resulting 0x21 .accepted 6 with rect := r }).finish
    let tt := s.channel chTT
    let interlocked := s.store.configFault = true ∨ s.acPos ≠ some .closed ∨ (s.sec busSection).isolate ≠ 0 ∨
      (s.channel chUB).state = .failed ∨ (s.channel chIB1).state = .failed ∨ (s.channel chIB2).state = .failed ∨
      s.backupLatch = true ∨ s.sp.emergency = true ∨ (tt.state ≠ .failed ∧ (s.rect.settings.tTrip : Int) ≤ tt.value)
    let warm := tt.state = .failed ∨ (s.rect.settings.tWarn : Int) ≤ tt.value
    let resting := fun q : RectState =>
      { s.rect with
        state := q, cause := none, tripTime := none, ramp := none, syncCount := none, syncTimer := none,
        wakeTimer := none, alpha := (s.store.cfg.alphaMax : Int), busFault := 0, pulses := [],
        bridge1 := { s.rect.bridge1 with low := 0 }, bridge2 := { s.rect.bridge2 with low := 0 } }
    (action = .start →
      (s.rect.state ≠ .off → s.rect.state ≠ .tripped → refused 2 .state) ∧
      (s.rect.state = .off ∨ s.rect.state = .tripped → interlocked → refused 2 .interlock) ∧
      (s.rect.state = .tripped → s.rect.cause = some .temp → warm → refused 2 .interlock) ∧
      (NothingWaits s → ¬ interlocked →
        s.rect.state = .off ∨ (s.rect.state = .tripped ∧ ¬ (s.rect.cause = some .temp ∧ warm)) →
        becomes 2
          { resting .syncing with
            degraded := false, bridge1 := { s.rect.bridge1 with lost := false, low := 0 },
            bridge2 := { s.rect.bridge2 with lost := false, low := 0 }, syncCount := some 0, syncTimer := some 2000 })) ∧
    (action = .stop → NothingWaits s → s.rect.state ≠ .off → becomes 3 (resting .off)) ∧
    (action = .standby →
      (s.rect.state ≠ .regulating → refused 4 .state) ∧
      (s.rect.state = .regulating →
        (∃ k, (s.seq k).state = some .closing ∨ (s.seq k).state = some .lineTest ∨ (s.seq k).wait = some .bus) →
        refused 4 .interlock) ∧
      (s.rect.state = .regulating → NothingWaits s →
        (∀ k, (s.seq k).state ≠ some .closing ∧ (s.seq k).state ≠ some .lineTest) → becomes 4 (resting .standby)))

/-- RESET_LOCKOUT: LOCKOUT goes to OPEN, and so does BREAKER-FAULT with the breaker OPEN; the attempt count becomes 0, the trip
cause and a running open pulse are kept, and the backup latch clears when no other feeder stands in BREAKER-FAULT with
OPEN-FAILED. In every other state it is refused. -/
def Obligations.ResetLockout : Prop :=
  ∀ (s : State) (b : Byte) (k : FeederNo), PortOpen s → b.toNat = k.val →
    ((s.seq k).state = some .lockout ∨ ((s.seq k).state = some .breakerFault ∧ s.breakerPos k = some .opened) →
      s.securingOver k = [] →
      exec (.resetLockout b) s =
        .next (State.deriveBars (sectionOf k)
          { (s.resulting 0x23 .accepted k.val).modSeq k fun r =>
              { r with
                state := some .opened, attempts := 0, override := none, inReclaim := none, closeKind := none, wait := none,
                holdOpenPending := false, failure := none, deadTimer := none, testTimer := none, reclaimTimer := none,
                closeCoil := false, closeTimer := none, testContactor := false } with
            backupLatch := s.backupLatch && allFeeders.any fun j =>
              decide (j ≠ k) && s.seqIn j .breakerFault && (s.seq j).failure == some .openFailed }).finish) ∧
    ((s.seq k).state = some .notFitted → exec (.resetLockout b) s =
      .next (s.resulting 0x23 (.refused .notFitted) k.val).finish) ∧
    ((s.seq k).state = some .breakerFault → s.breakerPos k ≠ some .opened →
      exec (.resetLockout b) s = .next (s.resulting 0x23 (.refused .state) k.val).finish) ∧
    (∀ q, (s.seq k).state = some q → q ≠ .lockout → q ≠ .breakerFault → q ≠ .notFitted →
      exec (.resetLockout b) s = .next (s.resulting 0x23 (.refused .state) k.val).finish) ∧
    ∀ c : Byte, 6 ≤ c.toNat → exec (.resetLockout c) s = .next (s.resulting 0x23 (.refused .badOperand) c.toNat).finish

/-- CLEAR_TRIP_RECORDS: of one fitted feeder, of all feeders; the trip counters stay. -/
def Obligations.ClearTripRecords : Prop :=
  ∀ (s : State) (b : Byte), s.resetHeld = false → s.sp.selArmed = true → s.verification = none →
    (∀ k : FeederNo, b.toNat = k.val →
      (s.fitted k = true → exec (.clearTripRecords b) s =
        .next ((s.resulting 0x24 .accepted k.val).modSeq k fun r => { r with first := none, last := none })) ∧
      (s.fitted k = false → exec (.clearTripRecords b) s = .next (s.resulting 0x24 (.refused .notFitted) k.val))) ∧
    (6 ≤ b.toNat → b ≠ 255 → exec (.clearTripRecords b) s = .next (s.resulting 0x24 (.refused .badOperand) b.toNat)) ∧
    ∃ v, exec (.clearTripRecords 255) s = .next { s.resulting 0x24 .accepted 255 with seqs := v } ∧
      ∀ k, v.get k = { s.seq k with first := none, last := none }


/-! ### Holds by command -/

/-- R113: the ID of a placement is the first that no record holds, from the last assigned ID on, and the search ends within 25
steps; it becomes the last assigned ID. A placement that is refused, whoever asks for it, draws none. -/
def Obligations.HoldIdDrawn : Prop :=
  (∀ (s : State) (kind : HoldKind) (origin : Origin) (tag : Half) (sections : List SectionNo) (duration : Option Nat),
    s.ht.holds.length ≤ 24 →
    let placed := s.placeHold kind origin tag sections duration
    (∃ n, n < 25 ∧ placed.2 = Nat.repeat nextId (n + 1) s.ht.lastId ∧ s.hold placed.2 = none ∧
      ∀ m, m < n → (s.hold (Nat.repeat nextId (m + 1) s.ht.lastId)).isSome) ∧
    placed.1.ht.lastId = placed.2 ∧ ∃ h, placed.1.ht.holds = s.ht.holds ++ [h] ∧ h.id = placed.2) ∧
  (∀ id : Byte, nextId id = if id.toNat = 255 then 1 else id + 1) ∧
  (∀ (s : State) (p : Placement) (tag : Half), (s.commandPlace p tag).result ≠ .accepted →
    (s.commandPlace p tag).state = s) ∧
  (∀ (s : State) (n : KeyNo) (kind : HoldKind), s.placementRefusal [keySection n] false ≠ none →
    (s.keyPlaces n kind).ht.lastId = s.ht.lastId ∧ (s.keyPlaces n kind).ht.holds = s.ht.holds) ∧
  (∀ (s : State) (p : Port) (id line : Byte) (kind : HoldKind) (reason : DenyReason), s.peerAnswer p line = .inl reason →
    (s.placePeer p id line kind).ht = s.ht) ∧
  ∀ (s : State) (kind : HoldKind) (origin : Origin) (tag : Half) (sections : List SectionNo) (duration : Option Nat),
    s.ht.lastId = 41 → (∀ id : Byte, (s.hold id).isSome ↔ id = 42 ∨ id = 44) →
    (s.placeHold kind origin tag sections duration).2 = 43 ∧
    ∀ t : State, t.ht.lastId = 43 → (∀ id : Byte, (t.hold id).isSome ↔ id = 42 ∨ id = 43 ∨ id = 44) →
      (t.placeHold kind origin tag sections duration).2 = 45

/-- PLACE_HOLD refused: each item of the list of R115 in its order, with the items before it not met. -/
def Obligations.PlaceHoldRefused : Prop :=
  ∀ (s : State) (kind : Byte) (tag : Half) (count : Byte) (duration : Half), PortOpen s →
    (count.toNat = 0 ∨ 7 < count.toNat →
      exec (.placeHold kind tag count [] 0) s = .next (s.refusing 0x30 .badOperand).finish) ∧
    (∀ l : List Byte, 1 ≤ count.toNat → count.toNat ≤ 7 → l.length = count.toNat →
      tag = 0 ∨ 2 < kind.toNat ∨ (∃ b ∈ l, 6 < b.toNat) ∨ ¬ l.Pairwise (fun a b => a.toNat < b.toNat) ∨
        (kind = 2 ∧ (duration = 0 ∨ 720 < duration.toNat)) ∨ (kind ≠ 2 ∧ duration ≠ 0) →
      exec (.placeHold kind tag count l duration) s = .next (s.refusing 0x30 .badOperand).finish) ∧
    ∀ sections : List SectionNo, 1 ≤ count.toNat → count.toNat ≤ 7 → sections.length = count.toNat →
      sections.Pairwise (fun a b => a.val < b.val) → tag ≠ 0 →
      (kind = 0 ∨ kind = 1) ∧ duration = 0 ∨ kind = 2 ∧ 1 ≤ duration.toNat ∧ duration.toNat ≤ 720 →
      let l := sections.map fun n => BitVec.ofNat 8 n.val
      let unfitted := ∃ k : FeederNo, sectionOf k ∈ sections ∧ s.fitted k = false
      let twice := s.sharesTwice sections
      let faulty := fun k : FeederNo => s.covers sections k = true ∧ (s.seq k).state = some .breakerFault ∧
        s.breakerPos k ≠ some .opened
      (unfitted → exec (.placeHold kind tag count l duration) s = .next (s.refusing 0x30 .notFitted).finish) ∧
      (¬ unfitted → (kind ≠ 0 ∧ busSection ∈ sections) ∨ twice = true →
        exec (.placeHold kind tag count l duration) s = .next (s.refusing 0x30 .badSection).finish) ∧
      (¬ unfitted → (kind = 0 ∨ busSection ∉ sections) → twice = false → 24 ≤ s.ht.holds.length →
        exec (.placeHold kind tag count l duration) s = .next (s.refusing 0x30 .full).finish) ∧
      (¬ unfitted → (kind = 0 ∨ busSection ∉ sections) → twice = false → s.ht.holds.length < 24 →
        ∀ k, faulty k → (∀ j, j.val < k.val → ¬ faulty j) →
        exec (.placeHold kind tag count l duration) s =
          .next (s.resulting 0x30 (.refused .interlock) k.val).finish)

/-- PLACE_HOLD taken: NORECLOSE on an unshared section whose feeder is in service is placed in SECURING with its record handed to the
Settings Store, and is ACTIVE at once, with a minute timer (R116, R119). -/
def Obligations.PlaceNoreclose : Prop :=
  ∀ (s : State) (k : FeederNo) (tag duration : Half), PortOpen s → tag ≠ 0 → 1 ≤ duration.toNat → duration.toNat ≤ 720 →
    s.fitted k = true → s.share k = none → (s.seq k).state = some .inService → s.ht.holds.length < 24 →
    let id := drawId s.ht.holds s.ht.lastId
    let placed : Hold :=
      { id := id, kind := .noreclose, origin := .station, tag := tag, sections := [sectionOf k], state := .securing,
        remaining := some duration.toNat, asks := [], purpose := none, phase := none, unearth := [], failure := none,
        placed := s.stamp,
        timers := { securing := some 30000, provingWait := none, provingLimit := none, earthing := none, drop := none,
                    retire := none, minute := some 60000 } }
    exec (.placeHold 2 tag 1 [BitVec.ofNat 8 k.val] duration) s =
      .next ((State.deriveBars (sectionOf k) (State.modSec (sectionOf k) (fun r => { r with noreclose := r.noreclose + 1 })
        ((s.resulting 0x30 .accepted id.toNat).handTable (s.ht.holds ++ [placed]) id))).modHold id fun x =>
          { x with
            state := .active
            timers := { securing := none, provingWait := none, provingLimit := none, earthing := none, drop := none,
                        retire := none, minute := some 60000 } }).finish

/-- RELEASE_HOLD, EXTEND_HOLD, DISMISS_HOLD and FORCE_RELEASE refused. -/
def Obligations.HoldCommandsRefused : Prop :=
  ∀ (s : State) (id : Byte) (tag duration : Half), PortOpen s →
    (id = 0 ∨ tag = 0 →
      exec (.releaseHold id tag) s = .next (s.refusing 0x31 .badOperand).finish ∧
      exec (.extendHold id tag duration) s = .next (s.refusing 0x32 .badOperand).finish ∧
      exec (.dismissHold id tag) s = .next (s.refusing 0x33 .badOperand).finish) ∧
    (duration.toNat = 0 ∨ 720 < duration.toNat →
      exec (.extendHold id tag duration) s = .next (s.refusing 0x32 .badOperand).finish) ∧
    (s.sp.supervisorKey = false → exec (.forceRelease id) s = .next (s.refusing 0x34 .authority).finish) ∧
    (s.sp.supervisorKey = true →
      (id = 0 → exec (.forceRelease id) s = .next (s.refusing 0x34 .badOperand).finish) ∧
      (id ≠ 0 → s.hold id = none → exec (.forceRelease id) s = .next (s.refusing 0x34 .notFound).finish) ∧
      ∀ h, id ≠ 0 → s.hold id = some h → h.state = .releasing →
        exec (.forceRelease id) s = .next (s.refusing 0x34 .state).finish) ∧
    (id ≠ 0 → tag ≠ 0 → 1 ≤ duration.toNat → duration.toNat ≤ 720 →
      (s.hold id = none →
        exec (.releaseHold id tag) s = .next (s.refusing 0x31 .notFound).finish ∧
        exec (.extendHold id tag duration) s = .next (s.refusing 0x32 .notFound).finish ∧
        exec (.dismissHold id tag) s = .next (s.refusing 0x33 .notFound).finish) ∧
      ∀ h, s.hold id = some h →
        (h.origin ≠ .station ∨ h.tag ≠ tag →
          exec (.releaseHold id tag) s = .next (s.refusing 0x31 .notHolder).finish ∧
          exec (.extendHold id tag duration) s = .next (s.refusing 0x32 .notHolder).finish ∧
          exec (.dismissHold id tag) s = .next (s.refusing 0x33 .notHolder).finish) ∧
        (h.origin = .station → h.tag = tag →
          (h.state = .failed ∨ h.state = .releasing →
            exec (.releaseHold id tag) s = .next (s.refusing 0x31 .state).finish) ∧
          (h.kind ≠ .noreclose ∨ (h.state ≠ .securing ∧ h.state ≠ .active) →
            exec (.extendHold id tag duration) s = .next (s.refusing 0x32 .state).finish) ∧
          (h.state ≠ .failed → exec (.dismissHold id tag) s = .next (s.refusing 0x33 .state).finish)))

/-- PLACE_HOLD of an ISOLATE or EARTH hold on one line section taken: the counts, the hold demand to a feeder in service, the ask to a
link that is UP, SECURING, and PROVING at once where nothing is left to secure (R101, R102, R116, R119, R124). EXTEND_HOLD,
DISMISS_HOLD, RELEASE_HOLD and FORCE_RELEASE taken: a longer time; a FAILED record retired, which counts on no section; a hold on one
unshared section released, which ends there and then, or, where its earth switch is commanded CLOSED for it alone, first commands the
switch OPEN; a DROP to the neighbour that has granted (R130 to R136, R139). -/
def Obligations.HoldCommandsTaken : Prop :=
  (∀ (s : State) (k : FeederNo) (tag : Half) (code : Byte) (kind : HoldKind), PortOpen s → tag ≠ 0 →
    (code = 0 ∧ kind = .isolate) ∨ (code = 1 ∧ kind = .earth) → s.fitted k = true → s.ht.holds.length < 24 →
    s.isolated k = false → s.securingOver k = [] → (s.channel (chUL k)).state ≠ .failed →
    let id := drawId s.ht.holds s.ht.lastId
    let placed := fun asks : List PeerAsk =>
      { id := id, kind := kind, origin := .station, tag := tag, sections := [sectionOf k], state := .securing,
        remaining := none, asks := asks, purpose := none, phase := none, unearth := [], failure := none,
        placed := s.stamp,
        timers := { securing := some 30000, provingWait := none, provingLimit := none, earthing := none, drop := none,
                    retire := none, minute := none } : Hold }
    let counted := fun u : State => State.deriveBars (sectionOf k) (u.modSec (sectionOf k) fun r =>
      { r with isolate := r.isolate + 1, earth := if kind = .earth then r.earth + 1 else r.earth })
    let begun := fun asks : List PeerAsk =>
      (s.resulting 0x30 .accepted id.toNat).handTable (s.ht.holds ++ [placed asks]) id
    let goes := fun t : State => exec (.placeHold code tag 1 [BitVec.ofNat 8 k.val] 0) s = .next t.finish
    let opened := ((s.seq k).state = some .opened ∨ (s.seq k).state = some .lockout) ∧ s.breakerPos k = some .opened
    (opened → s.share k = none →
      goes ((counted (begun [])).modHold id fun x =>
        { x with
          state := .proving
          timers := { securing := none, provingWait := some 2000, provingLimit := some 10000, earthing := none, drop := none,
                      retire := none, minute := none } })) ∧
    (FeederQuiet s k → (s.seq k).state = some .inService → s.breakerPos k ≠ some .opened → s.share k = none →
      goes ((counted (begun [])).entering k fun r =>
        r.tripped (s.demandRecord k .hold) (some (r.openPulse.getD s.store.cfg.tOpenMax)))) ∧
    ∀ p line, opened → s.share k = some (p, line) →
      let ask := fun status : AskStatus =>
        { port := p, line := line, status := status, peerId := none, deny := none, awaiting := false : PeerAsk }
      ((s.link p).state = .up → goes (counted ((begun [ask .asked]).queueMessage p (.ask id line kind)))) ∧
      ((s.link p).state ≠ .up → goes (counted (begun [ask .none])))) ∧
  ∀ (s : State) (id : Byte) (tag : Half) (h : Hold), PortOpen s → id ≠ 0 → tag ≠ 0 → s.hold id = some h →
    let gone := fun u : State => u.modHolds fun l => l.filter fun x => x.id ≠ id
    let lowered := fun r : SectionRec => match h.kind with
      | .isolate => { r with isolate := r.isolate - 1 }
      | .earth => { r with isolate := r.isolate - 1, earth := r.earth - 1 }
      | .noreclose => { r with noreclose := r.noreclose - 1 }
    let released := fun (k : FeederNo) (u : State) =>
      State.deriveBars (sectionOf k) ((gone u).modSec (sectionOf k) lowered)
    let one := fun k : FeederNo => h.sections = [sectionOf k] ∧ (s.seq k).wait = none
    let standing := h.state = .securing ∨ h.state = .proving ∨ h.state = .earthing ∨ h.state = .active
    let unearthed := fun k : FeederNo =>
      h.kind = .earth → (s.sec (sectionOf k)).commandedClosed = false ∨ 2 ≤ (s.sec (sectionOf k)).earth
    (h.origin = .station → h.tag = tag →
      (∀ duration : Half, 1 ≤ duration.toNat → duration.toNat ≤ 720 → h.kind = .noreclose →
        h.state = .securing ∨ h.state = .active →
        exec (.extendHold id tag duration) s =
          .next ((s.resulting 0x32 .accepted id.toNat).modHold id fun x =>
            { x with remaining := some duration.toNat, timers := { x.timers with minute := some 60000 } }).finish) ∧
      (h.state = .failed →
        exec (.dismissHold id tag) s = .next ((gone (s.resulting 0x33 .accepted id.toNat)).unbind id).finish) ∧
      (∀ k, standing → one k → unearthed k → h.asks = [] →
        exec (.releaseHold id tag) s =
          .next ((released k (s.resulting 0x31 .accepted id.toNat)).unbind id).finish) ∧
      (∀ k, standing → one k → h.kind = .earth → (s.sec (sectionOf k)).earth = 1 →
        (s.sec (sectionOf k)).commandedClosed = true → s.earthPos k ≠ some .opened →
        exec (.releaseHold id tag) s =
          .next (State.deriveBars (sectionOf k) (((s.resulting 0x31 .accepted id.toNat).modHold id fun x =>
            { x with
              state := .releasing, purpose := some .retire, phase := some .earthOpen, unearth := [sectionOf k]
              timers := { securing := none, provingWait := none, provingLimit := none, earthing := none, drop := none,
                          retire := none, minute := none } }).modSec (sectionOf k) fun r =>
            { r with commandedClosed := false, drive := .opened, mismatchTimer := some 10000 })).finish) ∧
      (∀ k x, standing → one k → unearthed k → h.asks = [x] → x.status = .asked ∨ x.status = .granted →
        (s.link x.port).state = .up →
        exec (.releaseHold id tag) s =
          .next (((s.resulting 0x31 .accepted id.toNat).queueMessage x.port (.drop id)).modHold id fun y =>
            { y with
              state := .releasing, purpose := some .retire, phase := some .peerDrop, unearth := []
              asks := y.asks.map fun a =>
                if (a.status = .asked ∨ a.status = .granted) ∧ (s.link a.port).state = .up then { a with awaiting := true } else a
              timers := { securing := none, provingWait := none, provingLimit := none, earthing := none,
                          drop := some 5000, retire := none, minute := none } }).finish)) ∧
    (s.sp.supervisorKey = true →
      (h.state = .failed →
        exec (.forceRelease id) s =
          .next ((gone ((s.resulting 0x34 .accepted id.toNat).forceUnbind id)).unbind id).finish) ∧
      ∀ k, standing → one k → unearthed k → h.asks = [] →
        exec (.forceRelease id) s =
          .next ((released k ((s.resulting 0x34 .accepted id.toNat).forceUnbind id)).unbind id).finish)

/-! ### Annunciation by command -/

/-- ACKNOWLEDGE_POINT. -/
def Obligations.AcknowledgePoint : Prop :=
  ∀ (s : State) (b : Byte), s.resetHeld = false → s.sp.selArmed = true → AttnLaw s →
    (79 ≤ b.toNat → exec (.acknowledgePoint b) s = .next (s.refusing 0x40 .badOperand)) ∧
    ∀ p : PointNo, b.toNat = p.val →
      let acked := fun r : PointRec =>
        { s.resulting 0x40 .accepted p.val with
          au := { s.au with
                  points := s.au.points.set p r, alerts := s.au.alerts.erase p, joining := [],
                  attn := !(s.au.alerts.erase p).isEmpty } }
      ((s.point p).state = .normal ∨ (s.point p).state = .acked →
        exec (.acknowledgePoint b) s = .next (s.refusing 0x40 .state)) ∧
      ((s.point p).state = .unack →
        exec (.acknowledgePoint b) s = .next (acked { s.point p with state := .acked, repeats := none })) ∧
      ((s.point p).state = .clearedUnack →
        exec (.acknowledgePoint b) s =
          .next (acked { s.point p with state := .normal, rise := none, repeats := none }))

/-- ACKNOWLEDGE_ALL: every point on the list is acknowledged, the list is empty, ATTN is released, and the value is their
number; it is taken under either authority and in every state. -/
def Obligations.AcknowledgeAll : Prop :=
  ∀ s : State, s.resetHeld = false → s.sp.selArmed = true → AlertLaw s → AttnLaw s →
    ∃ v, exec .acknowledgeAll s =
        .next { s.resulting 0x41 .accepted s.au.alerts.length with
                au := { s.au with points := v, alerts := [], joining := [], attn := false } } ∧
      s.au.alerts.length ≤ 79 ∧
      ∀ p, v.get p =
        if p ∈ s.au.alerts then
          if (s.point p).state = .unack then { s.point p with state := .acked, repeats := none }
          else { s.point p with state := .normal, rise := none, repeats := none }
        else s.point p

/-- SET_TIME and STATION_TIME_TICK. -/
def Obligations.TimeKept : Prop :=
  ∀ s : State, s.resetHeld = false →
    (s.sp.selArmed = true → ∀ time : BitVec 48,
      exec (.setTime time) s =
        .next { s.resulting 0x42 .accepted 0 with au := { s.au with time := time, timeNotSet := false } }) ∧
    ∃ t, exec .stationTimeTick s = .next t ∧ t.au = { s.au with time := s.au.time + 1 } ∧
      (∀ k, t.seq k =
        { s.seq k with
          deadTimer := (s.seq k).deadTimer.map (· - 1), testTimer := (s.seq k).testTimer.map (· - 1),
          reclaimTimer := (s.seq k).reclaimTimer.map (· - 1), openPulse := (s.seq k).openPulse.map (· - 1),
          closeTimer := (s.seq k).closeTimer.map (· - 1) }) ∧
      t.rect =
        { s.rect with
          syncTimer := s.rect.syncTimer.map (· - 1), wakeTimer := s.rect.wakeTimer.map (· - 1),
          refTimer := s.rect.refTimer.map (· - 1) } ∧
      (∀ n, t.sec n = { s.sec n with mismatchTimer := (s.sec n).mismatchTimer.map (· - 1) }) ∧
      t.ht.holds.map retainedHold = s.ht.holds.map retainedHold ∧
      (∀ p, t.link p =
        { s.link p with
          supervision := (s.link p).supervision.map (· - 1), beaconTimer := (s.link p).beaconTimer.map (· - 1) }) ∧
      t.sp = { s.sp with selectionTimer := s.sp.selectionTimer.map (· - 1) } ∧
      t.verification = s.verification.map (· - 1) ∧
      OnlyChanges [.reception, .inputs, .pairs, .sequencers, .rectifier, .sections, .holds, .linkA, .linkB, .clock, .settings,
        .port, .verification] s t

/-! ### Settings by command -/

/-- WRITE_STAGING, by its list of refusals; what is written is what READ_STAGING shows. -/
def Obligations.WriteStaging : Prop :=
  ∀ (s : State) (offset : Half) (count : Byte) (data : List Byte), s.resetHeld = false → s.sp.selArmed = true →
    (count.toNat = 0 ∨ 64 < count.toNat →
      exec (.writeStaging offset count []) s = .next (s.refusing 0x50 .badOperand)) ∧
    (1 ≤ count.toNat → count.toNat ≤ 64 → data.length = count.toNat →
      (512 < offset.toNat + count.toNat → exec (.writeStaging offset count data) s = .next (s.refusing 0x50 .badOperand)) ∧
      (offset.toNat + count.toNat ≤ 512 → s.store.operation ≠ none →
        exec (.writeStaging offset count data) s = .next (s.refusing 0x50 .busy)) ∧
      (offset.toNat + count.toNat ≤ 512 → s.store.operation = none →
        ∃ v, exec (.writeStaging offset count data) s =
            .next { s.resulting 0x50 .accepted count.toNat with store := { s.store with staging := v } } ∧
          (∀ i : Fin 512, v.get i =
            if offset.toNat ≤ i.val ∧ i.val < offset.toNat + count.toNat then data.getD (i.val - offset.toNat) 0
            else s.store.staging.get i) ∧
          (v.toList.drop offset.toNat).take count.toNat = data))

/-- ERASE and PROGRAM judged and begun: the refusals in their order, and the operation under way on its INVALID image. -/
def Obligations.OperationsBegin : Prop :=
  ∀ (s : State) (code : Byte), s.resetHeld = false → s.sp.selArmed = true →
    (4 < code.toNat → exec (.erase code) s = .next (s.refusing 0x51 .badOperand) ∧
      exec (.program code) s = .next (s.refusing 0x52 .badOperand)) ∧
    ∀ target : StoreTarget, code.toNat = targetCode target →
      let begun := fun (row : Byte) (kind : OpKind) (content : List Byte) (check : Half) =>
        { s.resulting row .accepted code.toNat with
          store :=
            { s.store.setImage target { state := .invalid, content := content, code := check } with
              operation := some { kind := kind, target := target, start := s.stamp, elapsed := 0 } } }
      let both := fun reason => exec (.erase code) s = .next (s.refusing 0x51 reason) ∧
        exec (.program code) s = .next (s.refusing 0x52 reason)
      (s.store.operation ≠ none → both .busy) ∧
      (s.store.operation = none → s.store.lock = true → both .locked) ∧
      (s.store.operation = none → s.store.lock = false →
        (target = .group s.store.active → both .activeGroup) ∧
        (target ≠ .group s.store.active →
          exec (.erase code) s = .next (begun 0x51 .erase [] 0) ∧
          ((s.store.image target).state ≠ .empty → exec (.program code) s = .next (s.refusing 0x52 .notErased)) ∧
          ((s.store.image target).state = .empty →
            let content := s.store.stagedContent target
            (∀ i, rangeCheck target content = some i →
              exec (.program code) s = .next (s.resulting 0x52 (.refused .range) i)) ∧
            (rangeCheck target content = none →
              exec (.program code) s = .next (begun 0x52 .program content (checkCode content))))))

/-- ERASE_COMPLETION and PROGRAM_COMPLETION. A verified configuration comes into use but for its fitted flags. -/
def Obligations.OperationsEnd : Prop :=
  ∀ (s : State) (op : Operation), Ready s → s.store.operation = some op →
    (op.kind = .erase → ∀ g, op.target = .group g →
      exec (.eraseCompletion true) s =
        .next (State.finish { s with
          store := { s.store with operation := none
                                  groups := s.store.groups.set g { state := .empty, content := [], code := 0 } } }) ∧
      exec (.eraseCompletion false) s =
        .next (State.pulse 61 { s with store := { s.store with operation := none, eraseError := true } }).finish) ∧
    (op.kind = .erase → op.target = .config →
      exec (.eraseCompletion true) s =
        .next (State.finish { s with
          store := { s.store with operation := none, config := { state := .empty, content := [], code := 0 },
                                  fittedPending := false } })) ∧
    (op.kind = .program → ∀ g, op.target = .group g →
      exec (.programCompletion true) s =
        .next (State.finish { s with
          store := { s.store with operation := none
                                  groups := s.store.groups.set g { s.store.groups.get g with state := .valid } } }) ∧
      exec (.programCompletion false) s =
        .next (State.pulse 61 { s with store := { s.store with operation := none, programError := true } }).finish) ∧
    (op.kind = .program → op.target = .config →
      let new := readConfig s.store.config.content
      ∃ t, exec (.programCompletion true) s = .next t ∧ t.store.operation = none ∧ t.store.config.state = .valid ∧
        t.store.cfg = { new with fitted := s.store.cfg.fitted } ∧ t.store.configFault = false ∧
        t.store.fittedPending = (new.fitted != s.store.cfg.fitted) ∧ t.store.groups = s.store.groups)

/-- ACTIVATE: the refusals in their order; the active group again; another group, whose settings come into use and whose bands
apply. -/
def Obligations.ActivateGroup : Prop :=
  ∀ (s : State) (code : Byte), PortReady s →
    (3 < code.toNat → exec (.activate code) s = .next (s.refusing 0x53 .badOperand).finish) ∧
    ∀ g : GroupNo, code.toNat = g.val →
      (s.store.operation ≠ none → exec (.activate code) s = .next (s.refusing 0x53 .busy).finish) ∧
      (s.store.operation = none → s.store.lock = true →
        exec (.activate code) s = .next (s.refusing 0x53 .locked).finish) ∧
      (s.store.operation = none → s.store.lock = false → (s.store.groups.get g).state ≠ .valid →
        exec (.activate code) s = .next (s.refusing 0x53 .state).finish) ∧
      (s.store.operation = none → s.store.lock = false → (s.store.groups.get g).state = .valid →
        (g = s.store.active → s.store.factoryInUse = false →
          exec (.activate code) s = .next (s.resulting 0x53 .accepted g.val).finish) ∧
        (g ≠ s.store.active ∨ s.store.factoryInUse = true →
          let new := readGroup (s.store.groups.get g).content
          ∃ t, exec (.activate code) s = .next t ∧ t.store.active = g ∧ t.store.factoryInUse = false ∧
            t.store.inUse = new ∧ t.store.groups = s.store.groups ∧
            t.sp = (s.resulting 0x53 .accepted g.val).sp ∧
            (∀ b, t.au.bands.get b =
              { condition := (new.bands.get b).enable && (s.au.bands.get b).condition, run := 0 }) ∧
            OnlyChanges (.settings :: .port :: reached) s t))

/-- CLEAR_SETTINGS_STATUS, SET_LOCK and CLEAR_LOCK, taken in every state of the store and under either authority. -/
def Obligations.SettingsStatusAndLock : Prop :=
  ∀ s : State, s.resetHeld = false → s.sp.selArmed = true →
    exec .clearSettingsStatus s =
      .next { s.resulting 0x54 .accepted 0 with
              store := { s.store with eraseError := false, programError := false, retainedLost := false } } ∧
    exec .setLock s =
      .next (State.writeRetained { s.resulting 0x55 .accepted 0 with store := { s.store with lock := true } }) ∧
    (s.store.lock = true → RetainedLaw s → exec .setLock s = .next (s.resulting 0x55 .accepted 0)) ∧
    (s.sp.settingsKey = false → RetainedLaw s → exec .clearLock s = .next (s.refusing 0x56 .locked)) ∧
    (s.sp.settingsKey = true →
      exec .clearLock s =
        .next (State.writeRetained { s.resulting 0x56 .accepted 0 with store := { s.store with lock := false } }))

/-! ### Measurement -/

/-- R7: the states of a channel record on a missed or invalid slot and on a valid one, the fourth slot missed in a row, sixteen
valid ones in a row, a frame timeout, and a gap of 4 or more before a valid value. -/
def Obligations.ChannelStates : Prop :=
  (∀ r : Channel, r.miss ≤ 255 →
    (missSlot r).value = r.value ∧ (missSlot r).saturated = r.saturated ∧ (missSlot r).goodRun = 0 ∧
    (missSlot r).miss = min 255 (r.miss + 1) ∧
    (missSlot r).state = if r.state = .failed ∨ 4 ≤ (missSlot r).miss then .failed else .stale) ∧
  (∀ (r : Channel) (reading : Int × Bool), r.goodRun ≤ 16 →
    (validSlot reading r).value = reading.1 ∧ (validSlot reading r).saturated = reading.2 ∧
    (validSlot reading r).miss = 0 ∧ (validSlot reading r).goodRun = min 16 (r.goodRun + 1) ∧
    (validSlot reading r).state =
      if r.state = .good ∨ 16 ≤ (validSlot reading r).goodRun then .good else r.state) ∧
  (∀ r : Channel, r.state = .good → r.miss = 0 →
    (missSlots 1 r).state = .stale ∧ (missSlots 2 r).state = .stale ∧ (missSlots 3 r).state = .stale ∧
    ∀ n, 4 ≤ n → (missSlots n r).state = .failed) ∧
  (∀ (r : Channel) (readings : List (Int × Bool)), r.state ≠ .good → r.goodRun = 0 →
    (readings.length < 16 → (readings.foldl (fun a x => validSlot x a) r).state = r.state) ∧
    (16 ≤ readings.length → (readings.foldl (fun a x => validSlot x a) r).state = .good)) ∧
  (∀ r : Channel, r.state = .good → (missSlots 4 r).state = .failed) ∧
  ∀ (r : Channel) (reading : Int × Bool) (n : Nat), r.state = .good → 4 ≤ n →
    let after := validSlot reading (missSlots n r)
    after.state = .failed ∧ after.miss = 0 ∧ after.goodRun = 1

/-- SAMPLE_FRAME and FRAME_TIMEOUT: a discarded frame is one missed slot and raises the charge by 1, a timeout is four of each
(where no channel comes to stand FAILED by them, nothing else follows); a frame taken counts the slots its gap reveals beyond
the charge (here none comes to stand FAILED by those alone), then takes the value of every channel whose VALID bit is on. -/
def Obligations.FramesTaken : Prop :=
  ∀ (s : State) (f : SampleFrame) (order : List ArrivalTaker), Ready s →
    let missed := fun (charge : Nat) (timeout : Option Nat) (v : Vector Channel 16) =>
      State.finish { s with mi := { s.mi with
        channels := v
        reception := { s.mi.reception with charge := s.mi.reception.charge + charge, timeout := timeout } } }
    (frameChecks f = false ∨ s.mi.reception.lastSeq = some f.seq →
      s.verification ≠ none ∨ (∀ c, (s.channel c).state = .failed ∨ (s.channel c).miss < 3) →
      ∃ v, exec (.sampleFrame f order) s = .next (missed 1 s.mi.reception.timeout v) ∧
        ∀ c, v.get c = missSlot (s.channel c)) ∧
    (s.verification ≠ none ∨ (∀ c, (s.channel c).state = .failed) →
      ∃ v, exec .frameTimeout s = .next (missed 4 (some 2) v) ∧ ∀ c, v.get c = missSlots 4 (s.channel c)) ∧
    (frameChecks f = true → s.mi.reception.lastSeq ≠ some f.seq →
      let slots := match s.mi.reception.lastSeq with
        | none => 0
        | some last => (f.seq - last - 1).toNat - s.mi.reception.charge
      s.verification ≠ none ∨ (∀ c, (s.channel c).state = .failed ∨ slots = 0 ∨ (s.channel c).miss + slots < 4) →
      ∃ t, exec (.sampleFrame f order) s = .next t ∧
        t.mi.reception = { lastSeq := some f.seq, charge := 0, timeout := some 2 } ∧
        (∀ (c : ChannelNo) (h : c.val < 15), t.channel c =
          if f.valid.getLsbD c.val then
            validSlot (readingOf c (f.values.get ⟨c.val, h⟩).toInt (f.saturated.getLsbD c.val))
              (missSlots slots (s.channel c))
          else missSlot (missSlots slots (s.channel c))) ∧
        (t.channel chTT =
          if f.ttValid then validSlot (readingOf chTT f.tt.toInt f.ttSaturated) (missSlots slots (s.channel chTT))
          else missSlot (missSlots slots (s.channel chTT))) ∧
        OnlyChanges (.channels :: .reception :: reached) s t)

/-- CONTACT_RAW_CHANGE, INPUT_CHANGE and TRANSIT_TIMER_EXPIRY: the stability timer of an input, a pair of contacts before
equipment verification has ended, the authority key, the AC breaker in transit too long while the group does not run; and after
verification a breaker of an unshared feeder that takes each position in each state of its sequencer (R14, R48, R53 to R55, R61,
R65, R128), and an earth switch that takes each position (R95, R106, R107, R126, R129, R135). -/
def Obligations.ContactsTaken : Prop :=
  ∀ s : State, Ready s →
    (∀ (i : InputId) (on : Bool),
      ((s.input i).raw = on → exec (.contactRawChange i on) s = .next s) ∧
      ((s.input i).raw ≠ on →
        exec (.contactRawChange i on) s =
          .next (s.setInput i
            { s.input i with
              raw := on
              stability := if (s.input i).level = some on then none else some 3 }))) ∧
    (∀ (p : PairId) (i : InputId) (a b : Bool), s.verification ≠ none →
      i = (contactsOf p).1 ∨ i = (contactsOf p).2 → (s.input i).level = none →
      let u := s.setInput i { s.input i with level := some (s.input i).raw, stability := none }
      (u.input (contactsOf p).1).level = some a → (u.input (contactsOf p).2).level = some b →
      let pos := if a then (if b then Pos.discrepant else .closed) else if b then .opened else .transit
      exec (.inputChange i) s =
        .next (u.setPair p
          { derived := some pos, handed := (s.pair p).handed,
            transit := if pos = .transit then some s.store.cfg.tTransit else none }).finish) ∧
    (s.verification = none → (s.input .authorityKey).level = some (!(s.input .authorityKey).raw) →
      (s.input .authorityKey).stability ≠ none →
      let isLocal := (s.input .authorityKey).raw
      let u := s.setInput .authorityKey
        { s.input .authorityKey with level := some isLocal, stability := none }
      exec (.inputChange .authorityKey) s =
        .next (State.finish { u with
          sp := { s.sp with
                  localAuthority := isLocal
                  selection := if isLocal then none else s.sp.selection
                  selectionTimer := if isLocal then none else s.sp.selectionTimer } })) ∧
    ((s.pair .ac).transit ≠ none → (s.pair .ac).derived = some .transit → s.verification = none →
      s.rect.state = .off ∨ s.rect.state = .tripped → s.securingBus = [] →
      exec (.transitTimerExpiry .ac) s =
        .next (s.setPair .ac { derived := some .discrepant, handed := some .discrepant, transit := none }).finish) ∧
    ∀ (p : PairId) (i : InputId) (a b : Bool), s.verification = none →
      i = (contactsOf p).1 ∨ i = (contactsOf p).2 → (s.input i).level = some (!(s.input i).raw) →
      (s.input i).stability ≠ none →
      let u := s.setInput i { raw := (s.input i).raw, level := some (s.input i).raw, stability := none }
      (u.input (contactsOf p).1).level = some a → (u.input (contactsOf p).2).level = some b →
      let pos := if a then (if b then Pos.discrepant else .closed) else if b then .opened else .transit
      (s.pair p).derived ≠ some pos →
      let moved := u.setPair p
        { derived := some pos, handed := some pos,
          transit := if pos = .transit then some s.store.cfg.tTransit else none }
      let gives := fun t : State => exec (.inputChange i) s = .next t.finish
      (∀ k, p = .breaker k → s.fitted k = true → s.share k = none → FeederQuiet s k →
        (s.sec (sectionOf k)).wanted = .single → (s.sec (sectionOf k)).commandedClosed = false →
        (s.sec (sectionOf k)).drive ≠ .close →
        let q := (s.seq k).state
        let pending := (s.seq k).holdOpenPending
        let stays := fun v : State => gives (State.deriveFeed k v)
        let enters := fun (v : State) (f : Sequencer → Sequencer) =>
          gives (State.deriveBars (sectionOf k) (State.deriveFeed k (v.modSeq k f)))
        let running := fun r : Sequencer => r.openPulse.getD s.store.cfg.tOpenMax
        let confirmed := fun r : Sequencer =>
          r.confirmed (s.reclose k) (confirmedOutcome (s.isolated k) (s.reclosBarred k) (s.reclose k).nRec r)
        let faulty := fun r : Sequencer => { r.bare .breakerFault with failure := some .discrepant }
        (pos = .opened →
          (q = some .inService →
            enters (moved.pulse (feederPoint 0 k)) fun r => confirmed (r.tripped (s.demandRecord k .direct) none)) ∧
          (q = some .tripping → enters moved confirmed) ∧
          (q ≠ some .inService → q ≠ some .tripping → stays (moved.modSeq k fun r => { r with openPulse := none }))) ∧
        (pos = .transit →
          (q = some .inService →
            enters (moved.pulse (feederPoint 0 k)) fun r => r.tripped (s.demandRecord k .direct) (some (running r))) ∧
          (q ≠ some .inService → stays moved)) ∧
        (pos = .closed →
          (q = some .closing → pending = true →
            enters moved fun r => r.tripped (s.demandRecord k .hold) (some (running r))) ∧
          (s.isolated k = false →
            (q = some .closing → pending = false →
              enters moved fun r =>
                { r.bare .inService with
                  lastClose := .closed
                  closeKind := if r.closeKind = some .automatic then some .automatic else none
                  reclaimTimer :=
                    if r.closeKind = some .automatic then some ((s.reclose k).tReclaim * 1000) else none }) ∧
            (q = some .opened ∨ q = some .lockout → stays (moved.pulse (feederPoint 12 k))) ∧
            (q = some .deadTime ∨ q = some .lineTest →
              enters (moved.pulse (feederPoint 12 k)) (Sequencer.bare .lockout)) ∧
            (q = some .inService ∨ q = some .tripping ∨ q = some .breakerFault → stays moved)) ∧
          (s.isolated k = true → q = some .opened ∨ q = some .lockout →
            gives (((State.deriveFeed k (moved.pulse (feederPoint 12 k))).pulse 59).modSeq k fun r =>
              { r with closeCoil := false, closeTimer := none, openPulse := some (running r) }))) ∧
        (pos = .discrepant →
          (q = some .inService ∨ q = some .closing →
            enters moved fun r => { faulty r with openPulse := some (running r) }) ∧
          (q = some .tripping ∨ q = some .lineTest ∨ q = some .deadTime ∨ q = some .opened ∨ q = some .lockout →
            enters moved faulty) ∧
          (q = some .breakerFault → stays moved))) ∧
      ∀ k, p = .earth k →
        let n := sectionOf k
        let taken := fun r : SectionRec =>
          let there := pos = if r.commandedClosed then .closed else .opened
          { r with
            drive := if (r.drive = .close ∧ pos = .closed) ∨ (r.drive = .opened ∧ pos = .opened) then .none else r.drive
            mismatchTimer := if there then none else some (r.mismatchTimer.getD 10000)
            mismatch := if there then false else if pos = .discrepant then true else r.mismatch }
        let seen := State.deriveBars n (moved.modSec n taken)
        let waits := fun h : Hold => n ∈ h.sections ∧ (h.state = .earthing ∨ h.phase = some .earthOpen)
        let loses := pos = .opened ∧ ∃ h ∈ s.ht.holds, h.state = .active ∧ h.kind = .earth ∧ n ∈ h.sections
        (s.fitted k = false → gives (State.deriveBars n moved)) ∧
        (s.fitted k = true → (∀ h ∈ s.ht.holds, ¬ waits h) → (loses → gives (seen.pulse 59)) ∧ (¬ loses → gives seen)) ∧
        (s.fitted k = true → ¬ loses → ∀ h, s.ht.holds.filter (fun x => decide (waits x)) = [h] → s.hold h.id = some h →
          (pos = .closed → h.state = .earthing → h.phase = none → h.sections = [n] →
            gives (seen.modHold h.id fun x =>
              { x with
                state := .active
                timers := { securing := none, provingWait := none, provingLimit := none, earthing := none, drop := none,
                            retire := none, minute := x.timers.minute } })) ∧
          (pos = .opened → h.state = .releasing → h.phase = some .earthOpen → h.purpose = some .retire →
            h.unearth = [n] → h.asks = [] → h.sections.length ≤ 7 → (∀ j, (s.seq j).wait = none) →
            gives { ((State.lowerHold h (seen.modHolds fun l => l.filter fun x => x.id ≠ h.id)).unbind h.id) with
              agenda := [] }))

/-- EMERGENCY pressed while no feeder is in service or on its way: the group trips with cause EMERGENCY, the AC breaker is driven
open, the selection is dropped, and point 50 pulses. And the other inputs of the panel: the switching pushbuttons, which are
ignored under REMOTE and handed to their rule under LOCAL (R208), and the moves of a hold key (R117, R140 to R142). -/
def Obligations.EmergencyPressed : Prop :=
  ∀ s : State, Ready s → s.verification = none →
    (NothingWaits s → (s.input .emergencyButton).level = some false → (s.input .emergencyButton).raw = true →
      (s.input .emergencyButton).stability ≠ none → (∀ k, s.share k = none) →
      (∀ k, ∃ q, (s.seq k).state = some q ∧ (q = .opened ∨ q = .lockout ∨ q = .breakerFault ∨ q = .notFitted)) →
      s.rect.state ≠ .tripped → s.acPos ≠ some .opened →
      exec (.inputChange .emergencyButton) s =
        .next (State.deriveBusFeed (State.pulse 50
          { s.setInput .emergencyButton { raw := true, level := some true, stability := none } with
            sp := { s.sp with emergency := true, selection := none, selectionTimer := none }
            rect := { s.rect with
              state := .tripped, cause := some .emergency, tripTime := some s.stamp, ramp := none, syncCount := none,
              syncTimer := none, wakeTimer := none, alpha := (s.store.cfg.alphaMax : Int), busFault := 0, pulses := [],
              bridge1 := { s.rect.bridge1 with low := 0 }, bridge2 := { s.rect.bridge2 with low := 0 },
              acDrive := true } })).finish) ∧
    ∀ i : InputId, (s.input i).level = some (!(s.input i).raw) → (s.input i).stability ≠ none →
      let on := (s.input i).raw
      let u := s.setInput i { raw := on, level := some on, stability := none }
      let gives := fun t : State => exec (.inputChange i) s = .next t.finish
      (i = .startButton ∨ i = .stopButton ∨ (∃ k, i = .openButton k ∨ i = .closeButton k) →
        s.sp.localAuthority = false ∨ on = false → gives u) ∧
      (s.sp.localAuthority = true → on = true →
        let writes := fun (code : Byte) (result : CmdResult) (value : Nat) (v : State) =>
          { v with sp := { v.sp with lastResult := some { code := code, result := result, value := value } } }
        (i = .startButton → s.rect.state ≠ .off → s.rect.state ≠ .tripped →
          gives (writes 0x72 (.refused .state) 6 u)) ∧
        (i = .stopButton → s.rect.state = .off → gives (writes 0x73 .accepted 6 u)) ∧
        (i = .stopButton → s.rect.state ≠ .off → NothingWaits s →
          gives (State.deriveBusFeed (writes 0x73 .accepted 6 { u with
            rect := { s.rect with
              state := .off, cause := none, tripTime := none, ramp := none, syncCount := none, syncTimer := none,
              wakeTimer := none, alpha := (s.store.cfg.alphaMax : Int), busFault := 0, pulses := [],
              bridge1 := { s.rect.bridge1 with low := 0 }, bridge2 := { s.rect.bridge2 with low := 0 } } }))) ∧
        ∀ k,
          let q := (s.seq k).state
          let bus := (s.channel chUB).value
          let line := (s.channel (chUL k)).value
          (i = .openButton k →
            (q = some .opened ∨ q = some .lockout → s.breakerPos k = some .opened →
              gives (writes 0x70 (.refused .state) k.val u)) ∧
            (FeederQuiet s k → q = some .inService ∨ q = some .closing → s.breakerPos k ≠ some .opened →
              gives ((writes 0x70 .accepted k.val u).entering k fun r =>
                r.tripped (s.demandRecord k .command) (some (r.openPulse.getD s.store.cfg.tOpenMax))))) ∧
          (i = .closeButton k →
            (q ≠ some .notFitted → q ≠ some .opened ∨ s.breakerPos k ≠ some .opened →
              gives (writes 0x71 (.refused .state) k.val u)) ∧
            (FeederQuiet s k → s.rect.state ≠ .standby → q = some .opened → s.breakerPos k = some .opened →
              (s.sec (sectionOf k)).bars.barred = false → (s.channel (chIF k)).state ≠ .failed →
              (s.channel (chUL k)).state ≠ .failed → (s.channel chUB).state ≠ .failed →
              ((s.reclose k).uBusmin : Int) ≤ bus → line < bus * 4 / 5 →
              gives ((writes 0x71 .accepted k.val u).entering k fun r =>
                { r.bare .lineTest with
                  attempts := 0, closeKind := some .manual, testContactor := true,
                  testTimer := some ((s.reclose k).tTest * 10) })))) ∧
      (∀ k, i = .holdIsolate (sectionOf k) →
        let n := sectionOf k
        let key := s.key n
        let turned := fun pos : KeyPos => u.modKey n fun r => { r with pos := pos }
        let earth := (s.input (.holdEarth k)).level = some true
        let none' : HoldTimers :=
          { securing := none, provingWait := none, provingLimit := none, earthing := none, drop := none, retire := none,
            minute := none }
        (on = true → ¬ earth → key.pos = .off →
          let refusing := fun code : RefusalCode =>
            State.pulse 57 ((turned .isolate).modKey n fun r => { r with lastRefusal := some code, needsCycling := true })
          (key.needsCycling = true ∨ key.bound ≠ none → gives (turned .isolate)) ∧
          (key.needsCycling = false → key.bound = none →
            (s.fitted k = false → gives (refusing .notFitted)) ∧
            (s.fitted k = true → 24 ≤ s.ht.holds.length → gives (refusing .full)) ∧
            (s.fitted k = true → s.ht.holds.length < 24 → (s.seq k).state = some .breakerFault →
              s.breakerPos k ≠ some .opened → gives (refusing .interlock)) ∧
            (s.fitted k = true → s.ht.holds.length < 24 → (s.seq k).state = some .opened ∨ (s.seq k).state = some .lockout →
              s.breakerPos k = some .opened → s.share k = none → s.isolated k = false → s.securingOver k = [] →
              (s.channel (chUL k)).state ≠ .failed →
              let id := drawId s.ht.holds s.ht.lastId
              let placed : Hold :=
                { id := id, kind := .isolate, origin := .panel, tag := BitVec.ofNat 16 (n.val + 1), sections := [n],
                  state := .securing, remaining := none, asks := [], purpose := none, phase := none, unearth := [],
                  failure := none, placed := s.stamp, timers := { none' with securing := some 30000 } }
              let counted := fun v : State =>
                State.deriveBars n (v.modSec n fun r => { r with isolate := r.isolate + 1 })
              let begun := counted ((turned .isolate).handTable (s.ht.holds ++ [placed]) id)
              gives ((begun.modKey n fun r => { r with bound := some id, lastRefusal := none }).modHold id fun x =>
                { x with
                  state := .proving, timers := { none' with provingWait := some 2000, provingLimit := some 10000 } })))) ∧
        (on = false → ¬ earth → key.pos = .isolate →
          let off := u.modKey n fun r => { r with pos := .off, needsCycling := false, bound := none }
          let gone := fun (id : Byte) (v : State) => v.modHolds fun l => l.filter fun x => x.id ≠ id
          (key.bound = none → gives off) ∧
          ∀ id h, key.bound = some id → s.hold id = some h →
            (h.state = .failed → gives ((gone id off).unbind id)) ∧
            (h.state = .securing ∨ h.state = .proving ∨ h.state = .active → h.kind = .isolate → h.sections = [n] →
              h.asks = [] → (s.seq k).wait = none →
              gives ((State.deriveBars n ((gone id off).modSec n fun r => { r with isolate := r.isolate - 1 })).unbind
                id))) ∧
        (∀ id h, key.bound = some id → s.hold id = some h → h.sections = [n] → earth → (s.seq k).wait = none →
          on = false → key.pos = .isolate → h.kind = .isolate → h.state = .securing ∨ h.state = .proving →
            gives (State.deriveBars n (((turned .earth).modHold id fun x => { x with kind := .earth }).modSec n fun r =>
              { r with earth := r.earth + 1 })))) ∧
      ∀ k id h, i = .holdEarth k → on = false → (s.input (.holdIsolate (sectionOf k))).level = some true →
        (s.key (sectionOf k)).pos = .earth → (s.key (sectionOf k)).bound = some id → s.hold id = some h →
        h.sections = [sectionOf k] → h.kind = .earth → (s.seq k).wait = none →
        let n := sectionOf k
        let turned := u.modKey n fun r => { r with pos := .isolate }
        (h.state = .securing ∨ h.state = .proving → (s.sec n).commandedClosed = false ∨ 2 ≤ (s.sec n).earth →
          gives (State.deriveBars n ((turned.modHold id fun x => { x with kind := .isolate }).modSec n fun r =>
            { r with earth := r.earth - 1 }))) ∧
        (h.state = .earthing ∨ h.state = .active → (s.sec n).earth = 1 → (s.sec n).commandedClosed = true →
          s.earthPos k ≠ some .opened →
          gives (State.deriveBars n ((turned.modHold id fun x =>
            { x with
              state := .releasing, purpose := some .convert, phase := some .earthOpen, unearth := [n]
              timers := { securing := none, provingWait := none, provingLimit := none, earthing := none, drop := none,
                          retire := none, minute := none } }).modSec n fun r =>
            { r with commandedClosed := false, drive := .opened, mismatchTimer := some 10000 })))

/-- EQUIPMENT_VERIFICATION_END of a part with every feeder fitted and unshared, every switch found OPEN, nothing held, nothing
FAILED, both links unused and every panel contact off: each sequencer starts in OPEN, the positions are handed, every section
is PERMITTED, and the points are evaluated. -/
def Obligations.VerificationEnds : Prop :=
  ∀ s : State, Ready s → s.verification ≠ none →
    (∀ k, s.fitted k = true ∧ s.share k = none ∧ (s.seq k).state = none ∧ (s.sec (sectionOf k)).wanted = .single) →
    (∀ p, (s.pair p).derived = some .opened) →
    (∀ n, (s.sec n).isolate = 0 ∧ (s.sec n).earth = 0 ∧ (s.sec n).noreclose = 0 ∧ (s.sec n).commandedClosed = false) →
    s.ht.holds = [] → s.ht.resetFailed = false → (∀ c, (s.channel c).state ≠ .failed) → s.store.cfg.autostart = false →
    s.linkA.state = .unused → s.linkB.state = .unused → (∀ i, pairOf i = none → (s.input i).level ≠ some true) →
    AlertLaw s →
    ∃ t, exec .equipmentVerificationEnd s = .next t ∧ t.verification = none ∧
      (∀ k, t.seq k = enterFields .opened { s.seq k with attempts := 0 }) ∧
      (∀ p, t.pair p = { s.pair p with handed := some .opened }) ∧ t.rect = s.rect ∧ t.mi.mismatch = false ∧
      t.sp = { s.sp with localAuthority := false, settingsKey := false, supervisorKey := false, emergency := false } ∧
      (∀ k, (t.sec (sectionOf k)).bars.barred = false ∧ (t.sec (sectionOf k)).feed = .unfed) ∧
      (∀ n, t.key n = { pos := .off, bound := none, needsCycling := false, lastRefusal := none }) ∧
      t.ht.holds = [] ∧ AlertLaw t ∧ AttnLaw t ∧ LevelLaw t

/-! ### Feeder units -/

/-- OPEN_, CLOSE_, DEAD_, TEST_ and RECLAIM_TIMER_EXPIRY, on a feeder over which no hold is being secured, whose engine rests,
with the group not in STANDBY: an open failure with the backup latch set and with it clear, when the backup trip reaches the
rectifier group and a feeder in service; a close failure with the breaker open and not open, and a close pulse that runs out with
hold open pending; the dead timer with every item of its list, the line test begun or skipped; and the line test passed, failed
and not judged. -/
def Obligations.SequencerTimers : Prop :=
  ∀ (s : State) (k : FeederNo), Ready s → FeederQuiet s k → s.rect.state ≠ .standby →
    let settings := s.reclose k
    let enters := fun (u : State) (f : Sequencer → Sequencer) => (u.entering k f).finish
    let bus := (s.channel chUB).value
    let line := (s.channel (chUL k)).value
    let busLow := (s.channel chUB).state = .failed ∨ bus < (settings.uBusmin : Int)
    ((s.seq k).reclaimTimer ≠ none →
      exec (.reclaimTimerExpiry k) s =
        .next (s.modSeq k fun r => { r with reclaimTimer := none, attempts := 0, closeKind := none })) ∧
    ((s.seq k).openPulse ≠ none → (s.seq k).state = some .tripping →
      let failed := fun r : Sequencer => { r.bare .breakerFault with openPulse := none, failure := some .openFailed }
      (s.backupLatch = true → exec (.openTimerExpiry k) s = .next (enters s failed)) ∧
      (s.backupLatch = false → NothingWaits s → (∀ j, s.share j = none) → s.rect.state ≠ .tripped → s.acPos ≠ some .opened →
        let keeps := fun j : FeederNo =>
          ∃ q, (s.seq j).state = some q ∧
            (q = .deadTime ∨ q = .opened ∨ q = .lockout ∨ q = .breakerFault ∨ q = .notFitted)
        let begun := State.deriveBusFeed (State.pulse 49
          { s.entering k failed with
            backupLatch := true
            rect := { s.rect with
              state := .tripped, cause := some .backup, tripTime := some s.stamp, ramp := none, syncCount := none,
              syncTimer := none, wakeTimer := none, alpha := (s.store.cfg.alphaMax : Int), busFault := 0, pulses := [],
              bridge1 := { s.rect.bridge1 with low := 0 }, bridge2 := { s.rect.bridge2 with low := 0 },
              acDrive := true } })
        ((∀ j, j ≠ k → keeps j) → exec (.openTimerExpiry k) s = .next begun.finish) ∧
        ∀ i, i ≠ k → FeederQuiet s i → (s.seq i).state = some .inService → s.breakerPos i ≠ some .opened →
          (∀ j, j ≠ k → j ≠ i → keeps j) →
          exec (.openTimerExpiry k) s =
            .next (State.entering i
              (fun r => r.tripped (s.demandRecord i .backup) (some (r.openPulse.getD s.store.cfg.tOpenMax)))
              (begun.pulse (feederPoint 0 i))).finish)) ∧
    ((s.seq k).closeTimer ≠ none → (s.seq k).state = some .closing →
      ((s.seq k).holdOpenPending = false →
        exec (.closeTimerExpiry k) s =
          .next (enters (s.pulse (feederPoint 65 k)) fun r =>
            { r.bare .lockout with
              lastClose := .closeFailed
              openPulse := if s.breakerPos k = some .opened then none
                else some (r.openPulse.getD s.store.cfg.tOpenMax) })) ∧
      ((s.seq k).holdOpenPending = true →
        (s.breakerPos k = some .opened →
          exec (.closeTimerExpiry k) s = .next (enters s fun r => { r.bare .opened with attempts := 0 })) ∧
        (s.breakerPos k ≠ some .opened →
          exec (.closeTimerExpiry k) s =
            .next (enters s fun r =>
              r.tripped (s.demandRecord k .hold) (some (r.openPulse.getD s.store.cfg.tOpenMax)))))) ∧
    ((s.seq k).deadTimer ≠ none → (s.seq k).state = some .deadTime →
      let gives := fun t : State => exec (.deadTimerExpiry k) s = .next t
      let waits := fun w : WaitReason => (s.modSeq k fun r => { r with deadTimer := none, wait := some w }).finish
      (s.isolated k = true → gives (enters s fun r => { r.bare .opened with attempts := 0 })) ∧
      (s.isolated k = false → s.reclosBarred k = true ∨ settings.nRec = 0 → gives (enters s (Sequencer.bare .lockout))) ∧
      (s.isolated k = false → s.reclosBarred k = false → settings.nRec ≠ 0 →
        (busLow → gives (waits .bus)) ∧
        (¬ busLow → s.rect.state = .limiting → gives (waits .limit)) ∧
        (¬ busLow → s.rect.state ≠ .limiting → (s.engine k).recloseBar = true → gives (waits .thermal)) ∧
        (¬ busLow → s.rect.state ≠ .limiting → (s.engine k).recloseBar = false →
          ((s.channel (chUL k)).state = .failed → gives (enters s (Sequencer.bare .lockout))) ∧
          ((s.channel (chUL k)).state ≠ .failed → line < bus * 4 / 5 →
            gives (enters s fun r =>
              { r.bare .lineTest with
                closeKind := some .automatic, testContactor := true, testTimer := some (settings.tTest * 10) })) ∧
          ((s.channel (chUL k)).state ≠ .failed → bus * 4 / 5 ≤ line →
            gives (enters s fun r =>
              { r.bare .closing with
                closeKind := some .automatic, closeCoil := true, closeTimer := some s.store.cfg.tCloseMax }))))) ∧
    ((s.seq k).testTimer ≠ none → (s.seq k).state = some .lineTest →
      let gives := fun t : State => exec (.testTimerExpiry k) s = .next t
      let passes := settings.qPass * bus ≤ 256 * line
      let manualFails := enters (s.pulse (feederPoint 65 k)) fun r => { r.bare .opened with lastClose := .testFailed }
      (busLow →
        ((s.seq k).closeKind = some .manual → gives manualFails) ∧
        ((s.seq k).closeKind = some .automatic →
          gives (enters s fun r => { r.bare .deadTime with wait := some .bus }))) ∧
      (¬ busLow →
        (∀ kind, (s.seq k).closeKind = some kind → passes →
          gives (enters s fun r =>
            { r.bare .closing with
              closeKind := some kind, closeCoil := true, closeTimer := some s.store.cfg.tCloseMax })) ∧
        ((s.seq k).closeKind = some .manual → ¬ passes → gives manualFails) ∧
        ((s.seq k).closeKind = some .automatic → ¬ passes →
          let c := min ((s.seq k).attempts + 1) settings.nRec
          (settings.nRec ≤ c →
            gives (enters s fun r => { r.bare .lockout with attempts := c, lastClose := .testFailed })) ∧
          (c < settings.nRec →
            gives (enters s fun r =>
              { r.bare .deadTime with
                attempts := c, lastClose := .testFailed,
                deadTimer := some (min (settings.tDead * 500 * 2 ^ c) 60000 +
                  if r.cause = some .intertrip then settings.tOffset * 500 else 0) })))))

/-- The four criteria on one arrival, in the order IMAX, DELTA, REVERSE, THERMAL: the IMAX and REVERSE counts, which cause decides,
and the whole arming record of DELTA: its making in IDLE, its window, peak and low-rate run in RISING with the ends of a rise, and
its confirm count in CONFIRM with the fall back to RISING. (That the confirm count is 0 at arming is the model's choice: log
entry 31.) -/
def Obligations.CriteriaJudged : Prop :=
  ∀ (e : Engine) (i : Int),
    let p := e.params
    let feed := i.toNat
    let e' := (judgeCriteria i e).1
    let cause := (judgeCriteria i e).2
    let delta := (deltaJudge p feed (riseRate feed e.history) e).2
    let byImax := p.imax ≤ feed ∧ 1 ≤ e.imaxCount
    let byReverse := p.revEnable = true ∧ p.trev ≤ e'.revCount
    e'.imaxCount = (if p.imax ≤ feed then e.imaxCount + 1 else 0) ∧
    e'.revCount = (if p.revEnable = true ∧ i ≤ -(p.irev : Int) then e.revCount + 1 else 0) ∧
    (cause = some .imax ↔ byImax) ∧
    (cause = some .delta ↔ ¬ byImax ∧ delta = true) ∧
    (cause = some .reverse ↔ ¬ byImax ∧ delta = false ∧ byReverse) ∧
    (cause = some .thermal ↔ ¬ byImax ∧ delta = false ∧ ¬ byReverse ∧ heatLimit e.copy.thermal ≤ e.heat ∧
      e.copy.thermal.enable = true) ∧
    e' = { e with stage := e'.stage, arming := e'.arming, imaxCount := e'.imaxCount, revCount := e'.revCount } ∧
    (e.stage = .idle → ∀ newer older, e.history = [newer, older] →
      delta = false ∧
      ((p.dstart : Int) ≤ (feed : Int) - older →
        e'.stage = .rising ∧ e'.arming = some { base := older, window := 0, confirm := 0, lowRun := 0,
                                                rate := (feed : Int) - older, peak := feed }) ∧
      ((feed : Int) - older < p.dstart → e'.stage = .idle ∧ e'.arming = e.arming)) ∧
    (e.stage = .idle → e.history.length < 2 → e'.stage = .idle ∧ e'.arming = e.arming ∧ delta = false) ∧
    (∀ a newer older, e.stage = .rising → e.arming = some a → e.history = [newer, older] →
      let seen := { a with window := min 65535 (a.window + 1), peak := max a.peak feed : Arming }
      let run := if (feed : Int) - older < p.dreset then a.lowRun + 1 else 0
      delta = false ∧
      ((p.ditrip : Int) ≤ (feed : Int) - a.base →
        e'.stage = .confirm ∧ e'.arming = some { seen with confirm := 0 }) ∧
      ((feed : Int) - a.base < p.ditrip → 2 ≤ run ∨ p.wmax ≤ seen.window → e'.stage = .idle ∧ e'.arming = none) ∧
      ((feed : Int) - a.base < p.ditrip → run < 2 → seen.window < p.wmax →
        e'.stage = .rising ∧ e'.arming = some { seen with lowRun := run })) ∧
    (∀ a, e.stage = .confirm → e.arming = some a →
      let seen := { a with window := min 65535 (a.window + 1), confirm := a.confirm + 1, peak := max a.peak feed : Arming }
      ((feed : Int) - a.base < ((p.ditrip * 7 / 8 : Nat) : Int) →
        e'.stage = .rising ∧ e'.arming = some { seen with confirm := 0, lowRun := 0 } ∧ delta = false) ∧
      (((p.ditrip * 7 / 8 : Nat) : Int) ≤ (feed : Int) - a.base →
        e'.stage = .confirm ∧ e'.arming = some seen ∧ (delta = true ↔ p.cconf ≤ seen.confirm)))

/-- Where a confirmed open leads: the override, the causes that never reclose, then the reclose path with its attempt count; and
the length of the dead time. -/
def Obligations.ReclosePath : Prop :=
  ∀ (isolated barred : Bool) (n : Nat) (r : Sequencer),
    let o := confirmedOutcome isolated barred n r
    (r.override = some .opened → o = .opened) ∧
    (r.override = some .lockout → o = .lockout r.attempts) ∧
    (r.override = none →
      (r.cause = some .command ∨ r.cause = some .hold → o = .opened) ∧
      (r.cause = some .backup ∨ r.cause = some .measure ∨ r.cause = some .emergency → o = .lockout r.attempts) ∧
      (r.cause = some .imax ∨ r.cause = some .delta ∨ r.cause = some .thermal ∨ r.cause = some .reverse ∨
          r.cause = some .direct ∨ r.cause = some .intertrip →
        (isolated = true → o = .opened) ∧
        (isolated = false → barred = true → o = .lockout r.attempts) ∧
        (isolated = false → barred = false → r.inReclaim ≠ some true →
          o = if n = 0 then .lockout 0 else .dead 0) ∧
        (isolated = false → barred = false → r.inReclaim = some true →
          o = if n ≤ r.attempts + 1 then .lockout n else .dead (r.attempts + 1)))) ∧
    ∀ set : RecloseSettings,
      deadLength set r =
        min (set.tDead * 500 * 2 ^ r.attempts) 60000 + if r.cause = some .intertrip then set.tOffset * 500 else 0

/-! ### Rectifier group -/

/-- REFERENCE_SUPERVISION_, SYNC_ and WAKE_TIMER_EXPIRY. -/
def Obligations.RectifierTimers : Prop :=
  ∀ s : State, Ready s → NothingWaits s →
    let becomes := fun (u : State) (r : Rectifier) => (State.deriveBusFeed { u with rect := r }).finish
    let low := fun b : BridgeRec => { b with low := 0 }
    let syncing :=
      { s.rect with
        state := .syncing, cause := none, tripTime := none, ramp := none, wakeTimer := none,
        alpha := (s.store.cfg.alphaMax : Int), busFault := 0, pulses := [], bridge1 := low s.rect.bridge1,
        bridge2 := low s.rect.bridge2, syncCount := some 0, syncTimer := some 2000 }
    (s.rect.refTimer ≠ none → s.rect.state = .off ∨ s.rect.state = .tripped ∨ s.rect.state = .syncing ∨
        s.rect.state = .standby →
      exec .referenceSupervisionExpiry s =
        .next (State.finish { s with rect := { s.rect with refTimer := none, refsPresent := false } })) ∧
    (s.rect.refTimer ≠ none → s.rect.state = .ramping ∨ s.rect.state = .regulating ∨ s.rect.state = .limiting →
      s.rect.dips ≤ 65535 →
      exec .referenceSupervisionExpiry s =
        .next (becomes (s.pulse 47)
          { syncing with refTimer := none, refsPresent := false, dips := min 65535 (s.rect.dips + 1) })) ∧
    (s.rect.syncTimer ≠ none → s.rect.state = .syncing →
      exec .syncTimerExpiry s =
        .next (becomes s
          { s.rect with
            state := .tripped, cause := some .mains, tripTime := some s.stamp, ramp := none, syncCount := none,
            syncTimer := none, wakeTimer := none, alpha := (s.store.cfg.alphaMax : Int), busFault := 0, pulses := [],
            bridge1 := low s.rect.bridge1, bridge2 := low s.rect.bridge2 })) ∧
    (s.rect.wakeTimer ≠ none → s.rect.state = .standby →
      (s.rect.refsPresent = false → exec .wakeTimerExpiry s = .next (becomes s syncing)) ∧
      (s.rect.refsPresent = true →
        exec .wakeTimerExpiry s =
          .next (becomes s
            { s.rect with
              state := .ramping, cause := none, tripTime := none, syncCount := none, syncTimer := none,
              wakeTimer := none, busFault := 0, ramp := some (16 * (s.channel chUB).value.toNat),
              bridge1 := { s.rect.bridge1 with pair := 0 }, bridge2 := { s.rect.bridge2 with pair := 0 } })))

/-- COMMUTATION_REFERENCE and GATE_PULSE: the reference and its interval, the pulses both bridges place while the group
delivers, the sync count, and the pulse emitted at its placement time while its bridge is in use. -/
def Obligations.ReferencesAndPulses : Prop :=
  ∀ (s : State) (elapsed : Nat), Ready s →
    let interval := if s.rect.refSeen then some (min 65535 elapsed) else none
    let taken :=
      { s.rect with lastInterval := interval, refSeen := true, refTimer := some 5, refsPresent := true }
    (s.rect.state = .off ∨ s.rect.state = .standby ∨ s.rect.state = .tripped →
      exec (.commutationReference elapsed) s = .next (State.finish { s with rect := taken })) ∧
    (s.rect.state = .ramping ∨ s.rect.state = .regulating ∨ s.rect.state = .limiting → s.rect.refSeen = true →
      s.rect.bridge1.lost = false → s.rect.bridge2.lost = false →
      let next := fun n : Nat => n % 6 + 1
      let delay := (s.rect.alpha * (max 1500 (min 1833 (min 65535 elapsed)) : Nat)).tdiv 300
      exec (.commutationReference elapsed) s =
        .next (State.finish { s with rect :=
          { taken with
            bridge1 := { s.rect.bridge1 with pair := next s.rect.bridge1.pair }
            bridge2 := { s.rect.bridge2 with pair := next s.rect.bridge2.pair }
            pulses := s.rect.pulses ++
              [{ bridge := .one, pair := next s.rect.bridge1.pair, delay := delay },
               { bridge := .two, pair := next s.rect.bridge2.pair, delay := delay }] } })) ∧
    (∀ n, s.rect.state = .syncing → s.rect.syncCount = some n → s.rect.refSeen = true →
      let count := if 1500 ≤ min 65535 elapsed ∧ min 65535 elapsed ≤ 1833 then n + 1 else 1
      (count < 24 → exec (.commutationReference elapsed) s =
        .next (State.finish { s with rect := { taken with syncCount := some count } })) ∧
      (24 ≤ count → NothingWaits s → exec (.commutationReference elapsed) s =
        .next (State.deriveBusFeed { s with rect :=
          { taken with
            state := .ramping, cause := none, tripTime := none, syncCount := none, syncTimer := none, wakeTimer := none,
            busFault := 0, ramp := some (16 * (s.channel chUB).value.toNat),
            bridge1 := { s.rect.bridge1 with pair := 0 }, bridge2 := { s.rect.bridge2 with pair := 0 } } }).finish)) ∧
    ∀ (x : GatePulse) (rest : List GatePulse), s.rect.pulses = x :: rest →
      (s.rect.state = .ramping ∨ s.rect.state = .regulating ∨ s.rect.state = .limiting →
        (s.rect.bridge x.bridge).lost = false →
        exec (.gatePulse x.bridge x.pair) s =
          .next { s with rect := { s.rect with pulses := rest, gateOut := some x } }) ∧
      ((s.rect.bridge x.bridge).lost = true →
        exec (.gatePulse x.bridge x.pair) s = .next { s with rect := { s.rect with pulses := rest } })

/-- One regulation step: the reference with its droop, the state after the current limit, the angle moved by the voltage term,
or by the larger of both terms in LIMITING, and kept within its limits; in RAMPING the effective reference is the ramp. -/
def Obligations.RegulationStep : Prop :=
  ∀ (set : RectSettings) (lo hi : Nat) (ub ir : Int) (r : Rectifier), lo ≤ hi →
    let r' := regulate set lo hi ub ir r
    let uRef := (set.uSet : Int) - ((set.rd : Int) * ir).tdiv 1000
    let iEff := if r.degraded then set.iLim / 2 else set.iLim
    let dv := fun uEff : Int => (-((set.kv : Int) * (uEff - ub))).tdiv 64
    let dc := max 1 (((set.kc : Int) * (ir - iEff)).tdiv 64)
    let limited := fun v : Int => max (lo : Int) (min (hi : Int) v)
    r'.uRef = some uRef ∧ (lo : Int) ≤ r'.alpha ∧ r'.alpha ≤ hi ∧
    (r.state = .regulating → ir ≤ iEff → r'.state = .regulating ∧ r'.alpha = limited (r.alpha + dv uRef)) ∧
    (r.state = .regulating → (iEff : Int) < ir →
      r'.state = .limiting ∧ r'.alpha = limited (r.alpha + max (dv uRef) dc)) ∧
    (r.state = .limiting → ir ≤ ((iEff * 15 / 16 : Nat) : Int) →
      r'.state = .regulating ∧ r'.alpha = limited (r.alpha + dv uRef)) ∧
    (r.state = .limiting → ((iEff * 15 / 16 : Nat) : Int) < ir →
      r'.state = .limiting ∧ r'.alpha = limited (r.alpha + max (dv uRef) dc)) ∧
    ∀ v, r.state = .ramping → r.ramp = some v → ir ≤ iEff →
      let v' := min 36000 (v + set.sRamp)
      (16 * uRef ≤ (v' : Int) →
        r'.state = .regulating ∧ r'.ramp = none ∧ r'.alpha = limited (r.alpha + dv uRef)) ∧
      ((v' : Int) < 16 * uRef →
        r'.state = .ramping ∧ r'.ramp = some v' ∧ r'.alpha = limited (r.alpha + dv ((v' / 16 : Nat) : Int)))

/-! ### Sections and holds -/

/-- R96, R97: energisation and dead run of every section on an arrival that carries its voltage channel; outside equipment
verification no arrival carries the voltage of a channel that stands FAILED. -/
def Obligations.EnergisationJudged : Prop :=
  ∀ (s : State) (valid : Half), (∀ n, (s.sec n).deadRun ≤ 8) →
    ∃ v, s.takeArrival .sections valid = { s with sections := v } ∧
      (∀ k : FeederNo, voltageChannel (sectionOf k) = chUL k) ∧ voltageChannel busSection = chUB ∧
      ∀ n,
        let value := (s.channel (voltageChannel n)).value
        let lost := s.verification = none ∧ (s.channel (voltageChannel n)).state = .failed
        (valid.getLsbD (voltageChannel n).val = false ∨ lost → v.get n = s.sec n) ∧
        (valid.getLsbD (voltageChannel n).val = true → ¬ lost →
          ((s.store.inUse.uLive : Int) ≤ value → v.get n = { s.sec n with energisation := .live, deadRun := 0 }) ∧
          (value < s.store.inUse.uLive → value ≤ s.store.inUse.uDead →
            v.get n = { s.sec n with energisation := .dead, deadRun := min 8 ((s.sec n).deadRun + 1) }) ∧
          (value < s.store.inUse.uLive → (s.store.inUse.uDead : Int) < value →
            v.get n = { s.sec n with energisation := .unproven, deadRun := 0 }))

/-- The feed mode of a section and of the bus, the close permission, the answer to an earth close request, and the wanted parameter
set of a feeder, which is handed to its engine when the derived value changes. -/
def Obligations.SectionJudgements : Prop :=
  ∀ (s : State) (k : FeederNo),
    let localEnd := s.breakerPos k = some .closed
    let remoteEnd := s.share k ≠ none ∧ (s.sec (sectionOf k)).neighbour = some .closed
    (localEnd → remoteEnd → s.lineFeed k = .fedBoth) ∧ (localEnd → ¬ remoteEnd → s.lineFeed k = .fedLocal) ∧
    (¬ localEnd → remoteEnd → s.lineFeed k = .fedRemote) ∧ (¬ localEnd → ¬ remoteEnd → s.lineFeed k = .unfed) ∧
    (let delivers := s.rect.state = .ramping ∨ s.rect.state = .regulating ∨ s.rect.state = .limiting
     let backFed := ∃ j, (s.sec (sectionOf j)).feed = .fedBoth
     (delivers → backFed → s.busFeed = .fedBoth) ∧ (delivers → ¬ backFed → s.busFeed = .fedLocal) ∧
     (¬ delivers → backFed → s.busFeed = .fedRemote) ∧ (¬ delivers → ¬ backFed → s.busFeed = .unfed)) ∧
    (s.wantedOf k = .double ↔
      (∃ p line, s.share k = some (p, line) ∧ (s.link p).state = .up) ∧
      (s.sec (sectionOf k)).neighbour = some .closed ∧ s.breakerPos k = some .closed) ∧
    (s.fitted k = true → (s.sec (sectionOf k)).wanted ≠ s.wantedOf k →
      ((s.deriveWanted k).sec (sectionOf k)).wanted = s.wantedOf k ∧ ((s.deriveWanted k).engine k).wanted = s.wantedOf k) ∧
    (s.fitted k = false ∨ (s.sec (sectionOf k)).wanted = s.wantedOf k → s.deriveWanted k = s) ∧
    ((s.barsOf (sectionOf k)).barred = true ↔
      (s.sec (sectionOf k)).isolate ≠ 0 ∨ (s.sec busSection).isolate ≠ 0 ∨
      ((s.sec (sectionOf k)).commandedClosed = true ∨ s.earthPos k ≠ some .opened) ∨
      (s.seq k).state = some .lockout ∨ (s.seq k).state = some .breakerFault ∨ s.fitted k = false) ∧
    ((s.barsOf busSection).barred = true ↔ (s.sec busSection).isolate ≠ 0) ∧
    s.earthAnswer busSection = .badSection ∧
    (s.fitted k = false → s.earthAnswer (sectionOf k) = .badSection) ∧
    (s.fitted k = true → (s.sec (sectionOf k)).earth = 0 ∨ s.breakerPos k ≠ some .opened →
      s.earthAnswer (sectionOf k) = .breaker) ∧
    (s.fitted k = true → (s.sec (sectionOf k)).earth ≠ 0 → s.breakerPos k = some .opened →
      s.earthAnswer (sectionOf k) = .granted)

/-- EARTH_MISMATCH_TIMER_EXPIRY; what the fall of a hold's counts does to every section (R101, R105); and the timers of a hold of this
station without asks, with no feeder waiting: SECURING_LIMIT_, PROVING_LIMIT_ and EARTHING_LIMIT_EXPIRY fail it, PROVING_WAIT_EXPIRY
judges its proof and takes an EARTH hold on to EARTHING with an earth close request, DROP_LIMIT_ and RETIRE_TIMER_EXPIRY retire it,
MINUTE_TIMER_EXPIRY counts its minutes. -/
def Obligations.HoldTimersExpire : Prop :=
  (∀ (s : State) (k : FeederNo), Ready s → (s.sec (sectionOf k)).mismatchTimer ≠ none →
    exec (.earthMismatchTimerExpiry k) s =
      .next (s.modSec (sectionOf k) fun r => { r with mismatchTimer := none, mismatch := true }).finish) ∧
  (∀ (s : State) (h : Hold), h.sections.Nodup →
    let t := s.lowerHold h
    OnlyChanges [.sections, .agenda] s t ∧ ∀ n,
      let r := s.sec n
      let ends := n ∈ h.sections ∧ n ≠ busSection ∧ h.kind = .earth ∧ r.earth ≤ 1 ∧ r.commandedClosed = true
      let there := ∃ k, n = sectionOf k ∧ s.earthPos k = some .opened
      (t.sec n).isolate = (if n ∈ h.sections ∧ h.kind ≠ .noreclose then r.isolate - 1 else r.isolate) ∧
      (t.sec n).earth = (if n ∈ h.sections ∧ n ≠ busSection ∧ h.kind = .earth then r.earth - 1 else r.earth) ∧
      (t.sec n).noreclose =
        (if n ∈ h.sections ∧ n ≠ busSection ∧ h.kind = .noreclose then r.noreclose - 1 else r.noreclose) ∧
      (ends → (t.sec n).commandedClosed = false ∧
        (there → (t.sec n).drive = .none ∧ (t.sec n).mismatchTimer = none) ∧
        (¬ there → (t.sec n).drive = .opened ∧ (t.sec n).mismatchTimer = some 10000)) ∧
      (¬ ends → (t.sec n).commandedClosed = r.commandedClosed ∧ (t.sec n).drive = r.drive ∧
        (t.sec n).mismatchTimer = r.mismatchTimer) ∧
      (t.sec n).neighbour = r.neighbour ∧ (t.sec n).energisation = r.energisation ∧ (t.sec n).deadRun = r.deadRun ∧
      (t.sec n).feed = r.feed ∧ (t.sec n).mismatch = r.mismatch ∧ (t.sec n).wanted = r.wanted ∧
      (n ∈ h.sections → n ≠ busSection → (t.sec n).bars = t.barsOf n)) ∧
  ∀ (s : State) (id : Byte) (h : Hold), Ready s → (∀ k, (s.seq k).wait = none) → s.hold id = some h →
    h.origin = .station ∨ h.origin = .panel → h.asks = [] → h.sections.length ≤ 7 →
    let gone := fun u : State => u.modHolds fun l => l.filter fun x => x.id ≠ id
    let quiet := fun u : State => State.finish { u with agenda := [] }
    let failing := fun (reason : FailReason) (u : State) => quiet (State.pulse 57 ((u.modHold id fun x =>
      { x with
        state := .failed, failure := some reason,
        timers := { securing := none, provingWait := none, provingLimit := none, earthing := none, drop := none,
                    retire := some 600000, minute := none } }).lowerHold h))
    let earthing := s.modHold id fun x =>
      { x with
        state := .earthing, purpose := none, phase := none, unearth := []
        timers := { securing := none, provingWait := none, provingLimit := none, earthing := some 10000, drop := none,
                    retire := none, minute := none } }
    let active := fun x : Hold =>
      { x with
        state := .active
        timers := { securing := none, provingWait := none, provingLimit := none, earthing := none, drop := none,
                    retire := none, minute := x.timers.minute } }
    (h.timers.securing ≠ none → h.state = .securing →
      exec (.securingLimitExpiry id) s = .next (failing .timeout s)) ∧
    (h.timers.provingLimit ≠ none → h.state = .proving →
      exec (.provingLimitExpiry id) s = .next (failing .live s)) ∧
    (h.timers.earthing ≠ none → h.state = .earthing →
      exec (.earthingLimitExpiry id) s = .next (failing .earth s)) ∧
    (h.timers.provingWait ≠ none → h.state = .proving →
      (s.provedDead h = false →
        exec (.provingWaitExpiry id) s =
          .next (s.modHold id fun x => { x with timers := { x.timers with provingWait := none } }).finish) ∧
      (s.provedDead h = true → h.kind = .isolate →
        exec (.provingWaitExpiry id) s = .next (s.modHold id active).finish) ∧
      ∀ k, s.provedDead h = true → h.kind = .earth → h.sections = [sectionOf k] → s.fitted k = true →
        (s.sec (sectionOf k)).commandedClosed = false → s.unearthing (sectionOf k) = [] →
        (s.breakerPos k = some .opened → (s.sec (sectionOf k)).earth ≠ 0 →
          (s.earthPos k ≠ some .closed →
            exec (.provingWaitExpiry id) s =
              .next (State.deriveBars (sectionOf k) (earthing.modSec (sectionOf k) fun r =>
                { r with commandedClosed := true, drive := .close, mismatchTimer := some 10000 })).finish) ∧
          (s.earthPos k = some .closed →
            exec (.provingWaitExpiry id) s =
              .next ((State.deriveBars (sectionOf k) (earthing.modSec (sectionOf k) fun r =>
                { r with commandedClosed := true, drive := .none, mismatchTimer := none })).modHold id active).finish)) ∧
        (s.breakerPos k ≠ some .opened ∨ (s.sec (sectionOf k)).earth = 0 →
          exec (.provingWaitExpiry id) s = .next (failing .breaker earthing))) ∧
    (h.timers.drop ≠ none → h.state = .releasing →
      exec (.dropLimitExpiry id) s = .next (quiet (((gone s).lowerHold h).unbind id))) ∧
    (h.timers.retire ≠ none → h.state = .failed →
      exec (.retireTimerExpiry id) s = .next ((gone s).unbind id).finish) ∧
    (h.timers.minute ≠ none →
      (∀ n, h.remaining = some (n + 2) →
        exec (.minuteTimerExpiry id) s =
          .next (s.modHold id fun x =>
            { x with remaining := some (n + 1), timers := { x.timers with minute := some 60000 } }).finish) ∧
      ∀ k, h.remaining = some 1 → h.kind = .noreclose → h.state = .active → h.sections = [sectionOf k] →
        exec (.minuteTimerExpiry id) s =
          .next ((State.deriveBars (sectionOf k) ((gone ((s.pulse 58).modHold id fun x =>
            { x with remaining := some 0, timers := { x.timers with minute := none } })).modSec (sectionOf k) fun r =>
              { r with noreclose := r.noreclose - 1 })).unbind id).finish)

/-! ### Neighbour links -/

/-- The eight kinds of message heard on a link that is UP: a BEACON, whose entries reach the sections shared on its port (R98, R159); an
INTERTRIP (R66, R160); an ASK denied, placed as a PEER hold with its GRANT, and repeated (R118, R161), and taken in every state; a
GRANT, a DENY, a DROP and a DROPPED (R120, R122, R136, R138, R163); an AUDIT, by its three steps (R166). -/
def Obligations.MessagesTaken : Prop :=
  (∀ (s : State) (p : Port) (station id line : Byte) (kind : HoldKind), ∃ t, exec (.ask p station id line kind) s = .next t) ∧
  ∀ (s : State) (p : Port) (station id : Byte), Ready s → s.verification = none → (s.link p).state = .up →
    station = (s.store.cfg.port p).neighbour → id ≠ 0 →
    let heard := s.modLink p fun l => { l with supervision := some 350 }
    let shared := fun (k : FeederNo) (line : Byte) => s.share k = some (p, line) ∧ ∀ j, s.share j = some (p, line) → j = k
    let gone := fun (x : Byte) (u : State) => u.modHolds fun l => l.filter fun y => y.id ≠ x
    let noTimers : HoldTimers :=
      { securing := none, provingWait := none, provingLimit := none, earthing := none, drop := none, retire := none,
        minute := none }
    (∀ (entries : List BeaconEntry) (delivers : Bool), fieldsValid (.beacon entries delivers) = true →
      let told := s.modLink p fun l =>
        { l with supervision := some 350, report := some { entries := entries, delivering := delivers } }
      ((∀ k line, s.share k ≠ some (p, line)) → exec (.beacon p station entries delivers) s = .next told.finish) ∧
      ∀ (k : FeederNo) (line : Byte), s.share k = some (p, line) → (∀ j l, s.share j = some (p, l) → j = k) →
        let said : NeighbourBreaker := match entries.find? fun (e : BeaconEntry) => e.line == line with
          | some e => if e.closed = true then .closed else .opened
          | none => .unknown
        let seen := told.modSec (sectionOf k) fun r => { r with neighbour := some said }
        let lineFed := seen.modSec (sectionOf k) fun r => { r with feed := seen.lineFeed k }
        let fed := lineFed.modSec busSection fun r => { r with feed := lineFed.busFeed }
        let set : SetSel := if said = .closed ∧ s.breakerPos k = some .closed then .double else .single
        ((s.sec (sectionOf k)).neighbour = some said → exec (.beacon p station entries delivers) s = .next told.finish) ∧
        ((s.sec (sectionOf k)).neighbour ≠ some said → s.fitted k = false ∨ (s.sec (sectionOf k)).wanted = set →
          exec (.beacon p station entries delivers) s = .next fed.finish) ∧
        ((s.sec (sectionOf k)).neighbour ≠ some said → s.fitted k = true → (s.sec (sectionOf k)).wanted ≠ set →
          EngineRests s k → (s.engine k).setInUse ≠ set → (s.seq k).wait = none →
          exec (.beacon p station entries delivers) s =
            .next ((fed.modSec (sectionOf k) fun r => { r with wanted := set }).modEngine k fun e =>
              { e with
                wanted := set, setInUse := set
                warning := e.copy.thermal.enable && decide (heatLimit e.copy.thermal * 3 / 4 ≤ e.heat)
                recloseBar := e.copy.thermal.enable && decide (heatLimit e.copy.thermal / 2 < e.heat) }).finish)) ∧
    (∀ (line : Byte) (cause : IntertripCause), line ≠ 0 →
      let kept := s.modLink p fun l =>
        { l with supervision := some 350, lastIntertrip := some { line := line, cause := cause, stamp := s.stamp } }
      ((∀ k, s.share k ≠ some (p, line)) → exec (.intertrip p station line cause) s = .next kept.finish) ∧
      ∀ k, shared k line →
        ((s.seq k).state = some .opened → exec (.intertrip p station line cause) s = .next (kept.pulse 55).finish) ∧
        ((s.seq k).state = some .inService → FeederQuiet s k → s.breakerPos k ≠ some .opened →
          exec (.intertrip p station line cause) s =
            .next (State.deriveBars (sectionOf k) (((kept.pulse 55).modSeq k fun r =>
              r.tripped (s.demandRecord k .intertrip) (some (r.openPulse.getD s.store.cfg.tOpenMax))).pulse
                (feederPoint 0 k))).finish)) ∧
    (∀ (line : Byte) (kind : HoldKind), line ≠ 0 →
      let taken := if kind = .noreclose then HoldKind.noreclose else .isolate
      (s.peerHold p id = none → (∀ k, s.share k ≠ some (p, line)) →
        exec (.ask p station id line kind) s = .next (heard.queueMessage p (.deny id .wrongSection)).finish) ∧
      ∀ k, shared k line →
        let holdId := drawId s.ht.holds s.ht.lastId
        let origin : Origin := if p = .a then .peerA else .peerB
        let placed : Hold :=
          { id := holdId, kind := taken, origin := origin, tag := id.setWidth 16, sections := [sectionOf k],
            state := .securing, remaining := none, asks := [], purpose := none, phase := none, unearth := [],
            failure := none, placed := s.stamp, timers := { noTimers with securing := some 30000 } }
        let counted := State.deriveBars (sectionOf k)
          ((heard.handTable (s.ht.holds ++ [placed]) holdId).modSec (sectionOf k) fun r =>
            if taken = .noreclose then { r with noreclose := r.noreclose + 1 } else { r with isolate := r.isolate + 1 })
        (s.peerHold p id = none → s.fitted k = true → s.ht.holds.length < 24 →
          (s.ht.holds.filter fun h => h.origin = origin).length < 8 →
          (kind = .noreclose ∧ (s.seq k).state = some .inService) ∨
            (kind ≠ .noreclose ∧ s.isolated k = false ∧ s.securingOver k = [] ∧
              ((s.seq k).state = some .opened ∨ (s.seq k).state = some .lockout) ∧ s.breakerPos k = some .opened) →
          exec (.ask p station id line kind) s =
            .next ((counted.modHold holdId fun x => { x with state := .active, timers := noTimers }).queueMessage p
              (.grant id holdId)).finish) ∧
        ∀ h, s.peerHold p id = some h → h.kind = taken → h.sections = [sectionOf k] →
          (h.state = .securing → exec (.ask p station id line kind) s = .next heard.finish) ∧
          (h.state = .active →
            exec (.ask p station id line kind) s = .next (heard.queueMessage p (.grant id h.id)).finish)) ∧
    (∀ holdId : Byte, holdId ≠ 0 →
      (s.hold id = none → exec (.grant p station id holdId) s = .next (heard.queueMessage p (.drop id)).finish) ∧
      ∀ h, s.hold id = some h → (h.askOn p).isSome → h.state = .proving ∨ h.state = .earthing ∨ h.state = .active →
        exec (.grant p station id holdId) s =
          .next (heard.modHold id fun x =>
            { x with asks := x.asks.map fun a =>
                if a.port = p then { a with status := .granted, peerId := some holdId } else a }).finish) ∧
    (∀ reason,
      (s.hold id = none → exec (.deny p station id reason) s = .next heard.finish) ∧
      ∀ h a, s.hold id = some h → h.asks = [a] → a.port = p → a.status = .asked → h.state = .securing →
        h.origin = .station → h.sections.length ≤ 7 → (∀ k, (s.seq k).wait = none) →
        exec (.deny p station id reason) s =
          .next (State.finish { State.pulse 57 (((heard.modHold id fun x =>
            { x with
              asks := x.asks.map fun a =>
                if a.port = p then { a with status := .denied, deny := some reason, awaiting := false } else a }).modHold id
            fun x =>
              { x with
                state := .failed, failure := some .peerDenied, timers := { noTimers with retire := some 600000 } }).lowerHold
                  h) with agenda := [] })) ∧
    ((s.peerHold p id = none → exec (.drop p station id) s = .next (heard.queueMessage p (.dropped id)).finish) ∧
      ∀ h k, s.peerHold p id = some h → s.hold h.id = some h → h.kind ≠ .earth → h.sections = [sectionOf k] → h.asks = [] →
        (s.seq k).wait = none → h.state = .securing ∨ h.state = .active →
        exec (.drop p station id) s =
          .next (((State.deriveBars (sectionOf k) ((gone h.id heard).modSec (sectionOf k) fun r =>
            if h.kind = .noreclose then { r with noreclose := r.noreclose - 1 }
            else { r with isolate := r.isolate - 1 })).unbind h.id).queueMessage p (.dropped id)).finish) ∧
    ((s.hold id = none → exec (.dropped p station id) s = .next heard.finish) ∧
      ∀ h a, s.hold id = some h → h.asks = [a] → a.port = p → a.awaiting = true → h.state = .releasing →
        h.phase = some .peerDrop → h.sections.length ≤ 7 → (∀ k, (s.seq k).wait = none) →
        exec (.dropped p station id) s =
          .next (State.finish { ((gone id (heard.modHold id fun x =>
            { x with asks := x.asks.map fun a => if a.port = p then { a with awaiting := false } else a })).lowerHold
              h).unbind id with agenda := [] })) ∧
    ∀ ids, fieldsValid (.audit ids) = true →
      let stands := fun h : Hold => h.state = .securing ∨ h.state = .proving ∨ h.state = .earthing ∨ h.state = .active ∨
        (h.state = .releasing ∧ h.phase = some .earthOpen)
      let asks := fun status : AskStatus => s.ht.holds.filterMap fun h => match h.asks.find? fun a => a.port = p with
        | some a => if stands h ∧ a.status = status then some (h.id, a.line, h.kind) else none
        | none => none
      let ends := ids.filter fun x => decide (∀ h ∈ s.ht.holds, h.id = x → ¬ stands h ∨ ∀ a ∈ h.asks, a.port ≠ p)
      let lost := (asks .granted).filter fun x => decide (x.1 ∉ ids)
      let dropping := forEach ends (fun x => State.queueMessage p (.drop x)) heard
      let asking := forEach (asks .asked) (fun x => State.queueMessage p (.ask x.1 x.2.1 x.2.2)) dropping
      let again := forEach lost (fun x u => (u.modHold x.1 fun h =>
        { h with asks := h.asks.map fun a =>
            if a.port = p then { a with status := .asked, peerId := none } else a }).queueMessage p (.ask x.1 x.2.1 x.2.2)) asking
      exec (.audit p station ids) s = .next (if lost = [] then again else again.pulse 59).finish

/-- Messages that are not taken, and what messages do to a link: on an UNUSED port, and until equipment verification has ended,
nothing is taken or counted; a message of another station, and one that the link discards, counts an error, pulses the port's
point at every sixteenth, leaves a link that is UP standing and takes one in JOINING back to DOWN; three valid messages in a row
bring it UP, with its AUDIT, its beacon and the asks that wait for it. -/
def Obligations.MessagesDiscarded : Prop :=
  ∀ (s : State) (p : Port) (station id : Byte), Ready s →
    let counted := s.modLink p fun l => { l with errors := min 65535 (l.errors + 1) }
    let point := if p = .a then 53 else 54
    let n := (s.link p).errors
    (s.verification ≠ none ∨ (s.link p).state = .unused →
      exec (.dropped p station id) s = .next s.finish ∧ exec (.discardedMessage p) s = .next s.finish) ∧
    (s.verification = none → (s.link p).state = .up → n ≤ 65535 →
      (n = 65535 ∨ (n + 1) % 16 ≠ 0 →
        exec (.discardedMessage p) s = .next counted.finish ∧
        (station ≠ (s.store.cfg.port p).neighbour → exec (.dropped p station id) s = .next counted.finish)) ∧
      (n < 65535 → (n + 1) % 16 = 0 → exec (.discardedMessage p) s = .next (counted.pulse point).finish)) ∧
    (s.verification = none → (s.link p).state = .joining → n ≤ 65535 → (∀ k line, s.share k ≠ some (p, line)) →
      let falls := fun u : State => forEach (s.link p).intertrips (fun _ => State.pulse 56) (u.modLink p fun l =>
        { l with
          state := .down, joinCount := none, supervision := none, intertrips := [], messages := [], beaconDue := false,
          report := none })
      exec (.discardedMessage p) s =
        .next (falls (if n < 65535 ∧ (n + 1) % 16 = 0 then counted.pulse point else counted)).finish) ∧
    (s.verification = none → station = (s.store.cfg.port p).neighbour → id ≠ 0 → s.hold id = none →
      ((s.link p).state = .down →
        exec (.dropped p station id) s =
          .next (s.modLink p fun l =>
            { l with supervision := some 350, state := .joining, joinCount := some 1 }).finish) ∧
      ((s.link p).state = .joining → (s.link p).joinCount = some 1 →
        exec (.dropped p station id) s =
          .next (s.modLink p fun l => { l with supervision := some 350, joinCount := some 2 }).finish) ∧
      ((s.link p).state = .joining → (s.link p).joinCount = some 2 → (s.ht.holds.map Hold.id).Nodup →
        (∀ k line, s.fitted k = true → s.share k = some (p, line) → (s.sec (sectionOf k)).wanted =
          if (s.sec (sectionOf k)).neighbour = some .closed ∧ s.breakerPos k = some .closed then .double else .single) →
        let waiting := s.ht.holds.filterMap fun h => match h.asks.find? fun a => a.port = p with
          | some a => if h.state = .securing ∧ a.status = .none then some (h.id, a.line, h.kind) else none
          | none => none
        let up := s.modLink p fun l => { l with supervision := some 350, state := .up, joinCount := none }
        let rising := (up.queueMessage p .audit).modLink p fun l => { l with beaconDue := true }
        let asking := forEach waiting (fun x u => (u.modHold x.1 fun h =>
          { h with asks := h.asks.map fun a => if a.port = p then { a with status := .asked } else a }).queueMessage p
            (.ask x.1 x.2.1 x.2.2)) rising
        exec (.dropped p station id) s = .next asking.finish))

/-- SUPERVISION_TIMER_, BEACON_TIMER_EXPIRY and TRANSMISSION_COMPLETION: the fall of a link on which nothing is shared, the
beacon that falls due, and the transmitter's choice in its order. -/
def Obligations.LinkTimersAndTransmitter : Prop :=
  ∀ (s : State) (p : Port), Ready s →
    ((s.link p).supervision ≠ none → (∀ k line, s.share k ≠ some (p, line)) → s.ht.holds = [] →
      (s.link p).intertrips = [] →
      exec (.supervisionTimerExpiry p) s =
        .next (s.modLink p fun l =>
          { l with
            state := .down, joinCount := none, supervision := none, intertrips := [], messages := [], beaconDue := false,
            report := none }).finish) ∧
    ((s.link p).beaconTimer ≠ none → (s.link p).state ≠ .unused → (s.link p).inFlight ≠ none →
      exec (.beaconTimerExpiry p) s = .next (s.modLink p fun l => { l with beaconTimer := some 100, beaconDue := true })) ∧
    ((s.link p).inFlight ≠ none → s.verification = none → (s.link p).state ≠ .unused →
      let sends := fun (take : Link → Link) (body : MsgBody) =>
        s.modLink p fun l => { take l with inFlight := some { station := s.store.cfg.station, body := body } }
      (∀ x rest, (s.link p).intertrips = x :: rest →
        exec (.transmissionCompletion p) s =
          .next (sends (fun l => { l with intertrips := rest }) (.intertrip x.line x.cause))) ∧
      (∀ m rest, (s.link p).intertrips = [] → (s.link p).messages = m :: rest →
        exec (.transmissionCompletion p) s =
          .next (sends (fun l => { l with messages := rest }) (s.messageBody p m))) ∧
      ((s.link p).intertrips = [] → (s.link p).messages = [] → (s.link p).beaconDue = true →
        exec (.transmissionCompletion p) s =
          .next (sends (fun l => { l with beaconDue := false })
            (.beacon (s.beaconEntries p) (delivering s.rect.state)))) ∧
      ((s.link p).intertrips = [] → (s.link p).messages = [] → (s.link p).beaconDue = false →
        exec (.transmissionCompletion p) s = .next (s.modLink p fun l => { l with inFlight := none })))

/-- A demand and a hold message behind a busy transmitter: on a DOWN link the demand is lost with a pulse of point 56 and the
message in silence; else an INTERTRIP joins its class, or merges into the pending one of its line with the higher cause, and a
message joins its class, or takes the place of the pending one of its subject. -/
def Obligations.OutboundLists : Prop :=
  ∀ (s : State) (p : Port) (line : Byte) (cause : IntertripCause) (m : HoldMsg), (s.link p).inFlight ≠ none →
    ((s.link p).state = .down → s.intertripDemand p line cause = s.pulse 56 ∧ s.queueMessage p m = s) ∧
    ((s.link p).state = .joining ∨ (s.link p).state = .up →
      ((∀ x ∈ (s.link p).intertrips, x.line ≠ line) →
        s.intertripDemand p line cause =
          s.modLink p fun l => { l with intertrips := l.intertrips ++ [{ line := line, cause := cause }] }) ∧
      (∀ before x after, (s.link p).intertrips = before ++ x :: after → (∀ y ∈ before, y.line ≠ line) → x.line = line →
        s.intertripDemand p line cause =
          s.modLink p fun l =>
            { l with intertrips := before ++
                { line := line
                  cause :=
                    if x.cause = .emergency ∨ cause = .emergency then .emergency
                    else if x.cause = .backup ∨ cause = .backup then .backup
                    else .fault } :: after }) ∧
      ((∀ x ∈ (s.link p).messages, subjectOf x ≠ subjectOf m) →
        s.queueMessage p m = s.modLink p fun l => { l with messages := l.messages ++ [m] }) ∧
      (∀ before x after, (s.link p).messages = before ++ x :: after → (∀ y ∈ before, subjectOf y ≠ subjectOf m) →
        subjectOf x = subjectOf m →
        s.queueMessage p m = s.modLink p fun l => { l with messages := before ++ m :: after }))

/-! ### Points and bands -/

/-- The life of a point that is not masked, after equipment verification: its condition rises and clears, and a pulse comes on a
standing condition and on none; a masked point, which takes neither; and the place on the alert list: a point joins its end, keeps
its place between UNACK and CLEARED-UNACK, and leaves it with its state, and two points that join within one event join in
ascending number. -/
def Obligations.PointLife : Prop :=
  ∀ (s : State) (p : PointNo), s.verification = none →
    let r := s.point p
    let now := s.stamp
    (s.masked p = true → s.pulse p = s ∧ ∀ level, ((s.setLevel p level).point p) = { r with condition := level }) ∧
    (s.masked p = false →
      (r.condition = false →
        (r.state = .normal → (s.setLevel p true).point p =
          { r with condition := true, state := .unack, rise := some now, repeats := some 0 }) ∧
        (∀ n, n ≤ 255 → r.state = .clearedUnack → r.repeats = some n → (s.setLevel p true).point p =
          { r with condition := true, state := .unack, repeats := some (min 255 (n + 1)) }) ∧
        (r.state = .normal → s.pointClass p = .latching → (s.pulse p).point p =
          { r with state := .clearedUnack, rise := some now, repeats := some 0 }) ∧
        (r.state = .normal → s.pointClass p = .selfReset → (s.pulse p).point p =
          { r with rise := none, repeats := none }) ∧
        (∀ n, n ≤ 255 → r.state = .clearedUnack → r.repeats = some n → s.pointClass p = .latching →
          (s.pulse p).point p = { r with repeats := some (min 255 (n + 1)) })) ∧
      (r.condition = true →
        (r.state = .unack → s.pointClass p = .latching → (s.setLevel p false).point p =
          { r with condition := false, state := .clearedUnack }) ∧
        (r.state = .unack → s.pointClass p = .selfReset → (s.setLevel p false).point p =
          { r with condition := false, state := .normal, rise := none, repeats := none }) ∧
        (r.state = .acked → (s.setLevel p false).point p =
          { r with condition := false, state := .normal, rise := none, repeats := none }) ∧
        (∀ n, n ≤ 255 → r.state = .unack → r.repeats = some n → (s.pulse p).point p =
          { r with repeats := some (min 255 (n + 1)) }) ∧
        (r.state = .acked → (s.pulse p).point p =
          { r with state := .unack, rise := some now, repeats := some 0 }))) ∧
    (s.masked p = false → s.au.joining = [] →
      let list := s.au.alerts
      let ends := fun u : State => u.closeAlerts.au.alerts
      (r.condition = false → r.state = .normal → ends (s.setLevel p true) = list ++ [p] ∧
        ∀ q, q ≠ p → s.masked q = false → (s.point q).condition = false → (s.point q).state = .normal →
          ends ((s.setLevel p true).setLevel q true) = list ++ if p.val < q.val then [p, q] else [q, p]) ∧
      (r.condition = true → r.state = .acked → ends (s.pulse p) = list ++ [p] ∧ ends (s.setLevel p false) = list) ∧
      (r.condition = false → r.state = .clearedUnack → ends (s.setLevel p true) = list) ∧
      (r.condition = true → r.state = .unack → s.pointClass p = .latching → ends (s.setLevel p false) = list) ∧
      (r.condition = true → r.state = .unack → s.pointClass p = .selfReset → ends (s.setLevel p false) = list.erase p)) ∧
    ∀ level, (∀ q, q ≠ p → (s.setLevel p level).point q = s.point q ∧ (s.pulse p).point q = s.point q) ∧
      OnlyChanges [.points] s (s.setLevel p level) ∧ OnlyChanges [.points] s (s.pulse p)

/-- The watch bands on one sample arrival. -/
def Obligations.BandsJudged : Prop :=
  ∀ (s : State) (valid : Half),
    ∃ v, s.takeArrival .bands valid = { s with au := { s.au with bands := v } } ∧
      ∀ b : BandNo,
        let set := s.store.inUse.bands.get b
        let r := s.au.bands.get b
        let inside := fun c : ChannelNo => set.low ≤ (s.channel c).value ∧ (s.channel c).value ≤ set.high
        let meets := ∃ c : ChannelNo, set.mask.getLsbD c.val = true ∧ (s.channel c).state = .good ∧
          if set.outside then ¬ inside c else inside c
        (set.enable = false → v.get b = { condition := false, run := 0 }) ∧
        (set.enable = true →
          ((r.condition = false ∧ meets) ∨ (r.condition = true ∧ ¬ meets) →
            v.get b = if set.delay ≤ r.run + 1 then { condition := !r.condition, run := 0 }
              else { r with run := r.run + 1 }) ∧
          ((r.condition = false ∧ ¬ meets) ∨ (r.condition = true ∧ meets) → v.get b = { r with run := 0 }))
end
end

