-- ==== Sys2Proof/Laws/State.lean ====
section
/-! SUPPORT. What each named write leaves in each field of the state, and what it leaves in the record it changes. -/

namespace Sys2Proof.Machine

open Sys2Proof

variable (s : State)

/-! ### One field, one update -/

@[simp] theorem State.setChannel_engines (c : ChannelNo) (r : Channel) : (s.setChannel c r).engines = s.engines := rfl
@[simp] theorem State.setChannel_seqs (c : ChannelNo) (r : Channel) : (s.setChannel c r).seqs = s.seqs := rfl
@[simp] theorem State.setChannel_backupLatch (c : ChannelNo) (r : Channel) : (s.setChannel c r).backupLatch = s.backupLatch := rfl
@[simp] theorem State.setChannel_rect (c : ChannelNo) (r : Channel) : (s.setChannel c r).rect = s.rect := rfl
@[simp] theorem State.setChannel_sections (c : ChannelNo) (r : Channel) : (s.setChannel c r).sections = s.sections := rfl
@[simp] theorem State.setChannel_ht (c : ChannelNo) (r : Channel) : (s.setChannel c r).ht = s.ht := rfl
@[simp] theorem State.setChannel_linkA (c : ChannelNo) (r : Channel) : (s.setChannel c r).linkA = s.linkA := rfl
@[simp] theorem State.setChannel_linkB (c : ChannelNo) (r : Channel) : (s.setChannel c r).linkB = s.linkB := rfl
@[simp] theorem State.setChannel_au (c : ChannelNo) (r : Channel) : (s.setChannel c r).au = s.au := rfl
@[simp] theorem State.setChannel_store (c : ChannelNo) (r : Channel) : (s.setChannel c r).store = s.store := rfl
@[simp] theorem State.setChannel_sp (c : ChannelNo) (r : Channel) : (s.setChannel c r).sp = s.sp := rfl
@[simp] theorem State.setChannel_resetHeld (c : ChannelNo) (r : Channel) : (s.setChannel c r).resetHeld = s.resetHeld := rfl
@[simp] theorem State.setChannel_verification (c : ChannelNo) (r : Channel) : (s.setChannel c r).verification = s.verification := rfl
@[simp] theorem State.setChannel_agenda (c : ChannelNo) (r : Channel) : (s.setChannel c r).agenda = s.agenda := rfl
@[simp] theorem State.setChannel_pending (c : ChannelNo) (r : Channel) : (s.setChannel c r).pending = s.pending := rfl

@[simp] theorem State.setReception_engines (r : Reception) : (s.setReception r).engines = s.engines := rfl
@[simp] theorem State.setReception_seqs (r : Reception) : (s.setReception r).seqs = s.seqs := rfl
@[simp] theorem State.setReception_backupLatch (r : Reception) : (s.setReception r).backupLatch = s.backupLatch := rfl
@[simp] theorem State.setReception_rect (r : Reception) : (s.setReception r).rect = s.rect := rfl
@[simp] theorem State.setReception_sections (r : Reception) : (s.setReception r).sections = s.sections := rfl
@[simp] theorem State.setReception_ht (r : Reception) : (s.setReception r).ht = s.ht := rfl
@[simp] theorem State.setReception_linkA (r : Reception) : (s.setReception r).linkA = s.linkA := rfl
@[simp] theorem State.setReception_linkB (r : Reception) : (s.setReception r).linkB = s.linkB := rfl
@[simp] theorem State.setReception_au (r : Reception) : (s.setReception r).au = s.au := rfl
@[simp] theorem State.setReception_store (r : Reception) : (s.setReception r).store = s.store := rfl
@[simp] theorem State.setReception_sp (r : Reception) : (s.setReception r).sp = s.sp := rfl
@[simp] theorem State.setReception_resetHeld (r : Reception) : (s.setReception r).resetHeld = s.resetHeld := rfl
@[simp] theorem State.setReception_verification (r : Reception) : (s.setReception r).verification = s.verification := rfl
@[simp] theorem State.setReception_agenda (r : Reception) : (s.setReception r).agenda = s.agenda := rfl
@[simp] theorem State.setReception_pending (r : Reception) : (s.setReception r).pending = s.pending := rfl

@[simp] theorem State.setInput_engines (i : InputId) (r : ContactInput) : (s.setInput i r).engines = s.engines := rfl
@[simp] theorem State.setInput_seqs (i : InputId) (r : ContactInput) : (s.setInput i r).seqs = s.seqs := rfl
@[simp] theorem State.setInput_backupLatch (i : InputId) (r : ContactInput) : (s.setInput i r).backupLatch = s.backupLatch := rfl
@[simp] theorem State.setInput_rect (i : InputId) (r : ContactInput) : (s.setInput i r).rect = s.rect := rfl
@[simp] theorem State.setInput_sections (i : InputId) (r : ContactInput) : (s.setInput i r).sections = s.sections := rfl
@[simp] theorem State.setInput_ht (i : InputId) (r : ContactInput) : (s.setInput i r).ht = s.ht := rfl
@[simp] theorem State.setInput_linkA (i : InputId) (r : ContactInput) : (s.setInput i r).linkA = s.linkA := rfl
@[simp] theorem State.setInput_linkB (i : InputId) (r : ContactInput) : (s.setInput i r).linkB = s.linkB := rfl
@[simp] theorem State.setInput_au (i : InputId) (r : ContactInput) : (s.setInput i r).au = s.au := rfl
@[simp] theorem State.setInput_store (i : InputId) (r : ContactInput) : (s.setInput i r).store = s.store := rfl
@[simp] theorem State.setInput_sp (i : InputId) (r : ContactInput) : (s.setInput i r).sp = s.sp := rfl
@[simp] theorem State.setInput_resetHeld (i : InputId) (r : ContactInput) : (s.setInput i r).resetHeld = s.resetHeld := rfl
@[simp] theorem State.setInput_verification (i : InputId) (r : ContactInput) : (s.setInput i r).verification = s.verification := rfl
@[simp] theorem State.setInput_agenda (i : InputId) (r : ContactInput) : (s.setInput i r).agenda = s.agenda := rfl
@[simp] theorem State.setInput_pending (i : InputId) (r : ContactInput) : (s.setInput i r).pending = s.pending := rfl

@[simp] theorem State.setPair_engines (p : PairId) (r : SwitchPair) : (s.setPair p r).engines = s.engines := rfl
@[simp] theorem State.setPair_seqs (p : PairId) (r : SwitchPair) : (s.setPair p r).seqs = s.seqs := rfl
@[simp] theorem State.setPair_backupLatch (p : PairId) (r : SwitchPair) : (s.setPair p r).backupLatch = s.backupLatch := rfl
@[simp] theorem State.setPair_rect (p : PairId) (r : SwitchPair) : (s.setPair p r).rect = s.rect := rfl
@[simp] theorem State.setPair_sections (p : PairId) (r : SwitchPair) : (s.setPair p r).sections = s.sections := rfl
@[simp] theorem State.setPair_ht (p : PairId) (r : SwitchPair) : (s.setPair p r).ht = s.ht := rfl
@[simp] theorem State.setPair_linkA (p : PairId) (r : SwitchPair) : (s.setPair p r).linkA = s.linkA := rfl
@[simp] theorem State.setPair_linkB (p : PairId) (r : SwitchPair) : (s.setPair p r).linkB = s.linkB := rfl
@[simp] theorem State.setPair_au (p : PairId) (r : SwitchPair) : (s.setPair p r).au = s.au := rfl
@[simp] theorem State.setPair_store (p : PairId) (r : SwitchPair) : (s.setPair p r).store = s.store := rfl
@[simp] theorem State.setPair_sp (p : PairId) (r : SwitchPair) : (s.setPair p r).sp = s.sp := rfl
@[simp] theorem State.setPair_resetHeld (p : PairId) (r : SwitchPair) : (s.setPair p r).resetHeld = s.resetHeld := rfl
@[simp] theorem State.setPair_verification (p : PairId) (r : SwitchPair) : (s.setPair p r).verification = s.verification := rfl
@[simp] theorem State.setPair_agenda (p : PairId) (r : SwitchPair) : (s.setPair p r).agenda = s.agenda := rfl
@[simp] theorem State.setPair_pending (p : PairId) (r : SwitchPair) : (s.setPair p r).pending = s.pending := rfl

@[simp] theorem State.modEngine_mi (k : FeederNo) (f : Engine → Engine) : (s.modEngine k f).mi = s.mi := rfl
@[simp] theorem State.modEngine_seqs (k : FeederNo) (f : Engine → Engine) : (s.modEngine k f).seqs = s.seqs := rfl
@[simp] theorem State.modEngine_backupLatch (k : FeederNo) (f : Engine → Engine) : (s.modEngine k f).backupLatch = s.backupLatch := rfl
@[simp] theorem State.modEngine_rect (k : FeederNo) (f : Engine → Engine) : (s.modEngine k f).rect = s.rect := rfl
@[simp] theorem State.modEngine_sections (k : FeederNo) (f : Engine → Engine) : (s.modEngine k f).sections = s.sections := rfl
@[simp] theorem State.modEngine_ht (k : FeederNo) (f : Engine → Engine) : (s.modEngine k f).ht = s.ht := rfl
@[simp] theorem State.modEngine_linkA (k : FeederNo) (f : Engine → Engine) : (s.modEngine k f).linkA = s.linkA := rfl
@[simp] theorem State.modEngine_linkB (k : FeederNo) (f : Engine → Engine) : (s.modEngine k f).linkB = s.linkB := rfl
@[simp] theorem State.modEngine_au (k : FeederNo) (f : Engine → Engine) : (s.modEngine k f).au = s.au := rfl
@[simp] theorem State.modEngine_store (k : FeederNo) (f : Engine → Engine) : (s.modEngine k f).store = s.store := rfl
@[simp] theorem State.modEngine_sp (k : FeederNo) (f : Engine → Engine) : (s.modEngine k f).sp = s.sp := rfl
@[simp] theorem State.modEngine_resetHeld (k : FeederNo) (f : Engine → Engine) : (s.modEngine k f).resetHeld = s.resetHeld := rfl
@[simp] theorem State.modEngine_verification (k : FeederNo) (f : Engine → Engine) : (s.modEngine k f).verification = s.verification := rfl
@[simp] theorem State.modEngine_agenda (k : FeederNo) (f : Engine → Engine) : (s.modEngine k f).agenda = s.agenda := rfl
@[simp] theorem State.modEngine_pending (k : FeederNo) (f : Engine → Engine) : (s.modEngine k f).pending = s.pending := rfl

@[simp] theorem State.modSeq_mi (k : FeederNo) (f : Sequencer → Sequencer) : (s.modSeq k f).mi = s.mi := rfl
@[simp] theorem State.modSeq_engines (k : FeederNo) (f : Sequencer → Sequencer) : (s.modSeq k f).engines = s.engines := rfl
@[simp] theorem State.modSeq_backupLatch (k : FeederNo) (f : Sequencer → Sequencer) : (s.modSeq k f).backupLatch = s.backupLatch := rfl
@[simp] theorem State.modSeq_rect (k : FeederNo) (f : Sequencer → Sequencer) : (s.modSeq k f).rect = s.rect := rfl
@[simp] theorem State.modSeq_sections (k : FeederNo) (f : Sequencer → Sequencer) : (s.modSeq k f).sections = s.sections := rfl
@[simp] theorem State.modSeq_ht (k : FeederNo) (f : Sequencer → Sequencer) : (s.modSeq k f).ht = s.ht := rfl
@[simp] theorem State.modSeq_linkA (k : FeederNo) (f : Sequencer → Sequencer) : (s.modSeq k f).linkA = s.linkA := rfl
@[simp] theorem State.modSeq_linkB (k : FeederNo) (f : Sequencer → Sequencer) : (s.modSeq k f).linkB = s.linkB := rfl
@[simp] theorem State.modSeq_au (k : FeederNo) (f : Sequencer → Sequencer) : (s.modSeq k f).au = s.au := rfl
@[simp] theorem State.modSeq_store (k : FeederNo) (f : Sequencer → Sequencer) : (s.modSeq k f).store = s.store := rfl
@[simp] theorem State.modSeq_sp (k : FeederNo) (f : Sequencer → Sequencer) : (s.modSeq k f).sp = s.sp := rfl
@[simp] theorem State.modSeq_resetHeld (k : FeederNo) (f : Sequencer → Sequencer) : (s.modSeq k f).resetHeld = s.resetHeld := rfl
@[simp] theorem State.modSeq_verification (k : FeederNo) (f : Sequencer → Sequencer) : (s.modSeq k f).verification = s.verification := rfl
@[simp] theorem State.modSeq_agenda (k : FeederNo) (f : Sequencer → Sequencer) : (s.modSeq k f).agenda = s.agenda := rfl
@[simp] theorem State.modSeq_pending (k : FeederNo) (f : Sequencer → Sequencer) : (s.modSeq k f).pending = s.pending := rfl

@[simp] theorem State.modRect_mi (f : Rectifier → Rectifier) : (s.modRect f).mi = s.mi := rfl
@[simp] theorem State.modRect_engines (f : Rectifier → Rectifier) : (s.modRect f).engines = s.engines := rfl
@[simp] theorem State.modRect_seqs (f : Rectifier → Rectifier) : (s.modRect f).seqs = s.seqs := rfl
@[simp] theorem State.modRect_backupLatch (f : Rectifier → Rectifier) : (s.modRect f).backupLatch = s.backupLatch := rfl
@[simp] theorem State.modRect_rect (f : Rectifier → Rectifier) : (s.modRect f).rect = f s.rect := rfl
@[simp] theorem State.modRect_sections (f : Rectifier → Rectifier) : (s.modRect f).sections = s.sections := rfl
@[simp] theorem State.modRect_ht (f : Rectifier → Rectifier) : (s.modRect f).ht = s.ht := rfl
@[simp] theorem State.modRect_linkA (f : Rectifier → Rectifier) : (s.modRect f).linkA = s.linkA := rfl
@[simp] theorem State.modRect_linkB (f : Rectifier → Rectifier) : (s.modRect f).linkB = s.linkB := rfl
@[simp] theorem State.modRect_au (f : Rectifier → Rectifier) : (s.modRect f).au = s.au := rfl
@[simp] theorem State.modRect_store (f : Rectifier → Rectifier) : (s.modRect f).store = s.store := rfl
@[simp] theorem State.modRect_sp (f : Rectifier → Rectifier) : (s.modRect f).sp = s.sp := rfl
@[simp] theorem State.modRect_resetHeld (f : Rectifier → Rectifier) : (s.modRect f).resetHeld = s.resetHeld := rfl
@[simp] theorem State.modRect_verification (f : Rectifier → Rectifier) : (s.modRect f).verification = s.verification := rfl
@[simp] theorem State.modRect_agenda (f : Rectifier → Rectifier) : (s.modRect f).agenda = s.agenda := rfl
@[simp] theorem State.modRect_pending (f : Rectifier → Rectifier) : (s.modRect f).pending = s.pending := rfl

@[simp] theorem State.modSec_mi (n : SectionNo) (f : SectionRec → SectionRec) : (s.modSec n f).mi = s.mi := rfl
@[simp] theorem State.modSec_engines (n : SectionNo) (f : SectionRec → SectionRec) : (s.modSec n f).engines = s.engines := rfl
@[simp] theorem State.modSec_seqs (n : SectionNo) (f : SectionRec → SectionRec) : (s.modSec n f).seqs = s.seqs := rfl
@[simp] theorem State.modSec_backupLatch (n : SectionNo) (f : SectionRec → SectionRec) : (s.modSec n f).backupLatch = s.backupLatch := rfl
@[simp] theorem State.modSec_rect (n : SectionNo) (f : SectionRec → SectionRec) : (s.modSec n f).rect = s.rect := rfl
@[simp] theorem State.modSec_ht (n : SectionNo) (f : SectionRec → SectionRec) : (s.modSec n f).ht = s.ht := rfl
@[simp] theorem State.modSec_linkA (n : SectionNo) (f : SectionRec → SectionRec) : (s.modSec n f).linkA = s.linkA := rfl
@[simp] theorem State.modSec_linkB (n : SectionNo) (f : SectionRec → SectionRec) : (s.modSec n f).linkB = s.linkB := rfl
@[simp] theorem State.modSec_au (n : SectionNo) (f : SectionRec → SectionRec) : (s.modSec n f).au = s.au := rfl
@[simp] theorem State.modSec_store (n : SectionNo) (f : SectionRec → SectionRec) : (s.modSec n f).store = s.store := rfl
@[simp] theorem State.modSec_sp (n : SectionNo) (f : SectionRec → SectionRec) : (s.modSec n f).sp = s.sp := rfl
@[simp] theorem State.modSec_resetHeld (n : SectionNo) (f : SectionRec → SectionRec) : (s.modSec n f).resetHeld = s.resetHeld := rfl
@[simp] theorem State.modSec_verification (n : SectionNo) (f : SectionRec → SectionRec) : (s.modSec n f).verification = s.verification := rfl
@[simp] theorem State.modSec_agenda (n : SectionNo) (f : SectionRec → SectionRec) : (s.modSec n f).agenda = s.agenda := rfl
@[simp] theorem State.modSec_pending (n : SectionNo) (f : SectionRec → SectionRec) : (s.modSec n f).pending = s.pending := rfl

@[simp] theorem State.modHolds_mi (f : List Hold → List Hold) : (s.modHolds f).mi = s.mi := rfl
@[simp] theorem State.modHolds_engines (f : List Hold → List Hold) : (s.modHolds f).engines = s.engines := rfl
@[simp] theorem State.modHolds_seqs (f : List Hold → List Hold) : (s.modHolds f).seqs = s.seqs := rfl
@[simp] theorem State.modHolds_backupLatch (f : List Hold → List Hold) : (s.modHolds f).backupLatch = s.backupLatch := rfl
@[simp] theorem State.modHolds_rect (f : List Hold → List Hold) : (s.modHolds f).rect = s.rect := rfl
@[simp] theorem State.modHolds_sections (f : List Hold → List Hold) : (s.modHolds f).sections = s.sections := rfl
@[simp] theorem State.modHolds_linkA (f : List Hold → List Hold) : (s.modHolds f).linkA = s.linkA := rfl
@[simp] theorem State.modHolds_linkB (f : List Hold → List Hold) : (s.modHolds f).linkB = s.linkB := rfl
@[simp] theorem State.modHolds_au (f : List Hold → List Hold) : (s.modHolds f).au = s.au := rfl
@[simp] theorem State.modHolds_store_groups (f : List Hold → List Hold) : (s.modHolds f).store.groups = s.store.groups := rfl
@[simp] theorem State.modHolds_store_config (f : List Hold → List Hold) : (s.modHolds f).store.config = s.store.config := rfl
@[simp] theorem State.modHolds_store_staging (f : List Hold → List Hold) : (s.modHolds f).store.staging = s.store.staging := rfl
@[simp] theorem State.modHolds_store_operation (f : List Hold → List Hold) : (s.modHolds f).store.operation = s.store.operation := rfl
@[simp] theorem State.modHolds_store_eraseError (f : List Hold → List Hold) : (s.modHolds f).store.eraseError = s.store.eraseError := rfl
@[simp] theorem State.modHolds_store_programError (f : List Hold → List Hold) : (s.modHolds f).store.programError = s.store.programError := rfl
@[simp] theorem State.modHolds_store_retainedLost (f : List Hold → List Hold) : (s.modHolds f).store.retainedLost = s.store.retainedLost := rfl
@[simp] theorem State.modHolds_store_fittedPending (f : List Hold → List Hold) : (s.modHolds f).store.fittedPending = s.store.fittedPending := rfl
@[simp] theorem State.modHolds_store_active (f : List Hold → List Hold) : (s.modHolds f).store.active = s.store.active := rfl
@[simp] theorem State.modHolds_store_factoryInUse (f : List Hold → List Hold) : (s.modHolds f).store.factoryInUse = s.store.factoryInUse := rfl
@[simp] theorem State.modHolds_store_configFault (f : List Hold → List Hold) : (s.modHolds f).store.configFault = s.store.configFault := rfl
@[simp] theorem State.modHolds_store_lock (f : List Hold → List Hold) : (s.modHolds f).store.lock = s.store.lock := rfl
@[simp] theorem State.modHolds_store_inUse (f : List Hold → List Hold) : (s.modHolds f).store.inUse = s.store.inUse := rfl
@[simp] theorem State.modHolds_store_cfg (f : List Hold → List Hold) : (s.modHolds f).store.cfg = s.store.cfg := rfl
@[simp] theorem State.modHolds_sp (f : List Hold → List Hold) : (s.modHolds f).sp = s.sp := rfl
@[simp] theorem State.modHolds_resetHeld (f : List Hold → List Hold) : (s.modHolds f).resetHeld = s.resetHeld := rfl
@[simp] theorem State.modHolds_verification (f : List Hold → List Hold) : (s.modHolds f).verification = s.verification := rfl
@[simp] theorem State.modHolds_agenda (f : List Hold → List Hold) : (s.modHolds f).agenda = s.agenda := rfl
@[simp] theorem State.modHolds_pending (f : List Hold → List Hold) : (s.modHolds f).pending = s.pending := rfl

@[simp] theorem State.modHold_mi (id : Byte) (f : Hold → Hold) : (s.modHold id f).mi = s.mi := rfl
@[simp] theorem State.modHold_engines (id : Byte) (f : Hold → Hold) : (s.modHold id f).engines = s.engines := rfl
@[simp] theorem State.modHold_seqs (id : Byte) (f : Hold → Hold) : (s.modHold id f).seqs = s.seqs := rfl
@[simp] theorem State.modHold_backupLatch (id : Byte) (f : Hold → Hold) : (s.modHold id f).backupLatch = s.backupLatch := rfl
@[simp] theorem State.modHold_rect (id : Byte) (f : Hold → Hold) : (s.modHold id f).rect = s.rect := rfl
@[simp] theorem State.modHold_sections (id : Byte) (f : Hold → Hold) : (s.modHold id f).sections = s.sections := rfl
@[simp] theorem State.modHold_linkA (id : Byte) (f : Hold → Hold) : (s.modHold id f).linkA = s.linkA := rfl
@[simp] theorem State.modHold_linkB (id : Byte) (f : Hold → Hold) : (s.modHold id f).linkB = s.linkB := rfl
@[simp] theorem State.modHold_au (id : Byte) (f : Hold → Hold) : (s.modHold id f).au = s.au := rfl
@[simp] theorem State.modHold_store_groups (id : Byte) (f : Hold → Hold) : (s.modHold id f).store.groups = s.store.groups := rfl
@[simp] theorem State.modHold_store_config (id : Byte) (f : Hold → Hold) : (s.modHold id f).store.config = s.store.config := rfl
@[simp] theorem State.modHold_store_staging (id : Byte) (f : Hold → Hold) : (s.modHold id f).store.staging = s.store.staging := rfl
@[simp] theorem State.modHold_store_operation (id : Byte) (f : Hold → Hold) : (s.modHold id f).store.operation = s.store.operation := rfl
@[simp] theorem State.modHold_store_eraseError (id : Byte) (f : Hold → Hold) : (s.modHold id f).store.eraseError = s.store.eraseError := rfl
@[simp] theorem State.modHold_store_programError (id : Byte) (f : Hold → Hold) : (s.modHold id f).store.programError = s.store.programError := rfl
@[simp] theorem State.modHold_store_retainedLost (id : Byte) (f : Hold → Hold) : (s.modHold id f).store.retainedLost = s.store.retainedLost := rfl
@[simp] theorem State.modHold_store_fittedPending (id : Byte) (f : Hold → Hold) : (s.modHold id f).store.fittedPending = s.store.fittedPending := rfl
@[simp] theorem State.modHold_store_active (id : Byte) (f : Hold → Hold) : (s.modHold id f).store.active = s.store.active := rfl
@[simp] theorem State.modHold_store_factoryInUse (id : Byte) (f : Hold → Hold) : (s.modHold id f).store.factoryInUse = s.store.factoryInUse := rfl
@[simp] theorem State.modHold_store_configFault (id : Byte) (f : Hold → Hold) : (s.modHold id f).store.configFault = s.store.configFault := rfl
@[simp] theorem State.modHold_store_lock (id : Byte) (f : Hold → Hold) : (s.modHold id f).store.lock = s.store.lock := rfl
@[simp] theorem State.modHold_store_inUse (id : Byte) (f : Hold → Hold) : (s.modHold id f).store.inUse = s.store.inUse := rfl
@[simp] theorem State.modHold_store_cfg (id : Byte) (f : Hold → Hold) : (s.modHold id f).store.cfg = s.store.cfg := rfl
@[simp] theorem State.modHold_sp (id : Byte) (f : Hold → Hold) : (s.modHold id f).sp = s.sp := rfl
@[simp] theorem State.modHold_resetHeld (id : Byte) (f : Hold → Hold) : (s.modHold id f).resetHeld = s.resetHeld := rfl
@[simp] theorem State.modHold_verification (id : Byte) (f : Hold → Hold) : (s.modHold id f).verification = s.verification := rfl
@[simp] theorem State.modHold_agenda (id : Byte) (f : Hold → Hold) : (s.modHold id f).agenda = s.agenda := rfl
@[simp] theorem State.modHold_pending (id : Byte) (f : Hold → Hold) : (s.modHold id f).pending = s.pending := rfl

@[simp] theorem State.modKey_mi (n : KeyNo) (f : KeyRec → KeyRec) : (s.modKey n f).mi = s.mi := rfl
@[simp] theorem State.modKey_engines (n : KeyNo) (f : KeyRec → KeyRec) : (s.modKey n f).engines = s.engines := rfl
@[simp] theorem State.modKey_seqs (n : KeyNo) (f : KeyRec → KeyRec) : (s.modKey n f).seqs = s.seqs := rfl
@[simp] theorem State.modKey_backupLatch (n : KeyNo) (f : KeyRec → KeyRec) : (s.modKey n f).backupLatch = s.backupLatch := rfl
@[simp] theorem State.modKey_rect (n : KeyNo) (f : KeyRec → KeyRec) : (s.modKey n f).rect = s.rect := rfl
@[simp] theorem State.modKey_sections (n : KeyNo) (f : KeyRec → KeyRec) : (s.modKey n f).sections = s.sections := rfl
@[simp] theorem State.modKey_linkA (n : KeyNo) (f : KeyRec → KeyRec) : (s.modKey n f).linkA = s.linkA := rfl
@[simp] theorem State.modKey_linkB (n : KeyNo) (f : KeyRec → KeyRec) : (s.modKey n f).linkB = s.linkB := rfl
@[simp] theorem State.modKey_au (n : KeyNo) (f : KeyRec → KeyRec) : (s.modKey n f).au = s.au := rfl
@[simp] theorem State.modKey_store (n : KeyNo) (f : KeyRec → KeyRec) : (s.modKey n f).store = s.store := rfl
@[simp] theorem State.modKey_sp (n : KeyNo) (f : KeyRec → KeyRec) : (s.modKey n f).sp = s.sp := rfl
@[simp] theorem State.modKey_resetHeld (n : KeyNo) (f : KeyRec → KeyRec) : (s.modKey n f).resetHeld = s.resetHeld := rfl
@[simp] theorem State.modKey_verification (n : KeyNo) (f : KeyRec → KeyRec) : (s.modKey n f).verification = s.verification := rfl
@[simp] theorem State.modKey_agenda (n : KeyNo) (f : KeyRec → KeyRec) : (s.modKey n f).agenda = s.agenda := rfl
@[simp] theorem State.modKey_pending (n : KeyNo) (f : KeyRec → KeyRec) : (s.modKey n f).pending = s.pending := rfl

@[simp] theorem State.modAu_mi (f : Annunciation → Annunciation) : (s.modAu f).mi = s.mi := rfl
@[simp] theorem State.modAu_engines (f : Annunciation → Annunciation) : (s.modAu f).engines = s.engines := rfl
@[simp] theorem State.modAu_seqs (f : Annunciation → Annunciation) : (s.modAu f).seqs = s.seqs := rfl
@[simp] theorem State.modAu_backupLatch (f : Annunciation → Annunciation) : (s.modAu f).backupLatch = s.backupLatch := rfl
@[simp] theorem State.modAu_rect (f : Annunciation → Annunciation) : (s.modAu f).rect = s.rect := rfl
@[simp] theorem State.modAu_sections (f : Annunciation → Annunciation) : (s.modAu f).sections = s.sections := rfl
@[simp] theorem State.modAu_ht (f : Annunciation → Annunciation) : (s.modAu f).ht = s.ht := rfl
@[simp] theorem State.modAu_linkA (f : Annunciation → Annunciation) : (s.modAu f).linkA = s.linkA := rfl
@[simp] theorem State.modAu_linkB (f : Annunciation → Annunciation) : (s.modAu f).linkB = s.linkB := rfl
@[simp] theorem State.modAu_au (f : Annunciation → Annunciation) : (s.modAu f).au = f s.au := rfl
@[simp] theorem State.modAu_store (f : Annunciation → Annunciation) : (s.modAu f).store = s.store := rfl
@[simp] theorem State.modAu_sp (f : Annunciation → Annunciation) : (s.modAu f).sp = s.sp := rfl
@[simp] theorem State.modAu_resetHeld (f : Annunciation → Annunciation) : (s.modAu f).resetHeld = s.resetHeld := rfl
@[simp] theorem State.modAu_verification (f : Annunciation → Annunciation) : (s.modAu f).verification = s.verification := rfl
@[simp] theorem State.modAu_agenda (f : Annunciation → Annunciation) : (s.modAu f).agenda = s.agenda := rfl
@[simp] theorem State.modAu_pending (f : Annunciation → Annunciation) : (s.modAu f).pending = s.pending := rfl

@[simp] theorem State.modStore_mi (f : Store → Store) : (s.modStore f).mi = s.mi := rfl
@[simp] theorem State.modStore_engines (f : Store → Store) : (s.modStore f).engines = s.engines := rfl
@[simp] theorem State.modStore_seqs (f : Store → Store) : (s.modStore f).seqs = s.seqs := rfl
@[simp] theorem State.modStore_backupLatch (f : Store → Store) : (s.modStore f).backupLatch = s.backupLatch := rfl
@[simp] theorem State.modStore_rect (f : Store → Store) : (s.modStore f).rect = s.rect := rfl
@[simp] theorem State.modStore_sections (f : Store → Store) : (s.modStore f).sections = s.sections := rfl
@[simp] theorem State.modStore_ht (f : Store → Store) : (s.modStore f).ht = s.ht := rfl
@[simp] theorem State.modStore_linkA (f : Store → Store) : (s.modStore f).linkA = s.linkA := rfl
@[simp] theorem State.modStore_linkB (f : Store → Store) : (s.modStore f).linkB = s.linkB := rfl
@[simp] theorem State.modStore_au (f : Store → Store) : (s.modStore f).au = s.au := rfl
@[simp] theorem State.modStore_store (f : Store → Store) : (s.modStore f).store = f s.store := rfl
@[simp] theorem State.modStore_sp (f : Store → Store) : (s.modStore f).sp = s.sp := rfl
@[simp] theorem State.modStore_resetHeld (f : Store → Store) : (s.modStore f).resetHeld = s.resetHeld := rfl
@[simp] theorem State.modStore_verification (f : Store → Store) : (s.modStore f).verification = s.verification := rfl
@[simp] theorem State.modStore_agenda (f : Store → Store) : (s.modStore f).agenda = s.agenda := rfl
@[simp] theorem State.modStore_pending (f : Store → Store) : (s.modStore f).pending = s.pending := rfl

@[simp] theorem State.modSp_mi (f : StationPort → StationPort) : (s.modSp f).mi = s.mi := rfl
@[simp] theorem State.modSp_engines (f : StationPort → StationPort) : (s.modSp f).engines = s.engines := rfl
@[simp] theorem State.modSp_seqs (f : StationPort → StationPort) : (s.modSp f).seqs = s.seqs := rfl
@[simp] theorem State.modSp_backupLatch (f : StationPort → StationPort) : (s.modSp f).backupLatch = s.backupLatch := rfl
@[simp] theorem State.modSp_rect (f : StationPort → StationPort) : (s.modSp f).rect = s.rect := rfl
@[simp] theorem State.modSp_sections (f : StationPort → StationPort) : (s.modSp f).sections = s.sections := rfl
@[simp] theorem State.modSp_ht (f : StationPort → StationPort) : (s.modSp f).ht = s.ht := rfl
@[simp] theorem State.modSp_linkA (f : StationPort → StationPort) : (s.modSp f).linkA = s.linkA := rfl
@[simp] theorem State.modSp_linkB (f : StationPort → StationPort) : (s.modSp f).linkB = s.linkB := rfl
@[simp] theorem State.modSp_au (f : StationPort → StationPort) : (s.modSp f).au = s.au := rfl
@[simp] theorem State.modSp_store (f : StationPort → StationPort) : (s.modSp f).store = s.store := rfl
@[simp] theorem State.modSp_sp (f : StationPort → StationPort) : (s.modSp f).sp = f s.sp := rfl
@[simp] theorem State.modSp_resetHeld (f : StationPort → StationPort) : (s.modSp f).resetHeld = s.resetHeld := rfl
@[simp] theorem State.modSp_verification (f : StationPort → StationPort) : (s.modSp f).verification = s.verification := rfl
@[simp] theorem State.modSp_agenda (f : StationPort → StationPort) : (s.modSp f).agenda = s.agenda := rfl
@[simp] theorem State.modSp_pending (f : StationPort → StationPort) : (s.modSp f).pending = s.pending := rfl

@[simp] theorem State.putPoint_mi (p : PointNo) (r : PointRec) : (s.putPoint p r).mi = s.mi := rfl
@[simp] theorem State.putPoint_engines (p : PointNo) (r : PointRec) : (s.putPoint p r).engines = s.engines := rfl
@[simp] theorem State.putPoint_seqs (p : PointNo) (r : PointRec) : (s.putPoint p r).seqs = s.seqs := rfl
@[simp] theorem State.putPoint_backupLatch (p : PointNo) (r : PointRec) : (s.putPoint p r).backupLatch = s.backupLatch := rfl
@[simp] theorem State.putPoint_rect (p : PointNo) (r : PointRec) : (s.putPoint p r).rect = s.rect := rfl
@[simp] theorem State.putPoint_sections (p : PointNo) (r : PointRec) : (s.putPoint p r).sections = s.sections := rfl
@[simp] theorem State.putPoint_ht (p : PointNo) (r : PointRec) : (s.putPoint p r).ht = s.ht := rfl
@[simp] theorem State.putPoint_linkA (p : PointNo) (r : PointRec) : (s.putPoint p r).linkA = s.linkA := rfl
@[simp] theorem State.putPoint_linkB (p : PointNo) (r : PointRec) : (s.putPoint p r).linkB = s.linkB := rfl
@[simp] theorem State.putPoint_store (p : PointNo) (r : PointRec) : (s.putPoint p r).store = s.store := rfl
@[simp] theorem State.putPoint_sp (p : PointNo) (r : PointRec) : (s.putPoint p r).sp = s.sp := rfl
@[simp] theorem State.putPoint_resetHeld (p : PointNo) (r : PointRec) : (s.putPoint p r).resetHeld = s.resetHeld := rfl
@[simp] theorem State.putPoint_verification (p : PointNo) (r : PointRec) : (s.putPoint p r).verification = s.verification := rfl
@[simp] theorem State.putPoint_agenda (p : PointNo) (r : PointRec) : (s.putPoint p r).agenda = s.agenda := rfl
@[simp] theorem State.putPoint_pending (p : PointNo) (r : PointRec) : (s.putPoint p r).pending = s.pending := rfl

@[simp] theorem State.hand_mi (g : Signal) : (s.hand g).mi = s.mi := rfl
@[simp] theorem State.hand_engines (g : Signal) : (s.hand g).engines = s.engines := rfl
@[simp] theorem State.hand_seqs (g : Signal) : (s.hand g).seqs = s.seqs := rfl
@[simp] theorem State.hand_backupLatch (g : Signal) : (s.hand g).backupLatch = s.backupLatch := rfl
@[simp] theorem State.hand_rect (g : Signal) : (s.hand g).rect = s.rect := rfl
@[simp] theorem State.hand_sections (g : Signal) : (s.hand g).sections = s.sections := rfl
@[simp] theorem State.hand_ht (g : Signal) : (s.hand g).ht = s.ht := rfl
@[simp] theorem State.hand_linkA (g : Signal) : (s.hand g).linkA = s.linkA := rfl
@[simp] theorem State.hand_linkB (g : Signal) : (s.hand g).linkB = s.linkB := rfl
@[simp] theorem State.hand_au (g : Signal) : (s.hand g).au = s.au := rfl
@[simp] theorem State.hand_store (g : Signal) : (s.hand g).store = s.store := rfl
@[simp] theorem State.hand_sp (g : Signal) : (s.hand g).sp = s.sp := rfl
@[simp] theorem State.hand_resetHeld (g : Signal) : (s.hand g).resetHeld = s.resetHeld := rfl
@[simp] theorem State.hand_verification (g : Signal) : (s.hand g).verification = s.verification := rfl
@[simp] theorem State.hand_agenda (g : Signal) : (s.hand g).agenda = s.agenda ++ [g] := rfl
@[simp] theorem State.hand_pending (g : Signal) : (s.hand g).pending = s.pending := rfl

@[simp] theorem State.handAll_mi (gs : List Signal) : (s.handAll gs).mi = s.mi := rfl
@[simp] theorem State.handAll_engines (gs : List Signal) : (s.handAll gs).engines = s.engines := rfl
@[simp] theorem State.handAll_seqs (gs : List Signal) : (s.handAll gs).seqs = s.seqs := rfl
@[simp] theorem State.handAll_backupLatch (gs : List Signal) : (s.handAll gs).backupLatch = s.backupLatch := rfl
@[simp] theorem State.handAll_rect (gs : List Signal) : (s.handAll gs).rect = s.rect := rfl
@[simp] theorem State.handAll_sections (gs : List Signal) : (s.handAll gs).sections = s.sections := rfl
@[simp] theorem State.handAll_ht (gs : List Signal) : (s.handAll gs).ht = s.ht := rfl
@[simp] theorem State.handAll_linkA (gs : List Signal) : (s.handAll gs).linkA = s.linkA := rfl
@[simp] theorem State.handAll_linkB (gs : List Signal) : (s.handAll gs).linkB = s.linkB := rfl
@[simp] theorem State.handAll_au (gs : List Signal) : (s.handAll gs).au = s.au := rfl
@[simp] theorem State.handAll_store (gs : List Signal) : (s.handAll gs).store = s.store := rfl
@[simp] theorem State.handAll_sp (gs : List Signal) : (s.handAll gs).sp = s.sp := rfl
@[simp] theorem State.handAll_resetHeld (gs : List Signal) : (s.handAll gs).resetHeld = s.resetHeld := rfl
@[simp] theorem State.handAll_verification (gs : List Signal) : (s.handAll gs).verification = s.verification := rfl
@[simp] theorem State.handAll_agenda (gs : List Signal) : (s.handAll gs).agenda = s.agenda ++ gs := rfl
@[simp] theorem State.handAll_pending (gs : List Signal) : (s.handAll gs).pending = s.pending := rfl

@[simp] theorem State.modLink_mi (p : Port) (f : Link → Link) : (s.modLink p f).mi = s.mi := by cases p <;> rfl
@[simp] theorem State.modLink_engines (p : Port) (f : Link → Link) : (s.modLink p f).engines = s.engines := by cases p <;> rfl
@[simp] theorem State.modLink_seqs (p : Port) (f : Link → Link) : (s.modLink p f).seqs = s.seqs := by cases p <;> rfl
@[simp] theorem State.modLink_backupLatch (p : Port) (f : Link → Link) : (s.modLink p f).backupLatch = s.backupLatch := by cases p <;> rfl
@[simp] theorem State.modLink_rect (p : Port) (f : Link → Link) : (s.modLink p f).rect = s.rect := by cases p <;> rfl
@[simp] theorem State.modLink_sections (p : Port) (f : Link → Link) : (s.modLink p f).sections = s.sections := by cases p <;> rfl
@[simp] theorem State.modLink_ht (p : Port) (f : Link → Link) : (s.modLink p f).ht = s.ht := by cases p <;> rfl
@[simp] theorem State.modLink_au (p : Port) (f : Link → Link) : (s.modLink p f).au = s.au := by cases p <;> rfl
@[simp] theorem State.modLink_store (p : Port) (f : Link → Link) : (s.modLink p f).store = s.store := by cases p <;> rfl
@[simp] theorem State.modLink_sp (p : Port) (f : Link → Link) : (s.modLink p f).sp = s.sp := by cases p <;> rfl
@[simp] theorem State.modLink_resetHeld (p : Port) (f : Link → Link) : (s.modLink p f).resetHeld = s.resetHeld := by cases p <;> rfl
@[simp] theorem State.modLink_verification (p : Port) (f : Link → Link) : (s.modLink p f).verification = s.verification := by cases p <;> rfl
@[simp] theorem State.modLink_agenda (p : Port) (f : Link → Link) : (s.modLink p f).agenda = s.agenda := by cases p <;> rfl
@[simp] theorem State.modLink_pending (p : Port) (f : Link → Link) : (s.modLink p f).pending = s.pending := by cases p <;> rfl

/-! ### The record a write changes -/

theorem vget_set {α : Type} {n : Nat} (v : Vector α n) (i : Fin n) (x : α) (j : Fin n) :
    (v.set i x).get j = if i = j then x else v.get j := by
  have get_eq : ∀ (w : Vector α n) (m : Fin n), w.get m = w[m.val] := fun _ _ => rfl
  simp only [get_eq, Vector.getElem_set, Fin.ext_iff]

@[simp] theorem State.modEngine_engine (k : FeederNo) (f : Engine → Engine) : (s.modEngine k f).engine k = f (s.engine k) := by
  simp [State.engine, State.modEngine, vget_set]

theorem State.modEngine_engine_ne {k j : FeederNo} (h : j ≠ k) (f : Engine → Engine) :
    (s.modEngine k f).engine j = s.engine j := by
  simp [State.engine, State.modEngine, vget_set, Ne.symm h]

@[simp] theorem State.modSeq_seq (k : FeederNo) (f : Sequencer → Sequencer) : (s.modSeq k f).seq k = f (s.seq k) := by
  simp [State.seq, State.modSeq, vget_set]

theorem State.modSeq_seq_ne {k j : FeederNo} (h : j ≠ k) (f : Sequencer → Sequencer) :
    (s.modSeq k f).seq j = s.seq j := by
  simp [State.seq, State.modSeq, vget_set, Ne.symm h]

@[simp] theorem State.modSec_sec (n : SectionNo) (f : SectionRec → SectionRec) : (s.modSec n f).sec n = f (s.sec n) := by
  simp [State.sec, State.modSec, vget_set]

theorem State.modSec_sec_ne {n m : SectionNo} (h : m ≠ n) (f : SectionRec → SectionRec) :
    (s.modSec n f).sec m = s.sec m := by
  simp [State.sec, State.modSec, vget_set, Ne.symm h]

@[simp] theorem State.modKey_key (n : KeyNo) (f : KeyRec → KeyRec) : (s.modKey n f).key n = f (s.key n) := by
  simp [State.key, State.modKey, vget_set]

theorem State.modKey_key_ne {n m : KeyNo} (h : m ≠ n) (f : KeyRec → KeyRec) : (s.modKey n f).key m = s.key m := by
  simp [State.key, State.modKey, vget_set, Ne.symm h]

@[simp] theorem State.modLink_link (p : Port) (f : Link → Link) : (s.modLink p f).link p = f (s.link p) := by
  cases p <;> rfl

theorem State.modLink_link_ne {p q : Port} (h : q ≠ p) (f : Link → Link) : (s.modLink p f).link q = s.link q := by
  cases p <;> cases q <;> first | rfl | exact absurd rfl h

@[simp] theorem State.setInput_input (i : InputId) (r : ContactInput) : (s.setInput i r).input i = r := by
  simp [State.input, State.setInput, vget_set]

theorem State.setInput_input_ne {i j : InputId} (h : inputIndex j ≠ inputIndex i) (r : ContactInput) :
    (s.setInput i r).input j = s.input j := by
  simp [State.input, State.setInput, vget_set, Ne.symm h]

@[simp] theorem State.setPair_pair (p : PairId) (r : SwitchPair) : (s.setPair p r).pair p = r := by
  simp [State.pair, State.setPair, vget_set]

theorem State.setPair_pair_ne {p q : PairId} (h : pairIndex q ≠ pairIndex p) (r : SwitchPair) :
    (s.setPair p r).pair q = s.pair q := by
  simp [State.pair, State.setPair, vget_set, Ne.symm h]

@[simp] theorem State.putPoint_point (p : PointNo) (r : PointRec) : (s.putPoint p r).point p = r := by
  simp [State.point, State.putPoint, State.modAu, vget_set]

theorem State.putPoint_point_ne {p q : PointNo} (h : q ≠ p) (r : PointRec) : (s.putPoint p r).point q = s.point q := by
  simp [State.point, State.putPoint, State.modAu, vget_set, Ne.symm h]

/-! ### What a point's new record leaves of the unit -/

@[simp] theorem State.putPoint_bands (p : PointNo) (r : PointRec) : (s.putPoint p r).au.bands = s.au.bands := rfl
@[simp] theorem State.putPoint_time (p : PointNo) (r : PointRec) : (s.putPoint p r).au.time = s.au.time := rfl
@[simp] theorem State.putPoint_timeNotSet (p : PointNo) (r : PointRec) : (s.putPoint p r).au.timeNotSet = s.au.timeNotSet := rfl
@[simp] theorem State.putPoint_attn (p : PointNo) (r : PointRec) : (s.putPoint p r).au.attn = s.au.attn := rfl

end Sys2Proof.Machine
end

