-- ==== Sys2Proof/Laws/Frames.lean ====
section
/-! SUPPORT. The fields of the state that each shared operation leaves alone. -/

namespace Sys2Proof.Machine

open Sys2Proof

/-- What every step of a loop leaves alone the loop leaves alone. -/
theorem forEach_same {α β : Type} (g : State → β) (l : List α) (f : α → State → State) (s : State)
    (h : ∀ a s, g (f a s) = g s) : g (forEach l f s) = g s := by
  unfold forEach
  induction l generalizing s with
  | nil => rfl
  | cons a l ih => exact (ih (f a s)).trans (h a s)

variable (s : State)

theorem State.pulse_frame (p : PointNo) :
    (fun t : State => (t.mi, t.engines, t.seqs, t.backupLatch, t.rect, t.sections, t.ht, t.linkA, t.linkB, t.store, t.sp, t.resetHeld, t.verification, t.agenda, t.pending)) (s.pulse p) =
    (fun t : State => (t.mi, t.engines, t.seqs, t.backupLatch, t.rect, t.sections, t.ht, t.linkA, t.linkB, t.store, t.sp, t.resetHeld, t.verification, t.agenda, t.pending)) s := by
  unfold State.pulse; try dsimp only
  repeat' split
  all_goals first | with_reducible rfl | simp | rfl
@[simp] theorem State.pulse_mi (p : PointNo) : (s.pulse p).mi = s.mi := congrArg (·.1) (State.pulse_frame s p)
@[simp] theorem State.pulse_engines (p : PointNo) : (s.pulse p).engines = s.engines := congrArg (·.2.1) (State.pulse_frame s p)
@[simp] theorem State.pulse_seqs (p : PointNo) : (s.pulse p).seqs = s.seqs := congrArg (·.2.2.1) (State.pulse_frame s p)
@[simp] theorem State.pulse_backupLatch (p : PointNo) : (s.pulse p).backupLatch = s.backupLatch := congrArg (·.2.2.2.1) (State.pulse_frame s p)
@[simp] theorem State.pulse_rect (p : PointNo) : (s.pulse p).rect = s.rect := congrArg (·.2.2.2.2.1) (State.pulse_frame s p)
@[simp] theorem State.pulse_sections (p : PointNo) : (s.pulse p).sections = s.sections := congrArg (·.2.2.2.2.2.1) (State.pulse_frame s p)
@[simp] theorem State.pulse_ht (p : PointNo) : (s.pulse p).ht = s.ht := congrArg (·.2.2.2.2.2.2.1) (State.pulse_frame s p)
@[simp] theorem State.pulse_linkA (p : PointNo) : (s.pulse p).linkA = s.linkA := congrArg (·.2.2.2.2.2.2.2.1) (State.pulse_frame s p)
@[simp] theorem State.pulse_linkB (p : PointNo) : (s.pulse p).linkB = s.linkB := congrArg (·.2.2.2.2.2.2.2.2.1) (State.pulse_frame s p)
@[simp] theorem State.pulse_store (p : PointNo) : (s.pulse p).store = s.store := congrArg (·.2.2.2.2.2.2.2.2.2.1) (State.pulse_frame s p)
@[simp] theorem State.pulse_sp (p : PointNo) : (s.pulse p).sp = s.sp := congrArg (·.2.2.2.2.2.2.2.2.2.2.1) (State.pulse_frame s p)
@[simp] theorem State.pulse_resetHeld (p : PointNo) : (s.pulse p).resetHeld = s.resetHeld := congrArg (·.2.2.2.2.2.2.2.2.2.2.2.1) (State.pulse_frame s p)
@[simp] theorem State.pulse_verification (p : PointNo) : (s.pulse p).verification = s.verification := congrArg (·.2.2.2.2.2.2.2.2.2.2.2.2.1) (State.pulse_frame s p)
@[simp] theorem State.pulse_agenda (p : PointNo) : (s.pulse p).agenda = s.agenda := congrArg (·.2.2.2.2.2.2.2.2.2.2.2.2.2.1) (State.pulse_frame s p)
@[simp] theorem State.pulse_pending (p : PointNo) : (s.pulse p).pending = s.pending := congrArg (·.2.2.2.2.2.2.2.2.2.2.2.2.2.2) (State.pulse_frame s p)

theorem State.transmit_frame (p : Port) :
    (fun t : State => (t.mi, t.engines, t.seqs, t.backupLatch, t.rect, t.sections, t.ht, t.au, t.store, t.sp, t.resetHeld, t.verification, t.agenda, t.pending)) (s.transmit p) =
    (fun t : State => (t.mi, t.engines, t.seqs, t.backupLatch, t.rect, t.sections, t.ht, t.au, t.store, t.sp, t.resetHeld, t.verification, t.agenda, t.pending)) s := by
  unfold State.transmit; try dsimp only
  repeat' split
  all_goals first | with_reducible rfl | simp | rfl
@[simp] theorem State.transmit_mi (p : Port) : (s.transmit p).mi = s.mi := congrArg (·.1) (State.transmit_frame s p)
@[simp] theorem State.transmit_engines (p : Port) : (s.transmit p).engines = s.engines := congrArg (·.2.1) (State.transmit_frame s p)
@[simp] theorem State.transmit_seqs (p : Port) : (s.transmit p).seqs = s.seqs := congrArg (·.2.2.1) (State.transmit_frame s p)
@[simp] theorem State.transmit_backupLatch (p : Port) : (s.transmit p).backupLatch = s.backupLatch := congrArg (·.2.2.2.1) (State.transmit_frame s p)
@[simp] theorem State.transmit_rect (p : Port) : (s.transmit p).rect = s.rect := congrArg (·.2.2.2.2.1) (State.transmit_frame s p)
@[simp] theorem State.transmit_sections (p : Port) : (s.transmit p).sections = s.sections := congrArg (·.2.2.2.2.2.1) (State.transmit_frame s p)
@[simp] theorem State.transmit_ht (p : Port) : (s.transmit p).ht = s.ht := congrArg (·.2.2.2.2.2.2.1) (State.transmit_frame s p)
@[simp] theorem State.transmit_au (p : Port) : (s.transmit p).au = s.au := congrArg (·.2.2.2.2.2.2.2.1) (State.transmit_frame s p)
@[simp] theorem State.transmit_store (p : Port) : (s.transmit p).store = s.store := congrArg (·.2.2.2.2.2.2.2.2.1) (State.transmit_frame s p)
@[simp] theorem State.transmit_sp (p : Port) : (s.transmit p).sp = s.sp := congrArg (·.2.2.2.2.2.2.2.2.2.1) (State.transmit_frame s p)
@[simp] theorem State.transmit_resetHeld (p : Port) : (s.transmit p).resetHeld = s.resetHeld := congrArg (·.2.2.2.2.2.2.2.2.2.2.1) (State.transmit_frame s p)
@[simp] theorem State.transmit_verification (p : Port) : (s.transmit p).verification = s.verification := congrArg (·.2.2.2.2.2.2.2.2.2.2.2.1) (State.transmit_frame s p)
@[simp] theorem State.transmit_agenda (p : Port) : (s.transmit p).agenda = s.agenda := congrArg (·.2.2.2.2.2.2.2.2.2.2.2.2.1) (State.transmit_frame s p)
@[simp] theorem State.transmit_pending (p : Port) : (s.transmit p).pending = s.pending := congrArg (·.2.2.2.2.2.2.2.2.2.2.2.2.2) (State.transmit_frame s p)

theorem State.queueMessage_frame (p : Port) (m : HoldMsg) :
    (fun t : State => (t.mi, t.engines, t.seqs, t.backupLatch, t.rect, t.sections, t.ht, t.au, t.store, t.sp, t.resetHeld, t.verification, t.agenda, t.pending)) (s.queueMessage p m) =
    (fun t : State => (t.mi, t.engines, t.seqs, t.backupLatch, t.rect, t.sections, t.ht, t.au, t.store, t.sp, t.resetHeld, t.verification, t.agenda, t.pending)) s := by
  unfold State.queueMessage; try dsimp only
  repeat' split
  all_goals first | with_reducible rfl | simp | rfl
@[simp] theorem State.queueMessage_mi (p : Port) (m : HoldMsg) : (s.queueMessage p m).mi = s.mi := congrArg (·.1) (State.queueMessage_frame s p m)
@[simp] theorem State.queueMessage_engines (p : Port) (m : HoldMsg) : (s.queueMessage p m).engines = s.engines := congrArg (·.2.1) (State.queueMessage_frame s p m)
@[simp] theorem State.queueMessage_seqs (p : Port) (m : HoldMsg) : (s.queueMessage p m).seqs = s.seqs := congrArg (·.2.2.1) (State.queueMessage_frame s p m)
@[simp] theorem State.queueMessage_backupLatch (p : Port) (m : HoldMsg) : (s.queueMessage p m).backupLatch = s.backupLatch := congrArg (·.2.2.2.1) (State.queueMessage_frame s p m)
@[simp] theorem State.queueMessage_rect (p : Port) (m : HoldMsg) : (s.queueMessage p m).rect = s.rect := congrArg (·.2.2.2.2.1) (State.queueMessage_frame s p m)
@[simp] theorem State.queueMessage_sections (p : Port) (m : HoldMsg) : (s.queueMessage p m).sections = s.sections := congrArg (·.2.2.2.2.2.1) (State.queueMessage_frame s p m)
@[simp] theorem State.queueMessage_ht (p : Port) (m : HoldMsg) : (s.queueMessage p m).ht = s.ht := congrArg (·.2.2.2.2.2.2.1) (State.queueMessage_frame s p m)
@[simp] theorem State.queueMessage_au (p : Port) (m : HoldMsg) : (s.queueMessage p m).au = s.au := congrArg (·.2.2.2.2.2.2.2.1) (State.queueMessage_frame s p m)
@[simp] theorem State.queueMessage_store (p : Port) (m : HoldMsg) : (s.queueMessage p m).store = s.store := congrArg (·.2.2.2.2.2.2.2.2.1) (State.queueMessage_frame s p m)
@[simp] theorem State.queueMessage_sp (p : Port) (m : HoldMsg) : (s.queueMessage p m).sp = s.sp := congrArg (·.2.2.2.2.2.2.2.2.2.1) (State.queueMessage_frame s p m)
@[simp] theorem State.queueMessage_resetHeld (p : Port) (m : HoldMsg) : (s.queueMessage p m).resetHeld = s.resetHeld := congrArg (·.2.2.2.2.2.2.2.2.2.2.1) (State.queueMessage_frame s p m)
@[simp] theorem State.queueMessage_verification (p : Port) (m : HoldMsg) : (s.queueMessage p m).verification = s.verification := congrArg (·.2.2.2.2.2.2.2.2.2.2.2.1) (State.queueMessage_frame s p m)
@[simp] theorem State.queueMessage_agenda (p : Port) (m : HoldMsg) : (s.queueMessage p m).agenda = s.agenda := congrArg (·.2.2.2.2.2.2.2.2.2.2.2.2.1) (State.queueMessage_frame s p m)
@[simp] theorem State.queueMessage_pending (p : Port) (m : HoldMsg) : (s.queueMessage p m).pending = s.pending := congrArg (·.2.2.2.2.2.2.2.2.2.2.2.2.2) (State.queueMessage_frame s p m)

theorem State.beaconDue_frame (p : Port) :
    (fun t : State => (t.mi, t.engines, t.seqs, t.backupLatch, t.rect, t.sections, t.ht, t.au, t.store, t.sp, t.resetHeld, t.verification, t.agenda, t.pending)) (s.beaconDue p) =
    (fun t : State => (t.mi, t.engines, t.seqs, t.backupLatch, t.rect, t.sections, t.ht, t.au, t.store, t.sp, t.resetHeld, t.verification, t.agenda, t.pending)) s := by
  unfold State.beaconDue; try dsimp only
  repeat' split
  all_goals first | with_reducible rfl | simp | rfl
@[simp] theorem State.beaconDue_mi (p : Port) : (s.beaconDue p).mi = s.mi := congrArg (·.1) (State.beaconDue_frame s p)
@[simp] theorem State.beaconDue_engines (p : Port) : (s.beaconDue p).engines = s.engines := congrArg (·.2.1) (State.beaconDue_frame s p)
@[simp] theorem State.beaconDue_seqs (p : Port) : (s.beaconDue p).seqs = s.seqs := congrArg (·.2.2.1) (State.beaconDue_frame s p)
@[simp] theorem State.beaconDue_backupLatch (p : Port) : (s.beaconDue p).backupLatch = s.backupLatch := congrArg (·.2.2.2.1) (State.beaconDue_frame s p)
@[simp] theorem State.beaconDue_rect (p : Port) : (s.beaconDue p).rect = s.rect := congrArg (·.2.2.2.2.1) (State.beaconDue_frame s p)
@[simp] theorem State.beaconDue_sections (p : Port) : (s.beaconDue p).sections = s.sections := congrArg (·.2.2.2.2.2.1) (State.beaconDue_frame s p)
@[simp] theorem State.beaconDue_ht (p : Port) : (s.beaconDue p).ht = s.ht := congrArg (·.2.2.2.2.2.2.1) (State.beaconDue_frame s p)
@[simp] theorem State.beaconDue_au (p : Port) : (s.beaconDue p).au = s.au := congrArg (·.2.2.2.2.2.2.2.1) (State.beaconDue_frame s p)
@[simp] theorem State.beaconDue_store (p : Port) : (s.beaconDue p).store = s.store := congrArg (·.2.2.2.2.2.2.2.2.1) (State.beaconDue_frame s p)
@[simp] theorem State.beaconDue_sp (p : Port) : (s.beaconDue p).sp = s.sp := congrArg (·.2.2.2.2.2.2.2.2.2.1) (State.beaconDue_frame s p)
@[simp] theorem State.beaconDue_resetHeld (p : Port) : (s.beaconDue p).resetHeld = s.resetHeld := congrArg (·.2.2.2.2.2.2.2.2.2.2.1) (State.beaconDue_frame s p)
@[simp] theorem State.beaconDue_verification (p : Port) : (s.beaconDue p).verification = s.verification := congrArg (·.2.2.2.2.2.2.2.2.2.2.2.1) (State.beaconDue_frame s p)
@[simp] theorem State.beaconDue_agenda (p : Port) : (s.beaconDue p).agenda = s.agenda := congrArg (·.2.2.2.2.2.2.2.2.2.2.2.2.1) (State.beaconDue_frame s p)
@[simp] theorem State.beaconDue_pending (p : Port) : (s.beaconDue p).pending = s.pending := congrArg (·.2.2.2.2.2.2.2.2.2.2.2.2.2) (State.beaconDue_frame s p)

theorem State.chooseNext_frame (p : Port) :
    (fun t : State => (t.mi, t.engines, t.seqs, t.backupLatch, t.rect, t.sections, t.ht, t.linkA, t.linkB, t.au, t.store, t.sp, t.resetHeld, t.verification, t.pending)) (s.chooseNext p) =
    (fun t : State => (t.mi, t.engines, t.seqs, t.backupLatch, t.rect, t.sections, t.ht, t.linkA, t.linkB, t.au, t.store, t.sp, t.resetHeld, t.verification, t.pending)) s := by
  unfold State.chooseNext; try dsimp only
  repeat' split
  all_goals first | with_reducible rfl | simp | rfl
@[simp] theorem State.chooseNext_mi (p : Port) : (s.chooseNext p).mi = s.mi := congrArg (·.1) (State.chooseNext_frame s p)
@[simp] theorem State.chooseNext_engines (p : Port) : (s.chooseNext p).engines = s.engines := congrArg (·.2.1) (State.chooseNext_frame s p)
@[simp] theorem State.chooseNext_seqs (p : Port) : (s.chooseNext p).seqs = s.seqs := congrArg (·.2.2.1) (State.chooseNext_frame s p)
@[simp] theorem State.chooseNext_backupLatch (p : Port) : (s.chooseNext p).backupLatch = s.backupLatch := congrArg (·.2.2.2.1) (State.chooseNext_frame s p)
@[simp] theorem State.chooseNext_rect (p : Port) : (s.chooseNext p).rect = s.rect := congrArg (·.2.2.2.2.1) (State.chooseNext_frame s p)
@[simp] theorem State.chooseNext_sections (p : Port) : (s.chooseNext p).sections = s.sections := congrArg (·.2.2.2.2.2.1) (State.chooseNext_frame s p)
@[simp] theorem State.chooseNext_ht (p : Port) : (s.chooseNext p).ht = s.ht := congrArg (·.2.2.2.2.2.2.1) (State.chooseNext_frame s p)
@[simp] theorem State.chooseNext_linkA (p : Port) : (s.chooseNext p).linkA = s.linkA := congrArg (·.2.2.2.2.2.2.2.1) (State.chooseNext_frame s p)
@[simp] theorem State.chooseNext_linkB (p : Port) : (s.chooseNext p).linkB = s.linkB := congrArg (·.2.2.2.2.2.2.2.2.1) (State.chooseNext_frame s p)
@[simp] theorem State.chooseNext_au (p : Port) : (s.chooseNext p).au = s.au := congrArg (·.2.2.2.2.2.2.2.2.2.1) (State.chooseNext_frame s p)
@[simp] theorem State.chooseNext_store (p : Port) : (s.chooseNext p).store = s.store := congrArg (·.2.2.2.2.2.2.2.2.2.2.1) (State.chooseNext_frame s p)
@[simp] theorem State.chooseNext_sp (p : Port) : (s.chooseNext p).sp = s.sp := congrArg (·.2.2.2.2.2.2.2.2.2.2.2.1) (State.chooseNext_frame s p)
@[simp] theorem State.chooseNext_resetHeld (p : Port) : (s.chooseNext p).resetHeld = s.resetHeld := congrArg (·.2.2.2.2.2.2.2.2.2.2.2.2.1) (State.chooseNext_frame s p)
@[simp] theorem State.chooseNext_verification (p : Port) : (s.chooseNext p).verification = s.verification := congrArg (·.2.2.2.2.2.2.2.2.2.2.2.2.2.1) (State.chooseNext_frame s p)
@[simp] theorem State.chooseNext_pending (p : Port) : (s.chooseNext p).pending = s.pending := congrArg (·.2.2.2.2.2.2.2.2.2.2.2.2.2.2) (State.chooseNext_frame s p)

theorem State.intertripDemand_frame (p : Port) (line : Byte) (c : IntertripCause) :
    (fun t : State => (t.mi, t.engines, t.seqs, t.backupLatch, t.rect, t.sections, t.ht, t.store, t.sp, t.resetHeld, t.verification, t.pending)) (s.intertripDemand p line c) =
    (fun t : State => (t.mi, t.engines, t.seqs, t.backupLatch, t.rect, t.sections, t.ht, t.store, t.sp, t.resetHeld, t.verification, t.pending)) s := by
  unfold State.intertripDemand; try dsimp only
  repeat' split
  all_goals first | with_reducible rfl | simp | rfl
@[simp] theorem State.intertripDemand_mi (p : Port) (line : Byte) (c : IntertripCause) : (s.intertripDemand p line c).mi = s.mi := congrArg (·.1) (State.intertripDemand_frame s p line c)
@[simp] theorem State.intertripDemand_engines (p : Port) (line : Byte) (c : IntertripCause) : (s.intertripDemand p line c).engines = s.engines := congrArg (·.2.1) (State.intertripDemand_frame s p line c)
@[simp] theorem State.intertripDemand_seqs (p : Port) (line : Byte) (c : IntertripCause) : (s.intertripDemand p line c).seqs = s.seqs := congrArg (·.2.2.1) (State.intertripDemand_frame s p line c)
@[simp] theorem State.intertripDemand_backupLatch (p : Port) (line : Byte) (c : IntertripCause) : (s.intertripDemand p line c).backupLatch = s.backupLatch := congrArg (·.2.2.2.1) (State.intertripDemand_frame s p line c)
@[simp] theorem State.intertripDemand_rect (p : Port) (line : Byte) (c : IntertripCause) : (s.intertripDemand p line c).rect = s.rect := congrArg (·.2.2.2.2.1) (State.intertripDemand_frame s p line c)
@[simp] theorem State.intertripDemand_sections (p : Port) (line : Byte) (c : IntertripCause) : (s.intertripDemand p line c).sections = s.sections := congrArg (·.2.2.2.2.2.1) (State.intertripDemand_frame s p line c)
@[simp] theorem State.intertripDemand_ht (p : Port) (line : Byte) (c : IntertripCause) : (s.intertripDemand p line c).ht = s.ht := congrArg (·.2.2.2.2.2.2.1) (State.intertripDemand_frame s p line c)
@[simp] theorem State.intertripDemand_store (p : Port) (line : Byte) (c : IntertripCause) : (s.intertripDemand p line c).store = s.store := congrArg (·.2.2.2.2.2.2.2.1) (State.intertripDemand_frame s p line c)
@[simp] theorem State.intertripDemand_sp (p : Port) (line : Byte) (c : IntertripCause) : (s.intertripDemand p line c).sp = s.sp := congrArg (·.2.2.2.2.2.2.2.2.1) (State.intertripDemand_frame s p line c)
@[simp] theorem State.intertripDemand_resetHeld (p : Port) (line : Byte) (c : IntertripCause) : (s.intertripDemand p line c).resetHeld = s.resetHeld := congrArg (·.2.2.2.2.2.2.2.2.2.1) (State.intertripDemand_frame s p line c)
@[simp] theorem State.intertripDemand_verification (p : Port) (line : Byte) (c : IntertripCause) : (s.intertripDemand p line c).verification = s.verification := congrArg (·.2.2.2.2.2.2.2.2.2.2.1) (State.intertripDemand_frame s p line c)
@[simp] theorem State.intertripDemand_pending (p : Port) (line : Byte) (c : IntertripCause) : (s.intertripDemand p line c).pending = s.pending := congrArg (·.2.2.2.2.2.2.2.2.2.2.2) (State.intertripDemand_frame s p line c)

theorem State.intertripFor_frame (k : FeederNo) (c : IntertripCause) :
    (fun t : State => (t.mi, t.engines, t.seqs, t.backupLatch, t.rect, t.sections, t.ht, t.store, t.sp, t.resetHeld, t.verification, t.pending)) (s.intertripFor k c) =
    (fun t : State => (t.mi, t.engines, t.seqs, t.backupLatch, t.rect, t.sections, t.ht, t.store, t.sp, t.resetHeld, t.verification, t.pending)) s := by
  unfold State.intertripFor; try dsimp only
  repeat' split
  all_goals first | with_reducible rfl | simp | rfl
@[simp] theorem State.intertripFor_mi (k : FeederNo) (c : IntertripCause) : (s.intertripFor k c).mi = s.mi := congrArg (·.1) (State.intertripFor_frame s k c)
@[simp] theorem State.intertripFor_engines (k : FeederNo) (c : IntertripCause) : (s.intertripFor k c).engines = s.engines := congrArg (·.2.1) (State.intertripFor_frame s k c)
@[simp] theorem State.intertripFor_seqs (k : FeederNo) (c : IntertripCause) : (s.intertripFor k c).seqs = s.seqs := congrArg (·.2.2.1) (State.intertripFor_frame s k c)
@[simp] theorem State.intertripFor_backupLatch (k : FeederNo) (c : IntertripCause) : (s.intertripFor k c).backupLatch = s.backupLatch := congrArg (·.2.2.2.1) (State.intertripFor_frame s k c)
@[simp] theorem State.intertripFor_rect (k : FeederNo) (c : IntertripCause) : (s.intertripFor k c).rect = s.rect := congrArg (·.2.2.2.2.1) (State.intertripFor_frame s k c)
@[simp] theorem State.intertripFor_sections (k : FeederNo) (c : IntertripCause) : (s.intertripFor k c).sections = s.sections := congrArg (·.2.2.2.2.2.1) (State.intertripFor_frame s k c)
@[simp] theorem State.intertripFor_ht (k : FeederNo) (c : IntertripCause) : (s.intertripFor k c).ht = s.ht := congrArg (·.2.2.2.2.2.2.1) (State.intertripFor_frame s k c)
@[simp] theorem State.intertripFor_store (k : FeederNo) (c : IntertripCause) : (s.intertripFor k c).store = s.store := congrArg (·.2.2.2.2.2.2.2.1) (State.intertripFor_frame s k c)
@[simp] theorem State.intertripFor_sp (k : FeederNo) (c : IntertripCause) : (s.intertripFor k c).sp = s.sp := congrArg (·.2.2.2.2.2.2.2.2.1) (State.intertripFor_frame s k c)
@[simp] theorem State.intertripFor_resetHeld (k : FeederNo) (c : IntertripCause) : (s.intertripFor k c).resetHeld = s.resetHeld := congrArg (·.2.2.2.2.2.2.2.2.2.1) (State.intertripFor_frame s k c)
@[simp] theorem State.intertripFor_verification (k : FeederNo) (c : IntertripCause) : (s.intertripFor k c).verification = s.verification := congrArg (·.2.2.2.2.2.2.2.2.2.2.1) (State.intertripFor_frame s k c)
@[simp] theorem State.intertripFor_pending (k : FeederNo) (c : IntertripCause) : (s.intertripFor k c).pending = s.pending := congrArg (·.2.2.2.2.2.2.2.2.2.2.2) (State.intertripFor_frame s k c)

theorem State.changeEngine_frame (k : FeederNo) (f : Engine → Engine) :
    (fun t : State => (t.mi, t.seqs, t.backupLatch, t.rect, t.sections, t.ht, t.linkA, t.linkB, t.au, t.store, t.sp, t.resetHeld, t.verification, t.pending)) (s.changeEngine k f) =
    (fun t : State => (t.mi, t.seqs, t.backupLatch, t.rect, t.sections, t.ht, t.linkA, t.linkB, t.au, t.store, t.sp, t.resetHeld, t.verification, t.pending)) s := by
  unfold State.changeEngine; try dsimp only
  repeat' split
  all_goals first | with_reducible rfl | simp | rfl
@[simp] theorem State.changeEngine_mi (k : FeederNo) (f : Engine → Engine) : (s.changeEngine k f).mi = s.mi := congrArg (·.1) (State.changeEngine_frame s k f)
@[simp] theorem State.changeEngine_seqs (k : FeederNo) (f : Engine → Engine) : (s.changeEngine k f).seqs = s.seqs := congrArg (·.2.1) (State.changeEngine_frame s k f)
@[simp] theorem State.changeEngine_backupLatch (k : FeederNo) (f : Engine → Engine) : (s.changeEngine k f).backupLatch = s.backupLatch := congrArg (·.2.2.1) (State.changeEngine_frame s k f)
@[simp] theorem State.changeEngine_rect (k : FeederNo) (f : Engine → Engine) : (s.changeEngine k f).rect = s.rect := congrArg (·.2.2.2.1) (State.changeEngine_frame s k f)
@[simp] theorem State.changeEngine_sections (k : FeederNo) (f : Engine → Engine) : (s.changeEngine k f).sections = s.sections := congrArg (·.2.2.2.2.1) (State.changeEngine_frame s k f)
@[simp] theorem State.changeEngine_ht (k : FeederNo) (f : Engine → Engine) : (s.changeEngine k f).ht = s.ht := congrArg (·.2.2.2.2.2.1) (State.changeEngine_frame s k f)
@[simp] theorem State.changeEngine_linkA (k : FeederNo) (f : Engine → Engine) : (s.changeEngine k f).linkA = s.linkA := congrArg (·.2.2.2.2.2.2.1) (State.changeEngine_frame s k f)
@[simp] theorem State.changeEngine_linkB (k : FeederNo) (f : Engine → Engine) : (s.changeEngine k f).linkB = s.linkB := congrArg (·.2.2.2.2.2.2.2.1) (State.changeEngine_frame s k f)
@[simp] theorem State.changeEngine_au (k : FeederNo) (f : Engine → Engine) : (s.changeEngine k f).au = s.au := congrArg (·.2.2.2.2.2.2.2.2.1) (State.changeEngine_frame s k f)
@[simp] theorem State.changeEngine_store (k : FeederNo) (f : Engine → Engine) : (s.changeEngine k f).store = s.store := congrArg (·.2.2.2.2.2.2.2.2.2.1) (State.changeEngine_frame s k f)
@[simp] theorem State.changeEngine_sp (k : FeederNo) (f : Engine → Engine) : (s.changeEngine k f).sp = s.sp := congrArg (·.2.2.2.2.2.2.2.2.2.2.1) (State.changeEngine_frame s k f)
@[simp] theorem State.changeEngine_resetHeld (k : FeederNo) (f : Engine → Engine) : (s.changeEngine k f).resetHeld = s.resetHeld := congrArg (·.2.2.2.2.2.2.2.2.2.2.2.1) (State.changeEngine_frame s k f)
@[simp] theorem State.changeEngine_verification (k : FeederNo) (f : Engine → Engine) : (s.changeEngine k f).verification = s.verification := congrArg (·.2.2.2.2.2.2.2.2.2.2.2.2.1) (State.changeEngine_frame s k f)
@[simp] theorem State.changeEngine_pending (k : FeederNo) (f : Engine → Engine) : (s.changeEngine k f).pending = s.pending := congrArg (·.2.2.2.2.2.2.2.2.2.2.2.2.2) (State.changeEngine_frame s k f)

theorem State.engineClosing_frame (k : FeederNo) :
    (fun t : State => (t.mi, t.seqs, t.backupLatch, t.rect, t.sections, t.ht, t.linkA, t.linkB, t.au, t.store, t.sp, t.resetHeld, t.verification, t.pending)) (s.engineClosing k) =
    (fun t : State => (t.mi, t.seqs, t.backupLatch, t.rect, t.sections, t.ht, t.linkA, t.linkB, t.au, t.store, t.sp, t.resetHeld, t.verification, t.pending)) s := by
  unfold State.engineClosing; try dsimp only
  repeat' split
  all_goals first | with_reducible rfl | simp | rfl
@[simp] theorem State.engineClosing_mi (k : FeederNo) : (s.engineClosing k).mi = s.mi := congrArg (·.1) (State.engineClosing_frame s k)
@[simp] theorem State.engineClosing_seqs (k : FeederNo) : (s.engineClosing k).seqs = s.seqs := congrArg (·.2.1) (State.engineClosing_frame s k)
@[simp] theorem State.engineClosing_backupLatch (k : FeederNo) : (s.engineClosing k).backupLatch = s.backupLatch := congrArg (·.2.2.1) (State.engineClosing_frame s k)
@[simp] theorem State.engineClosing_rect (k : FeederNo) : (s.engineClosing k).rect = s.rect := congrArg (·.2.2.2.1) (State.engineClosing_frame s k)
@[simp] theorem State.engineClosing_sections (k : FeederNo) : (s.engineClosing k).sections = s.sections := congrArg (·.2.2.2.2.1) (State.engineClosing_frame s k)
@[simp] theorem State.engineClosing_ht (k : FeederNo) : (s.engineClosing k).ht = s.ht := congrArg (·.2.2.2.2.2.1) (State.engineClosing_frame s k)
@[simp] theorem State.engineClosing_linkA (k : FeederNo) : (s.engineClosing k).linkA = s.linkA := congrArg (·.2.2.2.2.2.2.1) (State.engineClosing_frame s k)
@[simp] theorem State.engineClosing_linkB (k : FeederNo) : (s.engineClosing k).linkB = s.linkB := congrArg (·.2.2.2.2.2.2.2.1) (State.engineClosing_frame s k)
@[simp] theorem State.engineClosing_au (k : FeederNo) : (s.engineClosing k).au = s.au := congrArg (·.2.2.2.2.2.2.2.2.1) (State.engineClosing_frame s k)
@[simp] theorem State.engineClosing_store (k : FeederNo) : (s.engineClosing k).store = s.store := congrArg (·.2.2.2.2.2.2.2.2.2.1) (State.engineClosing_frame s k)
@[simp] theorem State.engineClosing_sp (k : FeederNo) : (s.engineClosing k).sp = s.sp := congrArg (·.2.2.2.2.2.2.2.2.2.2.1) (State.engineClosing_frame s k)
@[simp] theorem State.engineClosing_resetHeld (k : FeederNo) : (s.engineClosing k).resetHeld = s.resetHeld := congrArg (·.2.2.2.2.2.2.2.2.2.2.2.1) (State.engineClosing_frame s k)
@[simp] theorem State.engineClosing_verification (k : FeederNo) : (s.engineClosing k).verification = s.verification := congrArg (·.2.2.2.2.2.2.2.2.2.2.2.2.1) (State.engineClosing_frame s k)
@[simp] theorem State.engineClosing_pending (k : FeederNo) : (s.engineClosing k).pending = s.pending := congrArg (·.2.2.2.2.2.2.2.2.2.2.2.2.2) (State.engineClosing_frame s k)

theorem State.engineStop_frame (k : FeederNo) :
    (fun t : State => (t.mi, t.seqs, t.backupLatch, t.rect, t.sections, t.ht, t.linkA, t.linkB, t.au, t.store, t.sp, t.resetHeld, t.verification, t.pending)) (s.engineStop k) =
    (fun t : State => (t.mi, t.seqs, t.backupLatch, t.rect, t.sections, t.ht, t.linkA, t.linkB, t.au, t.store, t.sp, t.resetHeld, t.verification, t.pending)) s := by
  unfold State.engineStop; simp
@[simp] theorem State.engineStop_mi (k : FeederNo) : (s.engineStop k).mi = s.mi := congrArg (·.1) (State.engineStop_frame s k)
@[simp] theorem State.engineStop_seqs (k : FeederNo) : (s.engineStop k).seqs = s.seqs := congrArg (·.2.1) (State.engineStop_frame s k)
@[simp] theorem State.engineStop_backupLatch (k : FeederNo) : (s.engineStop k).backupLatch = s.backupLatch := congrArg (·.2.2.1) (State.engineStop_frame s k)
@[simp] theorem State.engineStop_rect (k : FeederNo) : (s.engineStop k).rect = s.rect := congrArg (·.2.2.2.1) (State.engineStop_frame s k)
@[simp] theorem State.engineStop_sections (k : FeederNo) : (s.engineStop k).sections = s.sections := congrArg (·.2.2.2.2.1) (State.engineStop_frame s k)
@[simp] theorem State.engineStop_ht (k : FeederNo) : (s.engineStop k).ht = s.ht := congrArg (·.2.2.2.2.2.1) (State.engineStop_frame s k)
@[simp] theorem State.engineStop_linkA (k : FeederNo) : (s.engineStop k).linkA = s.linkA := congrArg (·.2.2.2.2.2.2.1) (State.engineStop_frame s k)
@[simp] theorem State.engineStop_linkB (k : FeederNo) : (s.engineStop k).linkB = s.linkB := congrArg (·.2.2.2.2.2.2.2.1) (State.engineStop_frame s k)
@[simp] theorem State.engineStop_au (k : FeederNo) : (s.engineStop k).au = s.au := congrArg (·.2.2.2.2.2.2.2.2.1) (State.engineStop_frame s k)
@[simp] theorem State.engineStop_store (k : FeederNo) : (s.engineStop k).store = s.store := congrArg (·.2.2.2.2.2.2.2.2.2.1) (State.engineStop_frame s k)
@[simp] theorem State.engineStop_sp (k : FeederNo) : (s.engineStop k).sp = s.sp := congrArg (·.2.2.2.2.2.2.2.2.2.2.1) (State.engineStop_frame s k)
@[simp] theorem State.engineStop_resetHeld (k : FeederNo) : (s.engineStop k).resetHeld = s.resetHeld := congrArg (·.2.2.2.2.2.2.2.2.2.2.2.1) (State.engineStop_frame s k)
@[simp] theorem State.engineStop_verification (k : FeederNo) : (s.engineStop k).verification = s.verification := congrArg (·.2.2.2.2.2.2.2.2.2.2.2.2.1) (State.engineStop_frame s k)
@[simp] theorem State.engineStop_pending (k : FeederNo) : (s.engineStop k).pending = s.pending := congrArg (·.2.2.2.2.2.2.2.2.2.2.2.2.2) (State.engineStop_frame s k)

theorem State.engineOpen_frame (k : FeederNo) :
    (fun t : State => (t.mi, t.seqs, t.backupLatch, t.rect, t.sections, t.ht, t.linkA, t.linkB, t.au, t.store, t.sp, t.resetHeld, t.verification, t.pending)) (s.engineOpen k) =
    (fun t : State => (t.mi, t.seqs, t.backupLatch, t.rect, t.sections, t.ht, t.linkA, t.linkB, t.au, t.store, t.sp, t.resetHeld, t.verification, t.pending)) s := by
  unfold State.engineOpen; try dsimp only
  repeat' split
  all_goals first | with_reducible rfl | simp | rfl
@[simp] theorem State.engineOpen_mi (k : FeederNo) : (s.engineOpen k).mi = s.mi := congrArg (·.1) (State.engineOpen_frame s k)
@[simp] theorem State.engineOpen_seqs (k : FeederNo) : (s.engineOpen k).seqs = s.seqs := congrArg (·.2.1) (State.engineOpen_frame s k)
@[simp] theorem State.engineOpen_backupLatch (k : FeederNo) : (s.engineOpen k).backupLatch = s.backupLatch := congrArg (·.2.2.1) (State.engineOpen_frame s k)
@[simp] theorem State.engineOpen_rect (k : FeederNo) : (s.engineOpen k).rect = s.rect := congrArg (·.2.2.2.1) (State.engineOpen_frame s k)
@[simp] theorem State.engineOpen_sections (k : FeederNo) : (s.engineOpen k).sections = s.sections := congrArg (·.2.2.2.2.1) (State.engineOpen_frame s k)
@[simp] theorem State.engineOpen_ht (k : FeederNo) : (s.engineOpen k).ht = s.ht := congrArg (·.2.2.2.2.2.1) (State.engineOpen_frame s k)
@[simp] theorem State.engineOpen_linkA (k : FeederNo) : (s.engineOpen k).linkA = s.linkA := congrArg (·.2.2.2.2.2.2.1) (State.engineOpen_frame s k)
@[simp] theorem State.engineOpen_linkB (k : FeederNo) : (s.engineOpen k).linkB = s.linkB := congrArg (·.2.2.2.2.2.2.2.1) (State.engineOpen_frame s k)
@[simp] theorem State.engineOpen_au (k : FeederNo) : (s.engineOpen k).au = s.au := congrArg (·.2.2.2.2.2.2.2.2.1) (State.engineOpen_frame s k)
@[simp] theorem State.engineOpen_store (k : FeederNo) : (s.engineOpen k).store = s.store := congrArg (·.2.2.2.2.2.2.2.2.2.1) (State.engineOpen_frame s k)
@[simp] theorem State.engineOpen_sp (k : FeederNo) : (s.engineOpen k).sp = s.sp := congrArg (·.2.2.2.2.2.2.2.2.2.2.1) (State.engineOpen_frame s k)
@[simp] theorem State.engineOpen_resetHeld (k : FeederNo) : (s.engineOpen k).resetHeld = s.resetHeld := congrArg (·.2.2.2.2.2.2.2.2.2.2.2.1) (State.engineOpen_frame s k)
@[simp] theorem State.engineOpen_verification (k : FeederNo) : (s.engineOpen k).verification = s.verification := congrArg (·.2.2.2.2.2.2.2.2.2.2.2.2.1) (State.engineOpen_frame s k)
@[simp] theorem State.engineOpen_pending (k : FeederNo) : (s.engineOpen k).pending = s.pending := congrArg (·.2.2.2.2.2.2.2.2.2.2.2.2.2) (State.engineOpen_frame s k)

theorem State.wantSet_frame (k : FeederNo) (w : SetSel) :
    (fun t : State => (t.mi, t.seqs, t.backupLatch, t.rect, t.sections, t.ht, t.linkA, t.linkB, t.au, t.store, t.sp, t.resetHeld, t.verification, t.pending)) (s.wantSet k w) =
    (fun t : State => (t.mi, t.seqs, t.backupLatch, t.rect, t.sections, t.ht, t.linkA, t.linkB, t.au, t.store, t.sp, t.resetHeld, t.verification, t.pending)) s := by
  unfold State.wantSet; try dsimp only
  repeat' split
  all_goals first | with_reducible rfl | simp | rfl
@[simp] theorem State.wantSet_mi (k : FeederNo) (w : SetSel) : (s.wantSet k w).mi = s.mi := congrArg (·.1) (State.wantSet_frame s k w)
@[simp] theorem State.wantSet_seqs (k : FeederNo) (w : SetSel) : (s.wantSet k w).seqs = s.seqs := congrArg (·.2.1) (State.wantSet_frame s k w)
@[simp] theorem State.wantSet_backupLatch (k : FeederNo) (w : SetSel) : (s.wantSet k w).backupLatch = s.backupLatch := congrArg (·.2.2.1) (State.wantSet_frame s k w)
@[simp] theorem State.wantSet_rect (k : FeederNo) (w : SetSel) : (s.wantSet k w).rect = s.rect := congrArg (·.2.2.2.1) (State.wantSet_frame s k w)
@[simp] theorem State.wantSet_sections (k : FeederNo) (w : SetSel) : (s.wantSet k w).sections = s.sections := congrArg (·.2.2.2.2.1) (State.wantSet_frame s k w)
@[simp] theorem State.wantSet_ht (k : FeederNo) (w : SetSel) : (s.wantSet k w).ht = s.ht := congrArg (·.2.2.2.2.2.1) (State.wantSet_frame s k w)
@[simp] theorem State.wantSet_linkA (k : FeederNo) (w : SetSel) : (s.wantSet k w).linkA = s.linkA := congrArg (·.2.2.2.2.2.2.1) (State.wantSet_frame s k w)
@[simp] theorem State.wantSet_linkB (k : FeederNo) (w : SetSel) : (s.wantSet k w).linkB = s.linkB := congrArg (·.2.2.2.2.2.2.2.1) (State.wantSet_frame s k w)
@[simp] theorem State.wantSet_au (k : FeederNo) (w : SetSel) : (s.wantSet k w).au = s.au := congrArg (·.2.2.2.2.2.2.2.2.1) (State.wantSet_frame s k w)
@[simp] theorem State.wantSet_store (k : FeederNo) (w : SetSel) : (s.wantSet k w).store = s.store := congrArg (·.2.2.2.2.2.2.2.2.2.1) (State.wantSet_frame s k w)
@[simp] theorem State.wantSet_sp (k : FeederNo) (w : SetSel) : (s.wantSet k w).sp = s.sp := congrArg (·.2.2.2.2.2.2.2.2.2.2.1) (State.wantSet_frame s k w)
@[simp] theorem State.wantSet_resetHeld (k : FeederNo) (w : SetSel) : (s.wantSet k w).resetHeld = s.resetHeld := congrArg (·.2.2.2.2.2.2.2.2.2.2.2.1) (State.wantSet_frame s k w)
@[simp] theorem State.wantSet_verification (k : FeederNo) (w : SetSel) : (s.wantSet k w).verification = s.verification := congrArg (·.2.2.2.2.2.2.2.2.2.2.2.2.1) (State.wantSet_frame s k w)
@[simp] theorem State.wantSet_pending (k : FeederNo) (w : SetSel) : (s.wantSet k w).pending = s.pending := congrArg (·.2.2.2.2.2.2.2.2.2.2.2.2.2) (State.wantSet_frame s k w)

theorem State.enter_frame (k : FeederNo) (q : SeqState) (f : Sequencer → Sequencer) :
    (fun t : State => (t.mi, t.backupLatch, t.rect, t.sections, t.ht, t.linkA, t.linkB, t.au, t.store, t.sp, t.resetHeld, t.verification, t.pending)) (s.enter k q f) =
    (fun t : State => (t.mi, t.backupLatch, t.rect, t.sections, t.ht, t.linkA, t.linkB, t.au, t.store, t.sp, t.resetHeld, t.verification, t.pending)) s := by
  unfold State.enter; try dsimp only
  repeat' split
  all_goals first | with_reducible rfl | simp | rfl
@[simp] theorem State.enter_mi (k : FeederNo) (q : SeqState) (f : Sequencer → Sequencer) : (s.enter k q f).mi = s.mi := congrArg (·.1) (State.enter_frame s k q f)
@[simp] theorem State.enter_backupLatch (k : FeederNo) (q : SeqState) (f : Sequencer → Sequencer) : (s.enter k q f).backupLatch = s.backupLatch := congrArg (·.2.1) (State.enter_frame s k q f)
@[simp] theorem State.enter_rect (k : FeederNo) (q : SeqState) (f : Sequencer → Sequencer) : (s.enter k q f).rect = s.rect := congrArg (·.2.2.1) (State.enter_frame s k q f)
@[simp] theorem State.enter_sections (k : FeederNo) (q : SeqState) (f : Sequencer → Sequencer) : (s.enter k q f).sections = s.sections := congrArg (·.2.2.2.1) (State.enter_frame s k q f)
@[simp] theorem State.enter_ht (k : FeederNo) (q : SeqState) (f : Sequencer → Sequencer) : (s.enter k q f).ht = s.ht := congrArg (·.2.2.2.2.1) (State.enter_frame s k q f)
@[simp] theorem State.enter_linkA (k : FeederNo) (q : SeqState) (f : Sequencer → Sequencer) : (s.enter k q f).linkA = s.linkA := congrArg (·.2.2.2.2.2.1) (State.enter_frame s k q f)
@[simp] theorem State.enter_linkB (k : FeederNo) (q : SeqState) (f : Sequencer → Sequencer) : (s.enter k q f).linkB = s.linkB := congrArg (·.2.2.2.2.2.2.1) (State.enter_frame s k q f)
@[simp] theorem State.enter_au (k : FeederNo) (q : SeqState) (f : Sequencer → Sequencer) : (s.enter k q f).au = s.au := congrArg (·.2.2.2.2.2.2.2.1) (State.enter_frame s k q f)
@[simp] theorem State.enter_store (k : FeederNo) (q : SeqState) (f : Sequencer → Sequencer) : (s.enter k q f).store = s.store := congrArg (·.2.2.2.2.2.2.2.2.1) (State.enter_frame s k q f)
@[simp] theorem State.enter_sp (k : FeederNo) (q : SeqState) (f : Sequencer → Sequencer) : (s.enter k q f).sp = s.sp := congrArg (·.2.2.2.2.2.2.2.2.2.1) (State.enter_frame s k q f)
@[simp] theorem State.enter_resetHeld (k : FeederNo) (q : SeqState) (f : Sequencer → Sequencer) : (s.enter k q f).resetHeld = s.resetHeld := congrArg (·.2.2.2.2.2.2.2.2.2.2.1) (State.enter_frame s k q f)
@[simp] theorem State.enter_verification (k : FeederNo) (q : SeqState) (f : Sequencer → Sequencer) : (s.enter k q f).verification = s.verification := congrArg (·.2.2.2.2.2.2.2.2.2.2.2.1) (State.enter_frame s k q f)
@[simp] theorem State.enter_pending (k : FeederNo) (q : SeqState) (f : Sequencer → Sequencer) : (s.enter k q f).pending = s.pending := congrArg (·.2.2.2.2.2.2.2.2.2.2.2.2) (State.enter_frame s k q f)

theorem State.startOpenPulse_frame (k : FeederNo) :
    (fun t : State => (t.mi, t.engines, t.backupLatch, t.rect, t.sections, t.ht, t.linkA, t.linkB, t.au, t.store, t.sp, t.resetHeld, t.verification, t.agenda, t.pending)) (s.startOpenPulse k) =
    (fun t : State => (t.mi, t.engines, t.backupLatch, t.rect, t.sections, t.ht, t.linkA, t.linkB, t.au, t.store, t.sp, t.resetHeld, t.verification, t.agenda, t.pending)) s := by
  unfold State.startOpenPulse; try dsimp only
  repeat' split
  all_goals first | with_reducible rfl | simp | rfl
@[simp] theorem State.startOpenPulse_mi (k : FeederNo) : (s.startOpenPulse k).mi = s.mi := congrArg (·.1) (State.startOpenPulse_frame s k)
@[simp] theorem State.startOpenPulse_engines (k : FeederNo) : (s.startOpenPulse k).engines = s.engines := congrArg (·.2.1) (State.startOpenPulse_frame s k)
@[simp] theorem State.startOpenPulse_backupLatch (k : FeederNo) : (s.startOpenPulse k).backupLatch = s.backupLatch := congrArg (·.2.2.1) (State.startOpenPulse_frame s k)
@[simp] theorem State.startOpenPulse_rect (k : FeederNo) : (s.startOpenPulse k).rect = s.rect := congrArg (·.2.2.2.1) (State.startOpenPulse_frame s k)
@[simp] theorem State.startOpenPulse_sections (k : FeederNo) : (s.startOpenPulse k).sections = s.sections := congrArg (·.2.2.2.2.1) (State.startOpenPulse_frame s k)
@[simp] theorem State.startOpenPulse_ht (k : FeederNo) : (s.startOpenPulse k).ht = s.ht := congrArg (·.2.2.2.2.2.1) (State.startOpenPulse_frame s k)
@[simp] theorem State.startOpenPulse_linkA (k : FeederNo) : (s.startOpenPulse k).linkA = s.linkA := congrArg (·.2.2.2.2.2.2.1) (State.startOpenPulse_frame s k)
@[simp] theorem State.startOpenPulse_linkB (k : FeederNo) : (s.startOpenPulse k).linkB = s.linkB := congrArg (·.2.2.2.2.2.2.2.1) (State.startOpenPulse_frame s k)
@[simp] theorem State.startOpenPulse_au (k : FeederNo) : (s.startOpenPulse k).au = s.au := congrArg (·.2.2.2.2.2.2.2.2.1) (State.startOpenPulse_frame s k)
@[simp] theorem State.startOpenPulse_store (k : FeederNo) : (s.startOpenPulse k).store = s.store := congrArg (·.2.2.2.2.2.2.2.2.2.1) (State.startOpenPulse_frame s k)
@[simp] theorem State.startOpenPulse_sp (k : FeederNo) : (s.startOpenPulse k).sp = s.sp := congrArg (·.2.2.2.2.2.2.2.2.2.2.1) (State.startOpenPulse_frame s k)
@[simp] theorem State.startOpenPulse_resetHeld (k : FeederNo) : (s.startOpenPulse k).resetHeld = s.resetHeld := congrArg (·.2.2.2.2.2.2.2.2.2.2.2.1) (State.startOpenPulse_frame s k)
@[simp] theorem State.startOpenPulse_verification (k : FeederNo) : (s.startOpenPulse k).verification = s.verification := congrArg (·.2.2.2.2.2.2.2.2.2.2.2.2.1) (State.startOpenPulse_frame s k)
@[simp] theorem State.startOpenPulse_agenda (k : FeederNo) : (s.startOpenPulse k).agenda = s.agenda := congrArg (·.2.2.2.2.2.2.2.2.2.2.2.2.2.1) (State.startOpenPulse_frame s k)
@[simp] theorem State.startOpenPulse_pending (k : FeederNo) : (s.startOpenPulse k).pending = s.pending := congrArg (·.2.2.2.2.2.2.2.2.2.2.2.2.2.2) (State.startOpenPulse_frame s k)

theorem State.recordTrip_frame (k : FeederNo) (r : TripRecord) :
    (fun t : State => (t.mi, t.engines, t.backupLatch, t.rect, t.sections, t.ht, t.linkA, t.linkB, t.store, t.sp, t.resetHeld, t.verification, t.agenda, t.pending)) (s.recordTrip k r) =
    (fun t : State => (t.mi, t.engines, t.backupLatch, t.rect, t.sections, t.ht, t.linkA, t.linkB, t.store, t.sp, t.resetHeld, t.verification, t.agenda, t.pending)) s := by
  unfold State.recordTrip; try dsimp only
  repeat' split
  all_goals first | with_reducible rfl | simp | rfl
@[simp] theorem State.recordTrip_mi (k : FeederNo) (r : TripRecord) : (s.recordTrip k r).mi = s.mi := congrArg (·.1) (State.recordTrip_frame s k r)
@[simp] theorem State.recordTrip_engines (k : FeederNo) (r : TripRecord) : (s.recordTrip k r).engines = s.engines := congrArg (·.2.1) (State.recordTrip_frame s k r)
@[simp] theorem State.recordTrip_backupLatch (k : FeederNo) (r : TripRecord) : (s.recordTrip k r).backupLatch = s.backupLatch := congrArg (·.2.2.1) (State.recordTrip_frame s k r)
@[simp] theorem State.recordTrip_rect (k : FeederNo) (r : TripRecord) : (s.recordTrip k r).rect = s.rect := congrArg (·.2.2.2.1) (State.recordTrip_frame s k r)
@[simp] theorem State.recordTrip_sections (k : FeederNo) (r : TripRecord) : (s.recordTrip k r).sections = s.sections := congrArg (·.2.2.2.2.1) (State.recordTrip_frame s k r)
@[simp] theorem State.recordTrip_ht (k : FeederNo) (r : TripRecord) : (s.recordTrip k r).ht = s.ht := congrArg (·.2.2.2.2.2.1) (State.recordTrip_frame s k r)
@[simp] theorem State.recordTrip_linkA (k : FeederNo) (r : TripRecord) : (s.recordTrip k r).linkA = s.linkA := congrArg (·.2.2.2.2.2.2.1) (State.recordTrip_frame s k r)
@[simp] theorem State.recordTrip_linkB (k : FeederNo) (r : TripRecord) : (s.recordTrip k r).linkB = s.linkB := congrArg (·.2.2.2.2.2.2.2.1) (State.recordTrip_frame s k r)
@[simp] theorem State.recordTrip_store (k : FeederNo) (r : TripRecord) : (s.recordTrip k r).store = s.store := congrArg (·.2.2.2.2.2.2.2.2.1) (State.recordTrip_frame s k r)
@[simp] theorem State.recordTrip_sp (k : FeederNo) (r : TripRecord) : (s.recordTrip k r).sp = s.sp := congrArg (·.2.2.2.2.2.2.2.2.2.1) (State.recordTrip_frame s k r)
@[simp] theorem State.recordTrip_resetHeld (k : FeederNo) (r : TripRecord) : (s.recordTrip k r).resetHeld = s.resetHeld := congrArg (·.2.2.2.2.2.2.2.2.2.2.1) (State.recordTrip_frame s k r)
@[simp] theorem State.recordTrip_verification (k : FeederNo) (r : TripRecord) : (s.recordTrip k r).verification = s.verification := congrArg (·.2.2.2.2.2.2.2.2.2.2.2.1) (State.recordTrip_frame s k r)
@[simp] theorem State.recordTrip_agenda (k : FeederNo) (r : TripRecord) : (s.recordTrip k r).agenda = s.agenda := congrArg (·.2.2.2.2.2.2.2.2.2.2.2.2.1) (State.recordTrip_frame s k r)
@[simp] theorem State.recordTrip_pending (k : FeederNo) (r : TripRecord) : (s.recordTrip k r).pending = s.pending := congrArg (·.2.2.2.2.2.2.2.2.2.2.2.2.2) (State.recordTrip_frame s k r)

theorem State.deriveBusFeed_frame :
    (fun t : State => (t.mi, t.engines, t.seqs, t.backupLatch, t.rect, t.ht, t.linkA, t.linkB, t.au, t.store, t.sp, t.resetHeld, t.verification, t.agenda, t.pending)) (s.deriveBusFeed) =
    (fun t : State => (t.mi, t.engines, t.seqs, t.backupLatch, t.rect, t.ht, t.linkA, t.linkB, t.au, t.store, t.sp, t.resetHeld, t.verification, t.agenda, t.pending)) s := by
  unfold State.deriveBusFeed; try dsimp only
  repeat' split
  all_goals first | with_reducible rfl | simp | rfl
@[simp] theorem State.deriveBusFeed_mi : (s.deriveBusFeed).mi = s.mi := congrArg (·.1) (State.deriveBusFeed_frame s)
@[simp] theorem State.deriveBusFeed_engines : (s.deriveBusFeed).engines = s.engines := congrArg (·.2.1) (State.deriveBusFeed_frame s)
@[simp] theorem State.deriveBusFeed_seqs : (s.deriveBusFeed).seqs = s.seqs := congrArg (·.2.2.1) (State.deriveBusFeed_frame s)
@[simp] theorem State.deriveBusFeed_backupLatch : (s.deriveBusFeed).backupLatch = s.backupLatch := congrArg (·.2.2.2.1) (State.deriveBusFeed_frame s)
@[simp] theorem State.deriveBusFeed_rect : (s.deriveBusFeed).rect = s.rect := congrArg (·.2.2.2.2.1) (State.deriveBusFeed_frame s)
@[simp] theorem State.deriveBusFeed_ht : (s.deriveBusFeed).ht = s.ht := congrArg (·.2.2.2.2.2.1) (State.deriveBusFeed_frame s)
@[simp] theorem State.deriveBusFeed_linkA : (s.deriveBusFeed).linkA = s.linkA := congrArg (·.2.2.2.2.2.2.1) (State.deriveBusFeed_frame s)
@[simp] theorem State.deriveBusFeed_linkB : (s.deriveBusFeed).linkB = s.linkB := congrArg (·.2.2.2.2.2.2.2.1) (State.deriveBusFeed_frame s)
@[simp] theorem State.deriveBusFeed_au : (s.deriveBusFeed).au = s.au := congrArg (·.2.2.2.2.2.2.2.2.1) (State.deriveBusFeed_frame s)
@[simp] theorem State.deriveBusFeed_store : (s.deriveBusFeed).store = s.store := congrArg (·.2.2.2.2.2.2.2.2.2.1) (State.deriveBusFeed_frame s)
@[simp] theorem State.deriveBusFeed_sp : (s.deriveBusFeed).sp = s.sp := congrArg (·.2.2.2.2.2.2.2.2.2.2.1) (State.deriveBusFeed_frame s)
@[simp] theorem State.deriveBusFeed_resetHeld : (s.deriveBusFeed).resetHeld = s.resetHeld := congrArg (·.2.2.2.2.2.2.2.2.2.2.2.1) (State.deriveBusFeed_frame s)
@[simp] theorem State.deriveBusFeed_verification : (s.deriveBusFeed).verification = s.verification := congrArg (·.2.2.2.2.2.2.2.2.2.2.2.2.1) (State.deriveBusFeed_frame s)
@[simp] theorem State.deriveBusFeed_agenda : (s.deriveBusFeed).agenda = s.agenda := congrArg (·.2.2.2.2.2.2.2.2.2.2.2.2.2.1) (State.deriveBusFeed_frame s)
@[simp] theorem State.deriveBusFeed_pending : (s.deriveBusFeed).pending = s.pending := congrArg (·.2.2.2.2.2.2.2.2.2.2.2.2.2.2) (State.deriveBusFeed_frame s)

theorem State.deriveFeed_frame (k : FeederNo) :
    (fun t : State => (t.mi, t.engines, t.seqs, t.backupLatch, t.rect, t.ht, t.linkA, t.linkB, t.au, t.store, t.sp, t.resetHeld, t.verification, t.agenda, t.pending)) (s.deriveFeed k) =
    (fun t : State => (t.mi, t.engines, t.seqs, t.backupLatch, t.rect, t.ht, t.linkA, t.linkB, t.au, t.store, t.sp, t.resetHeld, t.verification, t.agenda, t.pending)) s := by
  unfold State.deriveFeed; try dsimp only
  repeat' split
  all_goals first | with_reducible rfl | simp | rfl
@[simp] theorem State.deriveFeed_mi (k : FeederNo) : (s.deriveFeed k).mi = s.mi := congrArg (·.1) (State.deriveFeed_frame s k)
@[simp] theorem State.deriveFeed_engines (k : FeederNo) : (s.deriveFeed k).engines = s.engines := congrArg (·.2.1) (State.deriveFeed_frame s k)
@[simp] theorem State.deriveFeed_seqs (k : FeederNo) : (s.deriveFeed k).seqs = s.seqs := congrArg (·.2.2.1) (State.deriveFeed_frame s k)
@[simp] theorem State.deriveFeed_backupLatch (k : FeederNo) : (s.deriveFeed k).backupLatch = s.backupLatch := congrArg (·.2.2.2.1) (State.deriveFeed_frame s k)
@[simp] theorem State.deriveFeed_rect (k : FeederNo) : (s.deriveFeed k).rect = s.rect := congrArg (·.2.2.2.2.1) (State.deriveFeed_frame s k)
@[simp] theorem State.deriveFeed_ht (k : FeederNo) : (s.deriveFeed k).ht = s.ht := congrArg (·.2.2.2.2.2.1) (State.deriveFeed_frame s k)
@[simp] theorem State.deriveFeed_linkA (k : FeederNo) : (s.deriveFeed k).linkA = s.linkA := congrArg (·.2.2.2.2.2.2.1) (State.deriveFeed_frame s k)
@[simp] theorem State.deriveFeed_linkB (k : FeederNo) : (s.deriveFeed k).linkB = s.linkB := congrArg (·.2.2.2.2.2.2.2.1) (State.deriveFeed_frame s k)
@[simp] theorem State.deriveFeed_au (k : FeederNo) : (s.deriveFeed k).au = s.au := congrArg (·.2.2.2.2.2.2.2.2.1) (State.deriveFeed_frame s k)
@[simp] theorem State.deriveFeed_store (k : FeederNo) : (s.deriveFeed k).store = s.store := congrArg (·.2.2.2.2.2.2.2.2.2.1) (State.deriveFeed_frame s k)
@[simp] theorem State.deriveFeed_sp (k : FeederNo) : (s.deriveFeed k).sp = s.sp := congrArg (·.2.2.2.2.2.2.2.2.2.2.1) (State.deriveFeed_frame s k)
@[simp] theorem State.deriveFeed_resetHeld (k : FeederNo) : (s.deriveFeed k).resetHeld = s.resetHeld := congrArg (·.2.2.2.2.2.2.2.2.2.2.2.1) (State.deriveFeed_frame s k)
@[simp] theorem State.deriveFeed_verification (k : FeederNo) : (s.deriveFeed k).verification = s.verification := congrArg (·.2.2.2.2.2.2.2.2.2.2.2.2.1) (State.deriveFeed_frame s k)
@[simp] theorem State.deriveFeed_agenda (k : FeederNo) : (s.deriveFeed k).agenda = s.agenda := congrArg (·.2.2.2.2.2.2.2.2.2.2.2.2.2.1) (State.deriveFeed_frame s k)
@[simp] theorem State.deriveFeed_pending (k : FeederNo) : (s.deriveFeed k).pending = s.pending := congrArg (·.2.2.2.2.2.2.2.2.2.2.2.2.2.2) (State.deriveFeed_frame s k)

theorem State.deriveBars_frame (n : SectionNo) :
    (fun t : State => (t.mi, t.engines, t.seqs, t.backupLatch, t.rect, t.ht, t.linkA, t.linkB, t.au, t.store, t.sp, t.resetHeld, t.verification, t.agenda, t.pending)) (s.deriveBars n) =
    (fun t : State => (t.mi, t.engines, t.seqs, t.backupLatch, t.rect, t.ht, t.linkA, t.linkB, t.au, t.store, t.sp, t.resetHeld, t.verification, t.agenda, t.pending)) s := by
  unfold State.deriveBars; try dsimp only
  repeat' split
  all_goals first | with_reducible rfl | simp | rfl
@[simp] theorem State.deriveBars_mi (n : SectionNo) : (s.deriveBars n).mi = s.mi := congrArg (·.1) (State.deriveBars_frame s n)
@[simp] theorem State.deriveBars_engines (n : SectionNo) : (s.deriveBars n).engines = s.engines := congrArg (·.2.1) (State.deriveBars_frame s n)
@[simp] theorem State.deriveBars_seqs (n : SectionNo) : (s.deriveBars n).seqs = s.seqs := congrArg (·.2.2.1) (State.deriveBars_frame s n)
@[simp] theorem State.deriveBars_backupLatch (n : SectionNo) : (s.deriveBars n).backupLatch = s.backupLatch := congrArg (·.2.2.2.1) (State.deriveBars_frame s n)
@[simp] theorem State.deriveBars_rect (n : SectionNo) : (s.deriveBars n).rect = s.rect := congrArg (·.2.2.2.2.1) (State.deriveBars_frame s n)
@[simp] theorem State.deriveBars_ht (n : SectionNo) : (s.deriveBars n).ht = s.ht := congrArg (·.2.2.2.2.2.1) (State.deriveBars_frame s n)
@[simp] theorem State.deriveBars_linkA (n : SectionNo) : (s.deriveBars n).linkA = s.linkA := congrArg (·.2.2.2.2.2.2.1) (State.deriveBars_frame s n)
@[simp] theorem State.deriveBars_linkB (n : SectionNo) : (s.deriveBars n).linkB = s.linkB := congrArg (·.2.2.2.2.2.2.2.1) (State.deriveBars_frame s n)
@[simp] theorem State.deriveBars_au (n : SectionNo) : (s.deriveBars n).au = s.au := congrArg (·.2.2.2.2.2.2.2.2.1) (State.deriveBars_frame s n)
@[simp] theorem State.deriveBars_store (n : SectionNo) : (s.deriveBars n).store = s.store := congrArg (·.2.2.2.2.2.2.2.2.2.1) (State.deriveBars_frame s n)
@[simp] theorem State.deriveBars_sp (n : SectionNo) : (s.deriveBars n).sp = s.sp := congrArg (·.2.2.2.2.2.2.2.2.2.2.1) (State.deriveBars_frame s n)
@[simp] theorem State.deriveBars_resetHeld (n : SectionNo) : (s.deriveBars n).resetHeld = s.resetHeld := congrArg (·.2.2.2.2.2.2.2.2.2.2.2.1) (State.deriveBars_frame s n)
@[simp] theorem State.deriveBars_verification (n : SectionNo) : (s.deriveBars n).verification = s.verification := congrArg (·.2.2.2.2.2.2.2.2.2.2.2.2.1) (State.deriveBars_frame s n)
@[simp] theorem State.deriveBars_agenda (n : SectionNo) : (s.deriveBars n).agenda = s.agenda := congrArg (·.2.2.2.2.2.2.2.2.2.2.2.2.2.1) (State.deriveBars_frame s n)
@[simp] theorem State.deriveBars_pending (n : SectionNo) : (s.deriveBars n).pending = s.pending := congrArg (·.2.2.2.2.2.2.2.2.2.2.2.2.2.2) (State.deriveBars_frame s n)

theorem State.deriveAllBars_frame :
    (fun t : State => (t.mi, t.engines, t.seqs, t.backupLatch, t.rect, t.ht, t.linkA, t.linkB, t.au, t.store, t.sp, t.resetHeld, t.verification, t.agenda, t.pending)) (s.deriveAllBars) =
    (fun t : State => (t.mi, t.engines, t.seqs, t.backupLatch, t.rect, t.ht, t.linkA, t.linkB, t.au, t.store, t.sp, t.resetHeld, t.verification, t.agenda, t.pending)) s := by
  unfold State.deriveAllBars
  refine forEach_same (fun t : State => (t.mi, t.engines, t.seqs, t.backupLatch, t.rect, t.ht, t.linkA, t.linkB, t.au, t.store, t.sp, t.resetHeld, t.verification, t.agenda, t.pending)) _ _ s fun _ _ => by first | simp | rfl
@[simp] theorem State.deriveAllBars_mi : (s.deriveAllBars).mi = s.mi := congrArg (·.1) (State.deriveAllBars_frame s)
@[simp] theorem State.deriveAllBars_engines : (s.deriveAllBars).engines = s.engines := congrArg (·.2.1) (State.deriveAllBars_frame s)
@[simp] theorem State.deriveAllBars_seqs : (s.deriveAllBars).seqs = s.seqs := congrArg (·.2.2.1) (State.deriveAllBars_frame s)
@[simp] theorem State.deriveAllBars_backupLatch : (s.deriveAllBars).backupLatch = s.backupLatch := congrArg (·.2.2.2.1) (State.deriveAllBars_frame s)
@[simp] theorem State.deriveAllBars_rect : (s.deriveAllBars).rect = s.rect := congrArg (·.2.2.2.2.1) (State.deriveAllBars_frame s)
@[simp] theorem State.deriveAllBars_ht : (s.deriveAllBars).ht = s.ht := congrArg (·.2.2.2.2.2.1) (State.deriveAllBars_frame s)
@[simp] theorem State.deriveAllBars_linkA : (s.deriveAllBars).linkA = s.linkA := congrArg (·.2.2.2.2.2.2.1) (State.deriveAllBars_frame s)
@[simp] theorem State.deriveAllBars_linkB : (s.deriveAllBars).linkB = s.linkB := congrArg (·.2.2.2.2.2.2.2.1) (State.deriveAllBars_frame s)
@[simp] theorem State.deriveAllBars_au : (s.deriveAllBars).au = s.au := congrArg (·.2.2.2.2.2.2.2.2.1) (State.deriveAllBars_frame s)
@[simp] theorem State.deriveAllBars_store : (s.deriveAllBars).store = s.store := congrArg (·.2.2.2.2.2.2.2.2.2.1) (State.deriveAllBars_frame s)
@[simp] theorem State.deriveAllBars_sp : (s.deriveAllBars).sp = s.sp := congrArg (·.2.2.2.2.2.2.2.2.2.2.1) (State.deriveAllBars_frame s)
@[simp] theorem State.deriveAllBars_resetHeld : (s.deriveAllBars).resetHeld = s.resetHeld := congrArg (·.2.2.2.2.2.2.2.2.2.2.2.1) (State.deriveAllBars_frame s)
@[simp] theorem State.deriveAllBars_verification : (s.deriveAllBars).verification = s.verification := congrArg (·.2.2.2.2.2.2.2.2.2.2.2.2.1) (State.deriveAllBars_frame s)
@[simp] theorem State.deriveAllBars_agenda : (s.deriveAllBars).agenda = s.agenda := congrArg (·.2.2.2.2.2.2.2.2.2.2.2.2.2.1) (State.deriveAllBars_frame s)
@[simp] theorem State.deriveAllBars_pending : (s.deriveAllBars).pending = s.pending := congrArg (·.2.2.2.2.2.2.2.2.2.2.2.2.2.2) (State.deriveAllBars_frame s)

theorem State.deriveWanted_frame (k : FeederNo) :
    (fun t : State => (t.mi, t.seqs, t.backupLatch, t.rect, t.ht, t.linkA, t.linkB, t.au, t.store, t.sp, t.resetHeld, t.verification, t.pending)) (s.deriveWanted k) =
    (fun t : State => (t.mi, t.seqs, t.backupLatch, t.rect, t.ht, t.linkA, t.linkB, t.au, t.store, t.sp, t.resetHeld, t.verification, t.pending)) s := by
  unfold State.deriveWanted; try dsimp only
  repeat' split
  all_goals first | with_reducible rfl | simp | rfl
@[simp] theorem State.deriveWanted_mi (k : FeederNo) : (s.deriveWanted k).mi = s.mi := congrArg (·.1) (State.deriveWanted_frame s k)
@[simp] theorem State.deriveWanted_seqs (k : FeederNo) : (s.deriveWanted k).seqs = s.seqs := congrArg (·.2.1) (State.deriveWanted_frame s k)
@[simp] theorem State.deriveWanted_backupLatch (k : FeederNo) : (s.deriveWanted k).backupLatch = s.backupLatch := congrArg (·.2.2.1) (State.deriveWanted_frame s k)
@[simp] theorem State.deriveWanted_rect (k : FeederNo) : (s.deriveWanted k).rect = s.rect := congrArg (·.2.2.2.1) (State.deriveWanted_frame s k)
@[simp] theorem State.deriveWanted_ht (k : FeederNo) : (s.deriveWanted k).ht = s.ht := congrArg (·.2.2.2.2.1) (State.deriveWanted_frame s k)
@[simp] theorem State.deriveWanted_linkA (k : FeederNo) : (s.deriveWanted k).linkA = s.linkA := congrArg (·.2.2.2.2.2.1) (State.deriveWanted_frame s k)
@[simp] theorem State.deriveWanted_linkB (k : FeederNo) : (s.deriveWanted k).linkB = s.linkB := congrArg (·.2.2.2.2.2.2.1) (State.deriveWanted_frame s k)
@[simp] theorem State.deriveWanted_au (k : FeederNo) : (s.deriveWanted k).au = s.au := congrArg (·.2.2.2.2.2.2.2.1) (State.deriveWanted_frame s k)
@[simp] theorem State.deriveWanted_store (k : FeederNo) : (s.deriveWanted k).store = s.store := congrArg (·.2.2.2.2.2.2.2.2.1) (State.deriveWanted_frame s k)
@[simp] theorem State.deriveWanted_sp (k : FeederNo) : (s.deriveWanted k).sp = s.sp := congrArg (·.2.2.2.2.2.2.2.2.2.1) (State.deriveWanted_frame s k)
@[simp] theorem State.deriveWanted_resetHeld (k : FeederNo) : (s.deriveWanted k).resetHeld = s.resetHeld := congrArg (·.2.2.2.2.2.2.2.2.2.2.1) (State.deriveWanted_frame s k)
@[simp] theorem State.deriveWanted_verification (k : FeederNo) : (s.deriveWanted k).verification = s.verification := congrArg (·.2.2.2.2.2.2.2.2.2.2.2.1) (State.deriveWanted_frame s k)
@[simp] theorem State.deriveWanted_pending (k : FeederNo) : (s.deriveWanted k).pending = s.pending := congrArg (·.2.2.2.2.2.2.2.2.2.2.2.2) (State.deriveWanted_frame s k)

theorem State.commandEarth_frame (k : FeederNo) (c : Bool) :
    (fun t : State => (t.mi, t.engines, t.seqs, t.backupLatch, t.rect, t.ht, t.linkA, t.linkB, t.au, t.store, t.sp, t.resetHeld, t.verification, t.pending)) (s.commandEarth k c) =
    (fun t : State => (t.mi, t.engines, t.seqs, t.backupLatch, t.rect, t.ht, t.linkA, t.linkB, t.au, t.store, t.sp, t.resetHeld, t.verification, t.pending)) s := by
  unfold State.commandEarth; try dsimp only
  repeat' split
  all_goals first | with_reducible rfl | simp | rfl
@[simp] theorem State.commandEarth_mi (k : FeederNo) (c : Bool) : (s.commandEarth k c).mi = s.mi := congrArg (·.1) (State.commandEarth_frame s k c)
@[simp] theorem State.commandEarth_engines (k : FeederNo) (c : Bool) : (s.commandEarth k c).engines = s.engines := congrArg (·.2.1) (State.commandEarth_frame s k c)
@[simp] theorem State.commandEarth_seqs (k : FeederNo) (c : Bool) : (s.commandEarth k c).seqs = s.seqs := congrArg (·.2.2.1) (State.commandEarth_frame s k c)
@[simp] theorem State.commandEarth_backupLatch (k : FeederNo) (c : Bool) : (s.commandEarth k c).backupLatch = s.backupLatch := congrArg (·.2.2.2.1) (State.commandEarth_frame s k c)
@[simp] theorem State.commandEarth_rect (k : FeederNo) (c : Bool) : (s.commandEarth k c).rect = s.rect := congrArg (·.2.2.2.2.1) (State.commandEarth_frame s k c)
@[simp] theorem State.commandEarth_ht (k : FeederNo) (c : Bool) : (s.commandEarth k c).ht = s.ht := congrArg (·.2.2.2.2.2.1) (State.commandEarth_frame s k c)
@[simp] theorem State.commandEarth_linkA (k : FeederNo) (c : Bool) : (s.commandEarth k c).linkA = s.linkA := congrArg (·.2.2.2.2.2.2.1) (State.commandEarth_frame s k c)
@[simp] theorem State.commandEarth_linkB (k : FeederNo) (c : Bool) : (s.commandEarth k c).linkB = s.linkB := congrArg (·.2.2.2.2.2.2.2.1) (State.commandEarth_frame s k c)
@[simp] theorem State.commandEarth_au (k : FeederNo) (c : Bool) : (s.commandEarth k c).au = s.au := congrArg (·.2.2.2.2.2.2.2.2.1) (State.commandEarth_frame s k c)
@[simp] theorem State.commandEarth_store (k : FeederNo) (c : Bool) : (s.commandEarth k c).store = s.store := congrArg (·.2.2.2.2.2.2.2.2.2.1) (State.commandEarth_frame s k c)
@[simp] theorem State.commandEarth_sp (k : FeederNo) (c : Bool) : (s.commandEarth k c).sp = s.sp := congrArg (·.2.2.2.2.2.2.2.2.2.2.1) (State.commandEarth_frame s k c)
@[simp] theorem State.commandEarth_resetHeld (k : FeederNo) (c : Bool) : (s.commandEarth k c).resetHeld = s.resetHeld := congrArg (·.2.2.2.2.2.2.2.2.2.2.2.1) (State.commandEarth_frame s k c)
@[simp] theorem State.commandEarth_verification (k : FeederNo) (c : Bool) : (s.commandEarth k c).verification = s.verification := congrArg (·.2.2.2.2.2.2.2.2.2.2.2.2.1) (State.commandEarth_frame s k c)
@[simp] theorem State.commandEarth_pending (k : FeederNo) (c : Bool) : (s.commandEarth k c).pending = s.pending := congrArg (·.2.2.2.2.2.2.2.2.2.2.2.2.2) (State.commandEarth_frame s k c)

theorem State.countChanged_frame (n : SectionNo) :
    (fun t : State => (t.mi, t.engines, t.seqs, t.backupLatch, t.rect, t.ht, t.linkA, t.linkB, t.au, t.store, t.sp, t.resetHeld, t.verification, t.pending)) (s.countChanged n) =
    (fun t : State => (t.mi, t.engines, t.seqs, t.backupLatch, t.rect, t.ht, t.linkA, t.linkB, t.au, t.store, t.sp, t.resetHeld, t.verification, t.pending)) s := by
  unfold State.countChanged; try dsimp only
  repeat' split
  all_goals first | with_reducible rfl | simp | rfl
@[simp] theorem State.countChanged_mi (n : SectionNo) : (s.countChanged n).mi = s.mi := congrArg (·.1) (State.countChanged_frame s n)
@[simp] theorem State.countChanged_engines (n : SectionNo) : (s.countChanged n).engines = s.engines := congrArg (·.2.1) (State.countChanged_frame s n)
@[simp] theorem State.countChanged_seqs (n : SectionNo) : (s.countChanged n).seqs = s.seqs := congrArg (·.2.2.1) (State.countChanged_frame s n)
@[simp] theorem State.countChanged_backupLatch (n : SectionNo) : (s.countChanged n).backupLatch = s.backupLatch := congrArg (·.2.2.2.1) (State.countChanged_frame s n)
@[simp] theorem State.countChanged_rect (n : SectionNo) : (s.countChanged n).rect = s.rect := congrArg (·.2.2.2.2.1) (State.countChanged_frame s n)
@[simp] theorem State.countChanged_ht (n : SectionNo) : (s.countChanged n).ht = s.ht := congrArg (·.2.2.2.2.2.1) (State.countChanged_frame s n)
@[simp] theorem State.countChanged_linkA (n : SectionNo) : (s.countChanged n).linkA = s.linkA := congrArg (·.2.2.2.2.2.2.1) (State.countChanged_frame s n)
@[simp] theorem State.countChanged_linkB (n : SectionNo) : (s.countChanged n).linkB = s.linkB := congrArg (·.2.2.2.2.2.2.2.1) (State.countChanged_frame s n)
@[simp] theorem State.countChanged_au (n : SectionNo) : (s.countChanged n).au = s.au := congrArg (·.2.2.2.2.2.2.2.2.1) (State.countChanged_frame s n)
@[simp] theorem State.countChanged_store (n : SectionNo) : (s.countChanged n).store = s.store := congrArg (·.2.2.2.2.2.2.2.2.2.1) (State.countChanged_frame s n)
@[simp] theorem State.countChanged_sp (n : SectionNo) : (s.countChanged n).sp = s.sp := congrArg (·.2.2.2.2.2.2.2.2.2.2.1) (State.countChanged_frame s n)
@[simp] theorem State.countChanged_resetHeld (n : SectionNo) : (s.countChanged n).resetHeld = s.resetHeld := congrArg (·.2.2.2.2.2.2.2.2.2.2.2.1) (State.countChanged_frame s n)
@[simp] theorem State.countChanged_verification (n : SectionNo) : (s.countChanged n).verification = s.verification := congrArg (·.2.2.2.2.2.2.2.2.2.2.2.2.1) (State.countChanged_frame s n)
@[simp] theorem State.countChanged_pending (n : SectionNo) : (s.countChanged n).pending = s.pending := congrArg (·.2.2.2.2.2.2.2.2.2.2.2.2.2) (State.countChanged_frame s n)

theorem State.raiseIsolate_frame (n : SectionNo) :
    (fun t : State => (t.mi, t.engines, t.seqs, t.backupLatch, t.rect, t.ht, t.linkA, t.linkB, t.au, t.store, t.sp, t.resetHeld, t.verification, t.pending)) (s.raiseIsolate n) =
    (fun t : State => (t.mi, t.engines, t.seqs, t.backupLatch, t.rect, t.ht, t.linkA, t.linkB, t.au, t.store, t.sp, t.resetHeld, t.verification, t.pending)) s := by
  unfold State.raiseIsolate; try dsimp only
  repeat' split
  all_goals first | with_reducible rfl | simp | rfl
@[simp] theorem State.raiseIsolate_mi (n : SectionNo) : (s.raiseIsolate n).mi = s.mi := congrArg (·.1) (State.raiseIsolate_frame s n)
@[simp] theorem State.raiseIsolate_engines (n : SectionNo) : (s.raiseIsolate n).engines = s.engines := congrArg (·.2.1) (State.raiseIsolate_frame s n)
@[simp] theorem State.raiseIsolate_seqs (n : SectionNo) : (s.raiseIsolate n).seqs = s.seqs := congrArg (·.2.2.1) (State.raiseIsolate_frame s n)
@[simp] theorem State.raiseIsolate_backupLatch (n : SectionNo) : (s.raiseIsolate n).backupLatch = s.backupLatch := congrArg (·.2.2.2.1) (State.raiseIsolate_frame s n)
@[simp] theorem State.raiseIsolate_rect (n : SectionNo) : (s.raiseIsolate n).rect = s.rect := congrArg (·.2.2.2.2.1) (State.raiseIsolate_frame s n)
@[simp] theorem State.raiseIsolate_ht (n : SectionNo) : (s.raiseIsolate n).ht = s.ht := congrArg (·.2.2.2.2.2.1) (State.raiseIsolate_frame s n)
@[simp] theorem State.raiseIsolate_linkA (n : SectionNo) : (s.raiseIsolate n).linkA = s.linkA := congrArg (·.2.2.2.2.2.2.1) (State.raiseIsolate_frame s n)
@[simp] theorem State.raiseIsolate_linkB (n : SectionNo) : (s.raiseIsolate n).linkB = s.linkB := congrArg (·.2.2.2.2.2.2.2.1) (State.raiseIsolate_frame s n)
@[simp] theorem State.raiseIsolate_au (n : SectionNo) : (s.raiseIsolate n).au = s.au := congrArg (·.2.2.2.2.2.2.2.2.1) (State.raiseIsolate_frame s n)
@[simp] theorem State.raiseIsolate_store (n : SectionNo) : (s.raiseIsolate n).store = s.store := congrArg (·.2.2.2.2.2.2.2.2.2.1) (State.raiseIsolate_frame s n)
@[simp] theorem State.raiseIsolate_sp (n : SectionNo) : (s.raiseIsolate n).sp = s.sp := congrArg (·.2.2.2.2.2.2.2.2.2.2.1) (State.raiseIsolate_frame s n)
@[simp] theorem State.raiseIsolate_resetHeld (n : SectionNo) : (s.raiseIsolate n).resetHeld = s.resetHeld := congrArg (·.2.2.2.2.2.2.2.2.2.2.2.1) (State.raiseIsolate_frame s n)
@[simp] theorem State.raiseIsolate_verification (n : SectionNo) : (s.raiseIsolate n).verification = s.verification := congrArg (·.2.2.2.2.2.2.2.2.2.2.2.2.1) (State.raiseIsolate_frame s n)
@[simp] theorem State.raiseIsolate_pending (n : SectionNo) : (s.raiseIsolate n).pending = s.pending := congrArg (·.2.2.2.2.2.2.2.2.2.2.2.2.2) (State.raiseIsolate_frame s n)

theorem State.lowerIsolate_frame (n : SectionNo) :
    (fun t : State => (t.mi, t.engines, t.seqs, t.backupLatch, t.rect, t.ht, t.linkA, t.linkB, t.au, t.store, t.sp, t.resetHeld, t.verification, t.pending)) (s.lowerIsolate n) =
    (fun t : State => (t.mi, t.engines, t.seqs, t.backupLatch, t.rect, t.ht, t.linkA, t.linkB, t.au, t.store, t.sp, t.resetHeld, t.verification, t.pending)) s := by
  unfold State.lowerIsolate; try dsimp only
  repeat' split
  all_goals first | with_reducible rfl | simp | rfl
@[simp] theorem State.lowerIsolate_mi (n : SectionNo) : (s.lowerIsolate n).mi = s.mi := congrArg (·.1) (State.lowerIsolate_frame s n)
@[simp] theorem State.lowerIsolate_engines (n : SectionNo) : (s.lowerIsolate n).engines = s.engines := congrArg (·.2.1) (State.lowerIsolate_frame s n)
@[simp] theorem State.lowerIsolate_seqs (n : SectionNo) : (s.lowerIsolate n).seqs = s.seqs := congrArg (·.2.2.1) (State.lowerIsolate_frame s n)
@[simp] theorem State.lowerIsolate_backupLatch (n : SectionNo) : (s.lowerIsolate n).backupLatch = s.backupLatch := congrArg (·.2.2.2.1) (State.lowerIsolate_frame s n)
@[simp] theorem State.lowerIsolate_rect (n : SectionNo) : (s.lowerIsolate n).rect = s.rect := congrArg (·.2.2.2.2.1) (State.lowerIsolate_frame s n)
@[simp] theorem State.lowerIsolate_ht (n : SectionNo) : (s.lowerIsolate n).ht = s.ht := congrArg (·.2.2.2.2.2.1) (State.lowerIsolate_frame s n)
@[simp] theorem State.lowerIsolate_linkA (n : SectionNo) : (s.lowerIsolate n).linkA = s.linkA := congrArg (·.2.2.2.2.2.2.1) (State.lowerIsolate_frame s n)
@[simp] theorem State.lowerIsolate_linkB (n : SectionNo) : (s.lowerIsolate n).linkB = s.linkB := congrArg (·.2.2.2.2.2.2.2.1) (State.lowerIsolate_frame s n)
@[simp] theorem State.lowerIsolate_au (n : SectionNo) : (s.lowerIsolate n).au = s.au := congrArg (·.2.2.2.2.2.2.2.2.1) (State.lowerIsolate_frame s n)
@[simp] theorem State.lowerIsolate_store (n : SectionNo) : (s.lowerIsolate n).store = s.store := congrArg (·.2.2.2.2.2.2.2.2.2.1) (State.lowerIsolate_frame s n)
@[simp] theorem State.lowerIsolate_sp (n : SectionNo) : (s.lowerIsolate n).sp = s.sp := congrArg (·.2.2.2.2.2.2.2.2.2.2.1) (State.lowerIsolate_frame s n)
@[simp] theorem State.lowerIsolate_resetHeld (n : SectionNo) : (s.lowerIsolate n).resetHeld = s.resetHeld := congrArg (·.2.2.2.2.2.2.2.2.2.2.2.1) (State.lowerIsolate_frame s n)
@[simp] theorem State.lowerIsolate_verification (n : SectionNo) : (s.lowerIsolate n).verification = s.verification := congrArg (·.2.2.2.2.2.2.2.2.2.2.2.2.1) (State.lowerIsolate_frame s n)
@[simp] theorem State.lowerIsolate_pending (n : SectionNo) : (s.lowerIsolate n).pending = s.pending := congrArg (·.2.2.2.2.2.2.2.2.2.2.2.2.2) (State.lowerIsolate_frame s n)

theorem State.raiseEarth_frame (n : SectionNo) :
    (fun t : State => (t.mi, t.engines, t.seqs, t.backupLatch, t.rect, t.ht, t.linkA, t.linkB, t.au, t.store, t.sp, t.resetHeld, t.verification, t.pending)) (s.raiseEarth n) =
    (fun t : State => (t.mi, t.engines, t.seqs, t.backupLatch, t.rect, t.ht, t.linkA, t.linkB, t.au, t.store, t.sp, t.resetHeld, t.verification, t.pending)) s := by
  unfold State.raiseEarth; try dsimp only
  repeat' split
  all_goals first | with_reducible rfl | simp | rfl
@[simp] theorem State.raiseEarth_mi (n : SectionNo) : (s.raiseEarth n).mi = s.mi := congrArg (·.1) (State.raiseEarth_frame s n)
@[simp] theorem State.raiseEarth_engines (n : SectionNo) : (s.raiseEarth n).engines = s.engines := congrArg (·.2.1) (State.raiseEarth_frame s n)
@[simp] theorem State.raiseEarth_seqs (n : SectionNo) : (s.raiseEarth n).seqs = s.seqs := congrArg (·.2.2.1) (State.raiseEarth_frame s n)
@[simp] theorem State.raiseEarth_backupLatch (n : SectionNo) : (s.raiseEarth n).backupLatch = s.backupLatch := congrArg (·.2.2.2.1) (State.raiseEarth_frame s n)
@[simp] theorem State.raiseEarth_rect (n : SectionNo) : (s.raiseEarth n).rect = s.rect := congrArg (·.2.2.2.2.1) (State.raiseEarth_frame s n)
@[simp] theorem State.raiseEarth_ht (n : SectionNo) : (s.raiseEarth n).ht = s.ht := congrArg (·.2.2.2.2.2.1) (State.raiseEarth_frame s n)
@[simp] theorem State.raiseEarth_linkA (n : SectionNo) : (s.raiseEarth n).linkA = s.linkA := congrArg (·.2.2.2.2.2.2.1) (State.raiseEarth_frame s n)
@[simp] theorem State.raiseEarth_linkB (n : SectionNo) : (s.raiseEarth n).linkB = s.linkB := congrArg (·.2.2.2.2.2.2.2.1) (State.raiseEarth_frame s n)
@[simp] theorem State.raiseEarth_au (n : SectionNo) : (s.raiseEarth n).au = s.au := congrArg (·.2.2.2.2.2.2.2.2.1) (State.raiseEarth_frame s n)
@[simp] theorem State.raiseEarth_store (n : SectionNo) : (s.raiseEarth n).store = s.store := congrArg (·.2.2.2.2.2.2.2.2.2.1) (State.raiseEarth_frame s n)
@[simp] theorem State.raiseEarth_sp (n : SectionNo) : (s.raiseEarth n).sp = s.sp := congrArg (·.2.2.2.2.2.2.2.2.2.2.1) (State.raiseEarth_frame s n)
@[simp] theorem State.raiseEarth_resetHeld (n : SectionNo) : (s.raiseEarth n).resetHeld = s.resetHeld := congrArg (·.2.2.2.2.2.2.2.2.2.2.2.1) (State.raiseEarth_frame s n)
@[simp] theorem State.raiseEarth_verification (n : SectionNo) : (s.raiseEarth n).verification = s.verification := congrArg (·.2.2.2.2.2.2.2.2.2.2.2.2.1) (State.raiseEarth_frame s n)
@[simp] theorem State.raiseEarth_pending (n : SectionNo) : (s.raiseEarth n).pending = s.pending := congrArg (·.2.2.2.2.2.2.2.2.2.2.2.2.2) (State.raiseEarth_frame s n)

theorem State.lowerEarth_frame (n : SectionNo) :
    (fun t : State => (t.mi, t.engines, t.seqs, t.backupLatch, t.rect, t.ht, t.linkA, t.linkB, t.au, t.store, t.sp, t.resetHeld, t.verification, t.pending)) (s.lowerEarth n) =
    (fun t : State => (t.mi, t.engines, t.seqs, t.backupLatch, t.rect, t.ht, t.linkA, t.linkB, t.au, t.store, t.sp, t.resetHeld, t.verification, t.pending)) s := by
  unfold State.lowerEarth; try dsimp only
  repeat' split
  all_goals first | with_reducible rfl | simp | rfl
@[simp] theorem State.lowerEarth_mi (n : SectionNo) : (s.lowerEarth n).mi = s.mi := congrArg (·.1) (State.lowerEarth_frame s n)
@[simp] theorem State.lowerEarth_engines (n : SectionNo) : (s.lowerEarth n).engines = s.engines := congrArg (·.2.1) (State.lowerEarth_frame s n)
@[simp] theorem State.lowerEarth_seqs (n : SectionNo) : (s.lowerEarth n).seqs = s.seqs := congrArg (·.2.2.1) (State.lowerEarth_frame s n)
@[simp] theorem State.lowerEarth_backupLatch (n : SectionNo) : (s.lowerEarth n).backupLatch = s.backupLatch := congrArg (·.2.2.2.1) (State.lowerEarth_frame s n)
@[simp] theorem State.lowerEarth_rect (n : SectionNo) : (s.lowerEarth n).rect = s.rect := congrArg (·.2.2.2.2.1) (State.lowerEarth_frame s n)
@[simp] theorem State.lowerEarth_ht (n : SectionNo) : (s.lowerEarth n).ht = s.ht := congrArg (·.2.2.2.2.2.1) (State.lowerEarth_frame s n)
@[simp] theorem State.lowerEarth_linkA (n : SectionNo) : (s.lowerEarth n).linkA = s.linkA := congrArg (·.2.2.2.2.2.2.1) (State.lowerEarth_frame s n)
@[simp] theorem State.lowerEarth_linkB (n : SectionNo) : (s.lowerEarth n).linkB = s.linkB := congrArg (·.2.2.2.2.2.2.2.1) (State.lowerEarth_frame s n)
@[simp] theorem State.lowerEarth_au (n : SectionNo) : (s.lowerEarth n).au = s.au := congrArg (·.2.2.2.2.2.2.2.2.1) (State.lowerEarth_frame s n)
@[simp] theorem State.lowerEarth_store (n : SectionNo) : (s.lowerEarth n).store = s.store := congrArg (·.2.2.2.2.2.2.2.2.2.1) (State.lowerEarth_frame s n)
@[simp] theorem State.lowerEarth_sp (n : SectionNo) : (s.lowerEarth n).sp = s.sp := congrArg (·.2.2.2.2.2.2.2.2.2.2.1) (State.lowerEarth_frame s n)
@[simp] theorem State.lowerEarth_resetHeld (n : SectionNo) : (s.lowerEarth n).resetHeld = s.resetHeld := congrArg (·.2.2.2.2.2.2.2.2.2.2.2.1) (State.lowerEarth_frame s n)
@[simp] theorem State.lowerEarth_verification (n : SectionNo) : (s.lowerEarth n).verification = s.verification := congrArg (·.2.2.2.2.2.2.2.2.2.2.2.2.1) (State.lowerEarth_frame s n)
@[simp] theorem State.lowerEarth_pending (n : SectionNo) : (s.lowerEarth n).pending = s.pending := congrArg (·.2.2.2.2.2.2.2.2.2.2.2.2.2) (State.lowerEarth_frame s n)

theorem State.raiseNoreclose_frame (n : SectionNo) :
    (fun t : State => (t.mi, t.engines, t.seqs, t.backupLatch, t.rect, t.ht, t.linkA, t.linkB, t.au, t.store, t.sp, t.resetHeld, t.verification, t.pending)) (s.raiseNoreclose n) =
    (fun t : State => (t.mi, t.engines, t.seqs, t.backupLatch, t.rect, t.ht, t.linkA, t.linkB, t.au, t.store, t.sp, t.resetHeld, t.verification, t.pending)) s := by
  unfold State.raiseNoreclose; try dsimp only
  repeat' split
  all_goals first | with_reducible rfl | simp | rfl
@[simp] theorem State.raiseNoreclose_mi (n : SectionNo) : (s.raiseNoreclose n).mi = s.mi := congrArg (·.1) (State.raiseNoreclose_frame s n)
@[simp] theorem State.raiseNoreclose_engines (n : SectionNo) : (s.raiseNoreclose n).engines = s.engines := congrArg (·.2.1) (State.raiseNoreclose_frame s n)
@[simp] theorem State.raiseNoreclose_seqs (n : SectionNo) : (s.raiseNoreclose n).seqs = s.seqs := congrArg (·.2.2.1) (State.raiseNoreclose_frame s n)
@[simp] theorem State.raiseNoreclose_backupLatch (n : SectionNo) : (s.raiseNoreclose n).backupLatch = s.backupLatch := congrArg (·.2.2.2.1) (State.raiseNoreclose_frame s n)
@[simp] theorem State.raiseNoreclose_rect (n : SectionNo) : (s.raiseNoreclose n).rect = s.rect := congrArg (·.2.2.2.2.1) (State.raiseNoreclose_frame s n)
@[simp] theorem State.raiseNoreclose_ht (n : SectionNo) : (s.raiseNoreclose n).ht = s.ht := congrArg (·.2.2.2.2.2.1) (State.raiseNoreclose_frame s n)
@[simp] theorem State.raiseNoreclose_linkA (n : SectionNo) : (s.raiseNoreclose n).linkA = s.linkA := congrArg (·.2.2.2.2.2.2.1) (State.raiseNoreclose_frame s n)
@[simp] theorem State.raiseNoreclose_linkB (n : SectionNo) : (s.raiseNoreclose n).linkB = s.linkB := congrArg (·.2.2.2.2.2.2.2.1) (State.raiseNoreclose_frame s n)
@[simp] theorem State.raiseNoreclose_au (n : SectionNo) : (s.raiseNoreclose n).au = s.au := congrArg (·.2.2.2.2.2.2.2.2.1) (State.raiseNoreclose_frame s n)
@[simp] theorem State.raiseNoreclose_store (n : SectionNo) : (s.raiseNoreclose n).store = s.store := congrArg (·.2.2.2.2.2.2.2.2.2.1) (State.raiseNoreclose_frame s n)
@[simp] theorem State.raiseNoreclose_sp (n : SectionNo) : (s.raiseNoreclose n).sp = s.sp := congrArg (·.2.2.2.2.2.2.2.2.2.2.1) (State.raiseNoreclose_frame s n)
@[simp] theorem State.raiseNoreclose_resetHeld (n : SectionNo) : (s.raiseNoreclose n).resetHeld = s.resetHeld := congrArg (·.2.2.2.2.2.2.2.2.2.2.2.1) (State.raiseNoreclose_frame s n)
@[simp] theorem State.raiseNoreclose_verification (n : SectionNo) : (s.raiseNoreclose n).verification = s.verification := congrArg (·.2.2.2.2.2.2.2.2.2.2.2.2.1) (State.raiseNoreclose_frame s n)
@[simp] theorem State.raiseNoreclose_pending (n : SectionNo) : (s.raiseNoreclose n).pending = s.pending := congrArg (·.2.2.2.2.2.2.2.2.2.2.2.2.2) (State.raiseNoreclose_frame s n)

theorem State.lowerNoreclose_frame (n : SectionNo) :
    (fun t : State => (t.mi, t.engines, t.seqs, t.backupLatch, t.rect, t.ht, t.linkA, t.linkB, t.au, t.store, t.sp, t.resetHeld, t.verification, t.pending)) (s.lowerNoreclose n) =
    (fun t : State => (t.mi, t.engines, t.seqs, t.backupLatch, t.rect, t.ht, t.linkA, t.linkB, t.au, t.store, t.sp, t.resetHeld, t.verification, t.pending)) s := by
  unfold State.lowerNoreclose; try dsimp only
  repeat' split
  all_goals first | with_reducible rfl | simp | rfl
@[simp] theorem State.lowerNoreclose_mi (n : SectionNo) : (s.lowerNoreclose n).mi = s.mi := congrArg (·.1) (State.lowerNoreclose_frame s n)
@[simp] theorem State.lowerNoreclose_engines (n : SectionNo) : (s.lowerNoreclose n).engines = s.engines := congrArg (·.2.1) (State.lowerNoreclose_frame s n)
@[simp] theorem State.lowerNoreclose_seqs (n : SectionNo) : (s.lowerNoreclose n).seqs = s.seqs := congrArg (·.2.2.1) (State.lowerNoreclose_frame s n)
@[simp] theorem State.lowerNoreclose_backupLatch (n : SectionNo) : (s.lowerNoreclose n).backupLatch = s.backupLatch := congrArg (·.2.2.2.1) (State.lowerNoreclose_frame s n)
@[simp] theorem State.lowerNoreclose_rect (n : SectionNo) : (s.lowerNoreclose n).rect = s.rect := congrArg (·.2.2.2.2.1) (State.lowerNoreclose_frame s n)
@[simp] theorem State.lowerNoreclose_ht (n : SectionNo) : (s.lowerNoreclose n).ht = s.ht := congrArg (·.2.2.2.2.2.1) (State.lowerNoreclose_frame s n)
@[simp] theorem State.lowerNoreclose_linkA (n : SectionNo) : (s.lowerNoreclose n).linkA = s.linkA := congrArg (·.2.2.2.2.2.2.1) (State.lowerNoreclose_frame s n)
@[simp] theorem State.lowerNoreclose_linkB (n : SectionNo) : (s.lowerNoreclose n).linkB = s.linkB := congrArg (·.2.2.2.2.2.2.2.1) (State.lowerNoreclose_frame s n)
@[simp] theorem State.lowerNoreclose_au (n : SectionNo) : (s.lowerNoreclose n).au = s.au := congrArg (·.2.2.2.2.2.2.2.2.1) (State.lowerNoreclose_frame s n)
@[simp] theorem State.lowerNoreclose_store (n : SectionNo) : (s.lowerNoreclose n).store = s.store := congrArg (·.2.2.2.2.2.2.2.2.2.1) (State.lowerNoreclose_frame s n)
@[simp] theorem State.lowerNoreclose_sp (n : SectionNo) : (s.lowerNoreclose n).sp = s.sp := congrArg (·.2.2.2.2.2.2.2.2.2.2.1) (State.lowerNoreclose_frame s n)
@[simp] theorem State.lowerNoreclose_resetHeld (n : SectionNo) : (s.lowerNoreclose n).resetHeld = s.resetHeld := congrArg (·.2.2.2.2.2.2.2.2.2.2.2.1) (State.lowerNoreclose_frame s n)
@[simp] theorem State.lowerNoreclose_verification (n : SectionNo) : (s.lowerNoreclose n).verification = s.verification := congrArg (·.2.2.2.2.2.2.2.2.2.2.2.2.1) (State.lowerNoreclose_frame s n)
@[simp] theorem State.lowerNoreclose_pending (n : SectionNo) : (s.lowerNoreclose n).pending = s.pending := congrArg (·.2.2.2.2.2.2.2.2.2.2.2.2.2) (State.lowerNoreclose_frame s n)

theorem State.raiseCounts_frame (kind : HoldKind) (n : SectionNo) :
    (fun t : State => (t.mi, t.engines, t.seqs, t.backupLatch, t.rect, t.ht, t.linkA, t.linkB, t.au, t.store, t.sp, t.resetHeld, t.verification, t.pending)) (s.raiseCounts kind n) =
    (fun t : State => (t.mi, t.engines, t.seqs, t.backupLatch, t.rect, t.ht, t.linkA, t.linkB, t.au, t.store, t.sp, t.resetHeld, t.verification, t.pending)) s := by
  cases kind <;> simp [State.raiseCounts]
@[simp] theorem State.raiseCounts_mi (kind : HoldKind) (n : SectionNo) : (s.raiseCounts kind n).mi = s.mi := congrArg (·.1) (State.raiseCounts_frame s kind n)
@[simp] theorem State.raiseCounts_engines (kind : HoldKind) (n : SectionNo) : (s.raiseCounts kind n).engines = s.engines := congrArg (·.2.1) (State.raiseCounts_frame s kind n)
@[simp] theorem State.raiseCounts_seqs (kind : HoldKind) (n : SectionNo) : (s.raiseCounts kind n).seqs = s.seqs := congrArg (·.2.2.1) (State.raiseCounts_frame s kind n)
@[simp] theorem State.raiseCounts_backupLatch (kind : HoldKind) (n : SectionNo) : (s.raiseCounts kind n).backupLatch = s.backupLatch := congrArg (·.2.2.2.1) (State.raiseCounts_frame s kind n)
@[simp] theorem State.raiseCounts_rect (kind : HoldKind) (n : SectionNo) : (s.raiseCounts kind n).rect = s.rect := congrArg (·.2.2.2.2.1) (State.raiseCounts_frame s kind n)
@[simp] theorem State.raiseCounts_ht (kind : HoldKind) (n : SectionNo) : (s.raiseCounts kind n).ht = s.ht := congrArg (·.2.2.2.2.2.1) (State.raiseCounts_frame s kind n)
@[simp] theorem State.raiseCounts_linkA (kind : HoldKind) (n : SectionNo) : (s.raiseCounts kind n).linkA = s.linkA := congrArg (·.2.2.2.2.2.2.1) (State.raiseCounts_frame s kind n)
@[simp] theorem State.raiseCounts_linkB (kind : HoldKind) (n : SectionNo) : (s.raiseCounts kind n).linkB = s.linkB := congrArg (·.2.2.2.2.2.2.2.1) (State.raiseCounts_frame s kind n)
@[simp] theorem State.raiseCounts_au (kind : HoldKind) (n : SectionNo) : (s.raiseCounts kind n).au = s.au := congrArg (·.2.2.2.2.2.2.2.2.1) (State.raiseCounts_frame s kind n)
@[simp] theorem State.raiseCounts_store (kind : HoldKind) (n : SectionNo) : (s.raiseCounts kind n).store = s.store := congrArg (·.2.2.2.2.2.2.2.2.2.1) (State.raiseCounts_frame s kind n)
@[simp] theorem State.raiseCounts_sp (kind : HoldKind) (n : SectionNo) : (s.raiseCounts kind n).sp = s.sp := congrArg (·.2.2.2.2.2.2.2.2.2.2.1) (State.raiseCounts_frame s kind n)
@[simp] theorem State.raiseCounts_resetHeld (kind : HoldKind) (n : SectionNo) : (s.raiseCounts kind n).resetHeld = s.resetHeld := congrArg (·.2.2.2.2.2.2.2.2.2.2.2.1) (State.raiseCounts_frame s kind n)
@[simp] theorem State.raiseCounts_verification (kind : HoldKind) (n : SectionNo) : (s.raiseCounts kind n).verification = s.verification := congrArg (·.2.2.2.2.2.2.2.2.2.2.2.2.1) (State.raiseCounts_frame s kind n)
@[simp] theorem State.raiseCounts_pending (kind : HoldKind) (n : SectionNo) : (s.raiseCounts kind n).pending = s.pending := congrArg (·.2.2.2.2.2.2.2.2.2.2.2.2.2) (State.raiseCounts_frame s kind n)

theorem State.lowerCounts_frame (kind : HoldKind) (n : SectionNo) :
    (fun t : State => (t.mi, t.engines, t.seqs, t.backupLatch, t.rect, t.ht, t.linkA, t.linkB, t.au, t.store, t.sp, t.resetHeld, t.verification, t.pending)) (s.lowerCounts kind n) =
    (fun t : State => (t.mi, t.engines, t.seqs, t.backupLatch, t.rect, t.ht, t.linkA, t.linkB, t.au, t.store, t.sp, t.resetHeld, t.verification, t.pending)) s := by
  cases kind <;> simp [State.lowerCounts]
@[simp] theorem State.lowerCounts_mi (kind : HoldKind) (n : SectionNo) : (s.lowerCounts kind n).mi = s.mi := congrArg (·.1) (State.lowerCounts_frame s kind n)
@[simp] theorem State.lowerCounts_engines (kind : HoldKind) (n : SectionNo) : (s.lowerCounts kind n).engines = s.engines := congrArg (·.2.1) (State.lowerCounts_frame s kind n)
@[simp] theorem State.lowerCounts_seqs (kind : HoldKind) (n : SectionNo) : (s.lowerCounts kind n).seqs = s.seqs := congrArg (·.2.2.1) (State.lowerCounts_frame s kind n)
@[simp] theorem State.lowerCounts_backupLatch (kind : HoldKind) (n : SectionNo) : (s.lowerCounts kind n).backupLatch = s.backupLatch := congrArg (·.2.2.2.1) (State.lowerCounts_frame s kind n)
@[simp] theorem State.lowerCounts_rect (kind : HoldKind) (n : SectionNo) : (s.lowerCounts kind n).rect = s.rect := congrArg (·.2.2.2.2.1) (State.lowerCounts_frame s kind n)
@[simp] theorem State.lowerCounts_ht (kind : HoldKind) (n : SectionNo) : (s.lowerCounts kind n).ht = s.ht := congrArg (·.2.2.2.2.2.1) (State.lowerCounts_frame s kind n)
@[simp] theorem State.lowerCounts_linkA (kind : HoldKind) (n : SectionNo) : (s.lowerCounts kind n).linkA = s.linkA := congrArg (·.2.2.2.2.2.2.1) (State.lowerCounts_frame s kind n)
@[simp] theorem State.lowerCounts_linkB (kind : HoldKind) (n : SectionNo) : (s.lowerCounts kind n).linkB = s.linkB := congrArg (·.2.2.2.2.2.2.2.1) (State.lowerCounts_frame s kind n)
@[simp] theorem State.lowerCounts_au (kind : HoldKind) (n : SectionNo) : (s.lowerCounts kind n).au = s.au := congrArg (·.2.2.2.2.2.2.2.2.1) (State.lowerCounts_frame s kind n)
@[simp] theorem State.lowerCounts_store (kind : HoldKind) (n : SectionNo) : (s.lowerCounts kind n).store = s.store := congrArg (·.2.2.2.2.2.2.2.2.2.1) (State.lowerCounts_frame s kind n)
@[simp] theorem State.lowerCounts_sp (kind : HoldKind) (n : SectionNo) : (s.lowerCounts kind n).sp = s.sp := congrArg (·.2.2.2.2.2.2.2.2.2.2.1) (State.lowerCounts_frame s kind n)
@[simp] theorem State.lowerCounts_resetHeld (kind : HoldKind) (n : SectionNo) : (s.lowerCounts kind n).resetHeld = s.resetHeld := congrArg (·.2.2.2.2.2.2.2.2.2.2.2.1) (State.lowerCounts_frame s kind n)
@[simp] theorem State.lowerCounts_verification (kind : HoldKind) (n : SectionNo) : (s.lowerCounts kind n).verification = s.verification := congrArg (·.2.2.2.2.2.2.2.2.2.2.2.2.1) (State.lowerCounts_frame s kind n)
@[simp] theorem State.lowerCounts_pending (kind : HoldKind) (n : SectionNo) : (s.lowerCounts kind n).pending = s.pending := congrArg (·.2.2.2.2.2.2.2.2.2.2.2.2.2) (State.lowerCounts_frame s kind n)

theorem State.raiseHold_frame (h : Hold) :
    (fun t : State => (t.mi, t.engines, t.seqs, t.backupLatch, t.rect, t.ht, t.linkA, t.linkB, t.au, t.store, t.sp, t.resetHeld, t.verification, t.pending)) (s.raiseHold h) =
    (fun t : State => (t.mi, t.engines, t.seqs, t.backupLatch, t.rect, t.ht, t.linkA, t.linkB, t.au, t.store, t.sp, t.resetHeld, t.verification, t.pending)) s := by
  unfold State.raiseHold
  refine forEach_same (fun t : State => (t.mi, t.engines, t.seqs, t.backupLatch, t.rect, t.ht, t.linkA, t.linkB, t.au, t.store, t.sp, t.resetHeld, t.verification, t.pending)) _ _ s fun _ _ => by first | simp | rfl
@[simp] theorem State.raiseHold_mi (h : Hold) : (s.raiseHold h).mi = s.mi := congrArg (·.1) (State.raiseHold_frame s h)
@[simp] theorem State.raiseHold_engines (h : Hold) : (s.raiseHold h).engines = s.engines := congrArg (·.2.1) (State.raiseHold_frame s h)
@[simp] theorem State.raiseHold_seqs (h : Hold) : (s.raiseHold h).seqs = s.seqs := congrArg (·.2.2.1) (State.raiseHold_frame s h)
@[simp] theorem State.raiseHold_backupLatch (h : Hold) : (s.raiseHold h).backupLatch = s.backupLatch := congrArg (·.2.2.2.1) (State.raiseHold_frame s h)
@[simp] theorem State.raiseHold_rect (h : Hold) : (s.raiseHold h).rect = s.rect := congrArg (·.2.2.2.2.1) (State.raiseHold_frame s h)
@[simp] theorem State.raiseHold_ht (h : Hold) : (s.raiseHold h).ht = s.ht := congrArg (·.2.2.2.2.2.1) (State.raiseHold_frame s h)
@[simp] theorem State.raiseHold_linkA (h : Hold) : (s.raiseHold h).linkA = s.linkA := congrArg (·.2.2.2.2.2.2.1) (State.raiseHold_frame s h)
@[simp] theorem State.raiseHold_linkB (h : Hold) : (s.raiseHold h).linkB = s.linkB := congrArg (·.2.2.2.2.2.2.2.1) (State.raiseHold_frame s h)
@[simp] theorem State.raiseHold_au (h : Hold) : (s.raiseHold h).au = s.au := congrArg (·.2.2.2.2.2.2.2.2.1) (State.raiseHold_frame s h)
@[simp] theorem State.raiseHold_store (h : Hold) : (s.raiseHold h).store = s.store := congrArg (·.2.2.2.2.2.2.2.2.2.1) (State.raiseHold_frame s h)
@[simp] theorem State.raiseHold_sp (h : Hold) : (s.raiseHold h).sp = s.sp := congrArg (·.2.2.2.2.2.2.2.2.2.2.1) (State.raiseHold_frame s h)
@[simp] theorem State.raiseHold_resetHeld (h : Hold) : (s.raiseHold h).resetHeld = s.resetHeld := congrArg (·.2.2.2.2.2.2.2.2.2.2.2.1) (State.raiseHold_frame s h)
@[simp] theorem State.raiseHold_verification (h : Hold) : (s.raiseHold h).verification = s.verification := congrArg (·.2.2.2.2.2.2.2.2.2.2.2.2.1) (State.raiseHold_frame s h)
@[simp] theorem State.raiseHold_pending (h : Hold) : (s.raiseHold h).pending = s.pending := congrArg (·.2.2.2.2.2.2.2.2.2.2.2.2.2) (State.raiseHold_frame s h)

theorem State.lowerHold_frame (h : Hold) :
    (fun t : State => (t.mi, t.engines, t.seqs, t.backupLatch, t.rect, t.ht, t.linkA, t.linkB, t.au, t.store, t.sp, t.resetHeld, t.verification, t.pending)) (s.lowerHold h) =
    (fun t : State => (t.mi, t.engines, t.seqs, t.backupLatch, t.rect, t.ht, t.linkA, t.linkB, t.au, t.store, t.sp, t.resetHeld, t.verification, t.pending)) s := by
  unfold State.lowerHold
  refine forEach_same (fun t : State => (t.mi, t.engines, t.seqs, t.backupLatch, t.rect, t.ht, t.linkA, t.linkB, t.au, t.store, t.sp, t.resetHeld, t.verification, t.pending)) _ _ s fun _ _ => by first | simp | rfl
@[simp] theorem State.lowerHold_mi (h : Hold) : (s.lowerHold h).mi = s.mi := congrArg (·.1) (State.lowerHold_frame s h)
@[simp] theorem State.lowerHold_engines (h : Hold) : (s.lowerHold h).engines = s.engines := congrArg (·.2.1) (State.lowerHold_frame s h)
@[simp] theorem State.lowerHold_seqs (h : Hold) : (s.lowerHold h).seqs = s.seqs := congrArg (·.2.2.1) (State.lowerHold_frame s h)
@[simp] theorem State.lowerHold_backupLatch (h : Hold) : (s.lowerHold h).backupLatch = s.backupLatch := congrArg (·.2.2.2.1) (State.lowerHold_frame s h)
@[simp] theorem State.lowerHold_rect (h : Hold) : (s.lowerHold h).rect = s.rect := congrArg (·.2.2.2.2.1) (State.lowerHold_frame s h)
@[simp] theorem State.lowerHold_ht (h : Hold) : (s.lowerHold h).ht = s.ht := congrArg (·.2.2.2.2.2.1) (State.lowerHold_frame s h)
@[simp] theorem State.lowerHold_linkA (h : Hold) : (s.lowerHold h).linkA = s.linkA := congrArg (·.2.2.2.2.2.2.1) (State.lowerHold_frame s h)
@[simp] theorem State.lowerHold_linkB (h : Hold) : (s.lowerHold h).linkB = s.linkB := congrArg (·.2.2.2.2.2.2.2.1) (State.lowerHold_frame s h)
@[simp] theorem State.lowerHold_au (h : Hold) : (s.lowerHold h).au = s.au := congrArg (·.2.2.2.2.2.2.2.2.1) (State.lowerHold_frame s h)
@[simp] theorem State.lowerHold_store (h : Hold) : (s.lowerHold h).store = s.store := congrArg (·.2.2.2.2.2.2.2.2.2.1) (State.lowerHold_frame s h)
@[simp] theorem State.lowerHold_sp (h : Hold) : (s.lowerHold h).sp = s.sp := congrArg (·.2.2.2.2.2.2.2.2.2.2.1) (State.lowerHold_frame s h)
@[simp] theorem State.lowerHold_resetHeld (h : Hold) : (s.lowerHold h).resetHeld = s.resetHeld := congrArg (·.2.2.2.2.2.2.2.2.2.2.2.1) (State.lowerHold_frame s h)
@[simp] theorem State.lowerHold_verification (h : Hold) : (s.lowerHold h).verification = s.verification := congrArg (·.2.2.2.2.2.2.2.2.2.2.2.2.1) (State.lowerHold_frame s h)
@[simp] theorem State.lowerHold_pending (h : Hold) : (s.lowerHold h).pending = s.pending := congrArg (·.2.2.2.2.2.2.2.2.2.2.2.2.2) (State.lowerHold_frame s h)

theorem State.rectEnter_frame (q : RectState) (f : Rectifier → Rectifier) :
    (fun t : State => (t.mi, t.engines, t.seqs, t.backupLatch, t.sections, t.ht, t.linkA, t.linkB, t.au, t.store, t.sp, t.resetHeld, t.verification, t.pending)) (s.rectEnter q f) =
    (fun t : State => (t.mi, t.engines, t.seqs, t.backupLatch, t.sections, t.ht, t.linkA, t.linkB, t.au, t.store, t.sp, t.resetHeld, t.verification, t.pending)) s := by
  unfold State.rectEnter; try dsimp only
  repeat' split
  all_goals first | with_reducible rfl | simp | rfl
@[simp] theorem State.rectEnter_mi (q : RectState) (f : Rectifier → Rectifier) : (s.rectEnter q f).mi = s.mi := congrArg (·.1) (State.rectEnter_frame s q f)
@[simp] theorem State.rectEnter_engines (q : RectState) (f : Rectifier → Rectifier) : (s.rectEnter q f).engines = s.engines := congrArg (·.2.1) (State.rectEnter_frame s q f)
@[simp] theorem State.rectEnter_seqs (q : RectState) (f : Rectifier → Rectifier) : (s.rectEnter q f).seqs = s.seqs := congrArg (·.2.2.1) (State.rectEnter_frame s q f)
@[simp] theorem State.rectEnter_backupLatch (q : RectState) (f : Rectifier → Rectifier) : (s.rectEnter q f).backupLatch = s.backupLatch := congrArg (·.2.2.2.1) (State.rectEnter_frame s q f)
@[simp] theorem State.rectEnter_sections (q : RectState) (f : Rectifier → Rectifier) : (s.rectEnter q f).sections = s.sections := congrArg (·.2.2.2.2.1) (State.rectEnter_frame s q f)
@[simp] theorem State.rectEnter_ht (q : RectState) (f : Rectifier → Rectifier) : (s.rectEnter q f).ht = s.ht := congrArg (·.2.2.2.2.2.1) (State.rectEnter_frame s q f)
@[simp] theorem State.rectEnter_linkA (q : RectState) (f : Rectifier → Rectifier) : (s.rectEnter q f).linkA = s.linkA := congrArg (·.2.2.2.2.2.2.1) (State.rectEnter_frame s q f)
@[simp] theorem State.rectEnter_linkB (q : RectState) (f : Rectifier → Rectifier) : (s.rectEnter q f).linkB = s.linkB := congrArg (·.2.2.2.2.2.2.2.1) (State.rectEnter_frame s q f)
@[simp] theorem State.rectEnter_au (q : RectState) (f : Rectifier → Rectifier) : (s.rectEnter q f).au = s.au := congrArg (·.2.2.2.2.2.2.2.2.1) (State.rectEnter_frame s q f)
@[simp] theorem State.rectEnter_store (q : RectState) (f : Rectifier → Rectifier) : (s.rectEnter q f).store = s.store := congrArg (·.2.2.2.2.2.2.2.2.2.1) (State.rectEnter_frame s q f)
@[simp] theorem State.rectEnter_sp (q : RectState) (f : Rectifier → Rectifier) : (s.rectEnter q f).sp = s.sp := congrArg (·.2.2.2.2.2.2.2.2.2.2.1) (State.rectEnter_frame s q f)
@[simp] theorem State.rectEnter_resetHeld (q : RectState) (f : Rectifier → Rectifier) : (s.rectEnter q f).resetHeld = s.resetHeld := congrArg (·.2.2.2.2.2.2.2.2.2.2.2.1) (State.rectEnter_frame s q f)
@[simp] theorem State.rectEnter_verification (q : RectState) (f : Rectifier → Rectifier) : (s.rectEnter q f).verification = s.verification := congrArg (·.2.2.2.2.2.2.2.2.2.2.2.2.1) (State.rectEnter_frame s q f)
@[simp] theorem State.rectEnter_pending (q : RectState) (f : Rectifier → Rectifier) : (s.rectEnter q f).pending = s.pending := congrArg (·.2.2.2.2.2.2.2.2.2.2.2.2.2) (State.rectEnter_frame s q f)

theorem State.startAcDrive_frame :
    (fun t : State => (t.mi, t.engines, t.seqs, t.backupLatch, t.sections, t.ht, t.linkA, t.linkB, t.au, t.store, t.sp, t.resetHeld, t.verification, t.agenda, t.pending)) (s.startAcDrive) =
    (fun t : State => (t.mi, t.engines, t.seqs, t.backupLatch, t.sections, t.ht, t.linkA, t.linkB, t.au, t.store, t.sp, t.resetHeld, t.verification, t.agenda, t.pending)) s := by
  unfold State.startAcDrive; try dsimp only
  repeat' split
  all_goals first | with_reducible rfl | simp | rfl
@[simp] theorem State.startAcDrive_mi : (s.startAcDrive).mi = s.mi := congrArg (·.1) (State.startAcDrive_frame s)
@[simp] theorem State.startAcDrive_engines : (s.startAcDrive).engines = s.engines := congrArg (·.2.1) (State.startAcDrive_frame s)
@[simp] theorem State.startAcDrive_seqs : (s.startAcDrive).seqs = s.seqs := congrArg (·.2.2.1) (State.startAcDrive_frame s)
@[simp] theorem State.startAcDrive_backupLatch : (s.startAcDrive).backupLatch = s.backupLatch := congrArg (·.2.2.2.1) (State.startAcDrive_frame s)
@[simp] theorem State.startAcDrive_sections : (s.startAcDrive).sections = s.sections := congrArg (·.2.2.2.2.1) (State.startAcDrive_frame s)
@[simp] theorem State.startAcDrive_ht : (s.startAcDrive).ht = s.ht := congrArg (·.2.2.2.2.2.1) (State.startAcDrive_frame s)
@[simp] theorem State.startAcDrive_linkA : (s.startAcDrive).linkA = s.linkA := congrArg (·.2.2.2.2.2.2.1) (State.startAcDrive_frame s)
@[simp] theorem State.startAcDrive_linkB : (s.startAcDrive).linkB = s.linkB := congrArg (·.2.2.2.2.2.2.2.1) (State.startAcDrive_frame s)
@[simp] theorem State.startAcDrive_au : (s.startAcDrive).au = s.au := congrArg (·.2.2.2.2.2.2.2.2.1) (State.startAcDrive_frame s)
@[simp] theorem State.startAcDrive_store : (s.startAcDrive).store = s.store := congrArg (·.2.2.2.2.2.2.2.2.2.1) (State.startAcDrive_frame s)
@[simp] theorem State.startAcDrive_sp : (s.startAcDrive).sp = s.sp := congrArg (·.2.2.2.2.2.2.2.2.2.2.1) (State.startAcDrive_frame s)
@[simp] theorem State.startAcDrive_resetHeld : (s.startAcDrive).resetHeld = s.resetHeld := congrArg (·.2.2.2.2.2.2.2.2.2.2.2.1) (State.startAcDrive_frame s)
@[simp] theorem State.startAcDrive_verification : (s.startAcDrive).verification = s.verification := congrArg (·.2.2.2.2.2.2.2.2.2.2.2.2.1) (State.startAcDrive_frame s)
@[simp] theorem State.startAcDrive_agenda : (s.startAcDrive).agenda = s.agenda := congrArg (·.2.2.2.2.2.2.2.2.2.2.2.2.2.1) (State.startAcDrive_frame s)
@[simp] theorem State.startAcDrive_pending : (s.startAcDrive).pending = s.pending := congrArg (·.2.2.2.2.2.2.2.2.2.2.2.2.2.2) (State.startAcDrive_frame s)

theorem State.rectTrip_frame (c : RectCause) :
    (fun t : State => (t.mi, t.engines, t.seqs, t.backupLatch, t.sections, t.ht, t.linkA, t.linkB, t.au, t.store, t.sp, t.resetHeld, t.verification, t.pending)) (s.rectTrip c) =
    (fun t : State => (t.mi, t.engines, t.seqs, t.backupLatch, t.sections, t.ht, t.linkA, t.linkB, t.au, t.store, t.sp, t.resetHeld, t.verification, t.pending)) s := by
  unfold State.rectTrip; try dsimp only
  repeat' split
  all_goals first | with_reducible rfl | simp | rfl
@[simp] theorem State.rectTrip_mi (c : RectCause) : (s.rectTrip c).mi = s.mi := congrArg (·.1) (State.rectTrip_frame s c)
@[simp] theorem State.rectTrip_engines (c : RectCause) : (s.rectTrip c).engines = s.engines := congrArg (·.2.1) (State.rectTrip_frame s c)
@[simp] theorem State.rectTrip_seqs (c : RectCause) : (s.rectTrip c).seqs = s.seqs := congrArg (·.2.2.1) (State.rectTrip_frame s c)
@[simp] theorem State.rectTrip_backupLatch (c : RectCause) : (s.rectTrip c).backupLatch = s.backupLatch := congrArg (·.2.2.2.1) (State.rectTrip_frame s c)
@[simp] theorem State.rectTrip_sections (c : RectCause) : (s.rectTrip c).sections = s.sections := congrArg (·.2.2.2.2.1) (State.rectTrip_frame s c)
@[simp] theorem State.rectTrip_ht (c : RectCause) : (s.rectTrip c).ht = s.ht := congrArg (·.2.2.2.2.2.1) (State.rectTrip_frame s c)
@[simp] theorem State.rectTrip_linkA (c : RectCause) : (s.rectTrip c).linkA = s.linkA := congrArg (·.2.2.2.2.2.2.1) (State.rectTrip_frame s c)
@[simp] theorem State.rectTrip_linkB (c : RectCause) : (s.rectTrip c).linkB = s.linkB := congrArg (·.2.2.2.2.2.2.2.1) (State.rectTrip_frame s c)
@[simp] theorem State.rectTrip_au (c : RectCause) : (s.rectTrip c).au = s.au := congrArg (·.2.2.2.2.2.2.2.2.1) (State.rectTrip_frame s c)
@[simp] theorem State.rectTrip_store (c : RectCause) : (s.rectTrip c).store = s.store := congrArg (·.2.2.2.2.2.2.2.2.2.1) (State.rectTrip_frame s c)
@[simp] theorem State.rectTrip_sp (c : RectCause) : (s.rectTrip c).sp = s.sp := congrArg (·.2.2.2.2.2.2.2.2.2.2.1) (State.rectTrip_frame s c)
@[simp] theorem State.rectTrip_resetHeld (c : RectCause) : (s.rectTrip c).resetHeld = s.resetHeld := congrArg (·.2.2.2.2.2.2.2.2.2.2.2.1) (State.rectTrip_frame s c)
@[simp] theorem State.rectTrip_verification (c : RectCause) : (s.rectTrip c).verification = s.verification := congrArg (·.2.2.2.2.2.2.2.2.2.2.2.2.1) (State.rectTrip_frame s c)
@[simp] theorem State.rectTrip_pending (c : RectCause) : (s.rectTrip c).pending = s.pending := congrArg (·.2.2.2.2.2.2.2.2.2.2.2.2.2) (State.rectTrip_frame s c)

theorem State.unbind_frame (id : Byte) :
    (fun t : State => (t.mi, t.engines, t.seqs, t.backupLatch, t.rect, t.sections, t.linkA, t.linkB, t.au, t.store, t.sp, t.resetHeld, t.verification, t.agenda, t.pending)) (s.unbind id) =
    (fun t : State => (t.mi, t.engines, t.seqs, t.backupLatch, t.rect, t.sections, t.linkA, t.linkB, t.au, t.store, t.sp, t.resetHeld, t.verification, t.agenda, t.pending)) s := by
  unfold State.unbind
  refine forEach_same (fun t : State => (t.mi, t.engines, t.seqs, t.backupLatch, t.rect, t.sections, t.linkA, t.linkB, t.au, t.store, t.sp, t.resetHeld, t.verification, t.agenda, t.pending)) _ _ s fun _ _ => by first | simp | rfl
@[simp] theorem State.unbind_mi (id : Byte) : (s.unbind id).mi = s.mi := congrArg (·.1) (State.unbind_frame s id)
@[simp] theorem State.unbind_engines (id : Byte) : (s.unbind id).engines = s.engines := congrArg (·.2.1) (State.unbind_frame s id)
@[simp] theorem State.unbind_seqs (id : Byte) : (s.unbind id).seqs = s.seqs := congrArg (·.2.2.1) (State.unbind_frame s id)
@[simp] theorem State.unbind_backupLatch (id : Byte) : (s.unbind id).backupLatch = s.backupLatch := congrArg (·.2.2.2.1) (State.unbind_frame s id)
@[simp] theorem State.unbind_rect (id : Byte) : (s.unbind id).rect = s.rect := congrArg (·.2.2.2.2.1) (State.unbind_frame s id)
@[simp] theorem State.unbind_sections (id : Byte) : (s.unbind id).sections = s.sections := congrArg (·.2.2.2.2.2.1) (State.unbind_frame s id)
@[simp] theorem State.unbind_linkA (id : Byte) : (s.unbind id).linkA = s.linkA := congrArg (·.2.2.2.2.2.2.1) (State.unbind_frame s id)
@[simp] theorem State.unbind_linkB (id : Byte) : (s.unbind id).linkB = s.linkB := congrArg (·.2.2.2.2.2.2.2.1) (State.unbind_frame s id)
@[simp] theorem State.unbind_au (id : Byte) : (s.unbind id).au = s.au := congrArg (·.2.2.2.2.2.2.2.2.1) (State.unbind_frame s id)
@[simp] theorem State.unbind_store (id : Byte) : (s.unbind id).store = s.store := congrArg (·.2.2.2.2.2.2.2.2.2.1) (State.unbind_frame s id)
@[simp] theorem State.unbind_sp (id : Byte) : (s.unbind id).sp = s.sp := congrArg (·.2.2.2.2.2.2.2.2.2.2.1) (State.unbind_frame s id)
@[simp] theorem State.unbind_resetHeld (id : Byte) : (s.unbind id).resetHeld = s.resetHeld := congrArg (·.2.2.2.2.2.2.2.2.2.2.2.1) (State.unbind_frame s id)
@[simp] theorem State.unbind_verification (id : Byte) : (s.unbind id).verification = s.verification := congrArg (·.2.2.2.2.2.2.2.2.2.2.2.2.1) (State.unbind_frame s id)
@[simp] theorem State.unbind_agenda (id : Byte) : (s.unbind id).agenda = s.agenda := congrArg (·.2.2.2.2.2.2.2.2.2.2.2.2.2.1) (State.unbind_frame s id)
@[simp] theorem State.unbind_pending (id : Byte) : (s.unbind id).pending = s.pending := congrArg (·.2.2.2.2.2.2.2.2.2.2.2.2.2.2) (State.unbind_frame s id)

theorem State.setLevel_frame (p : PointNo) (level : Bool) :
    (fun t : State => (t.mi, t.engines, t.seqs, t.backupLatch, t.rect, t.sections, t.ht, t.linkA, t.linkB, t.store, t.sp, t.resetHeld, t.verification, t.agenda, t.pending)) (s.setLevel p level) =
    (fun t : State => (t.mi, t.engines, t.seqs, t.backupLatch, t.rect, t.sections, t.ht, t.linkA, t.linkB, t.store, t.sp, t.resetHeld, t.verification, t.agenda, t.pending)) s := by
  unfold State.setLevel; try dsimp only
  repeat' split
  all_goals first | with_reducible rfl | simp | rfl
@[simp] theorem State.setLevel_mi (p : PointNo) (level : Bool) : (s.setLevel p level).mi = s.mi := congrArg (·.1) (State.setLevel_frame s p level)
@[simp] theorem State.setLevel_engines (p : PointNo) (level : Bool) : (s.setLevel p level).engines = s.engines := congrArg (·.2.1) (State.setLevel_frame s p level)
@[simp] theorem State.setLevel_seqs (p : PointNo) (level : Bool) : (s.setLevel p level).seqs = s.seqs := congrArg (·.2.2.1) (State.setLevel_frame s p level)
@[simp] theorem State.setLevel_backupLatch (p : PointNo) (level : Bool) : (s.setLevel p level).backupLatch = s.backupLatch := congrArg (·.2.2.2.1) (State.setLevel_frame s p level)
@[simp] theorem State.setLevel_rect (p : PointNo) (level : Bool) : (s.setLevel p level).rect = s.rect := congrArg (·.2.2.2.2.1) (State.setLevel_frame s p level)
@[simp] theorem State.setLevel_sections (p : PointNo) (level : Bool) : (s.setLevel p level).sections = s.sections := congrArg (·.2.2.2.2.2.1) (State.setLevel_frame s p level)
@[simp] theorem State.setLevel_ht (p : PointNo) (level : Bool) : (s.setLevel p level).ht = s.ht := congrArg (·.2.2.2.2.2.2.1) (State.setLevel_frame s p level)
@[simp] theorem State.setLevel_linkA (p : PointNo) (level : Bool) : (s.setLevel p level).linkA = s.linkA := congrArg (·.2.2.2.2.2.2.2.1) (State.setLevel_frame s p level)
@[simp] theorem State.setLevel_linkB (p : PointNo) (level : Bool) : (s.setLevel p level).linkB = s.linkB := congrArg (·.2.2.2.2.2.2.2.2.1) (State.setLevel_frame s p level)
@[simp] theorem State.setLevel_store (p : PointNo) (level : Bool) : (s.setLevel p level).store = s.store := congrArg (·.2.2.2.2.2.2.2.2.2.1) (State.setLevel_frame s p level)
@[simp] theorem State.setLevel_sp (p : PointNo) (level : Bool) : (s.setLevel p level).sp = s.sp := congrArg (·.2.2.2.2.2.2.2.2.2.2.1) (State.setLevel_frame s p level)
@[simp] theorem State.setLevel_resetHeld (p : PointNo) (level : Bool) : (s.setLevel p level).resetHeld = s.resetHeld := congrArg (·.2.2.2.2.2.2.2.2.2.2.2.1) (State.setLevel_frame s p level)
@[simp] theorem State.setLevel_verification (p : PointNo) (level : Bool) : (s.setLevel p level).verification = s.verification := congrArg (·.2.2.2.2.2.2.2.2.2.2.2.2.1) (State.setLevel_frame s p level)
@[simp] theorem State.setLevel_agenda (p : PointNo) (level : Bool) : (s.setLevel p level).agenda = s.agenda := congrArg (·.2.2.2.2.2.2.2.2.2.2.2.2.2.1) (State.setLevel_frame s p level)
@[simp] theorem State.setLevel_pending (p : PointNo) (level : Bool) : (s.setLevel p level).pending = s.pending := congrArg (·.2.2.2.2.2.2.2.2.2.2.2.2.2.2) (State.setLevel_frame s p level)

theorem State.syncLevels_frame :
    (fun t : State => (t.mi, t.engines, t.seqs, t.backupLatch, t.rect, t.sections, t.ht, t.linkA, t.linkB, t.store, t.sp, t.resetHeld, t.verification, t.agenda, t.pending)) (s.syncLevels) =
    (fun t : State => (t.mi, t.engines, t.seqs, t.backupLatch, t.rect, t.sections, t.ht, t.linkA, t.linkB, t.store, t.sp, t.resetHeld, t.verification, t.agenda, t.pending)) s := by
  unfold State.syncLevels
  split
  · rfl
  · refine forEach_same (fun t : State => (t.mi, t.engines, t.seqs, t.backupLatch, t.rect, t.sections, t.ht, t.linkA, t.linkB, t.store, t.sp, t.resetHeld, t.verification, t.agenda, t.pending)) _ _ s fun _ _ => by first | simp | rfl
@[simp] theorem State.syncLevels_mi : (s.syncLevels).mi = s.mi := congrArg (·.1) (State.syncLevels_frame s)
@[simp] theorem State.syncLevels_engines : (s.syncLevels).engines = s.engines := congrArg (·.2.1) (State.syncLevels_frame s)
@[simp] theorem State.syncLevels_seqs : (s.syncLevels).seqs = s.seqs := congrArg (·.2.2.1) (State.syncLevels_frame s)
@[simp] theorem State.syncLevels_backupLatch : (s.syncLevels).backupLatch = s.backupLatch := congrArg (·.2.2.2.1) (State.syncLevels_frame s)
@[simp] theorem State.syncLevels_rect : (s.syncLevels).rect = s.rect := congrArg (·.2.2.2.2.1) (State.syncLevels_frame s)
@[simp] theorem State.syncLevels_sections : (s.syncLevels).sections = s.sections := congrArg (·.2.2.2.2.2.1) (State.syncLevels_frame s)
@[simp] theorem State.syncLevels_ht : (s.syncLevels).ht = s.ht := congrArg (·.2.2.2.2.2.2.1) (State.syncLevels_frame s)
@[simp] theorem State.syncLevels_linkA : (s.syncLevels).linkA = s.linkA := congrArg (·.2.2.2.2.2.2.2.1) (State.syncLevels_frame s)
@[simp] theorem State.syncLevels_linkB : (s.syncLevels).linkB = s.linkB := congrArg (·.2.2.2.2.2.2.2.2.1) (State.syncLevels_frame s)
@[simp] theorem State.syncLevels_store : (s.syncLevels).store = s.store := congrArg (·.2.2.2.2.2.2.2.2.2.1) (State.syncLevels_frame s)
@[simp] theorem State.syncLevels_sp : (s.syncLevels).sp = s.sp := congrArg (·.2.2.2.2.2.2.2.2.2.2.1) (State.syncLevels_frame s)
@[simp] theorem State.syncLevels_resetHeld : (s.syncLevels).resetHeld = s.resetHeld := congrArg (·.2.2.2.2.2.2.2.2.2.2.2.1) (State.syncLevels_frame s)
@[simp] theorem State.syncLevels_verification : (s.syncLevels).verification = s.verification := congrArg (·.2.2.2.2.2.2.2.2.2.2.2.2.1) (State.syncLevels_frame s)
@[simp] theorem State.syncLevels_agenda : (s.syncLevels).agenda = s.agenda := congrArg (·.2.2.2.2.2.2.2.2.2.2.2.2.2.1) (State.syncLevels_frame s)
@[simp] theorem State.syncLevels_pending : (s.syncLevels).pending = s.pending := congrArg (·.2.2.2.2.2.2.2.2.2.2.2.2.2.2) (State.syncLevels_frame s)

theorem State.closeAlerts_frame :
    (fun t : State => (t.mi, t.engines, t.seqs, t.backupLatch, t.rect, t.sections, t.ht, t.linkA, t.linkB, t.store, t.sp, t.resetHeld, t.verification, t.agenda, t.pending)) (s.closeAlerts) =
    (fun t : State => (t.mi, t.engines, t.seqs, t.backupLatch, t.rect, t.sections, t.ht, t.linkA, t.linkB, t.store, t.sp, t.resetHeld, t.verification, t.agenda, t.pending)) s := by
  unfold State.closeAlerts; try dsimp only
  repeat' split
  all_goals first | with_reducible rfl | simp | rfl
@[simp] theorem State.closeAlerts_mi : (s.closeAlerts).mi = s.mi := congrArg (·.1) (State.closeAlerts_frame s)
@[simp] theorem State.closeAlerts_engines : (s.closeAlerts).engines = s.engines := congrArg (·.2.1) (State.closeAlerts_frame s)
@[simp] theorem State.closeAlerts_seqs : (s.closeAlerts).seqs = s.seqs := congrArg (·.2.2.1) (State.closeAlerts_frame s)
@[simp] theorem State.closeAlerts_backupLatch : (s.closeAlerts).backupLatch = s.backupLatch := congrArg (·.2.2.2.1) (State.closeAlerts_frame s)
@[simp] theorem State.closeAlerts_rect : (s.closeAlerts).rect = s.rect := congrArg (·.2.2.2.2.1) (State.closeAlerts_frame s)
@[simp] theorem State.closeAlerts_sections : (s.closeAlerts).sections = s.sections := congrArg (·.2.2.2.2.2.1) (State.closeAlerts_frame s)
@[simp] theorem State.closeAlerts_ht : (s.closeAlerts).ht = s.ht := congrArg (·.2.2.2.2.2.2.1) (State.closeAlerts_frame s)
@[simp] theorem State.closeAlerts_linkA : (s.closeAlerts).linkA = s.linkA := congrArg (·.2.2.2.2.2.2.2.1) (State.closeAlerts_frame s)
@[simp] theorem State.closeAlerts_linkB : (s.closeAlerts).linkB = s.linkB := congrArg (·.2.2.2.2.2.2.2.2.1) (State.closeAlerts_frame s)
@[simp] theorem State.closeAlerts_store : (s.closeAlerts).store = s.store := congrArg (·.2.2.2.2.2.2.2.2.2.1) (State.closeAlerts_frame s)
@[simp] theorem State.closeAlerts_sp : (s.closeAlerts).sp = s.sp := congrArg (·.2.2.2.2.2.2.2.2.2.2.1) (State.closeAlerts_frame s)
@[simp] theorem State.closeAlerts_resetHeld : (s.closeAlerts).resetHeld = s.resetHeld := congrArg (·.2.2.2.2.2.2.2.2.2.2.2.1) (State.closeAlerts_frame s)
@[simp] theorem State.closeAlerts_verification : (s.closeAlerts).verification = s.verification := congrArg (·.2.2.2.2.2.2.2.2.2.2.2.2.1) (State.closeAlerts_frame s)
@[simp] theorem State.closeAlerts_agenda : (s.closeAlerts).agenda = s.agenda := congrArg (·.2.2.2.2.2.2.2.2.2.2.2.2.2.1) (State.closeAlerts_frame s)
@[simp] theorem State.closeAlerts_pending : (s.closeAlerts).pending = s.pending := congrArg (·.2.2.2.2.2.2.2.2.2.2.2.2.2.2) (State.closeAlerts_frame s)

theorem State.writeRetained_frame :
    (fun t : State => (t.mi, t.engines, t.seqs, t.backupLatch, t.rect, t.sections, t.ht, t.linkA, t.linkB, t.au, t.sp, t.resetHeld, t.verification, t.agenda, t.pending)) (s.writeRetained) =
    (fun t : State => (t.mi, t.engines, t.seqs, t.backupLatch, t.rect, t.sections, t.ht, t.linkA, t.linkB, t.au, t.sp, t.resetHeld, t.verification, t.agenda, t.pending)) s := by
  unfold State.writeRetained; try dsimp only
  repeat' split
  all_goals first | with_reducible rfl | simp | rfl
@[simp] theorem State.writeRetained_mi : (s.writeRetained).mi = s.mi := congrArg (·.1) (State.writeRetained_frame s)
@[simp] theorem State.writeRetained_engines : (s.writeRetained).engines = s.engines := congrArg (·.2.1) (State.writeRetained_frame s)
@[simp] theorem State.writeRetained_seqs : (s.writeRetained).seqs = s.seqs := congrArg (·.2.2.1) (State.writeRetained_frame s)
@[simp] theorem State.writeRetained_backupLatch : (s.writeRetained).backupLatch = s.backupLatch := congrArg (·.2.2.2.1) (State.writeRetained_frame s)
@[simp] theorem State.writeRetained_rect : (s.writeRetained).rect = s.rect := congrArg (·.2.2.2.2.1) (State.writeRetained_frame s)
@[simp] theorem State.writeRetained_sections : (s.writeRetained).sections = s.sections := congrArg (·.2.2.2.2.2.1) (State.writeRetained_frame s)
@[simp] theorem State.writeRetained_ht : (s.writeRetained).ht = s.ht := congrArg (·.2.2.2.2.2.2.1) (State.writeRetained_frame s)
@[simp] theorem State.writeRetained_linkA : (s.writeRetained).linkA = s.linkA := congrArg (·.2.2.2.2.2.2.2.1) (State.writeRetained_frame s)
@[simp] theorem State.writeRetained_linkB : (s.writeRetained).linkB = s.linkB := congrArg (·.2.2.2.2.2.2.2.2.1) (State.writeRetained_frame s)
@[simp] theorem State.writeRetained_au : (s.writeRetained).au = s.au := congrArg (·.2.2.2.2.2.2.2.2.2.1) (State.writeRetained_frame s)
@[simp] theorem State.writeRetained_sp : (s.writeRetained).sp = s.sp := congrArg (·.2.2.2.2.2.2.2.2.2.2.1) (State.writeRetained_frame s)
@[simp] theorem State.writeRetained_resetHeld : (s.writeRetained).resetHeld = s.resetHeld := congrArg (·.2.2.2.2.2.2.2.2.2.2.2.1) (State.writeRetained_frame s)
@[simp] theorem State.writeRetained_verification : (s.writeRetained).verification = s.verification := congrArg (·.2.2.2.2.2.2.2.2.2.2.2.2.1) (State.writeRetained_frame s)
@[simp] theorem State.writeRetained_agenda : (s.writeRetained).agenda = s.agenda := congrArg (·.2.2.2.2.2.2.2.2.2.2.2.2.2.1) (State.writeRetained_frame s)
@[simp] theorem State.writeRetained_pending : (s.writeRetained).pending = s.pending := congrArg (·.2.2.2.2.2.2.2.2.2.2.2.2.2.2) (State.writeRetained_frame s)

theorem State.finish_frame :
    (fun t : State => (t.mi, t.engines, t.seqs, t.backupLatch, t.rect, t.sections, t.ht, t.linkA, t.linkB, t.sp, t.resetHeld, t.verification, t.agenda, t.pending)) (s.finish) =
    (fun t : State => (t.mi, t.engines, t.seqs, t.backupLatch, t.rect, t.sections, t.ht, t.linkA, t.linkB, t.sp, t.resetHeld, t.verification, t.agenda, t.pending)) s := by
  unfold State.finish; simp
@[simp] theorem State.finish_mi : (s.finish).mi = s.mi := congrArg (·.1) (State.finish_frame s)
@[simp] theorem State.finish_engines : (s.finish).engines = s.engines := congrArg (·.2.1) (State.finish_frame s)
@[simp] theorem State.finish_seqs : (s.finish).seqs = s.seqs := congrArg (·.2.2.1) (State.finish_frame s)
@[simp] theorem State.finish_backupLatch : (s.finish).backupLatch = s.backupLatch := congrArg (·.2.2.2.1) (State.finish_frame s)
@[simp] theorem State.finish_rect : (s.finish).rect = s.rect := congrArg (·.2.2.2.2.1) (State.finish_frame s)
@[simp] theorem State.finish_sections : (s.finish).sections = s.sections := congrArg (·.2.2.2.2.2.1) (State.finish_frame s)
@[simp] theorem State.finish_ht : (s.finish).ht = s.ht := congrArg (·.2.2.2.2.2.2.1) (State.finish_frame s)
@[simp] theorem State.finish_linkA : (s.finish).linkA = s.linkA := congrArg (·.2.2.2.2.2.2.2.1) (State.finish_frame s)
@[simp] theorem State.finish_linkB : (s.finish).linkB = s.linkB := congrArg (·.2.2.2.2.2.2.2.2.1) (State.finish_frame s)
@[simp] theorem State.finish_sp : (s.finish).sp = s.sp := congrArg (·.2.2.2.2.2.2.2.2.2.1) (State.finish_frame s)
@[simp] theorem State.finish_resetHeld : (s.finish).resetHeld = s.resetHeld := congrArg (·.2.2.2.2.2.2.2.2.2.2.1) (State.finish_frame s)
@[simp] theorem State.finish_verification : (s.finish).verification = s.verification := congrArg (·.2.2.2.2.2.2.2.2.2.2.2.1) (State.finish_frame s)
@[simp] theorem State.finish_agenda : (s.finish).agenda = s.agenda := congrArg (·.2.2.2.2.2.2.2.2.2.2.2.2.1) (State.finish_frame s)
@[simp] theorem State.finish_pending : (s.finish).pending = s.pending := congrArg (·.2.2.2.2.2.2.2.2.2.2.2.2.2) (State.finish_frame s)

end Sys2Proof.Machine
end

