-- ==== Sys2Proof/Laws/Records.lean ====
section
/-! SUPPORT. How the pure changes of a record keep the record's law. -/

namespace Sys2Proof.Machine

open Sys2Proof

/-! ### Engines -/

theorem heatAfter_le (t : ThermalSetting) (feed heat : Nat) : heatAfter t feed heat ≤ 2 * heatLimit t := by
  unfold heatAfter; omega

theorem EngineLaw.judgeHeat {e : Engine} (h : EngineLaw e) (b : Bool) : EngineLaw (judgeHeat b e) := by
  cases h; constructor <;> assumption

theorem EngineLaw.warm {e : Engine} (h : EngineLaw e) (feed : Nat) :
    EngineLaw { e with heat := heatAfter e.copy.thermal feed e.heat } := by
  cases h; constructor <;> first | assumption | exact heatAfter_le _ _ _

theorem EngineLaw.recopy {e : Engine} (h : EngineLaw e) (f : FeederSettings) (g : GroupSource) :
    EngineLaw (e.recopy f g) := by
  cases h; constructor <;> first | assumption | (simp only [Engine.recopy, settingsCopyOf]; omega)

theorem EngineLaw.takeOver {e : Engine} (h : EngineLaw e) (f : FeederSettings) (g : GroupSource) (b : Bool) :
    EngineLaw (e.takeOver f g b) := by
  unfold Engine.takeOver
  split
  · dsimp only
    split
    · exact EngineLaw.judgeHeat (e := { e.recopy f g with setInUse := _ }) (by
        cases h.recopy f g; constructor <;> assumption) b
    · exact EngineLaw.judgeHeat (e := { e with setInUse := _ }) (by cases h; constructor <;> assumption) b
  · exact h

theorem EngineLaw.cleared {e : Engine} (h : EngineLaw e) : EngineLaw e.cleared := by
  cases h; constructor <;> simp_all [Engine.cleared, disarm]

theorem EngineLaw.loseCurrent {e : Engine} (h : EngineLaw e) : EngineLaw { e with history := [] } := by
  cases h; constructor <;> first | assumption | simp

theorem EngineLaw.push {e : Engine} (h : EngineLaw e) (feed : Nat) :
    EngineLaw { e with history := pushHistory feed e.history } := by
  cases h; constructor <;> first | assumption | (simp only [pushHistory, List.length_cons, List.length_take]; omega)

theorem EngineLaw.deltaIdle {e : Engine} (h : EngineLaw e) (p : ParamSet) (feed : Nat) (rate : Option Int)
    (history : List Nat) : EngineLaw (deltaIdle p feed rate history e) := by
  unfold Machine.deltaIdle
  split
  · split
    · cases h; constructor <;> simp_all
    · exact h
  · exact h

theorem EngineLaw.deltaRising {e : Engine} (h : EngineLaw e) (r : e.stage = .rising) (p : ParamSet) (feed : Nat)
    (rate : Option Int) (a : Arming) : EngineLaw (deltaRising p feed rate a e) := by
  cases h
  unfold Machine.deltaRising disarm
  dsimp only
  repeat' split
  all_goals constructor <;> simp_all

theorem EngineLaw.deltaConfirm {e : Engine} (h : EngineLaw e) (r : e.stage = .confirm) (p : ParamSet) (feed : Nat)
    (a : Arming) : EngineLaw (deltaConfirm p feed a e).1 := by
  cases h
  unfold Machine.deltaConfirm
  dsimp only
  repeat' split
  all_goals constructor <;> simp_all

theorem EngineLaw.deltaJudge {e : Engine} (h : EngineLaw e) (p : ParamSet) (feed : Nat) (rate : Option Int) :
    EngineLaw (deltaJudge p feed rate e).1 := by
  unfold Machine.deltaJudge
  split
  · exact h.deltaIdle p feed rate _
  · exact h.deltaRising (by assumption) p feed rate _
  · exact h.deltaConfirm (by assumption) p feed _
  · exact h

theorem EngineLaw.judgeCriteria {e : Engine} (h : EngineLaw e) (i : Int) : EngineLaw (judgeCriteria i e).1 := by
  cases h.deltaJudge e.params (feedCurrent i) (riseRate (feedCurrent i) e.history)
  constructor <;> assumption

theorem EngineLaw.trip {e : Engine} (h : EngineLaw e) : EngineLaw { e with stage := .tripped } := by
  cases h; constructor <;> simp_all

theorem EngineLaw.stop {e : Engine} (h : EngineLaw e) : EngineLaw (match e.stage with
    | .tripped => e
    | .idle => { e with imaxCount := 0, revCount := 0 }
    | .rising | .confirm => e.cleared) := by
  split
  · exact h
  · cases h; constructor <;> assumption
  · exact h.cleared
  · exact h.cleared

theorem EngineLaw.initial (f : FeederSettings) (g : GroupSource) : EngineLaw (initialEngine f g) := by
  constructor <;> simp [initialEngine, settingsCopyOf]; omega

/-! ### Sequencers -/

/-- What a handing may make of a sequencer record: its law is kept; BREAKER-FAULT and NOT-FITTED stay, LOCKOUT stays or becomes
BREAKER-FAULT, and the FIRST trip record stays once it stands (R45, R50, R53, R64). -/
def SeqRel (a b : Sequencer) : Prop :=
  SequencerLaw a → SequencerLaw b ∧ (a.state = some .breakerFault → b.state = some .breakerFault) ∧
    (a.state = some .notFitted → b.state = some .notFitted) ∧
    (a.state = some .lockout → b.state = some .lockout ∨ b.state = some .breakerFault) ∧
    (a.first.isSome → b.first = a.first)

theorem SequencerLaw.enterFields (q : SeqState) (r : Sequencer) : SequencerLaw (enterFields q r) := by
  cases q <;> constructor <;> simp [Machine.enterFields] <;> split <;> simp_all

/-- A record change that leaves the state and what stands in a state only. -/
theorem SeqRel.of_same {a b : Sequencer} (hs : b.state = a.state) (hl : SequencerLaw a → SequencerLaw b)
    (hf : a.first.isSome → b.first = a.first) : SeqRel a b := fun h =>
  ⟨hl h, fun e => hs.trans e, fun e => hs.trans e, fun e => .inl (hs.trans e), hf⟩

/-- Entering a state. -/
theorem SeqRel.enter {a b : Sequencer} {q : SeqState} (hf : b.first = a.first)
    (hb : SequencerLaw a → a.state = some .breakerFault → q = .breakerFault)
    (hn : SequencerLaw a → a.state = some .notFitted → q = .notFitted)
    (hl : SequencerLaw a → a.state = some .lockout → q = .lockout ∨ q = .breakerFault) :
    SeqRel a (Machine.enterFields q b) := fun h =>
  ⟨SequencerLaw.enterFields q b, fun e => congrArg some (hb h e), fun e => congrArg some (hn h e),
    fun e => (hl h e).imp (congrArg some) (congrArg some), fun _ => hf⟩

theorem SequencerLaw.initial (n : Nat) (a b : Option TripRecord) : SequencerLaw (initialSequencer n a b) := by
  constructor <;> simp [initialSequencer]

/-! ### Rectifier group -/

/-- What a handing may make of the rectifier record: its law is kept, and TRIPPED stays with its first cause and time (R75). -/
def RectRel (a b : Rectifier) : Prop :=
  RectifierLaw a → RectifierLaw b ∧
    (a.state = .tripped → b.state = .tripped ∧ b.cause = a.cause ∧ b.tripTime = a.tripTime)

theorem RectifierLaw.rectFields (top : Nat) (q : RectState) (r : Rectifier) : RectifierLaw (rectFields top q r) := by
  cases q <;> constructor <;> simp_all [Machine.rectFields, delivering]

theorem RectRel.enter {a b : Rectifier} {top : Nat} {q : RectState} (h : RectifierLaw a → a.state ≠ .tripped) :
    RectRel a (Machine.rectFields top q b) := fun l => ⟨.rectFields _ _ _, fun e => absurd e (h l)⟩

theorem RectRel.of_same {a b : Rectifier} (hs : b.state = a.state) (hc : b.cause = a.cause) (ht : b.tripTime = a.tripTime)
    (hl : RectifierLaw a → RectifierLaw b) : RectRel a b := fun h => ⟨hl h, fun e => ⟨hs.trans e, hc, ht⟩⟩

theorem RectifierLaw.initial (set : RectSettings) (top dips : Nat) : RectifierLaw (initialRectifier set top dips) := by
  constructor <;> simp [initialRectifier]

/-! ### Sections and holds -/

/-- What a write of a section record may make of it when no hold changes: the counts stay (R101), and the law of the CLOSE drive
goes on (R104). -/
def SecRel (s : State) (n : SectionNo) (f : SectionRec → SectionRec) : Prop :=
  (f (s.sec n)).isolate = (s.sec n).isolate ∧ (f (s.sec n)).earth = (s.sec n).earth ∧
    (f (s.sec n)).noreclose = (s.sec n).noreclose ∧ (DriveOk s n (s.sec n) → DriveOk s n (f (s.sec n)))

/-- A write that leaves the counts, the commanded state and the drive. -/
theorem SecRel.of_same {s : State} {n : SectionNo} {f : SectionRec → SectionRec}
    (h : ∀ r, (f r).isolate = r.isolate ∧ (f r).earth = r.earth ∧ (f r).noreclose = r.noreclose ∧
      (f r).commandedClosed = r.commandedClosed ∧ (f r).drive = r.drive) : SecRel s n f := by
  obtain ⟨h1, h2, h3, h4, h5⟩ := h (s.sec n)
  exact ⟨h1, h2, h3, fun d e => by rw [h5] at e; rw [h4, h2]; exact d e⟩

/-- A write that leaves the counts and no CLOSE drive that did not stand. -/
theorem SecRel.of_drop {s : State} {n : SectionNo} {f : SectionRec → SectionRec}
    (h : ∀ r, (f r).isolate = r.isolate ∧ (f r).earth = r.earth ∧ (f r).noreclose = r.noreclose ∧
      ((f r).drive = .close → r.drive = .close ∧ (f r).commandedClosed = r.commandedClosed)) : SecRel s n f := by
  obtain ⟨h1, h2, h3, h4⟩ := h (s.sec n)
  exact ⟨h1, h2, h3, fun d e => by obtain ⟨e1, e2⟩ := h4 e; rw [e2, h2]; exact d e1⟩

/-- What a change of a hold record may make of it when its counts stay: who it is, what it covers and whether it is FAILED stay,
and its law goes on. -/
structure HoldRel (a b : Hold) : Prop where
  id : b.id = a.id
  origin : b.origin = a.origin
  tag : b.tag = a.tag
  kind : b.kind = a.kind
  sections : b.sections = a.sections
  failed : HoldLaw a → (b.state = .failed ↔ a.state = .failed)
  law : HoldLaw a → HoldLaw b

/-- What a change of a hold record's kind from EARTH to ISOLATE may make of it. -/
structure IsolateRel (a b : Hold) : Prop where
  id : b.id = a.id
  origin : b.origin = a.origin
  tag : b.tag = a.tag
  sections : b.sections = a.sections
  stands : HoldLaw a → a.kind = .earth ∧ a.state ≠ .failed ∧ b.state ≠ .failed
  law : HoldLaw a → HoldLaw { b with kind := .isolate }

/-- R112, R115, R118: a placement that the table has room for, over sections named once; a PEER placement has a holder tag that no
record of its port holds. -/
structure Placeable (s : State) (origin : Origin) (tag : Half) (sections : List SectionNo) : Prop where
  room : s.ht.holds.length < 24
  once : sections.Nodup
  peers : ∀ p, origin = peerOrigin p →
    (s.ht.holds.filter fun h => h.origin = peerOrigin p).length < 8 ∧
      ∀ h ∈ s.ht.holds, h.origin = peerOrigin p → h.tag ≠ tag

/-! ### Links -/

/-- What a handing may make of a link record: only its outbound list, its due beacon and the message in flight change, and its
law is kept. -/
def LinkRel (a b : Link) : Prop :=
  (LinkLaw a → LinkLaw b) ∧ b.state = a.state ∧ b.joinCount = a.joinCount ∧ b.supervision = a.supervision ∧
    b.errors = a.errors ∧ b.report = a.report ∧ b.lastIntertrip = a.lastIntertrip ∧ b.beaconTimer = a.beaconTimer

theorem queueBySubject_subjects (m : HoldMsg) (l : List HoldMsg) (x : Subject) :
    x ∈ (queueBySubject m l).map subjectOf ↔ x = subjectOf m ∨ x ∈ l.map subjectOf := by
  induction l with
  | nil => simp [queueBySubject]
  | cons y l ih =>
    unfold queueBySubject
    split
    · rename_i e; simp [e]
    · simp only [List.map_cons, List.mem_cons, ih]; exact or_left_comm

theorem queueBySubject_nodup (m : HoldMsg) {l : List HoldMsg} (h : (l.map subjectOf).Nodup) :
    ((queueBySubject m l).map subjectOf).Nodup := by
  induction l with
  | nil => simp [queueBySubject]
  | cons y l ih =>
    simp only [List.map_cons, List.nodup_cons] at h
    unfold queueBySubject
    split
    · rename_i e; simpa [← e] using h
    · rename_i e
      simp only [List.map_cons, List.nodup_cons, queueBySubject_subjects]
      exact ⟨fun c => c.elim (fun c => e c) h.1, ih h.2⟩

theorem queueIntertrip_lines (line : Byte) (c : IntertripCause) (l : List PendingIntertrip) (x : Byte) :
    x ∈ (queueIntertrip line c l).map PendingIntertrip.line ↔ x = line ∨ x ∈ l.map PendingIntertrip.line := by
  induction l with
  | nil => simp [queueIntertrip]
  | cons y l ih =>
    unfold queueIntertrip
    split
    · rename_i e; simp [e]
    · simp only [List.map_cons, List.mem_cons, ih]; exact or_left_comm

theorem queueIntertrip_nodup (line : Byte) (c : IntertripCause) {l : List PendingIntertrip}
    (h : (l.map PendingIntertrip.line).Nodup) : ((queueIntertrip line c l).map PendingIntertrip.line).Nodup := by
  induction l with
  | nil => simp [queueIntertrip]
  | cons y l ih =>
    simp only [List.map_cons, List.nodup_cons] at h
    unfold queueIntertrip
    split
    · simpa using h
    · rename_i e
      simp only [List.map_cons, List.nodup_cons, queueIntertrip_lines]
      exact ⟨fun c => c.elim (fun c => e c) h.1, ih h.2⟩

theorem LinkLaw.initial (used : Bool) (n : Nat) : LinkLaw (initialLink used n) := by
  constructor <;> simp [initialLink]

end Sys2Proof.Machine
end

