-- ==== Sys2Proof/Laws/Keeps.lean ====
section
/-! SUPPORT. What every handing between the blocks keeps. `Keeps P` says that a property survives each kind of write that the
carrying out of a handing makes; the lemmas of this file and of the files behind it say that it then survives each operation
whole. A property of the measurement, the settings, the port, the clock or the queue survives every such write. -/

namespace Sys2Proof.Machine

open Sys2Proof

/-- The handings that events make of each other: all but the taking of values and of an arrival, the taking of a message and the
steps of the end of equipment verification. -/
def Consequence : Signal → Bool
  | .takeValues _ | .arrival _ _ | .message _ _ | .startSequencer _ | .startSections | .startPanel | .startHolds | .autostart
  | .startLinks => false
  | _ => true

/-- A property that every write of a handing keeps, the hold table and the counts apart. -/
structure Calm (P : State → Prop) : Prop where
  engine : ∀ s k f, (EngineLaw (s.engine k) → EngineLaw (f (s.engine k))) → P s → P (s.modEngine k f)
  seq : ∀ s k f, SeqRel (s.seq k) (f (s.seq k)) → P s → P (s.modSeq k f)
  rect : ∀ s f, RectRel s.rect (f s.rect) → P s → P (s.modRect f)
  sec : ∀ s n f, SecRel s n f → P s → P (s.modSec n f)
  key : ∀ s n f, P s → P (s.modKey n f)
  link : ∀ s p f, LinkRel (s.link p) (f (s.link p)) → P s → P (s.modLink p f)
  point : ∀ s p r, P s → P (s.putPoint p r)
  hand : ∀ s gs, (∀ g ∈ gs, Consequence g = true) → P s → P (s.handAll gs)

/-- A property that every write of a handing keeps: the changes of the hold table with the counts that follow them (R101) count as
one write each. -/
structure Keeps (P : State → Prop) : Prop extends Calm P where
  hold : ∀ s id f, (∀ h, s.hold id = some h → HoldRel h (f h)) → P s → P (s.modHold id f)
  place : ∀ s kind origin tag sections duration, Placeable s origin tag sections → P s →
    P (s.placeHold kind origin tag sections duration).1
  fail : ∀ s id reason, P s → P (s.failHold id reason)
  retire : ∀ s id, P s → P (s.retireHold id)
  earthen : ∀ s id h, s.hold id = some h → h.kind = .isolate → h.state ≠ .failed → P s → P (s.earthHold id h)
  isolate : ∀ s id h f, s.hold id = some h → IsolateRel h (f h) → P s → P (s.isolateHold id h f)

/-- A property that every write of a handing keeps, whatever it makes of a section record, of the hold table and of the banks of the
retained area. -/
structure Any (P : State → Prop) : Prop where
  engine : ∀ s k f, (EngineLaw (s.engine k) → EngineLaw (f (s.engine k))) → P s → P (s.modEngine k f)
  seq : ∀ s k f, SeqRel (s.seq k) (f (s.seq k)) → P s → P (s.modSeq k f)
  rect : ∀ s f, RectRel s.rect (f s.rect) → P s → P (s.modRect f)
  sec : ∀ s n f, P s → P (s.modSec n f)
  table : ∀ s ht, P s → P { s with ht := ht }
  banks : ∀ s a b, P s → P { s with store := { s.store with bank0 := a, bank1 := b } }
  link : ∀ s p f, LinkRel (s.link p) (f (s.link p)) → P s → P (s.modLink p f)
  point : ∀ s p r, P s → P (s.putPoint p r)
  hand : ∀ s gs, (∀ g ∈ gs, Consequence g = true) → P s → P (s.handAll gs)

variable {P : State → Prop} {s : State}

theorem forEach_keeps {α : Type} (l : List α) (f : α → State → State) (hf : ∀ a s, P s → P (f a s)) (h : P s) :
    P (forEach l f s) := by
  unfold forEach
  induction l generalizing s with
  | nil => exact h
  | cons a l ih => exact ih (hf a _ h)

/-- The same, where a step may use what a second property says that each step keeps. -/
theorem forEach_keeps_mem {α : Type} (l : List α) (f : α → State → State) (hf : ∀ a ∈ l, ∀ s, P s → P (f a s)) (h : P s) :
    P (forEach l f s) := by
  unfold forEach
  induction l generalizing s with
  | nil => exact h
  | cons a l ih => exact ih (fun b m => hf b (List.mem_cons_of_mem _ m)) (hf a (List.mem_cons_self ..) _ h)

namespace Calm

variable (K : Calm P)

include K

theorem hand1 (g : Signal) (c : Consequence g = true) (h : P s) : P (s.hand g) :=
  K.hand s [g] (by simpa using c) h

theorem handMap {α : Type} (l : List α) (f : α → Signal) (c : ∀ a, Consequence (f a) = true) (h : P s) :
    P (s.handAll (l.map f)) := K.hand s _ (by simp; exact fun a _ => c a) h

/-! ### Annunciation -/

theorem pulse (p : PointNo) (h : P s) : P (s.pulse p) := by
  unfold State.pulse; dsimp only
  repeat' split
  all_goals first | exact h | exact K.point _ _ _ h

omit K in
/-- An arrival reaches the watch bands, which no other handing writes. -/
theorem bandsTakeArrival (hb : ∀ s v, P s → P { s with au := { s.au with bands := v } }) (h : P s) : P s.bandsTakeArrival := by
  refine forEach_keeps _ _ (fun b s h => ?_) h
  dsimp only
  split <;> exact hb _ _ h

/-! ### Links -/

omit K in
theorem choose_link {s : State} {p : Port} {m : MsgBody} {take : Link → Link} (e : s.chooseMessage p = some (m, take))
    (x : Option InFlight) : LinkRel (s.link p) { take (s.link p) with inFlight := x } := by
  unfold State.chooseMessage at e
  dsimp only at e
  split at e
  · rename_i y rest he
    obtain ⟨-, rfl⟩ := Prod.mk.inj (Option.some.inj e)
    refine ⟨fun l => ⟨l.subjects, ?_, fun d => ?_⟩, rfl, rfl, rfl, rfl, rfl, rfl, rfl⟩
    · have := l.lines; rw [he] at this; exact (List.nodup_cons.1 this).2
    · have := (l.down d).2; rw [he] at this; exact absurd this (by simp)
  · rename_i m rest hi he
    obtain ⟨-, rfl⟩ := Prod.mk.inj (Option.some.inj e)
    refine ⟨fun l => ⟨?_, l.lines, fun d => ?_⟩, rfl, rfl, rfl, rfl, rfl, rfl, rfl⟩
    · have := l.subjects; rw [he] at this; exact (List.nodup_cons.1 this).2
    · have := (l.down d).1; rw [he] at this; exact absurd this (by simp)
  · split at e
    · obtain ⟨-, rfl⟩ := Prod.mk.inj (Option.some.inj e)
      exact ⟨fun l => ⟨l.subjects, l.lines, l.down⟩, rfl, rfl, rfl, rfl, rfl, rfl, rfl⟩
    · cases e

theorem transmit (p : Port) (h : P s) : P (s.transmit p) := by
  unfold State.transmit
  split
  · exact h
  · split
    · rename_i e; exact K.link _ _ _ (choose_link e _) h
    · exact h

theorem queueMessage (p : Port) (m : HoldMsg) (h : P s) : P (s.queueMessage p m) := by
  unfold State.queueMessage
  split
  · rename_i t
    refine K.transmit p (K.link _ _ _ ⟨fun l => ⟨queueBySubject_nodup m l.subjects, l.lines, fun d => ?_⟩, rfl, rfl, rfl,
      rfl, rfl, rfl, rfl⟩ h)
    simp_all
  · exact h

theorem chooseNext (p : Port) (h : P s) : P (s.chooseNext p) := by
  unfold State.chooseNext
  split
  · exact h
  · exact K.hand1 _ rfl h

theorem intertripDemand (p : Port) (line : Byte) (c : IntertripCause) (h : P s) : P (s.intertripDemand p line c) := by
  unfold State.intertripDemand
  split
  · rename_i t
    refine K.chooseNext p (K.link _ _ _ ⟨fun l => ⟨l.subjects, queueIntertrip_nodup line c l.lines, fun d => ?_⟩, rfl, rfl,
      rfl, rfl, rfl, rfl, rfl⟩ h)
    simp_all
  · exact K.pulse _ h

theorem intertripFor (k : FeederNo) (c : IntertripCause) (h : P s) : P (s.intertripFor k c) := by
  unfold State.intertripFor
  split
  · exact K.intertripDemand _ _ _ h
  · exact h

theorem beaconDue (p : Port) (h : P s) : P (s.beaconDue p) := by
  unfold State.beaconDue
  split
  · exact h
  · exact K.transmit p (K.link _ _ _ ⟨fun l => ⟨l.subjects, l.lines, l.down⟩, rfl, rfl, rfl, rfl, rfl, rfl, rfl⟩ h)

/-! ### Discrimination -/

theorem changeEngine (k : FeederNo) (f : Engine → Engine) (hf : EngineLaw (s.engine k) → EngineLaw (f (s.engine k)))
    (h : P s) : P (s.changeEngine k f) := by
  unfold State.changeEngine
  dsimp only
  have h' := K.engine s k (fun e => (f e).takeOver (s.feederSettings k) s.groupSource (s.fitted k))
    (fun l => (hf l).takeOver _ _ _) h
  split
  · exact h'
  · exact K.hand1 _ rfl h'

theorem engineClosing (k : FeederNo) (h : P s) : P (s.engineClosing k) := K.changeEngine k _ (fun l => l.cleared) h

theorem engineStop (k : FeederNo) (h : P s) : P (s.engineStop k) := K.changeEngine k _ (fun l => l.stop) h

theorem engineOpen (k : FeederNo) (h : P s) : P (s.engineOpen k) := by
  unfold State.engineOpen
  split
  · exact K.changeEngine k _ (fun l => l.cleared) h
  · exact h

theorem engineLosesCurrent (k : FeederNo) (h : P s) : P (s.engineLosesCurrent k) :=
  K.engine _ _ _ (fun l => l.loseCurrent) h

theorem wantSet (k : FeederNo) (w : SetSel) (h : P s) : P (s.wantSet k w) :=
  K.changeEngine k _ (fun l => by cases l; constructor <;> assumption) h

/-! ### Section Table -/

/-- A write that leaves the counts, the commanded state and the drive of a section. -/
theorem secSame (n : SectionNo) (f : SectionRec → SectionRec)
    (hf : ∀ r, (f r).isolate = r.isolate ∧ (f r).earth = r.earth ∧ (f r).noreclose = r.noreclose ∧
      (f r).commandedClosed = r.commandedClosed ∧ (f r).drive = r.drive) (h : P s) : P (s.modSec n f) :=
  K.sec _ _ _ (SecRel.of_same hf) h

theorem sectionsTakeArrival (valid : Half) (h : P s) : P (s.sectionsTakeArrival valid) := by
  refine forEach_keeps _ _ (fun n s h => ?_) h
  dsimp only
  split
  · exact K.secSame _ _ (fun _ => ⟨rfl, rfl, rfl, rfl, rfl⟩) h
  · exact h

theorem sectionLosesVoltage (n : SectionNo) (h : P s) : P (s.sectionLosesVoltage n) :=
  K.secSame _ _ (fun _ => ⟨rfl, rfl, rfl, rfl, rfl⟩) h

theorem deriveBusFeed (h : P s) : P s.deriveBusFeed := K.secSame _ _ (fun _ => ⟨rfl, rfl, rfl, rfl, rfl⟩) h

theorem deriveFeed (k : FeederNo) (h : P s) : P (s.deriveFeed k) :=
  K.deriveBusFeed (s := s.modSec _ _) (K.secSame _ _ (fun _ => ⟨rfl, rfl, rfl, rfl, rfl⟩) h)

theorem deriveBars (n : SectionNo) (h : P s) : P (s.deriveBars n) := K.secSame _ _ (fun _ => ⟨rfl, rfl, rfl, rfl, rfl⟩) h

theorem deriveAllBars (h : P s) : P s.deriveAllBars := forEach_keeps _ _ (fun n _ h => K.deriveBars n h) h

theorem deriveWanted (k : FeederNo) (h : P s) : P (s.deriveWanted k) := by
  unfold State.deriveWanted
  dsimp only
  repeat' split
  all_goals first | exact h | exact K.wantSet _ _ (K.secSame _ _ (fun _ => ⟨rfl, rfl, rfl, rfl, rfl⟩) h)

theorem setNeighbour (k : FeederNo) (b : NeighbourBreaker) (h : P s) : P (s.setNeighbour k b) := by
  unfold State.setNeighbour
  split
  · exact h
  · exact K.deriveWanted k (K.deriveFeed k (K.secSame _ _ (fun _ => ⟨rfl, rfl, rfl, rfl, rfl⟩) h))

/-- A command to CLOSED asks what R104 asks. -/
theorem commandEarth (k : FeederNo) (c : Bool)
    (hc : c = true → (s.sec (sectionOf k)).earth ≠ 0 ∧ s.breakerPos k = some .opened) (h : P s) : P (s.commandEarth k c) := by
  unfold State.commandEarth
  dsimp only
  split
  · exact h
  · have h1 : ∀ d t, (d = .close → c = true) → P (s.modSec (sectionOf k) fun r =>
        { r with commandedClosed := c, drive := d, mismatchTimer := t }) := fun d t hd => by
      refine K.sec _ _ _ ⟨rfl, rfl, rfl, fun _ e => ?_⟩ h
      obtain ⟨h1, h2⟩ := hc (hd e)
      refine ⟨hd e, h1, fun j ej => ?_⟩
      have : j = k := by simpa [sectionOf, Fin.ext_iff] using ej.symm
      rw [this]; exact h2
    have h2 := h1 (if atCommand c (s.earthPos k) = true then .none else if c = true then .close else .opened)
      (if atCommand c (s.earthPos k) = true then none else some 10000)
      (fun e => by
        cases c
        · split at e <;> cases e
        · rfl)
    cases c
    · exact K.deriveBars _ h2
    · exact K.handMap _ _ (fun _ => rfl) (K.deriveBars _ h2)

theorem earthOpenRequest (n : SectionNo) (h : P s) : P (s.earthOpenRequest n) := by
  unfold State.earthOpenRequest
  split
  · exact K.commandEarth _ _ (fun e => by cases e) h
  · exact h

theorem earthInterlock (k : FeederNo) (h : P s) : P (s.earthInterlock k) := by
  unfold State.earthInterlock
  dsimp only
  split
  · split
    · exact K.sec _ _ _ (SecRel.of_drop fun _ => ⟨rfl, rfl, rfl, fun e => by cases e⟩) h
    · exact h
  · rename_i hb
    split
    · rename_i c
      simp only [Bool.and_eq_true, decide_eq_true_eq] at c
      refine K.sec _ _ _ ⟨rfl, rfl, rfl, fun _ _ => ⟨c.1.1.2, c.1.2, fun j ej => ?_⟩⟩ h
      have : j = k := by simpa [sectionOf, Fin.ext_iff] using ej.symm
      rw [this]; exact Classical.byContradiction hb
    · exact h

theorem sectionTakesEarth (k : FeederNo) (pos : Pos) (h : P s) : P (s.sectionTakesEarth k pos) := by
  unfold State.sectionTakesEarth
  dsimp only
  split
  · refine K.deriveBars _ (K.sec _ _ _ (SecRel.of_drop fun r => ⟨rfl, rfl, rfl, fun e => ⟨?_, rfl⟩⟩) h)
    unfold earthAt at e
    dsimp only at e
    split at e <;> first | cases e | exact e
  · exact K.deriveBars _ h

theorem startEarth (k : FeederNo) (h : P s) : P (s.startEarth k) := by
  unfold State.startEarth
  dsimp only
  split
  · refine K.sec _ _ _ ⟨rfl, rfl, rfl, fun _ e => ?_⟩ h
    dsimp only at e ⊢
    split at e
    · cases e
    · split at e
      · cases e
      · rename_i hc
        split at e
        · rename_i ho
          simp only [Bool.and_eq_true, beq_iff_eq, decide_eq_true_eq] at ho
          refine ⟨by simpa using hc, ho.2, fun j ej => ?_⟩
          have : j = k := by simpa [sectionOf, Fin.ext_iff] using ej.symm
          rw [this]; exact ho.1
        · cases e
  · exact h

theorem countChanged (n : SectionNo) (h : P s) : P (s.countChanged n) := by
  unfold State.countChanged
  dsimp only
  split
  · exact K.handMap _ _ (fun _ => rfl) (K.deriveBars _ h)
  · exact K.handMap _ _ (fun _ => rfl) (K.deriveAllBars h)

end Calm

end Sys2Proof.Machine
end

