-- ==== Sys2Proof/Laws/KeepsSequencer.lean ====
section
/-! SUPPORT. What the operations of the breaker sequencers and of the arrival at an engine keep. -/

namespace Sys2Proof.Machine

open Sys2Proof

/-! ### The record a sequencer enters a state with -/

@[simp] theorem State.enter_seq (s : State) (k : FeederNo) (q : SeqState) (f : Sequencer → Sequencer) :
    (s.enter k q f).seq k = enterFields q (f (s.seq k)) := by
  unfold State.enter; dsimp only
  repeat' split
  all_goals simp [State.seq, State.modSeq, vget_set]

theorem State.enter_seq_ne (s : State) {k j : FeederNo} (h : j ≠ k) (q : SeqState) (f : Sequencer → Sequencer) :
    (s.enter k q f).seq j = s.seq j := by
  unfold State.enter; dsimp only
  repeat' split
  all_goals simp [State.seq, State.modSeq, vget_set, Ne.symm h]

theorem State.seq_congr {s t : State} (h : t.seqs = s.seqs) (k : FeederNo) : t.seq k = s.seq k := by
  simp [State.seq, h]

@[simp] theorem State.recordTrip_state (s : State) (k : FeederNo) (r : TripRecord) :
    ((s.recordTrip k r).seq k).state = (s.seq k).state := by
  unfold State.recordTrip; dsimp only
  split
  · simp
  · rw [State.seq_congr (State.pulse_seqs ..)]; simp

@[simp] theorem enterFields_state (q : SeqState) (r : Sequencer) : (enterFields q r).state = some q := rfl
@[simp] theorem enterFields_first (q : SeqState) (r : Sequencer) : (enterFields q r).first = r.first := rfl

variable {P : State → Prop} {s : State}

/-- A state from which a sequencer may leave for any other. -/
def Mobile : Option SeqState → Prop
  | some .breakerFault | some .lockout | some .notFitted => False
  | _ => True

namespace Calm

variable (K : Calm P)

include K

theorem enterRel (k : FeederNo) (q : SeqState) (f : Sequencer → Sequencer)
    (hr : SeqRel (s.seq k) (enterFields q (f (s.seq k)))) (h : P s) : P (s.enter k q f) := by
  unfold State.enter
  dsimp only
  generalize e : State.modSeq k _ s = t
  have h1 : P t := by rw [← e]; exact K.seq _ _ _ hr h
  have h2 : P (if q = .closing then t.engineClosing k
      else if (runsIn (s.seq k).state && !runsIn (some q)) = true then t.engineStop k else t) := by
    split
    · exact K.engineClosing k h1
    · split
      · exact K.engineStop k h1
      · exact h1
  split
  · exact h2
  · exact K.hand1 _ rfl h2

/-- A sequencer leaves a state that no rule holds it in. -/
theorem enter (k : FeederNo) (q : SeqState) (f : Sequencer → Sequencer) (hf : ∀ r, (f r).first = r.first)
    (hm : SequencerLaw (s.seq k) → Mobile (s.seq k).state) (h : P s) : P (s.enter k q f) :=
  K.enterRel k q f
    (SeqRel.enter (hf _) (fun l e => by have := hm l; simp [e, Mobile] at this)
      (fun l e => by have := hm l; simp [e, Mobile] at this) (fun l e => by have := hm l; simp [e, Mobile] at this)) h

theorem startOpenPulse (k : FeederNo) (h : P s) : P (s.startOpenPulse k) := by
  unfold State.startOpenPulse
  dsimp only
  refine K.seq _ _ _ (SeqRel.of_same rfl (fun l => ?_) (fun _ => rfl)) h
  cases l; constructor <;> first | assumption | simp

theorem beginClosing (k : FeederNo) (kind : CloseKind) (hm : SequencerLaw (s.seq k) → Mobile (s.seq k).state) (h : P s) :
    P (s.beginClosing k kind) := K.hand1 _ rfl (K.enter k _ _ (fun _ => rfl) hm h)

theorem seqToOpen (k : FeederNo) (hm : SequencerLaw (s.seq k) → Mobile (s.seq k).state) (h : P s) : P (s.seqToOpen k) :=
  K.enter k _ _ (fun _ => rfl) hm h

theorem seqToLockout (k : FeederNo) (hm : SequencerLaw (s.seq k) → Mobile (s.seq k).state) (h : P s) :
    P (s.seqToLockout k) := K.enter k _ _ (fun _ => rfl) hm h

theorem seqToLockoutFor (k : FeederNo) (c : TripCause) (hm : SequencerLaw (s.seq k) → Mobile (s.seq k).state) (h : P s) :
    P (s.seqToLockoutFor k c) := K.enter k _ _ (fun _ => rfl) hm h

theorem enterDeadTime (k : FeederNo) (hm : SequencerLaw (s.seq k) → Mobile (s.seq k).state) (h : P s) :
    P (s.enterDeadTime k) := K.enter k _ _ (fun _ => rfl) hm h

theorem restartDeadTime (k : FeederNo) (hm : SequencerLaw (s.seq k) → Mobile (s.seq k).state) (h : P s) :
    P (s.restartDeadTime k) := K.enter k _ _ (fun _ => rfl) hm h

theorem dropPulse (k : FeederNo) (h : P s) : P (s.modSeq k fun r => { r with openPulse := none }) := by
  refine K.seq _ _ _ (SeqRel.of_same rfl (fun l => ?_) (fun _ => rfl)) h
  cases l; constructor <;> assumption

theorem setAttempts (k : FeederNo) (f : Sequencer → Nat) (h : P s) : P (s.modSeq k fun r => { r with attempts := f r }) := by
  refine K.seq _ _ _ (SeqRel.of_same rfl (fun l => ?_) (fun _ => rfl)) h
  cases l; constructor <;> assumption

theorem recordTrip (k : FeederNo) (r : TripRecord) (h : P s) : P (s.recordTrip k r) := by
  unfold State.recordTrip
  dsimp only
  have h1 : P (s.modSeq k fun q =>
      { q with trips := satSucc 65535 q.trips, last := some r, first := if q.first.isNone then some r else q.first }) := by
    refine K.seq _ _ _ (SeqRel.of_same rfl (fun l => ?_) (fun e => ?_)) h
    · cases l; constructor <;> assumption
    · cases hf : (s.seq k).first <;> simp_all
  split
  · exact h1
  · exact K.pulse _ h1

theorem openConfirmed (k : FeederNo) (hm : SequencerLaw (s.seq k) → Mobile (s.seq k).state) (h : P s) :
    P (s.openConfirmed k) := by
  unfold State.openConfirmed
  dsimp only
  generalize e : State.engineOpen k _ = t
  have ht : P t := by rw [← e]; exact K.engineOpen _ (K.dropPulse k h)
  have hq : t.seq k = { s.seq k with openPulse := none } := by
    rw [← e, State.seq_congr (State.engineOpen_seqs ..)]; simp
  have hm' : SequencerLaw (t.seq k) → Mobile (t.seq k).state := fun l => by
    rw [hq] at l ⊢; exact hm (by cases l; constructor <;> assumption)
  split
  · exact K.seqToOpen k hm' ht
  · exact K.enter k _ _ (fun _ => rfl) hm' ht
  · refine K.enterDeadTime k (fun l => ?_) (K.setAttempts k (fun _ => _) ht)
    simp only [State.modSeq_seq] at l ⊢
    exact hm' (by cases l; constructor <;> assumption)

theorem seqTrip (k : FeederNo) (c : TripCause) (r : Option TripRecord)
    (hm : SequencerLaw (s.seq k) → Mobile (s.seq k).state) (h : P s) : P (s.seqTrip k c r) := by
  unfold State.seqTrip
  dsimp only
  generalize e : (State.startOpenPulse k (State.enter k .tripping (tripFields c) s)) = t
  have ht : P t ∧ (t.seq k).state = some .tripping := by
    rw [← e]; exact ⟨K.startOpenPulse k (K.enter k _ _ (fun _ => rfl) hm h), by simp [State.startOpenPulse]⟩
  generalize e2 : State.recordTrip k _ t = u
  have hu : P u ∧ (u.seq k).state = some .tripping := by
    rw [← e2]
    exact ⟨K.recordTrip k _ ht.1, by rw [State.recordTrip_state]; exact ht.2⟩
  have fin : ∀ v : State, P v ∧ (v.seq k).state = some .tripping →
      P (if v.breakerPos k = some .opened then v.openConfirmed k else v) := fun v hv => by
    split
    · exact K.openConfirmed k (fun _ => by rw [hv.2]; trivial) hv.1
    · exact hv.1
  cases intertripOf c with
  | none => exact fin u hu
  | some i => exact fin _ ⟨K.intertripFor _ _ hu.1, by rw [State.seq_congr (State.intertripFor_seqs ..)]; exact hu.2⟩

theorem override (k : FeederNo) (o : Override) (ht : (s.seq k).state = some .tripping) (h : P s) :
    P (s.modSeq k (overrideWith o)) := by
  refine K.seq _ _ _ (SeqRel.of_same rfl (fun l => ?_) (fun _ => rfl)) h
  cases l; constructor <;> first | assumption | exact fun _ => ht

theorem seqBackup (k : FeederNo) (h : P s) : P (s.seqBackup k) := by
  unfold State.seqBackup
  split
  all_goals (rename_i e)
  all_goals first
    | exact h
    | exact K.seqTrip k _ _ (fun _ => by rw [e]; trivial) h
    | exact K.seqToLockoutFor k _ (fun _ => by rw [e]; trivial) h
    | exact K.override k _ e h

theorem fault (k : FeederNo) (hb : (s.seq k).state ≠ some .notFitted) (h : P s) :
    P (s.enter k .breakerFault fun r => { r with failure := some .discrepant }) :=
  K.enterRel k _ _ (SeqRel.enter rfl (fun _ _ => rfl) (fun _ e => absurd e hb) (fun _ _ => .inr rfl)) h

theorem seqDiscrepant (k : FeederNo) (h : P s) : P (s.seqDiscrepant k) := by
  unfold State.seqDiscrepant
  dsimp only
  split
  all_goals (rename_i e)
  all_goals first
    | exact h
    | exact K.startOpenPulse k (K.fault k (by rw [e]; simp) h)
    | exact K.fault k (by rw [e]; simp) h

theorem beginLineTest (k : FeederNo) (kind : CloseKind) (hm : SequencerLaw (s.seq k) → Mobile (s.seq k).state) (h : P s) :
    P (s.beginLineTest k kind) := by
  unfold State.beginLineTest
  split
  · exact K.beginClosing k kind hm h
  · exact K.hand1 _ rfl (K.enter k _ _ (fun _ => rfl) hm h)

theorem waitFor (k : FeederNo) (w : WaitReason) (hd : SequencerLaw (s.seq k) → (s.seq k).state = some .deadTime) (h : P s) :
    P (s.waitFor k w) := by
  unfold State.waitFor
  dsimp only
  have h1 : P (s.modSeq k fun r => { r with wait := some w, deadTimer := none }) := by
    refine K.seq _ _ _ (fun l => ?_) h
    have e := hd l
    refine SeqRel.of_same rfl (fun l => ?_) (fun _ => rfl) l
    cases l; constructor <;> first | assumption | (intro _; exact e) | simp
  split
  · exact K.hand1 _ rfl h1
  · exact h1

theorem judgeDead (k : FeederNo) (hd : SequencerLaw (s.seq k) → (s.seq k).state = some .deadTime) (h : P s) :
    P (s.judgeDead k) := by
  have hm : SequencerLaw (s.seq k) → Mobile (s.seq k).state := fun l => by rw [hd l]; trivial
  unfold State.judgeDead
  split
  · exact K.seqToOpen k hm h
  · exact K.seqToLockout k hm h
  · exact K.waitFor k _ hd h
  · exact K.beginLineTest k _ hm h

theorem judgeWaits (k : FeederNo) (h : P s) : P (s.judgeWaits k) := by
  unfold State.judgeWaits State.seqIn
  split
  · rename_i e
    exact K.judgeDead k (fun _ => by simp only [Bool.and_eq_true, beq_iff_eq] at e; exact e.1) h
  · exact h

theorem seqRecloseBar (k : FeederNo) (h : P s) : P (s.seqRecloseBar k) := by
  unfold State.seqRecloseBar
  split
  · rename_i e; exact K.seqToLockout k (fun _ => by rw [e]; trivial) h
  · rename_i e
    split
    · exact K.seqToLockout k (fun _ => by rw [e]; trivial) h
    · exact h
  · exact h

theorem manualTestFailed (k : FeederNo) (hm : SequencerLaw (s.seq k) → Mobile (s.seq k).state) (h : P s) :
    P (s.manualTestFailed k) := K.pulse _ (K.enter k _ _ (fun _ => rfl) hm h)

theorem automaticTestFailed (k : FeederNo) (hm : SequencerLaw (s.seq k) → Mobile (s.seq k).state) (h : P s) :
    P (s.automaticTestFailed k) := by
  unfold State.automaticTestFailed
  dsimp only
  generalize e : State.modSeq k _ s = t
  have ht : P t := by
    rw [← e]
    refine K.seq _ _ _ (SeqRel.of_same rfl (fun l => ?_) (fun _ => rfl)) h
    cases l; constructor <;> assumption
  have hm' : SequencerLaw (t.seq k) → Mobile (t.seq k).state := fun l => by
    rw [← e] at l ⊢
    simp only [State.modSeq_seq] at l ⊢
    exact hm (by cases l; constructor <;> assumption)
  split
  · exact K.seqToLockout k hm' ht
  · exact K.enterDeadTime k hm' ht

theorem judgeTest (k : FeederNo) (hm : SequencerLaw (s.seq k) → Mobile (s.seq k).state) (h : P s) : P (s.judgeTest k) := by
  unfold State.judgeTest
  dsimp only
  repeat' split
  all_goals first
    | exact K.manualTestFailed k hm h
    | exact K.beginClosing k _ hm h
    | exact K.automaticTestFailed k hm h
    | exact K.waitFor k _ (fun _ => by simp) (K.enter k _ _ (fun _ => rfl) hm h)

theorem closingComplete (k : FeederNo) (hm : SequencerLaw (s.seq k) → Mobile (s.seq k).state) (h : P s) :
    P (s.closingComplete k) := K.enter k _ _ (fun _ => rfl) hm h

theorem seqTakesPosition (k : FeederNo) (pos : Pos) (h : P s) : P (s.seqTakesPosition k pos) := by
  unfold State.seqTakesPosition
  dsimp only
  cases pos
  · dsimp only
    split
    · rename_i e
      split
      · exact K.seqTrip k _ _ (fun _ => by rw [e]; trivial) h
      · exact K.closingComplete k (fun _ => by rw [e]; trivial) h
    · exact K.pulse _ h
    · exact K.pulse _ h
    · rename_i e
      exact K.seqToLockout k (fun _ => by rw [State.seq_congr (State.pulse_seqs ..), e]; trivial) (K.pulse _ h)
    · rename_i e
      exact K.seqToLockout k (fun _ => by rw [State.seq_congr (State.pulse_seqs ..), e]; trivial) (K.pulse _ h)
    · exact h
  · dsimp only
    generalize e : State.engineOpen k _ = t
    have ht : P t := by rw [← e]; exact K.engineOpen k (K.dropPulse k h)
    split
    · rename_i e; exact K.seqTrip k _ _ (fun _ => by rw [e]; trivial) ht
    · rename_i e; exact K.openConfirmed k (fun _ => by rw [e]; trivial) ht
    · exact ht
  · dsimp only
    split
    · rename_i e; exact K.seqTrip k _ _ (fun _ => by rw [e]; trivial) h
    · exact h
  · exact K.seqDiscrepant k h

theorem correctiveOpen (k : FeederNo) (h : P s) : P (s.correctiveOpen k) := by
  unfold State.correctiveOpen
  split
  · exact h
  · exact K.startOpenPulse k h

theorem seqHoldDemand (k : FeederNo) (h : P s) : P (s.seqHoldDemand k) := by
  unfold State.seqHoldDemand
  split
  all_goals (rename_i e)
  all_goals first
    | exact h
    | exact K.seqTrip k _ _ (fun _ => by rw [e]; trivial) h
    | exact K.override k _ e h
    | exact K.seqToOpen k (fun _ => by rw [e]; trivial) h
    | exact K.correctiveOpen k h
    | skip
  refine K.seq _ _ _ (SeqRel.of_same rfl (fun l => ?_) (fun _ => rfl)) h
  cases l; constructor <;> first | assumption | (intro _; exact e) | simp

theorem seqEmergency (k : FeederNo) (h : P s) : P (s.seqEmergency k) := by
  unfold State.seqEmergency
  split
  all_goals (rename_i e)
  all_goals first
    | exact h
    | exact K.seqTrip k _ _ (fun _ => by rw [e]; trivial) h
    | exact K.override k _ e h
    | exact K.seqToLockoutFor k _ (fun _ => by rw [e]; trivial) h

theorem seqIntertrip (k : FeederNo) (h : P s) : P (s.seqIntertrip k) := by
  unfold State.seqIntertrip
  dsimp only
  have hp := K.pulse 55 h
  generalize s.pulse 55 = t at hp
  split
  all_goals (rename_i e)
  all_goals first
    | exact hp
    | exact K.seqTrip k _ _ (fun _ => by rw [e]; trivial) hp
    | exact K.restartDeadTime k (fun _ => by rw [e]; trivial) hp
    | skip
  split
  · exact K.restartDeadTime k (fun _ => by rw [e]; trivial) hp
  · exact hp

theorem seqLosesCurrent (k : FeederNo) (h : P s) : P (s.seqLosesCurrent k) := by
  unfold State.seqLosesCurrent
  split
  all_goals (rename_i e)
  all_goals first
    | exact h
    | exact K.seqTrip k _ _ (fun _ => by rw [e]; trivial) h
    | exact K.override k _ e h
    | exact K.seqToLockoutFor k _ (fun _ => by rw [e]; trivial) h

theorem seqLosesVoltage (k : FeederNo) (h : P s) : P (s.seqLosesVoltage k) := by
  unfold State.seqLosesVoltage
  split
  · rename_i e
    split
    · exact K.manualTestFailed k (fun _ => by rw [e]; trivial) h
    · exact K.seqToLockout k (fun _ => by rw [e]; trivial) h
  · exact h

theorem engineTakesArrival (k : FeederNo) (valid : Half) (h : P s) : P (s.engineTakesArrival k valid) := by
  unfold State.engineTakesArrival
  split
  · exact h
  · dsimp only
    refine K.engine _ _ _ (fun l => l.push _) ?_
    generalize e : State.changeEngine k _ s = t
    have ht : P t := by
      rw [← e]; exact K.changeEngine k _ (fun l => (l.warm _).judgeHeat _) h
    split
    · rename_i c
      have hs : Mobile (t.seq k).state := by
        simp only [Bool.and_eq_true] at c
        cases hq : (t.seq k).state with
        | none => trivial
        | some q => have := c.1; rw [hq] at this; cases q <;> simp_all [runsIn, Mobile]
      split
      · refine K.seqTrip k _ _ (fun _ => hs) (K.engine _ _ _ (fun l => ?_) ht)
        exact (l.judgeCriteria _).trip
      · exact K.changeEngine k _ (fun l => l.judgeCriteria _) ht
    · exact ht

end Calm

end Sys2Proof.Machine
end

