-- ==== Sys2Proof/Laws/KeepsUnits.lean ====
section
/-! SUPPORT. What the operations of the rectifier group keep. -/

namespace Sys2Proof.Machine

open Sys2Proof

variable {P : State → Prop} {s : State}

/-! ### The rectifier group's pure changes -/

theorem groupRuns_ne {q : RectState} (h : groupRuns q = true) : q ≠ .tripped := by rintro rfl; simp [groupRuns] at h

theorem delivering_ne {q : RectState} (h : delivering q = true) : q ≠ .tripped := by rintro rfl; simp [delivering] at h

theorem holdsBus_ne {q : RectState} (h : holdsBus q = true) : q ≠ .tripped := by rintro rfl; simp [holdsBus] at h

theorem rampStep_delivers (set : RectSettings) (u : Int) (r : Rectifier) (h : delivering r.state = true) :
    delivering (rampStep set u r).1 = true := by
  unfold rampStep
  split
  · dsimp only; split <;> rfl
  · exact h

theorem limitStep_delivers (i : Nat) (ir : Int) (q : RectState) (h : delivering q = true) :
    delivering (limitStep i ir q).1 = true := by
  unfold limitStep
  repeat' split
  all_goals first | rfl | exact h

theorem regulate_delivers (set : RectSettings) (lo hi : Nat) (ub ir : Int) (r : Rectifier) (h : delivering r.state = true) :
    delivering (regulate set lo hi ub ir r).state = true :=
  limitStep_delivers _ _ _ (rampStep_delivers _ _ _ h)

theorem RectifierLaw.delivering_none {r : Rectifier} (l : RectifierLaw r) (h : delivering r.state = true) :
    r.cause = none ∧ r.tripTime = none ∧ r.syncCount = none ∧ r.syncTimer = none ∧ r.wakeTimer = none := by
  refine ⟨?_, ?_, ?_, ?_, ?_⟩
  · cases e : r.cause with
    | none => rfl
    | some _ => have := l.cause (by simp [e]); simp [this, delivering] at h
  · cases e : r.tripTime with
    | none => rfl
    | some _ => have := l.tripTime (by simp [e]); simp [this, delivering] at h
  · cases e : r.syncCount with
    | none => rfl
    | some _ => have := l.syncCount (by simp [e]); simp [this, delivering] at h
  · cases e : r.syncTimer with
    | none => rfl
    | some _ => have := l.syncTimer (by simp [e]); simp [this, delivering] at h
  · cases e : r.wakeTimer with
    | none => rfl
    | some _ => have := l.wakeTimer (by simp [e]); simp [this, delivering] at h

theorem RectRel.regulate (set : RectSettings) (lo hi : Nat) (ub ir : Int) (r : Rectifier) (h : delivering r.state = true) :
    RectRel r (Machine.regulate set lo hi ub ir r) := fun l => by
  have hd := regulate_delivers set lo hi ub ir r h
  obtain ⟨h1, h2, h3, h4, h5⟩ := l.delivering_none h
  refine ⟨⟨fun e => ?_, fun e => ?_, fun e => ?_, fun e => ?_, fun e => ?_, fun e => ?_, fun _ => hd⟩, fun e => absurd e (delivering_ne h)⟩
  · have : (Machine.regulate set lo hi ub ir r).cause = r.cause := rfl
    simp [this, h1] at e
  · have : (Machine.regulate set lo hi ub ir r).tripTime = r.tripTime := rfl
    simp [this, h2] at e
  · unfold Machine.regulate at e ⊢
    dsimp only at e ⊢
    split at e
    · assumption
    · simp at e
  · have : (Machine.regulate set lo hi ub ir r).syncCount = r.syncCount := rfl
    simp [this, h3] at e
  · have : (Machine.regulate set lo hi ub ir r).syncTimer = r.syncTimer := rfl
    simp [this, h4] at e
  · have : (Machine.regulate set lo hi ub ir r).wakeTimer = r.wakeTimer := rfl
    simp [this, h5] at e

namespace Calm

variable (K : Calm P)

include K

/-! ### Rectifier group -/

/-- A change that leaves the state and what stands in a state only. -/
theorem rectSame (f : Rectifier → Rectifier) (hs : (f s.rect).state = s.rect.state) (hc : (f s.rect).cause = s.rect.cause)
    (ht : (f s.rect).tripTime = s.rect.tripTime) (hl : RectifierLaw s.rect → RectifierLaw (f s.rect)) (h : P s) :
    P (s.modRect f) := K.rect _ _ (RectRel.of_same hs hc ht hl) h

theorem rectEnter (q : RectState) (f : Rectifier → Rectifier) (hn : RectifierLaw s.rect → s.rect.state ≠ .tripped) (h : P s) :
    P (s.rectEnter q f) := by
  unfold State.rectEnter
  dsimp only
  have h1 : P (s.modRect fun r => rectFields s.store.cfg.alphaMax q (f r)) := K.rect _ _ (RectRel.enter hn) h
  split
  · exact h1
  · exact K.hand1 _ rfl h1

theorem startAcDrive (h : P s) : P s.startAcDrive := by
  unfold State.startAcDrive
  split
  · exact h
  · exact K.rectSame _ rfl rfl rfl (fun l => by cases l; constructor <;> assumption) h

theorem rectTrip (c : RectCause) (h : P s) : P (s.rectTrip c) := by
  unfold State.rectTrip
  split
  · exact h
  · rename_i e; exact K.rectEnter _ _ (fun _ => e) h

theorem rectTripRunning (c : RectCause) (h : P s) : P (s.rectTripRunning c) := by
  unfold State.rectTripRunning
  split
  · exact K.rectTrip c h
  · exact h

theorem rectDemand (c : RectCause) (h : P s) : P (s.rectDemand c) := K.startAcDrive (K.rectTrip c h)

theorem rectStop (hn : RectifierLaw s.rect → s.rect.state ≠ .tripped) (h : P s) : P s.rectStop := by
  unfold State.rectStop
  split
  · exact h
  · exact K.rectEnter _ _ hn h

theorem rectBusHold (h : P s) : P s.rectBusHold := by
  refine K.startAcDrive ?_
  split
  · rename_i e; exact K.rectStop (fun _ => groupRuns_ne e) h
  · exact h

theorem rectTakesAc (pos : Pos) (h : P s) : P (s.rectTakesAc pos) := by
  unfold State.rectTakesAc
  dsimp only
  cases pos <;> dsimp only
  · simp only [reduceIte]
    split
    · exact K.startAcDrive h
    · exact h
  · simp only [reduceCtorEq, reduceIte]
    exact K.rectTripRunning _ (K.rectSame _ rfl rfl rfl (fun l => by cases l; constructor <;> assumption) h)
  · exact K.rectTripRunning _ h
  · exact K.rectTripRunning _ h

theorem enterSyncing (hn : RectifierLaw s.rect → s.rect.state ≠ .tripped) (h : P s) : P s.enterSyncing :=
  K.rectEnter _ _ hn h

theorem enterRamping (hn : RectifierLaw s.rect → s.rect.state ≠ .tripped) (h : P s) : P s.enterRamping :=
  K.rectEnter _ _ hn h

theorem rectWake (h : P s) : P s.rectWake := by
  unfold State.rectWake
  split
  · rename_i e
    split
    · exact K.enterRamping (fun _ => by rw [e]; simp) h
    · exact K.enterSyncing (fun _ => by rw [e]; simp) h
  · exact h

theorem judgeBridges (h : P s) : P s.judgeBridges := by
  unfold State.judgeBridges
  dsimp only
  generalize e : State.modRect _ s = t
  have ht : P t := by
    rw [← e]; exact K.rectSame _ rfl rfl rfl (fun l => by cases l; constructor <;> assumption) h
  have lose : ∀ b, P (t.modRect (loseBridge b)) := fun b => by
    refine K.rectSame _ rfl rfl rfl (fun l => ⟨l.cause, l.tripTime, l.ramp, l.syncCount, l.syncTimer, l.wakeTimer, fun e => ?_⟩) ht
    refine l.pulses fun c => e ?_
    simp [loseBridge, c]
  repeat' split
  all_goals first | exact K.rectTrip _ ht | exact lose _ | exact ht

theorem judgeBusFault (i : Nat) (h : P s) : P (s.judgeBusFault i) := by
  unfold State.judgeBusFault
  dsimp only
  generalize (if s.busFaultMet i = true then s.rect.busFault + 1 else 0) = n
  generalize e : State.modRect _ s = t
  have ht : P t := by
    rw [← e]; exact K.rectSame _ rfl rfl rfl (fun l => by cases l; constructor <;> assumption) h
  split
  · exact K.pulse _ (K.handMap allFeeders Signal.backupTo (fun _ => rfl) (K.rectTrip _ ht))
  · exact ht

theorem judgeTemperature (h : P s) : P s.judgeTemperature := by
  unfold State.judgeTemperature
  split
  · exact K.rectTripRunning _ h
  · exact h

theorem takeSettings (h : P s) : P s.takeSettings := by
  unfold State.takeSettings
  exact K.rectSame _ rfl rfl rfl (fun l => by cases l; constructor <;> assumption) h

theorem rectTakesArrival (valid : Half) (h : P s) : P (s.rectTakesArrival valid) := by
  unfold State.rectTakesArrival
  dsimp only
  have h0 : P s.takeSettings := K.takeSettings h
  generalize s.takeSettings = s at h0
  have wake : ∀ {t : State}, P t → ∀ c : Bool, P (if t.rect.state = .standby ∧ c = true then
      t.modRect (wakeJudge t.rectSettings (t.channel chUB).value) else t) := fun {t} ht c => by
    split
    · rename_i e
      refine K.rectSame _ ?_ ?_ ?_ (fun l => ?_) ht
      · unfold wakeJudge; split <;> rfl
      · unfold wakeJudge; split <;> rfl
      · unfold wakeJudge; split <;> rfl
      · have e := e.1
        unfold wakeJudge; split <;> (cases l; constructor <;> first | assumption | exact fun _ => e)
    · exact ht
  refine wake ?_ _
  have temp : ∀ {t : State}, P t → ∀ c : Bool, P (if c = true then t.judgeTemperature else t) := fun {t} ht c => by
    split
    · exact K.judgeTemperature ht
    · exact ht
  refine temp ?_ _
  have fault : ∀ {t : State}, P t → ∀ c : Bool, P (if c = true then t.judgeBusFault
      (effectiveLimit s.rectSettings s.rect.degraded) else t) := fun {t} ht c => by
    split
    · exact K.judgeBusFault _ ht
    · exact ht
  refine fault ?_ _
  have bridges : ∀ {t : State}, P t → ∀ c : Bool, P (if c = true then t.judgeBridges else t) := fun {t} ht c => by
    split
    · exact K.judgeBridges ht
    · exact ht
  refine bridges ?_ _
  split
  · rename_i e
    simp only [Bool.and_eq_true] at e
    have h1 : P (s.modRect (regulate s.rectSettings s.store.cfg.alphaMin s.store.cfg.alphaMax (s.channel chUB).value
      s.rectCurrent)) := K.rect _ _ (RectRel.regulate _ _ _ _ _ _ e.1.1.1) h0
    split
    · exact h1
    · exact K.hand1 _ rfl h1
  · exact h0

end Calm

end Sys2Proof.Machine
end

