-- ==== Sys2Proof/Laws/KeepsHolds.lean ====
section
/-! SUPPORT. What the operations of the hold table keep. A change of the table counts as one write together with the counts that
follow it (R101); the last section says that a property that survives any write of the table and of the sections survives each of
these. -/

namespace Sys2Proof.Machine

open Sys2Proof

variable {P : State → Prop} {s : State}

/-! ### The hold of an ID -/

theorem State.hold_id {id : Byte} {h : Hold} (e : s.hold id = some h) : h.id = id := by
  simpa using List.find?_some e

theorem State.hold_mem {id : Byte} {h : Hold} (e : s.hold id = some h) : h ∈ s.ht.holds := List.mem_of_find?_eq_some e

theorem State.hold_congr {t : State} (h : t.ht = s.ht) (id : Byte) : t.hold id = s.hold id := by unfold State.hold; rw [h]

theorem find_map_id (l : List Hold) (id : Byte) (f : Hold → Hold) (hf : ∀ h, (l.find? fun h => h.id == id) = some h → (f h).id = id) :
    ((l.map fun h => if h.id = id then f h else h).find? fun h => h.id == id) = (l.find? fun h => h.id == id).map f := by
  induction l with
  | nil => rfl
  | cons a l ih =>
    by_cases e : a.id = id
    · have := hf a (by simp [e])
      simp [e, this]
    · simp only [List.map_cons, e, reduceIte]
      rw [List.find?_cons_of_neg (by simpa using e), List.find?_cons_of_neg (by simpa using e)]
      exact ih fun h m => hf h (by rw [List.find?_cons_of_neg (by simpa using e)]; exact m)

/-- The hold of an ID after a change of its record that leaves its ID. -/
theorem State.modHold_hold {id : Byte} {f : Hold → Hold} {h : Hold} (e : s.hold id = some h) (hf : (f h).id = id) :
    (s.modHold id f).hold id = some (f h) := by
  have : (s.modHold id f).hold id = (s.hold id).map f :=
    find_map_id s.ht.holds id f fun x m => by rw [show s.hold id = some x from m] at e; cases e; exact hf
  rw [this, e]; rfl

/-- A change of a record that leaves who it is, what it covers and whether it is FAILED. -/
theorem HoldRel.of_same {a b : Hold} (hid : b.id = a.id) (ho : b.origin = a.origin) (ht : b.tag = a.tag) (hk : b.kind = a.kind)
    (hs : b.sections = a.sections) (hq : b.state = a.state) (hp : b.purpose = a.purpose) (hf : b.phase = a.phase) :
    HoldRel a b :=
  ⟨hid, ho, ht, hk, hs, fun _ => by rw [hq], fun l =>
    ⟨hs ▸ l.sections, by rw [hp, hq]; exact l.purpose, by rw [hf, hq]; exact l.phase, by rw [hp, hk]; exact l.convert⟩⟩

/-- A record that stands takes another state, in which neither purpose nor phase stands. -/
theorem HoldRel.of_state {a b : Hold} (hid : b.id = a.id) (ho : b.origin = a.origin) (ht : b.tag = a.tag) (hk : b.kind = a.kind)
    (hs : b.sections = a.sections) (ha : a.state ≠ .failed) (hb : b.state ≠ .failed)
    (hp : HoldLaw a → b.purpose = none) (hf : HoldLaw a → b.phase = none) : HoldRel a b :=
  ⟨hid, ho, ht, hk, hs, fun _ => ⟨fun e => absurd e hb, fun e => absurd e ha⟩, fun l =>
    ⟨hs ▸ l.sections, by rw [hp l]; simp, by rw [hf l]; simp, by rw [hp l]; simp⟩⟩

/-- Outside RELEASING neither purpose nor phase stands. -/
theorem HoldLaw.none {h : Hold} (l : HoldLaw h) (e : h.state ≠ .releasing) : h.purpose = none ∧ h.phase = none :=
  ⟨Option.not_isSome_iff_eq_none.1 fun c => e (l.purpose c), Option.not_isSome_iff_eq_none.1 fun c => e (l.phase c)⟩

@[simp] theorem modAsks_id (p : Port) (f : PeerAsk → PeerAsk) (h : Hold) : (modAsks p f h).id = h.id := rfl
@[simp] theorem modAsks_state (p : Port) (f : PeerAsk → PeerAsk) (h : Hold) : (modAsks p f h).state = h.state := rfl
@[simp] theorem modAsks_origin (p : Port) (f : PeerAsk → PeerAsk) (h : Hold) : (modAsks p f h).origin = h.origin := rfl

theorem HoldRel.modAsks (p : Port) (f : PeerAsk → PeerAsk) (h : Hold) : HoldRel h (Machine.modAsks p f h) :=
  HoldRel.of_same rfl rfl rfl rfl rfl rfl rfl rfl

theorem HoldRel.active {h : Hold} (ha : h.state ≠ .failed) (hr : h.state ≠ .releasing) : HoldRel h (activeHold h) :=
  HoldRel.of_state rfl rfl rfl rfl rfl ha (by simp [activeHold]) (fun l => (l.none hr).1) (fun l => (l.none hr).2)

namespace Keeps

variable (K : Keeps P)

include K

/-- A change of one record that leaves all that its counts and its law look at. -/
theorem holdSame (id : Byte) (f : Hold → Hold)
    (hf : ∀ h, (f h).id = h.id ∧ (f h).origin = h.origin ∧ (f h).tag = h.tag ∧ (f h).kind = h.kind ∧
      (f h).sections = h.sections ∧ (f h).state = h.state ∧ (f h).purpose = h.purpose ∧ (f h).phase = h.phase)
    (h : P s) : P (s.modHold id f) :=
  K.hold _ _ _ (fun x _ => by obtain ⟨a, b, c, d, e, g, i, j⟩ := hf x; exact HoldRel.of_same a b c d e g i j) h

theorem asks (id : Byte) (p : Port) (f : PeerAsk → PeerAsk) (h : P s) : P (s.modHold id (modAsks p f)) :=
  K.hold _ _ _ (fun x _ => HoldRel.modAsks p f x) h

/-- A hold becomes ACTIVE. -/
theorem active {id : Byte} {x : Hold} (e : s.hold id = some x) (ha : x.state ≠ .failed) (hr : x.state ≠ .releasing) (h : P s) :
    P (s.modHold id activeHold) :=
  K.hold _ _ _ (fun y m => by rw [e] at m; cases m; exact HoldRel.active ha hr) h

theorem requestEarths (l : List SectionNo) : ∀ {s : State}, P s → P (s.requestEarths l).1 := by
  induction l with
  | nil => exact fun h => h
  | cons n l ih =>
    intro s h
    unfold State.requestEarths
    split
    · exact ih h
    · split
      · rename_i k ha hk
        refine ih (K.commandEarth _ _ (fun _ => ?_) h)
        have hn : n = sectionOf k := by
          unfold feederOf at hk
          split at hk
          · cases hk; rfl
          · cases hk
        unfold State.earthAnswer at ha
        rw [hk] at ha
        dsimp only at ha
        repeat' split at ha
        all_goals first | cases ha | skip
        rename_i h1 h2
        rw [← hn]
        exact ⟨h1, Classical.byContradiction h2⟩
      · exact h

omit K in
theorem requestEarths_ht (l : List SectionNo) : ∀ s : State, (s.requestEarths l).1.ht = s.ht := by
  induction l with
  | nil => exact fun _ => rfl
  | cons n l ih =>
    intro s
    unfold State.requestEarths
    split
    · exact ih s
    · split
      · rw [ih]; simp
      · rfl

theorem judgeEarthing (id : Byte) (h : P s) : P (s.judgeEarthing id) := by
  unfold State.judgeEarthing
  split
  · rename_i x e
    split
    · rename_i c; exact K.active e (by rw [c.1]; simp) (by rw [c.1]; simp) h
    · exact h
  · exact h

theorem enterEarthing (id : Byte) (hs : ∀ x, s.hold id = some x → x.state ≠ .failed) (h : P s) : P (s.enterEarthing id) := by
  unfold State.enterEarthing
  dsimp only
  generalize e : State.modHold id _ s = t
  have ht : P t := by
    rw [← e]
    exact K.hold _ _ _ (fun x m => HoldRel.of_state rfl rfl rfl rfl rfl (hs x m) (by simp) (fun _ => rfl) (fun _ => rfl)) h
  split
  · have h1 := K.requestEarths (s := t) (by assumption : Hold).sections ht
    split
    · exact K.judgeEarthing _ h1
    · exact K.fail _ _ _ h1
  · exact ht

theorem enterProving (id : Byte) (hs : ∀ x, s.hold id = some x → x.state ≠ .failed ∧ x.state ≠ .releasing) (h : P s) :
    P (s.enterProving id) := by
  have h1 : ∀ t : Hold → HoldTimers, P (s.modHold id fun h => { h with state := .proving, timers := t h }) := fun t =>
    K.hold _ _ _ (fun x m => HoldRel.of_state rfl rfl rfl rfl rfl (hs x m).1 (by simp) (fun l => (l.none (hs x m).2).1)
      (fun l => (l.none (hs x m).2).2)) h
  unfold State.enterProving
  split
  · split
    · exact K.fail _ _ _ (h1 Hold.timers)
    · exact h1 _
  · exact h

theorem judgeProof (id : Byte) (h : P s) : P (s.judgeProof id) := by
  unfold State.judgeProof
  split
  · rename_i x e
    split
    · rename_i c
      split
      · exact K.enterEarthing _ (fun y m => by rw [e] at m; cases m; rw [c.1]; simp) h
      · exact K.active e (by rw [c.1]; simp) (by rw [c.1]; simp) h
    · exact h
  · exact h

theorem holdsTakeArrival (h : P s) : P s.holdsTakeArrival := forEach_keeps _ _ (fun _ _ h => K.judgeProof _ h) h

theorem holdsLoseVoltage (n : SectionNo) (h : P s) : P (s.holdsLoseVoltage n) :=
  forEach_keeps _ _ (fun _ _ h => K.fail _ _ _ h) h

theorem judgeHold (id : Byte) (h : P s) : P (s.judgeHold id) := by
  unfold State.judgeHold
  split
  · rename_i x e
    split
    · exact h
    · rename_i hq
      have hq : x.state = .securing := Classical.byContradiction hq
      have ha := K.active e (by rw [hq]; simp) (by rw [hq]; simp) h
      split
      · exact K.fail _ _ _ h
      · split
        · unfold State.secured
          split
          · exact K.queueMessage _ _ ha
          · split
            · exact ha
            · exact K.enterProving _ (fun y m => by rw [e] at m; cases m; rw [hq]; simp) h
        · exact h
  · exact h

theorem dropPhase (id : Byte) (hs : ∀ x, s.hold id = some x → HoldLaw x → x.state ≠ .failed) (h : P s) : P (s.dropPhase id) := by
  unfold State.dropPhase
  split
  · rename_i x e
    dsimp only
    generalize ew : forEach _ _ s = t
    have ht : P t := by rw [← ew]; exact forEach_keeps _ _ (fun _ _ h => K.queueMessage _ _ h) h
    have hh : t.ht = s.ht := by rw [← ew]; exact forEach_same (·.ht) _ _ s fun _ _ => by simp
    split
    · refine K.hold _ _ _ (fun y m => ?_) ht
      rw [State.hold_congr hh] at m
      exact ⟨rfl, rfl, rfl, rfl, rfl, fun l => ⟨fun c => by simp at c, fun c => absurd c (hs y m l)⟩, fun l =>
        ⟨l.sections, fun _ => rfl, fun _ => rfl, fun c => by cases c⟩⟩
    · exact K.retire _ _ ht
  · exact h

theorem judgeDrop (id : Byte) (h : P s) : P (s.judgeDrop id) := by
  unfold State.judgeDrop
  repeat' split
  all_goals first | exact h | exact K.retire _ _ h

theorem beginUnearth (id : Byte) (p : Purpose) (l : List SectionNo)
    (hs : ∀ x, s.hold id = some x → x.state ≠ .failed ∧ (p = .convert → x.kind = .earth)) (h : P s) :
    P (s.beginUnearth id p l) := by
  refine K.hand1 _ rfl (forEach_keeps _ _ (fun n _ h => K.earthOpenRequest n h) (K.hold _ _ _ (fun x m => ?_) h))
  exact ⟨rfl, rfl, rfl, rfl, rfl, fun _ => ⟨fun c => by simp at c, fun c => absurd c (hs x m).1⟩, fun l =>
    ⟨l.sections, fun _ => rfl, fun _ => rfl, fun c => (hs x m).2 (by simpa using c)⟩⟩

theorem releaseHold (id : Byte) (h : P s) : P (s.releaseHold id) := by
  unfold State.releaseHold
  split
  · rename_i x e
    have hm : P (s.modHold id fun h => { h with timers := noHoldTimers }) :=
      K.holdSame _ _ (fun _ => ⟨rfl, rfl, rfl, rfl, rfl, rfl, rfl, rfl⟩) h
    have hx := State.modHold_hold (f := fun h => { h with timers := noHoldTimers }) e (show x.id = id from State.hold_id e)
    have rel : x.state ≠ .failed →
        P (match (s.modHold id fun h => { h with timers := noHoldTimers }).unearthSet x with
          | [] => (s.modHold id fun h => { h with timers := noHoldTimers }).dropPhase id
          | set => (s.modHold id fun h => { h with timers := noHoldTimers }).beginUnearth id .retire set) := fun hq => by
      split
      · exact K.dropPhase _ (fun y m _ => by rw [hx] at m; cases m; exact hq) hm
      · exact K.beginUnearth _ _ _ (fun y m => by rw [hx] at m; cases m; exact ⟨hq, fun c => by cases c⟩) hm
    dsimp only
    split
    · rename_i q; exact rel (by rw [q]; simp)
    · rename_i q; exact rel (by rw [q]; simp)
    · rename_i q; exact rel (by rw [q]; simp)
    · rename_i q; exact rel (by rw [q]; simp)
    · rename_i q
      split
      · refine K.hold _ _ _ (fun y m => ?_) h
        rw [e] at m; cases m
        exact ⟨rfl, rfl, rfl, rfl, rfl, fun _ => Iff.rfl, fun l => ⟨l.sections, fun _ => q, l.phase, fun c => by cases c⟩⟩
      · exact h
    · exact h
  · exact h

theorem judgeUnearth (id : Byte) (h : P s) : P (s.judgeUnearth id) := by
  unfold State.judgeUnearth
  split
  · rename_i x e
    split
    · rename_i c
      have hr : HoldLaw x → x.state = .releasing := fun l => l.phase (by rw [c.1]; rfl)
      split
      · rename_i hp
        refine K.isolate _ _ _ _ e ⟨rfl, rfl, rfl, rfl, fun l => ⟨l.convert hp, by rw [hr l]; simp, by simp [activeHold]⟩,
          fun l => ⟨l.sections, fun c => by simp [activeHold] at c, fun c => by simp [activeHold] at c,
            fun c => by simp [activeHold] at c⟩⟩ h
      · exact K.dropPhase _ (fun y m l => by rw [e] at m; cases m; rw [hr l]; simp) h
    · exact h
  · exact h

theorem askAgain (p : Port) (h : P s) : P (s.askAgain p) := by
  refine forEach_keeps _ _ (fun id s h => ?_) h
  repeat' split
  all_goals first | exact h | exact K.queueMessage _ _ (K.asks _ _ _ h)

theorem endWaits (p : Port) (h : P s) : P (s.endWaits p) :=
  forEach_keeps _ _ (fun _ _ h => K.judgeDrop _ (K.asks _ _ _ h)) h

theorem violation (k : FeederNo) (b : Bool) (h : P s) : P (s.violation k b) := by
  unfold State.violation
  split
  · exact K.hand1 _ rfl (K.pulse _ h)
  · exact h

theorem earthLoss (k : FeederNo) (h : P s) : P (s.earthLoss k) := by
  unfold State.earthLoss
  split
  · exact K.pulse _ h
  · exact h

theorem holdsTakeEarth (k : FeederNo) (pos : Pos) (h : P s) : P (s.holdsTakeEarth k pos) := by
  unfold State.holdsTakeEarth
  dsimp only
  refine K.handMap _ _ (fun _ => rfl) (K.handMap _ _ (fun _ => rfl) ?_)
  split
  · exact K.earthLoss _ h
  · exact h

theorem refuseKey (n : KeyNo) (c : RefusalCode) (h : P s) : P (s.refuseKey n c) := K.pulse _ (K.key _ _ _ h)

omit K in
/-- R115: a placement of origin STATION or PANEL that is not refused has room. -/
theorem placeable_of_none {l : List SectionNo} {b : Bool} {o : Origin} {tag : Half} (e : s.placementRefusal l b = none)
    (hl : l.Nodup) (ho : peerPort o = none) : Placeable s o tag l := by
  refine ⟨?_, hl, fun p c => by rw [c] at ho; cases p <;> cases ho⟩
  unfold State.placementRefusal at e
  repeat' split at e
  all_goals first | exact Nat.lt_of_not_le (by assumption) | cases e

theorem keyPlaces (n : KeyNo) (kind : HoldKind) (h : P s) : P (s.keyPlaces n kind) := by
  unfold State.keyPlaces
  split
  · exact h
  · split
    · exact K.refuseKey _ _ h
    · rename_i e
      exact K.key _ _ _ (K.place _ _ _ _ _ _ (placeable_of_none e (by simp) rfl) h)

/-- R118: a new ASK whose ID no record of its port holds. -/
theorem placePeer (p : Port) (id line : Byte) (kind : HoldKind)
    (hn : ∀ h ∈ s.ht.holds, h.origin = peerOrigin p → h.tag ≠ id.setWidth 16) (h : P s) : P (s.placePeer p id line kind) := by
  unfold State.placePeer
  split
  · exact K.queueMessage _ _ h
  · rename_i e
    refine K.place _ _ _ _ _ _ ⟨?_, by simp, fun q c => ?_⟩ h
    all_goals
      unfold State.peerAnswer at e
      repeat' split at e
      all_goals first | cases e | skip
      rename_i hc _ _ _
      rw [not_or] at hc
    · exact Nat.lt_of_not_le hc.1
    · have : q = p := by cases p <;> cases q <;> first | rfl | cases c
      subst this
      exact ⟨Nat.lt_of_not_le hc.2, hn⟩

theorem keyReleases (id : Byte) (h : P s) : P (s.keyReleases id) := by
  unfold State.keyReleases
  repeat' split
  all_goals first | exact h | exact K.retire _ _ h | exact K.releaseHold _ h

omit K in
theorem earthHold_hold {id : Byte} {x : Hold} (e : s.hold id = some x) :
    (s.earthHold id x).hold id = some { x with kind := .earth } := by
  unfold State.earthHold
  rw [State.hold_congr (s := s.modHold id fun x => { x with kind := .earth })
    (forEach_same (·.ht) _ _ _ fun _ _ => by simp)]
  exact State.modHold_hold (f := fun x => { x with kind := .earth }) e (show x.id = id from State.hold_id e)

theorem keyEarths (id : Byte) (h : P s) : P (s.keyEarths id) := by
  unfold State.keyEarths
  split
  · rename_i x e
    split
    · rename_i q k; exact K.earthen _ _ _ e k (by rw [q]; simp) h
    · rename_i q k; exact K.earthen _ _ _ e k (by rw [q]; simp) h
    · rename_i q k
      have h1 := K.earthen _ _ _ e k (by rw [q]; simp) h
      have hx := earthHold_hold e
      dsimp only
      split
      · exact K.enterEarthing _ (fun y m => by rw [hx] at m; cases m; rw [q]; simp) h1
      · exact K.enterProving _ (fun y m => by rw [hx] at m; cases m; rw [q]; simp) h1
    · rename_i q _ _; exact K.enterEarthing _ (fun y m => by rw [e] at m; cases m; rw [q]; simp) h
    · exact h
  · exact h

theorem keyIsolates (id : Byte) (h : P s) : P (s.keyIsolates id) := by
  unfold State.keyIsolates
  split
  · rename_i x e
    split
    · exact h
    · rename_i hk
      have hk : x.kind = .earth := Classical.byContradiction hk
      have keep : x.state ≠ .failed → x.state ≠ .releasing → P (s.isolateHold id x fun y => y) := fun hf hr =>
        K.isolate _ _ _ _ e ⟨rfl, rfl, rfl, rfl, fun _ => ⟨hk, hf, hf⟩, fun l =>
          ⟨l.sections, l.purpose, l.phase, fun c => by rw [(l.none hr).1] at c; cases c⟩⟩ h
      have stop : x.state ≠ .failed → x.state ≠ .releasing → P (match s.unearthSet x with
          | [] => s.isolateHold id x activeHold
          | set => s.beginUnearth id .convert set) := fun hf hr => by
        split
        · exact K.isolate _ _ _ _ e ⟨rfl, rfl, rfl, rfl, fun _ => ⟨hk, hf, by simp [activeHold]⟩, fun l => by
            obtain ⟨h1, h2⟩ := l.none hr
            exact ⟨l.sections, fun c => by simp [activeHold, h1] at c, fun c => by simp [activeHold, h2] at c,
              fun c => by simp [activeHold, h1] at c⟩⟩ h
        · exact K.beginUnearth _ _ _ (fun y m => by rw [e] at m; cases m; exact ⟨hf, fun _ => hk⟩) h
      split
      · rename_i q; exact keep (by rw [q]; simp) (by rw [q]; simp)
      · rename_i q; exact keep (by rw [q]; simp) (by rw [q]; simp)
      · rename_i q; exact stop (by rw [q]; simp) (by rw [q]; simp)
      · rename_i q; exact stop (by rw [q]; simp) (by rw [q]; simp)
      · exact h
      · exact h
  · exact h

theorem keyMove (n : KeyNo) (pos : KeyPos) (h : P s) : P (s.keyMove n pos) := by
  unfold State.keyMove
  dsimp only
  repeat' split
  all_goals first
    | exact K.keyPlaces _ _ (K.key _ _ _ h)
    | exact K.keyReleases _ (K.key _ _ _ (K.key _ _ _ h))
    | exact K.key _ _ _ (K.key _ _ _ h)
    | exact K.keyEarths _ (K.key _ _ _ h)
    | exact K.keyIsolates _ (K.key _ _ _ h)
    | exact K.key _ _ _ h

end Keeps

/-! ### Any write of the table and of the sections -/

namespace Any

variable (A : Any P)

include A

theorem calm : Calm P where
  engine := A.engine
  seq := A.seq
  rect := A.rect
  sec s _ _ _ h := A.sec s _ _ h
  key s _ _ h := A.table s _ h
  link := A.link
  point := A.point
  hand := A.hand

/-- The Hold Table hands a table to the Settings Store. -/
theorem handTable (l : List Hold) (id : Byte) (h : P s) : P (s.handTable l id) :=
  A.banks { s with ht := { s.ht with holds := l, lastId := id } } _ _ (A.table _ _ h)

theorem hold (id : Byte) (f : Hold → Hold) (h : P s) : P (s.modHold id f) := A.handTable _ _ h

theorem commandEarth (k : FeederNo) (c : Bool) (h : P s) : P (s.commandEarth k c) := by
  unfold State.commandEarth
  dsimp only
  repeat' split
  all_goals first
    | exact h
    | exact A.calm.handMap _ _ (fun _ => rfl) (A.calm.deriveBars _ (A.sec _ _ _ h))
    | exact A.calm.deriveBars _ (A.sec _ _ _ h)

theorem raiseIsolate (n : SectionNo) (h : P s) : P (s.raiseIsolate n) := by
  have K := A.calm
  unfold State.raiseIsolate
  refine K.countChanged n ?_
  have h1 := A.sec s n (fun r => { r with isolate := r.isolate + 1 }) h
  repeat' split
  all_goals first
    | exact K.hand1 _ rfl (K.handMap _ _ (fun _ => rfl) h1)
    | exact K.handMap _ _ (fun _ => rfl) h1
    | exact K.hand1 _ rfl h1
    | exact h1

theorem lowerIsolate (n : SectionNo) (h : P s) : P (s.lowerIsolate n) := A.calm.countChanged n (A.sec _ _ _ h)

theorem raiseEarth (n : SectionNo) (h : P s) : P (s.raiseEarth n) := by
  unfold State.raiseEarth
  split
  · exact A.calm.countChanged n (A.sec _ _ _ h)
  · exact h

theorem lowerEarth (n : SectionNo) (h : P s) : P (s.lowerEarth n) := by
  unfold State.lowerEarth
  dsimp only
  split
  · split
    · exact A.commandEarth _ _ (A.calm.countChanged n (A.sec _ _ _ h))
    · exact A.calm.countChanged n (A.sec _ _ _ h)
  · exact h

theorem raiseCounts (kind : HoldKind) (n : SectionNo) (h : P s) : P (s.raiseCounts kind n) := by
  have K := A.calm
  cases kind
  · exact A.raiseIsolate n h
  · exact A.raiseEarth n (A.raiseIsolate n h)
  · unfold State.raiseCounts State.raiseNoreclose
    dsimp only
    split
    · refine K.countChanged n ?_
      split
      · exact K.hand1 _ rfl (A.sec _ _ _ h)
      · exact A.sec _ _ _ h
    · exact h

theorem lowerCounts (kind : HoldKind) (n : SectionNo) (h : P s) : P (s.lowerCounts kind n) := by
  cases kind
  · exact A.lowerIsolate n h
  · exact A.lowerEarth n (A.lowerIsolate n h)
  · unfold State.lowerCounts State.lowerNoreclose
    dsimp only
    split
    · exact A.calm.countChanged n (A.sec _ _ _ h)
    · exact h

theorem lowerHold (x : Hold) (h : P s) : P (s.lowerHold x) := forEach_keeps _ _ (fun n _ h => A.lowerCounts _ n h) h

/-- What survives any write survives each change of the hold table with its counts. -/
theorem keeps : Keeps P where
  toCalm := A.calm
  hold s id f _ h := A.hold id f h
  place s kind origin tag sections duration _ h := by
    unfold State.placeHold
    dsimp only
    refine A.calm.hand1 _ rfl (forEach_keeps _ _ (fun n _ h => A.raiseCounts _ n h)
      (forEach_keeps _ _ (fun a s h => ?_) (A.handTable _ _ h)))
    split
    · exact A.calm.queueMessage _ _ h
    · exact h
  fail s id r h := by
    have K := A.calm
    unfold State.failHold
    split
    · rename_i x _
      split
      · dsimp only
        refine K.pulse _ ?_
        have h1 : P (State.dropAsks x (State.lowerHold x (s.modHold id (failedHold r)))) :=
          forEach_keeps _ _ (fun a s h => by
            split
            · exact K.queueMessage _ _ h
            · exact h) (A.lowerHold _ (A.hold _ _ h))
        repeat' split
        all_goals first | exact K.queueMessage _ _ h1 | exact h1
      · exact h
    · exact h
  retire s id h := by
    unfold State.retireHold
    split
    · dsimp only
      refine forEach_keeps _ _ (fun _ _ h => A.calm.key _ _ _ h) ?_
      split
      · exact A.handTable _ _ h
      · exact A.lowerHold _ (A.handTable _ _ h)
    · exact h
  earthen s id x _ _ _ h := forEach_keeps _ _ (fun n _ h => A.raiseEarth n h) (A.hold _ _ h)
  isolate s id x f _ _ h := forEach_keeps _ _ (fun n _ h => A.lowerEarth n h) (A.hold _ _ h)

end Any

end Sys2Proof.Machine
end

