-- ==== Sys2Proof/Laws/KeepsHandle.lean ====
section
/-! SUPPORT. What the carrying out of one handing, and of all the handings of an event, keeps. -/

namespace Sys2Proof.Machine

open Sys2Proof

variable {P : State → Prop} {s : State}

namespace Keeps

variable (K : Keeps P)

include K

/-- A breaker position change, once the CLOSE drive of its section has followed it. -/
theorem breakerMoves (k : FeederNo) (before : Option Pos) (pos : Pos) (h : P (s.earthInterlock k)) :
    P (s.breakerMoves k before pos) := by
  unfold State.breakerMoves
  dsimp only
  generalize e : State.deriveWanted k _ = t
  have ht : P t := by
    rw [← e]; exact K.deriveWanted k (K.deriveFeed k (K.seqTakesPosition k pos h))
  have fin : ∀ u : State, P u → P (if pos = .closed then
      (u.handAll ((u.securingOver k).map Signal.judgeHold)).violation k (s.seqIn k .closing && (s.seq k).holdOpenPending)
      else u.handAll ((u.securingOver k).map Signal.judgeHold)) := fun u hu => by
    have h1 := K.handMap (u.securingOver k) Signal.judgeHold (fun _ => rfl) hu
    split
    · exact K.violation _ _ h1
    · exact h1
  cases hs : t.share k with
  | none => exact fin t ht
  | some x =>
    refine fin _ ?_
    dsimp only
    split
    · exact K.beaconDue _ ht
    · exact ht

theorem earthMoves (k : FeederNo) (pos : Pos) (h : P s) : P (s.earthMoves k pos) := by
  have h1 := K.sectionTakesEarth k pos h
  unfold State.earthMoves
  dsimp only
  split
  · exact K.holdsTakeEarth k pos h1
  · exact h1

theorem acMoves (pos : Pos) (h : P s) : P (s.acMoves pos) := by
  unfold State.acMoves
  dsimp only
  generalize e : State.rectTakesAc pos s = t
  have ht : P t := by rw [← e]; exact K.rectTakesAc pos h
  have h1 := K.handMap t.securingBus Signal.judgeHold (fun _ => rfl) ht
  split
  · exact K.pulse _ h1
  · exact h1

theorem takeArrival (hb : ∀ s v, P s → P { s with au := { s.au with bands := v } }) (t : ArrivalTaker) (valid : Half) (h : P s) :
    P (s.takeArrival t valid) := by
  cases t
  · exact K.engineTakesArrival _ _ h
  · exact K.sectionsTakeArrival _ h
  · exact K.rectTakesArrival _ h
  · exact Calm.bandsTakeArrival hb h
  · exact K.holdsTakeArrival h
  · exact K.judgeWaits _ h

theorem channelFails (c : ChannelNo) (h : P s) : P (s.channelFails c) := by
  unfold State.channelFails
  repeat' split
  all_goals first
    | exact K.seqLosesCurrent _ (K.engineLosesCurrent _ h)
    | exact K.holdsLoseVoltage _ (K.sectionLosesVoltage _ (K.seqLosesVoltage _ h))
    | exact K.holdsLoseVoltage _ (K.sectionLosesVoltage _ (K.rectTripRunning _ h))
    | exact K.rectTripRunning _ h
    | exact h

theorem seqChanged (k : FeederNo) (h : P s) : P (s.seqChanged k) :=
  K.handMap _ _ (fun _ => rfl) (K.deriveBars _ h)

theorem rectChanged (h : P s) : P s.rectChanged := by
  unfold State.rectChanged
  dsimp only
  exact K.handMap _ _ (fun _ => rfl) (K.handMap allFeeders Signal.judgeWait (fun _ => rfl) (K.deriveBusFeed h))

/-- One handing of the events' own kind carried out. -/
theorem handle (g : Signal) (c : Consequence g = true) (h : P s) : P (s.handle g) := by
  cases g <;> simp only [Consequence] at c <;> unfold State.handle <;> dsimp only
  case channelFailed => exact K.channelFails _ h
  case channelRecovered => exact h
  case seqChanged => exact K.seqChanged _ h
  case judgeWait => exact K.judgeWaits _ h
  case holdDemand => exact K.seqHoldDemand _ h
  case recloseBar => exact K.seqRecloseBar _ h
  case busHold => exact K.rectBusHold h
  case backupTo => exact K.seqBackup _ h
  case backupRectifier => exact K.rectDemand _ h
  case wake => exact K.rectWake h
  case rectChanged => exact K.rectChanged h
  case judgeHold => exact K.judgeHold _ h
  case judgeEarthing => exact K.judgeEarthing _ h
  case judgeUnearth => exact K.judgeUnearth _ h
  case choose => exact K.transmit _ h
  case linkReachedUp => exact K.askAgain _ h
  case linkLeftUp => exact K.endWaits _ h
  case keyMove => exact K.keyMove _ _ h
  all_goals simp at c

end Keeps

/-! ### All the handings of an event -/

/-- Every handing that waits is of the events' own kind. -/
def Consequent (s : State) : Prop := ∀ g ∈ s.agenda, Consequence g = true

/-- Every handing that waits is of the events' own kind or an arrival. -/
def Consequential (s : State) : Prop := ∀ g ∈ s.agenda, Consequence g = true ∨ ∃ t valid, g = .arrival t valid

theorem Consequent.consequential (c : Consequent s) : Consequential s := fun g m => .inl (c g m)

/-- The handings that a handing makes are of the events' own kind. -/
theorem consequent_keeps : Keeps Consequent :=
  Any.keeps {
    engine := fun _ _ _ _ h => h
    seq := fun _ _ _ _ h => h
    rect := fun _ _ _ h => h
    sec := fun _ _ _ h => h
    table := fun _ _ h => h
    banks := fun _ _ _ h => h
    link := fun s p f _ h => by cases p <;> exact h
    point := fun _ _ _ h => h
    hand := fun s gs c h g m => (List.mem_append.1 m).elim (h g) (c g) }

/-- What every handing keeps, and what does not hang on what waits, the handings of an event keep together. -/
theorem settle_consequent (K : Keeps P) (hA : ∀ s l, P s → P { s with agenda := l }) (n : Nat) (c : Consequent s) (h : P s) :
    P (s.settle n) := by
  induction n generalizing s with
  | zero => exact h
  | succ n ih =>
    unfold State.settle
    split
    · exact h
    · rename_i g rest e
      have cg := c g (by rw [e]; exact List.mem_cons_self ..)
      refine ih (fun x m => ?_) (hA _ _ (K.handle g cg (hA _ _ h)))
      rcases List.mem_append.1 m with m | m
      · exact consequent_keeps.handle g cg (s := { s with agenda := [] }) (fun _ m => by cases m) x m
      · exact c x (by rw [e]; exact List.mem_cons_of_mem _ m)

/-- The same with the arrivals of an event, which write the watch bands as well. -/
theorem settle_keeps (K : Keeps P) (hb : ∀ s v, P s → P { s with au := { s.au with bands := v } })
    (hA : ∀ s l, P s → P { s with agenda := l }) (n : Nat) (c : Consequential s) (h : P s) : P (s.settle n) := by
  have one : ∀ {Q : State → Prop}, Keeps Q → (∀ s v, Q s → Q { s with au := { s.au with bands := v } }) →
      ∀ g, (Consequence g = true ∨ ∃ t valid, g = .arrival t valid) → ∀ s, Q s → Q (s.handle g) := by
    rintro Q K hb g (c | ⟨t, valid, rfl⟩) s h
    · exact K.handle g c h
    · exact K.takeArrival hb t valid h
  induction n generalizing s with
  | zero => exact h
  | succ n ih =>
    unfold State.settle
    split
    · exact h
    · rename_i g rest e
      have cg := c g (by rw [e]; exact List.mem_cons_self ..)
      refine ih (fun x m => ?_) (hA _ _ (one K hb g cg _ (hA _ _ h)))
      rcases List.mem_append.1 m with m | m
      · exact .inl (one consequent_keeps (fun _ _ h => h) g cg { s with agenda := [] } (fun _ m => by cases m) x m)
      · exact c x (by rw [e]; exact List.mem_cons_of_mem _ m)

/-- Once no handing waits, nothing more happens. -/
theorem settle_quiet (h : s.agenda = []) (n : Nat) : s.settle n = s := by
  cases n with
  | zero => rfl
  | succ n => unfold State.settle; simp [h]

/-- A handing that changes nothing is taken off and nothing else happens. -/
theorem settle_inert (l : List Signal) (h : s.agenda = l)
    (hl : ∀ g ∈ l, State.handle g { s with agenda := [] } = { s with agenda := [] }) (n : Nat) (hn : l.length ≤ n) :
    s.settle n = { s with agenda := [] } := by
  induction l generalizing n s with
  | nil => rw [settle_quiet h, ← h]
  | cons g l ih =>
    cases n with
    | zero => simp at hn
    | succ n =>
      unfold State.settle
      rw [h]
      dsimp only
      rw [hl g (List.mem_cons_self ..)]
      exact ih (s := { s with agenda := l }) rfl (fun x m => hl x (List.mem_cons_of_mem _ m)) n (by simpa using hn)

/-- The first handing is carried out, and what it hands on comes before the rest. -/
theorem settle_cons {g : Signal} {rest : List Signal} (h : s.agenda = g :: rest) (n : Nat) :
    s.settle (n + 1) =
      State.settle n { State.handle g { s with agenda := [] } with
        agenda := (State.handle g { s with agenda := [] }).agenda ++ rest } := by
  rw [State.settle]; simp [h]

end Sys2Proof.Machine
end

