-- ==== Sys2Proof/Laws/Finish.lean ====
section
/-! SUPPORT. The end of an event: the conditions of the points follow their levels, the alert list and ATTN follow the points, and
the retained area follows what it keeps. -/

namespace Sys2Proof.Machine

open Sys2Proof

variable (s : State)

/-! ### Points follow their levels (R169) -/

@[simp] theorem State.putPoint_levelOf (p : PointNo) (r : PointRec) (q : PointNo) :
    (s.putPoint p r).levelOf q = s.levelOf q := rfl

@[simp] theorem State.setLevel_levelOf (p : PointNo) (l : Bool) (q : PointNo) :
    (s.setLevel p l).levelOf q = s.levelOf q := by
  unfold State.setLevel; dsimp only
  repeat' split
  all_goals simp

@[simp] theorem riseOn_condition (now : Stamp) (r : PointRec) : (riseOn now r).condition = r.condition := by
  unfold riseOn; split <;> rfl

@[simp] theorem clearOn_condition (c : PointClass) (r : PointRec) : (clearOn c r).condition = r.condition := by
  unfold clearOn; split <;> rfl

@[simp] theorem pulseStanding_condition (now : Stamp) (r : PointRec) : (pulseStanding now r).condition = r.condition := by
  unfold pulseStanding; split <;> rfl

@[simp] theorem ackOn_condition (r : PointRec) : (ackOn r).condition = r.condition := by
  unfold ackOn; split <;> rfl

@[simp] theorem State.setLevel_condition (p : PointNo) (l : Bool) : ((s.setLevel p l).point p).condition = l := by
  unfold State.setLevel; dsimp only
  repeat' split
  all_goals simp_all

theorem State.setLevel_point_ne {p q : PointNo} (h : q ≠ p) (l : Bool) : (s.setLevel p l).point q = s.point q := by
  unfold State.setLevel; dsimp only
  repeat' split
  all_goals first | rfl | exact State.putPoint_point_ne _ h _

theorem levels_loop (l : List PointNo) :
    (∀ q, (forEach l (fun p s => s.setLevel p (s.levelOf p)) s).levelOf q = s.levelOf q) ∧
    (∀ q, q ∈ l → ((forEach l (fun p s => s.setLevel p (s.levelOf p)) s).point q).condition = s.levelOf q) ∧
    (∀ q, q ∉ l → (forEach l (fun p s => s.setLevel p (s.levelOf p)) s).point q = s.point q) := by
  unfold forEach
  induction l generalizing s with
  | nil => exact ⟨fun _ => rfl, (fun _ h => (List.not_mem_nil h).elim), fun _ _ => rfl⟩
  | cons p l ih =>
    obtain ⟨h1, h2, h3⟩ := ih (s.setLevel p (s.levelOf p))
    refine ⟨fun q => (h1 q).trans (by simp), fun q m => ?_, fun q m => ?_⟩
    · by_cases e : q ∈ l
      · exact (h2 q e).trans (by simp)
      · rcases List.mem_cons.1 m with rfl | m
        · rw [List.foldl_cons, h3 _ e]; simp
        · exact absurd m e
    · rw [List.mem_cons, not_or] at m
      rw [List.foldl_cons, h3 q m.2, State.setLevel_point_ne _ m.1]

theorem mem_allPoints (p : PointNo) : p ∈ allPoints := List.mem_finRange p

/-- R169: once equipment verification has ended, the conditions follow the levels. -/
theorem State.syncLevels_level (h : s.verification = none) (p : PointNo) :
    (s.syncLevels.point p).condition = s.syncLevels.levelOf p := by
  have e : s.syncLevels = forEach allPoints (fun p s => s.setLevel p (s.levelOf p)) s := by
    unfold State.syncLevels State.verifying; simp [h]
  rw [e, (levels_loop s _).1, (levels_loop s _).2.1 p (mem_allPoints p)]

/-! ### The alert list (R174) -/

theorem State.closeAlerts_attn : AttnLaw s.closeAlerts := ⟨rfl, rfl⟩

@[simp] theorem State.closeAlerts_point (p : PointNo) : s.closeAlerts.point p = s.point p := rfl
@[simp] theorem State.closeAlerts_levelOf (p : PointNo) : s.closeAlerts.levelOf p = s.levelOf p := rfl
@[simp] theorem State.closeAlerts_alerts : s.closeAlerts.au.alerts = s.au.alerts ++ s.au.joining := rfl
@[simp] theorem State.closeAlerts_joining : s.closeAlerts.au.joining = [] := rfl
@[simp] theorem State.closeAlerts_bands : s.closeAlerts.au.bands = s.au.bands := rfl
@[simp] theorem State.closeAlerts_time : s.closeAlerts.au.time = s.au.time := rfl
@[simp] theorem State.closeAlerts_timeNotSet : s.closeAlerts.au.timeNotSet = s.au.timeNotSet := rfl

theorem insertPoint_mem (p q : PointNo) (l : List PointNo) : q ∈ insertPoint p l ↔ q = p ∨ q ∈ l := by
  induction l with
  | nil => simp [insertPoint]
  | cons x l ih =>
    unfold insertPoint
    split
    · simp
    · simp only [List.mem_cons, ih]; exact or_left_comm

theorem insertPoint_nodup (p : PointNo) {l : List PointNo} (h : l.Nodup) (n : p ∉ l) : (insertPoint p l).Nodup := by
  induction l with
  | nil => simp [insertPoint]
  | cons x l ih =>
    rw [List.mem_cons, not_or] at n
    obtain ⟨h1, h2⟩ := List.nodup_cons.1 h
    unfold insertPoint
    split
    · exact List.nodup_cons.2 ⟨fun m => (List.mem_cons.1 m).elim n.1 n.2, h⟩
    · exact List.nodup_cons.2 ⟨fun m => ((insertPoint_mem p x l).1 m).elim (fun e => n.1 e.symm) h1, ih h2 n.2⟩

/-- R174: a point's new record keeps the law of the alert list. -/
theorem AlertLaw.putPoint {s : State} (h : AlertLaw s) (p : PointNo) (r : PointRec) : AlertLaw (s.putPoint p r) := by
  have hp := h.points p
  have ha : (s.putPoint p r).au.alerts =
      if onList (s.point p).state && !onList r.state then s.au.alerts.erase p else s.au.alerts := rfl
  have hj : (s.putPoint p r).au.joining =
      if onList (s.point p).state && !onList r.state then s.au.joining.erase p
      else if !onList (s.point p).state && onList r.state then insertPoint p s.au.joining
      else s.au.joining := rfl
  have nodup := List.nodup_append.1 h.once
  have other : ∀ q, q ≠ p → ((s.putPoint p r).point q) = s.point q := fun q e => State.putPoint_point_ne s e r
  cases hb : onList (s.point p).state <;> cases hr : onList r.state <;> simp only [hb, hr, Bool.not_true, Bool.not_false,
    Bool.and_true, Bool.and_false, reduceIte, Bool.false_eq_true] at ha hj
  · refine ⟨by rw [ha, hj]; exact h.once, fun q => ?_⟩
    rw [ha, hj]
    by_cases e : q = p
    · subst e; rw [h.points, State.putPoint_point, hb, hr]
    · rw [other q e]; exact h.points q
  · have hn : p ∉ s.au.alerts ++ s.au.joining := fun m => by rw [h.points p, hb] at m; cases m
    rw [List.mem_append, not_or] at hn
    refine ⟨?_, fun q => ?_⟩
    · rw [ha, hj]
      refine List.nodup_append.2 ⟨nodup.1, insertPoint_nodup p nodup.2.1 hn.2, fun a ma b mb e => ?_⟩
      rcases (insertPoint_mem p b _).1 mb with rfl | mb
      · exact hn.1 (e ▸ ma)
      · exact nodup.2.2 a ma b mb e
    · rw [ha, hj]
      by_cases e : q = p
      · subst e; simp [insertPoint_mem, hr]
      · rw [other q e, ← h.points q]; simp [insertPoint_mem, e]
  · refine ⟨?_, fun q => ?_⟩
    · rw [ha, hj]
      refine List.nodup_append.2 ⟨nodup.1.erase p, nodup.2.1.erase p, fun a ma b mb e => ?_⟩
      exact nodup.2.2 a (List.mem_of_mem_erase ma) b (List.mem_of_mem_erase mb) e
    · rw [ha, hj]
      by_cases e : q = p
      · subst e
        simp [hr, List.Nodup.mem_erase_iff nodup.1, List.Nodup.mem_erase_iff nodup.2.1]
      · rw [other q e, ← h.points q]
        simp [List.Nodup.mem_erase_iff nodup.1, List.Nodup.mem_erase_iff nodup.2.1, e]
  · refine ⟨by rw [ha, hj]; exact h.once, fun q => ?_⟩
    rw [ha, hj]
    by_cases e : q = p
    · subst e; rw [h.points, State.putPoint_point, hb, hr]
    · rw [other q e]; exact h.points q

theorem AlertLaw.closeAlerts {s : State} (h : AlertLaw s) : AlertLaw s.closeAlerts :=
  ⟨by simpa using h.once, fun p => by simpa using h.points p⟩

/-! ### The retained area (R197) -/

theorem nextGeneration_next (n : Nat) : nextGeneration (nextGeneration n) ≠ n := by
  unfold nextGeneration; repeat' split
  all_goals omega

theorem nextGeneration_ne (n : Nat) : nextGeneration n ≠ n := by
  unfold nextGeneration; split <;> omega

/-- R197: the copy just written is the latest good copy. -/
theorem Store.writeCopy_latestCopy (c : Retained) (st : Store) : (st.writeCopy c).latestCopy = some c := by
  unfold Store.latestCopy
  cases h : st.latest with
  | none =>
    simp only [Store.writeCopy, Store.nextBank0, Store.nextBank1, h]
    unfold Store.latest at h
    cases h0 : st.bank0.good <;> cases h1 : st.bank1.good <;> simp_all [Store.latest]
    repeat' split at h
    all_goals simp at h
  | some b =>
    cases b
    · simp only [Store.writeCopy, Store.nextBank0, Store.nextBank1, h]
      unfold Store.latest at h
      cases h0 : st.bank0.good <;> simp_all [Store.latest]
    · simp only [Store.writeCopy, Store.nextBank0, Store.nextBank1, h]
      unfold Store.latest at h
      have := Ne.symm (nextGeneration_next st.bank1.generation)
      cases h1 : st.bank1.good <;> cases h0 : st.bank0.good <;> simp_all [Store.latest]

@[simp] theorem Store.writeCopy_active (c : Retained) (st : Store) : (st.writeCopy c).active = st.active := rfl
@[simp] theorem Store.writeCopy_lock (c : Retained) (st : Store) : (st.writeCopy c).lock = st.lock := rfl

/-- The store without the banks of the retained area is the same. -/
theorem Store.writeCopy_rest (c : Retained) (st : Store) :
    { st.writeCopy c with bank0 := st.bank0, bank1 := st.bank1 } = st := rfl

/-- R114, R197: a store that has kept `view` keeps `now` once a table has been handed to it. -/
theorem Store.takeTable_latestCopy (view now : Retained) (st : Store) (h : st.latestCopy = some view) :
    (st.takeTable view now).latestCopy = some now := by
  unfold Store.takeTable
  by_cases e : now = view
  · simp only [e, reduceIte]; exact h
  · simp only [e, reduceIte]; exact Store.writeCopy_latestCopy now st

theorem State.writeRetained_rest :
    { s.writeRetained.store with bank0 := s.store.bank0, bank1 := s.store.bank1 } = s.store := by
  unfold State.writeRetained; split
  · rfl
  · exact Store.writeCopy_rest _ _

/-- R197: the latest good copy is what the area keeps. -/
theorem State.writeRetained_law : RetainedLaw s.writeRetained := by
  unfold State.writeRetained RetainedLaw
  split
  · assumption
  · rw [show (s.modStore (Store.writeCopy s.retainedView)).store = s.store.writeCopy s.retainedView from rfl,
      Store.writeCopy_latestCopy]
    simp [State.retainedView]

/-- R197: nothing is written while the latest good copy is what the area keeps. -/
theorem State.writeRetained_same (h : RetainedLaw s) : s.writeRetained = s := if_pos h

/-- Only the banks of the retained area are written. -/
theorem State.writeRetained_eq : s.writeRetained = { s with store :=
    { s.store with bank0 := s.writeRetained.store.bank0, bank1 := s.writeRetained.store.bank1 } } := by
  unfold State.writeRetained
  split
  · rfl
  · rfl

theorem State.writeRetained_levelOf (p : PointNo) : s.writeRetained.levelOf p = s.levelOf p := by
  rw [State.writeRetained_eq]; rfl

/-! ### The end of an event -/

theorem State.finish_attn : AttnLaw s.finish := by
  have h := State.closeAlerts_attn s.syncLevels
  unfold State.finish AttnLaw
  rw [State.writeRetained_au]
  exact h

theorem State.finish_retained : RetainedLaw s.finish := State.writeRetained_law _

theorem State.finish_level : LevelLaw s.finish := fun h p => by
  have hv : s.verification = none := by simpa using h
  have e1 : (s.finish.point p) = s.syncLevels.point p := by
    unfold State.finish State.point; rw [State.writeRetained_au]; rfl
  have e2 : s.finish.levelOf p = s.syncLevels.levelOf p := by
    unfold State.finish; rw [State.writeRetained_levelOf]; rfl
  rw [e1, e2]
  exact State.syncLevels_level s hv p

theorem State.finish_rest :
    { s.finish.store with bank0 := s.store.bank0, bank1 := s.store.bank1 } = s.store := by
  have h := State.writeRetained_rest s.syncLevels.closeAlerts
  rw [State.closeAlerts_store, State.syncLevels_store] at h
  exact h

/-- What the writes of points, the closing of the alert list and the writing of the retained area keep, the end of an event
keeps. -/
theorem finish_keeps {P : State → Prop} {s : State} (hp : ∀ s p r, P s → P (s.putPoint p r))
    (hc : ∀ s, P s → P s.closeAlerts) (hb : ∀ s c, P s → P (s.modStore (Store.writeCopy c))) (h : P s) : P s.finish := by
  unfold State.finish
  have hl : P s.syncLevels := by
    unfold State.syncLevels
    split
    · exact h
    · refine forEach_keeps _ _ (fun p s h => ?_) h
      unfold State.setLevel; dsimp only
      repeat' split
      all_goals first | exact h | exact hp _ _ _ h
  unfold State.writeRetained
  split
  · exact hc _ hl
  · exact hb _ _ (hc _ hl)

/-- The clock and the watch bands stay. -/
theorem State.finish_clock : s.finish.au.time = s.au.time ∧ s.finish.au.timeNotSet = s.au.timeNotSet ∧
    s.finish.au.bands = s.au.bands :=
  finish_keeps (P := fun t => t.au.time = s.au.time ∧ t.au.timeNotSet = s.au.timeNotSet ∧ t.au.bands = s.au.bands)
    (fun _ _ _ h => h) (fun _ h => h) (fun _ _ h => h) ⟨rfl, rfl, rfl⟩

theorem AlertLaw.finish {s : State} (h : AlertLaw s) : AlertLaw s.finish :=
  finish_keeps (fun _ p r h => h.putPoint p r) (fun _ h => h.closeAlerts) (fun _ _ h => ⟨h.once, h.points⟩) h

end Sys2Proof.Machine
end

