-- ==== Sys2Proof/Laws/Lawful.lean ====
section
/-! SUPPORT. What every command and event keeps, resets and the station clock apart. `Lawful P` says that a property survives each
kind of write that an event makes, as long as the write keeps the law of the record it changes. -/

namespace Sys2Proof.Machine

open Sys2Proof

/-- A property that every write of an event keeps. -/
structure Lawful (P : State → Prop) : Prop extends Keeps P where
  anySeq : ∀ s k f, (SequencerLaw (s.seq k) → SequencerLaw (f (s.seq k))) → P s → P (s.modSeq k f)
  anyRect : ∀ s f, (RectifierLaw s.rect → RectifierLaw (f s.rect)) → P s → P (s.modRect f)
  anyLink : ∀ s p f, (LinkLaw (s.link p) → LinkLaw (f (s.link p))) → P s → P (s.modLink p f)
  replace : ∀ s p h id line kind, s.peerHold p id = some h → P s → P ((s.retireHold h.id).placePeer p id line kind)
  settled : ∀ s, P s → P { s with ht := { s.ht with resetFailed := false } }
  bands : ∀ s v, P s → P { s with au := { s.au with bands := v } }
  alerts : ∀ s, P s → P s.closeAlerts
  agenda : ∀ s l, P s → P { s with agenda := l }
  mi : ∀ s m, (∀ k, (m.pairs.get (pairIndex (.breaker k))).handed = s.breakerPos k) → P s → P { s with mi := m }
  position : ∀ s k r, s.verifying = false → P s → P ((s.setPair (.breaker k) r).earthInterlock k)
  latch : ∀ s b, P s → P { s with backupLatch := b }
  sp : ∀ s f, P s → P (s.modSp f)
  store : ∀ s f, (f s.store).cfg.fitted = s.store.cfg.fitted → P s → P (s.modStore f)

/-- A property that survives any write of an event that keeps the law of the record it changes. -/
structure Free (P : State → Prop) : Prop where
  engine : ∀ s k f, (EngineLaw (s.engine k) → EngineLaw (f (s.engine k))) → P s → P (s.modEngine k f)
  seq : ∀ s k f, (SequencerLaw (s.seq k) → SequencerLaw (f (s.seq k))) → P s → P (s.modSeq k f)
  rect : ∀ s f, (RectifierLaw s.rect → RectifierLaw (f s.rect)) → P s → P (s.modRect f)
  sec : ∀ s n f, P s → P (s.modSec n f)
  table : ∀ s ht, P s → P { s with ht := ht }
  link : ∀ s p f, (LinkLaw (s.link p) → LinkLaw (f (s.link p))) → P s → P (s.modLink p f)
  point : ∀ s p r, P s → P (s.putPoint p r)
  bands : ∀ s v, P s → P { s with au := { s.au with bands := v } }
  alerts : ∀ s, P s → P s.closeAlerts
  agenda : ∀ s l, P s → P { s with agenda := l }
  mi : ∀ s m, P s → P { s with mi := m }
  latch : ∀ s b, P s → P { s with backupLatch := b }
  sp : ∀ s f, P s → P (s.modSp f)
  verified : ∀ s, P s → P { s with verification := none }
  store : ∀ s f, (f s.store).cfg.fitted = s.store.cfg.fitted → P s → P (s.modStore f)

variable {P : State → Prop} {s : State}

namespace Lawful

variable (L : Lawful P)

include L

/-- Whatever is handed on. -/
theorem handFree (l : List Signal) (h : P s) : P (s.handAll l) := L.agenda _ _ h

/-- What every event keeps, every handing keeps. -/
theorem keeps : Keeps P := L.toKeeps

/-- A sequencer enters any state. -/
theorem enter (k : FeederNo) (q : SeqState) (f : Sequencer → Sequencer) (h : P s) : P (s.enter k q f) := by
  have K := L.keeps
  unfold State.enter
  dsimp only
  generalize e : State.modSeq k _ s = t
  have h1 : P t := by rw [← e]; exact L.anySeq _ _ _ (fun _ => SequencerLaw.enterFields _ _) h
  have h2 : P (if q = .closing then t.engineClosing k
      else if (runsIn (s.seq k).state && !runsIn (some q)) = true then t.engineStop k else t) := by
    split
    · exact K.engineClosing k h1
    · split
      · exact K.engineStop k h1
      · exact h1
  split
  · exact h2
  · exact L.handFree _ h2

/-- The rectifier group enters any state. -/
theorem rectEnter (q : RectState) (f : Rectifier → Rectifier) (h : P s) : P (s.rectEnter q f) := by
  unfold State.rectEnter
  dsimp only
  have h1 : P (s.modRect fun r => rectFields s.store.cfg.alphaMax q (f r)) := L.anyRect _ _ (fun _ => .rectFields _ _ _) h
  split
  · exact h1
  · exact L.handFree _ h1

/-! ### Handings of every kind -/

theorem channelEvents (v : Vector Channel 16) (h : P s) : P (s.channelEvents v) := by
  unfold State.channelEvents
  split
  · exact h
  · exact L.handFree _ h

theorem modChannels (f : ChannelNo → Channel → Channel) (h : P s) : P (s.modChannels f) :=
  L.channelEvents _ (L.mi _ _ (fun _ => rfl) h)

theorem takeReport (p : Port) (l : List BeaconEntry) (h : P s) : P (s.takeReport p l) := by
  refine forEach_keeps _ _ (fun k s h => ?_) h
  repeat' split
  all_goals first | exact h | exact L.keeps.setNeighbour _ _ h

theorem forgetReport (p : Port) (h : P s) : P (s.forgetReport p) := by
  refine forEach_keeps _ _ (fun k s h => ?_) h
  repeat' split
  all_goals first | exact h | exact L.keeps.setNeighbour _ _ h

theorem deriveWantedOn (p : Port) (h : P s) : P (s.deriveWantedOn p) := by
  refine forEach_keeps _ _ (fun k s h => ?_) h
  repeat' split
  all_goals first | exact h | exact L.keeps.deriveWanted _ h

theorem takeBeacon (p : Port) (l : List BeaconEntry) (d : Bool) (h : P s) : P (s.takeBeacon p l d) :=
  L.takeReport _ _ (L.anyLink _ _ _ (fun l => ⟨l.subjects, l.lines, l.down⟩) h)

theorem takeIntertrip (p : Port) (line : Byte) (c : IntertripCause) (h : P s) : P (s.takeIntertrip p line c) := by
  unfold State.takeIntertrip
  dsimp only
  generalize e : State.modLink p _ s = t
  have ht : P t := by rw [← e]; exact L.anyLink _ _ _ (fun l => ⟨l.subjects, l.lines, l.down⟩) h
  split
  · exact L.keeps.seqIntertrip _ ht
  · exact ht

theorem takeAsk (p : Port) (id line : Byte) (kind : HoldKind) (h : P s) : P (s.takeAsk p id line kind) := by
  unfold State.takeAsk
  split
  · rename_i x e
    split
    · exact L.replace _ _ _ _ _ _ e h
    · split
      · exact L.keeps.queueMessage _ _ h
      · exact h
  · rename_i e
    refine L.keeps.placePeer p id line kind (fun x m ho ht => ?_) h
    have := List.find?_eq_none.1 e x m
    simp [ho, ht] at this

theorem takeGrant (p : Port) (id x : Byte) (h : P s) : P (s.takeGrant p id x) := by
  have K := L.keeps
  have f := K.queueMessage p (.drop id) h
  unfold State.takeGrant
  dsimp only
  split
  · split
    · exact f
    · split
      · exact f
      · exact L.handFree _ (K.asks _ _ _ h)
      · exact K.asks _ _ _ h
      · exact K.asks _ _ _ h
      · exact K.asks _ _ _ h
      · split
        · exact K.asks _ _ _ (K.queueMessage _ _ (K.asks _ _ _ h))
        · exact K.asks _ _ _ h
  · exact f

theorem takeDeny (p : Port) (id : Byte) (r : DenyReason) (h : P s) : P (s.takeDeny p id r) := by
  have K := L.keeps
  unfold State.takeDeny
  dsimp only
  repeat' split
  all_goals first | exact h | exact K.fail _ _ _ (K.asks _ _ _ h) | exact K.judgeDrop _ (K.asks _ _ _ h)

theorem takeDropped (p : Port) (id : Byte) (h : P s) : P (s.takeDropped p id) := by
  have K := L.keeps
  unfold State.takeDropped
  repeat' split
  all_goals first | exact h | exact K.judgeDrop _ (K.asks _ _ _ h)

theorem takeDrop (p : Port) (id : Byte) (h : P s) : P (s.takeDrop p id) := by
  have K := L.keeps
  unfold State.takeDrop
  dsimp only
  refine K.queueMessage _ _ ?_
  repeat' split
  all_goals first | exact h | exact K.retire _ _ h | exact K.releaseHold _ h

theorem takeAudit (p : Port) (ids : List Byte) (h : P s) : P (s.takeAudit p ids) := by
  have K := L.keeps
  unfold State.takeAudit
  dsimp only
  generalize e : forEach _ _ (forEach _ _ (forEach _ _ s)) = t
  have ht : P t := by
    rw [← e]
    exact forEach_keeps _ _ (fun _ _ h => K.queueMessage _ _ (K.asks _ _ _ h))
      (forEach_keeps _ _ (fun _ _ h => K.queueMessage _ _ h) (forEach_keeps _ _ (fun _ _ h => K.queueMessage _ _ h) h))
  split
  · exact ht
  · exact K.pulse _ ht

theorem takeMessage (p : Port) (m : MsgBody) (h : P s) : P (s.takeMessage p m) := by
  cases m
  · exact L.takeBeacon _ _ _ h
  · exact L.takeIntertrip _ _ _ h
  · exact L.takeAsk _ _ _ _ h
  · exact L.takeGrant _ _ _ h
  · exact L.takeDeny _ _ _ h
  · exact L.takeDrop _ _ h
  · exact L.takeDropped _ _ h
  · exact L.takeAudit _ _ h

theorem startSequencer (k : FeederNo) (h : P s) : P (s.startSequencer k) := by
  unfold State.startSequencer
  dsimp only
  generalize e : (if (!s.fitted k) = true then s.enter k .notFitted id else _) = t
  have ht : P t := by
    rw [← e]
    repeat' split
    all_goals exact L.enter _ _ _ h
  split
  · exact L.keeps.seqHoldDemand _ ht
  · exact ht

theorem startSections (h : P s) : P s.startSections := by
  have K := L.keeps
  unfold State.startSections
  dsimp only
  generalize e : forEach allFeeders State.startEarth _ = t
  have ht : P t := by
    rw [← e]
    exact forEach_keeps _ _ (fun _ _ h => K.startEarth _ h) (forEach_keeps _ _ (fun _ _ h => K.deriveWanted _ h)
      (K.deriveAllBars (forEach_keeps _ _ (fun _ _ h => K.deriveFeed _ h) h)))
  split
  · exact K.rectBusHold ht
  · exact ht

theorem rebuildKey (n : KeyNo) (pos : KeyPos) (h : P s) : P (s.rebuildKey n pos) := by
  have K := L.keeps
  unfold State.rebuildKey
  dsimp only
  split
  · exact K.key _ _ _ h
  · cases pos <;> dsimp only <;> repeat' split
    all_goals first
      | exact K.keyReleases _ (K.key _ _ _ h)
      | exact K.keyIsolates _ (K.key _ _ _ h)
      | exact K.keyEarths _ (K.key _ _ _ h)
      | exact K.key _ _ _ h

theorem startPanel (h : P s) : P s.startPanel := by
  unfold State.startPanel
  exact forEach_keeps _ _ (fun n _ h => L.rebuildKey n _ h) (L.sp _ _ h)

theorem startHolds (h : P s) : P s.startHolds := by
  have K := L.keeps
  unfold State.startHolds
  refine forEach_keeps _ _ (fun _ _ h => K.releaseHold _ h) (L.settled _ ?_)
  split
  · exact K.pulse _ h
  · exact h

theorem rectStart (h : P s) : P s.rectStart.state := by
  unfold State.rectStart
  repeat' split
  all_goals first
    | exact h
    | (refine L.rectEnter _ _ (L.anyRect _ _ (fun l => ?_) h)
       cases l; constructor <;> first | assumption | simp)

theorem rectAutostart (h : P s) : P s.rectAutostart := by
  unfold State.rectAutostart
  split
  · refine L.anyRect _ _ (fun l => ?_) (L.rectStart h)
    cases l; constructor <;> assumption
  · exact h

theorem startPort (p : Port) (h : P s) : P (s.startPort p) := by
  unfold State.startPort
  split
  · exact h
  · exact L.keeps.beaconDue _ (L.anyLink _ _ _ (fun l => ⟨l.subjects, l.lines, l.down⟩) h)

/-- One handing carried out. -/
theorem handle (g : Signal) (h : P s) : P (s.handle g) := by
  cases c : Consequence g
  · cases g <;> simp only [Consequence, Bool.true_eq_false] at c <;> unfold State.handle <;> dsimp only
    case takeValues => exact L.modChannels _ h
    case arrival => exact L.keeps.takeArrival L.bands _ _ h
    case message => exact L.takeMessage _ _ h
    case startSequencer => exact L.startSequencer _ h
    case startSections => exact L.startSections h
    case startPanel => exact L.startPanel h
    case startHolds => exact L.startHolds h
    case autostart => exact L.rectAutostart h
    case startLinks => exact L.startPort _ (L.startPort _ h)
  · exact L.keeps.handle g c h

theorem settle (n : Nat) (h : P s) : P (s.settle n) := by
  induction n generalizing s with
  | zero => exact h
  | succ n ih =>
    unfold State.settle
    split
    · exact h
    · exact ih (L.agenda _ _ (L.handle _ (L.agenda _ _ h)))

theorem finish (h : P s) : P s.finish := finish_keeps L.point L.alerts (fun _ _ h => L.store _ _ rfl h) h

theorem event (f : State → State) (h : P (f s)) : P (s.event f) := L.finish (L.agenda _ _ (L.settle _ h))

/-! ### First effects -/

theorem setReception (r : Reception) (h : P s) : P (s.setReception r) := L.mi _ _ (fun _ => rfl) h

theorem takeFrame (f : SampleFrame) (order : List ArrivalTaker) (h : P s) : P (s.takeFrame f order) := by
  unfold State.takeFrame State.frameDiscarded State.frameArrives
  dsimp only
  repeat' split
  all_goals first
    | exact L.modChannels _ (L.setReception _ h)
    | exact L.handFree _ (L.handFree _ (L.modChannels _ (L.setReception _ h)))

theorem frameTimesOut (h : P s) : P s.frameTimesOut := L.modChannels _ (L.setReception _ h)

/-- A pair whose position goes to nobody. -/
theorem setPair (p : PairId) (r : SwitchPair) (hr : r.handed = (s.pair p).handed) (h : P s) : P (s.setPair p r) := by
  refine L.mi _ _ (fun k => ?_) h
  dsimp only
  rw [vget_set]
  split
  · rename_i e
    have : p = .breaker k := by
      cases p <;> simp only [pairIndex, Fin.ext_iff] at e <;> first | (congr 1; ext; omega) | omega
    subst this; exact hr
  · rfl

/-- The pair of an earth switch or of the AC breaker. -/
theorem setOther (p : PairId) (r : SwitchPair) (hp : ∀ k, p ≠ .breaker k) (h : P s) : P (s.setPair p r) := by
  refine L.mi _ _ (fun k => ?_) h
  dsimp only
  rw [vget_set]
  split
  · rename_i e
    exfalso
    cases p <;> simp only [pairIndex, Fin.ext_iff] at e <;>
      first | omega | exact hp _ rfl
  · rfl

theorem pairBecomes (p : PairId) (pos : Pos) (t : Option Nat) (h : P s) : P (s.pairBecomes p pos t) := by
  have K := L.keeps
  unfold State.pairBecomes
  dsimp only
  split
  · rename_i c
    have hv : s.verifying = false := by simp only [Bool.and_eq_true, Bool.not_eq_true'] at c; exact c.2
    cases p
    · exact K.breakerMoves _ _ _ (L.position _ _ _ hv h)
    · exact K.earthMoves _ _ (L.setOther _ _ (fun _ e => by cases e) h)
    · exact K.acMoves _ (L.setOther _ _ (fun _ e => by cases e) h)
  · exact L.setPair _ _ (by simp_all) h

theorem derivePair (p : PairId) (h : P s) : P (s.derivePair p) := by
  unfold State.derivePair
  split
  · exact L.pairBecomes _ _ _ h
  · exact h

theorem rectStop (h : P s) : P s.rectStop := by
  unfold State.rectStop
  split
  · exact h
  · exact L.rectEnter _ _ h

theorem rectStandby (h : P s) : P s.rectStandby.state := by
  unfold State.rectStandby
  repeat' split
  all_goals first | exact h | exact L.rectEnter _ _ h

theorem commandOpen (k : FeederNo) (h : P s) : P (s.commandOpen k).state := by
  have K := L.keeps
  unfold State.commandOpen
  split
  all_goals (rename_i e; try dsimp only [accept, refuse])
  all_goals first
    | exact h
    | exact K.seqTrip _ _ _ (fun _ => by rw [e]; trivial) h
    | exact L.enter _ _ _ h
    | skip
  all_goals split <;> first | exact h | exact K.startOpenPulse _ h

theorem commandClose (k : FeederNo) (h : P s) : P (s.commandClose k).state := by
  have K := L.keeps
  unfold State.commandClose
  split
  · exact h
  · split
    · exact h
    · rename_i hn ho
      split
      · exact h
      · split
        · exact h
        · refine K.beginLineTest k _ (fun _ => ?_) (K.setAttempts k (fun _ => 0) h)
          simp only [State.seqIn, Bool.or_eq_true, Bool.not_eq_true', not_or] at ho
          have : (s.seq k).state = some .opened := by simpa using ho.1
          simp only [State.modSeq_seq, this]; trivial

theorem clearLatch (h : P s) : P s.clearLatch := by
  unfold State.clearLatch
  split
  · exact h
  · exact L.latch _ _ h

theorem commandReset (k : FeederNo) (h : P s) : P (s.commandReset k).state := by
  unfold State.commandReset
  repeat' split
  all_goals first | exact h | exact L.clearLatch (L.enter _ _ _ h)

theorem panelPress (code : Byte) (t : Nat) (owner : State → Answer) (ho : P s → P (owner s).state) (h : P s) :
    P (s.panelPress code t owner) := by
  unfold State.panelPress
  split
  · exact L.sp _ _ (ho h)
  · exact h

theorem emergencyPress (h : P s) : P s.emergencyPress := by
  have K := L.keeps
  unfold State.emergencyPress
  dsimp only
  have h1 : P (forEach allFeeders State.seqEmergency s) := forEach_keeps _ _ (fun _ _ h => K.seqEmergency _ h) h
  have h2 := K.rectDemand .emergency h1
  generalize State.rectDemand .emergency _ = t at h2
  have h3 : P (forEach allFeeders (fun k s => s.intertripFor k .emergency) t) :=
    forEach_keeps _ _ (fun _ _ h => K.intertripFor _ _ h) h2
  exact K.pulse _ (L.sp _ _ h3)

theorem panelInput (i : InputId) (on change : Bool) (h : P s) : P (s.panelInput i on change) := by
  have press : ∀ (b : Bool) (t : State), P t → P (if b = true then t else s) := fun b t ht => by
    split
    · exact ht
    · exact h
  unfold State.panelInput
  dsimp only
  cases i <;> dsimp only
  case authorityKey => exact L.sp _ _ h
  case settingsKey => exact L.sp _ _ h
  case supervisorKey => exact L.sp _ _ h
  case holdIsolate => exact L.handFree _ h
  case holdEarth => exact L.handFree _ h
  case openButton k => exact press _ _ (L.panelPress _ _ _ (fun h => L.commandOpen k h) h)
  case closeButton k => exact press _ _ (L.panelPress _ _ _ (fun h => L.commandClose k h) h)
  case startButton => exact press _ _ (L.panelPress _ _ _ (fun h => L.rectStart h) h)
  case stopButton => exact press _ _ (L.panelPress _ _ _ (fun h => L.rectStop h) h)
  case emergencyButton =>
    have h1 := L.sp s (fun r => { r with emergency := on }) h
    split
    · exact L.emergencyPress h1
    · exact h1
  all_goals exact h

theorem inputTaken (i : InputId) (change : Bool) (h : P s) : P (s.inputTaken i change) := by
  unfold State.inputTaken
  split
  · exact L.derivePair _ h
  · split
    · exact h
    · exact L.panelInput _ _ _ h

theorem takeInput (i : InputId) (h : P s) : P (s.takeInput i) := by
  unfold State.takeInput
  dsimp only
  repeat' split
  all_goals first | exact h | exact L.inputTaken _ _ (L.mi _ _ (fun _ => rfl) h)

theorem transitTimesOut (p : PairId) (h : P s) : P (s.transitTimesOut p) := L.pairBecomes _ _ _ h

theorem openFailure (k : FeederNo) (h : P s) : P (s.openFailure k) := by
  have K := L.keeps
  unfold State.openFailure
  dsimp only
  have h1 := L.enter k .breakerFault (fun r => { r with failure := some .openFailed }) h
  split
  · exact h1
  · exact K.pulse _ (K.intertripFor _ _ (L.handFree _ (L.handFree _ (L.latch _ _ h1))))

theorem openTimeout (k : FeederNo) (h : P s) : P (s.openTimeout k) := L.openFailure k (L.keeps.dropPulse k h)

theorem closeFailure (k : FeederNo) (h : P s) : P (s.closeFailure k) :=
  L.keeps.pulse _ (L.keeps.startOpenPulse _ (L.enter _ _ _ h))

/-- The close timer is stopped. -/
theorem dropCloseTimer (k : FeederNo) (h : P s) : P (s.modSeq k fun r => { r with closeTimer := none }) := by
  refine L.anySeq _ _ _ (fun l => ?_) h
  cases l; constructor <;> first | assumption | simp

theorem closeTimeout (k : FeederNo) (hc : (s.seq k).closeTimer.isSome) (h : P s) : P (s.closeTimeout k) := by
  have K := L.keeps
  unfold State.closeTimeout
  dsimp only
  have h1 := L.dropCloseTimer k h
  generalize e : State.modSeq k _ s = t at h1
  have hm : SequencerLaw (s.seq k) → Mobile (t.seq k).state := fun l => by
    rw [← e]; simp only [State.modSeq_seq, l.closeTimer hc]; trivial
  repeat' split
  all_goals first
    | exact L.enter _ _ _ h1
    | exact L.closeFailure _ h1
    | skip
  rename_i hp _
  refine K.seqTrip k _ _ (fun l => ?_) h1
  rw [l.holdOpen hp]; trivial

theorem deadTimeout (k : FeederNo) (hc : (s.seq k).deadTimer.isSome) (h : P s) :
    P ((s.modSeq k fun r => { r with deadTimer := none }).judgeDead k) := by
  have K := L.keeps
  have h1 : P (s.modSeq k fun r => { r with deadTimer := none }) := by
    refine L.anySeq _ _ _ (fun l => ?_) h
    cases l; constructor <;> first | assumption | simp
  generalize e : State.modSeq k _ s = t at h1
  unfold State.judgeDead
  split
  · exact L.enter _ _ _ h1
  · exact L.enter _ _ _ h1
  · rename_i w _
    unfold State.waitFor
    dsimp only
    have h2 : P (s.modSeq k fun r => { r with wait := some w, deadTimer := none }) := by
      refine L.anySeq _ _ _ (fun l => ?_) h
      have e := l.deadTimer hc
      cases l; constructor <;> first | assumption | (intro _; exact e) | simp
    have e2 : ∀ w, t.modSeq k (fun r => { r with wait := some w, deadTimer := none }) =
        s.modSeq k fun r => { r with wait := some w, deadTimer := none } := fun w => by
      rw [← e]; simp [State.modSeq, vget_set]
    split <;> rw [e2]
    · exact L.handFree _ h2
    · exact h2
  · unfold State.beginLineTest State.beginClosing
    split
    · exact L.handFree _ (L.enter _ _ _ h1)
    · exact L.handFree _ (L.enter _ _ _ h1)

theorem judgeTest (k : FeederNo) (h : P s) : P (s.judgeTest k) := by
  have K := L.keeps
  unfold State.judgeTest State.manualTestFailed State.beginClosing State.automaticTestFailed State.enterDeadTime
    State.seqToLockout
  dsimp only
  have h1 : ∀ a b, P (s.modSeq k fun r => { r with lastClose := a, attempts := b }) := fun a b => by
    refine L.anySeq _ _ _ (fun l => ?_) h
    cases l; constructor <;> assumption
  repeat' split
  all_goals first
    | exact K.pulse _ (L.enter _ _ _ h)
    | exact L.handFree _ (L.enter _ _ _ h)
    | exact L.enter _ _ _ (h1 _ _)
    | exact K.waitFor k _ (fun _ => by simp) (L.enter _ _ _ h)

theorem reclaim (k : FeederNo) (h : P s) : P (s.modSeq k reclaimEnds) := by
  refine L.anySeq _ _ _ (fun l => ?_) h
  cases l; constructor <;> first | assumption | simp [reclaimEnds]

theorem rectSame (f : Rectifier → Rectifier) (hf : RectifierLaw s.rect → RectifierLaw (f s.rect)) (h : P s) :
    P (s.modRect f) := L.anyRect _ _ hf h

theorem rectReference (n : Nat) (h : P s) : P (s.rectReference n) := by
  unfold State.rectReference
  dsimp only
  have h1 : P (s.modRect (takeReference n)) := L.anyRect _ _ (fun l => by cases l; constructor <;> assumption) h
  generalize s.modRect (takeReference n) = t at h1
  split
  · rename_i hd
    refine L.anyRect _ _ (fun l => ?_) h1
    cases l; constructor <;> first | assumption | exact fun _ => hd
  · split
    · rename_i hs
      have h2 : ∀ c, P (t.modRect fun r => { r with syncCount := some c }) := fun c => by
        refine L.anyRect _ _ (fun l => ?_) h1
        cases l; constructor <;> first | assumption | exact fun _ => hs
      split
      · exact L.rectEnter _ _ (h2 _)
      · exact h2 _
    · exact h1

theorem emitPulse (b : Bridge) (pair : Nat) (h : P s) : P (s.modRect (emitPulse b pair)) := by
  refine L.anyRect _ _ (fun l => ?_) h
  unfold Machine.emitPulse
  split
  · rename_i e
    refine ⟨l.cause, l.tripTime, l.ramp, l.syncCount, l.syncTimer, l.wakeTimer, fun _ => ?_⟩
    refine l.pulses fun c => ?_
    rw [c] at e; simp [takePulse] at e
  · exact l

theorem rectDip (h : P s) : P s.rectDip := by
  unfold State.rectDip
  dsimp only
  have h1 : P (s.modRect fun r => { r with refTimer := none, refsPresent := false }) :=
    L.anyRect _ _ (fun l => by cases l; constructor <;> assumption) h
  split
  · refine L.rectEnter _ _ (L.keeps.pulse _ (L.anyRect _ _ (fun l => ?_) h1))
    cases l; constructor <;> assumption
  · exact h1

theorem holdTimer (id : Byte) (timer : HoldTimers → Option Nat) (f : Hold → State → State) (hf : ∀ x, P s → P (f x s))
    (h : P s) : P (s.holdTimer id timer f) := by
  have _ := L
  unfold State.holdTimer
  repeat' split
  all_goals first | exact h | exact hf _ h

theorem minuteEnds (id : Byte) (x : Hold) (h : P s) : P (s.minuteEnds id x) := by
  have K := L.keeps
  unfold State.minuteEnds State.expireHold
  dsimp only
  split
  · exact K.releaseHold _ (K.pulse _ (K.holdSame _ _ (fun _ => ⟨rfl, rfl, rfl, rfl, rfl, rfl, rfl, rfl⟩) h))
  · exact K.holdSame _ _ (fun _ => ⟨rfl, rfl, rfl, rfl, rfl, rfl, rfl, rfl⟩) h

/-! ### Links -/

theorem linkFalls (p : Port) (q : LinkState) (h : P s) : P (s.linkFalls p q) := by
  have K := L.keeps
  unfold State.linkFalls
  dsimp only
  generalize e : State.deriveWantedOn p _ = t
  have ht : P t := by
    rw [← e]
    refine L.deriveWantedOn _ (L.forgetReport _ (forEach_keeps _ _ (fun _ _ h => K.pulse _ h) (L.anyLink _ _ _ (fun _ => ?_) h)))
    exact ⟨by simp [fallenLink], by simp [fallenLink], fun _ => ⟨rfl, rfl⟩⟩
  split
  · exact L.handFree _ ht
  · exact ht

theorem linkRises (p : Port) (h : P s) : P (s.linkRises p) := by
  have K := L.keeps
  refine L.deriveWantedOn _ (L.handFree _ (K.beaconDue _ (K.queueMessage _ _ (L.anyLink _ _ _ (fun l => ?_) h))))
  exact ⟨l.subjects, l.lines, fun e => by simp [takesMessages] at e⟩

theorem linkHears (p : Port) (h : P s) : P (s.linkHears p) := by
  unfold State.linkHears
  dsimp only
  have h1 : P (s.modLink p fun l => { l with supervision := some 350 }) :=
    L.anyLink _ _ _ (fun l => ⟨l.subjects, l.lines, l.down⟩) h
  have h2 : ∀ f : Link → Link, (∀ l, (f l).messages = l.messages ∧ (f l).intertrips = l.intertrips) →
      (∀ l, takesMessages (f l).state = false → takesMessages l.state = false) →
      P ((s.modLink p fun l => { l with supervision := some 350 }).modLink p f) := fun f e g =>
    L.anyLink _ _ _ (fun l => ⟨by rw [(e _).1]; exact l.subjects, by rw [(e _).2]; exact l.lines,
      fun d => by rw [(e _).1, (e _).2]; exact l.down (g _ d)⟩) h1
  split
  · exact h2 _ (fun _ => ⟨rfl, rfl⟩) (fun l d => by simp [takesMessages] at d)
  · split
    · exact L.linkRises _ h1
    · exact h2 _ (fun _ => ⟨rfl, rfl⟩) (fun _ d => d)
  · exact h1
  · exact h1

theorem linkDiscards (p : Port) (h : P s) : P (s.linkDiscards p) := by
  unfold State.linkDiscards
  dsimp only
  have h1 : P (s.modLink p fun l => { l with errors := satSucc 65535 l.errors }) :=
    L.anyLink _ _ _ (fun l => ⟨l.subjects, l.lines, l.down⟩) h
  have fin : ∀ t : State, P t → P (if (t.link p).state = .joining then t.linkFalls p .down else t) := fun t ht => by
    split
    · exact L.linkFalls _ _ ht
    · exact ht
  refine fin _ ?_
  split
  · exact L.keeps.pulse _ h1
  · exact h1

theorem linkReceives (p : Port) (station : Byte) (m : MsgBody) (h : P s) : P (s.linkReceives p station m) := by
  unfold State.linkReceives
  repeat' split
  all_goals first | exact h | exact L.handFree _ (L.linkHears _ h) | exact L.linkDiscards _ h

theorem transmissionEnds (p : Port) (h : P s) : P (s.transmissionEnds p) := by
  unfold State.transmissionEnds
  split
  · exact L.keeps.transmit _ (L.anyLink _ _ _ (fun l => ⟨l.subjects, l.lines, l.down⟩) h)
  · exact h

theorem beaconTimeout (p : Port) (h : P s) : P (s.beaconTimeout p) := by
  unfold State.beaconTimeout
  split
  · exact L.keeps.beaconDue _ (L.anyLink _ _ _ (fun l => ⟨l.subjects, l.lines, l.down⟩) h)
  · exact h

/-! ### Settings -/

theorem reconfigurePort (p : Port) (c : PortConfig) (h : P s) : P (s.reconfigurePort p c) := by
  unfold State.reconfigurePort
  dsimp only
  repeat' split
  all_goals first
    | exact h
    | exact L.linkFalls _ _ h
    | (refine L.startPort _ (L.anyLink _ _ _ (fun _ => ?_) h)
       exact ⟨by simp [fallenLink], by simp [fallenLink], fun _ => ⟨rfl, rfl⟩⟩)

theorem remask (v : Vector Bool 79) (h : P s) : P (s.remask v) := by
  refine forEach_keeps _ _ (fun p s h => ?_) h
  dsimp only
  repeat' split
  all_goals first | exact h | exact L.point _ _ _ h

theorem reshare (c : ConfigRec) (h : P s) : P (s.reshare c) := by
  have K := L.keeps
  exact forEach_keeps _ _ (fun _ _ h => K.deriveWanted _ h) (K.deriveAllBars
    (forEach_keeps _ _ (fun _ _ h => K.deriveFeed _ h) (forEach_keeps _ _ (fun _ _ h =>
      K.secSame _ _ (fun _ => ⟨rfl, rfl, rfl, rfl, rfl⟩) h) h)))

theorem handConfig (c : ConfigRec) (h : P s) : P (s.handConfig c) := by
  unfold State.handConfig
  dsimp only
  have h1 := L.remask c.masks (L.reconfigurePort .b c.portB (L.reconfigurePort .a c.portA (L.reshare c h)))
  generalize State.remask _ _ = t at h1
  refine L.anyRect _ _ (fun l => ?_) h1
  exact ⟨l.cause, l.tripTime, l.ramp, l.syncCount, l.syncTimer, l.wakeTimer, l.pulses⟩

theorem configIntoUse (h : P s) : P s.configIntoUse := L.handConfig _ (L.store _ _ rfl h)

theorem judgeFitted (t : StoreTarget) (h : P s) : P (s.judgeFitted t) := by
  unfold State.judgeFitted
  split
  · exact L.store _ _ rfl h
  · exact h

theorem setImage (t : StoreTarget) (f : Store → Image) (h : P s) : P (s.modStore fun st => st.setImage t (f st)) := by
  refine L.store _ _ ?_ h
  unfold Store.setImage; split <;> rfl

theorem eraseEnds (b : Bool) (h : P s) : P (s.eraseEnds b) := by
  unfold State.eraseEnds
  split
  · split
    · exact h
    · dsimp only
      refine L.judgeFitted _ ?_
      have h1 : P (s.modStore fun st => { st with operation := none }) := L.store _ _ rfl h
      split
      · exact L.setImage _ (fun _ => emptyImage) h1
      · exact L.keeps.pulse _ (L.store _ _ rfl h1)
  · exact h

theorem programEnds (b : Bool) (h : P s) : P (s.programEnds b) := by
  unfold State.programEnds
  split
  · rename_i op _
    split
    · exact h
    · dsimp only
      refine L.judgeFitted _ ?_
      have h1 : P (s.modStore fun st => { st with operation := none }) := L.store _ _ rfl h
      split
      · have h2 := L.setImage op.target (fun st => { st.image op.target with state := .valid }) h1
        split
        · exact L.configIntoUse h2
        · exact h2
      · exact L.keeps.pulse _ (L.store _ _ rfl h1)
  · exact h

theorem engineActivate (k : FeederNo) (h : P s) : P (s.engineActivate k) := by
  unfold State.engineActivate
  split
  · exact L.keeps.changeEngine _ _ (fun l => by cases l; constructor <;> assumption) h
  · exact L.engine _ _ _ (fun l => (l.recopy _ _).judgeHeat _) h

theorem seqActivate (k : FeederNo) (h : P s) : P (s.seqActivate k) := by
  unfold State.seqActivate
  refine L.anySeq _ _ _ (fun l => ?_) h
  cases l; constructor <;> assumption

theorem rebands (g : GroupSettings) (h : P s) : P (s.rebands g) := by
  refine forEach_keeps _ _ (fun b s h => ?_) h
  dsimp only
  have fin : ∀ t : State, P t → ∀ (c : Bool) (p : PointNo) (r : PointRec), P (if c = true then t.putPoint p r else t) :=
    fun t ht c p r => by
      split
      · exact L.point _ _ _ ht
      · exact ht
  refine fin _ ?_ _ _ _
  have hb := L.bands s (s.au.bands.set b
    { condition := (s.store.inUse.bands.get b).enable && (s.au.bands.get b).condition, run := 0 }) h
  split
  · exact hb
  · unfold State.disableBand
    dsimp only
    split
    · exact L.point _ _ _ hb
    · exact hb

theorem handGroup (g : GroupSettings) (h : P s) : P (s.handGroup g) := by
  have h1 : P (forEach allFeeders State.engineActivate s) := forEach_keeps _ _ (fun _ _ h => L.engineActivate _ h) h
  have h2 : P (forEach allFeeders State.seqActivate (forEach allFeeders State.engineActivate s)) :=
    forEach_keeps _ _ (fun _ _ h => L.seqActivate _ h) h1
  exact L.rebands g h2

theorem writeCopy (copy : Retained) (h : P s) : P (s.modStore (Store.writeCopy copy)) := by
  exact L.store _ _ rfl h

theorem commandActivate (x : Byte) (h : P s) : P (s.commandActivate x).state := by
  have use : ∀ g : GroupNo, P (s.modStore fun st =>
      { st with active := g, factoryInUse := false, inUse := readGroup (st.groups.get g).content }) := fun _ =>
    L.store _ _ rfl h
  unfold State.commandActivate
  dsimp only
  repeat' split
  all_goals dsimp only [accept, refuse]
  all_goals first | with_reducible exact h | with_reducible exact L.handGroup _ (L.writeCopy _ (use _))

theorem beginOperation (o : OpKind) (t : StoreTarget) (c : List Byte) (x : Half) (h : P s) :
    P (s.beginOperation o t c x) := by
  unfold State.beginOperation
  refine L.store _ _ ?_ h
  unfold Store.setImage; split <;> rfl

theorem commandErase (x : Byte) (h : P s) : P (s.commandErase x).state := by
  unfold State.commandErase
  repeat' split
  all_goals first | exact h | exact L.beginOperation _ _ _ _ h

theorem commandProgram (x : Byte) (h : P s) : P (s.commandProgram x).state := by
  unfold State.commandProgram
  dsimp only
  repeat' split
  all_goals first | exact h | exact L.beginOperation _ _ _ _ h

/-! ### The station port -/

theorem port (row : PortRow) (t : Option Nat) (owner : Option (State → Answer))
    (ho : ∀ f, owner = some f → P s → P (f s).state) (h : P s) : P (s.port row t owner) := by
  unfold State.port
  split
  · refine L.sp _ _ ?_
    unfold State.portAnswer
    repeat' split
    all_goals first | exact h | exact ho _ rfl h
  · exact h

theorem portRead (c : Byte) (n : Nat) (l : List Byte) (h : P s) : P (s.portRead c n l) := by
  unfold State.portRead
  split
  · exact L.sp _ _ h
  · exact h

theorem frameBreaks (h : P s) : P s.frameBreaks := by
  unfold State.frameBreaks
  split
  · exact L.keeps.pulse _ (L.sp _ _ h)
  · exact h

theorem commandOperate (t : Target) (a : SwitchAction) (h : P s) : P (s.commandOperate t a).state := by
  unfold State.commandOperate State.switchTarget
  dsimp only
  have h1 := L.sp s dropSelection h
  repeat' split
  all_goals first
    | exact h1
    | exact L.commandOpen _ h1
    | exact L.commandClose _ h1
    | exact L.rectStart h1
    | exact L.rectStop h1
    | exact L.rectStandby h1

theorem commandSelect (t : Target) (a : SwitchAction) (h : P s) : P (s.commandSelect t a).state := by
  unfold State.commandSelect
  dsimp only
  repeat' split
  all_goals dsimp only [accept, refuse]
  all_goals first | exact h | exact L.sp _ _ h

theorem clearRecords (k : FeederNo) (h : P s) : P (s.clearRecords k) := by
  refine L.anySeq _ _ _ (fun l => ?_) h
  cases l; constructor <;> assumption

theorem commandPlace (p : Placement) (tag : Half) (hp : p.sections.Nodup) (h : P s) : P (s.commandPlace p tag).state := by
  unfold State.commandPlace
  split
  · exact h
  · rename_i e; exact L.place _ _ _ _ _ _ (Keeps.placeable_of_none e hp rfl) h

theorem commandRelease (id : Byte) (tag : Half) (h : P s) : P (s.commandRelease id tag).state := by
  unfold State.commandRelease
  repeat' split
  all_goals first | exact h | exact L.keeps.releaseHold _ h

theorem commandExtend (id : Byte) (tag : Half) (d : Nat) (h : P s) : P (s.commandExtend id tag d).state := by
  unfold State.commandExtend
  repeat' split
  all_goals first
    | exact h
    | exact L.keeps.holdSame _ _ (fun _ => ⟨rfl, rfl, rfl, rfl, rfl, rfl, rfl, rfl⟩) h

theorem commandDismiss (id : Byte) (tag : Half) (h : P s) : P (s.commandDismiss id tag).state := by
  unfold State.commandDismiss
  repeat' split
  all_goals first | exact h | exact L.keeps.retire _ _ h

theorem forceUnbind (id : Byte) (h : P s) : P (s.forceUnbind id) :=
  forEach_keeps _ _ (fun _ _ h => L.keeps.key _ _ _ h) h

theorem commandForce (id : Byte) (h : P s) : P (s.commandForce id).state := by
  unfold State.commandForce
  repeat' split
  all_goals first
    | exact h
    | exact L.keeps.retire _ _ (L.forceUnbind _ h)
    | exact L.keeps.releaseHold _ (L.forceUnbind _ h)

theorem ackPoint (p : PointNo) (h : P s) : P (s.ackPoint p) := L.point _ _ _ h

theorem commandAck (p : PointNo) (h : P s) : P (s.commandAck p).state := by
  unfold State.commandAck
  split
  · exact L.ackPoint _ h
  · exact h

theorem commandAckAll (h : P s) : P s.commandAckAll.state := by
  unfold State.commandAckAll State.ackList
  dsimp only [accept]
  exact forEach_keeps _ _ (fun p _ h => L.ackPoint p h) h

theorem commandWrite (n : Nat) (l : List Byte) (h : P s) : P (s.commandWrite n l).state := by
  unfold State.commandWrite
  repeat' split
  all_goals dsimp only [accept, refuse]
  all_goals first | with_reducible exact h | exact L.store _ _ rfl h

theorem commandSetLock (h : P s) : P s.commandSetLock.state :=
  show P (s.modStore fun st => { st with lock := true }) from L.store _ _ rfl h

theorem commandClearLock (h : P s) : P s.commandClearLock.state := by
  unfold State.commandClearLock
  split <;> dsimp only [accept, refuse]
  · exact L.store _ _ rfl h
  · exact h

theorem commandClearStatus (h : P s) : P s.commandClearStatus.state := by
  unfold State.commandClearStatus
  dsimp only [accept]
  exact L.store _ _ rfl h

theorem writeRetained (h : P s) : P s.writeRetained := by
  unfold State.writeRetained
  split
  · exact h
  · exact L.store _ _ rfl h

end Lawful

/-! ### Any write that keeps the records' laws -/

namespace Free

variable (F : Free P)

include F

theorem any : Any P where
  engine := F.engine
  seq s k f r := F.seq s k f fun l => (r l).1
  rect s f r := F.rect s f fun l => (r l).1
  sec := F.sec
  table := F.table
  banks s a b h := F.store s (fun st => { st with bank0 := a, bank1 := b }) rfl h
  link s p f r := F.link s p f r.1
  point := F.point
  hand _ _ _ h := F.agenda _ _ h

theorem placePeer (p : Port) (id line : Byte) (kind : HoldKind) (h : P s) : P (s.placePeer p id line kind) := by
  have A := F.any
  unfold State.placePeer
  split
  · exact A.calm.queueMessage _ _ h
  · unfold State.placeHold
    dsimp only
    refine F.agenda _ _ (forEach_keeps _ _ (fun n _ h => A.raiseCounts _ n h)
      (forEach_keeps _ _ (fun a s h => ?_) (A.handTable _ _ h)))
    split
    · exact A.calm.queueMessage _ _ h
    · exact h

/-- What survives any such write survives every event. -/
theorem lawful : Lawful P where
  toKeeps := F.any.keeps
  bands := F.bands
  anySeq := F.seq
  anyRect := F.rect
  anyLink := F.link
  replace _ _ _ _ _ _ _ h := F.placePeer _ _ _ _ (F.any.keeps.retire _ _ h)
  settled _ h := F.table _ _ h
  alerts := F.alerts
  agenda := F.agenda
  mi s m _ h := F.mi s m h
  position _ _ _ _ h := F.any.calm.earthInterlock _ (F.mi _ _ h)
  latch := F.latch
  sp := F.sp
  store := F.store

/-- Equipment verification ends. -/
theorem endVerification (h : P s) : P s.endVerification := by
  have L := F.lawful
  have h1 : P s.verificationEnds := by
    unfold State.verificationEnds
    dsimp only
    exact L.handFree _ (L.handFree _ (L.handFree _ (L.handFree _ (F.mi _ _ (forEach_keeps _ _ (fun _ _ h => F.mi _ _ h) h)))))
  unfold State.endVerification State.startEvaluation
  dsimp only
  refine L.finish (L.keeps.transmit _ (L.keeps.transmit _ ?_))
  exact forEach_keeps _ _ (fun _ _ h => L.point _ _ _ h) (F.verified _ (F.agenda _ _ (L.settle _ h1)))

end Free

end Sys2Proof.Machine
end

