-- ==== Sys2Proof/Laws/Exec.lean ====
section
/-! SUPPORT. What every command and event keeps, row by row of the table. -/

namespace Sys2Proof.Machine

open Sys2Proof

variable {P : State → Prop} {s t : State}

/-- An event that is taken, or not taken while the RESET input holds the part. -/
theorem taken_eq {f : State → State} (h : taken f s = .next t) : t = if s.resetHeld = true then s else f s := by
  unfold taken at h
  injection h with h
  exact h.symm

theorem taken_keeps {f : State → State} (hf : P s → P (f s)) (h : taken f s = .next t) (hs : P s) : P t := by
  rw [taken_eq h]
  split
  · exact hs
  · exact hf hs

theorem Lawful.taken_event (L : Lawful P) {f : State → State} (hf : P s → P (f s)) (h : Machine.event f s = .next t)
    (hs : P s) : P t := taken_keeps (fun hs => L.event f (hf hs)) h hs

/-- R115: an ascending list names each section once. -/
theorem ascending_pairwise : ∀ {l : List SectionNo}, ascending l = true → l.Pairwise fun a b => a.val < b.val
  | [], _ => .nil
  | [_], _ => .cons (by simp) .nil
  | a :: b :: rest, h => by
    simp only [ascending, Bool.and_eq_true, decide_eq_true_eq] at h
    have ih := ascending_pairwise h.2
    refine .cons (fun x m => ?_) ih
    rcases List.mem_cons.1 m with rfl | m
    · exact h.1
    · exact Nat.lt_trans h.1 (List.rel_of_pairwise_cons ih m)

/-- R115: the section list of a placement names each section once. -/
theorem placementOperands_nodup {kind : Byte} {tag : Half} {count : Byte} {sections : List Byte} {duration : Half}
    {p : Placement} (h : placementOperands kind tag count sections duration = some p) : p.sections.Nodup := by
  unfold placementOperands at h
  repeat' split at h
  all_goals first | (cases h; done) | skip
  rename_i ha
  cases h
  exact (ascending_pairwise ha).imp fun hlt he => by rw [he] at hlt; exact Nat.lt_irrefl _ hlt

namespace Lawful

variable (L : Lawful P)

include L

theorem execEquipmentVerificationEnd (hv : ∀ s, s.verifying = true → P s → P s.endVerification)
    (h : Machine.execEquipmentVerificationEnd s = .next t) (hs : P s) : P t := by
  unfold Machine.execEquipmentVerificationEnd at h
  refine taken_keeps (fun hs => ?_) h hs
  split
  · exact hv _ (by assumption) hs
  · exact L.event _ hs

theorem execSampleFrame (f : SampleFrame) (order : List ArrivalTaker) (h : Machine.execSampleFrame f order s = .next t) (hs : P s) : P t := by
  unfold Machine.execSampleFrame at h
  refine L.taken_event (fun h => ?_) h hs
  exact L.takeFrame _ _ h

theorem execFrameTimeout (h : Machine.execFrameTimeout s = .next t) (hs : P s) : P t := by
  unfold Machine.execFrameTimeout at h
  refine L.taken_event (fun h => ?_) h hs
  exact L.frameTimesOut h

theorem execContactRawChange (input : InputId) (on : Bool) (h : Machine.execContactRawChange input on s = .next t) (hs : P s) : P t := by
  injection h with h; rw [← h]; exact L.mi _ _ (fun _ => rfl) hs

theorem execInputChange (input : InputId) (h : Machine.execInputChange input s = .next t) (hs : P s) : P t := by
  unfold Machine.execInputChange at h
  refine L.taken_event (fun h => ?_) h hs
  exact L.takeInput _ h

theorem execTransitTimerExpiry (p : PairId) (h : Machine.execTransitTimerExpiry p s = .next t) (hs : P s) : P t := by
  unfold Machine.execTransitTimerExpiry at h
  refine L.taken_event (fun h => ?_) h hs
  split
  · exact L.transitTimesOut _ h
  · exact h

theorem execOpenTimerExpiry (k : FeederNo) (h : Machine.execOpenTimerExpiry k s = .next t) (hs : P s) : P t := by
  unfold Machine.execOpenTimerExpiry at h
  refine L.taken_event (fun h => ?_) h hs
  split
  · exact L.openTimeout _ h
  · exact h

theorem execCloseTimerExpiry (k : FeederNo) (h : Machine.execCloseTimerExpiry k s = .next t) (hs : P s) : P t := by
  unfold Machine.execCloseTimerExpiry at h
  refine L.taken_event (fun h => ?_) h hs
  split
  · rename_i e; exact L.closeTimeout _ e h
  · exact h

theorem execDeadTimerExpiry (k : FeederNo) (h : Machine.execDeadTimerExpiry k s = .next t) (hs : P s) : P t := by
  unfold Machine.execDeadTimerExpiry at h
  refine L.taken_event (fun h => ?_) h hs
  split
  · rename_i e; exact L.deadTimeout _ e h
  · exact h

theorem execTestTimerExpiry (k : FeederNo) (h : Machine.execTestTimerExpiry k s = .next t) (hs : P s) : P t := by
  unfold Machine.execTestTimerExpiry at h
  refine L.taken_event (fun h => ?_) h hs
  split
  · exact L.judgeTest _ h
  · exact h

theorem execReclaimTimerExpiry (k : FeederNo) (h : Machine.execReclaimTimerExpiry k s = .next t) (hs : P s) : P t := by
  unfold Machine.execReclaimTimerExpiry at h
  refine taken_keeps (fun h => ?_) h hs
  split
  · exact L.reclaim _ h
  · exact h

theorem execCommutationReference (elapsed : Nat) (h : Machine.execCommutationReference elapsed s = .next t) (hs : P s) : P t := by
  unfold Machine.execCommutationReference at h
  refine L.taken_event (fun h => ?_) h hs
  exact L.rectReference _ h

theorem execGatePulse (bridge : Bridge) (pair : Nat) (h : Machine.execGatePulse bridge pair s = .next t) (hs : P s) : P t := by
  unfold Machine.execGatePulse at h
  refine taken_keeps (fun h => ?_) h hs
  exact L.emitPulse _ _ h

theorem execReferenceSupervisionExpiry (h : Machine.execReferenceSupervisionExpiry s = .next t) (hs : P s) : P t := by
  unfold Machine.execReferenceSupervisionExpiry at h
  refine L.taken_event (fun h => ?_) h hs
  split
  · exact L.rectDip h
  · exact h

theorem execSyncTimerExpiry (h : Machine.execSyncTimerExpiry s = .next t) (hs : P s) : P t := by
  have K := L.keeps
  unfold Machine.execSyncTimerExpiry at h
  refine L.taken_event (fun h => ?_) h hs
  split
  · exact K.rectTrip _ h
  · exact h

theorem execWakeTimerExpiry (h : Machine.execWakeTimerExpiry s = .next t) (hs : P s) : P t := by
  have K := L.keeps
  unfold Machine.execWakeTimerExpiry at h
  refine L.taken_event (fun h => ?_) h hs
  split
  · exact K.rectWake h
  · exact h

theorem execEarthMismatchTimerExpiry (k : FeederNo) (h : Machine.execEarthMismatchTimerExpiry k s = .next t) (hs : P s) : P t := by
  unfold Machine.execEarthMismatchTimerExpiry at h
  refine L.taken_event (fun h => ?_) h hs
  split
  · exact L.secSame _ _ (fun _ => ⟨rfl, rfl, rfl, rfl, rfl⟩) h
  · exact h

theorem execSecuringLimitExpiry (id : Byte) (h : Machine.execSecuringLimitExpiry id s = .next t) (hs : P s) : P t := by
  have K := L.keeps
  unfold Machine.execSecuringLimitExpiry at h
  refine L.taken_event (fun h => ?_) h hs
  exact L.holdTimer _ _ _ (fun _ h => K.fail _ _ _ h) h

theorem execProvingWaitExpiry (id : Byte) (h : Machine.execProvingWaitExpiry id s = .next t) (hs : P s) : P t := by
  have K := L.keeps
  unfold Machine.execProvingWaitExpiry at h
  refine L.taken_event (fun h => ?_) h hs
  exact L.holdTimer _ _ _ (fun _ h => K.judgeProof _ (K.holdSame _ _ (fun _ => ⟨rfl, rfl, rfl, rfl, rfl, rfl, rfl, rfl⟩) h)) h

theorem execProvingLimitExpiry (id : Byte) (h : Machine.execProvingLimitExpiry id s = .next t) (hs : P s) : P t := by
  have K := L.keeps
  unfold Machine.execProvingLimitExpiry at h
  refine L.taken_event (fun h => ?_) h hs
  exact L.holdTimer _ _ _ (fun _ h => K.fail _ _ _ h) h

theorem execEarthingLimitExpiry (id : Byte) (h : Machine.execEarthingLimitExpiry id s = .next t) (hs : P s) : P t := by
  have K := L.keeps
  unfold Machine.execEarthingLimitExpiry at h
  refine L.taken_event (fun h => ?_) h hs
  exact L.holdTimer _ _ _ (fun _ h => K.fail _ _ _ h) h

theorem execDropLimitExpiry (id : Byte) (h : Machine.execDropLimitExpiry id s = .next t) (hs : P s) : P t := by
  have K := L.keeps
  unfold Machine.execDropLimitExpiry at h
  refine L.taken_event (fun h => ?_) h hs
  exact L.holdTimer _ _ _ (fun _ h => K.retire _ _ h) h

theorem execRetireTimerExpiry (id : Byte) (h : Machine.execRetireTimerExpiry id s = .next t) (hs : P s) : P t := by
  have K := L.keeps
  unfold Machine.execRetireTimerExpiry at h
  refine L.taken_event (fun h => ?_) h hs
  exact L.holdTimer _ _ _ (fun _ h => K.retire _ _ h) h

theorem execMinuteTimerExpiry (id : Byte) (h : Machine.execMinuteTimerExpiry id s = .next t) (hs : P s) : P t := by
  unfold Machine.execMinuteTimerExpiry at h
  refine L.taken_event (fun h => ?_) h hs
  exact L.holdTimer _ _ _ (fun _ h => L.minuteEnds _ _ h) h

theorem execBeacon (p : Port) (station : Byte) (entries : List BeaconEntry) (delivering : Bool) (h : Machine.execBeacon p station entries delivering s = .next t) (hs : P s) : P t := by
  unfold Machine.execBeacon at h
  refine L.taken_event (fun h => ?_) h hs
  exact L.linkReceives _ _ _ h

theorem execIntertrip (p : Port) (station : Byte) (line : Byte) (cause : IntertripCause) (h : Machine.execIntertrip p station line cause s = .next t) (hs : P s) : P t := by
  unfold Machine.execIntertrip at h
  refine L.taken_event (fun h => ?_) h hs
  exact L.linkReceives _ _ _ h

theorem execAsk (p : Port) (station : Byte) (id line : Byte) (kind : HoldKind) (h : Machine.execAsk p station id line kind s = .next t) (hs : P s) : P t := by
  unfold Machine.execAsk at h
  refine L.taken_event (fun h => ?_) h hs
  exact L.linkReceives _ _ _ h

theorem execGrant (p : Port) (station : Byte) (id holdId : Byte) (h : Machine.execGrant p station id holdId s = .next t) (hs : P s) : P t := by
  unfold Machine.execGrant at h
  refine L.taken_event (fun h => ?_) h hs
  exact L.linkReceives _ _ _ h

theorem execDeny (p : Port) (station : Byte) (id : Byte) (reason : DenyReason) (h : Machine.execDeny p station id reason s = .next t) (hs : P s) : P t := by
  unfold Machine.execDeny at h
  refine L.taken_event (fun h => ?_) h hs
  exact L.linkReceives _ _ _ h

theorem execDrop (p : Port) (station : Byte) (id : Byte) (h : Machine.execDrop p station id s = .next t) (hs : P s) : P t := by
  unfold Machine.execDrop at h
  refine L.taken_event (fun h => ?_) h hs
  exact L.linkReceives _ _ _ h

theorem execDropped (p : Port) (station : Byte) (id : Byte) (h : Machine.execDropped p station id s = .next t) (hs : P s) : P t := by
  unfold Machine.execDropped at h
  refine L.taken_event (fun h => ?_) h hs
  exact L.linkReceives _ _ _ h

theorem execAudit (p : Port) (station : Byte) (ids : List Byte) (h : Machine.execAudit p station ids s = .next t) (hs : P s) : P t := by
  unfold Machine.execAudit at h
  refine L.taken_event (fun h => ?_) h hs
  exact L.linkReceives _ _ _ h

theorem execDiscardedMessage (p : Port) (h : Machine.execDiscardedMessage p s = .next t) (hs : P s) : P t := by
  unfold Machine.execDiscardedMessage at h
  refine L.taken_event (fun h => ?_) h hs
  split
  · exact h
  · exact L.linkDiscards _ h

theorem execSupervisionTimerExpiry (p : Port) (h : Machine.execSupervisionTimerExpiry p s = .next t) (hs : P s) : P t := by
  unfold Machine.execSupervisionTimerExpiry at h
  refine L.taken_event (fun h => ?_) h hs
  split
  · exact L.linkFalls _ _ h
  · exact h

theorem execTransmissionCompletion (p : Port) (h : Machine.execTransmissionCompletion p s = .next t) (hs : P s) : P t := by
  unfold Machine.execTransmissionCompletion at h
  refine taken_keeps (fun h => ?_) h hs
  exact L.transmissionEnds _ h

theorem execBeaconTimerExpiry (p : Port) (h : Machine.execBeaconTimerExpiry p s = .next t) (hs : P s) : P t := by
  unfold Machine.execBeaconTimerExpiry at h
  refine taken_keeps (fun h => ?_) h hs
  exact L.beaconTimeout _ h

theorem execSelectionTimerExpiry (h : Machine.execSelectionTimerExpiry s = .next t) (hs : P s) : P t := by
  unfold Machine.execSelectionTimerExpiry at h
  refine taken_keeps (fun h => ?_) h hs
  split
  · exact L.sp _ _ h
  · exact h

theorem execEraseCompletion (verified : Bool) (h : Machine.execEraseCompletion verified s = .next t) (hs : P s) : P t := by
  unfold Machine.execEraseCompletion at h
  refine L.taken_event (fun h => ?_) h hs
  exact L.eraseEnds _ h

theorem execProgramCompletion (verified : Bool) (h : Machine.execProgramCompletion verified s = .next t) (hs : P s) : P t := by
  unfold Machine.execProgramCompletion at h
  refine L.taken_event (fun h => ?_) h hs
  exact L.programEnds _ h

theorem execSelArming (h : Machine.execSelArming s = .next t) (hs : P s) : P t := by
  unfold Machine.execSelArming at h
  refine taken_keeps (fun h => ?_) h hs
  exact L.sp _ _ h

theorem execEmptyFrame (h : Machine.execEmptyFrame s = .next t) (hs : P s) : P t := by
  unfold Machine.execEmptyFrame at h
  refine taken_keeps (fun h => ?_) h hs
  split
  · exact L.sp _ _ h
  · exact h

theorem execBrokenFrame (h : Machine.execBrokenFrame s = .next t) (hs : P s) : P t := by
  unfold Machine.execBrokenFrame at h
  refine L.taken_event (fun h => ?_) h hs
  exact L.frameBreaks h

theorem execUnknownCommand (code : Byte) (h : Machine.execUnknownCommand code s = .next t) (hs : P s) : P t := by
  unfold Machine.execUnknownCommand at h
  refine taken_keeps (fun h => ?_) h hs
  exact L.port _ _ _ (fun f e h => by cases e; exact h) h

theorem execReadStatus (h : Machine.execReadStatus s = .next t) (hs : P s) : P t := by
  unfold Machine.execReadStatus at h
  refine taken_keeps (fun h => ?_) h hs
  exact L.portRead _ _ _ h

theorem execReadFeeder (feeder : Byte) (h : Machine.execReadFeeder feeder s = .next t) (hs : P s) : P t := by
  unfold Machine.execReadFeeder at h
  refine taken_keeps (fun h => ?_) h hs
  exact L.portRead _ _ _ h

theorem execReadTripRecord (feeder choice : Byte) (h : Machine.execReadTripRecord feeder choice s = .next t) (hs : P s) : P t := by
  unfold Machine.execReadTripRecord at h
  refine taken_keeps (fun h => ?_) h hs
  exact L.portRead _ _ _ h

theorem execReadSection (number : Byte) (h : Machine.execReadSection number s = .next t) (hs : P s) : P t := by
  unfold Machine.execReadSection at h
  refine taken_keeps (fun h => ?_) h hs
  exact L.portRead _ _ _ h

theorem execReadHold (id : Byte) (h : Machine.execReadHold id s = .next t) (hs : P s) : P t := by
  unfold Machine.execReadHold at h
  refine taken_keeps (fun h => ?_) h hs
  exact L.portRead _ _ _ h

theorem execListHolds (h : Machine.execListHolds s = .next t) (hs : P s) : P t := by
  unfold Machine.execListHolds at h
  refine taken_keeps (fun h => ?_) h hs
  exact L.portRead _ _ _ h

theorem execReadRectifier (h : Machine.execReadRectifier s = .next t) (hs : P s) : P t := by
  unfold Machine.execReadRectifier at h
  refine taken_keeps (fun h => ?_) h hs
  exact L.portRead _ _ _ h

theorem execReadAlerts (h : Machine.execReadAlerts s = .next t) (hs : P s) : P t := by
  unfold Machine.execReadAlerts at h
  refine taken_keeps (fun h => ?_) h hs
  exact L.portRead _ _ _ h

theorem execReadPoint (point : Byte) (h : Machine.execReadPoint point s = .next t) (hs : P s) : P t := by
  unfold Machine.execReadPoint at h
  refine taken_keeps (fun h => ?_) h hs
  exact L.portRead _ _ _ h

theorem execReadLink (port : Byte) (h : Machine.execReadLink port s = .next t) (hs : P s) : P t := by
  unfold Machine.execReadLink at h
  refine taken_keeps (fun h => ?_) h hs
  exact L.portRead _ _ _ h

theorem execReadSettingsStatus (h : Machine.execReadSettingsStatus s = .next t) (hs : P s) : P t := by
  unfold Machine.execReadSettingsStatus at h
  refine taken_keeps (fun h => ?_) h hs
  exact L.portRead _ _ _ h

theorem execReadStaging (offset : Half) (length : Byte) (h : Machine.execReadStaging offset length s = .next t) (hs : P s) : P t := by
  unfold Machine.execReadStaging at h
  refine taken_keeps (fun h => ?_) h hs
  exact L.portRead _ _ _ h

theorem execReadTime (h : Machine.execReadTime s = .next t) (hs : P s) : P t := by
  unfold Machine.execReadTime at h
  refine taken_keeps (fun h => ?_) h hs
  exact L.portRead _ _ _ h

theorem execSelect (target action : Byte) (h : Machine.execSelect target action s = .next t) (hs : P s) : P t := by
  unfold Machine.execSelect at h
  refine taken_keeps (fun h => ?_) h hs
  exact L.port _ _ _ (fun f e h => by
      repeat' split at e
      all_goals cases e
      exact L.commandSelect _ _ h) h

theorem execOperate (target action : Byte) (h : Machine.execOperate target action s = .next t) (hs : P s) : P t := by
  unfold Machine.execOperate at h
  refine L.taken_event (fun h => ?_) h hs
  exact L.port _ _ _ (fun f e h => by
      repeat' split at e
      all_goals cases e
      exact L.commandOperate _ _ h) h

theorem execCancelSelection (h : Machine.execCancelSelection s = .next t) (hs : P s) : P t := by
  unfold Machine.execCancelSelection at h
  refine taken_keeps (fun h => ?_) h hs
  exact L.port _ _ _ (fun f e h => by cases e; exact L.sp _ _ h) h

theorem execResetLockout (feeder : Byte) (h : Machine.execResetLockout feeder s = .next t) (hs : P s) : P t := by
  unfold Machine.execResetLockout at h
  refine L.taken_event (fun h => ?_) h hs
  exact L.port _ _ _ (fun f e h => by
      obtain ⟨x, -, rfl⟩ := Option.map_eq_some_iff.1 e
      exact L.commandReset _ h) h

theorem execClearTripRecords (feeder : Byte) (h : Machine.execClearTripRecords feeder s = .next t) (hs : P s) : P t := by
  unfold Machine.execClearTripRecords at h
  refine taken_keeps (fun h => ?_) h hs
  exact L.port _ _ _ (fun f e h => by
      split at e
      · cases e; exact forEach_keeps _ _ (fun _ _ h => L.clearRecords _ h) h
      · obtain ⟨k, -, rfl⟩ := Option.map_eq_some_iff.1 e
        unfold State.commandClear
        split
        · exact L.clearRecords _ h
        · exact h) h

theorem execPlaceHold (kind : Byte) (tag : Half) (count : Byte) (sections : List Byte) (duration : Half) (h : Machine.execPlaceHold kind tag count sections duration s = .next t) (hs : P s) : P t := by
  unfold Machine.execPlaceHold at h
  refine L.taken_event (fun h => ?_) h hs
  split
  · exact L.frameBreaks h
  · exact L.port _ _ _ (fun f e h => by
      obtain ⟨x, hx, rfl⟩ := Option.map_eq_some_iff.1 e
      exact L.commandPlace _ _ (placementOperands_nodup hx) h) h

theorem execReleaseHold (id : Byte) (tag : Half) (h : Machine.execReleaseHold id tag s = .next t) (hs : P s) : P t := by
  unfold Machine.execReleaseHold at h
  refine L.taken_event (fun h => ?_) h hs
  exact L.port _ _ _ (fun f e h => by
      split at e
      all_goals cases e
      exact L.commandRelease _ _ h) h

theorem execExtendHold (id : Byte) (tag duration : Half) (h : Machine.execExtendHold id tag duration s = .next t) (hs : P s) : P t := by
  unfold Machine.execExtendHold at h
  refine L.taken_event (fun h => ?_) h hs
  exact L.port _ _ _ (fun f e h => by
      split at e
      all_goals cases e
      exact L.commandExtend _ _ _ h) h

theorem execDismissHold (id : Byte) (tag : Half) (h : Machine.execDismissHold id tag s = .next t) (hs : P s) : P t := by
  unfold Machine.execDismissHold at h
  refine L.taken_event (fun h => ?_) h hs
  exact L.port _ _ _ (fun f e h => by
      split at e
      all_goals cases e
      exact L.commandDismiss _ _ h) h

theorem execForceRelease (id : Byte) (h : Machine.execForceRelease id s = .next t) (hs : P s) : P t := by
  unfold Machine.execForceRelease at h
  refine L.taken_event (fun h => ?_) h hs
  exact L.port _ _ _ (fun f e h => by
      split at e
      all_goals cases e
      exact L.commandForce _ h) h

theorem execAcknowledgePoint (point : Byte) (h : Machine.execAcknowledgePoint point s = .next t) (hs : P s) : P t := by
  unfold Machine.execAcknowledgePoint at h
  refine taken_keeps (fun h => ?_) h hs
  exact L.alerts _ (L.port _ _ _ (fun f e h => by
      obtain ⟨x, -, rfl⟩ := Option.map_eq_some_iff.1 e
      exact L.commandAck _ h) h)

theorem execAcknowledgeAll (h : Machine.execAcknowledgeAll s = .next t) (hs : P s) : P t := by
  unfold Machine.execAcknowledgeAll at h
  refine taken_keeps (fun h => ?_) h hs
  exact L.alerts _ (L.port _ _ _ (fun f e h => by cases e; exact L.commandAckAll h) h)

theorem execWriteStaging (offset : Half) (count : Byte) (data : List Byte) (h : Machine.execWriteStaging offset count data s = .next t) (hs : P s) : P t := by
  unfold Machine.execWriteStaging at h
  split at h
  · exact L.taken_event (fun h => L.frameBreaks h) h hs
  · exact taken_keeps (fun h => L.port _ _ _ (fun f e h => by
      split at e
      all_goals cases e
      exact L.commandWrite _ _ h) h) h hs

theorem execErase (target : Byte) (h : Machine.execErase target s = .next t) (hs : P s) : P t := by
  unfold Machine.execErase at h
  refine taken_keeps (fun h => ?_) h hs
  exact L.port _ _ _ (fun f e h => by cases e; exact L.commandErase _ h) h

theorem execProgram (target : Byte) (h : Machine.execProgram target s = .next t) (hs : P s) : P t := by
  unfold Machine.execProgram at h
  refine taken_keeps (fun h => ?_) h hs
  exact L.port _ _ _ (fun f e h => by cases e; exact L.commandProgram _ h) h

theorem execActivate (group : Byte) (h : Machine.execActivate group s = .next t) (hs : P s) : P t := by
  unfold Machine.execActivate at h
  refine L.taken_event (fun h => ?_) h hs
  exact L.port _ _ _ (fun f e h => by cases e; exact L.commandActivate _ h) h

theorem execClearSettingsStatus (h : Machine.execClearSettingsStatus s = .next t) (hs : P s) : P t := by
  unfold Machine.execClearSettingsStatus at h
  refine taken_keeps (fun h => ?_) h hs
  exact L.port _ _ _ (fun f e h => by cases e; exact L.commandClearStatus h) h

theorem execSetLock (h : Machine.execSetLock s = .next t) (hs : P s) : P t := by
  unfold Machine.execSetLock at h
  refine taken_keeps (fun h => ?_) h hs
  exact L.writeRetained (L.port _ _ _ (fun f e h => by cases e; exact L.commandSetLock h) h)

theorem execClearLock (h : Machine.execClearLock s = .next t) (hs : P s) : P t := by
  unfold Machine.execClearLock at h
  refine taken_keeps (fun h => ?_) h hs
  exact L.writeRetained (L.port _ _ _ (fun f e h => by cases e; exact L.commandClearLock h) h)

end Lawful

/-- What every event keeps, every command and event keeps that is no reset and does not write the clock. -/
theorem exec_lawful (L : Lawful P) (hv : ∀ s, s.verifying = true → P s → P s.endVerification) (c : Instr) (hr : touchesReset c = false) (hk : touchesClock c = false)
    (h : exec c s = .next t) (hs : P s) : P t := by
  cases c with
  | powerOn => cases hr
  | resetInput => cases hr
  | equipmentVerificationEnd => exact L.execEquipmentVerificationEnd hv h hs
  | sampleFrame f order => exact L.execSampleFrame f order h hs
  | frameTimeout => exact L.execFrameTimeout h hs
  | contactRawChange input on => exact L.execContactRawChange input on h hs
  | inputChange input => exact L.execInputChange input h hs
  | transitTimerExpiry p => exact L.execTransitTimerExpiry p h hs
  | openTimerExpiry k => exact L.execOpenTimerExpiry k h hs
  | closeTimerExpiry k => exact L.execCloseTimerExpiry k h hs
  | deadTimerExpiry k => exact L.execDeadTimerExpiry k h hs
  | testTimerExpiry k => exact L.execTestTimerExpiry k h hs
  | reclaimTimerExpiry k => exact L.execReclaimTimerExpiry k h hs
  | commutationReference elapsed => exact L.execCommutationReference elapsed h hs
  | gatePulse bridge pair => exact L.execGatePulse bridge pair h hs
  | referenceSupervisionExpiry => exact L.execReferenceSupervisionExpiry h hs
  | syncTimerExpiry => exact L.execSyncTimerExpiry h hs
  | wakeTimerExpiry => exact L.execWakeTimerExpiry h hs
  | earthMismatchTimerExpiry k => exact L.execEarthMismatchTimerExpiry k h hs
  | securingLimitExpiry id => exact L.execSecuringLimitExpiry id h hs
  | provingWaitExpiry id => exact L.execProvingWaitExpiry id h hs
  | provingLimitExpiry id => exact L.execProvingLimitExpiry id h hs
  | earthingLimitExpiry id => exact L.execEarthingLimitExpiry id h hs
  | dropLimitExpiry id => exact L.execDropLimitExpiry id h hs
  | retireTimerExpiry id => exact L.execRetireTimerExpiry id h hs
  | minuteTimerExpiry id => exact L.execMinuteTimerExpiry id h hs
  | beacon p station entries delivering => exact L.execBeacon p station entries delivering h hs
  | intertrip p station line cause => exact L.execIntertrip p station line cause h hs
  | ask p station id line kind => exact L.execAsk p station id line kind h hs
  | grant p station id holdId => exact L.execGrant p station id holdId h hs
  | deny p station id reason => exact L.execDeny p station id reason h hs
  | drop p station id => exact L.execDrop p station id h hs
  | dropped p station id => exact L.execDropped p station id h hs
  | audit p station ids => exact L.execAudit p station ids h hs
  | discardedMessage p => exact L.execDiscardedMessage p h hs
  | supervisionTimerExpiry p => exact L.execSupervisionTimerExpiry p h hs
  | transmissionCompletion p => exact L.execTransmissionCompletion p h hs
  | beaconTimerExpiry p => exact L.execBeaconTimerExpiry p h hs
  | stationTimeTick => cases hk
  | selectionTimerExpiry => exact L.execSelectionTimerExpiry h hs
  | eraseCompletion verified => exact L.execEraseCompletion verified h hs
  | programCompletion verified => exact L.execProgramCompletion verified h hs
  | selArming => exact L.execSelArming h hs
  | emptyFrame => exact L.execEmptyFrame h hs
  | brokenFrame => exact L.execBrokenFrame h hs
  | unknownCommand code => exact L.execUnknownCommand code h hs
  | readStatus => exact L.execReadStatus h hs
  | readFeeder feeder => exact L.execReadFeeder feeder h hs
  | readTripRecord feeder choice => exact L.execReadTripRecord feeder choice h hs
  | readSection number => exact L.execReadSection number h hs
  | readHold id => exact L.execReadHold id h hs
  | listHolds => exact L.execListHolds h hs
  | readRectifier => exact L.execReadRectifier h hs
  | readAlerts => exact L.execReadAlerts h hs
  | readPoint point => exact L.execReadPoint point h hs
  | readLink port => exact L.execReadLink port h hs
  | readSettingsStatus => exact L.execReadSettingsStatus h hs
  | readStaging offset length => exact L.execReadStaging offset length h hs
  | readTime => exact L.execReadTime h hs
  | select target action => exact L.execSelect target action h hs
  | operate target action => exact L.execOperate target action h hs
  | cancelSelection => exact L.execCancelSelection h hs
  | resetLockout feeder => exact L.execResetLockout feeder h hs
  | clearTripRecords feeder => exact L.execClearTripRecords feeder h hs
  | placeHold kind tag count sections duration => exact L.execPlaceHold kind tag count sections duration h hs
  | releaseHold id tag => exact L.execReleaseHold id tag h hs
  | extendHold id tag duration => exact L.execExtendHold id tag duration h hs
  | dismissHold id tag => exact L.execDismissHold id tag h hs
  | forceRelease id => exact L.execForceRelease id h hs
  | acknowledgePoint point => exact L.execAcknowledgePoint point h hs
  | acknowledgeAll => exact L.execAcknowledgeAll h hs
  | setTime _ => cases hk
  | writeStaging offset count data => exact L.execWriteStaging offset count data h hs
  | erase target => exact L.execErase target h hs
  | program target => exact L.execProgram target h hs
  | activate group => exact L.execActivate group h hs
  | clearSettingsStatus => exact L.execClearSettingsStatus h hs
  | setLock => exact L.execSetLock h hs
  | clearLock => exact L.execClearLock h hs
  | restart => cases hr
  | resetInputRelease => cases hr

end Sys2Proof.Machine
end

