-- ==== Sys2Proof/Laws/Event.lean ====
section
/-! SUPPORT. What an event answers, and what it leaves alone. -/

namespace Sys2Proof.Machine

open Sys2Proof

variable {s t u : State}

/-! ### What stays the same -/

theorem Same.refl (p : Part) (s : State) : Same p s s := by cases p <;> simp [Same]

theorem Same.trans {p : Part} (h : Same p s t) (g : Same p t u) : Same p s u := by
  cases p
  case settings =>
    simp only [Same] at h g ⊢
    rw [← h]; conv => rhs; rw [← g]
  all_goals simp_all [Same]

theorem OnlyChanges.refl (l : List Part) (s : State) : OnlyChanges l s s := fun p _ => Same.refl p s

theorem OnlyChanges.trans {l : List Part} (h : OnlyChanges l s t) (g : OnlyChanges l t u) : OnlyChanges l s u :=
  fun p m => (h p m).trans (g p m)

theorem OnlyChanges.mono {l m : List Part} (h : OnlyChanges l s t) (hl : ∀ p ∈ l, p ∈ m) : OnlyChanges m s t :=
  fun p n => h p fun k => n (hl p k)

/-! ### The end of an event -/

/-- The end of an event writes the points and the retained area. -/
theorem State.finish_only (s : State) : OnlyChanges [.points, .banks] s s.finish := by
  intro p m
  obtain ⟨h1, h2, h3⟩ := State.finish_clock s
  cases p <;> simp only [Same] <;> first
    | exact absurd m (by decide)
    | exact State.finish_rest s
    | exact ⟨h1, h2⟩
    | exact h3
    | simp

/-! ### Running events -/

theorem taken_running (f : State → State) (h : s.resetHeld = false) : taken f s = .next (f s) := by simp [taken, h]

theorem event_running (f : State → State) (h : s.resetHeld = false) : event f s = .next (s.event f) := taken_running _ h

/-- Where no handing waits, none is dropped. -/
theorem State.atRest_quiet (h : s.agenda = []) : s.atRest = s := by
  unfold State.atRest; rw [← h]

/-- An event whose first effect hands nothing on. -/
theorem State.event_quiet (f : State → State) (h : (f s).agenda = []) : s.event f = (f s).finish := by
  unfold State.event; rw [settle_quiet h, State.atRest_quiet h]

/-- An event whose handings change nothing. -/
theorem State.event_inert (f : State → State) (l : List Signal) (h : (f s).agenda = l)
    (hl : ∀ g ∈ l, State.handle g { f s with agenda := [] } = { f s with agenda := [] }) (hn : l.length ≤ Config.handingBound) :
    s.event f = State.finish { f s with agenda := [] } := by
  unfold State.event; rw [settle_inert l h hl _ hn]; rfl

/-- An event whose handings have all been carried out. -/
theorem State.event_settled (f : State → State) (t : State) (h : (f s).settle Config.handingBound = t) (hq : t.agenda = []) :
    s.event f = t.finish := by
  unfold State.event; rw [h, State.atRest_quiet hq]

/-- The handings of an event reach `reached` only. -/
theorem State.settle_only (n : Nat) (c : Consequential s) : OnlyChanges reached s (s.settle n) := by
  have step : ∀ {a b : State}, OnlyChanges reached s a → (∀ p, p ∉ reached → Same p a b) → OnlyChanges reached s b :=
    fun h g => h.trans g
  have A : Any (OnlyChanges reached s) := {
    engine := fun a k f _ h => step h fun p m => by cases p <;> first | exact absurd m (by decide) | simp [Same]
    seq := fun a k f _ h => step h fun p m => by cases p <;> first | exact absurd m (by decide) | simp [Same]
    rect := fun a f _ h => step h fun p m => by cases p <;> first | exact absurd m (by decide) | simp [Same]
    sec := fun a n f h => step h fun p m => by cases p <;> first | exact absurd m (by decide) | simp [Same]
    table := fun a ht h => step h fun p m => by cases p <;> first | exact absurd m (by decide) | simp [Same]
    banks := fun a b c h => step h fun p m => by cases p <;> first | exact absurd m (by decide) | simp [Same]
    link := fun a q f _ h => step h fun p m => by cases p <;> first | exact absurd m (by decide) | simp [Same]
    point := fun a q r h => step h fun p m => by cases p <;> first | exact absurd m (by decide) | simp [Same]
    hand := fun a l _ h => step h fun p m => by cases p <;> first | exact absurd m (by decide) | simp [Same] }
  refine settle_keeps A.keeps (fun a v h => step h fun p m => by cases p <;> first | exact absurd m (by decide) | simp [Same])
    (fun a l h => step h fun p m => ?_) n c (OnlyChanges.refl _ _)
  cases p <;> first | exact absurd m (by decide) | simp [Same]

/-- An event leaves alone what its first effect leaves alone and its consequences do not reach. -/
theorem State.event_only (f : State → State) (c : Consequential (f s)) : OnlyChanges reached (f s) (s.event f) := by
  refine (State.settle_only Config.handingBound c).trans (OnlyChanges.trans (t := ((f s).settle Config.handingBound).atRest) (fun p m => ?_)
    ((State.finish_only _).mono (by decide)))
  cases p <;> first | exact absurd m (by decide) | simp [Same, State.atRest]

/-- What the consequences and the end of an event keep, the event keeps. -/
theorem Keeps.event {P : State → Prop} (K : Keeps P) (hA : ∀ s l, P s → P { s with agenda := l })
    (hc : ∀ s, P s → P s.closeAlerts) (hb : ∀ s c, P s → P (s.modStore (Store.writeCopy c)))
    (f : State → State) (c : Consequent (f s)) (h : P (f s)) : P (s.event f) :=
  finish_keeps K.point hc hb (hA _ _ (settle_consequent K hA _ c h))

/-- No handing waits after an event (assumption 3). -/
theorem State.event_agenda (f : State → State) : (s.event f).agenda = [] := by
  unfold State.event; simp [State.atRest]

theorem Consequential.of_quiet (h : s.agenda = []) : Consequential s := fun g m => by rw [h] at m; cases m

end Sys2Proof.Machine
end

