-- ==== Sys2Proof/Laws/Settle.lean ====
section
/-! SUPPORT. How the handings of an event are carried out one by one, and what the operations of a feeder do on a feeder whose
engine rests. -/

namespace Sys2Proof.Machine

open Sys2Proof

variable {s t u : State} {k : FeederNo}

/-! ### Handings one by one -/

/-- The handings `l`, carried out from `s` in at most `n` steps, leave `t`, in which none waits. -/
inductive Carried : Nat → State → List Signal → State → Prop where
  | done (n : Nat) (s : State) : Carried n s [] { s with agenda := [] }
  | step {n : Nat} {s u t : State} {g : Signal} {m l : List Signal}
      (h : State.handle g { s with agenda := [] } = { u with agenda := m }) (c : Carried n u (m ++ l) t) :
      Carried (n + 1) s (g :: l) t

theorem Carried.agenda {n : Nat} {l : List Signal} (c : Carried n s l t) : t.agenda = [] := by
  induction c with
  | done => rfl
  | step _ _ ih => exact ih

/-- One handing carried out. -/
theorem settle_handle {g : Signal} {m l : List Signal} (h : State.handle g { s with agenda := [] } = { u with agenda := m }) (b : Nat) :
    State.settle (b + 1) { s with agenda := g :: l } = State.settle b { u with agenda := m ++ l } := by
  have e : State.settle (b + 1) { s with agenda := g :: l } =
      State.settle b { State.handle g { s with agenda := [] } with
        agenda := (State.handle g { s with agenda := [] }).agenda ++ l } := rfl
  rw [e, h]

theorem Carried.settle {n : Nat} {l : List Signal} (c : Carried n s l t) (b : Nat) (h : n ≤ b) :
    State.settle b { s with agenda := l } = t := by
  induction c generalizing b with
  | done n s => exact settle_quiet rfl b
  | step h' c ih =>
    obtain ⟨b, rfl⟩ : ∃ m, b = m + 1 := ⟨b - 1, by omega⟩
    rw [settle_handle h']
    exact ih b (by omega)

/-- A handing that changes nothing. -/
theorem Carried.skip {n : Nat} {g : Signal} {l : List Signal} (h : State.handle g { s with agenda := [] } = { s with agenda := [] })
    (c : Carried n s l t) : Carried (n + 1) s (g :: l) t := .step h c

/-- Handings that change nothing. -/
theorem Carried.skips {n : Nat} {m l : List Signal} (h : ∀ g ∈ m, State.handle g { s with agenda := [] } = { s with agenda := [] })
    (c : Carried n s l t) : Carried (n + m.length) s (m ++ l) t := by
  induction m with
  | nil => exact c
  | cons g m ih => exact .skip (h g (by simp)) (ih fun x mx => h x (by simp [mx]))

/-- An event from its first effect and its handings carried out. -/
theorem Carried.event {n : Nat} {l : List Signal} {f : State → State} (c : Carried n u l t) (h : f s = { u with agenda := l })
    (hn : n ≤ 4096) : s.event f = t.finish :=
  State.event_settled f t (by rw [h]; exact c.settle _ hn) c.agenda

theorem State.quiet_eq (h : s.agenda = []) : ({ s with agenda := [] } : State) = s := by rw [← h]

/-! ### Pulses -/

/-- A pulse writes the Annunciation Unit alone. -/
theorem State.pulse_eq (s : State) (p : PointNo) : s.pulse p = { s with au := (s.pulse p).au } := by
  unfold State.pulse; dsimp only
  repeat' split
  all_goals rfl

/-- What a pulse writes depends on the Annunciation Unit, the clock of verification and the settings alone. -/
theorem State.pulse_au (p : PointNo) (ha : t.au = s.au) (hv : t.verification = s.verification) (hs : t.store = s.store) :
    (t.pulse p).au = (s.pulse p).au := by
  have m : t.masked p = s.masked p := by unfold State.masked; rw [hs]
  have c : t.pointClass p = s.pointClass p := by unfold State.pointClass; rw [hs]
  have e : t.point p = s.point p := by unfold State.point; rw [ha]
  have w : t.stamp = s.stamp := by unfold State.stamp; rw [ha]
  unfold State.pulse State.verifying; dsimp only
  rw [m, c, e, w, hv]
  repeat' split
  all_goals simp [State.putPoint, State.modAu, ha]

/-! ### An engine at rest -/

theorem vset_get {α : Type} {n : Nat} (v : Vector α n) (i : Fin n) : v.set i.val (v.get i) i.isLt = v := by
  show v.set i.val v[i.val] i.isLt = v
  simp

/-- A change that leaves the engine of feeder k as it is. -/
theorem EngineRests.changeEngine (r : EngineRests s k) {f : Engine → Engine} (hf : f (s.engine k) = s.engine k) :
    s.changeEngine k f = s := by
  have e : (f (s.engine k)).takeOver (s.feederSettings k) s.groupSource (s.fitted k) = s.engine k := by
    rw [hf]; unfold Engine.takeOver; rw [if_neg (by simp [r.group, r.set])]
  have m : s.modEngine k (fun e => (f e).takeOver (s.feederSettings k) s.groupSource (s.fitted k)) = s := by
    unfold State.modEngine
    have : s.engines.set k ((f (s.engines.get k)).takeOver (s.feederSettings k) s.groupSource (s.fitted k)) = s.engines :=
      (congrArg (fun x => s.engines.set k.val x k.isLt) e).trans (vset_get _ _)
    rw [this]
  unfold State.changeEngine; dsimp only; rw [m, if_pos rfl]

theorem EngineRests.cleared (r : EngineRests s k) : (s.engine k).cleared = s.engine k := by
  obtain ⟨h1, h2, h3, h4, _, _⟩ := r
  generalize s.engine k = e at *
  cases e; simp at h1 h2 h3 h4; subst h1 h2 h3 h4; rfl

/-- Engines, settings and fitted flags decide whether an engine rests. -/
theorem EngineRests.congr (r : EngineRests s k) (h : t.engines = s.engines) : EngineRests t k := by
  have e : t.engine k = s.engine k := by unfold State.engine; rw [h]
  exact ⟨e ▸ r.stage, e ▸ r.arming, e ▸ r.imax, e ▸ r.reverse, e ▸ r.group, e ▸ r.set⟩

theorem FeederQuiet.congr (r : FeederQuiet s k) (h : t.engines = s.engines) (g : t.securingOver k = s.securingOver k) :
    FeederQuiet t k :=
  ⟨r.toEngineRests.congr h, g.trans r.securing⟩

theorem EngineRests.engineStop (r : EngineRests s k) : s.engineStop k = s := by
  unfold State.engineStop
  refine r.changeEngine ?_
  obtain ⟨h1, _, h3, h4, _, _⟩ := r
  generalize s.engine k = e at *
  cases e; simp at h1 h3 h4; subst h1 h3 h4; rfl

theorem EngineRests.engineClosing (r : EngineRests s k) : s.engineClosing k = s := r.changeEngine r.cleared

theorem EngineRests.engineOpen (r : EngineRests s k) : s.engineOpen k = s := by
  unfold State.engineOpen; rw [if_neg (by rw [r.stage]; simp)]

/-! ### A sequencer whose engine rests -/

/-- R70: a sequencer enters a state; the change is handed on. -/
theorem EngineRests.enter (r : EngineRests s k) (q : SeqState) (f : Sequencer → Sequencer) :
    s.enter k q f =
      { s.modSeq k (fun x => enterFields q (f x)) with
        agenda := s.agenda ++ if (s.seq k).state = some q then [] else [.seqChanged k] } := by
  have r' : EngineRests (s.modSeq k fun x => enterFields q (f x)) k := r.congr rfl
  have e : (if q = .closing then (s.modSeq k fun x => enterFields q (f x)).engineClosing k
      else if runsIn (s.seq k).state && !runsIn (some q) then (s.modSeq k fun x => enterFields q (f x)).engineStop k
      else s.modSeq k fun x => enterFields q (f x)) = s.modSeq k fun x => enterFields q (f x) := by
    split
    · exact r'.engineClosing
    · split
      · exact r'.engineStop
      · rfl
  unfold State.enter; dsimp only; rw [e]
  split
  · simp [State.modSeq]
  · rfl

theorem State.modSeq_modSeq (f g : Sequencer → Sequencer) : (s.modSeq k f).modSeq k g = s.modSeq k fun x => g (f x) := by
  unfold State.modSeq
  simp [vget_set]

/-! ### Handings of a feeder -/

theorem handle_seqChanged (h : s.securingOver k = []) :
    State.handle (.seqChanged k) { s with agenda := [] } = { State.deriveBars (sectionOf k) s with agenda := [] } := by
  have e : (State.deriveBars (sectionOf k) { s with agenda := [] }).agenda = [] := rfl
  show State.handAll ((State.securingOver { s with agenda := [] } k).map Signal.judgeHold) _ = _
  rw [show State.securingOver { s with agenda := [] } k = s.securingOver k from rfl, h]
  rfl

theorem handle_judgeWait (h : (s.seq k).wait = none) :
    State.handle (.judgeWait k) { s with agenda := [] } = { s with agenda := [] } := by
  show State.judgeWaits k _ = _
  unfold State.judgeWaits
  rw [show (State.seq { s with agenda := [] } k).wait = none from h]; simp

theorem handle_judgeWait_out (h : (s.seq k).state ≠ some .deadTime) :
    State.handle (.judgeWait k) { s with agenda := [] } = { s with agenda := [] } := by
  show State.judgeWaits k _ = _
  unfold State.judgeWaits State.seqIn
  rw [if_neg]
  simp only [Bool.and_eq_true, beq_iff_eq, not_and]
  intro e; exact absurd e h

theorem handle_wake (h : s.rect.state ≠ .standby) : State.handle .wake { s with agenda := [] } = { s with agenda := [] } := by
  show State.rectWake _ = _
  unfold State.rectWake; rw [if_neg h]

/-! ### Handings of the rectifier group -/

theorem handle_rectChanged : State.handle .rectChanged { s with agenda := [] } =
    { s.deriveBusFeed with
      agenda := allFeeders.map Signal.judgeWait ++ s.securingBus.map Signal.judgeHold } := by
  show State.handAll (s.securingBus.map Signal.judgeHold)
    (State.handAll (allFeeders.map Signal.judgeWait) { s.deriveBusFeed with agenda := [] }) = _
  simp [State.handAll]

/-- R57, R99, R119: a change of the state of the group while nothing waits. -/
theorem NothingWaits.carried (w : NothingWaits s) : Carried 7 s [.rectChanged] { s.deriveBusFeed with agenda := [] } := by
  have w' : ∀ k, ((s.deriveBusFeed).seq k).wait = none := w.waits
  refine .step handle_rectChanged ?_
  rw [w.securing]
  have c := Carried.skips (s := s.deriveBusFeed) (m := allFeeders.map Signal.judgeWait) (l := []) (fun g mg => by
    obtain ⟨k, _, rfl⟩ := List.mem_map.1 mg
    exact handle_judgeWait (w' k)) (.done 0 _)
  simpa using (show Carried 6 _ _ _ from c)

end Sys2Proof.Machine
end

