-- ==== Sys2Proof/Laws/FeederRules.lean ====
section
/-! SUPPORT. What the operations of a breaker sequencer do on a feeder whose engine rests. -/

namespace Sys2Proof.Machine

open Sys2Proof

variable {s : State} {k : FeederNo}

/-! ### One write of a sequencer and its permission -/

theorem State.modSeq_congr {f g : Sequencer → Sequencer} (h : f (s.seq k) = g (s.seq k)) : s.modSeq k f = s.modSeq k g := by
  unfold State.modSeq; rw [show f (s.seqs.get k) = g (s.seqs.get k) from h]

theorem State.entering_congr {f g : Sequencer → Sequencer} (h : f (s.seq k) = g (s.seq k)) : s.entering k f = s.entering k g := by
  unfold State.entering; rw [State.modSeq_congr h]

/-- A change of a sequencer's state, carried out (R70, R108). -/
theorem carried_seqChanged {f : Sequencer → Sequencer} (h : s.securingOver k = []) :
    Carried 1 (s.modSeq k f) [.seqChanged k] { s.entering k f with agenda := [] } := by
  refine .step (handle_seqChanged (s := s.modSeq k f) h) ?_
  exact .done 0 _

/-- The permission derived twice is derived once. -/
theorem State.deriveBars_twice (n : SectionNo) : (s.deriveBars n).deriveBars n = s.deriveBars n := by
  have b : (s.deriveBars n).barsOf n = s.barsOf n := by
    have e1 : ((s.deriveBars n).sec busSection).isolate = (s.sec busSection).isolate := by
      show ((s.sections.set n _).get busSection).isolate = _
      rw [vget_set]; split
      · next e => rw [← e]; rfl
      · rfl
    have e2 : ((s.deriveBars n).sec n).isolate = (s.sec n).isolate := by
      show ((s.sections.set n _).get n).isolate = _
      rw [vget_set]; simp; rfl
    have e3 : ((s.deriveBars n).sec n).commandedClosed = (s.sec n).commandedClosed := by
      show ((s.sections.set n _).get n).commandedClosed = _
      rw [vget_set]; simp; rfl
    unfold State.barsOf
    rw [e1]
    cases feederOf n with
    | none => rfl
    | some j => dsimp only; rw [e2, e3]; rfl
  have g : (s.deriveBars n).modSec n (fun r => { r with bars := s.barsOf n }) = s.deriveBars n := by
    simp [State.deriveBars, State.modSec, vget_set]
  show (s.deriveBars n).modSec n (fun r => { r with bars := (s.deriveBars n).barsOf n }) = _
  rw [b, g]

/-- Two changes of a sequencer's state, carried out. -/
theorem carried_seqChanged_twice {f : Sequencer → Sequencer} (h : s.securingOver k = []) :
    Carried 2 (s.modSeq k f) [.seqChanged k, .seqChanged k] { s.entering k f with agenda := [] } := by
  refine .step (handle_seqChanged (s := s.modSeq k f) h) ?_
  refine .step (handle_seqChanged (s := State.deriveBars (sectionOf k) (s.modSeq k f)) h) ?_
  rw [State.deriveBars_twice]
  exact .done 0 _

/-- A change of a sequencer's state that asks the rectifier group to wake, which does not stand by. -/
theorem carried_seqChanged_wake {f : Sequencer → Sequencer} (h : s.securingOver k = []) (w : s.rect.state ≠ .standby) :
    Carried 2 (s.modSeq k f) [.seqChanged k, .wake] { s.entering k f with agenda := [] } := by
  refine .step (handle_seqChanged (s := s.modSeq k f) h) ?_
  exact .step (handle_wake (s := State.deriveBars (sectionOf k) (s.modSeq k f)) w) (.done 0 _)

/-! ### Pulses of a breaker (R43) -/

theorem State.startOpenPulse_moving (h : s.breakerPos k ≠ some .opened) :
    s.startOpenPulse k = s.modSeq k fun r =>
      { r with closeCoil := false, closeTimer := none, openPulse := some (r.openPulse.getD s.store.cfg.tOpenMax) } := by
  unfold State.startOpenPulse
  refine State.modSeq_congr ?_
  have : (s.breakerPos k == some Pos.opened) = false := by simp [h]
  simp only [this, Bool.false_eq_true, if_false]
  cases (s.seq k).openPulse <;> rfl

theorem State.startOpenPulse_opened (h : s.breakerPos k = some .opened) :
    s.startOpenPulse k = s.modSeq k fun r => { r with closeCoil := false, closeTimer := none, openPulse := none } := by
  unfold State.startOpenPulse
  refine State.modSeq_congr ?_
  simp [h]

/-! ### Trips (R44 to R49) -/

/-- A sequencer that enters TRIPPING, starts its open pulse and has the trip recorded. -/
theorem tripped_eq (rec : TripRecord) (p : Option Nat) (r : Sequencer)
    (h : r.state = some .inService ∨ r.state = some .closing) :
    (fun x : Sequencer => { x with
        trips := satSucc 65535 x.trips, last := some rec, first := if x.first.isNone then some rec else x.first })
      { enterFields .tripping (tripFields rec.cause r) with closeCoil := false, closeTimer := none, openPulse := p } =
    r.tripped rec p := by
  have t : satSucc 65535 r.trips = min 65535 (r.trips + 1) := by unfold satSucc; split <;> omega
  cases hf : r.first <;> rcases h with h | h <;>
    simp [enterFields, tripFields, Sequencer.tripped, Sequencer.bare, t, hf, h]

/-- R45: the record is built from the engine, the channel of the feeder's current, the attempt count and the clock. -/
theorem State.builtRecord_eq {t : State} (cause : TripCause) (he : t.engines = s.engines) (hm : t.mi = s.mi) (ha : t.au = s.au)
    (hq : (t.seq k).attempts = (s.seq k).attempts) : t.builtRecord k cause = s.demandRecord k cause := by
  have e : t.engine k = s.engine k := by unfold State.engine; rw [he]
  have c : t.channel (chIF k) = s.channel (chIF k) := by unfold State.channel; rw [hm]
  have w : t.stamp = s.stamp := by unfold State.stamp; rw [ha]
  unfold State.builtRecord State.demandRecord tripRecordOf
  dsimp only
  rw [e, c, w, hq]
  cases (s.engine k).history <;> rfl

/-- What the positions of the breakers are read from. -/
theorem State.breakerPos_congr {t : State} (h : t.mi = s.mi) (j : FeederNo) : t.breakerPos j = s.breakerPos j := by
  unfold State.breakerPos State.pair; rw [h]

theorem State.recordTrip_eq (rec : TripRecord) : s.recordTrip k rec =
    if silentCause rec.cause then
      s.modSeq k fun r => { r with trips := satSucc 65535 r.trips, last := some rec, first := if r.first.isNone then some rec else r.first }
    else (s.modSeq k fun r => { r with trips := satSucc 65535 r.trips, last := some rec, first := if r.first.isNone then some rec else r.first }).pulse (feederPoint 0 k) :=
  rfl

/-- The trip recorded, its point pulsed and its demand handed on (R45, R46). -/
def State.afterTrip (k : FeederNo) (cause : TripCause) (s : State) : State :=
  let s := if silentCause cause then s else s.pulse (feederPoint 0 k)
  match intertripOf cause with
  | some c => s.intertripFor k c
  | none => s

theorem State.afterTrip_mi (cause : TripCause) : (s.afterTrip k cause).mi = s.mi := by
  unfold State.afterTrip; dsimp only
  repeat' split
  all_goals simp

/-- R44 to R46: a trip of a feeder whose engine rests; an open pulse that ends at once is confirmed at once. -/
theorem EngineRests.seqTrip (r : EngineRests s k) (cause : TripCause) (p : Option Nat)
    (hq : (s.seq k).state = some .inService ∨ (s.seq k).state = some .closing)
    (hp : p = if s.breakerPos k = some .opened then none else some ((s.seq k).openPulse.getD s.store.cfg.tOpenMax)) :
    s.seqTrip k cause none =
      let u := State.afterTrip k cause
        { s.modSeq k (fun x => x.tripped (s.demandRecord k cause) p) with agenda := s.agenda ++ [.seqChanged k] }
      if s.breakerPos k = some .opened then u.openConfirmed k else u := by
  have hne : (s.seq k).state ≠ some .tripping := by rcases hq with h | h <;> rw [h] <;> simp
  have m : ∀ (l : List Signal) (f g : Sequencer → Sequencer),
      State.modSeq k g { s.modSeq k f with agenda := l } = { s.modSeq k (fun x => g (f x)) with agenda := l } := by
    intro l f g; simp [State.modSeq, vget_set]
  -- the state when the open pulse has been judged
  have pulsed : (s.enter k .tripping (tripFields cause)).startOpenPulse k =
      { s.modSeq k (fun x => { enterFields .tripping (tripFields cause x) with closeCoil := false, closeTimer := none, openPulse := p }) with
        agenda := s.agenda ++ [.seqChanged k] } := by
    rw [r.enter, if_neg hne]
    by_cases hb : s.breakerPos k = some .opened
    · rw [State.startOpenPulse_opened (by exact hb), m, hp, if_pos hb]
    · rw [State.startOpenPulse_moving (by exact hb), m, hp, if_neg hb]
      congr 1
  have tail : ∀ t : State, (s.enter k .tripping (tripFields cause)).startOpenPulse k = t → s.seqTrip k cause none =
      let v := t.recordTrip k (t.builtRecord k cause)
      let v := match intertripOf cause with
        | some c => v.intertripFor k c
        | none => v
      if v.breakerPos k = some .opened then v.openConfirmed k else v := by
    intro t ht; subst ht; rfl
  have at_ : ∀ (f : Sequencer → Sequencer) (l : List Signal), (∀ x, (f x).attempts = x.attempts) →
      (State.seq { s.modSeq k f with agenda := l } k).attempts = (s.seq k).attempts := by
    intro f l hf
    rw [show State.seq { s.modSeq k f with agenda := l } k = (s.modSeq k f).seq k from rfl, State.modSeq_seq, hf]
  obtain ⟨t, ht⟩ : ∃ t : State, t =
      { s.modSeq k (fun x => { enterFields .tripping (tripFields cause x) with closeCoil := false, closeTimer := none, openPulse := p }) with
        agenda := s.agenda ++ [.seqChanged k] } := ⟨_, rfl⟩
  have b : t.builtRecord k cause = s.demandRecord k cause := by
    subst ht; exact State.builtRecord_eq cause rfl rfl rfl (at_ _ _ fun _ => rfl)
  rw [tail t (pulsed.trans ht.symm), b, ht]
  have fin : s.modSeq k (fun x => (fun r : Sequencer => { r with trips := satSucc 65535 r.trips, last := some (s.demandRecord k cause), first := if r.first.isNone then some (s.demandRecord k cause) else r.first }) { enterFields .tripping (tripFields cause x) with closeCoil := false, closeTimer := none, openPulse := p }) =
      s.modSeq k (fun x => x.tripped (s.demandRecord k cause) p) :=
    State.modSeq_congr (tripped_eq (s.demandRecord k cause) p (s.seq k) hq)
  have rt : State.recordTrip k (s.demandRecord k cause)
      { s.modSeq k (fun x => { enterFields .tripping (tripFields cause x) with closeCoil := false, closeTimer := none, openPulse := p }) with
        agenda := s.agenda ++ [.seqChanged k] } =
      if silentCause cause then
        { s.modSeq k (fun x => x.tripped (s.demandRecord k cause) p) with agenda := s.agenda ++ [.seqChanged k] }
      else State.pulse (feederPoint 0 k)
        { s.modSeq k (fun x => x.tripped (s.demandRecord k cause) p) with agenda := s.agenda ++ [.seqChanged k] } := by
    rw [State.recordTrip_eq, m, fin]; rfl
  rw [rt]
  have shape : ∀ v : State, v.mi = s.mi → (if v.breakerPos k = some .opened then v.openConfirmed k else v) = if s.breakerPos k = some .opened then v.openConfirmed k else v := by
    intro v hv; rw [State.breakerPos_congr hv]
  exact shape _ (State.afterTrip_mi (s := { s.modSeq k (fun x => x.tripped (s.demandRecord k cause) p) with agenda := s.agenda ++ [.seqChanged k] }) cause)

/-- R43, R61: CLOSING is entered, or LINE-TEST (R59), on a feeder whose engine rests. -/
theorem EngineRests.beginLineTest (r : EngineRests s k) (kind : CloseKind)
    (hq : (s.seq k).state ≠ some .closing ∧ (s.seq k).state ≠ some .lineTest) :
    s.beginLineTest k kind =
      { s.modSeq k (fun x =>
          if (s.channel chUB).value * 4 / 5 ≤ (s.channel (chUL k)).value then
            { x.bare .closing with
              closeKind := some kind, closeCoil := true, closeTimer := some s.store.cfg.tCloseMax }
          else
            { x.bare .lineTest with
              closeKind := some kind, testContactor := true, testTimer := some ((s.reclose k).tTest * 10) }) with
        agenda := s.agenda ++ [.seqChanged k, .wake] } := by
  unfold State.beginLineTest
  by_cases h : (s.channel chUB).value * 4 / 5 ≤ (s.channel (chUL k)).value
  · simp only [if_pos h]
    unfold State.beginClosing
    dsimp only
    rw [r.enter, if_neg hq.1]
    simp [enterFields, Sequencer.bare, State.hand]
  · simp only [if_neg h]
    rw [r.enter, if_neg hq.2]
    simp [enterFields, Sequencer.bare, State.hand]

/-- R48, R49: an open confirmed on a feeder whose engine rests. -/
theorem EngineRests.openConfirmed (r : EngineRests s k) (hq : (s.seq k).state = some .tripping) :
    s.openConfirmed k =
      { s.modSeq k (fun x => x.confirmed (s.reclose k)
          (confirmedOutcome (s.isolated k) (s.reclosBarred k) (s.reclose k).nRec (s.seq k))) with
        agenda := s.agenda ++ [.seqChanged k] } := by
  have m : ∀ (u : State) (f g : Sequencer → Sequencer), (u.modSeq k f).modSeq k g = u.modSeq k (fun x => g (f x)) :=
    fun u f g => State.modSeq_modSeq f g
  have r1 : EngineRests (s.modSeq k fun x => { x with openPulse := none }) k := r.congr rfl
  have q1 : ((s.modSeq k fun x => { x with openPulse := none }).seq k) = { s.seq k with openPulse := none } := by
    rw [State.modSeq_seq]
  have o1 : confirmedOutcome (s.isolated k) (s.reclosBarred k) (s.reclose k).nRec { s.seq k with openPulse := none } =
      confirmedOutcome (s.isolated k) (s.reclosBarred k) (s.reclose k).nRec (s.seq k) := rfl
  have e : s.openConfirmed k = (match confirmedOutcome (s.isolated k) (s.reclosBarred k) (s.reclose k).nRec (s.seq k) with
      | .opened => (s.modSeq k fun x => { x with openPulse := none }).seqToOpen k
      | .lockout c => (s.modSeq k fun x => { x with openPulse := none }).enter k .lockout fun r => { r with attempts := c }
      | .dead c => ((s.modSeq k fun x => { x with openPulse := none }).modSeq k fun r => { r with attempts := c }).enterDeadTime k) := by
    unfold State.openConfirmed
    rw [r1.engineOpen]
    dsimp only
    rw [q1]
    rfl
  rw [e]
  generalize confirmedOutcome (s.isolated k) (s.reclosBarred k) (s.reclose k).nRec (s.seq k) = o
  cases o with
  | opened =>
    dsimp only
    unfold State.seqToOpen
    rw [r1.enter, if_neg (by rw [State.modSeq_seq]; show (s.seq k).state ≠ _; rw [hq]; decide), m]
    simp [Sequencer.confirmed, Sequencer.bare, enterFields]
  | lockout c =>
    dsimp only
    rw [r1.enter, if_neg (by rw [State.modSeq_seq]; show (s.seq k).state ≠ _; rw [hq]; decide), m]
    simp [Sequencer.confirmed, Sequencer.bare, enterFields]
  | dead c =>
    dsimp only
    unfold State.enterDeadTime
    rw [m]
    have r2 : EngineRests (s.modSeq k fun x => { x with openPulse := none, attempts := c }) k := r.congr rfl
    dsimp only
    rw [r2.enter, if_neg (by rw [State.modSeq_seq]; show (s.seq k).state ≠ _; rw [hq]; decide), m]
    simp [Sequencer.confirmed, Sequencer.bare, enterFields]
    rfl

end Sys2Proof.Machine
end

