-- ==== Sys2Proof/Laws/Plant.lean ====
section
/-! SUPPORT. The laws of the hold table, of the counts it keeps and of the earth switches (R101, R104, R112): every write of an event
keeps them. The counts are followed as weights: each hold that is not FAILED weighs on every section it covers. -/

namespace Sys2Proof.Machine

open Sys2Proof

/-! ### The numbers of sections -/

theorem feederOf_sectionOf (k : FeederNo) : feederOf (sectionOf k) = some k := by revert k; decide

theorem sectionOf_inj {j k : FeederNo} (h : sectionOf j = sectionOf k) : j = k := by revert j k; decide

theorem sectionOf_of_feederOf {n : SectionNo} {k : FeederNo} (h : feederOf n = some k) : n = sectionOf k := by
  revert n k; decide

/-! ### Weights (R101) -/

/-- The three counts of a section. -/
inductive Count where
  | isolate | earth | noreclose
  deriving DecidableEq, Repr

/-- A count of a section record. -/
def SectionRec.count (r : SectionRec) : Count → Nat
  | .isolate => r.isolate
  | .earth => r.earth
  | .noreclose => r.noreclose

/-- 1 on a line section, 0 on the bus. -/
def lineUnit (n : SectionNo) : Nat := if (feederOf n).isSome then 1 else 0

/-- R101: what a hold of a kind adds to a count of a section. -/
def unitOf : HoldKind → Count → SectionNo → Nat
  | .isolate, .isolate, _ | .earth, .isolate, _ => 1
  | .earth, .earth, n | .noreclose, .noreclose, n => lineUnit n
  | _, _, _ => 0

/-- R101: what a hold record adds to a count of a section. -/
def weight (c : Count) (n : SectionNo) (h : Hold) : Nat :=
  if h.state ≠ .failed ∧ n ∈ h.sections then unitOf h.kind c n else 0

/-- R101: a count of a section by the hold table. -/
def tally (holds : List Hold) (c : Count) (n : SectionNo) : Nat := (holds.map (weight c n)).sum

theorem recount_tally (holds : List Hold) (n : SectionNo) (r : SectionRec) (c : Count) :
    (recount holds n r).count c = tally holds c n := by
  unfold tally
  induction holds with
  | nil => cases c <;> simp [SectionRec.count, recount, counting]
  | cons h l ih =>
    rw [List.map_cons, List.sum_cons, ← ih]
    by_cases hf : h.state = .failed
    · cases c <;> simp [SectionRec.count, recount, counting, weight, hf]
    · by_cases hn : n ∈ h.sections
      · cases c <;> cases hk : h.kind <;> cases hl : (feederOf n).isSome <;>
          simp [SectionRec.count, recount, counting, weight, hf, hn, hk, hl, countsIsolate, unitOf, lineUnit, Nat.add_comm]
      · cases c <;> simp [SectionRec.count, recount, counting, weight, hf, hn]

theorem countLaw_iff (s : State) : CountLaw s ↔ ∀ n c, (s.sec n).count c = tally s.ht.holds c n := by
  refine forall_congr' fun n => ?_
  rw [← forall_congr' fun c => by rw [← recount_tally s.ht.holds n (s.sec n) c]]
  exact ⟨fun ⟨a, b, c⟩ x => by cases x <;> assumption, fun h => ⟨h .isolate, h .earth, h .noreclose⟩⟩

theorem map_other (l : List Hold) (id : Byte) (f : Hold → Hold) (h : id ∉ l.map Hold.id) :
    l.map (fun x => if x.id = id then f x else x) = l := by
  induction l with
  | nil => rfl
  | cons a l ih =>
    simp only [List.map_cons, List.mem_cons, not_or] at h
    simp only [List.map_cons, Ne.symm h.1, reduceIte, ih h.2]

/-- A weight over a table with the record of one ID changed. -/
theorem sum_update (w : Hold → Nat) (l : List Hold) (f : Hold → Hold) {h : Hold} (hn : (l.map Hold.id).Nodup) (hm : h ∈ l) :
    ((l.map fun x => if x.id = h.id then f x else x).map w).sum + w h = (l.map w).sum + w (f h) := by
  induction l with
  | nil => cases hm
  | cons a l ih =>
    simp only [List.map_cons, List.nodup_cons] at hn
    rcases List.mem_cons.1 hm with rfl | m
    · rw [List.map_cons, map_other l _ f hn.1]
      simp only [reduceIte, List.map_cons, List.sum_cons]; omega
    · have e : a.id ≠ h.id := fun e => hn.1 (e ▸ List.mem_map_of_mem m)
      have := ih hn.2 m
      simp only [List.map_cons, e, reduceIte, List.sum_cons]; omega

theorem filter_other (l : List Hold) (id : Byte) (h : id ∉ l.map Hold.id) : l.filter (fun x => x.id ≠ id) = l := by
  refine List.filter_eq_self.2 fun x m => ?_
  simp only [ne_eq, decide_not, Bool.not_eq_true', decide_eq_false_iff_not]
  exact fun e => h (e ▸ List.mem_map_of_mem m)

/-- A weight over a table without the record of one ID. -/
theorem sum_remove (w : Hold → Nat) (l : List Hold) {h : Hold} (hn : (l.map Hold.id).Nodup) (hm : h ∈ l) :
    ((l.filter fun x => x.id ≠ h.id).map w).sum + w h = (l.map w).sum := by
  induction l with
  | nil => cases hm
  | cons a l ih =>
    simp only [List.map_cons, List.nodup_cons] at hn
    rcases List.mem_cons.1 hm with rfl | m
    · rw [List.filter_cons_of_neg (by simp), filter_other l _ hn.1]
      simp only [List.map_cons, List.sum_cons]; omega
    · have e : a.id ≠ h.id := fun e => hn.1 (e ▸ List.mem_map_of_mem m)
      have := ih hn.2 m
      rw [List.filter_cons_of_pos (by simpa using e)]
      simp only [List.map_cons, List.sum_cons]; omega

/-! ### The hold table (R112, R113) -/

/-- Who a hold is. -/
def Hold.who (h : Hold) : Byte × Origin × Half := (h.id, h.origin, h.tag)

theorem TableLaw.sublist {l m : List Hold} (h : TableLaw m) (e : List.Sublist l m) : TableLaw l :=
  ⟨Nat.le_trans e.length_le h.size, (e.map _).nodup h.ids,
    fun p => Nat.le_trans (e.filter _).length_le (h.peers p), fun p => ((e.filter _).map _).nodup (h.tags p)⟩

/-- The law looks only at who the holds are. -/
theorem TableLaw.map {l : List Hold} (f : Hold → Hold) (hf : ∀ h ∈ l, (f h).who = h.who) (h : TableLaw l) :
    TableLaw (l.map f) := by
  have key : ∀ (m : List Hold), (∀ h ∈ m, (f h).who = h.who) → (m.map f).map Hold.id = m.map Hold.id ∧
      ∀ p : Port, ((m.map f).filter fun h => h.origin = peerOrigin p) = (m.filter fun h => h.origin = peerOrigin p).map f ∧
        ((m.filter fun h => h.origin = peerOrigin p).map f).map Hold.tag =
          (m.filter fun h => h.origin = peerOrigin p).map Hold.tag := by
    intro m hm
    induction m with
    | nil => exact ⟨rfl, fun _ => ⟨rfl, rfl⟩⟩
    | cons a m ih =>
      obtain ⟨i1, i2⟩ := ih fun x k => hm x (List.mem_cons_of_mem _ k)
      have ha := hm a (List.mem_cons_self ..)
      simp only [Hold.who, Prod.mk.injEq] at ha
      obtain ⟨a1, a2, a3⟩ := ha
      refine ⟨by simp [a1, i1], fun p => ?_⟩
      obtain ⟨j1, j2⟩ := i2 p
      by_cases e : a.origin = peerOrigin p
      · rw [List.filter_cons_of_pos (by simpa using e), List.map_cons, List.filter_cons_of_pos (by simpa [a2] using e), j1]
        refine ⟨rfl, ?_⟩
        rw [List.map_cons, List.map_cons, List.map_cons, j2, a3]
      · rw [List.filter_cons_of_neg (by simpa using e), List.map_cons, List.filter_cons_of_neg (by simpa [a2] using e)]
        exact ⟨j1, j2⟩
  obtain ⟨k1, k2⟩ := key l hf
  exact ⟨by simpa using h.size, by rw [k1]; exact h.ids, fun p => by rw [(k2 p).1]; simpa using h.peers p,
    fun p => by rw [(k2 p).1, (k2 p).2]; exact h.tags p⟩

/-- R113: the IDs passed over, one after another. -/
def orbit (id : Byte) : Nat → Byte
  | 0 => id
  | k + 1 => orbit (nextId id) k

theorem nextId_toNat (id : Byte) : (nextId id).toNat = if id.toNat = 255 then 1 else id.toNat + 1 := by
  unfold nextId
  split
  · rfl
  · rename_i h
    have := id.isLt
    rw [BitVec.toNat_add]
    show (id.toNat + 1) % 256 = _
    omega

theorem nextId_pos (id : Byte) : 1 ≤ (nextId id).toNat := by rw [nextId_toNat]; split <;> omega

theorem orbit_toNat (k : Nat) : ∀ id : Byte, 1 ≤ id.toNat → (orbit id k).toNat = (id.toNat - 1 + k) % 255 + 1 := by
  induction k with
  | zero => intro id h; have := id.isLt; simp only [orbit]; omega
  | succ k ih =>
    intro id h
    have := id.isLt
    rw [orbit, ih _ (nextId_pos id), nextId_toNat]
    split <;> omega

/-- A function that takes n different values in a list takes no more than the list holds. -/
theorem pigeons (n : Nat) : ∀ (l : List Byte) (f : Nat → Byte), (∀ i j, i < n → j < n → f i = f j → i = j) →
    (∀ k, k < n → f k ∈ l) → n ≤ l.length := by
  induction n with
  | zero => intros; omega
  | succ n ih =>
    intro l f hi hm
    have hn := hm n (by omega)
    have := ih (l.erase (f n)) f (fun i j a b => hi i j (by omega) (by omega)) fun k hk =>
      (List.mem_erase_of_ne fun e => by have := hi k n (by omega) (by omega) e; omega).2 (hm k (by omega))
    rw [List.length_erase_of_mem hn] at this
    have := List.length_pos_of_mem hn
    omega

/-- R113: an ID not in use comes up within as many steps as IDs are in use. -/
theorem freeId_free (inUse : Byte → Bool) : ∀ (fuel : Nat) (id : Byte),
    (∃ k, k ≤ fuel ∧ inUse (orbit id k) = false) → inUse (freeId inUse fuel id) = false
  | 0, id, ⟨k, hk, h⟩ => by
    have : k = 0 := by omega
    subst this; exact h
  | fuel + 1, id, ⟨k, hk, h⟩ => by
    unfold freeId
    split
    · rename_i hu
      refine freeId_free inUse fuel (nextId id) ⟨k - 1, by omega, ?_⟩
      cases k with
      | zero => rw [orbit, hu] at h; cases h
      | succ k => exact h
    · rename_i hu; simpa using hu

/-- R113: the ID drawn is that of no hold in a table that has room. -/
theorem drawId_free (l : List Hold) (last : Byte) (h : l.length < 24) : drawId l last ∉ l.map Hold.id := by
  have : (l.any fun x => x.id == drawId l last) = false := by
    refine freeId_free (fun id => l.any fun x => x.id == id) 255 (nextId last) (Classical.byContradiction fun c => ?_)
    have all : ∀ k, k < 25 → orbit (nextId last) k ∈ l.map Hold.id := fun k hk => by
      refine Classical.byContradiction fun m => c ⟨k, by omega, ?_⟩
      simp only [List.any_eq_false, beq_iff_eq]
      exact fun x mx e => m (e ▸ List.mem_map_of_mem mx)
    have := pigeons 25 (l.map Hold.id) (orbit (nextId last)) (fun i j hi hj e => by
      have e := congrArg BitVec.toNat e
      have := (nextId last).isLt
      rw [orbit_toNat _ _ (nextId_pos last), orbit_toNat _ _ (nextId_pos last)] at e
      omega) all
    simp at this; omega
  simp only [List.any_eq_false, beq_iff_eq] at this
  exact fun m => by obtain ⟨x, mx, e⟩ := List.mem_map.1 m; exact this x mx e

/-- R112: a record joins a table that has room for it. -/
theorem TableLaw.append {s : State} {h : Hold} (t : TableLaw s.ht.holds) (r : Placeable s h.origin h.tag h.sections)
    (hid : h.id ∉ s.ht.holds.map Hold.id) : TableLaw (s.ht.holds ++ [h]) := by
  have join : ∀ {α : Type} {l : List α} {a : α}, l.Nodup → a ∉ l → (l ++ [a]).Nodup := fun hl ha =>
    List.nodup_append.2 ⟨hl, by simp, fun x m y n e => by simp only [List.mem_singleton] at n; exact ha (n ▸ e ▸ m)⟩
  refine ⟨?_, ?_, fun p => ?_, fun p => ?_⟩
  · have := r.room; simp; omega
  · rw [List.map_append]; exact join t.ids hid
  · rw [List.filter_append]
    by_cases e : h.origin = peerOrigin p
    · have := (r.peers p e).1; simp [e]; omega
    · simpa [e] using t.peers p
  · rw [List.filter_append]
    by_cases e : h.origin = peerOrigin p
    · have := (r.peers p e).2
      rw [List.filter_cons_of_pos (by simpa using e), List.map_append]
      refine join (t.tags p) fun m => ?_
      obtain ⟨x, mx, ex⟩ := List.mem_map.1 m
      simp only [List.mem_filter, decide_eq_true_eq] at mx
      exact this x mx.1 mx.2 ex
    · rw [List.filter_cons_of_neg (by simpa using e)]; simpa using t.tags p

end Sys2Proof.Machine
end

