-- ==== Sys2Proof/Laws/HoldRules.lean ====
section
/-! SUPPORT. What the operations of the Hold Table and of the counts do on one line section. -/

namespace Sys2Proof.Machine

open Sys2Proof

variable {s t : State} {k : FeederNo}

theorem sectionOf_ne_bus (k : FeederNo) : sectionOf k ≠ busSection := by revert k; decide

theorem mem_allFeeders (k : FeederNo) : k ∈ allFeeders := by revert k; decide

theorem concerned_sectionOf (k : FeederNo) : concerned (sectionOf k) = [k] := by unfold concerned; rw [feederOf_sectionOf]

/-! ### Sections -/

theorem State.modSec_modSec (n : SectionNo) (f g : SectionRec → SectionRec) :
    (s.modSec n f).modSec n g = s.modSec n fun r => g (f r) := by
  simp [State.modSec, vget_set]

theorem State.modSec_congr {n : SectionNo} {f g : SectionRec → SectionRec} (h : f (s.sec n) = g (s.sec n)) :
    s.modSec n f = s.modSec n g := by
  unfold State.modSec; rw [show f (s.sections.get n) = g (s.sections.get n) from h]

/-- What a close permission is judged on. -/
theorem State.barsOf_congr {n : SectionNo} (hi : ∀ m, (t.sec m).isolate = (s.sec m).isolate)
    (hc : (t.sec n).commandedClosed = (s.sec n).commandedClosed) (hm : t.mi = s.mi) (hq : t.seqs = s.seqs) (hs : t.store = s.store) :
    t.barsOf n = s.barsOf n := by
  have e : ∀ j, t.earthPos j = s.earthPos j := fun j => by unfold State.earthPos State.pair; rw [hm]
  have f : ∀ j, t.fitted j = s.fitted j := fun j => by unfold State.fitted; rw [hs]
  have q : ∀ j x, t.seqIn j x = s.seqIn j x := fun j x => by unfold State.seqIn State.seq; rw [hq]
  unfold State.barsOf
  cases feederOf n <;> simp only [hi, hc, e, f, q]

/-- The permission is derived once, after the last change of its section. -/
theorem State.deriveBars_modSec (n : SectionNo) (g : SectionRec → SectionRec)
    (hg : ∀ r b, g { r with bars := b } = { g r with bars := b }) :
    State.deriveBars n ((s.deriveBars n).modSec n g) = State.deriveBars n (s.modSec n g) := by
  have e : (s.deriveBars n).modSec n g = (s.modSec n g).modSec n fun r => { r with bars := s.barsOf n } := by
    unfold State.deriveBars
    rw [State.modSec_modSec, State.modSec_modSec]
    exact State.modSec_congr (hg _ _)
  have b : ((s.deriveBars n).modSec n g).barsOf n = (s.modSec n g).barsOf n := by
    rw [e]
    refine State.barsOf_congr (fun m => ?_) ?_ rfl rfl rfl
    · by_cases h : m = n
      · subst h; rw [State.modSec_sec]
      · rw [State.modSec_sec_ne _ h]
    · rw [State.modSec_sec]
  show State.modSec n (fun r => { r with bars := ((s.deriveBars n).modSec n g).barsOf n }) ((s.deriveBars n).modSec n g) = _
  rw [b, e, State.modSec_modSec]
  rfl

/-! ### Counts of one line section (R101 to R103) -/

theorem State.raiseIsolate_line (h : (s.sec (sectionOf k)).isolate = 0) : s.raiseIsolate (sectionOf k) =
    { State.deriveBars (sectionOf k) (s.modSec (sectionOf k) fun r => { r with isolate := r.isolate + 1 }) with
      agenda := s.agenda ++ [.holdDemand k, .judgeWait k] } := by
  unfold State.raiseIsolate
  dsimp only
  rw [if_pos h, if_neg (by rw [feederOf_sectionOf]; simp), concerned_sectionOf]
  unfold State.countChanged
  rw [feederOf_sectionOf, concerned_sectionOf]
  simp [State.handAll, State.deriveBars, State.modSec]
  rfl

theorem State.raiseEarth_line : s.raiseEarth (sectionOf k) =
    { State.deriveBars (sectionOf k) (s.modSec (sectionOf k) fun r => { r with earth := r.earth + 1 }) with
      agenda := s.agenda ++ [.judgeWait k] } := by
  unfold State.raiseEarth State.countChanged
  rw [feederOf_sectionOf, concerned_sectionOf]
  rfl

theorem State.lowerIsolate_line : s.lowerIsolate (sectionOf k) =
    { State.deriveBars (sectionOf k) (s.modSec (sectionOf k) fun r => { r with isolate := r.isolate - 1 }) with
      agenda := s.agenda ++ [.judgeWait k] } := by
  unfold State.lowerIsolate State.countChanged
  rw [feederOf_sectionOf, concerned_sectionOf]
  rfl

theorem State.lowerNoreclose_line : s.lowerNoreclose (sectionOf k) =
    { State.deriveBars (sectionOf k) (s.modSec (sectionOf k) fun r => { r with noreclose := r.noreclose - 1 }) with
      agenda := s.agenda ++ [.judgeWait k] } := by
  unfold State.lowerNoreclose State.countChanged
  rw [feederOf_sectionOf, concerned_sectionOf]
  rfl

/-- An earth count that falls without leaving its switch to be commanded OPEN. -/
theorem State.lowerEarth_line (h : (s.sec (sectionOf k)).commandedClosed = false ∨ 2 ≤ (s.sec (sectionOf k)).earth) :
    s.lowerEarth (sectionOf k) =
    { State.deriveBars (sectionOf k) (s.modSec (sectionOf k) fun r => { r with earth := r.earth - 1 }) with
      agenda := s.agenda ++ [.judgeWait k] } := by
  unfold State.lowerEarth State.countChanged
  rw [feederOf_sectionOf, concerned_sectionOf]
  dsimp only
  split
  · next e =>
    have e1 : (s.sec (sectionOf k)).earth - 1 = 0 := by
      have : ((State.deriveBars (sectionOf k) (s.modSec (sectionOf k) fun r => { r with earth := r.earth - 1 })).sec (sectionOf k)).earth = 0 := e
      unfold State.deriveBars at this
      rw [State.modSec_sec, State.modSec_sec] at this; exact this
    have c : (s.sec (sectionOf k)).commandedClosed = false := by
      rcases h with h | h
      · exact h
      · omega
    unfold State.commandEarth
    dsimp only
    rw [if_pos]
    · rfl
    · show ((State.deriveBars (sectionOf k) (s.modSec (sectionOf k) fun r => { r with earth := r.earth - 1 })).sec (sectionOf k)).commandedClosed = false
      unfold State.deriveBars
      rw [State.modSec_sec, State.modSec_sec]; exact c
  · rfl

/-- R101: the counts of a kind on one line section after a hold of the kind has gone. -/
def loweredBy (kind : HoldKind) (r : SectionRec) : SectionRec :=
  match kind with
  | .isolate => { r with isolate := r.isolate - 1 }
  | .earth => { r with isolate := r.isolate - 1, earth := r.earth - 1 }
  | .noreclose => { r with noreclose := r.noreclose - 1 }

/-- R101: the counts fall on the one line section of a hold. -/
theorem State.lowerHold_line {h : Hold} (hs : h.sections = [sectionOf k])
    (he : h.kind = .earth → (s.sec (sectionOf k)).commandedClosed = false ∨ 2 ≤ (s.sec (sectionOf k)).earth) :
    ∃ l, (∀ g ∈ l, g = .judgeWait k) ∧ l.length ≤ 2 ∧ s.lowerHold h =
      { State.deriveBars (sectionOf k) (s.modSec (sectionOf k) (loweredBy h.kind)) with agenda := s.agenda ++ l } := by
  unfold State.lowerHold
  rw [hs]
  show ∃ l, _ ∧ _ ∧ State.lowerCounts h.kind (sectionOf k) s = _
  unfold State.lowerCounts
  cases hk : h.kind with
  | isolate => exact ⟨[.judgeWait k], by simp, by simp, State.lowerIsolate_line⟩
  | noreclose => exact ⟨[.judgeWait k], by simp, by simp, State.lowerNoreclose_line⟩
  | earth =>
    refine ⟨[.judgeWait k, .judgeWait k], by simp, by simp, ?_⟩
    dsimp only
    rw [State.lowerIsolate_line, State.lowerEarth_line]
    · have e : State.deriveBars (sectionOf k) (State.modSec (sectionOf k) (fun r => { r with earth := r.earth - 1 })
          { State.deriveBars (sectionOf k) (s.modSec (sectionOf k) fun r => { r with isolate := r.isolate - 1 }) with
            agenda := s.agenda ++ [.judgeWait k] }) =
          { State.deriveBars (sectionOf k) (s.modSec (sectionOf k) (loweredBy .earth)) with agenda := s.agenda ++ [.judgeWait k] } := by
        show ({ State.deriveBars (sectionOf k) (State.modSec (sectionOf k) (fun r => { r with earth := r.earth - 1 })
          (State.deriveBars (sectionOf k) (s.modSec (sectionOf k) fun r => { r with isolate := r.isolate - 1 }))) with
            agenda := s.agenda ++ [.judgeWait k] } : State) = _
        rw [State.deriveBars_modSec _ _ (fun _ _ => rfl), State.modSec_modSec]
        rfl
      rw [e]; simp
    · show ((State.deriveBars (sectionOf k) (s.modSec (sectionOf k) fun r => { r with isolate := r.isolate - 1 })).sec (sectionOf k)).commandedClosed = false ∨
        2 ≤ ((State.deriveBars (sectionOf k) (s.modSec (sectionOf k) fun r => { r with isolate := r.isolate - 1 })).sec (sectionOf k)).earth
      unfold State.deriveBars
      rw [State.modSec_sec, State.modSec_sec]
      exact he hk

/-- R101: the counts of a kind on one line section after a hold of the kind has been placed. -/
def raisedBy (kind : HoldKind) (r : SectionRec) : SectionRec :=
  match kind with
  | .isolate => { r with isolate := r.isolate + 1 }
  | .earth => { r with isolate := r.isolate + 1, earth := r.earth + 1 }
  | .noreclose => { r with noreclose := r.noreclose + 1 }

/-- R101, R102: an ISOLATE or EARTH hold is the first on its one line section. -/
theorem State.raiseHold_line {h : Hold} (hs : h.sections = [sectionOf k]) (hk : h.kind ≠ .noreclose)
    (h0 : (s.sec (sectionOf k)).isolate = 0) :
    ∃ l, (∀ g ∈ l, g = .judgeWait k) ∧ l.length ≤ 2 ∧ s.raiseHold h =
      { State.deriveBars (sectionOf k) (s.modSec (sectionOf k) (raisedBy h.kind)) with
        agenda := s.agenda ++ .holdDemand k :: l } := by
  unfold State.raiseHold
  rw [hs]
  show ∃ l, _ ∧ _ ∧ State.raiseCounts h.kind (sectionOf k) s = _
  unfold State.raiseCounts
  cases hk' : h.kind with
  | isolate => exact ⟨[.judgeWait k], by simp, by simp, State.raiseIsolate_line h0⟩
  | noreclose => exact absurd hk' hk
  | earth =>
    refine ⟨[.judgeWait k, .judgeWait k], by simp, by simp, ?_⟩
    dsimp only
    rw [State.raiseIsolate_line h0, State.raiseEarth_line]
    have e : State.deriveBars (sectionOf k) (State.modSec (sectionOf k) (fun r => { r with earth := r.earth + 1 })
        { State.deriveBars (sectionOf k) (s.modSec (sectionOf k) fun r => { r with isolate := r.isolate + 1 }) with
          agenda := s.agenda ++ [.holdDemand k, .judgeWait k] }) =
        { State.deriveBars (sectionOf k) (s.modSec (sectionOf k) (raisedBy .earth)) with agenda := s.agenda ++ [.holdDemand k, .judgeWait k] } := by
      show ({ State.deriveBars (sectionOf k) (State.modSec (sectionOf k) (fun r => { r with earth := r.earth + 1 })
        (State.deriveBars (sectionOf k) (s.modSec (sectionOf k) fun r => { r with isolate := r.isolate + 1 }))) with
          agenda := s.agenda ++ [.holdDemand k, .judgeWait k] } : State) = _
      rw [State.deriveBars_modSec _ _ (fun _ _ => rfl), State.modSec_modSec]
      rfl
    rw [e]; simp

/-! ### Records of the table -/

/-- The hold that has just been placed is found by its ID. -/
theorem State.hold_placed {h : Hold} (e : s.ht.holds = t.ht.holds ++ [h]) (n : t.ht.holds.length < 24)
    (i : h.id = drawId t.ht.holds t.ht.lastId) : s.hold h.id = some h := by
  unfold State.hold
  rw [e, List.find?_append, List.find?_eq_none.mpr]
  · simp
  · intro x hx c
    have := drawId_free t.ht.holds t.ht.lastId n
    rw [← i] at this
    exact this (List.mem_map.2 ⟨x, hx, by simpa using c⟩)

/-- R119, R124: the breakers of a hold of this station on one line section are secured. -/
theorem State.breakersSecured_line {h : Hold} (hs : h.sections = [sectionOf k])
    (hq : (s.seq k).state = some .opened ∨ (s.seq k).state = some .lockout) (hb : s.breakerPos k = some .opened) :
    s.breakersSecured h = true ∧ s.breakerFails h = false := by
  have c : ∀ j, s.covers h.sections j = decide (j = k) := by
    intro j
    unfold State.covers
    rw [hs]
    have b : ([sectionOf k].contains busSection) = false := by have := sectionOf_ne_bus k; simp [Ne.symm this]
    rw [b]
    by_cases e : j = k
    · subst e; simp
    · have : sectionOf j ≠ sectionOf k := fun x => e (sectionOf_inj x)
      simp [e, this]
  have f : s.feederSecured k = true := by
    unfold State.feederSecured State.seqIn
    rcases hq with h | h <;> rw [h, hb] <;> decide
  have g : s.faultyFeeder k = false := by
    unfold State.faultyFeeder State.seqIn
    rcases hq with h | h <;> rw [h] <;> rfl
  have b : (h.sections.contains busSection) = false := by rw [hs]; have := sectionOf_ne_bus k; simp [Ne.symm this]
  constructor
  · unfold State.breakersSecured
    rw [b]
    simp only [Bool.not_false, Bool.true_or, Bool.and_true, Bool.or_eq_true, List.all_eq_true]
    refine Or.inr fun j _ => ?_
    rw [c]
    by_cases e : j = k
    · subst e; simp [f]
    · simp [e]
  · unfold State.breakerFails
    have : (allFeeders.any fun j => s.covers h.sections j && s.faultyFeeder j) = false := by
      rw [List.any_eq_false]
      intro j _
      rw [c]
      by_cases e : j = k
      · subst e; simp [g]
      · simp [e]
    rw [this]; simp

theorem voltageChannel_sectionOf (k : FeederNo) : voltageChannel (sectionOf k) = chUL k := by
  unfold voltageChannel; rw [feederOf_sectionOf]

end Sys2Proof.Machine
end

