-- ==== Sys2Proof/Laws/HoldCounts.lean ====
section
/-! SUPPORT. What the fall of a hold's counts leaves of every section, said once for `State.lowerHold` (R101, R105): the counts
lowered, the earth switch commanded OPEN where its last EARTH hold goes, the close permissions derived, and nothing else but the
handings to the feeders that wait. -/

namespace Sys2Proof.Machine

open Sys2Proof

/-- R101, R105: the record of a section, a line section or the bus, once a hold of a kind no longer counts on it;
    `stands` says that
its earth switch stands OPEN already. -/
def loweredIn (kind : HoldKind) (line stands : Bool) (r : SectionRec) : SectionRec :=
  match kind, line with
  | .isolate, _ => { r with isolate := r.isolate - 1 }
  | .earth, true =>
    if r.earth ≤ 1 ∧ r.commandedClosed = true then
      { r with
        isolate := r.isolate - 1, earth := r.earth - 1, commandedClosed := false, drive := if stands then .none else .opened,
        mismatchTimer := if stands then none else some 10000 }
    else { r with isolate := r.isolate - 1, earth := r.earth - 1 }
  | .earth, false => { r with isolate := r.isolate - 1 }
  | .noreclose, true => { r with noreclose := r.noreclose - 1 }
  | .noreclose, false => r

/-- The earth switch of a line section stands OPEN. -/
def State.standsOpen (s : State) (n : SectionNo) : Bool := match feederOf n with
  | some k => s.earthPos k == some .opened
  | none => false

/-- The close permission takes no part in what is lowered. -/
theorem loweredIn_bars (kind : HoldKind) (line stands : Bool) (r : SectionRec) (b : BarReasons) :
    loweredIn kind line stands { r with bars := b } = { loweredIn kind line stands r with bars := b } := by
  unfold loweredIn; cases kind <;> cases line <;> first | rfl | (dsimp only; split <;> rfl)

/-- The counts of one line section lowered. -/
theorem lowerCounts_line (s : State) (k : FeederNo) (kind : HoldKind) : ∃ l,
    s.lowerCounts kind (sectionOf k) =
      { State.deriveBars (sectionOf k) (s.modSec (sectionOf k) (loweredIn kind true (s.standsOpen (sectionOf k)))) with
          agenda := s.agenda ++ l } := by
  unfold State.lowerCounts
  cases kind with
  | isolate => exact ⟨[.judgeWait k], State.lowerIsolate_line⟩
  | noreclose => exact ⟨[.judgeWait k], State.lowerNoreclose_line⟩
  | earth =>
    refine ⟨[.judgeWait k, .judgeWait k], ?_⟩
    dsimp only
    rw [State.lowerIsolate_line]
    by_cases h : (s.sec (sectionOf k)).earth ≤ 1 ∧ (s.sec (sectionOf k)).commandedClosed = true
    · obtain ⟨h1, h2⟩ := h
      obtain ⟨w, hw⟩ : ∃ w, w =
          ({ State.deriveBars (sectionOf k) (s.modSec (sectionOf k) fun r => { r with isolate := r.isolate - 1 }) with
              agenda := s.agenda ++ [.judgeWait k] } : State) := ⟨_, rfl⟩
      rw [← hw]
      obtain ⟨x, hx⟩ : ∃ x, x = State.deriveBars (sectionOf k) (s.modSec (sectionOf k) fun r =>
          { r with isolate := r.isolate - 1, earth := r.earth - 1 }) := ⟨_, rfl⟩
      have wx : State.deriveBars (sectionOf k) (w.modSec (sectionOf k) fun r => { r with earth := r.earth - 1 }) =
          { x with agenda := s.agenda ++ [.judgeWait k] } := by
        rw [hw, hx]
        show ({ State.deriveBars (sectionOf k) (State.modSec (sectionOf k) (fun r => { r with earth := r.earth - 1 })
            (State.deriveBars (sectionOf k) (s.modSec (sectionOf k) fun r => { r with isolate := r.isolate - 1 }))) with
              agenda := s.agenda ++ [.judgeWait k] } : State) = _
        rw [State.deriveBars_modSec _ _ (fun _ _ => rfl), State.modSec_modSec]
      have c1 : (w.modSec (sectionOf k) fun r => { r with earth := r.earth - 1 }).countChanged (sectionOf k) =
          { x with agenda := s.agenda ++ [.judgeWait k, .judgeWait k] } := by
        unfold State.countChanged; rw [feederOf_sectionOf, concerned_sectionOf]; dsimp only
        rw [wx]; simp [State.handAll]
      unfold State.lowerEarth; rw [feederOf_sectionOf]; dsimp only
      rw [c1]
      have xs : x.sec (sectionOf k) =
          { s.sec (sectionOf k) with
              isolate := (s.sec (sectionOf k)).isolate - 1, earth := (s.sec (sectionOf k)).earth - 1, bars := (x.sec (sectionOf k)).bars } := by
        rw [hx]; unfold State.deriveBars; rw [State.modSec_sec, State.modSec_sec]
      rw [if_pos (by show (x.sec (sectionOf k)).earth = 0; rw [xs]; dsimp only; omega)]
      unfold State.commandEarth; dsimp only
      rw [if_neg (by show ¬ (x.sec (sectionOf k)).commandedClosed = false; rw [xs]; dsimp only; rw [h2]; decide)]
      have ep : State.earthPos ({ x with agenda := s.agenda ++ [.judgeWait k, .judgeWait k] }) k = s.earthPos k := by
        rw [hx]; rfl
      have so : s.standsOpen (sectionOf k) = atCommand false (s.earthPos k) := by
        unfold State.standsOpen atCommand; rw [feederOf_sectionOf]; rfl
      rw [ep]
      simp only [Bool.false_eq_true, if_false]
      show ({ State.deriveBars (sectionOf k) (State.modSec (sectionOf k) (fun r =>
          { r with
            commandedClosed := false
            drive := if atCommand false (s.earthPos k) = true then .none else .opened
            mismatchTimer := if atCommand false (s.earthPos k) = true then none else some 10000 }) x) with
        agenda := s.agenda ++ [.judgeWait k, .judgeWait k] } : State) = _
      rw [hx, State.deriveBars_modSec _ _ (fun _ _ => rfl), State.modSec_modSec]
      refine congrArg (fun z =>
          ({ State.deriveBars (sectionOf k) z with agenda := s.agenda ++ [.judgeWait k, .judgeWait k] } : State))
          (State.modSec_congr ?_)
      unfold loweredIn; dsimp only; rw [if_pos (show (s.sec (sectionOf k)).earth ≤ 1 ∧
          (s.sec (sectionOf k)).commandedClosed = true from ⟨h1, h2⟩), so]
    · rw [State.lowerEarth_line]
      · have e : State.deriveBars (sectionOf k) (State.modSec (sectionOf k) (fun r => { r with earth := r.earth - 1 })
            { State.deriveBars (sectionOf k) (s.modSec (sectionOf k) fun r => { r with isolate := r.isolate - 1 }) with
              agenda := s.agenda ++ [.judgeWait k] }) =
            { State.deriveBars (sectionOf k) (s.modSec (sectionOf k) (loweredIn .earth true (s.standsOpen (sectionOf k)))) with
                agenda := s.agenda ++ [.judgeWait k] } := by
          show ({ State.deriveBars (sectionOf k) (State.modSec (sectionOf k) (fun r => { r with earth := r.earth - 1 })
            (State.deriveBars (sectionOf k) (s.modSec (sectionOf k) fun r => { r with isolate := r.isolate - 1 }))) with
              agenda := s.agenda ++ [.judgeWait k] } : State) = _
          rw [State.deriveBars_modSec _ _ (fun _ _ => rfl), State.modSec_modSec]
          rw [State.modSec_congr (f := fun r => { r with isolate := r.isolate - 1, earth := r.earth - 1 }) (g :=
              loweredIn .earth true (s.standsOpen (sectionOf k)))]
          unfold loweredIn; dsimp only; rw [if_neg h]
        rw [e]; simp
      · show ((State.deriveBars (sectionOf k) (s.modSec (sectionOf k) fun r =>
            { r with isolate := r.isolate - 1 })).sec (sectionOf k)).commandedClosed = false ∨
          2 ≤ ((State.deriveBars (sectionOf k) (s.modSec (sectionOf k) fun r =>
              { r with isolate := r.isolate - 1 })).sec (sectionOf k)).earth
        unfold State.deriveBars
        rw [State.modSec_sec, State.modSec_sec]
        dsimp only
        cases hc : (s.sec (sectionOf k)).commandedClosed
        · exact .inl rfl
        · right
          have : ¬ (s.sec (sectionOf k)).earth ≤ 1 := fun e => h ⟨e, hc⟩
          omega

/-- The counts of the bus lowered, which NORECLOSE has none of. -/
theorem lowerCounts_bus (s : State) (kind : HoldKind) : (kind = .noreclose ∧ s.lowerCounts kind busSection = s) ∨
    (kind ≠ .noreclose ∧ ∃ l,
    s.lowerCounts kind busSection =
      { State.deriveAllBars (s.modSec busSection (loweredIn kind false false)) with agenda := s.agenda ++ l }) := by
  have fb : feederOf busSection = none := by decide
  unfold State.lowerCounts
  have li : s.lowerIsolate busSection =
      { State.deriveAllBars (s.modSec busSection (fun r => { r with isolate := r.isolate - 1 })) with
          agenda := s.agenda ++ (concerned busSection).map Signal.judgeWait } := by
    unfold State.lowerIsolate State.countChanged; rw [fb]; dsimp only
    unfold State.handAll
    have : (State.deriveAllBars (s.modSec busSection (fun r => { r with isolate := r.isolate - 1 }))).agenda = s.agenda := by
      unfold State.deriveAllBars; exact (forEach_same State.agenda _ _ _ (fun s a => by simp [State.deriveBars])).trans rfl
    rw [this]
  cases kind with
  | isolate => exact .inr ⟨by decide, _, li⟩
  | earth =>
    refine .inr ⟨by decide, (concerned busSection).map Signal.judgeWait, ?_⟩
    dsimp only
    unfold State.lowerEarth; rw [fb]; dsimp only
    exact li
  | noreclose =>
    refine .inl ⟨rfl, ?_⟩
    dsimp only; unfold State.lowerNoreclose; rw [fb]

theorem sectionOf_or_bus (n : SectionNo) : n = busSection ∨ ∃ k, n = sectionOf k := by revert n; decide

/-- Every section after the sections of a list have been counted down. -/
structure Down (kind : HoldKind) (done : List SectionNo) (s t : State) : Prop where
  frame : ∃ (v : _) (l : _), t = { s with sections := v, agenda := l }
  sec : ∀ n, t.sec n = { (if n ∈ done then loweredIn kind (feederOf n).isSome (s.standsOpen n) (s.sec n) else s.sec n) with
      bars := (t.sec n).bars }
  bars : ∀ n ∈ done, kind ≠ .noreclose ∨ n ≠ busSection → (t.sec n).bars = t.barsOf n
  same : ∀ n, n ∉ done → (kind = .noreclose ∨ busSection ∉ done) → (t.sec n).bars = (s.sec n).bars

/-- Deriving one close permission writes that permission alone. -/
theorem deriveBars_sec (s : State) (m n : SectionNo) : (s.deriveBars m).sec n = if n = m then
    { s.sec n with bars := s.barsOf n } else s.sec n := by
  unfold State.deriveBars
  split
  · next h => subst h; rw [State.modSec_sec]
  · next h => rw [State.modSec_sec_ne _ h]

/-- Deriving every close permission writes the permissions alone. -/
theorem deriveAllBars_sec (s : State) (n : SectionNo) : (s.deriveAllBars).sec n = { s.sec n with bars := s.barsOf n } ∧
    (s.deriveAllBars).barsOf n = s.barsOf n ∧ ∃ v, s.deriveAllBars = { s with sections := v } := by
  unfold State.deriveAllBars
  have : ∀ (l : List SectionNo) (t : State), (∃ v, t = { s with sections := v }) → (∀ n, t.sec n =
      { s.sec n with bars := (t.sec n).bars }) →
      (∀ n, t.barsOf n = s.barsOf n) →
      (∃ v, (forEach l State.deriveBars t) = { s with sections := v }) ∧ (∀ n, (forEach l State.deriveBars t).barsOf n =
          s.barsOf n) ∧
      (∀ n, (forEach l State.deriveBars t).sec n = { s.sec n with bars := if n ∈ l then s.barsOf n else (t.sec n).bars }) := by
    intro l
    induction l with
    | nil => intro t h1 h2 h3; exact ⟨h1, h3, fun n => by simp; exact h2 n⟩
    | cons m l ih =>
      intro t h1 h2 h3
      have b : ∀ n, (t.deriveBars m).barsOf n = t.barsOf n := by
        intro n
        refine State.barsOf_congr (fun j => ?_) ?_ rfl rfl rfl <;> rw [deriveBars_sec] <;> split <;> rfl
      have keeps : ∀ n, (t.deriveBars m).sec n = { s.sec n with bars := ((t.deriveBars m).sec n).bars } := by
        intro n
        rw [deriveBars_sec]
        split
        · exact congrArg (fun r => { r with bars := t.barsOf n }) (h2 n)
        · exact h2 n
      obtain ⟨i1, i2, i3⟩ := ih (t.deriveBars m) (by obtain ⟨v, rfl⟩ := h1; exact ⟨_, rfl⟩) keeps fun n => by rw [b, h3]
      refine ⟨i1, i2, fun n => ?_⟩
      show (forEach l State.deriveBars (t.deriveBars m)).sec n = _
      rw [i3 n]
      by_cases hn : n ∈ l
      · simp [hn]
      · simp only [hn, if_false, List.mem_cons, or_false]
        rw [deriveBars_sec]
        by_cases hm : n = m
        · simp [hm, h3]
        · simp [hm]
  obtain ⟨i1, i2, i3⟩ := this allSections s ⟨_, rfl⟩ (fun n => rfl) (fun n => rfl)
  refine ⟨?_, i2 n, i1⟩
  rw [i3 n, if_pos (by revert n; decide)]

/-- What the close permission of one section reads. -/
theorem State.barsOf_of_same {s t : State} {n : SectionNo} (hi : (t.sec n).isolate =
    (s.sec n).isolate) (hb : (t.sec busSection).isolate = (s.sec busSection).isolate)
    (hc : (t.sec n).commandedClosed = (s.sec n).commandedClosed) (hm : t.mi = s.mi) (hq : t.seqs = s.seqs) (hs : t.store =
        s.store) :
    t.barsOf n = s.barsOf n := by
  have e : ∀ j, t.earthPos j = s.earthPos j := fun j => by unfold State.earthPos State.pair; rw [hm]
  have f : ∀ j, t.fitted j = s.fitted j := fun j => by unfold State.fitted; rw [hs]
  have q : ∀ j x, t.seqIn j x = s.seqIn j x := fun j x => by unfold State.seqIn State.seq; rw [hq]
  unfold State.barsOf
  cases feederOf n <;> simp only [hi, hb, hc, e, f, q]

/-- What `State.lowerHold` leaves, for a hold that names each of its sections once. -/
theorem lowerHold_down (s : State) (h : Hold) (hn : h.sections.Nodup) : Down h.kind h.sections s (s.lowerHold h) := by
  unfold State.lowerHold
  have : ∀ (l done : List SectionNo) (t : State), Down h.kind done s t → (∀ n ∈ l, n ∉ done) → l.Nodup →
      Down h.kind (done ++ l) s (forEach l (State.lowerCounts h.kind) t) := by
    intro l
    induction l with
    | nil => intro done t d _ _; rw [List.append_nil]; exact d
    | cons m l ih =>
      intro done t d hd hl
      have step : Down h.kind (done ++ [m]) s (t.lowerCounts h.kind m) := by
        have md : m ∉ done := hd m (by simp)
        have sm : t.sec m = { s.sec m with bars := (t.sec m).bars } := by have := d.sec m; rw [if_neg md] at this; exact this
        obtain ⟨v0, l0, ht⟩ := d.frame
        have so : t.standsOpen m = s.standsOpen m := by unfold State.standsOpen; rw [ht]; rfl
        rcases sectionOf_or_bus m with hb | ⟨k, hk⟩
        · rcases lowerCounts_bus t h.kind with ⟨hk, e⟩ | ⟨hk, l', e⟩
          · rw [hb, e]
            refine ⟨d.frame, fun n => ?_, fun n hn' hc => ?_, fun n hn' hc => ?_⟩
            · rw [d.sec n]
              by_cases hn : n ∈ done
              · simp [hn]
              · by_cases hnb : n = busSection
                · subst hnb; simp only [hn, List.mem_append, List.mem_singleton, or_true, if_true, if_false]; rw [hk]; rfl
                · simp [hn, hnb]
            · rcases List.mem_append.1 hn' with h1 | h1
              · exact d.bars n h1 hc
              · simp at h1; rcases hc with h2 | h2
                · exact absurd hk h2
                · exact absurd h1 h2
            · exact d.same n (fun c => hn' (List.mem_append.2 (.inl c))) (.inl hk)
          · rw [hb] at md sm so ⊢; rw [e]
            obtain ⟨w, hw⟩ : ∃ w, w = t.modSec busSection (loweredIn h.kind false false) := ⟨_, rfl⟩
            rw [← hw]
            have D := deriveAllBars_sec w
            have fb : (feederOf busSection).isSome = false := by decide
            have sb : s.standsOpen busSection = false := by
              unfold State.standsOpen; rw [show feederOf busSection = none by decide]
            refine ⟨?_, fun n => ?_, fun n hn' hc => ?_, fun n hn' hc => ?_⟩
            · obtain ⟨v, hv⟩ := (D busSection).2.2
              exact ⟨v, _, by rw [hv, hw, ht]; rfl⟩
            · show (w.deriveAllBars).sec n =
                  { (if n ∈ done ++ [busSection] then loweredIn h.kind (feederOf n).isSome (s.standsOpen n) (s.sec n) else s.sec n) with
                      bars := ((w.deriveAllBars).sec n).bars }
              rw [(D n).1]
              by_cases hnb : n = busSection
              · subst hnb
                simp only [List.mem_append, List.mem_singleton, or_true, if_true]
                rw [fb, sb, hw, State.modSec_sec, sm, loweredIn_bars]
              · have : w.sec n = t.sec n := by rw [hw, State.modSec_sec_ne _ hnb]
                rw [this]
                have := d.sec n
                have hm : (n ∈ done ++ [busSection]) ↔ n ∈ done := by simp [hnb]
                simp only [hm]
                rw [this]
            · show ((w.deriveAllBars).sec n).bars = (w.deriveAllBars).barsOf n
              rw [(D n).1, (D n).2.1]
            · rcases hc with h1 | h1
              · exact absurd h1 hk
              · exact absurd (List.mem_append.2 (.inr (by simp))) h1
        · obtain ⟨l', e⟩ := lowerCounts_line t k h.kind
          subst hk
          rw [e]
          obtain ⟨w, hw⟩ : ∃ w, w = t.modSec (sectionOf k) (loweredIn h.kind true (t.standsOpen (sectionOf k))) := ⟨_, rfl⟩
          rw [← hw]
          have fs : (feederOf (sectionOf k)).isSome = true := by rw [feederOf_sectionOf]; rfl
          have nb := sectionOf_ne_bus k
          have wn : ∀ n, n ≠ sectionOf k → w.sec n = t.sec n := fun n hn => by rw [hw, State.modSec_sec_ne _ hn]
          have wb : ∀ n, n ≠ sectionOf k → w.barsOf n = t.barsOf n := by
            intro n hn
            refine State.barsOf_of_same ?_ ?_ ?_ (by rw [hw]; rfl) (by rw [hw]; rfl) (by rw [hw]; rfl) <;> rw [wn]
            · exact hn
            · exact Ne.symm nb
            · exact hn
          have db : ∀ n, (w.deriveBars (sectionOf k)).barsOf n = w.barsOf n := by
            intro n
            refine State.barsOf_congr (fun j => ?_) ?_ rfl rfl rfl <;> rw [deriveBars_sec] <;> split <;> rfl
          refine ⟨⟨_, _, by rw [hw, ht]; rfl⟩, fun n => ?_, fun n hn' hc => ?_, fun n hn' hc => ?_⟩
          · show (w.deriveBars (sectionOf k)).sec n =
                { (if n ∈ done ++ [sectionOf k] then loweredIn h.kind (feederOf n).isSome (s.standsOpen n) (s.sec n) else s.sec n) with
                    bars := ((w.deriveBars (sectionOf k)).sec n).bars }
            rw [deriveBars_sec]
            by_cases hnk : n = sectionOf k
            · subst hnk
              simp only [List.mem_append, List.mem_singleton, or_true, if_true]
              rw [fs, hw, State.modSec_sec, sm, loweredIn_bars, so]
            · have hm : (n ∈ done ++ [sectionOf k]) ↔ n ∈ done := by simp [hnk]
              simp only [hm, if_neg hnk]
              rw [wn n hnk]
              exact d.sec n
          · show ((w.deriveBars (sectionOf k)).sec n).bars = (w.deriveBars (sectionOf k)).barsOf n
            rw [db, deriveBars_sec]
            by_cases hnk : n = sectionOf k
            · subst hnk; simp
            · rw [if_neg hnk, wn n hnk, wb n hnk]
              exact d.bars n (by simpa [hnk] using hn') hc
          · show ((w.deriveBars (sectionOf k)).sec n).bars = _
            have hnk : n ≠ sectionOf k := fun e => hn' (List.mem_append.2 (.inr (by simp [e])))
            rw [deriveBars_sec, if_neg hnk, wn n hnk]
            refine d.same n (fun c => hn' (List.mem_append.2 (.inl c))) ?_
            rcases hc with h1 | h1
            · exact .inl h1
            · exact .inr fun c => h1 (List.mem_append.2 (.inl c))
      have := ih (done ++ [m]) _ step (fun n hn' hc => ?_) (List.nodup_cons.1 hl).2
      · rw [List.append_assoc] at this; exact this
      · rcases List.mem_append.1 hc with h1 | h1
        · exact hd n (by simp [hn']) h1
        · simp at h1; subst h1; exact (List.nodup_cons.1 hl).1 hn'
  have d0 : Down h.kind [] s s := {
    frame := ⟨s.sections, s.agenda, rfl⟩
    sec := fun n => by simp
    bars := fun n hn => by cases hn
    same := fun n _ _ => rfl }
  exact this h.sections [] s d0 (fun n _ c => by cases c) hn

end Sys2Proof.Machine
end

