-- ==== Sys2Proof/Laws/PlantSteps.lean ====
section
/-! SUPPORT. The writes of an event keep the laws of the hold table, of the counts and of the earth switches (R101, R104, R112), and
so does every event. -/

namespace Sys2Proof.Machine

open Sys2Proof

variable {s : State} {u : Bool} {T : List Hold} {c : Count → SectionNo → Nat}

/-! ### The counts by themselves -/

/-- The hold table and the counts of the sections, with the law of the CLOSE drives; `u` says that the law of the positions not yet
handed is looked at too. -/
structure Weighed (u : Bool) (T : List Hold) (c : Count → SectionNo → Nat) (s : State) : Prop where
  table : s.ht.holds = T
  counts : ∀ n x, (s.sec n).count x = c x n
  drives : ∀ n, DriveOk s n (s.sec n)
  unhanded : u = true → s.verifying = true → ∀ k, s.breakerPos k = none

/-- Counts said in another way. -/
theorem Weighed.congr {d : Count → SectionNo → Nat} (h : Weighed u T c s) (e : ∀ x m, c x m = d x m) : Weighed u T d s :=
  ⟨h.table, fun n x => by rw [h.counts, e], h.drives, h.unhanded⟩

/-- A write of the record of section n. -/
theorem Weighed.modSec (n : SectionNo) (f : SectionRec → SectionRec) (d : Count → Nat)
    (hc : ∀ x, (f (s.sec n)).count x = d x) (hd : DriveOk s n (s.sec n) → DriveOk s n (f (s.sec n))) (h : Weighed u T c s) :
    Weighed u T (fun x m => if m = n then d x else c x m) (s.modSec n f) := by
  refine ⟨h.table, fun m x => ?_, fun m => ?_, h.unhanded⟩
  · by_cases e : m = n
    · subst e; simp [hc]
    · rw [State.modSec_sec_ne _ e, h.counts]; simp [e]
  · by_cases e : m = n
    · subst e; rw [State.modSec_sec]; exact hd (h.drives m)
    · rw [State.modSec_sec_ne _ e]; exact h.drives m

/-- The table and the counts stay through every write of a handing but those of the table and of the counts. -/
theorem weighed_calm : Calm (Weighed u T c) where
  engine _ _ _ _ h := ⟨h.table, h.counts, h.drives, h.unhanded⟩
  seq _ _ _ _ h := ⟨h.table, h.counts, h.drives, h.unhanded⟩
  rect _ _ _ h := ⟨h.table, h.counts, h.drives, h.unhanded⟩
  sec s n f r h := by
    have := h.modSec n f (fun x => c x n)
      (fun x => by rw [← h.counts n x]; cases x <;> first | exact r.1 | exact r.2.1 | exact r.2.2.1) r.2.2.2
    refine ⟨this.table, fun m x => ?_, this.drives, this.unhanded⟩
    rw [this.counts]; split <;> simp_all
  key _ _ _ h := ⟨h.table, h.counts, h.drives, h.unhanded⟩
  link s p f _ h := by cases p <;> exact ⟨h.table, h.counts, h.drives, h.unhanded⟩
  point _ _ _ h := ⟨h.table, h.counts, h.drives, h.unhanded⟩
  hand _ _ _ h := ⟨h.table, h.counts, h.drives, h.unhanded⟩

/-- A count that has changed at one section as `φ` says. -/
def bump (φ : Count → SectionNo → Nat → Nat) (n : SectionNo) (c : Count → SectionNo → Nat) : Count → SectionNo → Nat :=
  fun x m => if m = n then φ x m (c x m) else c x m

/-- A count that has changed at the sections of a list as `φ` says. -/
def bumpAll (φ : Count → SectionNo → Nat → Nat) (l : List SectionNo) (c : Count → SectionNo → Nat) : Count → SectionNo → Nat :=
  fun x m => if m ∈ l then φ x m (c x m) else c x m

/-- A step made for each section of a list that names each once. -/
theorem Weighed.loop {φ : Count → SectionNo → Nat → Nat} {g : SectionNo → State → State}
    (hg : ∀ n c s, Weighed u T c s → Weighed u T (bump φ n c) (g n s)) (l : List SectionNo) (hl : l.Nodup)
    (h : Weighed u T c s) : Weighed u T (bumpAll φ l c) (forEach l g s) := by
  unfold forEach
  induction l generalizing s c with
  | nil => exact h.congr fun x m => by simp [bumpAll]
  | cons a l ih =>
    obtain ⟨ha, hl⟩ := List.nodup_cons.1 hl
    have := ih hl (hg a c s h)
    refine cast (congrArg (fun d => Weighed u T d _) ?_) this
    funext x m
    unfold bumpAll bump
    by_cases e : m = a
    · subst e; simp [ha]
    · simp [e]

theorem Weighed.raiseIsolate (n : SectionNo) (h : Weighed u T c s) :
    Weighed u T (bump (fun x _ v => v + unitOf .isolate x n) n c) (s.raiseIsolate n) := by
  have K : Calm (Weighed u T (bump (fun x _ v => v + unitOf .isolate x n) n c)) := weighed_calm
  unfold State.raiseIsolate
  dsimp only
  have h1 : Weighed u T (bump (fun x _ v => v + unitOf .isolate x n) n c)
      (s.modSec n fun r => { r with isolate := r.isolate + 1 }) :=
    (h.modSec n _ (fun x => c x n + unitOf .isolate x n)
      (fun x => by rw [← h.counts]; cases x <;> rfl) fun d => d).congr fun x m => by
        unfold bump; split <;> simp_all
  refine K.countChanged n ?_
  repeat' split
  all_goals first
    | exact K.hand1 _ rfl (K.handMap _ _ (fun _ => rfl) h1)
    | exact K.handMap _ _ (fun _ => rfl) h1
    | exact K.hand1 _ rfl h1
    | exact h1

theorem Weighed.lowerIsolate (n : SectionNo) (h : Weighed u T c s) :
    Weighed u T (bump (fun x _ v => v - unitOf .isolate x n) n c) (s.lowerIsolate n) := by
  refine weighed_calm.countChanged n ?_
  exact (h.modSec n _ (fun x => c x n - unitOf .isolate x n)
    (fun x => by rw [← h.counts]; cases x <;> rfl) fun d => d).congr fun x m => by
      unfold bump; split <;> simp_all

/-- What an EARTH hold adds to the earth count. -/
def earthUnit : Count → SectionNo → Nat
  | .earth, n => lineUnit n
  | _, _ => 0

theorem Weighed.raiseEarth (n : SectionNo) (h : Weighed u T c s) :
    Weighed u T (bump (fun x m v => v + earthUnit x m) n c) (s.raiseEarth n) := by
  unfold State.raiseEarth
  split
  · rename_i k e
    refine weighed_calm.countChanged n ?_
    refine (h.modSec n _ (fun x => c x n + earthUnit x n)
      (fun x => by rw [← h.counts]; cases x <;> simp [SectionRec.count, earthUnit, lineUnit, e]) fun d a => ?_).congr fun x m => by
        unfold bump; split <;> simp_all
    obtain ⟨d1, -, d3⟩ := d a
    exact ⟨d1, by simp, d3⟩
  · rename_i e
    refine h.congr fun x m => ?_
    unfold bump; split
    · rename_i em; subst em; cases x <;> simp [earthUnit, lineUnit, e]
    · rfl

theorem Weighed.lowerEarth (n : SectionNo) (h : Weighed u T c s) :
    Weighed u T (bump (fun x m v => v - earthUnit x m) n c) (s.lowerEarth n) := by
  unfold State.lowerEarth
  split
  · rename_i k e
    have hn := sectionOf_of_feederOf e
    have key : ∀ t : State, t.ht = s.ht → t.mi = s.mi → t.verification = s.verification → (∀ m, m ≠ n → t.sec m = s.sec m) →
        (∀ x, (t.sec n).count x = c x n - earthUnit x n) → DriveOk s n (t.sec n) →
        Weighed u T (bump (fun x m v => v - earthUnit x m) n c) t := fun t h1 h2 h3 h4 h5 h6 => by
      have hb : ∀ j, t.breakerPos j = s.breakerPos j := fun j => by simp [State.breakerPos, State.pair, h2]
      refine ⟨by rw [h1, h.table], fun m x => ?_, fun m => ?_, fun hu hv j => ?_⟩
      · unfold bump
        by_cases em : m = n
        · subst em; simp [h5]
        · simp [em, h4 m em, h.counts]
      · by_cases em : m = n
        · subst em; exact fun d => by simpa [hb] using h6 d
        · rw [h4 m em]; exact fun d => by simpa [hb] using h.drives m d
      · rw [hb]; exact h.unhanded hu (by simpa [State.verifying, h3] using hv) j
    have hx : ∀ (r : SectionRec) (x : Count), r.count x = c x n →
        ({ r with earth := r.earth - 1 } : SectionRec).count x = c x n - earthUnit x n := fun r x hr => by
      rw [← hr]; cases x <;> simp [SectionRec.count, earthUnit, lineUnit, e]
    have cc : ∀ t : State, t.countChanged n = (t.deriveBars n).handAll ((concerned n).map Signal.judgeWait) := fun t => by
      unfold State.countChanged; simp [e]
    generalize e1 : (s.modSec n fun r => { r with earth := r.earth - 1 }).countChanged n = t
    rw [cc] at e1
    have t1 : t.ht = s.ht := by rw [← e1]; simp
    have t2 : t.mi = s.mi := by rw [← e1]; simp
    have t3 : t.verification = s.verification := by rw [← e1]; simp
    have t4 : ∀ m, m ≠ n → t.sec m = s.sec m := fun m em => by
      rw [← e1]; simp [State.sec, State.deriveBars, State.modSec, State.handAll, vget_set, Ne.symm em]
    have t5 : ∃ b, t.sec n = { s.sec n with earth := (s.sec n).earth - 1, bars := b } := by
      rw [← e1]
      exact ⟨_, by simp [State.sec, State.deriveBars, State.modSec, State.handAll, vget_set]; rfl⟩
    obtain ⟨b, t5⟩ := t5
    have t6 : ∀ x, (t.sec n).count x = c x n - earthUnit x n := fun x => by
      rw [t5, ← hx (s.sec n) x (h.counts n x)]; cases x <;> rfl
    dsimp only
    split
    · unfold State.commandEarth
      dsimp only
      split
      · rename_i hc
        refine key t t1 t2 t3 t4 t6 fun d => ?_
        rw [t5] at d
        have := (h.drives n d).1
        rw [← hn, t5] at hc
        rw [hc] at this; cases this
      · refine key _ (by simp [t1]) (by simp [t2]) (by simp [t3]) (fun m em => ?_) (fun x => ?_) fun d => ?_
        · rw [← t4 m em]
          simp [State.sec, State.deriveBars, State.modSec, vget_set, ← hn, Ne.symm em]
        · rw [← t6 x]
          cases x <;> simp [SectionRec.count, State.sec, State.deriveBars, State.modSec, vget_set, ← hn]
        · exfalso
          simp only [Bool.false_eq_true, reduceIte] at d
          simp [State.sec, State.deriveBars, State.modSec, vget_set, ← hn] at d
          split at d <;> cases d
    · rename_i he
      refine key t t1 t2 t3 t4 t6 fun d => ?_
      rw [t5] at d he ⊢
      obtain ⟨d1, -, d3⟩ := h.drives n d
      exact ⟨d1, he, d3⟩
  · rename_i e
    refine h.congr fun x m => ?_
    unfold bump; split
    · rename_i em; subst em; cases x <;> simp [earthUnit, lineUnit, e]
    · rfl

theorem Weighed.raiseCounts (kind : HoldKind) (n : SectionNo) (h : Weighed u T c s) :
    Weighed u T (bump (fun x m v => v + unitOf kind x m) n c) (s.raiseCounts kind n) := by
  cases kind
  · exact h.raiseIsolate n |>.congr fun x m => by unfold bump; split <;> simp_all
  · refine (h.raiseIsolate n).raiseEarth n |>.congr fun x m => ?_
    unfold bump; split
    · cases x <;> simp [unitOf, earthUnit]
    · rfl
  · unfold State.raiseCounts State.raiseNoreclose
    dsimp only
    split
    · rename_i k e
      have K : Calm (Weighed u T (bump (fun x m v => v + unitOf .noreclose x m) n c)) := weighed_calm
      refine K.countChanged n ?_
      have h1 : Weighed u T (bump (fun x m v => v + unitOf .noreclose x m) n c)
          (s.modSec n fun r => { r with noreclose := r.noreclose + 1 }) :=
        (h.modSec n _ (fun x => c x n + unitOf .noreclose x n)
          (fun x => by rw [← h.counts]; cases x <;> simp [SectionRec.count, unitOf, lineUnit, e]) fun d => d).congr fun x m => by
            unfold bump; split <;> simp_all
      split
      · exact K.hand1 _ rfl h1
      · exact h1
    · rename_i e
      refine h.congr fun x m => ?_
      unfold bump; split
      · rename_i em; subst em; cases x <;> simp [unitOf, lineUnit, e]
      · rfl

theorem Weighed.lowerCounts (kind : HoldKind) (n : SectionNo) (h : Weighed u T c s) :
    Weighed u T (bump (fun x m v => v - unitOf kind x m) n c) (s.lowerCounts kind n) := by
  cases kind
  · exact h.lowerIsolate n |>.congr fun x m => by unfold bump; split <;> simp_all
  · refine (h.lowerIsolate n).lowerEarth n |>.congr fun x m => ?_
    unfold bump; split
    · cases x <;> simp [unitOf, earthUnit]
    · rfl
  · unfold State.lowerCounts State.lowerNoreclose
    dsimp only
    split
    · rename_i k e
      refine weighed_calm.countChanged n ?_
      exact (h.modSec n _ (fun x => c x n - unitOf .noreclose x n)
        (fun x => by rw [← h.counts]; cases x <;> simp [SectionRec.count, unitOf, lineUnit, e]) fun d => d).congr fun x m => by
          unfold bump; split <;> simp_all
    · rename_i e
      refine h.congr fun x m => ?_
      unfold bump; split
      · rename_i em; subst em; cases x <;> simp [unitOf, lineUnit, e]
      · rfl

/-- The Hold Table has a new table. -/
theorem Weighed.handTable (l : List Hold) (id : Byte) (h : Weighed u T c s) : Weighed u l c (s.handTable l id) :=
  ⟨rfl, h.counts, h.drives, h.unhanded⟩

/-! ### The laws through the changes of the hold table -/

/-- The laws of the hold table, of the counts and of the earth switches; `u` as before. -/
def Mid (u : Bool) (s : State) : Prop :=
  ∃ T, TableLaw T ∧ (∀ h ∈ T, HoldLaw h) ∧ Weighed u T (tally T) s

theorem mid_iff : Mid true s ↔ PlantLaws s := by
  constructor
  · rintro ⟨T, h1, h2, h3⟩
    obtain ⟨rfl, h4, h5, h6⟩ := h3
    exact ⟨h1, h2, (countLaw_iff s).2 h4, h5, h6 rfl⟩
  · intro h
    exact ⟨_, h.table, h.holds, rfl, (countLaw_iff s).1 h.counts, h.drives, fun _ => h.unhanded⟩

/-- What keeps the table and the counts keeps the laws. -/
theorem Mid.lift {t : State} (h : Mid u s) (f : ∀ T c, Weighed u T c s → Weighed u T c t) : Mid u t := by
  obtain ⟨T, h1, h2, h3⟩ := h
  exact ⟨T, h1, h2, f _ _ h3⟩

/-- The same where the law of the positions not yet handed is looked at from here on. -/
theorem Mid.lift' {t : State} {v : Bool} (h : Mid u s) (f : ∀ T c, Weighed u T c s → Weighed v T c t) : Mid v t := by
  obtain ⟨T, h1, h2, h3⟩ := h
  exact ⟨T, h1, h2, f _ _ h3⟩

theorem mem_update {T : List Hold} {id : Byte} {f : Hold → Hold} {x : Hold}
    (m : x ∈ T.map fun h => if h.id = id then f h else h) : (∃ h ∈ T, h.id = id ∧ x = f h) ∨ x ∈ T := by
  obtain ⟨y, my, ey⟩ := List.mem_map.1 m
  split at ey
  · exact .inl ⟨y, my, by assumption, ey.symm⟩
  · exact .inr (ey ▸ my)

/-- The hold of an ID is the only one of that ID. -/
theorem only_hold {T : List Hold} (hn : (T.map Hold.id).Nodup) {a b : Hold} (ha : a ∈ T) (hb : b ∈ T) (e : a.id = b.id) :
    a = b := by
  induction T with
  | nil => cases ha
  | cons x l ih =>
    simp only [List.map_cons, List.nodup_cons] at hn
    rcases List.mem_cons.1 ha with ea | ma <;> rcases List.mem_cons.1 hb with eb | mb
    · rw [ea, eb]
    · exact absurd (by rw [← ea, e]; exact List.mem_map_of_mem mb) hn.1
    · exact absurd (by rw [← eb, ← e]; exact List.mem_map_of_mem ma) hn.1
    · exact ih hn.2 ma mb

theorem State.hold_none {id : Byte} (e : s.hold id = none) : id ∉ s.ht.holds.map Hold.id := fun m => by
  obtain ⟨x, mx, ex⟩ := List.mem_map.1 m
  simpa [ex] using List.find?_eq_none.1 e x mx

/-- A record changed with the counts changed by as much. -/
theorem Mid.update {t : State} {id : Byte} {f : Hold → Hold} {x : Hold} (h1 : TableLaw s.ht.holds)
    (h2 : ∀ h ∈ s.ht.holds, HoldLaw h) (e : s.hold id = some x) (hw : (f x).who = x.who) (hl : HoldLaw (f x))
    (ht : ∃ c, Weighed u (s.ht.holds.map fun h => if h.id = id then f h else h) c t ∧
      ∀ y n, c y n + weight y n x = tally s.ht.holds y n + weight y n (f x)) : Mid u t := by
  have hx := State.hold_mem e
  have hi := State.hold_id e
  subst hi
  have only : ∀ h ∈ s.ht.holds, h.id = x.id → h = x := fun h m e => only_hold h1.ids m hx e
  refine ⟨_, h1.map (fun h => if h.id = x.id then f h else h) fun h m => ?_, fun h m => ?_, ?_⟩
  · split
    · rename_i e; rw [only h m e]; exact hw
    · rfl
  · rcases mem_update m with ⟨y, my, ey, rfl⟩ | m
    · rw [only y my ey]; exact hl
    · exact h2 _ m
  · obtain ⟨c, hc, ec⟩ := ht
    refine hc.congr fun y n => ?_
    have := sum_update (weight y n) s.ht.holds f h1.ids hx
    have := ec y n
    unfold tally at *
    omega

/-- The counts before and after a change of a record on the sections it names. -/
theorem weight_mem {y : Count} {n : SectionNo} {h : Hold} (hf : h.state ≠ .failed) :
    weight y n h = if n ∈ h.sections then unitOf h.kind y n else 0 := by simp [weight, hf]

theorem mid_keeps : Keeps (Mid u) where
  engine s k f r h := h.lift fun _ _ w => weighed_calm.engine s k f r w
  seq s k f r h := h.lift fun _ _ w => weighed_calm.seq s k f r w
  rect s f r h := h.lift fun _ _ w => weighed_calm.rect s f r w
  sec s n f r h := h.lift fun _ _ w => weighed_calm.sec s n f r w
  key s n f h := h.lift fun _ _ w => weighed_calm.key s n f w
  link s p f r h := h.lift fun _ _ w => weighed_calm.link s p f r w
  point s p r h := h.lift fun _ _ w => weighed_calm.point s p r w
  hand s l r h := h.lift fun _ _ w => weighed_calm.hand s l r w
  hold s id f r := by
    rintro ⟨T, h1, h2, h3⟩
    have := h3.table
    subst this
    cases e : s.hold id with
    | none =>
      refine ⟨_, h1, h2, ?_⟩
      have w := h3.handTable (s.ht.holds.map fun h => if h.id = id then f h else h) s.ht.lastId
      exact ⟨w.table.trans (map_other _ _ _ (State.hold_none e)), w.counts, w.drives, w.unhanded⟩
    | some x =>
      have r := r x e
      have hx := h2 x (State.hold_mem e)
      refine Mid.update h1 h2 e (by simp [Hold.who, r.id, r.origin, r.tag]) (r.law hx) ⟨_, h3.handTable _ _, fun y n => ?_⟩
      have : weight y n (f x) = weight y n x := by simp [weight, r.failed hx, r.kind, r.sections]
      rw [this]
  place s kind origin tag sections duration r := by
    rintro ⟨T, h1, h2, h3⟩
    have := h3.table
    subst this
    have x1 : (s.newHold kind origin tag sections duration).id = drawId s.ht.holds s.ht.lastId := rfl
    have x3 : (s.newHold kind origin tag sections duration).origin = origin := rfl
    have x4 : (s.newHold kind origin tag sections duration).tag = tag := rfl
    have x5 : (s.newHold kind origin tag sections duration).sections = sections := rfl
    have x6 : (s.newHold kind origin tag sections duration).state = .securing := rfl
    have x7 : (s.newHold kind origin tag sections duration).purpose = none := rfl
    have x8 : (s.newHold kind origin tag sections duration).phase = none := rfl
    unfold State.placeHold
    dsimp only
    generalize s.newHold kind origin tag sections duration = x at *
    have K : ∀ c, Calm (Weighed u (s.ht.holds ++ [x]) c) := fun _ => weighed_calm
    have w1 := h3.handTable (s.ht.holds ++ [x]) x.id
    refine ⟨_, h1.append (h := x) (by rw [x3, x4, x5]; exact r) (by rw [x1]; exact drawId_free _ _ r.room), fun h m => ?_,
      (K _).hand1 _ rfl ((Weighed.loop (fun n c s w => w.raiseCounts x.kind n) x.sections (by rw [x5]; exact r.once)
        (forEach_keeps _ _ (fun a s h => ?_) w1)).congr fun y n => ?_)⟩
    · rcases List.mem_append.1 m with m | m
      · exact h2 h m
      · rw [List.mem_singleton.1 m]
        exact ⟨by rw [x5]; exact r.once, by simp [x7], by simp [x8], by simp [x7]⟩
    · split
      · exact (K _).queueMessage _ _ h
      · exact h
    · unfold bumpAll tally
      rw [List.map_append, List.sum_append]
      simp only [List.map_cons, List.map_nil, List.sum_cons, List.sum_nil, weight_mem (h := x) (by rw [x6]; simp)]
      split <;> simp
  fail s id r := by
    rintro ⟨T, h1, h2, h3⟩
    have := h3.table
    subst this
    unfold State.failHold
    split
    · rename_i x e
      split
      · rename_i hc
        dsimp only
        have hx := h2 x (State.hold_mem e)
        have hq : x.state ≠ .failed ∧ x.state ≠ .releasing := by
          unfold caughtInFlight at hc
          constructor <;> intro q <;> simp [q] at hc
        obtain ⟨p1, p2⟩ := hx.none hq.2
        have w1 := h3.handTable (s.ht.holds.map fun h => if h.id = id then
          failedHold r h else h) s.ht.lastId
        have w2 := Weighed.loop (fun n c s w => w.lowerCounts x.kind n) x.sections hx.sections w1
        refine Mid.update (x := x) (f := failedHold r) h1 h2 e rfl
          ⟨hx.sections, by simp [failedHold, p1], by simp [failedHold, p2], by simp [failedHold, p1]⟩
          ⟨bumpAll (fun y m v => v - unitOf x.kind y m) x.sections (tally s.ht.holds), weighed_calm.pulse 57 ?_, fun y n => ?_⟩
        rotate_left
        · have l1 := sum_remove (weight y n) s.ht.holds h1.ids (State.hold_mem e)
          rw [weight_mem hq.1] at *
          simp only [weight, failedHold, ne_eq, not_true_eq_false, false_and, reduceIte, Nat.add_zero, bumpAll]
          unfold tally
          split
          · rename_i m; simp only [m, reduceIte] at l1; omega
          · rfl
        · have w3 := forEach_keeps x.asks (fun a s =>
              if (a.status = .asked ∨ a.status = .granted) ∧ s.linkUp a.port = true then s.queueMessage a.port (.drop x.id)
              else s) (fun a s h => by
                split
                · exact weighed_calm.queueMessage _ _ h
                · exact h) w2
          repeat' split
          all_goals first | exact weighed_calm.queueMessage _ _ w3 | exact w3
      · exact ⟨_, h1, h2, h3⟩
    · exact ⟨_, h1, h2, h3⟩
  retire s id := by
    rintro ⟨T, h1, h2, h3⟩
    have := h3.table
    subst this
    unfold State.retireHold
    split
    · rename_i x e
      dsimp only
      have hx := h2 x (State.hold_mem e)
      have hi := State.hold_id e
      have w1 := h3.handTable (s.ht.holds.filter fun h => h.id ≠ id) s.ht.lastId
      refine ⟨s.ht.holds.filter fun h => h.id ≠ id, h1.sublist List.filter_sublist, fun h m => h2 h (List.mem_filter.1 m).1,
        forEach_keeps _ _ (fun _ _ h => weighed_calm.key _ _ _ h) ?_⟩
      have l1 : ∀ y n, ((s.ht.holds.filter fun h => h.id ≠ id).map (weight y n)).sum + weight y n x = tally s.ht.holds y n :=
        fun y n => by subst hi; exact sum_remove (weight y n) s.ht.holds h1.ids (State.hold_mem e)
      split
      · rename_i hf
        refine w1.congr fun y n => ?_
        have := l1 y n
        simp only [weight, hf, ne_eq, not_true_eq_false, false_and, reduceIte] at this
        exact this.symm
      · rename_i hf
        refine (Weighed.loop (fun n c s w => w.lowerCounts x.kind n) x.sections hx.sections w1).congr fun y n => ?_
        have := l1 y n
        rw [weight_mem hf] at this
        unfold bumpAll
        split
        · rename_i m; simp only [m, reduceIte] at this; show tally s.ht.holds y n - unitOf x.kind y n = (List.map _ _).sum; omega
        · rename_i m; simp only [m, reduceIte] at this; exact this.symm
    · exact ⟨_, h1, h2, h3⟩
  earthen s id x e hk hq := by
    rintro ⟨T, h1, h2, h3⟩
    have := h3.table
    subst this
    have hx := h2 x (State.hold_mem e)
    refine Mid.update (x := x) (f := fun h => { h with kind := .earth }) h1 h2 e rfl
      ⟨hx.sections, hx.purpose, hx.phase, fun _ => rfl⟩
      ⟨_, Weighed.loop (fun n c s w => w.raiseEarth n) x.sections hx.sections (h3.handTable _ _), fun y n => ?_⟩
    rw [weight_mem hq, weight_mem (h := { x with kind := .earth }) hq, hk]
    unfold bumpAll
    split
    · cases y <;> simp [unitOf, earthUnit]
    · rfl
  isolate s id x f e r := by
    rintro ⟨T, h1, h2, h3⟩
    have := h3.table
    subst this
    have hx := h2 x (State.hold_mem e)
    obtain ⟨hk, hq, hq'⟩ := r.stands hx
    refine Mid.update (x := x) (f := fun h => { f h with kind := .isolate }) h1 h2 e
      (by simp [Hold.who, r.id, r.origin, r.tag]) (r.law hx)
      ⟨_, Weighed.loop (fun n c s w => w.lowerEarth n) x.sections hx.sections (h3.handTable _ _), fun y n => ?_⟩
    have l1 := sum_remove (weight y n) s.ht.holds h1.ids (State.hold_mem e)
    rw [weight_mem hq, hk] at *
    rw [weight_mem (h := { f x with kind := .isolate }) hq']
    simp only [r.sections]
    unfold bumpAll tally
    split
    · rename_i m
      simp only [m, reduceIte] at l1
      cases y <;> simp [unitOf, earthUnit] at l1 ⊢
      omega
    · rfl

/-! ### The laws through every event -/

theorem mid_position (k : FeederNo) (r : SwitchPair) (hv : u = true → s.verifying = false) (h : Mid u s) :
    Mid u ((s.setPair (.breaker k) r).earthInterlock k) := by
  refine h.lift fun T c w => ?_
  have other : ∀ j, j ≠ k → (s.setPair (.breaker k) r).breakerPos j = s.breakerPos j := fun j e => by
    unfold State.breakerPos
    rw [State.setPair_pair_ne _ (fun c => e (Fin.ext (by simpa [pairIndex, Fin.ext_iff] using c)))]
  have drives : ∀ n, n ≠ sectionOf k → DriveOk (s.setPair (.breaker k) r) n (s.sec n) := fun n e d => by
    obtain ⟨d1, d2, d3⟩ := w.drives n d
    exact ⟨d1, d2, fun j ej => by rw [other j (fun c => e (c ▸ ej))]; exact d3 j ej⟩
  have at_ : ∀ d : SectionRec, (d.drive = .close → d.commandedClosed = true ∧ d.earth ≠ 0 ∧
      (s.setPair (.breaker k) r).breakerPos k = some .opened) → DriveOk (s.setPair (.breaker k) r) (sectionOf k) d :=
    fun d hd e => ⟨(hd e).1, (hd e).2.1, fun j ej => by rw [← sectionOf_inj ej]; exact (hd e).2.2⟩
  have whole : ∀ t : State, t.ht = s.ht → t.mi = (s.setPair (.breaker k) r).mi → t.verification = s.verification →
      (∀ n, n ≠ sectionOf k → t.sec n = s.sec n) → (∀ x, (t.sec (sectionOf k)).count x = (s.sec (sectionOf k)).count x) →
      DriveOk (s.setPair (.breaker k) r) (sectionOf k) (t.sec (sectionOf k)) → Weighed u T c t := fun t t1 t2 t3 t4 t5 t6 => by
    have hb : ∀ j, t.breakerPos j = (s.setPair (.breaker k) r).breakerPos j := fun j => by
      simp [State.breakerPos, State.pair, t2]
    refine ⟨by rw [t1]; exact w.table, fun n x => ?_, fun n => ?_, fun hu hq => ?_⟩
    · by_cases e : n = sectionOf k
      · rw [e, t5]; exact w.counts _ _
      · rw [t4 n e]; exact w.counts _ _
    · by_cases e : n = sectionOf k
      · subst e; exact fun d => by simpa [hb] using t6 d
      · rw [t4 n e]; exact fun d => by simpa [hb] using drives n e d
    · have := hv hu; simp [State.verifying, t3] at hq this; rw [this] at hq; cases hq
  unfold State.earthInterlock
  dsimp only
  have sec0 : ∀ n, (s.setPair (.breaker k) r).sec n = s.sec n := fun _ => rfl
  split
  · split
    · refine whole _ rfl rfl rfl (fun n e => ?_) (fun x => ?_) (fun d => ?_)
      · rw [State.modSec_sec_ne _ e]; rfl
      · rw [State.modSec_sec]; cases x <;> rfl
      · rw [State.modSec_sec] at d; cases d
    · rename_i hd
      exact whole _ rfl rfl rfl (fun _ _ => rfl) (fun _ => rfl) fun d => absurd d hd
  · rename_i hb
    have hb : (s.setPair (.breaker k) r).breakerPos k = some .opened := Classical.byContradiction hb
    split
    · rename_i hc
      simp only [Bool.and_eq_true, decide_eq_true_eq] at hc
      refine whole _ rfl rfl rfl (fun n e => ?_) (fun x => ?_) (at_ _ fun _ => ?_)
      · rw [State.modSec_sec_ne _ e]; rfl
      · rw [State.modSec_sec]; cases x <;> rfl
      · rw [State.modSec_sec]; exact ⟨hc.1.1.2, hc.1.2, hb⟩
    · refine whole _ rfl rfl rfl (fun _ _ => rfl) (fun _ => rfl) (at_ _ fun d => ?_)
      obtain ⟨d1, d2, -⟩ := w.drives _ d
      exact ⟨d1, d2, hb⟩

/-- R161: after a PEER record has been retired no record of its port holds its tag. -/
theorem retired_tag {p : Port} {id : Byte} {x : Hold} (h1 : TableLaw s.ht.holds) (e : s.peerHold p id = some x) :
    ∀ h ∈ (s.retireHold x.id).ht.holds, h.origin = peerOrigin p → h.tag ≠ id.setWidth 16 := by
  have hm : x ∈ s.ht.holds := List.mem_of_find?_eq_some e
  have hp := List.find?_some e
  simp only [Bool.and_eq_true, decide_eq_true_eq, beq_iff_eq] at hp
  have ht : (s.retireHold x.id).ht.holds = s.ht.holds.filter fun h => h.id ≠ x.id := by
    unfold State.retireHold
    cases f : s.hold x.id with
    | none => exact absurd (List.mem_map_of_mem hm) (State.hold_none f)
    | some y =>
      have hu : ∀ t : State, (t.unbind x.id).ht.holds = t.ht.holds := fun t =>
        forEach_same (fun t : State => t.ht.holds) _ _ t fun _ _ => rfl
      dsimp only
      rw [hu]
      split
      · rfl
      · simp only [State.lowerHold_ht]; rfl
  intro h m ho hx
  rw [ht, List.mem_filter] at m
  simp only [ne_eq, decide_not, Bool.not_eq_true', decide_eq_false_iff_not] at m
  have inj : ∀ l : List Hold, (l.map Hold.tag).Nodup → ∀ a ∈ l, ∀ b ∈ l, a.tag = b.tag → a = b := by
    intro l
    induction l with
    | nil => intro _ a ha; cases ha
    | cons y l ih =>
      intro hn a ha b hb e
      simp only [List.map_cons, List.nodup_cons] at hn
      rcases List.mem_cons.1 ha with ea | ma <;> rcases List.mem_cons.1 hb with eb | mb
      · rw [ea, eb]
      · exact absurd (by rw [← ea, e]; exact List.mem_map_of_mem mb) hn.1
      · exact absurd (by rw [← eb, ← e]; exact List.mem_map_of_mem ma) hn.1
      · exact ih hn.2 a ma b mb e
  have := inj _ (h1.tags p) h (by simp [m.1, ho]) x (by simp [hm, hp.1]) (by rw [hx, hp.2])
  exact m.2 (by rw [this])

/-- Every write of an event keeps the laws. -/
theorem mid_lawful : Lawful (Mid u) where
  toKeeps := mid_keeps
  bands _ _ h := h.lift fun _ _ w => ⟨w.table, w.counts, w.drives, w.unhanded⟩
  anySeq _ _ _ _ h := h.lift fun _ _ w => ⟨w.table, w.counts, w.drives, w.unhanded⟩
  anyRect _ _ _ h := h.lift fun _ _ w => ⟨w.table, w.counts, w.drives, w.unhanded⟩
  anyLink _ p _ _ h := h.lift fun _ _ w => by cases p <;> exact ⟨w.table, w.counts, w.drives, w.unhanded⟩
  replace s p x id line kind e h := by
    refine mid_keeps.placePeer _ _ _ _ (retired_tag ?_ e) (mid_keeps.retire _ _ h)
    obtain ⟨T, h1, -, h3⟩ := h
    rw [h3.table]; exact h1
  settled _ h := h.lift fun _ _ w => ⟨w.table, w.counts, w.drives, w.unhanded⟩
  alerts _ h := h.lift fun _ _ w => ⟨w.table, w.counts, w.drives, w.unhanded⟩
  agenda _ _ h := h.lift fun _ _ w => ⟨w.table, w.counts, w.drives, w.unhanded⟩
  mi s m hm h := h.lift fun _ _ w => by
    have hb : ∀ k, ({ s with mi := m } : State).breakerPos k = s.breakerPos k := hm
    refine ⟨w.table, w.counts, fun n d => ?_, fun hu hv k => ?_⟩
    · obtain ⟨d1, d2, d3⟩ := w.drives n d
      exact ⟨d1, d2, fun k ek => by rw [hb]; exact d3 k ek⟩
    · rw [hb]; exact w.unhanded hu hv k
  position _ k r hv h := mid_position k r (fun _ => hv) h
  latch _ _ h := h.lift fun _ _ w => ⟨w.table, w.counts, w.drives, w.unhanded⟩
  sp _ _ h := h.lift fun _ _ w => ⟨w.table, w.counts, w.drives, w.unhanded⟩
  store _ _ _ h := h.lift fun _ _ w => ⟨w.table, w.counts, w.drives, w.unhanded⟩

theorem handPositions_rest (s : State) : s.handPositions.ht = s.ht ∧ s.handPositions.sections = s.sections ∧
    s.handPositions.verification = s.verification :=
  ⟨forEach_same (·.ht) _ _ s fun _ _ => rfl, forEach_same (·.sections) _ _ s fun _ _ => rfl,
    forEach_same (·.verification) _ _ s fun _ _ => rfl⟩

/-- R15: the end of equipment verification keeps the laws: until then no breaker position stood, and so no CLOSE drive. -/
theorem mid_endVerification (hv : s.verifying = true) (h : Mid true s) : Mid true s.endVerification := by
  have L : Lawful (Mid false) := mid_lawful
  have h0 : Mid false s.handPositions := by
    obtain ⟨r1, r2, -⟩ := handPositions_rest s
    have hs : ∀ n, s.handPositions.sec n = s.sec n := fun n => by simp [State.sec, r2]
    obtain ⟨T, h1, h2, w⟩ := h
    refine ⟨T, h1, h2, by rw [r1]; exact w.table, fun n x => by rw [hs]; exact w.counts n x, fun n d => ?_, fun c => by cases c⟩
    rw [hs] at d ⊢
    obtain ⟨d1, d2, d3⟩ := w.drives n d
    refine ⟨d1, d2, fun k ek => ?_⟩
    have := d3 k ek
    rw [w.unhanded rfl hv k] at this; cases this
  have h1 : Mid false s.verificationEnds := by
    unfold State.verificationEnds
    dsimp only
    exact L.handFree _ (L.handFree _ (L.handFree _ (L.handFree _ (L.mi _ _ (fun _ => rfl) h0))))
  have h2 := L.agenda _ [] (L.settle Config.handingBound h1)
  have h3 : Mid true { State.atRest (State.settle Config.handingBound s.verificationEnds) with verification := none } :=
    h2.lift' fun T c w => ⟨w.table, w.counts, w.drives, fun _ c => by cases c⟩
  have L : Lawful (Mid true) := mid_lawful
  unfold State.endVerification State.startEvaluation
  dsimp only
  refine L.finish (L.keeps.transmit _ (L.keeps.transmit _ ?_))
  exact forEach_keeps _ _ (fun _ _ h => L.point _ _ _ h) h3

end Sys2Proof.Machine
end

