-- ==== Sys2Proof/Tests/Slice0.lean ====
section
/-! SUPPORT. Tests of the model against what the manual works out, and a state and operands for every statement with
hypotheses, at the ends of the ranges its clauses name. Expected results are the manual's own figures or hand counts from
its tables; each test names its place. -/

-- The checks by the kernel are made one after the other, so that no thread waits on another's.
set_option Elab.async false

namespace Sys2Proof.Tests

open Sys2Proof Sys2Proof.Machine

/-! ### Small states -/

/-- The state that an outcome goes on with. -/
def State.of : Host.Outcome State Fault Refusal → State
  | .next t => t
  | .fault _ => State.reset
  | .refused _ => State.reset

/-- The state after a command. -/
def after (c : Instr) (s : State) : State := State.of (exec c s)

/-- Whether an outcome goes on. -/
def goesOn : Host.Outcome State Fault Refusal → Bool
  | .next _ => true
  | .fault _ => false
  | .refused _ => false

theorem next_of_goesOn {o : Host.Outcome State Fault Refusal} (h : goesOn o = true) : o = .next (State.of o) := by
  cases o with
  | next t => rfl
  | fault r => cases h
  | refused r => cases h

/-- A verified part at rest: every switch OPEN, every sequencer in OPEN, every channel GOOD at 0, the port armed. -/
def calm : State := State.deriveAllBars
  { State.reset with
    mi :=
      { State.reset.mi with
        channels := Vector.replicate 16 { value := 0, saturated := false, state := .good, miss := 0, goodRun := 16 }
        inputs := Vector.replicate 57 { raw := false, level := some false, stability := none }
        pairs := Vector.replicate 13 { derived := some .opened, handed := some .opened, transit := none } }
    seqs := Vector.replicate 6 { initialSequencer 0 none none with state := some .opened }
    sp := { initialPort 0 with selArmed := true }
    verification := none }

/-- The sequencer of a feeder as given. -/
def withSeq (k : FeederNo) (f : Sequencer → Sequencer) : State := calm.modSeq k f

/-- The sequencer of a feeder in a state. -/
def inState (k : FeederNo) (q : SeqState) : State := withSeq k fun r => { r with state := some q }

/-- The rectifier record as given. -/
def withRect (f : Rectifier → Rectifier) : State := calm.modRect f

/-- The rectifier group in a state. -/
def groupIn (q : RectState) : State := withRect fun r => { r with state := q }

/-- The port record as given. -/
def withPort (f : StationPort → StationPort) : State := calm.modSp f

/-- The store as given. -/
def withStore (f : Store → Store) : State := calm.modStore f

/-- A breaker position as handed. -/
def withBreaker (k : FeederNo) (pos : Pos) (s : State) : State :=
  s.setPair (.breaker k) { derived := some pos, handed := some pos, transit := none }

/-- A channel value. -/
def withValue (c : ChannelNo) (v : Int) (s : State) : State := s.setChannel c { s.channel c with value := v }

/-- A channel that stands FAILED. -/
def withFailed (c : ChannelNo) (s : State) : State := s.setChannel c { s.channel c with state := .failed }

/-- An ACTIVE hold of the station on section 3 with tag 7. -/
def aHold : Hold :=
  { id := 9, kind := .noreclose, origin := .station, tag := 7, sections := [3], state := .active, remaining := some 30,
    asks := [], purpose := none, phase := none, unearth := [], failure := none,
    placed := { time := 0, notSet := true }, timers := { noHoldTimers with minute := some 60000 } }

/-- The calm part with holds in its table. -/
def withHolds (l : List Hold) : State := { calm with ht := { calm.ht with holds := l, lastId := 9 } }

/-- Link A in a state, port A used, its neighbour station 7; section 2 shared on it as line section 17. -/
def linked (q : LinkState) : State :=
  let s := withStore fun st =>
    { st with cfg := { st.cfg with
        portA := { used := true, neighbour := 7 }
        share := (Vector.replicate 6 none).set 2 (some (.a, 17)) } }
  { s with linkA := { initialLink true 0 with state := q, supervision := some 350 } }

/-- A part that shares no section. -/
def unshared (s : State) : State := s.modStore fun st => { st with cfg := { st.cfg with share := Vector.replicate 6 none } }

/-! ### Well-formedness: each check refuses an ill-formed term -/

theorem test_wf_order : (Instr.sampleFrame ⟨0, Vector.replicate 15 0, 0, 0, 0, 0, false, false⟩ [.sections, .sections]).wf = false := by decide
theorem test_wf_pair : (Instr.gatePulse .one 7).wf = false ∧ (Instr.gatePulse .two 0).wf = false := by decide
theorem test_wf_hold_id : (Instr.securingLimitExpiry 0).wf = false ∧ (Instr.minuteTimerExpiry 0).wf = false := by decide
theorem test_wf_station : (Instr.drop .a 0 5).wf = false := by decide
theorem test_wf_beacon : (Instr.beacon .a 7 (List.replicate 3 ⟨1, true, .opened⟩) true).wf = false ∧
    (Instr.beacon .a 7 [⟨0, true, .opened⟩] true).wf = false := by decide
theorem test_wf_fields : (Instr.intertrip .a 7 0 .fault).wf = false ∧ (Instr.ask .a 7 1 0 .isolate).wf = false ∧
    (Instr.ask .a 7 0 1 .isolate).wf = false ∧ (Instr.grant .a 7 1 0).wf = false ∧ (Instr.deny .a 7 0 .full).wf = false ∧
    (Instr.drop .a 7 0).wf = false ∧ (Instr.dropped .a 7 0).wf = false := by decide
theorem test_wf_audit : (Instr.audit .a 7 [3, 3]).wf = false ∧ (Instr.audit .a 7 [0]).wf = false ∧
    (Instr.audit .a 7 [1, 2, 3, 4, 5, 6, 7, 8, 9]).wf = false ∧ (Instr.audit .a 7 [1, 2, 3, 4, 5, 6, 7, 8]).wf = true := by
  decide
theorem test_wf_unknown : (Instr.unknownCommand 0x5F).wf = false ∧ (Instr.unknownCommand 0x02).wf = true := by decide
theorem test_wf_place : (Instr.placeHold 0 1 2 [0] 0).wf = false ∧ (Instr.placeHold 0 1 8 [] 5).wf = false ∧
    (Instr.placeHold 0 1 7 [0, 1, 2, 3, 4, 5, 6] 0).wf = true := by decide
theorem test_wf_write : (Instr.writeStaging 0 2 [1]).wf = false ∧ (Instr.writeStaging 0 65 []).wf = true := by decide

/-! ### The manual's worked figures -/

/-- 1.3, the worked sequence of IF2: after arrival 40 (GOOD, 850 A), a bad frame, arrivals 42 and 45, four slots invalid. -/
theorem test_channel_sequence :
    let r0 : Channel := { value := 850, saturated := false, state := .good, miss := 0, goodRun := 16 }
    let r1 := missSlots 1 r0
    let r2 := validSlot (870, false) r1
    let r3 := validSlot (880, false) (missSlots 2 r2)
    let r4 := missSlots 3 r3
    let r5 := missSlots 1 r4
    let back := fun n => (List.replicate n (900, false)).foldl (fun a x => validSlot x a) r5
    r1 = { value := 850, saturated := false, state := .stale, miss := 1, goodRun := 0 } ∧
    r2 = { value := 870, saturated := false, state := .stale, miss := 0, goodRun := 1 } ∧
    r3 = { value := 880, saturated := false, state := .stale, miss := 0, goodRun := 1 } ∧
    r4.state = .stale ∧ r4.miss = 3 ∧ r5.state = .failed ∧ r5.miss = 4 ∧ r5.value = 880 ∧
    (back 15).state = .failed ∧ (back 15).goodRun = 15 ∧ (back 16).state = .good ∧ (back 16).goodRun = 16 := by decide +kernel

/-- 2.10, two criteria on one arrival: IMAX comes before DELTA; the IMAX count is 2 and C is 4. -/
theorem test_two_criteria :
    let e : Engine :=
      { initialEngine factoryFeeder .factory with
        stage := .confirm, history := [4200, 4100], imaxCount := 1
        arming := some { base := 900, window := 10, confirm := 3, lowRun := 0, rate := 60, peak := 4200 } }
    let r := judgeCriteria 4350 e
    r.2 = some .imax ∧ r.1.imaxCount = 2 ∧ r.1.arming.map Arming.confirm = some 4 ∧
      r.1.arming.map Arming.peak = some 4350 := by decide +kernel

/-- 2.12, a fault far out: armed at n = 2 with B = 600 and D = 60. -/
theorem test_delta_arms :
    let e : Engine := { initialEngine factoryFeeder .factory with history := [600, 600] }
    let r := judgeCriteria 660 e
    r.2 = none ∧ r.1.stage = .rising ∧
      r.1.arming = some { base := 600, window := 0, confirm := 0, lowRun := 0, rate := 60, peak := 660 } := by decide +kernel

/-- 2.12, the same rise at n = 26 (CONFIRM, W = 24, C = 0) and at n = 30 (DELTA decides, W = 28, C = 4). -/
theorem test_delta_decides :
    let arm := fun w c p : Nat => some { base := 600, window := w, confirm := c, lowRun := 0, rate := 60, peak := p }
    let e : Engine := { initialEngine factoryFeeder .factory with stage := .rising, history := [2040, 1980], arming := arm 23 0 2040 }
    let f : Engine := { initialEngine factoryFeeder .factory with stage := .confirm, history := [2280, 2220], arming := arm 27 3 2280 }
    (judgeCriteria 2100 e).1.stage = .confirm ∧ (judgeCriteria 2100 e).1.arming = arm 24 0 2100 ∧ (judgeCriteria 2100 e).2 = none ∧
      (judgeCriteria 2340 f).2 = some .delta ∧ (judgeCriteria 2340 f).1.arming = arm 28 4 2340 := by decide +kernel

/-- 2.12, heating: with Ith 1,000 A and t2 60 s, Hlim is 3,600,000,000. -/
theorem test_heat_limit : heatLimit { ith := 1000, t2 := 60, enable := true } = 3600000000 := by decide +kernel

/-- 4.5, one regulating step and its limits: 400, 395, 495, 498, 501. -/
theorem test_regulation :
    let r : Rectifier := { initialRectifier factoryRect 1500 0 with state := .regulating, alpha := 400 }
    let r1 := regulate factoryRect 50 1500 720 2000 r
    let r2 := regulate factoryRect 50 1500 700 6400 r1
    let r3 := regulate factoryRect 50 1500 698 5800 r2
    let r4 := regulate factoryRect 50 1500 700 5600 r3
    (r1.alpha, r1.state, r1.uRef) = (395, .regulating, some 730) ∧ (r2.alpha, r2.state, r2.uRef) = (495, .limiting, some 686) ∧
      (r3.alpha, r3.state, r3.uRef) = (498, .limiting, some 692) ∧ (r4.alpha, r4.state, r4.uRef) = (501, .regulating, some 694) := by
  decide +kernel

/-- 3.6, two sections under test: 211 V passes, 2 V fails and takes the feeder back to DEAD-TIME with c = 1. -/
theorem test_line_test :
    let s := withValue chUB 740 (withSeq 2 fun r =>
      { r with state := some .lineTest, cause := some .delta, closeKind := some .automatic, testTimer := some 1, testContactor := true })
    (after (.testTimerExpiry 2) (withValue (chUL 2) 211 s)).seqIn 2 .closing = true ∧
      ((after (.testTimerExpiry 2) (withValue (chUL 2) 2 s)).seq 2).attempts = 1 ∧
      ((after (.testTimerExpiry 2) (withValue (chUL 2) 2 s)).seq 2).deadTimer = some 10000 := by decide +kernel

/-- 3.7, a persistent fault: the third open with c = 1 and N_rec = 2 leads to LOCKOUT with c = 2. -/
theorem test_persistent_fault :
    let r : Sequencer := { initialSequencer 3 none none with state := some .tripping, cause := some .imax, inReclaim := some true, attempts := 1 }
    confirmedOutcome false false 2 r = .lockout 2 ∧ confirmedOutcome false false 2 { r with attempts := 0 } = .dead 1 := by
  decide

/-- 6.13: holds 12 and 42 stand and 41 was the last ID: the placement draws 43. -/
theorem test_draw_id :
    drawId [{ aHold with id := 12 }, { aHold with id := 42 }] 41 = 43 ∧ drawId [] 255 = 1 := by decide +kernel

/-- 7.11: BACKUP merges into the pending INTERTRIP of its line section; DROP 43 takes the place of ASK 43. -/
theorem test_outbound_list :
    let s := { linked .up with
      linkA := { (linked .up).linkA with
        inFlight := some { station := 1, body := .beacon [] false }
        intertrips := [{ line := 21, cause := .fault }], messages := [.ask 43 17 .earth, .grant 9 7] } }
    (s.intertripDemand .a 21 .backup).linkA.intertrips = [{ line := 21, cause := .backup }] ∧
      (s.queueMessage .a (.drop 43)).linkA.messages = [.drop 43, .grant 9 7] := by decide +kernel

/-- 8.5: feeder 2 trips again before its point is acknowledged: the repeat count rises to 1. -/
theorem test_trip_pulse_repeats :
    ((calm.pulse 2).point 2).state = .clearedUnack ∧ (((calm.pulse 2).pulse 2).point 2).repeats = some 1 := by decide +kernel

/-- 9.5: ERASE of the active group, of another group, and a write while the store is BUSY. -/
theorem test_store_sequence :
    let s := withStore fun st => { st with lock := false, active := 1, factoryInUse := false }
    let erasing := after (.erase 2) s
    (after (.erase 1) s).sp.lastResult = some { code := 0x51, result := .refused .activeGroup, value := 0 } ∧
      erasing.sp.lastResult = some { code := 0x51, result := .accepted, value := 2 } ∧
      (erasing.store.groups.get 2).state = .invalid ∧
      (after (.writeStaging 40 1 [0]) erasing).sp.lastResult = some { code := 0x50, result := .refused .busy, value := 0 } ∧
      ((after (.eraseCompletion true) erasing).store.groups.get 2).state = .empty := by decide +kernel

/-- 10.5: SELECT CLOSE of feeder 3, then OPERATE OPEN, is NOT-SELECTED and uses the selection up; a clean pair begins the test. -/
theorem test_switching_in :
    let s := withValue chUB 744 calm
    let mismatched := after (.operate 3 0) (after (.select 3 1) s)
    let begun := after (.operate 3 1) (after (.select 3 1) mismatched)
    mismatched.sp.lastResult = some { code := 0x21, result := .refused .notSelected, value := 3 } ∧
      mismatched.sp.selection = none ∧
      begun.sp.lastResult = some { code := 0x21, result := .accepted, value := 3 } ∧
      (begun.seq 3).state = some .lineTest ∧ (begun.seq 3).closeKind = some .manual ∧ (begun.seq 3).attempts = 0 := by
  decide +kernel

/-- 1.4, a breaker opening: CLOSED off and OPEN off is TRANSIT with its timer; OPEN on is OPEN and stops it. -/
theorem test_breaker_opening :
    let closed := (withBreaker 4 .closed calm).setInput (.breakerClosed 4) { raw := true, level := some true, stability := none }
    let moving := after (.inputChange (.breakerClosed 4)) (after (.contactRawChange (.breakerClosed 4) false) closed)
    let opened := after (.inputChange (.breakerOpen 4)) (after (.contactRawChange (.breakerOpen 4) true) moving)
    moving.pair (.breaker 4) = { derived := some .transit, handed := some .transit, transit := some 100 } ∧
      opened.pair (.breaker 4) = { derived := some .opened, handed := some .opened, transit := none } := by decide +kernel

/-! ### Table words -/

/-- No row has bits: no word spells a command, and none reaches the queue. -/
theorem test_no_words (nbits w : Nat) (s : State) : decodeTableWord nbits w = none ∧ s.withFetchWord nbits w = s := ⟨rfl, rfl⟩

/-! ### A state and operands for every statement with hypotheses -/

theorem ready_iff (s : State) : Ready s ↔ s.resetHeld = false ∧ s.agenda = [] :=
  ⟨fun h => ⟨h.running, h.quiet⟩, fun h => ⟨h.1, h.2⟩⟩

theorem portReady_iff (s : State) : PortReady s ↔ s.resetHeld = false ∧ s.agenda = [] ∧ s.sp.selArmed = true :=
  ⟨fun h => ⟨h.running, h.quiet, h.armed⟩, fun h => ⟨⟨h.1, h.2.1⟩, h.2.2⟩⟩

theorem portOpen_iff (s : State) :
    PortOpen s ↔ s.resetHeld = false ∧ s.agenda = [] ∧ s.sp.selArmed = true ∧ s.verification = none :=
  ⟨fun h => ⟨h.running, h.quiet, h.armed, h.verified⟩, fun h => ⟨⟨⟨h.1, h.2.1⟩, h.2.2.1⟩, h.2.2.2⟩⟩

theorem nothingWaits_iff (s : State) : NothingWaits s ↔ (∀ k, (s.seq k).wait = none) ∧ s.securingBus = [] :=
  ⟨fun h => ⟨h.waits, h.securing⟩, fun h => ⟨h.1, h.2⟩⟩

theorem alertLaw_iff (s : State) : AlertLaw s ↔ (s.au.alerts ++ s.au.joining).Nodup ∧
    ∀ p, p ∈ s.au.alerts ++ s.au.joining ↔ onList (s.point p).state = true :=
  ⟨fun h => ⟨h.once, h.points⟩, fun h => ⟨h.1, h.2⟩⟩

/-- The calm part at the end of an event: points 60 and 62 stand on the alert list. -/
def settled : State := calm.finish

theorem alertLaw_settled : AlertLaw settled := (alertLaw_iff _).mpr (by decide +kernel)
theorem attnLaw_settled : AttnLaw settled := by unfold AttnLaw; decide +kernel
theorem levelLaw_settled : LevelLaw settled := by unfold LevelLaw; decide +kernel
theorem retainedLaw_settled : RetainedLaw settled := by unfold RetainedLaw; decide +kernel
theorem recordLaws_settled : RecordLaws settled where
  engines := by
    have h : ∀ k : FeederNo, (settled.engine k).heat ≤ 2 * heatLimit (settled.engine k).copy.thermal ∧
        (settled.engine k).stage = .idle ∧ (settled.engine k).arming = none ∧ (settled.engine k).history.length ≤ 2 := by
      decide +kernel
    intro k
    obtain ⟨a, b, c, d⟩ := h k
    exact ⟨a, fun _ => c, fun e => absurd (b.symm.trans e) (by decide), fun e => absurd (b.symm.trans e) (by decide), d⟩
  sequencers := by
    have h : ∀ k : FeederNo, settled.seq k = { initialSequencer 0 none none with state := some .opened } := by decide +kernel
    intro k
    rw [h k]
    constructor <;> simp [initialSequencer]
  rectifier := by
    have h : settled.rect = initialRectifier factoryRect 1500 0 := by decide +kernel
    rw [h]
    constructor <;> simp [initialRectifier]
  links := by
    have h : ∀ p : Port, settled.link p = initialLink false 0 := by intro p; cases p <;> decide +kernel
    intro p
    rw [h p]
    constructor <;> simp [initialLink]

theorem witness_StepTakesTheFront : State.reset.pending = [] := by decide +kernel

theorem witness_HeldPartTakesNothing : ({ calm with resetHeld := true } : State).resetHeld = true ∧
    touchesReset .readStatus = false ∧ ∀ i on, Instr.readStatus ≠ .contactRawChange i on :=
  ⟨rfl, rfl, fun _ _ h => by cases h⟩

/-- LOCAL; REMOTE with RESTART-ENABLE clear; REMOTE with it set. -/
def restartOff : State := withStore fun st => { st with cfg := { st.cfg with restartEnable := false } }
def underLocal : State := withPort fun p => { p with localAuthority := true }

theorem witness_RestartJudged : calm.resetHeld = false ∧ calm.sp.selArmed = true ∧
    underLocal.resetHeld = false ∧ underLocal.sp.selArmed = true ∧ underLocal.sp.localAuthority = true ∧
    restartOff.resetHeld = false ∧ restartOff.sp.selArmed = true ∧ restartOff.sp.localAuthority = false ∧
    restartOff.store.cfg.restartEnable = false ∧
    calm.sp.localAuthority = false ∧ calm.store.cfg.restartEnable = true := by decide +kernel

theorem witness_EventEnd : AlertLaw settled ∧ LevelLaw settled ∧ AttnLaw settled ∧ RetainedLaw settled :=
  ⟨alertLaw_settled, levelLaw_settled, attnLaw_settled, retainedLaw_settled⟩

/-- The settled part with an acknowledgement in its queue. -/
def queued : State := { settled with pending := [.acknowledgePoint 60] }

/-- The queue takes no part in the laws. -/
theorem laws_queue (s : State) (l : List Instr) (a : AlertLaw s) (b : AttnLaw s) (c : LevelLaw s) (d : RetainedLaw s)
    (e : RecordLaws s) : AlertLaw { s with pending := l } ∧ AttnLaw { s with pending := l } ∧ LevelLaw { s with pending := l } ∧
      RetainedLaw { s with pending := l } ∧ RecordLaws { s with pending := l } :=
  ⟨⟨a.once, a.points⟩, b, c, d, ⟨e.engines, e.sequencers, e.rectifier, e.links⟩⟩

theorem laws_queued : AlertLaw queued ∧ AttnLaw queued ∧ LevelLaw queued ∧ RetainedLaw queued ∧ RecordLaws queued :=
  laws_queue settled [.acknowledgePoint 60] alertLaw_settled attnLaw_settled levelLaw_settled retainedLaw_settled
    recordLaws_settled

theorem queued_steps : step queued = .next (State.of (step queued)) := next_of_goesOn (by decide +kernel)

theorem witness_AlertListInvariant : AlertLaw queued ∧ AttnLaw queued ∧ step queued = .next (State.of (step queued)) ∧
    (State.of (step queued)).au.alerts ≠ queued.au.alerts :=
  ⟨laws_queued.1, laws_queued.2.1, queued_steps, by decide +kernel⟩
theorem witness_LevelInvariant : LevelLaw queued ∧ step queued = .next (State.of (step queued)) := ⟨laws_queued.2.2.1, queued_steps⟩
theorem witness_RetainedInvariant : RetainedLaw queued ∧ step queued = .next (State.of (step queued)) :=
  ⟨laws_queued.2.2.2.1, queued_steps⟩
/-- The settled part on section 3 of which one hold of the station stands, with an acknowledgement in its queue. -/
def holding : State :=
  { (State.deriveBars 3 ((withHolds [aHold]).modSec 3 fun r => { r with noreclose := 1 })).finish with pending := [.acknowledgePoint 60] }

theorem plantLaws_holding : PlantLaws holding := by
  have table : holding.ht.holds = [aHold] := by decide +kernel
  refine ⟨?_, ?_, ?_, ?_, by decide +kernel⟩
  · rw [table]
    exact ⟨by decide, by decide, by intro p; cases p <;> decide, by intro p; cases p <;> decide⟩
  · rw [table]
    intro h m
    obtain rfl : h = aHold := by simpa using m
    exact ⟨by decide, by decide, by decide, by decide⟩
  · unfold CountLaw
    decide +kernel
  · intro n d
    exact absurd d ((by decide +kernel : ∀ n, (holding.sec n).drive ≠ .close) n)

theorem witness_RecordInvariant : (RecordLaws queued ∧ step queued = .next (State.of (step queued))) ∧
    RetainedLaw holding ∧ PlantLaws holding ∧ step holding = .next (State.of (step holding)) :=
  ⟨⟨laws_queued.2.2.2.2, queued_steps⟩, by unfold RetainedLaw; decide +kernel, plantLaws_holding,
    next_of_goesOn (by decide +kernel)⟩
theorem witness_FittedOnlyAtReset : touchesReset (.programCompletion true) = false ∧
    exec (.programCompletion true) calm = .next (after (.programCompletion true) calm) :=
  ⟨rfl, next_of_goesOn (by decide +kernel)⟩
theorem witness_ClockOnlyByClockCommands : touchesReset .selArming = false ∧ touchesClock .selArming = false ∧
    exec .selArming calm = .next (after .selArming calm) := ⟨rfl, rfl, next_of_goesOn (by decide +kernel)⟩

/-- Every length an operand list can have at its ends: no operand, one section, seven sections, 64 data bytes, a count outside
its set. -/
theorem witness_FrameRoundTrip :
    (∀ c ∈ [Instr.readStatus, .placeHold 0 1 1 [0] 0, .placeHold 2 65535 7 [0, 1, 2, 3, 4, 5, 6] 720, .placeHold 0 1 0 [] 0,
        .placeHold 0 1 8 [] 0, .writeStaging 0 64 (List.replicate 64 0), .writeStaging 65535 255 [], .setTime 1, .emptyFrame],
      c.wf = true ∧ (frameOfCommand c).isSome) ∧
    frameOfCommand .emptyFrame = some [] ∧
    (0 : Nat) < 1 ∧ 1 < ((frameOfCommand (.select 0 0)).getD []).length := by decide +kernel

theorem witness_MessageRoundTrip :
    (∀ body ∈ [MsgBody.beacon [] false, .beacon [⟨1, true, .inService⟩, ⟨255, false, .opened⟩] true, .intertrip 1 .fault,
        .ask 255 255 .noreclose, .grant 1 255, .deny 1 .breaker, .drop 255, .dropped 1, .audit [], .audit [1, 2, 3, 4, 5, 6, 7, 255]],
      fieldsValid body = true) ∧
    (0 : Half) ≠ checkCode (kindOfBody (.drop 1) :: 7 :: messageFields (.drop 1)) := by decide +kernel

/-- The settled part whose port is not armed yet. -/
def unarmed : State := (withPort fun p => { p with selArmed := false }).finish

theorem witness_PortArming : (calm.resetHeld = false ∧ calm.sp.selArmed = true) ∧
    (unarmed.resetHeld = false ∧ unarmed.sp.selArmed = false ∧ Quiet unarmed ∧ LevelLaw unarmed ∧ AttnLaw unarmed ∧
      RetainedLaw unarmed) ∧
    ∀ c ∈ [Instr.emptyFrame, .readStatus, .restart, .unknownCommand 2, .writeStaging 0 64 (List.replicate 64 0)],
      (frameOfCommand c).isSome := by
  unfold Quiet LevelLaw AttnLaw RetainedLaw
  decide +kernel

def fullErrors : State := withPort fun p => { p with frameErrors := 65535 }

theorem witness_BrokenFrame : PortReady calm ∧ calm.sp.frameErrors ≤ 65535 ∧ PortReady fullErrors ∧
    fullErrors.sp.frameErrors ≤ 65535 ∧
    (1 ≤ (1 : Byte).toNat ∧ (1 : Byte).toNat ≤ 64 ∧ ([] : List Byte).length < (1 : Byte).toNat) ∧
    1 ≤ (64 : Byte).toNat ∧ (64 : Byte).toNat ≤ 64 ∧ (List.replicate 63 (0 : Byte)).length < (64 : Byte).toNat := by
  simp only [portReady_iff]
  decide +kernel

theorem witness_ReadsAnswer : calm.resetHeld = false ∧ calm.sp.selArmed = true ∧
    ((0 : Byte).toNat = (0 : FeederNo).val ∧ (5 : Byte).toNat = (5 : FeederNo).val ∧ 2 ≤ (2 : Byte).toNat) ∧ 6 ≤ (6 : Byte).toNat ∧
    ((0 : Byte).toNat = (0 : SectionNo).val ∧ (6 : Byte).toNat = (6 : SectionNo).val) ∧ 7 ≤ (7 : Byte).toNat ∧
    (withHolds [aHold]).hold 9 = some aHold ∧ (withHolds [aHold]).hold 8 = none ∧
    ((0 : Byte).toNat = (0 : PointNo).val ∧ (78 : Byte).toNat = (78 : PointNo).val) ∧ 79 ≤ (79 : Byte).toNat ∧ 2 ≤ (2 : Byte).toNat ∧
    (1 ≤ (1 : Byte).toNat ∧ (1 : Byte).toNat ≤ 64 ∧ (511 : Half).toNat + (1 : Byte).toNat ≤ 512) ∧
    (1 ≤ (64 : Byte).toNat ∧ (64 : Byte).toNat ≤ 64 ∧ (448 : Half).toNat + (64 : Byte).toNat ≤ 512) ∧
    (0 : Byte).toNat = 0 ∧ 64 < (65 : Byte).toNat ∧ 512 < (449 : Half).toNat + (64 : Byte).toNat := by decide +kernel

def lockedOut : State := inState 5 .lockout
def answered : State :=
  withPort fun p => { p with frameErrors := 65535, lastResult := some { code := 0x52, result := .refused .range, value := 65535 } }

theorem witness_StatusSummaryLayout : settled.au.alerts = 60 :: [62] ∧ calm.au.alerts = [] ∧
    (∀ k, calm.seqIn k .lockout = false ∧ calm.seqIn k .breakerFault = false) ∧
    (lockedOut.seqIn 5 .lockout || lockedOut.seqIn 5 .breakerFault) = true ∧
    (∀ j : FeederNo, j.val < (5 : FeederNo).val → lockedOut.seqIn j .lockout = false ∧ lockedOut.seqIn j .breakerFault = false) ∧
    (answered.sp.frameErrors ≤ 65535 ∧ answered.sp.lastResult = some { code := 0x52, result := .refused .range, value := 65535 }) ∧
    calm.sp.lastResult = none := by decide +kernel

def unfitted : State := withStore fun st => { st with cfg := { st.cfg with fitted := (Vector.replicate 6 true).set 5 false } }
def selecting (target : Target) (action : SwitchAction) (s : State) : State :=
  s.modSp fun p => { p with selection := some { target := target, action := action }, selectionTimer := some 10000 }

theorem witness_SelectJudged :
    (∀ s ∈ [calm, underLocal, unfitted, selecting .rectifier .stop calm],
      s.resetHeld = false ∧ s.sp.selArmed = true ∧ s.verification = none) ∧
    underLocal.sp.localAuthority = true ∧ calm.sp.localAuthority = false ∧ unfitted.sp.localAuthority = false ∧
    6 < (7 : Byte).toNat ∧ ((5 : Byte).toNat < 6 ∧ 1 < (2 : Byte).toNat) ∧ ((6 : Byte).toNat = 6 ∧ (1 : Byte).toNat < 2 ∧ 4 < (5 : Byte).toNat) ∧
    ((5 : Byte).toNat = (5 : FeederNo).val ∧ (1 : Byte).toNat ≤ 1 ∧ unfitted.fitted 5 = false) ∧
    ((0 : Byte).toNat = (0 : FeederNo).val ∧ calm.fitted 0 = true ∧ calm.fitted 5 = true) ∧
    ((0 : Byte).toNat = 0 ∧ (1 : Byte).toNat = 1 ∧ (2 : Byte).toNat = 2 ∧ (3 : Byte).toNat = 3 ∧ (4 : Byte).toNat = 4) ∧
    (selecting .rectifier .stop calm).sp.selectionTimer.isSome = true := by decide +kernel

def verifying : State := { calm with verification := some 1 }

theorem witness_BusyUntilVerified : PortReady verifying ∧ verifying.verification.isSome = true ∧
    (1 ≤ (1 : Byte).toNat ∧ (1 : Byte).toNat ≤ 7 ∧ [(0 : Byte)].length = (1 : Byte).toNat) ∧
    (1 ≤ (7 : Byte).toNat ∧ (7 : Byte).toNat ≤ 7 ∧ [(0 : Byte), 1, 2, 3, 4, 5, 6].length = (7 : Byte).toNat) := by
  simp only [portReady_iff]
  decide +kernel

/-- What `FeederQuiet` asks, as one conjunction that the kernel decides. -/
theorem feederQuiet_iff (s : State) (k : FeederNo) : FeederQuiet s k ↔ (s.engine k).stage = .idle ∧ (s.engine k).arming = none ∧
    (s.engine k).imaxCount = 0 ∧ (s.engine k).revCount = 0 ∧ (s.engine k).groupPending = false ∧
    (s.engine k).wanted = (s.engine k).setInUse ∧ s.securingOver k = [] :=
  ⟨fun h => ⟨h.stage, h.arming, h.imax, h.reverse, h.group, h.set, h.securing⟩,
    fun ⟨a, b, c, d, e, f, g⟩ => ⟨⟨a, b, c, d, e, f⟩, g⟩⟩

/-- An action selected on feeder 5, whose sequencer stands in a state and its breaker at a position, with the bus and the section at
given voltages. -/
def switching (action : SwitchAction) (q : SeqState) (pos : Pos) (ub ul : Int) : State :=
  selecting (.feeder 5) action (withValue (chUL 5) ul (withValue chUB ub (withBreaker 5 pos (inState 5 q))))

/-- One isolating hold counted on section 5. -/
def isolated5 (s : State) : State := State.deriveBars 5 (s.modSec 5 fun r => { r with isolate := 1 })

/-- The selections on feeder 5 at the ends of the ranges of OPEN and CLOSE: the bus at and below U_Bmin (500 V), the section at and
below four fifths of it. -/
def switchings : List State :=
  [switching .opened .tripping .closed 0 0, switching .opened .breakerFault .closed 0 0, switching .opened .deadTime .opened 0 0,
    switching .opened .lineTest .opened 0 0, switching .opened .inService .closed 0 0, switching .opened .closing .transit 0 0,
    switching .opened .inService .opened 0 0, switching .opened .notFitted .opened 0 0, switching .close .notFitted .opened 0 0,
    switching .close .inService .closed 500 0, switching .close .opened .transit 500 0, isolated5 (switching .close .opened .opened 500 0),
    switching .close .opened .opened 499 0, switching .close .opened .opened 500 399, switching .close .opened .opened 500 400]

theorem witness_OperateJudged :
    PortOpen underLocal ∧ PortOpen (selecting .rectifier .stop calm) ∧ PortOpen (selecting (.feeder 5) .opened calm) ∧
    PortOpen (selecting (.feeder 5) .opened (withBreaker 5 .discrepant lockedOut)) ∧
    (targetOperand 6 = some .rectifier ∧ actionOperand 3 = some .stop) ∧
    (targetOperand 5 = some (.feeder 5) ∧ actionOperand 0 = some .opened ∧ actionOperand 1 = some .close) ∧
    underLocal.sp.localAuthority = true ∧
    (calm.sp.localAuthority = false ∧ calm.sp.selection ≠ some { target := .feeder 5, action := .opened }) ∧
    ((selecting .rectifier .stop calm).sp.selection = some { target := .rectifier, action := .stop } ∧
      (selecting .rectifier .stop calm).rect.state = .off) ∧
    ((selecting (.feeder 5) .opened calm).sp.selection = some { target := .feeder 5, action := .opened } ∧
      ((selecting (.feeder 5) .opened calm).seq 5).state = some .opened ∧
      (selecting (.feeder 5) .opened calm).breakerPos 5 = some .opened) ∧
    (((selecting (.feeder 5) .opened (withBreaker 5 .discrepant lockedOut)).seq 5).state = some .lockout ∧
      (selecting (.feeder 5) .opened (withBreaker 5 .discrepant lockedOut)).breakerPos 5 ≠ some .opened) ∧
    (∀ s ∈ switchings, PortOpen s ∧ FeederQuiet s 5 ∧ s.sp.localAuthority = false ∧ s.rect.state ≠ .standby ∧
      (s.channel (chIF 5)).state ≠ .failed ∧ (s.channel (chUL 5)).state ≠ .failed ∧ (s.channel chUB).state ≠ .failed ∧
      (s.reclose 5).uBusmin = 500) ∧
    (∀ action q pos ub ul, (switching action q pos ub ul).sp.selection = some { target := .feeder 5, action := action }) ∧
    switchings.map (fun s => ((s.seq 5).state, s.breakerPos 5 == some .opened, (s.sec (sectionOf 5)).bars.barred)) =
      [(some .tripping, false, false), (some .breakerFault, false, false), (some .deadTime, true, false), (some .lineTest, true, false),
        (some .inService, false, false), (some .closing, false, false), (some .inService, true, false), (some .notFitted, true, false),
        (some .notFitted, true, false), (some .inService, false, false), (some .opened, false, false), (some .opened, true, true),
        (some .opened, true, false), (some .opened, true, false), (some .opened, true, false)] ∧
    (¬ (500 : Int) ≤ 499 ∧ (399 : Int) < 500 * 4 / 5 ∧ (500 : Int) * 4 / 5 ≤ 400) := by
  simp only [portOpen_iff, feederQuiet_iff]
  refine ⟨?_, ?_, ?_, ?_, ?_, ?_, ?_, ?_, ?_, ?_, ?_, ?_, fun _ _ _ _ _ => rfl, ?_, ?_⟩ <;> decide +kernel

def configured : State :=
  (withStore fun st => { st with configFault := false }).setPair .ac { derived := some .closed, handed := some .closed, transit := none }

/-- The configured part with the transformer temperature and the group's record as given. -/
def warmed (tt : Int) (f : Rectifier → Rectifier) : State := selecting .rectifier .start (withValue chTT tt (configured.modRect f))

/-- The group TRIPPED with cause TEMP. -/
def hot (r : Rectifier) : Rectifier := { r with state := .tripped, cause := some .temp, tripTime := some calm.stamp }

/-- The group in REGULATING, with feeder 5 as given. -/
def regulating (f : Sequencer → Sequencer) : State := selecting .rectifier .standby ((groupIn .regulating).modSeq 5 f)

theorem witness_OperateRectifier :
    (∀ s ∈ [selecting .rectifier .start (groupIn .limiting), selecting .rectifier .start calm, selecting .rectifier .start configured,
        warmed 129 id, warmed 130 id, warmed 109 hot, warmed 110 hot, selecting .rectifier .stop (groupIn .tripped),
        selecting .rectifier .standby (groupIn .tripped), regulating id, regulating fun r => { r with state := some .closing }],
      PortOpen s ∧ NothingWaits s ∧ s.sp.localAuthority = false) ∧
    (∀ s ∈ [regulating fun r => { r with state := some .lineTest }, regulating fun r => { r with wait := some .bus }],
      PortOpen s ∧ s.sp.localAuthority = false) ∧
    (∀ action, (selecting .rectifier action calm).sp.selection = some { target := .rectifier, action := action }) ∧
    ((groupIn .limiting).rect.state ≠ .off ∧ (groupIn .limiting).rect.state ≠ .tripped) ∧
    (calm.rect.state = .off ∧ calm.store.configFault = true) ∧
    (∀ s ∈ [warmed 129 id, warmed 130 id, warmed 109 hot, warmed 110 hot], s.store.configFault = false ∧ s.acPos = some .closed ∧
      (s.sec busSection).isolate = 0 ∧ (s.channel chUB).state ≠ .failed ∧ (s.channel chIB1).state ≠ .failed ∧
      (s.channel chIB2).state ≠ .failed ∧ s.backupLatch = false ∧ s.sp.emergency = false ∧ (s.channel chTT).state ≠ .failed ∧
      s.rect.settings.tTrip = 130 ∧ s.rect.settings.tWarn = 110) ∧
    [warmed 129 id, warmed 130 id, warmed 109 hot, warmed 110 hot].map (fun s => (s.rect.state, s.rect.cause, (s.channel chTT).value)) =
      [(.off, none, 129), (.off, none, 130), (.tripped, some .temp, 109), (.tripped, some .temp, 110)] ∧
    ((groupIn .tripped).rect.state ≠ .off ∧ (groupIn .tripped).rect.state ≠ .regulating) ∧
    (regulating id).rect.state = .regulating ∧
    (∀ k, ((regulating id).seq k).state ≠ some .closing ∧ ((regulating id).seq k).state ≠ some .lineTest) ∧
    ((regulating fun r => { r with state := some .closing }).seq 5).state = some .closing ∧
    ((regulating fun r => { r with state := some .lineTest }).seq 5).state = some .lineTest ∧
    ((regulating fun r => { r with wait := some .bus }).seq 5).wait = some .bus := by
  simp only [portOpen_iff, nothingWaits_iff]
  refine ⟨?_, ?_, fun _ => rfl, ?_⟩ <;> decide +kernel

def stuck : State := withSeq 0 fun r => { r with state := some .breakerFault, failure := some .openFailed }

theorem witness_ResetLockout :
    (PortOpen lockedOut ∧ (5 : Byte).toNat = (5 : FeederNo).val ∧ (lockedOut.seq 5).state = some .lockout ∧
      lockedOut.securingOver 5 = []) ∧
    (PortOpen stuck ∧ (0 : Byte).toNat = (0 : FeederNo).val ∧ (stuck.seq 0).state = some .breakerFault ∧
      stuck.breakerPos 0 = some .opened ∧ stuck.securingOver 0 = []) ∧
    (PortOpen (inState 0 .notFitted) ∧ ((inState 0 .notFitted).seq 0).state = some .notFitted) ∧
    (PortOpen (withBreaker 0 .discrepant stuck) ∧ ((withBreaker 0 .discrepant stuck).seq 0).state = some .breakerFault ∧
      (withBreaker 0 .discrepant stuck).breakerPos 0 ≠ some .opened) ∧
    (PortOpen calm ∧ (calm.seq 0).state = some .opened) ∧ 6 ≤ (6 : Byte).toNat := by
  simp only [portOpen_iff]
  decide +kernel

theorem witness_ClearTripRecords :
    (calm.resetHeld = false ∧ calm.sp.selArmed = true ∧ calm.verification = none) ∧
    ((5 : Byte).toNat = (5 : FeederNo).val ∧ calm.fitted 5 = true ∧ unfitted.fitted 5 = false) ∧
    (unfitted.resetHeld = false ∧ unfitted.sp.selArmed = true ∧ unfitted.verification = none) ∧
    6 ≤ (6 : Byte).toNat ∧ (6 : Byte) ≠ 255 ∧ 6 ≤ (254 : Byte).toNat ∧ (254 : Byte) ≠ 255 := by decide +kernel

/-! Holds by command. -/

theorem witness_HoldIdDrawn :
    (withHolds (List.replicate 24 aHold)).ht.holds.length ≤ 24 ∧
    (calm.commandPlace { kind := .isolate, sections := [6, 6], duration := none } 1).result = .accepted ∧
    (unfitted.commandPlace { kind := .isolate, sections := [5], duration := none } 1).result ≠ .accepted ∧
    unfitted.placementRefusal [keySection 5] false ≠ none ∧ calm.peerAnswer .a 17 = .inl .wrongSection ∧
    (let s : State := { calm with ht := { calm.ht with holds := [{ aHold with id := 42 }, { aHold with id := 44 }], lastId := 41 } }
     let t : State := { calm with ht := { calm.ht with
       holds := [{ aHold with id := 42 }, { aHold with id := 44 }, { aHold with id := 43 }], lastId := 43 } }
     (s.ht.lastId = 41 ∧ ∀ id : Byte, (s.hold id).isSome ↔ id = 42 ∨ id = 44) ∧
     t.ht.lastId = 43 ∧ ∀ id : Byte, (t.hold id).isSome ↔ id = 42 ∨ id = 43 ∨ id = 44) := by
  have holdIds : ∀ (s : State) (l : List Byte), s.ht.holds.map Hold.id = l → ∀ id : Byte, (s.hold id).isSome ↔ id ∈ l := by
    intro s l h id
    subst h
    rw [State.hold, List.find?_isSome]
    simp
  refine ⟨by decide +kernel, by decide +kernel, by decide +kernel, by decide +kernel, by decide +kernel,
    ⟨by decide +kernel, fun id => ?_⟩, by decide +kernel, fun id => ?_⟩
  · rw [holdIds _ [42, 44] (by decide +kernel)]; simp
  · rw [holdIds _ [42, 44, 43] (by decide +kernel)]; simp; exact ⟨fun h => by rcases h with h | h | h <;> simp [h], fun h => by rcases h with h | h | h <;> simp [h]⟩

def fullTable : State := withHolds (List.replicate 24 aHold)
def twoShared : State := withStore fun st =>
  { st with cfg := { st.cfg with share := ((Vector.replicate 6 none).set 0 (some (.a, 17))).set 5 (some (.a, 18)) } }
def faulty : State := withBreaker 0 .discrepant stuck

theorem witness_PlaceHoldRefused :
    (∀ s ∈ [calm, unfitted, twoShared, fullTable, faulty], PortOpen s) ∧
    ((0 : Byte).toNat = 0 ∧ 7 < (8 : Byte).toNat) ∧
    (1 ≤ (1 : Byte).toNat ∧ (1 : Byte).toNat ≤ 7 ∧ [(7 : Byte)].length = (1 : Byte).toNat ∧ ∃ b ∈ [(7 : Byte)], 6 < b.toNat) ∧
    (2 < (3 : Byte).toNat ∧ ¬ ([1, 1] : List Byte).Pairwise (fun a b => a.toNat < b.toNat) ∧ 720 < (721 : Half).toNat ∧
      (1 : Byte) ≠ 2 ∧ (1 : Half) ≠ 0) ∧
    ([0, 1, 2, 3, 4, 5, 6] : List SectionNo).length = (7 : Byte).toNat ∧
    ([0, 1, 2, 3, 4, 5, 6] : List SectionNo).Pairwise (fun a b => a.val < b.val) ∧ ([0] : List SectionNo).Pairwise (fun a b => a.val < b.val) ∧
    (1 ≤ (1 : Half).toNat ∧ (720 : Half).toNat ≤ 720) ∧
    (∃ k : FeederNo, sectionOf k ∈ ([5] : List SectionNo) ∧ unfitted.fitted k = false) ∧
    ((¬ ∃ k : FeederNo, sectionOf k ∈ ([6] : List SectionNo) ∧ calm.fitted k = false) ∧ (1 : Byte) ≠ 0 ∧ busSection ∈ ([6] : List SectionNo)) ∧
    ((¬ ∃ k : FeederNo, sectionOf k ∈ ([0, 5] : List SectionNo) ∧ twoShared.fitted k = false) ∧ twoShared.sharesTwice [0, 5] = true) ∧
    (busSection ∉ ([0] : List SectionNo) ∧ fullTable.sharesTwice [0] = false ∧ 24 ≤ fullTable.ht.holds.length) ∧
    (faulty.sharesTwice [0] = false ∧ faulty.ht.holds.length < 24 ∧ faulty.covers [0] 0 = true ∧
      (faulty.seq 0).state = some .breakerFault ∧ faulty.breakerPos 0 ≠ some .opened ∧
      ∀ j : FeederNo, j.val < (0 : FeederNo).val → ¬ (faulty.covers [0] j = true)) := by
  simp only [portOpen_iff]
  refine ⟨?_, ?_, ?_, ?_, ?_, ?_, ?_, ?_, ?_, ?_⟩ <;> decide +kernel

theorem witness_PlaceNoreclose :
    PortOpen (inState 5 .inService) ∧ (7 : Half) ≠ 0 ∧ (1 ≤ (1 : Half).toNat ∧ (720 : Half).toNat ≤ 720) ∧
    (inState 5 .inService).fitted 5 = true ∧ (inState 5 .inService).share 5 = none ∧
    ((inState 5 .inService).seq 5).state = some .inService ∧ (inState 5 .inService).ht.holds.length < 24 := by
  simp only [portOpen_iff]
  decide +kernel

def supervised (s : State) : State := s.modSp fun p => { p with supervisorKey := true }

theorem witness_HoldCommandsRefused :
    (∀ s ∈ [calm, supervised calm, withHolds [aHold], withHolds [{ aHold with state := .failed }], supervised (withHolds [{ aHold with state := .releasing }]),
        withHolds [{ aHold with origin := .panel }], withHolds [{ aHold with kind := .isolate }]], PortOpen s) ∧
    (720 < (721 : Half).toNat ∧ (0 : Half).toNat = 0) ∧ calm.sp.supervisorKey = false ∧ (supervised calm).sp.supervisorKey = true ∧
    ((9 : Byte) ≠ 0 ∧ calm.hold 9 = none ∧ (7 : Half) ≠ 0 ∧ 1 ≤ (1 : Half).toNat ∧ (720 : Half).toNat ≤ 720) ∧
    (supervised (withHolds [{ aHold with state := .releasing }])).hold 9 = some { aHold with state := .releasing } ∧
    (withHolds [{ aHold with origin := .panel }]).hold 9 = some { aHold with origin := .panel } ∧ Origin.panel ≠ .station ∧
    ((withHolds [aHold]).hold 9 = some aHold ∧ aHold.tag ≠ 8 ∧ aHold.origin = .station ∧ aHold.tag = 7 ∧ aHold.state ≠ .failed) ∧
    (withHolds [{ aHold with state := .failed }]).hold 9 = some { aHold with state := .failed } ∧
    (withHolds [{ aHold with kind := .isolate }]).hold 9 = some { aHold with kind := .isolate } ∧ HoldKind.isolate ≠ .noreclose := by
  simp only [portOpen_iff]
  decide +kernel

/-- The holds that the statement releases: NORECLOSE and, with its earth switch commanded CLOSED, EARTH, on section 3. -/
def earthed : State :=
  (supervised (withHolds [{ aHold with kind := .earth, remaining := none }])).modSec 3 fun r =>
    { r with isolate := 1, earth := 1, commandedClosed := true }

/-- The ask of hold 9 on port A. -/
def oneAsk (status : AskStatus) : PeerAsk := { port := .a, line := 17, status := status, peerId := none, deny := none, awaiting := false }

theorem witness_HoldCommandsTaken :
    (∀ s ∈ [calm, inState 5 .inService, linked .up, linked .joining], PortOpen s ∧ s.ht.holds.length < 24) ∧
    ((7 : Half) ≠ 0 ∧ ((0 : Byte) = 0 ∧ HoldKind.isolate = .isolate) ∧ (1 : Byte) = 1 ∧ HoldKind.earth = .earth) ∧
    (∀ s ∈ [calm, withBreaker 5 .closed (inState 5 .inService)], s.fitted 5 = true ∧ s.isolated 5 = false ∧ s.securingOver 5 = [] ∧
      (s.channel (chUL 5)).state ≠ .failed ∧ s.share 5 = none) ∧
    ((calm.seq 5).state = some .opened ∧ calm.breakerPos 5 = some .opened ∧ (lockedOut.seq 5).state = some .lockout) ∧
    (FeederQuiet (withBreaker 5 .closed (inState 5 .inService)) 5 ∧
      ((withBreaker 5 .closed (inState 5 .inService)).seq 5).state = some .inService ∧
      (withBreaker 5 .closed (inState 5 .inService)).breakerPos 5 ≠ some .opened) ∧
    (∀ s ∈ [linked .up, linked .joining], s.fitted 2 = true ∧ s.isolated 2 = false ∧ s.securingOver 2 = [] ∧
      (s.channel (chUL 2)).state ≠ .failed ∧ s.share 2 = some (.a, 17) ∧ (s.seq 2).state = some .opened ∧ s.breakerPos 2 = some .opened) ∧
    (((linked .up).link .a).state = .up ∧ ((linked .joining).link .a).state ≠ .up) ∧
    (∀ s ∈ [supervised (withHolds [aHold]), supervised (withHolds [{ aHold with state := .failed }]), earthed,
        { linked .up with ht := { calm.ht with holds := [{ aHold with sections := [2], asks := [oneAsk .granted] }] } }],
      PortOpen s ∧ ∀ k, (s.seq k).wait = none) ∧
    (supervised (withHolds [aHold])).sp.supervisorKey = true ∧
    ((9 : Byte) ≠ 0 ∧ (7 : Half) ≠ 0 ∧ (supervised (withHolds [aHold])).hold 9 = some aHold ∧ aHold.origin = .station ∧ aHold.tag = 7) ∧
    (1 ≤ (1 : Half).toNat ∧ (720 : Half).toNat ≤ 720 ∧ aHold.kind = .noreclose ∧ aHold.state = .active) ∧
    (supervised (withHolds [{ aHold with state := .failed }])).hold 9 = some { aHold with state := .failed } ∧
    (aHold.sections = [sectionOf 3] ∧ aHold.asks = []) ∧
    (earthed.hold 9 = some { aHold with kind := .earth, remaining := none } ∧ (earthed.sec (sectionOf 3)).earth = 1 ∧
      (earthed.sec (sectionOf 3)).commandedClosed = true ∧ (earthed.setPair (.earth 3)
        { derived := some .closed, handed := some .closed, transit := none }).earthPos 3 ≠ some .opened ∧
      2 ≤ ((earthed.modSec 3 fun r => { r with earth := 2 }).sec (sectionOf 3)).earth) ∧
    ((oneAsk .granted).status = .granted ∧ (oneAsk .asked).status = .asked) := by
  simp only [portOpen_iff, feederQuiet_iff]
  refine ⟨?_, ?_, ?_, ?_, ?_, ?_, ?_, ?_, ?_, ?_, ?_, ?_, ?_, ?_, ?_⟩ <;> decide +kernel

/-! Annunciation, time and settings by command. -/

/-- Point 60 in a state, on the alert list where that state calls for it. -/
def pointIn (q : PointState) : State :=
  { calm with au := { calm.au with
      points := calm.au.points.set 60 { initialPoint with state := q, rise := some calm.stamp, repeats := some 0 }
      alerts := if onList q then [60] else [], attn := onList q } }

theorem witness_AcknowledgePoint :
    (∀ q ∈ [PointState.normal, .acked, .unack, .clearedUnack],
      (pointIn q).resetHeld = false ∧ (pointIn q).sp.selArmed = true ∧ (pointIn q).au.joining = [] ∧
      (pointIn q).au.attn = !(pointIn q).au.alerts.isEmpty ∧ ((pointIn q).point 60).state = q) ∧
    79 ≤ (79 : Byte).toNat ∧ (60 : Byte).toNat = (60 : PointNo).val ∧ (78 : Byte).toNat = (78 : PointNo).val ∧
    (0 : Byte).toNat = (0 : PointNo).val := by decide +kernel

theorem witness_AcknowledgeAll : settled.resetHeld = false ∧ settled.sp.selArmed = true ∧ AlertLaw settled ∧ AttnLaw settled ∧
    settled.au.alerts ≠ [] :=
  ⟨by decide +kernel, by decide +kernel, alertLaw_settled, attnLaw_settled, by decide +kernel⟩

theorem witness_TimeKept : calm.resetHeld = false ∧ calm.sp.selArmed = true := by decide +kernel

def busyStore : State := withStore fun st => { st with operation := some { kind := .erase, target := .config, start := calm.stamp, elapsed := 0 } }

theorem witness_WriteStaging :
    (calm.resetHeld = false ∧ calm.sp.selArmed = true ∧ busyStore.resetHeld = false ∧ busyStore.sp.selArmed = true) ∧
    ((0 : Byte).toNat = 0 ∧ 64 < (65 : Byte).toNat) ∧
    (1 ≤ (1 : Byte).toNat ∧ (64 : Byte).toNat ≤ 64 ∧ (List.replicate 64 (0 : Byte)).length = (64 : Byte).toNat ∧ [(0 : Byte)].length = (1 : Byte).toNat) ∧
    512 < (512 : Half).toNat + (1 : Byte).toNat ∧ (511 : Half).toNat + (1 : Byte).toNat ≤ 512 ∧ (448 : Half).toNat + (64 : Byte).toNat ≤ 512 ∧
    busyStore.store.operation ≠ none ∧ calm.store.operation = none := by decide +kernel

def unlocked : State := withStore fun st => { st with lock := false }

/-- A group whose image is good: the factory values in the layout of 11.4 are not needed for the rules of the store. -/
def groupValid : State := unlocked.modStore fun st =>
  { st with groups := st.groups.set 3 { state := .valid, content := List.replicate 382 0, code := checkCode (List.replicate 382 0) } }

/-- The factory configuration's bytes in the layout of 11.4, with the ports UNUSED and nothing shared. -/
def configBytes : List Byte :=
  [1, 1, 0, 1, 0] ++ List.replicate 6 1 ++ List.replicate 12 0 ++ List.replicate 6 20 ++
    [60, 0x01, 0x2C, 0, 100, 0, 150, 0x05, 0xDC, 0, 1] ++ List.replicate 86 0

/-- The staging buffer with that configuration in its area. -/
def stagedConfig : State := unlocked.modStore fun st => { st with staging := writeBytes 384 configBytes st.staging }

theorem witness_OperationsBegin :
    (∀ s ∈ [calm, busyStore, unlocked, groupValid], s.resetHeld = false ∧ s.sp.selArmed = true) ∧
    4 < (5 : Byte).toNat ∧ ((3 : Byte).toNat = targetCode (.group 3) ∧ (4 : Byte).toNat = targetCode .config ∧ (0 : Byte).toNat = targetCode (.group 0)) ∧
    busyStore.store.operation ≠ none ∧ (calm.store.operation = none ∧ calm.store.lock = true) ∧
    (unlocked.store.operation = none ∧ unlocked.store.lock = false) ∧
    (StoreTarget.group 0 = .group unlocked.store.active ∧ StoreTarget.group 3 ≠ .group unlocked.store.active) ∧
    (groupValid.store.image (.group 3)).state ≠ .empty ∧ (unlocked.store.image (.group 3)).state = .empty ∧
    (rangeCheck (.group 3) (unlocked.store.stagedContent (.group 3))).isSome ∧
    (stagedConfig.store.operation = none ∧ stagedConfig.store.lock = false ∧ stagedConfig.store.config.state = .empty ∧
      rangeCheck .config (stagedConfig.store.stagedContent .config) = none) := by decide +kernel

def completing (kind : OpKind) (target : StoreTarget) (s : State) : State :=
  s.modStore fun st => { st with operation := some { kind := kind, target := target, start := calm.stamp, elapsed := 500 } }

theorem witness_OperationsEnd :
    ∀ kind ∈ [OpKind.erase, .program], ∀ target ∈ [StoreTarget.group 0, .group 3, .config],
      Ready (completing kind target stagedConfig) ∧ (completing kind target stagedConfig).store.operation =
        some { kind := kind, target := target, start := calm.stamp, elapsed := 500 } := by
  simp only [ready_iff]
  decide +kernel

def activeValid (g : GroupNo) (factory : Bool) : State := groupValid.modStore fun st => { st with active := g, factoryInUse := factory }

theorem witness_ActivateGroup :
    (∀ s ∈ [calm, busyStore, unlocked, activeValid 3 false, activeValid 3 true, activeValid 0 false], PortReady s) ∧
    3 < (4 : Byte).toNat ∧ ((3 : Byte).toNat = (3 : GroupNo).val ∧ (0 : Byte).toNat = (0 : GroupNo).val) ∧
    busyStore.store.operation ≠ none ∧ (calm.store.operation = none ∧ calm.store.lock = true) ∧
    (unlocked.store.operation = none ∧ unlocked.store.lock = false ∧ (unlocked.store.groups.get 3).state ≠ .valid) ∧
    ((activeValid 3 false).store.operation = none ∧ (activeValid 3 false).store.lock = false ∧
      ((activeValid 3 false).store.groups.get 3).state = .valid ∧ (3 : GroupNo) = (activeValid 3 false).store.active ∧
      (activeValid 3 false).store.factoryInUse = false) ∧
    (activeValid 3 true).store.factoryInUse = true ∧ (3 : GroupNo) ≠ (activeValid 0 false).store.active := by
  simp only [portReady_iff]
  decide +kernel

def keyed : State := withPort fun p => { p with settingsKey := true }

theorem witness_SettingsStatusAndLock : (calm.resetHeld = false ∧ calm.sp.selArmed = true ∧ keyed.resetHeld = false ∧ keyed.sp.selArmed = true) ∧
    settled.store.lock = true ∧ settled.sp.settingsKey = false ∧ RetainedLaw settled ∧ settled.resetHeld = false ∧
    settled.sp.selArmed = true ∧ keyed.sp.settingsKey = true :=
  ⟨by decide +kernel, by decide +kernel, by decide +kernel, retainedLaw_settled, by decide +kernel⟩

/-! Measurement. -/

def aChannel (q : ChannelState) (miss run : Nat) : Channel := { value := 5, saturated := false, state := q, miss := miss, goodRun := run }

theorem witness_ChannelStates :
    ((aChannel .stale 255 0).miss ≤ 255 ∧ (aChannel .good 0 16).goodRun ≤ 16 ∧ (aChannel .good 0 16).state = .good ∧
      (aChannel .good 0 16).miss = 0) ∧
    ((aChannel .failed 9 0).state ≠ .good ∧ (aChannel .failed 9 0).goodRun = 0 ∧
      (List.replicate 15 ((5 : Int), false)).length < 16 ∧ 16 ≤ (List.replicate 16 ((5 : Int), false)).length) := by decide

/-- A frame whose check code fits, with every VALID bit but that of TT on. -/
def aFrame (seq : Byte) : SampleFrame := sealFrame { seq := seq, values := Vector.replicate 15 10, valid := 0x7FFF, saturated := 0, tt := 0, ttValid := false, ttSaturated := false, check := 0 }

/-- The part after arrival `seq`, every channel with `miss` missed slots in a state. -/
def received (seq : Byte) (charge : Nat) (q : ChannelState) (miss : Nat) : State :=
  { calm with mi := { calm.mi with
      channels := Vector.replicate 16 (aChannel q miss 0), reception := { lastSeq := some seq, charge := charge, timeout := some 2 } } }

theorem witness_FramesTaken :
    (∀ s ∈ [received 7 0 .stale 2, received 7 4 .failed 4, calm, received 4 1 .stale 2, { received 7 0 .good 0 with verification := some 5 }],
      Ready s) ∧
    (frameChecks { aFrame 7 with check := (aFrame 7).check + 1 } = false ∧ frameChecks (aFrame 7) = true) ∧
    ((received 7 0 .stale 2).mi.reception.lastSeq = some (aFrame 7).seq ∧
      ∀ c, ((received 7 0 .stale 2).channel c).miss < 3) ∧
    (∀ c, ((received 7 4 .failed 4).channel c).state = .failed) ∧ ({ received 7 0 .good 0 with verification := some 5 } : State).verification ≠ none ∧
    (calm.mi.reception.lastSeq = none ∧ calm.mi.reception.lastSeq ≠ some (aFrame 7).seq) ∧
    ((received 4 1 .stale 2).mi.reception.lastSeq ≠ some (aFrame 7).seq ∧ ((aFrame 7).seq - 4 - 1).toNat - 1 = 1 ∧
      ∀ c, ((received 4 1 .stale 2).channel c).miss + 1 < 4) := by
  simp only [ready_iff]
  decide +kernel

def withInput (i : InputId) (r : ContactInput) (s : State) : State := s.setInput i r

/-- The closed contact of a pair at `a`, its open contact about to change to `b`, and the position that followed from it before. -/
def moving (p : PairId) (a b : Bool) (s : State) : State :=
  let was := some (positionOf a (!b))
  (((s.setInput (contactsOf p).1 { raw := a, level := some a, stability := none }).setInput (contactsOf p).2
    { raw := b, level := some (!b), stability := some 0 }).setPair p { derived := was, handed := was, transit := none })

/-- What every clause on a pair that moves after verification asks. -/
def moves (p : PairId) (a b : Bool) (s : State) : Prop :=
  let i := (contactsOf p).2
  let u := s.setInput i { raw := (s.input i).raw, level := some (s.input i).raw, stability := none }
  Ready s ∧ s.verification = none ∧ (s.input i).level = some (!(s.input i).raw) ∧ (s.input i).stability ≠ none ∧
    (u.input (contactsOf p).1).level = some a ∧ (u.input i).level = some b ∧
    (s.pair p).derived ≠ some (if a then (if b then Pos.discrepant else .closed) else if b then .opened else .transit)

/-- What every clause on a breaker that moves asks besides. -/
def breakerMoves (a b : Bool) (q : SeqState) (pending isolated : Bool) (s : State) : Prop :=
  moves (.breaker 5) a b s ∧ s.fitted 5 = true ∧ s.share 5 = none ∧ FeederQuiet s 5 ∧ (s.sec (sectionOf 5)).wanted = .single ∧
    (s.sec (sectionOf 5)).commandedClosed = false ∧ (s.sec (sectionOf 5)).drive ≠ .close ∧ (s.seq 5).state = some q ∧
    (s.seq 5).holdOpenPending = pending ∧ s.isolated 5 = isolated

/-- Every state of a fitted feeder's sequencer. -/
def runningStates : List SeqState := [.opened, .closing, .inService, .tripping, .deadTime, .lineTest, .lockout, .breakerFault]

/-- A hold on section 5 in a state, with a phase and a purpose. -/
def hold5 (kind : HoldKind) (q : HoldState) (releases : Bool) : Hold :=
  { aHold with kind := kind, sections := [5], state := q, remaining := none, timers := noHoldTimers
               phase := if releases then some .earthOpen else none, purpose := if releases then some .retire else none
               unearth := if releases then [5] else [] }

theorem witness_ContactsTaken :
    (let s := withInput (.earthOpen 5) { raw := true, level := none, stability := some 0 }
      (withInput (.earthClosed 5) { raw := false, level := some false, stability := none } verifying)
     Ready s ∧ (s.input (.earthOpen 5)).raw ≠ false ∧ (s.input (.earthOpen 5)).raw = true ∧ s.verification ≠ none ∧
      InputId.earthOpen 5 = (contactsOf (.earth 5)).2 ∧ (s.input (.earthOpen 5)).level = none ∧
      (let u := s.setInput (.earthOpen 5) { s.input (.earthOpen 5) with level := some true, stability := none }
       (u.input (contactsOf (.earth 5)).1).level = some false ∧ (u.input (contactsOf (.earth 5)).2).level = some true)) ∧
    (let s := withInput .authorityKey { raw := true, level := some false, stability := some 0 } calm
     Ready s ∧ s.verification = none ∧ (s.input .authorityKey).level = some (!(s.input .authorityKey).raw) ∧
      (s.input .authorityKey).stability ≠ none) ∧
    (let s := calm.setPair .ac { derived := some .transit, handed := some .transit, transit := some 0 }
     Ready s ∧ (s.pair .ac).transit ≠ none ∧ (s.pair .ac).derived = some .transit ∧ s.verification = none ∧
      s.rect.state = .off ∧ s.securingBus = []) ∧
    (∀ a b : Bool, ∀ q ∈ runningStates, breakerMoves a b q false false (moving (.breaker 5) a b (inState 5 q))) ∧
    breakerMoves true false .closing true false
      (moving (.breaker 5) true false (withSeq 5 fun r => { r with state := some .closing, holdOpenPending := true })) ∧
    (∀ q ∈ [SeqState.opened, .lockout],
      breakerMoves true false q false true (moving (.breaker 5) true false (isolated5 (inState 5 q)))) ∧
    (∀ a b : Bool, moves (.earth 5) a b (moving (.earth 5) a b calm) ∧ moves (.earth 5) a b (moving (.earth 5) a b unfitted)) ∧
    (unfitted.fitted 5 = false ∧ calm.fitted 5 = true ∧ calm.ht.holds = []) ∧
    (∀ x ∈ [(true, false, hold5 .earth .earthing false), (false, true, hold5 .earth .releasing true),
        (false, true, hold5 .earth .active false)],
      let s := moving (.earth 5) x.1 x.2.1 (withHolds [x.2.2])
      moves (.earth 5) x.1 x.2.1 s ∧ s.fitted 5 = true ∧ s.ht.holds = [x.2.2] ∧ s.hold 9 = some x.2.2 ∧ x.2.2.sections = [sectionOf 5] ∧
        x.2.2.asks = [] ∧ x.2.2.sections.length ≤ 7 ∧ (∀ j, (s.seq j).wait = none)) := by
  simp only [breakerMoves, moves, ready_iff, feederQuiet_iff]
  refine ⟨?_, ?_, ?_, ?_, ?_, ?_, ?_, ?_, ?_⟩ <;> decide +kernel

def pressed : State :=
  withInput .emergencyButton { raw := true, level := some false, stability := some 0 }
    (calm.setPair .ac { derived := some .closed, handed := some .closed, transit := none })

/-- An input of the panel about to change to a level, its authority LOCAL or not. -/
def panel (i : InputId) (on isLocal : Bool) (s : State) : State :=
  withInput i { raw := on, level := some (!on), stability := some 0 } (s.modSp fun p => { p with localAuthority := isLocal })

/-- The key of section 5 at a position with a hold bound, that hold in the table. -/
def keyTurned (pos : KeyPos) (h : Option Hold) (cycle : Bool) (s : State) : State :=
  { s with ht := { s.ht with holds := h.toList } }.modKey 5 fun r =>
    { r with pos := pos, bound := h.map Hold.id, needsCycling := cycle }

/-- The EARTH position's contact of key 5 made. -/
def earthMade (s : State) : State := withInput (.holdEarth 5) { raw := true, level := some true, stability := none } s

/-- A hold of the panel on section 5. -/
def panelHold (kind : HoldKind) (q : HoldState) : Hold := { hold5 kind q false with origin := .panel, tag := 6 }

theorem witness_EmergencyPressed :
    (Ready pressed ∧ NothingWaits pressed ∧ pressed.verification = none ∧ (pressed.input .emergencyButton).level = some false ∧
      (pressed.input .emergencyButton).raw = true ∧ (pressed.input .emergencyButton).stability ≠ none ∧ (∀ k, pressed.share k = none) ∧
      (∀ k, (pressed.seq k).state = some .opened) ∧ pressed.rect.state ≠ .tripped ∧ pressed.acPos ≠ some .opened) ∧
    -- The pushbuttons: START, STOP, OPEN and CLOSE of feeder 5, under REMOTE, released under LOCAL, and pressed under LOCAL.
    (∀ i ∈ [InputId.startButton, .stopButton, .openButton 5, .closeButton 5], ∀ x ∈ [(true, false), (false, true), (true, true)],
      Ready (panel i x.1 x.2 calm) ∧ (panel i x.1 x.2 calm).verification = none ∧ (panel i x.1 x.2 calm).sp.localAuthority = x.2 ∧
      ((panel i x.1 x.2 calm).input i).level = some (!((panel i x.1 x.2 calm).input i).raw) ∧
      ((panel i x.1 x.2 calm).input i).raw = x.1 ∧ ((panel i x.1 x.2 calm).input i).stability ≠ none) ∧
    ((groupIn .limiting).rect.state ≠ .off ∧ (groupIn .limiting).rect.state ≠ .tripped ∧ NothingWaits (groupIn .limiting) ∧
      calm.rect.state = .off) ∧
    ((calm.seq 5).state = some .opened ∧ calm.breakerPos 5 = some .opened) ∧
    (let s := switching .opened .inService .closed 0 0
     FeederQuiet s 5 ∧ (s.seq 5).state = some .inService ∧ s.breakerPos 5 ≠ some .opened) ∧
    (let s := switching .close .opened .opened 500 399
     FeederQuiet s 5 ∧ s.rect.state ≠ .standby ∧ (s.seq 5).state = some .opened ∧ s.breakerPos 5 = some .opened ∧
      (s.sec (sectionOf 5)).bars.barred = false ∧ (s.channel (chIF 5)).state ≠ .failed ∧ (s.channel (chUL 5)).state ≠ .failed ∧
      (s.channel chUB).state ≠ .failed ∧ ((s.reclose 5).uBusmin : Int) ≤ 500 ∧ (399 : Int) < 500 * 4 / 5) ∧
    -- The key of section 5 turned to ISOLATE: it needs cycling, is refused with each code, and places.
    (∀ s ∈ [keyTurned .off none true calm, keyTurned .off none false unfitted, keyTurned .off none false calm,
        (keyTurned .off none false (inState 5 .breakerFault)).setPair (.breaker 5) { derived := some .closed, handed := some .closed, transit := none }],
      let t := panel (.holdIsolate (sectionOf 5)) true false s
      Ready t ∧ t.verification = none ∧ (t.input (.holdEarth 5)).level ≠ some true ∧ (t.key (sectionOf 5)).pos = .off ∧
        (t.key (sectionOf 5)).bound = none ∧ t.ht.holds.length < 24 ∧ t.share 5 = none ∧ t.isolated 5 = false ∧ t.securingOver 5 = [] ∧
        (t.channel (chUL 5)).state ≠ .failed) ∧
    (24 ≤ fullTable.ht.holds.length ∧ fullTable.fitted 5 = true ∧ fullTable.verification = none ∧ (fullTable.key 5).pos = .off ∧
      (fullTable.key 5).bound = none ∧ (fullTable.key 5).needsCycling = false) ∧
    -- Turned back to OFF with nothing bound, with a FAILED hold, and with a standing one; and to and from EARTH.
    (∀ x ∈ [panelHold .isolate .failed, panelHold .isolate .active, panelHold .isolate .securing],
      let t := panel (.holdIsolate (sectionOf 5)) false false (keyTurned .isolate (some x) false calm)
      Ready t ∧ t.verification = none ∧ (t.input (.holdEarth 5)).level ≠ some true ∧ (t.key (sectionOf 5)).pos = .isolate ∧
        (t.key (sectionOf 5)).bound = some 9 ∧ t.hold 9 = some x ∧ x.sections = [sectionOf 5] ∧ x.asks = [] ∧ (t.seq 5).wait = none) ∧
    (let t := panel (.holdIsolate (sectionOf 5)) false false (earthMade (keyTurned .isolate (some (panelHold .isolate .proving)) false calm))
     Ready t ∧ (t.input (.holdEarth 5)).level = some true ∧ (t.key (sectionOf 5)).pos = .isolate ∧ (t.key (sectionOf 5)).bound = some 9 ∧
      t.hold 9 = some (panelHold .isolate .proving)) ∧
    (∀ x ∈ [panelHold .earth .securing, panelHold .earth .active],
      let s := (keyTurned .earth (some x) false (earthed.setPair (.earth 5) { derived := some .closed, handed := some .closed, transit := none })).modSec 5
        fun r => { r with isolate := 1, earth := 1, commandedClosed := x.state == .active }
      let t := panel (.holdEarth 5) false false (withInput (.holdIsolate 5) { raw := true, level := some true, stability := none } s)
      Ready t ∧ t.verification = none ∧ (t.input (.holdEarth 5)).raw = false ∧ (t.input (.holdIsolate (sectionOf 5))).level = some true ∧
        (t.key (sectionOf 5)).pos = .earth ∧ (t.key (sectionOf 5)).bound = some 9 ∧ t.hold 9 = some x ∧ (t.seq 5).wait = none ∧
        (t.sec (sectionOf 5)).earth = 1 ∧ (t.sec (sectionOf 5)).commandedClosed = (x.state == .active) ∧ t.earthPos 5 ≠ some .opened) := by
  simp only [ready_iff, nothingWaits_iff, feederQuiet_iff]
  refine ⟨?_, ?_, ?_, ?_, ?_, ?_, ?_, ?_, ?_, ?_, ?_⟩ <;> decide +kernel

/-- The calm part when its verification is about to end. -/
def starting : State :=
  { calm with
    seqs := Vector.replicate 6 (initialSequencer 0 none none)
    mi := { calm.mi with pairs := Vector.replicate 13 { derived := some .opened, handed := none, transit := none } }
    verification := some 0 }

theorem witness_VerificationEnds :
    Ready starting ∧ starting.verification ≠ none ∧
    (∀ k, starting.fitted k = true ∧ starting.share k = none ∧ (starting.seq k).state = none ∧ (starting.sec (sectionOf k)).wanted = .single) ∧
    (∀ p, (starting.pair p).derived = some .opened) ∧
    (∀ n, (starting.sec n).isolate = 0 ∧ (starting.sec n).earth = 0 ∧ (starting.sec n).noreclose = 0 ∧ (starting.sec n).commandedClosed = false) ∧
    starting.ht.holds = [] ∧ starting.ht.resetFailed = false ∧ (∀ c, (starting.channel c).state ≠ .failed) ∧
    starting.store.cfg.autostart = false ∧ starting.linkA.state = .unused ∧ starting.linkB.state = .unused ∧
    (∀ i, pairOf i = none → (starting.input i).level ≠ some true) ∧ AlertLaw starting := by
  refine ⟨(ready_iff _).mpr (by decide +kernel), by decide +kernel, by decide +kernel, fun p => ?_, by decide +kernel, by decide +kernel,
    by decide +kernel, by decide +kernel, by decide +kernel, by decide +kernel, by decide +kernel, fun i _ => ?_,
    (alertLaw_iff _).mpr (by decide +kernel)⟩
  · exact (by decide +kernel : ∀ j : Fin 13, (starting.mi.pairs.get j).derived = some .opened) (pairIndex p)
  · exact (by decide +kernel : ∀ j : Fin 57, (starting.mi.inputs.get j).level ≠ some true) (inputIndex i)

/-! Feeder units. -/

/-- Feeder 5 in DEAD-TIME with its timer out, the bus and the section at given voltages, the record as given. -/
def dead (ub ul : Int) : State :=
  withValue (chUL 5) ul (withValue chUB ub (withSeq 5 fun r => { r with state := some .deadTime, cause := some .delta, deadTimer := some 0 }))

/-- Feeder 5 in LINE-TEST with its timer out, the bus at 600 V, the section at 150 V: exactly at the threshold with Qpass 64. -/
def testing (kind : CloseKind) (c : Nat) (ub ul : Int) : State :=
  withValue (chUL 5) ul (withValue chUB ub (withSeq 5 fun r =>
    { r with state := some .lineTest, cause := some .delta, closeKind := some kind, attempts := c, testTimer := some 0, testContactor := true }))

/-- Feeder 5 in TRIPPING with its open pulse out, its breaker not OPEN. -/
def openFails : State :=
  (withBreaker 5 .closed (withSeq 5 fun r => { r with state := some .tripping, openPulse := some 0 })).setPair .ac
    { derived := some .closed, handed := some .closed, transit := none }

/-- Feeder 5 in CLOSING with its close pulse out. -/
def closeFails (pending : Bool) (pos : Pos) : State :=
  withBreaker 5 pos (withSeq 5 fun r => { r with state := some .closing, closeTimer := some 0, closeCoil := true, holdOpenPending := pending })

theorem witness_SequencerTimers :
    (∀ s ∈ [withSeq 5 fun r => { r with state := some .inService, reclaimTimer := some 0 }, openFails, { openFails with backupLatch := true },
        withBreaker 0 .closed (openFails.modSeq 0 fun r => { r with state := some .inService }),
        closeFails false .transit, closeFails false .opened, closeFails true .opened, closeFails true .closed,
        dead 500 399, dead 500 400, dead 499 0, isolated5 (dead 500 0), (dead 500 0).modSec 6 fun r => { r with noreclose := 1 },
        (dead 500 0).modRect fun r => { r with state := .limiting }, (dead 500 0).modEngine 5 fun e => { e with recloseBar := true },
        withFailed (chUL 5) (dead 500 0), withFailed chUB (dead 500 0), testing .automatic 0 600 150, testing .manual 0 600 149,
        testing .automatic 1 600 149, testing .automatic 0 600 149, testing .manual 0 499 500, testing .automatic 0 499 500],
      Ready s ∧ FeederQuiet s 5 ∧ s.rect.state ≠ .standby ∧ (s.reclose 5).uBusmin = 500 ∧ (s.reclose 5).nRec = 2 ∧ (s.reclose 5).qPass = 64) ∧
    (openFails.backupLatch = false ∧ NothingWaits openFails ∧ (∀ j, openFails.share j = none) ∧ openFails.rect.state ≠ .tripped ∧
      openFails.acPos ≠ some .opened ∧ (openFails.seq 5).state = some .tripping ∧ (openFails.seq 5).openPulse ≠ none ∧
      ∀ j, j ≠ 5 → (openFails.seq j).state = some .opened) ∧
    (let s := withBreaker 0 .closed (openFails.modSeq 0 fun r => { r with state := some .inService })
     FeederQuiet s 0 ∧ NothingWaits s ∧ (s.seq 0).state = some .inService ∧ s.breakerPos 0 ≠ some .opened ∧
      ∀ j, j ≠ 5 → j ≠ 0 → (s.seq j).state = some .opened) ∧
    (∀ pending pos, ((closeFails pending pos).seq 5).closeTimer = some 0 ∧ ((closeFails pending pos).seq 5).holdOpenPending = pending) ∧
    (∀ ub ul, ((dead ub ul).seq 5).deadTimer = some 0 ∧ ((dead ub ul).seq 5).state = some .deadTime) ∧
    ((isolated5 (dead 500 0)).isolated 5 = true ∧ (dead 500 0).isolated 5 = false ∧ (dead 500 0).reclosBarred 5 = false ∧
      ((dead 500 0).modSec 6 fun r => { r with noreclose := 1 }).reclosBarred 5 = true ∧ (dead 500 0).rect.state ≠ .limiting ∧
      ((dead 500 0).engine 5).recloseBar = false ∧ ((dead 500 0).channel (chUL 5)).state ≠ .failed ∧
      ((dead 500 0).channel chUB).state ≠ .failed) ∧
    ((399 : Int) < 500 * 4 / 5 ∧ (500 : Int) * 4 / 5 ≤ 400 ∧ (499 : Int) < 500) ∧
    (∀ kind c ub ul, ((testing kind c ub ul).seq 5).testTimer = some 0 ∧ ((testing kind c ub ul).seq 5).closeKind = some kind) ∧
    ((64 : Int) * 600 ≤ 256 * 150 ∧ ¬ (64 : Int) * 600 ≤ 256 * 149 ∧ 2 ≤ min (1 + 1) 2 ∧ min (0 + 1) 2 < 2) := by
  simp only [ready_iff, nothingWaits_iff, feederQuiet_iff]
  refine ⟨?_, ?_, ?_, fun _ _ => ⟨rfl, rfl⟩, fun _ _ => ⟨rfl, rfl⟩, ?_, ?_, fun _ _ _ _ => ⟨rfl, rfl⟩, ?_⟩ <;> decide +kernel

/-- An engine at rest with two currents, RISING at its threshold and at both ends of a rise, CONFIRM at and below seven eighths of the
threshold, and THERMAL at its limit. -/
theorem witness_CriteriaJudged :
    let e := initialEngine factoryFeeder .factory
    let a : Arming := { base := 600, window := 0, confirm := 3, lowRun := 1, rate := 60, peak := 660 }
    let p := e.params
    (e.stage = .idle ∧ ({ e with history := [600, 600] } : Engine).history = [600, 600] ∧ e.history.length < 2) ∧
    ((p.dstart : Int) ≤ (640 : Int) - 600 ∧ (639 : Int) - 600 < p.dstart) ∧
    (({ e with stage := .rising, arming := some a } : Engine).arming = some a ∧ (p.ditrip : Int) ≤ (2100 : Int) - a.base ∧
      ((2099 : Int) - a.base < p.ditrip ∧ ((2099 : Int) - 2080 < p.dreset ∧ 2 ≤ a.lowRun + 1) ∧ (2099 : Int) - 2079 ≥ p.dreset ∧ a.window + 1 < p.wmax) ∧
      p.wmax ≤ min 65535 (p.wmax - 1 + 1)) ∧
    ((1911 : Int) - a.base < ((p.ditrip * 7 / 8 : Nat) : Int) ∧ ((p.ditrip * 7 / 8 : Nat) : Int) ≤ (1912 : Int) - a.base) ∧
    (let h : Engine := { e with heat := heatLimit e.copy.thermal }
     (judgeCriteria 0 h).2 = some .thermal ∧ (judgeCriteria 0 { h with heat := h.heat - 1 }).2 = none ∧ h.copy.thermal.enable = true) := by
  decide +kernel

theorem witness_ReclosePath :
    let r := initialSequencer 0 none none
    ({ r with override := some .opened } : Sequencer).override = some .opened ∧
    ({ r with override := some .lockout } : Sequencer).override = some .lockout ∧ r.override = none ∧
    (∀ c ∈ [TripCause.command, .hold, .backup, .measure, .emergency, .imax, .intertrip], ({ r with cause := some c } : Sequencer).cause = some c) ∧
    r.inReclaim ≠ some true ∧ ({ r with inReclaim := some true } : Sequencer).inReclaim = some true := by decide

/-! Rectifier group. -/

theorem witness_RectifierTimers :
    (∀ s ∈ [withRect fun r => { r with refTimer := some 0 }, withRect fun r => { r with state := .limiting, refTimer := some 0, dips := 65535 },
        withRect fun r => { r with state := .syncing, syncTimer := some 0 }, withRect fun r => { r with state := .standby, wakeTimer := some 0 },
        withRect fun r => { r with state := .standby, wakeTimer := some 0, refsPresent := true }], Ready s ∧ NothingWaits s) ∧
    (withRect fun r => { r with refTimer := some 0 }).rect.state = .off ∧
    (withRect fun r => { r with state := .limiting, refTimer := some 0, dips := 65535 }).rect.dips ≤ 65535 ∧
    (withRect fun r => { r with state := .standby, wakeTimer := some 0 }).rect.refsPresent = false := by
  simp only [ready_iff, nothingWaits_iff]
  decide +kernel

def pulseOne : GatePulse := { bridge := .two, pair := 6, delay := 0 }

theorem witness_ReferencesAndPulses :
    (∀ s ∈ [groupIn .standby, withRect fun r => { r with state := .limiting, refSeen := true },
        withRect fun r => { r with state := .syncing, syncCount := some 22, refSeen := true },
        withRect fun r => { r with state := .syncing, syncCount := some 23, refSeen := true },
        withRect fun r => { r with state := .regulating, pulses := [pulseOne] },
        withRect fun r => { r with state := .regulating, pulses := [pulseOne], bridge2 := { r.bridge2 with lost := true } }],
      Ready s ∧ NothingWaits s) ∧
    ((withRect fun r => { r with state := .limiting, refSeen := true }).rect.bridge1.lost = false ∧
      (withRect fun r => { r with state := .limiting, refSeen := true }).rect.bridge2.lost = false) ∧
    (1500 ≤ min 65535 1500 ∧ min 65535 1833 ≤ 1833 ∧ 22 + 1 < 24 ∧ 24 ≤ 23 + 1) ∧
    ((withRect fun r => { r with state := .regulating, pulses := [pulseOne] }).rect.bridge pulseOne.bridge).lost = false ∧
    ((withRect fun r => { r with state := .regulating, pulses := [pulseOne], bridge2 := { r.bridge2 with lost := true } }).rect.bridge
      pulseOne.bridge).lost = true := by
  simp only [ready_iff, nothingWaits_iff]
  decide +kernel

theorem witness_RegulationStep :
    (150 ≤ 1500) ∧ (let r := initialRectifier factoryRect 1500 0
      ({ r with state := .regulating } : Rectifier).state = .regulating ∧ ({ r with state := .limiting } : Rectifier).state = .limiting ∧
      ({ r with state := .ramping, ramp := some 35990 } : Rectifier).ramp = some 35990) ∧
    ((6000 : Int) ≤ 6000 ∧ (6000 : Int) < 6001 ∧ (5625 : Int) ≤ ((6000 * 15 / 16 : Nat) : Int) ∧ ((6000 * 15 / 16 : Nat) : Int) < 5626) ∧
    (16 * (750 : Int) ≤ ((min 36000 (11984 + 16) : Nat) : Int) ∧ ((min 36000 (11983 + 16) : Nat) : Int) < 16 * (750 : Int)) := by decide

/-! Sections and holds. -/

theorem witness_EnergisationJudged :
    (∀ n, (calm.sec n).deadRun ≤ 8) ∧
    ((0x7FFF : Half).getLsbD (voltageChannel 0).val = true ∧ (0xFDFF : Half).getLsbD (voltageChannel 0).val = false) ∧
    (calm.verification = none ∧ (calm.channel (voltageChannel 0)).state ≠ .failed ∧
      ((withFailed (chUL 0) calm).channel (voltageChannel 0)).state = .failed) ∧
    (calm.store.inUse.uLive : Int) ≤ 500 ∧ (499 : Int) < calm.store.inUse.uLive ∧ (calm.store.inUse.uDead : Int) < 51 ∧
    (50 : Int) ≤ calm.store.inUse.uDead := by decide +kernel

def neighbourClosed : State := (linked .up).modSec 2 fun r => { r with neighbour := some .closed }

theorem witness_SectionJudgements :
    ((withBreaker 2 .closed neighbourClosed).breakerPos 2 = some .closed ∧ neighbourClosed.share 2 ≠ none ∧
      (neighbourClosed.sec (sectionOf 2)).neighbour = some .closed ∧ neighbourClosed.breakerPos 2 ≠ some .closed) ∧
    ((∀ k, calm.share k = none) ∧ (withBreaker 5 .closed calm).breakerPos 5 = some .closed) ∧
    ((∀ q ∈ [RectState.ramping, .regulating, .limiting], (groupIn q).rect.state = q) ∧ (groupIn .standby).rect.state = .standby ∧
      ((calm.modSec 5 fun r => { r with feed := .fedBoth }).sec (sectionOf 5)).feed = .fedBoth ∧
      ∀ j, (calm.sec (sectionOf j)).feed ≠ .fedBoth) ∧
    ((withBreaker 2 .closed neighbourClosed).fitted 2 = true ∧ ((withBreaker 2 .closed neighbourClosed).sec (sectionOf 2)).wanted = .single ∧
      (withBreaker 2 .closed neighbourClosed).wantedOf 2 = .double ∧ (calm.sec (sectionOf 2)).wanted = calm.wantedOf 2) ∧
    unfitted.fitted 5 = false ∧ (calm.fitted 5 = true ∧ (calm.sec (sectionOf 5)).earth = 0) ∧
    ((calm.modSec 5 fun r => { r with earth := 1 }).fitted 5 = true ∧
      ((calm.modSec 5 fun r => { r with earth := 1 }).sec (sectionOf 5)).earth ≠ 0 ∧
      (calm.modSec 5 fun r => { r with earth := 1 }).breakerPos 5 = some .opened ∧
      (withBreaker 5 .closed calm).breakerPos 5 ≠ some .opened) := by decide +kernel

/-- A hold of origin STATION with one timer out. -/
def timed (q : HoldState) (kind : HoldKind) (t : HoldTimers) (left : Option Nat) : Hold :=
  { aHold with kind := kind, state := q, remaining := left, timers := t }

theorem witness_HoldTimersExpire :
    (∀ h ∈ [timed .securing .isolate { noHoldTimers with securing := some 0 } none, timed .proving .earth { noHoldTimers with provingLimit := some 0 } none,
        timed .earthing .earth { noHoldTimers with earthing := some 0 } none, timed .proving .isolate { noHoldTimers with provingWait := some 0 } none,
        timed .proving .earth { noHoldTimers with provingWait := some 0 } none,
        timed .releasing .isolate { noHoldTimers with drop := some 0 } none, timed .failed .isolate { noHoldTimers with retire := some 0 } none,
        timed .active .noreclose { noHoldTimers with minute := some 0 } (some 2), timed .active .noreclose { noHoldTimers with minute := some 0 } (some 1)],
      Ready (withHolds [h]) ∧ (∀ k, ((withHolds [h]).seq k).wait = none) ∧ (withHolds [h]).hold 9 = some h ∧ h.origin = .station ∧
        h.asks = [] ∧ h.sections.length ≤ 7 ∧ h.sections = [sectionOf 3] ∧ h.sections.Nodup) ∧
    calm.provedDead aHold = false ∧ (calm.modSec 3 fun r => { r with deadRun := 8 }).provedDead aHold = true ∧
    (let s := calm.modSec 3 fun r => { r with isolate := 1, earth := 1 }
     s.fitted 3 = true ∧ (s.sec (sectionOf 3)).commandedClosed = false ∧ s.unearthing (sectionOf 3) = [] ∧ s.breakerPos 3 = some .opened ∧
      (s.sec (sectionOf 3)).earth ≠ 0 ∧ s.earthPos 3 ≠ some .closed ∧ (calm.sec (sectionOf 3)).earth = 0 ∧
      (s.setPair (.earth 3) { derived := some .closed, handed := some .closed, transit := none }).earthPos 3 = some .closed ∧
      (withBreaker 3 .closed s).breakerPos 3 ≠ some .opened) ∧
    -- What ends the commanded earth, at an earth count of 1, with the switch OPEN and not.
    (let s := calm.modSec 3 fun r => { r with isolate := 1, earth := 1, commandedClosed := true }
     (sectionOf 3) ≠ busSection ∧ (s.sec (sectionOf 3)).earth ≤ 1 ∧ (s.sec (sectionOf 3)).commandedClosed = true ∧
      s.earthPos 3 = some .opened ∧ (s.setPair (.earth 3) { derived := some .closed, handed := some .closed, transit := none }).earthPos 3 ≠ some .opened) ∧
    (let s := calm.modSec (sectionOf 5) fun r => { r with mismatchTimer := some 0 }
     Ready s ∧ (s.sec (sectionOf 5)).mismatchTimer ≠ none) := by
  simp only [ready_iff]
  decide +kernel

/-! Neighbour links. -/

def anAsk : PeerAsk := { port := .a, line := 17, status := .asked, peerId := none, deny := none, awaiting := false }

/-- Link A up with one hold on section 2 that asks on it. -/
def asking (q : HoldState) (phase : Option Phase) (a : PeerAsk) : State :=
  { linked .up with ht := { calm.ht with holds := [{ aHold with sections := [2], state := q, phase := phase, asks := [a] }] } }

/-- A hold of origin PEER-A on section 2, ID 9, whose hold at the neighbour has ID 7. -/
def aPeer (kind : HoldKind) (q : HoldState) : Hold :=
  { aHold with kind := kind, origin := .peerA, tag := 7, sections := [2], state := q, remaining := none, timers := noHoldTimers }

/-- Link A up with holds in the table. -/
def linkedHolds (l : List Hold) : State := { linked .up with ht := { calm.ht with holds := l, lastId := 9 } }

/-- What every clause on a message asks. -/
def hears (s : State) : Prop := Ready s ∧ s.verification = none ∧ (s.link .a).state = .up ∧ (7 : Byte) = (s.store.cfg.port .a).neighbour

/-- Section 2 is the one section shared on port A, as line section 17. -/
def sharesOne (s : State) : Prop := s.share 2 = some (.a, 17) ∧ (∀ j, s.share j = some (.a, 17) → j = 2) ∧
  (∀ j l, s.share j = some (.a, l) → j = 2) ∧ ∀ k, s.share k ≠ some (.a, 18)

theorem sharesOne_linked : sharesOne (linked .up) := by
  have h : ∀ k, (linked .up).share k = if k = 2 then some (.a, 17) else none := by decide +kernel
  refine ⟨h 2, fun j e => ?_, fun j l e => ?_, fun k e => ?_⟩ <;> rw [h] at e <;> split at e <;> simp_all

theorem witness_MessagesTaken :
    (∀ s ∈ [linked .up, unshared (linked .up), withBreaker 2 .closed (linked .up),
        withBreaker 2 .closed ((linked .up).modSeq 2 fun r => { r with state := some .inService }),
        linkedHolds [aPeer .isolate .securing], linkedHolds [aPeer .isolate .active], linkedHolds [aPeer .noreclose .active],
        asking .active none { anAsk with status := .granted }, asking .proving none anAsk, asking .earthing none anAsk,
        asking .securing none anAsk, asking .releasing (some .peerDrop) { anAsk with awaiting := true }],
      hears s ∧ (∀ k, (s.seq k).wait = none) ∧ (9 : Byte) ≠ 0 ∧ s.hold 8 = none ∧ s.peerHold .a 8 = none) ∧
    sharesOne (linked .up) ∧
    -- BEACON: no entry and two entries, the neighbour's breaker new and known, with and without a change of the wanted set.
    (fieldsValid (.beacon [] false) = true ∧ fieldsValid (.beacon [⟨17, true, .opened⟩] true) = true ∧
      ((linked .up).sec (sectionOf 2)).neighbour ≠ some .closed ∧ (neighbourClosed.sec (sectionOf 2)).neighbour = some .closed ∧
      ((linked .up).sec (sectionOf 2)).wanted = .single ∧ (linked .up).fitted 2 = true ∧ (linked .up).breakerPos 2 ≠ some .closed ∧
      (withBreaker 2 .closed (linked .up)).breakerPos 2 = some .closed ∧ FeederQuiet (linked .up) 2 ∧
      ((linked .up).engine 2).setInUse ≠ .double ∧ ∀ k, (unshared (linked .up)).share k = none) ∧
    -- INTERTRIP: feeder 2 OPEN, and in service.
    (((linked .up).seq 2).state = some .opened ∧
      (let s := withBreaker 2 .closed ((linked .up).modSeq 2 fun r => { r with state := some .inService })
       (s.seq 2).state = some .inService ∧ FeederQuiet s 2 ∧ s.breakerPos 2 ≠ some .opened)) ∧
    -- ASK: placed, and repeated against a SECURING and an ACTIVE hold.
    ((linked .up).fitted 2 = true ∧ (linked .up).ht.holds = [] ∧ (linked .up).isolated 2 = false ∧ (linked .up).securingOver 2 = [] ∧
      (linked .up).breakerPos 2 = some .opened) ∧
    (∀ q ∈ [HoldState.securing, .active], (linkedHolds [aPeer .isolate q]).peerHold .a 7 = some (aPeer .isolate q) ∧
      (linkedHolds [aPeer .isolate q]).hold 9 = some (aPeer .isolate q) ∧ (aPeer .isolate q).sections = [sectionOf 2]) ∧
    (linkedHolds [aPeer .noreclose .active]).peerHold .a 7 = some (aPeer .noreclose .active) ∧
    -- GRANT, DENY and DROPPED on the hold that asked.
    ((asking .active none { anAsk with status := .granted }).ht.holds.map (fun h => ((h.askOn .a).isSome, h.state)) = [(true, .active)]) ∧
    ((asking .securing none anAsk).hold 9).map (fun h => (h.asks, h.state, h.origin)) = some ([anAsk], .securing, .station) ∧
    ((asking .releasing (some .peerDrop) { anAsk with awaiting := true }).hold 9).map (fun h => (h.state, h.phase)) =
      some (.releasing, some .peerDrop) ∧
    -- AUDIT: no ID, an ID that stands, and one that does not.
    (fieldsValid (.audit []) = true ∧ fieldsValid (.audit [9]) = true ∧ fieldsValid (.audit [1, 2]) = true ∧ (linked .up).ht.holds = []) := by
  simp only [hears, ready_iff, feederQuiet_iff]
  refine ⟨?_, sharesOne_linked, ?_, ?_, ?_, ?_, ?_, ?_, ?_, ?_, ?_⟩ <;> decide +kernel

def errorsAt (n : Nat) : State := (linked .up).modLink .a fun l => { l with errors := n }

/-- Link A joining after a count of valid messages, with errors. -/
def joiningAt (count errors : Nat) : State := (linked .joining).modLink .a fun l => { l with joinCount := some count, errors := errors }

theorem witness_MessagesDiscarded :
    (∀ s ∈ [errorsAt 65535, errorsAt 14, errorsAt 15, linked .down, joiningAt 1 0, joiningAt 2 0, calm, verifying],
      Ready s) ∧
    verifying.verification ≠ none ∧ (calm.link .a).state = .unused ∧ ((errorsAt 15).verification = none ∧ ((errorsAt 15).link .a).state = .up) ∧
    (((errorsAt 65535).link .a).errors ≤ 65535 ∧ (14 + 1) % 16 ≠ 0 ∧ 15 < 65535 ∧ (15 + 1) % 16 = 0) ∧
    (8 : Byte) ≠ ((errorsAt 14).store.cfg.port .a).neighbour ∧ (7 : Byte) = ((linked .down).store.cfg.port .a).neighbour ∧
    (linked .down).hold 9 = none ∧
    -- JOINING on a port that shares nothing, its errors below and at the sixteenth and at the end of the count.
    (∀ n ∈ [14, 15, 65535],
      let s := unshared (joiningAt 1 n)
      Ready s ∧ s.verification = none ∧ (s.link .a).state = .joining ∧ (s.link .a).errors = n ∧ n ≤ 65535 ∧ ∀ k, s.share k = none) ∧
    (((joiningAt 1 0).link .a).joinCount = some 1 ∧ ((joiningAt 2 0).link .a).joinCount = some 2 ∧ (joiningAt 2 0).verification = none ∧
      (joiningAt 2 0).ht.holds = [] ∧ ((joiningAt 2 0).link .a).state = .joining ∧
      ∀ k, ((joiningAt 2 0).sec (sectionOf k)).wanted = .single ∧ (joiningAt 2 0).breakerPos k ≠ some .closed) := by
  simp only [ready_iff]
  decide +kernel

/-- Link A sending, with a list. -/
def sending (l : List PendingIntertrip) (m : List HoldMsg) (due : Bool) : State :=
  (linked .up).modLink .a fun r => { r with inFlight := some { station := 1, body := .beacon [] false }, intertrips := l, messages := m, beaconDue := due,
                                            beaconTimer := some 0 }

theorem witness_LinkTimersAndTransmitter :
    (∀ s ∈ [sending [⟨17, .fault⟩] [.audit] true, sending [] [.audit] true, sending [] [] true, sending [] [] false], Ready s ∧
      s.verification = none ∧ (s.link .a).state ≠ .unused ∧ (s.link .a).inFlight ≠ none ∧ (s.link .a).beaconTimer ≠ none) ∧
    (let s : State := unshared (linked .up)
     Ready s ∧ (s.link .a).supervision ≠ none ∧ (∀ k, s.share k = none) ∧ s.ht.holds = [] ∧ (s.link .a).intertrips = []) ∧
    ((sending [⟨17, .fault⟩] [.audit] true).link .a).intertrips = [⟨17, .fault⟩] ∧
    (((sending [] [.audit] true).link .a).intertrips = [] ∧ ((sending [] [.audit] true).link .a).messages = [.audit]) ∧
    ((sending [] [] true).link .a).beaconDue = true ∧ ((sending [] [] false).link .a).beaconDue = false := by
  simp only [ready_iff]
  decide +kernel

theorem witness_OutboundLists :
    let s := sending [⟨21, .fault⟩, ⟨17, .backup⟩] [.ask 9 17 .isolate, .drop 8] false
    ((s.link .a).inFlight ≠ none ∧ (s.link .a).state = .up ∧ ((s.modLink .a fun l => { l with state := .down }).link .a).state = .down ∧
      ((s.modLink .a fun l => { l with state := .joining }).link .a).state = .joining) ∧
    (∀ x ∈ (s.link .a).intertrips, x.line ≠ 18) ∧
    ((s.link .a).intertrips = [⟨21, .fault⟩] ++ ⟨17, .backup⟩ :: [] ∧ ∀ y ∈ [(⟨21, .fault⟩ : PendingIntertrip)], y.line ≠ 17) ∧
    (∀ x ∈ (s.link .a).messages, subjectOf x ≠ subjectOf (.grant 9 1)) ∧
    ((s.link .a).messages = [.ask 9 17 .isolate] ++ .drop 8 :: [] ∧ subjectOf (.drop 8) = subjectOf (.ask 8 17 .earth)) := by
  decide +kernel

/-! Points. -/

/-- Point 60 masked. -/
def masking : State := withStore fun st => { st with cfg := { st.cfg with masks := (Vector.replicate 79 false).set 60 true } }

def pointAs (c : Bool) (q : PointState) : State :=
  { calm with au := { calm.au with points := calm.au.points.set 60 { initialPoint with condition := c, state := q, repeats := some 255 } } }

/-- An alert list with one point, behind which others join. -/
def listed : State := { calm with au := { calm.au with alerts := [7] } }

theorem witness_PointLife :
    (calm.verification = none ∧ masking.masked 60 = true ∧ calm.masked 60 = false ∧ calm.pointClass 60 = .latching ∧
      calm.pointClass 63 = .selfReset) ∧
    (∀ c ∈ [false, true], ∀ q ∈ [PointState.normal, .unack, .acked, .clearedUnack],
      (pointAs c q).verification = none ∧ ((pointAs c q).point 60).condition = c ∧ ((pointAs c q).point 60).state = q ∧
      ((pointAs c q).point 60).repeats = some 255 ∧ (pointAs c q).masked 60 = false ∧ (pointAs c q).au.joining = []) ∧
    (listed.au.joining = [] ∧ listed.verification = none ∧
      ∀ q ∈ [(0 : PointNo), 78], q ≠ 60 ∧ listed.masked q = false ∧ (listed.point q).condition = false ∧ (listed.point q).state = .normal) := by
  decide +kernel

def banded (enable condition : Bool) : State :=
  { calm with
    store := { calm.store with
      inUse := { calm.store.inUse with
        bands := (Vector.replicate 8 factoryBand).set 2
          { factoryBand with enable := enable, mask := 1, high := 600, delay := 40, selfReset := true } } }
    au := { calm.au with bands := (Vector.replicate 8 { condition := false, run := 0 }).set 2 { condition := condition, run := 39 } } }

theorem witness_BandsJudged :
    ((banded false true).store.inUse.bands.get 2).enable = false ∧ ((banded true false).store.inUse.bands.get 2).enable = true ∧
    ((banded true false).au.bands.get 2).condition = false ∧ ((banded true true).au.bands.get 2).condition = true ∧
    (∃ c : ChannelNo, ((banded true false).store.inUse.bands.get 2).mask.getLsbD c.val = true ∧
      ((banded true false).channel c).state = .good ∧ ((banded true false).store.inUse.bands.get 2).low ≤ ((banded true false).channel c).value ∧
      ((banded true false).channel c).value ≤ ((banded true false).store.inUse.bands.get 2).high) := by decide +kernel

/-- 8.4: a band on the bus voltage: the 40th arrival in a row that meets it makes its condition true. -/
theorem test_band : ((banded true false).takeArrival .bands 0).au.bands.get 2 = { condition := true, run := 0 } := by decide +kernel

end Sys2Proof.Tests
end

section
/-! The slots of a channel record (R6, R7): what one missed slot and one valid slot do to its counts and its state, and where a
run of either kind leaves its state. -/

namespace Sys2Proof.Machine

open Sys2Proof

variable {n top k : Nat} {r : Channel}

/-! ### The counts and the states of R7 -/

theorem satSucc_eq_min (h : n ≤ top) : satSucc top n = min top (n + 1) := by
  unfold satSucc
  split <;> omega

/-- A saturating count passes every threshold up to its top as the plain count does, whatever it stood at. -/
theorem le_satSucc_iff (h : k ≤ top) : k ≤ satSucc top n ↔ k ≤ n + 1 := by
  unfold satSucc
  split <;> omega

theorem stateAfterMiss_eq (q : ChannelState) (miss : Nat) :
    stateAfterMiss q miss = if q = .failed ∨ 4 ≤ miss then .failed else .stale := by
  cases q <;> simp [stateAfterMiss]

theorem stateAfterValid_eq (q : ChannelState) (run : Nat) :
    stateAfterValid q run = if q = .good ∨ 16 ≤ run then .good else q := by
  cases q <;> simp [stateAfterValid]

/-! ### One slot (R6) -/

@[simp] theorem missSlot_value (r : Channel) : (missSlot r).value = r.value := rfl

@[simp] theorem missSlot_saturated (r : Channel) : (missSlot r).saturated = r.saturated := rfl

@[simp] theorem missSlot_goodRun (r : Channel) : (missSlot r).goodRun = 0 := rfl

theorem missSlot_miss (r : Channel) : (missSlot r).miss = satSucc 255 r.miss := rfl

theorem missSlot_state (r : Channel) :
    (missSlot r).state = if r.state = .failed ∨ 4 ≤ (missSlot r).miss then .failed else .stale :=
  stateAfterMiss_eq r.state (missSlot r).miss

@[simp] theorem validSlot_value (reading : Int × Bool) (r : Channel) : (validSlot reading r).value = reading.1 := rfl

@[simp] theorem validSlot_saturated (reading : Int × Bool) (r : Channel) : (validSlot reading r).saturated = reading.2 := rfl

@[simp] theorem validSlot_miss (reading : Int × Bool) (r : Channel) : (validSlot reading r).miss = 0 := rfl

theorem validSlot_goodRun (reading : Int × Bool) (r : Channel) : (validSlot reading r).goodRun = satSucc 16 r.goodRun := rfl

theorem validSlot_state (reading : Int × Bool) (r : Channel) :
    (validSlot reading r).state = if r.state = .good ∨ 16 ≤ (validSlot reading r).goodRun then .good else r.state :=
  stateAfterValid_eq r.state (validSlot reading r).goodRun

/-! ### Missed slots in a row -/

/-- The cap of the miss count lies past the threshold of FAILED, so the plain count decides. -/
theorem missSlot_state_of_miss (r : Channel) :
    (missSlot r).state = if r.state = .failed ∨ 4 ≤ r.miss + 1 then .failed else .stale := by
  rw [missSlot_state]
  simp only [missSlot_miss, le_satSucc_iff (show 4 ≤ 255 by decide)]

theorem missSlot_state_eq_failed_iff : (missSlot r).state = .failed ↔ r.state = .failed ∨ 4 ≤ r.miss + 1 := by
  rw [missSlot_state_of_miss]
  split <;> simp_all

/-- Whether missed slots in a row bring a channel to FAILED depends on its state, its miss count and their number alone. -/
theorem missSlots_succ_state (n : Nat) (r : Channel) :
    (missSlots (n + 1) r).state = if r.state = .failed ∨ 4 ≤ r.miss + (n + 1) then .failed else .stale := by
  induction n generalizing r with
  | zero => exact missSlot_state_of_miss r
  | succ n ih =>
    have hcount : 4 ≤ r.miss + 1 ∨ 4 ≤ (missSlot r).miss + (n + 1) ↔ 4 ≤ r.miss + (n + 1 + 1) := by
      rw [missSlot_miss]
      unfold satSucc
      split <;> omega
    rw [missSlots, ih]
    simp only [missSlot_state_eq_failed_iff, or_assoc, hcount]

theorem missSlots_succ_goodRun (n : Nat) (r : Channel) : (missSlots (n + 1) r).goodRun = 0 := by
  induction n generalizing r with
  | zero => rfl
  | succ n ih => exact ih (missSlot r)

theorem missSlots_stale (hstate : r.state ≠ .failed) (hmiss : r.miss = 0) (hpos : 0 < n) (hlt : n < 4) :
    (missSlots n r).state = .stale := by
  obtain ⟨m, rfl⟩ := Nat.exists_eq_add_of_le' hpos
  rw [missSlots_succ_state, if_neg]
  rintro (hfailed | hfour)
  · exact hstate hfailed
  · omega

theorem missSlots_failed (r : Channel) (h : 4 ≤ n) : (missSlots n r).state = .failed := by
  obtain ⟨m, rfl⟩ := Nat.exists_eq_add_of_le' h
  rw [missSlots_succ_state, if_pos]
  omega

theorem missSlots_goodRun (r : Channel) (h : 0 < n) : (missSlots n r).goodRun = 0 := by
  obtain ⟨m, rfl⟩ := Nat.exists_eq_add_of_le' h
  exact missSlots_succ_goodRun m r

/-! ### Valid slots in a row -/

theorem foldl_validSlot_good (readings : List (Int × Bool)) (h : r.state = .good) :
    (readings.foldl (fun a x => validSlot x a) r).state = .good := by
  induction readings generalizing r with
  | nil => exact h
  | cons reading readings ih => exact ih (by rw [validSlot_state, if_pos (.inl h)])

/-- A channel keeps the state it stands in until its good run reaches 16; from there on it is GOOD. -/
theorem foldl_validSlot_state (readings : List (Int × Bool)) (hrun : r.goodRun < 16) :
    (readings.foldl (fun a x => validSlot x a) r).state = if 16 ≤ r.goodRun + readings.length then .good else r.state := by
  induction readings generalizing r with
  | nil => rw [List.foldl_nil, List.length_nil, if_neg (by omega)]
  | cons reading readings ih =>
    have hnext : (validSlot reading r).goodRun = r.goodRun + 1 := if_pos hrun
    rw [List.foldl_cons, List.length_cons]
    by_cases hlast : 16 ≤ r.goodRun + 1
    · have hgood : (validSlot reading r).state = .good := by rw [validSlot_state, hnext, if_pos (.inr hlast)]
      rw [foldl_validSlot_good readings hgood, if_pos (by omega)]
    · have hsame : (validSlot reading r).state = r.state := by
        rw [validSlot_state, hnext]
        split
        next h => exact (h.resolve_right hlast).symm
        next => rfl
      rw [ih (by omega), hnext, hsame, Nat.add_assoc, Nat.add_comm 1]

/-! ### A gap of 4 or more before a valid value -/

theorem validSlot_missSlots_goodRun (reading : Int × Bool) (r : Channel) (h : 0 < n) :
    (validSlot reading (missSlots n r)).goodRun = 1 := by
  rw [validSlot_goodRun, missSlots_goodRun r h]
  rfl

theorem validSlot_missSlots_failed (reading : Int × Bool) (r : Channel) (h : 4 ≤ n) :
    (validSlot reading (missSlots n r)).state = .failed := by
  rw [validSlot_state, validSlot_missSlots_goodRun reading r (by omega), missSlots_failed r h]
  decide

/-- Settles O41: each part is one of the rules above, at the counts the part names. -/
theorem channelStates : Obligations.ChannelStates := by
  unfold Obligations.ChannelStates
  refine ⟨?missed, ?valid, ?fromGood, ?backToGood, ?timeout, ?gap⟩
  case missed =>
    intro r hmiss
    exact ⟨missSlot_value r, missSlot_saturated r, missSlot_goodRun r, satSucc_eq_min hmiss, missSlot_state r⟩
  case valid =>
    intro r reading hrun
    exact ⟨validSlot_value reading r, validSlot_saturated reading r, validSlot_miss reading r, satSucc_eq_min hrun,
      validSlot_state reading r⟩
  case fromGood =>
    intro r hgood hmiss
    have hstale : ∀ n, 0 < n → n < 4 → (missSlots n r).state = .stale := fun n =>
      missSlots_stale (by simp [hgood]) hmiss
    exact ⟨hstale 1 (by omega) (by omega), hstale 2 (by omega) (by omega), hstale 3 (by omega) (by omega),
      fun _ => missSlots_failed r⟩
  case backToGood =>
    intro r readings _ hrun
    have hstate := foldl_validSlot_state (r := r) readings (by omega)
    rw [hrun, Nat.zero_add] at hstate
    exact ⟨fun hlt => by rw [hstate, if_neg (by omega)], fun hle => by rw [hstate, if_pos hle]⟩
  case timeout =>
    intro r _
    exact missSlots_failed r (Nat.le_refl 4)
  case gap =>
    intro r reading n _ hn
    exact ⟨validSlot_missSlots_failed reading r hn, validSlot_miss reading _,
      validSlot_missSlots_goodRun reading r (by omega)⟩

end Sys2Proof.Machine
end

section
/-! The ID of a new hold (R113): the order in which IDs are tried, the first of them that no record holds, the end of that search,
and what a placement, taken or refused, leaves in the hold table. -/

namespace Sys2Proof.Machine

open Sys2Proof

variable {s : State} {id : Byte} {n : Nat}

/-! ### The order of the IDs -/

theorem orbit_succ_eq_nextId (id : Byte) (n : Nat) : orbit id (n + 1) = nextId (orbit id n) := by
  induction n generalizing id with
  | zero => rfl
  | succ n ih => exact ih (nextId id)

theorem orbit_eq_repeat (id : Byte) (n : Nat) : orbit id n = Nat.repeat nextId n id := by
  induction n with
  | zero => rfl
  | succ n ih => rw [orbit_succ_eq_nextId, ih, Nat.repeat]

/-- The IDs tried after the last assigned one, in the model's order and as repeated steps. -/
theorem orbit_nextId_eq_repeat (id : Byte) (n : Nat) : orbit (nextId id) n = Nat.repeat nextId (n + 1) id :=
  orbit_eq_repeat id (n + 1)

/-- No ID comes up twice within one round of 255. -/
theorem orbit_inj {i j : Nat} (hid : 1 ≤ id.toNat) (hi : i < 255) (hj : j < 255) (h : orbit id i = orbit id j) : i = j := by
  have hnum := congrArg BitVec.toNat h
  rw [orbit_toNat i id hid, orbit_toNat j id hid] at hnum
  have := id.isLt
  omega

/-! ### The search -/

theorem freeId_eq_orbit {inUse : Byte → Bool} {fuel : Nat} (hn : n ≤ fuel) (taken : ∀ m < n, inUse (orbit id m) = true)
    (free : inUse (orbit id n) = false) : freeId inUse fuel id = orbit id n := by
  induction n generalizing fuel id with
  | zero =>
    have hid : inUse id = false := free
    cases fuel <;> simp [freeId, orbit, hid]
  | succ n ih =>
    obtain ⟨fuel, rfl⟩ := Nat.exists_eq_add_of_le' (Nat.le_trans (Nat.le_add_left 1 n) hn)
    have hid : inUse id = true := taken 0 (Nat.succ_pos n)
    rw [freeId, if_pos hid]
    exact ih (Nat.le_of_succ_le_succ hn) (fun m hm => taken (m + 1) (Nat.succ_lt_succ hm)) free

theorem State.any_id_eq_isSome_hold (s : State) (id : Byte) : (s.ht.holds.any fun h => h.id == id) = (s.hold id).isSome :=
  List.isSome_find?.symm

theorem State.mem_ids_of_isSome_hold (h : (s.hold id).isSome) : id ∈ s.ht.holds.map Hold.id := by
  obtain ⟨x, hx⟩ := Option.isSome_iff_exists.1 h
  exact List.mem_map.2 ⟨x, State.hold_mem hx, State.hold_id hx⟩

/-- R113: the ID drawn is the one that comes up first of those that no record holds. -/
theorem drawId_eq_repeat (hn : n ≤ 255) (taken : ∀ m < n, (s.hold (Nat.repeat nextId (m + 1) s.ht.lastId)).isSome)
    (free : s.hold (Nat.repeat nextId (n + 1) s.ht.lastId) = none) :
    drawId s.ht.holds s.ht.lastId = Nat.repeat nextId (n + 1) s.ht.lastId := by
  simp only [← orbit_nextId_eq_repeat] at taken free ⊢
  refine freeId_eq_orbit hn (fun m hm => ?_) ?_
  · rw [State.any_id_eq_isSome_hold, taken m hm]
  · rw [State.any_id_eq_isSome_hold, free, Option.isSome_none]

/-- R113: past an ID in use that follows the last assigned one, the next is drawn. -/
theorem drawId_second (taken : (s.hold (nextId s.ht.lastId)).isSome)
    (free : ¬ (s.hold (nextId (nextId s.ht.lastId))).isSome) :
    drawId s.ht.holds s.ht.lastId = nextId (nextId s.ht.lastId) :=
  drawId_eq_repeat (n := 1) (by decide) (fun m hm => by rw [Nat.lt_one_iff.1 hm]; exact taken)
    (Option.not_isSome_iff_eq_none.1 free)

theorem State.all_taken_or_first_free (s : State) (last : Byte) (n : Nat) :
    (∀ m < n, (s.hold (Nat.repeat nextId (m + 1) last)).isSome) ∨
      ∃ k, k < n ∧ s.hold (Nat.repeat nextId (k + 1) last) = none ∧
        ∀ m < k, (s.hold (Nat.repeat nextId (m + 1) last)).isSome := by
  induction n with
  | zero => exact .inl fun m hm => absurd hm (Nat.not_lt_zero m)
  | succ n ih =>
    obtain htaken | ⟨k, hk, hfirst⟩ := ih
    · cases hn : s.hold (Nat.repeat nextId (n + 1) last) with
      | none => exact .inr ⟨n, Nat.lt_succ_self n, hn, htaken⟩
      | some h =>
        refine .inl fun m hm => ?_
        obtain hlt | rfl := Nat.lt_succ_iff_lt_or_eq.1 hm
        · exact htaken m hlt
        · exact Option.isSome_iff_exists.2 ⟨h, hn⟩
    · exact .inr ⟨k, Nat.lt_succ_of_lt hk, hfirst⟩

/-- 25 different IDs in use are more than a table of at most 24 records holds. -/
theorem not_all_taken (room : s.ht.holds.length ≤ 24) :
    ¬ ∀ m < 25, (s.hold (Nat.repeat nextId (m + 1) s.ht.lastId)).isSome := by
  intro taken
  have crowd := pigeons 25 (s.ht.holds.map Hold.id) (orbit (nextId s.ht.lastId))
    (fun i j hi hj => orbit_inj (nextId_pos _) (by omega) (by omega))
    (fun m hm => State.mem_ids_of_isSome_hold (by rw [orbit_nextId_eq_repeat]; exact taken m hm))
  rw [List.length_map] at crowd
  omega

theorem exists_first_free (room : s.ht.holds.length ≤ 24) :
    ∃ n, n < 25 ∧ s.hold (Nat.repeat nextId (n + 1) s.ht.lastId) = none ∧
      ∀ m < n, (s.hold (Nat.repeat nextId (m + 1) s.ht.lastId)).isSome :=
  (s.all_taken_or_first_free s.ht.lastId 25).resolve_left (not_all_taken room)

/-! ### Placements taken and refused -/

@[simp] theorem State.placeHold_id (s : State) (kind : HoldKind) (origin : Origin) (tag : Half) (sections : List SectionNo)
    (duration : Option Nat) : (s.placeHold kind origin tag sections duration).2 = drawId s.ht.holds s.ht.lastId := rfl

/-- R116: the asks, the counts and the handing that follow leave the table that the placement hands on. -/
theorem State.placeHold_ht (s : State) (kind : HoldKind) (origin : Origin) (tag : Half) (sections : List SectionNo)
    (duration : Option Nat) :
    (s.placeHold kind origin tag sections duration).1.ht =
      { s.ht with
        holds := s.ht.holds ++ [s.newHold kind origin tag sections duration]
        lastId := drawId s.ht.holds s.ht.lastId } := by
  unfold State.placeHold
  dsimp only
  rw [State.hand_ht, State.raiseHold_ht]
  refine (forEach_same (·.ht) _ _ _ fun a t => ?_).trans rfl
  split
  · exact State.queueMessage_ht ..
  · rfl

theorem State.commandPlace_refused_state (p : Placement) (tag : Half) (h : (s.commandPlace p tag).result ≠ .accepted) :
    (s.commandPlace p tag).state = s := by
  unfold State.commandPlace at h ⊢
  split at h
  · rfl
  · exact absurd rfl h

/-- R117: a key refused changes its own record alone in the hold table. -/
theorem State.refuseKey_holds (s : State) (k : KeyNo) (code : RefusalCode) :
    (s.refuseKey k code).ht.lastId = s.ht.lastId ∧ (s.refuseKey k code).ht.holds = s.ht.holds := by
  rw [State.refuseKey, State.pulse_ht]
  exact ⟨rfl, rfl⟩

theorem State.keyPlaces_refused (k : KeyNo) (kind : HoldKind) (h : s.placementRefusal [keySection k] false ≠ none) :
    (s.keyPlaces k kind).ht.lastId = s.ht.lastId ∧ (s.keyPlaces k kind).ht.holds = s.ht.holds := by
  obtain ⟨⟨code, value⟩, hrefusal⟩ := Option.ne_none_iff_exists'.1 h
  rw [State.keyPlaces, hrefusal]
  split
  · exact ⟨rfl, rfl⟩
  · exact State.refuseKey_holds s k code

theorem State.placePeer_denied_ht {p : Port} {line : Byte} {reason : DenyReason} (id : Byte) (kind : HoldKind)
    (h : s.peerAnswer p line = .inl reason) : (s.placePeer p id line kind).ht = s.ht := by
  rw [State.placePeer, h]
  exact State.queueMessage_ht ..

/-- Settles O28: the first free ID comes up within 25 steps because a table of 24 records cannot hold 25 different IDs; every
refusal leaves the table, and both draws of the example pass one ID in use. -/
theorem holdIdDrawn : Obligations.HoldIdDrawn := by
  unfold Obligations.HoldIdDrawn
  refine ⟨?drawn, fun _ => rfl, fun _ => State.commandPlace_refused_state, fun _ => State.keyPlaces_refused,
    fun s p id line kind reason => State.placePeer_denied_ht id kind, ?example41⟩
  case drawn =>
    intro s kind origin tag sections duration room
    obtain ⟨n, hn, hfree, htaken⟩ := exists_first_free room
    have hdrawn := drawId_eq_repeat (by omega) htaken hfree
    refine ⟨⟨n, hn, hdrawn, ?_, htaken⟩, ?_, s.newHold kind origin tag sections duration, ?_, rfl⟩
    · rw [State.placeHold_id, hdrawn, hfree]
    · rw [State.placeHold_ht, State.placeHold_id]
    · rw [State.placeHold_ht]
  case example41 =>
    intro s kind origin tag sections duration hlast hused
    refine ⟨?_, fun t hlast' hused' => ?_⟩
    · rw [State.placeHold_id, drawId_second, hlast]
      · rfl
      · rw [hlast, hused]; decide
      · rw [hlast, hused]; decide
    · rw [State.placeHold_id, drawId_second, hlast']
      · rfl
      · rw [hlast', hused']; decide
      · rw [hlast', hused']; decide

end Sys2Proof.Machine
end

section
/-! The selection of a switching action (R205, R207): what the operand bytes of SELECT name, the checks of the port in their order
(R203, R204), and what SELECT, its timer and CANCEL SELECTION leave. -/

namespace Sys2Proof.Machine

open Sys2Proof

variable {s : State} {t a b : Byte} {target : Target} {action : SwitchAction} {k : FeederNo}

/-! ### The operands (11.1) -/

/-- The byte that names a switching target. -/
def targetNumber : Target → Nat
  | .feeder k => k.val
  | .rectifier => 6

/-- The byte that names a switching action. -/
def actionNumber : SwitchAction → Nat
  | .opened => 0
  | .close => 1
  | .start => 2
  | .stop => 3
  | .standby => 4

theorem targetNumber_le (target : Target) : targetNumber target ≤ 6 := by
  cases target with
  | feeder k => exact Nat.le_of_lt k.isLt
  | rectifier => exact Nat.le_refl 6

theorem actionNumber_le (action : SwitchAction) : actionNumber action ≤ 4 := by
  cases action <;> decide

/-- R205: a feeder takes OPEN and CLOSE, the rectifier group START, STOP and STANDBY. -/
theorem belongs_iff : belongs target action = true ↔ (targetNumber target < 6 ↔ actionNumber action ≤ 1) := by
  cases target with
  | feeder k => cases action <;> simp [belongs, targetNumber, actionNumber]
  | rectifier => cases action <;> decide

theorem feederOperand_eq_some_iff : feederOperand b = some k ↔ b.toNat = k.val := by
  unfold feederOperand
  split
  · rw [Option.some_inj, Fin.ext_iff]
  · have := k.isLt
    exact iff_of_false nofun (by omega)

theorem targetOperand_eq_some_iff : targetOperand b = some target ↔ b.toNat = targetNumber target := by
  constructor
  · intro h
    unfold targetOperand at h
    split at h
    · next hk =>
      cases h
      exact feederOperand_eq_some_iff.1 hk
    · split at h
      · next hb =>
        cases h
        rw [hb]
        rfl
      · cases h
  · intro h
    cases target with
    | feeder k => rw [targetOperand, feederOperand_eq_some_iff.2 h]
    | rectifier =>
      have hb : b = 6 := BitVec.eq_of_toNat_eq h
      rw [hb]
      rfl

theorem actionOperand_eq_some_iff : actionOperand b = some action ↔ b.toNat = actionNumber action := by
  constructor
  · intro h
    unfold actionOperand at h
    (repeat' split at h) <;> cases h <;> subst b <;> rfl
  · intro h
    have hb : b = BitVec.ofNat 8 (actionNumber action) := by rw [← h, BitVec.ofNat_toNat, BitVec.setWidth_eq]
    rw [hb]
    cases action <;> rfl

/-! ### The checks of the port (R203, R204) -/

/-- Once equipment verification has ended, LOCAL refuses a command that needs REMOTE before its owner sees it. -/
theorem State.port_under_local {row : PortRow} (named : Option Nat) (owner : Option (State → Answer)) (harmed : s.sp.selArmed = true)
    (hverified : s.verification = none) (hrow : row.remote = true) (hlocal : s.sp.localAuthority = true) :
    s.port row named owner = s.resulting row.code (.refused .authority) (named.getD 0) := by
  simp [State.port, harmed, State.portAnswer, State.verifying, hverified, hrow, hlocal, State.record, State.modSp, refuse,
    State.resulting]

/-- A command that needs no supervisor key reaches its owner once equipment verification has ended, under the authority it needs;
an operand outside its set is refused there. -/
theorem State.port_judged {row : PortRow} (named : Option Nat) (owner : Option (State → Answer)) (harmed : s.sp.selArmed = true)
    (hverified : s.verification = none) (hauthority : row.remote = true → s.sp.localAuthority = false)
    (hrow : row.supervisor = false) :
    s.port row named owner = State.record row named (owner.elim (refuse s .badOperand) fun f => f s) := by
  have hremote : ¬ (row.remote = true ∧ s.sp.localAuthority = true) := fun ⟨h, hlocal⟩ => by simp [hauthority h] at hlocal
  cases owner <;> simp [State.port, harmed, State.portAnswer, State.verifying, hverified, hremote, hrow]

/-! ### SELECT by its operands (R205) -/

/-- What SELECT leaves where it is accepted. -/
def State.selects (target : Target) (action : SwitchAction) (value : Nat) (s : State) : State :=
  { s with
    sp := { s.sp with
            frame := none, lastResult := some { code := 0x20, result := .accepted, value := value },
            selection := some { target := target, action := action }, selectionTimer := some 10000 } }

theorem State.commandSelect_notFitted (action : SwitchAction) (h : s.fitted k = false) :
    s.commandSelect (.feeder k) action = refuse s .notFitted := by
  simp [State.commandSelect, h]

theorem State.commandSelect_accepted (action : SwitchAction) (h : ∀ k, target = .feeder k → s.fitted k = true) :
    s.commandSelect target action =
      accept (s.modSp fun r => { r with selection := some { target := target, action := action }, selectionTimer := some 10000 }) := by
  cases target with
  | feeder k => simp [State.commandSelect, h k rfl]
  | rectifier => rfl

theorem exec_select_under_local (hrun : s.resetHeld = false) (harmed : s.sp.selArmed = true) (hverified : s.verification = none)
    (hlocal : s.sp.localAuthority = true) :
    exec (.select t a) s = .next (s.resulting 0x20 (.refused .authority) t.toNat) :=
  (taken_running _ hrun).trans (congrArg _ (State.port_under_local _ _ harmed hverified rfl hlocal))

section
variable (hrun : s.resetHeld = false) (harmed : s.sp.selArmed = true) (hverified : s.verification = none)
  (hremote : s.sp.localAuthority = false)
include hrun harmed hverified hremote

theorem exec_select_outside
    (houtside : ∀ target action, t.toNat = targetNumber target → a.toNat = actionNumber action → belongs target action = false) :
    exec (.select t a) s = .next (s.resulting 0x20 (.refused .badOperand) t.toNat) := by
  refine (taken_running _ hrun).trans ?_
  rw [State.port_judged _ _ harmed hverified (fun _ => hremote) rfl]
  split
  · next htarget haction =>
    rw [houtside _ _ (targetOperand_eq_some_iff.1 htarget) (actionOperand_eq_some_iff.1 haction)]
    rfl
  · rfl

theorem exec_select_belonging
    (htarget : t.toNat = targetNumber target) (haction : a.toNat = actionNumber action)
    (hbelongs : belongs target action = true) :
    exec (.select t a) s =
      .next (State.record { code := 0x20, waits := true, remote := true } (some t.toNat) (s.commandSelect target action)) := by
  refine (taken_running _ hrun).trans ?_
  rw [State.port_judged _ _ harmed hverified (fun _ => hremote) rfl, targetOperand_eq_some_iff.2 htarget,
    actionOperand_eq_some_iff.2 haction]
  simp [hbelongs]

theorem exec_select_notFitted
    (hfeeder : t.toNat = k.val) (haction : a.toNat ≤ 1) (hfitted : s.fitted k = false) :
    exec (.select t a) s = .next (s.resulting 0x20 (.refused .notFitted) t.toNat) := by
  obtain ⟨action, hnumber⟩ : ∃ action, a.toNat = actionNumber action := by
    obtain hzero | hone : a.toNat = 0 ∨ a.toNat = 1 := by omega
    · exact ⟨.opened, hzero⟩
    · exact ⟨.close, hone⟩
  have hbelongs : belongs (.feeder k) action = true := belongs_iff.2 (iff_of_true k.isLt (hnumber ▸ haction))
  rw [exec_select_belonging hrun harmed hverified hremote hfeeder hnumber hbelongs, State.commandSelect_notFitted action hfitted]
  rfl

theorem exec_select_accepted
    (htarget : t.toNat = targetNumber target) (haction : a.toNat = actionNumber action)
    (hbelongs : belongs target action = true) (hfitted : ∀ k, target = .feeder k → s.fitted k = true) :
    exec (.select t a) s = .next (s.selects target action t.toNat) := by
  rw [exec_select_belonging hrun harmed hverified hremote htarget haction hbelongs, State.commandSelect_accepted action hfitted]
  rfl

end

/-! ### The end of a selection (R205, R207) -/

theorem exec_selectionTimerExpiry (hrun : s.resetHeld = false) (htimer : s.sp.selectionTimer.isSome = true) :
    exec .selectionTimerExpiry s = .next (s.modSp dropSelection) :=
  (taken_running _ hrun).trans (congrArg _ (if_pos htimer))

/-- R207: neither authority nor a standing selection is asked for. -/
theorem exec_cancelSelection (hrun : s.resetHeld = false) (harmed : s.sp.selArmed = true) (hverified : s.verification = none) :
    exec .cancelSelection s = .next (State.record { code := 0x22 } none (accept (s.modSp dropSelection))) :=
  (taken_running _ hrun).trans
    (congrArg _ (State.port_judged _ _ harmed hverified (fun h => absurd h Bool.false_ne_true) rfl))

/-- Settles O22: each clause is one outcome of SELECT by the numbers that its operand bytes name, and `belongs_iff` tells which
numbers lie in the sets of R205. -/
theorem selectJudged : Obligations.SelectJudged := by
  unfold Obligations.SelectJudged
  intro s t a hrun harmed hverified
  refine ⟨exec_select_under_local hrun harmed hverified, fun hremote => ⟨?outside, ?notFitted, ?feeder, ?rectifier⟩,
    exec_selectionTimerExpiry hrun, exec_cancelSelection hrun harmed hverified⟩
  case outside =>
    intro hrange
    refine exec_select_outside hrun harmed hverified hremote fun target action htarget haction => ?_
    have := targetNumber_le target
    have := actionNumber_le action
    rw [Bool.eq_false_iff, ne_eq, belongs_iff]
    omega
  case notFitted =>
    intro k
    exact exec_select_notFitted hrun harmed hverified hremote
  case feeder =>
    intro k hfeeder hfitted
    have accepted {action} (haction : a.toNat = actionNumber action) (hbelongs : belongs (.feeder k) action = true) :=
      exec_select_accepted hrun harmed hverified hremote hfeeder haction hbelongs
    have fitted : ∀ j, Target.feeder k = .feeder j → s.fitted j = true := by
      rintro _ ⟨⟩
      exact hfitted
    exact ⟨fun haction => accepted haction rfl fitted, fun haction => accepted haction rfl fitted⟩
  case rectifier =>
    intro hrectifier
    have accepted {action} (haction : a.toNat = actionNumber action) (hbelongs : belongs .rectifier action = true) :=
      exec_select_accepted hrun harmed hverified hremote hrectifier haction hbelongs nofun
    exact ⟨fun haction => accepted haction rfl, fun haction => accepted haction rfl, fun haction => accepted haction rfl⟩

end Sys2Proof.Machine
end

section
/-! What every command answers, and what the laws of the records, the alert list, the levels and the retained area are read from:
each command either ends with the end of an event, or leaves all of that as it was, or is one of the four that write some of it. -/

namespace Sys2Proof.Machine

open Sys2Proof

variable {s t u : State} {c : Instr}

/-! ### Every command has a next state -/

/-- The commands by which a reset is taken or ends. -/
theorem touchesReset_iff : touchesReset c = true ↔ c = .powerOn ∨ c = .resetInput ∨ c = .resetInputRelease ∨ c = .restart := by
  cases c <;> simp [touchesReset]

theorem exec_next (c : Instr) (s : State) : ∃ t, exec c s = .next t := by
  cases c with
  | writeStaging offset count data =>
    show ∃ t, execWriteStaging offset count data s = .next t
    unfold execWriteStaging
    split
    · exact ⟨_, rfl⟩
    · exact ⟨_, rfl⟩
  | _ => exact ⟨_, rfl⟩

/-! ### What survives any write -/

/-- What no event writes: the queue, the fitted flags in use, and the station clock. -/
structure Untouched (s t : State) : Prop where
  queue : t.pending = s.pending
  fitted : t.store.cfg.fitted = s.store.cfg.fitted
  time : t.au.time = s.au.time
  notSet : t.au.timeNotSet = s.au.timeNotSet

theorem free_untouched (s : State) : Free (Untouched s) where
  engine _ _ _ _ h := ⟨h.queue, h.fitted, h.time, h.notSet⟩
  seq _ _ _ _ h := ⟨h.queue, h.fitted, h.time, h.notSet⟩
  rect _ _ _ h := ⟨h.queue, h.fitted, h.time, h.notSet⟩
  sec _ _ _ h := ⟨h.queue, h.fitted, h.time, h.notSet⟩
  table _ _ h := ⟨h.queue, h.fitted, h.time, h.notSet⟩
  link _ p _ _ h := by cases p <;> exact ⟨h.queue, h.fitted, h.time, h.notSet⟩
  point _ _ _ h := ⟨h.queue, h.fitted, h.time, h.notSet⟩
  bands _ _ h := ⟨h.queue, h.fitted, h.time, h.notSet⟩
  alerts _ h := ⟨h.queue, h.fitted, h.time, h.notSet⟩
  agenda _ _ h := ⟨h.queue, h.fitted, h.time, h.notSet⟩
  mi _ _ h := ⟨h.queue, h.fitted, h.time, h.notSet⟩
  latch _ _ h := ⟨h.queue, h.fitted, h.time, h.notSet⟩
  sp _ _ h := ⟨h.queue, h.fitted, h.time, h.notSet⟩
  verified _ h := ⟨h.queue, h.fitted, h.time, h.notSet⟩
  store _ _ e h := ⟨h.queue, e.trans h.fitted, h.time, h.notSet⟩

theorem free_alertLaw : Free AlertLaw where
  engine _ _ _ _ h := ⟨h.once, h.points⟩
  seq _ _ _ _ h := ⟨h.once, h.points⟩
  rect _ _ _ h := ⟨h.once, h.points⟩
  sec _ _ _ h := ⟨h.once, h.points⟩
  table _ _ h := ⟨h.once, h.points⟩
  link s p f _ h := by cases p <;> exact ⟨h.once, h.points⟩
  point _ p r h := h.putPoint p r
  bands _ _ h := ⟨h.once, h.points⟩
  alerts _ h := h.closeAlerts
  agenda _ _ h := ⟨h.once, h.points⟩
  mi _ _ h := ⟨h.once, h.points⟩
  latch _ _ h := ⟨h.once, h.points⟩
  sp _ _ h := ⟨h.once, h.points⟩
  verified _ h := ⟨h.once, h.points⟩
  store _ _ _ h := ⟨h.once, h.points⟩

theorem free_recordLaws : Free RecordLaws where
  engine s k f e h := ⟨fun j => by
    by_cases hj : j = k
    · subst hj; rw [State.modEngine_engine]; exact e (h.engines _)
    · rw [State.modEngine_engine_ne _ hj]; exact h.engines j, h.sequencers, h.rectifier, h.links⟩
  seq s k f e h := ⟨h.engines, fun j => by
    by_cases hj : j = k
    · subst hj; rw [State.modSeq_seq]; exact e (h.sequencers _)
    · rw [State.modSeq_seq_ne _ hj]; exact h.sequencers j, h.rectifier, h.links⟩
  rect s f e h := ⟨h.engines, h.sequencers, e h.rectifier, h.links⟩
  sec _ _ _ h := ⟨h.engines, h.sequencers, h.rectifier, h.links⟩
  table _ _ h := ⟨h.engines, h.sequencers, h.rectifier, h.links⟩
  link s p f e h := ⟨by cases p <;> exact h.engines, by cases p <;> exact h.sequencers, by cases p <;> exact h.rectifier,
    fun q => by
      by_cases hq : q = p
      · subst hq; rw [State.modLink_link]; exact e (h.links _)
      · rw [State.modLink_link_ne _ hq]; exact h.links q⟩
  point _ _ _ h := ⟨h.engines, h.sequencers, h.rectifier, h.links⟩
  bands _ _ h := ⟨h.engines, h.sequencers, h.rectifier, h.links⟩
  alerts _ h := ⟨h.engines, h.sequencers, h.rectifier, h.links⟩
  agenda _ _ h := ⟨h.engines, h.sequencers, h.rectifier, h.links⟩
  mi _ _ h := ⟨h.engines, h.sequencers, h.rectifier, h.links⟩
  latch _ _ h := ⟨h.engines, h.sequencers, h.rectifier, h.links⟩
  sp _ _ h := ⟨h.engines, h.sequencers, h.rectifier, h.links⟩
  verified _ h := ⟨h.engines, h.sequencers, h.rectifier, h.links⟩
  store _ _ _ h := ⟨h.engines, h.sequencers, h.rectifier, h.links⟩

/-- What survives any write survives every command that is neither a reset nor writes the clock. -/
theorem exec_free {P : State → Prop} (F : Free P) (hr : touchesReset c = false) (hk : touchesClock c = false)
    (h : exec c s = .next t) (hs : P s) : P t :=
  exec_lawful F.lawful (fun _ _ hs => F.endVerification hs) c hr hk h hs

/-- The commands that write the clock, resets apart: the tick, and SET TIME behind the checks of the port. -/
theorem exec_clock {P : State → Prop} (hr : touchesReset c = false) (h : exec c s = .next t)
    (hfree : touchesClock c = false → P t) (hs : P s) (htick : P s.tick)
    (hset : ∀ time, P (State.port { code := 0x42 } none (some fun s => accept (s.modAu fun a => { a with time := time, timeNotSet := false })) s)) :
    P t := by
  by_cases hk : touchesClock c = false
  · exact hfree hk
  · cases c <;> first | exact absurd rfl hk | skip
    case stationTimeTick => exact taken_keeps (P := P) (fun _ => htick) h hs
    case setTime time => exact taken_keeps (P := P) (fun _ => hset time) h hs

end Sys2Proof.Machine
end

section
/-! The part after a reset (R211): what the Settings Store loads from what it keeps (R195 to R198), the reset values of every block,
and which of them a WARM reset keeps. -/

namespace Sys2Proof.Machine

open Sys2Proof

variable {s t : State} {st : Store} {warm held : Bool}

/-! ### Tables -/

theorem vmap_get {α β : Type} {n : Nat} (v : Vector α n) (f : α → β) (i : Fin n) : (vmap v f).get i = f (v.get i) := by
  obtain ⟨⟨l⟩, h⟩ := v
  simp only [vmap, Vector.get, Vector.toList, List.getElem_toArray, List.getElem_map]
  rfl

theorem replicate_get {α : Type} {n : Nat} (a : α) (i : Fin n) : (Vector.replicate n a).get i = a := by
  simp [Vector.get]

/-- A table made from the list of all sections. -/
theorem sectionTable_get {α : Type} (f : SectionNo → α) (n : SectionNo) :
    (⟨⟨allSections.map f⟩, rfl⟩ : Vector α 7).get n = f n := by
  obtain ⟨i, hi⟩ := n
  match i, hi with
  | 0, _ | 1, _ | 2, _ | 3, _ | 4, _ | 5, _ | 6, _ => rfl

/-! ### Start-up loading (R195 to R198) -/

theorem Image.judged_valid_iff (i : Image) : i.judged.state = .valid ↔ i.good := by
  unfold Image.judged Image.good Image.sound
  split
  · next h => simp only [reduceCtorEq, false_iff]; grind
  · next h => grind

@[simp] theorem Image.judged_content (i : Image) : i.judged.content = i.content := by
  unfold Image.judged
  split <;> rfl

/-- What the store holds at a reset before it loads the configuration and the group: the staging buffer empty, no operation under
way, the retained copy taken over. -/
def Store.clearedFor (warm : Bool) (copy : Retained) (b0 b1 : Bank) (st : Store) : Store :=
  { st with
    staging := Vector.replicate 512 0, operation := none, eraseError := warm && st.eraseError,
    programError := warm && st.programError, retainedLost := (warm && st.retainedLost) || st.latestCopy.isNone,
    active := copy.active, lock := copy.lock, bank0 := b0, bank1 := b1 }

theorem Store.loadRetained_eq (st : Store) : ∃ b0 b1,
    st.loadRetained =
      ({ st with retainedLost := st.retainedLost || st.latestCopy.isNone, bank0 := b0, bank1 := b1 },
        st.latestCopy.getD lostRetained) := by
  unfold Store.loadRetained
  cases st.latestCopy with
  | none => exact ⟨_, _, by simp only [Option.isNone_none, Bool.or_true, Option.getD_none]; rfl⟩
  | some copy => exact ⟨st.bank0, st.bank1, by simp⟩

theorem Store.restarted_eq (warm : Bool) (st : Store) : ∃ b0 b1,
    st.restarted warm =
      ((st.clearedFor warm (st.latestCopy.getD lostRetained) b0 b1).loadConfig.loadGroup, st.latestCopy.getD lostRetained) := by
  obtain ⟨b0, b1, h⟩ := Store.loadRetained_eq { st with
    staging := Vector.replicate 512 0, operation := none, eraseError := warm && st.eraseError,
    programError := warm && st.programError, retainedLost := warm && st.retainedLost }
  exact ⟨b0, b1, by simp only [Store.restarted, h]; rfl⟩

theorem Store.restarted_copy (warm : Bool) (st : Store) : (st.restarted warm).2 = st.latestCopy.getD lostRetained := by
  obtain ⟨b0, b1, h⟩ := st.restarted_eq warm
  rw [h]

theorem Store.loadConfig_good (h : st.config.good) :
    st.loadConfig =
      { st with config := st.config.judged, fittedPending := false, cfg := readConfig st.config.content, configFault := false } := by
  unfold Store.loadConfig
  simp [(Image.judged_valid_iff _).2 h]

theorem Store.loadConfig_fallback (h : ¬ st.config.good) :
    st.loadConfig = { st with config := st.config.judged, fittedPending := false, cfg := factoryConfig, configFault := true } := by
  unfold Store.loadConfig
  simp [show st.config.judged.state ≠ .valid from fun e => h ((Image.judged_valid_iff _).1 e)]

theorem Store.loadConfig_frame (st : Store) : ∃ cfg fault, st.loadConfig =
    { st with config := st.config.judged, fittedPending := false, cfg := cfg, configFault := fault } := by
  by_cases h : st.config.good
  · exact ⟨_, _, st.loadConfig_good h⟩
  · exact ⟨_, _, st.loadConfig_fallback h⟩

theorem Store.loadGroup_good (h : (st.groups.get st.active).good) :
    st.loadGroup =
      { st with
        groups := st.groups.set st.active (st.groups.get st.active).judged,
        inUse := readGroup (st.groups.get st.active).content, factoryInUse := false } := by
  unfold Store.loadGroup
  simp [(Image.judged_valid_iff _).2 h]

theorem Store.loadGroup_factory (h : ¬ (st.groups.get st.active).good) :
    st.loadGroup =
      { st with
        groups := st.groups.set st.active (st.groups.get st.active).judged, inUse := factoryGroup, factoryInUse := true } := by
  unfold Store.loadGroup
  simp [show (st.groups.get st.active).judged.state ≠ .valid from fun e => h ((Image.judged_valid_iff _).1 e)]

theorem Store.loadGroup_frame (st : Store) : ∃ set factory, st.loadGroup =
    { st with
      groups := st.groups.set st.active (st.groups.get st.active).judged, inUse := set, factoryInUse := factory } := by
  by_cases h : (st.groups.get st.active).good
  · exact ⟨_, _, st.loadGroup_good h⟩
  · exact ⟨_, _, st.loadGroup_factory h⟩

/-! ### What a reset leaves -/

/-- What a reset writes behind the values of `State.afterReset`: the close permissions of the sections, the pulse of a retained area
found lost, and the banks of that area. -/
structure ResetTo (a t : State) : Prop where
  rest : t = { a with
    sections := t.sections
    au := { a.au with points := t.au.points }
    store := { a.store with bank0 := t.store.bank0, bank1 := t.store.bank1 } }
  sec : ∀ n, t.sec n = { a.sec n with bars := a.barsOf n }
  point : ∀ p, t.point p = { a.point p with gathered := (t.point p).gathered }
  retained : RetainedLaw t

theorem State.pulse_gathering (hv : s.verifying = true) (p : PointNo) :
    s.pulse p = { s with au := { s.au with points := (s.pulse p).au.points } } ∧
      ∀ q, (s.pulse p).point q = { s.point q with gathered := ((s.pulse p).point q).gathered } := by
  unfold State.pulse
  dsimp only
  by_cases hm : s.masked p = true
  · rw [if_pos hm]
    exact ⟨rfl, fun _ => rfl⟩
  · rw [if_neg hm, if_pos hv]
    refine ⟨by simp [State.putPoint, State.modAu, State.point], fun q => ?_⟩
    by_cases hq : q = p
    · subst hq; simp
    · simp [State.putPoint_point_ne _ hq]

/-- What a reset has written before the retained area is: the permissions, and the pulse of an area found lost. -/
def State.settledReset (lost : Bool) (a : State) : State :=
  if lost then a.deriveAllBars.pulse 61 else a.deriveAllBars

theorem State.takeReset_eq (warm held : Bool) (s : State) :
    s.takeReset warm held = ((s.afterReset warm held).settledReset s.retainedGone).writeRetained := rfl

theorem State.settledReset_to (lost : Bool) (a : State) (hv : a.verifying = true) :
    a.settledReset lost = { a with
      sections := a.deriveAllBars.sections
      au := { a.au with points := (a.settledReset lost).au.points } } ∧
    ∀ p, (a.settledReset lost).point p = { a.point p with gathered := ((a.settledReset lost).point p).gathered } := by
  obtain ⟨_, _, v, hd⟩ := deriveAllBars_sec a 0
  unfold State.settledReset
  cases lost with
  | false => rw [hd]; exact ⟨rfl, fun _ => rfl⟩
  | true =>
    obtain ⟨hrest, hpoint⟩ := State.pulse_gathering (s := a.deriveAllBars) (by rw [hd]; exact hv) 61
    simp only [if_true]
    refine ⟨?_, fun p => ?_⟩
    · conv => lhs; rw [hrest]
      rw [hd]
    · rw [hpoint p, show a.deriveAllBars.point p = a.point p by rw [hd]; rfl]

theorem State.afterReset_verifying (warm held : Bool) (s : State) : (s.afterReset warm held).verifying = true := by
  unfold State.verifying State.afterReset
  rfl

theorem settledReset_resetTo (lost : Bool) (a : State) (hv : a.verifying = true) :
    ResetTo a (a.settledReset lost).writeRetained := by
  obtain ⟨hrest, hpoint⟩ := State.settledReset_to lost a hv
  generalize a.settledReset lost = u at *
  have hw := State.writeRetained_eq u
  exact {
    rest := by
      rw [hw, hrest]
    sec := fun n => by
      have hsections : u.writeRetained.sections = a.deriveAllBars.sections :=
        by rw [State.writeRetained_sections, hrest]
      rw [← (deriveAllBars_sec a n).1, State.sec, hsections, State.sec]
    point := fun p => by
      rw [State.point, State.writeRetained_au]
      exact hpoint p
    retained := State.writeRetained_law u }

theorem takeReset_to (warm held : Bool) (s : State) : ResetTo (s.afterReset warm held) (s.takeReset warm held) :=
  settledReset_resetTo s.retainedGone _ (s.afterReset_verifying warm held)

namespace ResetTo

variable {a : State} (h : ResetTo a t)

include h

theorem mi : t.mi = a.mi := by rw [h.rest]
theorem engines : t.engines = a.engines := by rw [h.rest]
theorem seqs : t.seqs = a.seqs := by rw [h.rest]
theorem backupLatch : t.backupLatch = a.backupLatch := by rw [h.rest]
theorem rect : t.rect = a.rect := by rw [h.rest]
theorem ht : t.ht = a.ht := by rw [h.rest]
theorem linkA : t.linkA = a.linkA := by rw [h.rest]
theorem linkB : t.linkB = a.linkB := by rw [h.rest]
theorem sp : t.sp = a.sp := by rw [h.rest]
theorem resetHeld : t.resetHeld = a.resetHeld := by rw [h.rest]
theorem verification : t.verification = a.verification := by rw [h.rest]
theorem agenda : t.agenda = a.agenda := by rw [h.rest]
theorem pending : t.pending = a.pending := by rw [h.rest]
theorem au : t.au = { a.au with points := t.au.points } := by rw [h.rest]
theorem store : t.store = { a.store with bank0 := t.store.bank0, bank1 := t.store.bank1 } := by rw [h.rest]

theorem cfg : t.store.cfg = a.store.cfg := by rw [h.store]
theorem inUse : t.store.inUse = a.store.inUse := by rw [h.store]
theorem fitted (k : FeederNo) : t.fitted k = a.fitted k := by rw [State.fitted, h.cfg, State.fitted]
theorem share (k : FeederNo) : t.share k = a.share k := by rw [State.share, h.cfg, State.share]
theorem feederSettings (k : FeederNo) : t.feederSettings k = a.feederSettings k := by
  rw [State.feederSettings, h.inUse, State.feederSettings]
theorem groupSource : t.groupSource = a.groupSource := by
  have factory : t.store.factoryInUse = a.store.factoryInUse := by rw [h.store]
  have active : t.store.active = a.store.active := by rw [h.store]
  rw [State.groupSource, factory, active, State.groupSource]

end ResetTo

/-! ### The reset values of every block (R211) -/

/-- The store that a reset loads. -/
def State.loadedStore (warm : Bool) (s : State) : Store := (s.store.restarted warm).1

/-- The retained copy that a reset loads. -/
def State.loadedCopy (s : State) : Retained := s.store.latestCopy.getD lostRetained

theorem State.afterReset_ht (warm held : Bool) (s : State) :
    (s.afterReset warm held).ht = settledTable s.loadedCopy.holds s.loadedCopy.lastId := by
  have h : (s.afterReset warm held).ht =
      settledTable (s.store.restarted warm).2.holds (s.store.restarted warm).2.lastId := rfl
  rw [h, Store.restarted_copy, State.loadedCopy]

theorem State.afterReset_store (warm held : Bool) (s : State) : (s.afterReset warm held).store = s.loadedStore warm := rfl

theorem startingSection_line (cfg : ConfigRec) (holds : List Hold) (k : FeederNo) :
    startingSection cfg holds (sectionOf k) =
      { recount holds (sectionOf k) (initialSection (cfg.share.get k).isSome) with
        commandedClosed := cfg.fitted.get k &&
          decide ((recount holds (sectionOf k) (initialSection (cfg.share.get k).isSome)).earth ≠ 0) } := by
  unfold startingSection
  rw [feederOf_sectionOf]

theorem startingSection_bus (cfg : ConfigRec) (holds : List Hold) :
    startingSection cfg holds busSection = recount holds busSection (initialSection false) := rfl

theorem State.afterReset_sec (warm held : Bool) (s : State) (n : SectionNo) :
    (s.afterReset warm held).sec n =
      startingSection (s.loadedStore warm).cfg (settledTable s.loadedCopy.holds s.loadedCopy.lastId).holds n := by
  rw [← State.afterReset_ht warm held]
  exact sectionTable_get _ n

end Sys2Proof.Machine
end

section
/-! What a reset leaves in every block (R211), and which items a WARM reset keeps (R71, R94, R168, R198, R212). -/

namespace Sys2Proof.Machine

open Sys2Proof

variable {s t : State} {warm held : Bool}

/-! ### The reset values of the sections (R111) -/

/-- A starting section is an initial one but for its counts and the commanded state of its switch. -/
theorem startingSection_eq (cfg : ConfigRec) (holds : List Hold) (n : SectionNo) :
    ∃ shared closed, startingSection cfg holds n =
      { recount holds n (initialSection shared) with commandedClosed := closed } := by
  obtain rfl | ⟨k, rfl⟩ := sectionOf_or_bus n
  · exact ⟨false, false, startingSection_bus cfg holds⟩
  · exact ⟨_, _, startingSection_line cfg holds k⟩

theorem recount_counts (holds : List Hold) (n : SectionNo) (r q : SectionRec) :
    (recount holds n r).isolate = (recount holds n q).isolate ∧ (recount holds n r).earth = (recount holds n q).earth ∧
      (recount holds n r).noreclose = (recount holds n q).noreclose := ⟨rfl, rfl, rfl⟩

section

variable (h : ResetTo (s.afterReset warm held) t)

include h

theorem ResetTo.sec_eq (n : SectionNo) : ∃ shared closed bars, t.sec n =
    { recount t.ht.holds n (initialSection shared) with commandedClosed := closed, bars := bars } := by
  rw [h.sec n, h.ht, State.afterReset_ht, State.afterReset_sec]
  obtain ⟨shared, closed, e⟩ := startingSection_eq (s.loadedStore warm).cfg (settledTable s.loadedCopy.holds s.loadedCopy.lastId).holds n
  rw [e]
  exact ⟨shared, closed, _, rfl⟩

theorem ResetTo.line_eq (k : FeederNo) : ∃ bars, t.sec (sectionOf k) =
    { recount t.ht.holds (sectionOf k) (initialSection (t.share k).isSome) with
      commandedClosed := t.fitted k && decide ((recount t.ht.holds (sectionOf k) (initialSection (t.share k).isSome)).earth ≠ 0)
      bars := bars } := by
  have hcfg : t.store.cfg = (s.loadedStore warm).cfg := h.cfg
  refine ⟨(s.afterReset warm held).barsOf (sectionOf k), ?_⟩
  rw [h.sec, h.ht, State.afterReset_ht, State.afterReset_sec, startingSection_line, State.fitted, State.share, hcfg]

theorem ResetTo.engine_eq (k : FeederNo) : t.engine k = initialEngine (t.feederSettings k) t.groupSource := by
  rw [State.engine, h.engines, h.feederSettings, h.groupSource]
  exact vmap_get _ _ k

theorem ResetTo.seq_eq (k : FeederNo) : t.seq k =
    if warm then initialSequencer (s.seq k).trips (s.seq k).first (s.seq k).last else initialSequencer 0 none none := by
  rw [State.seq, h.seqs]
  exact vmap_get _ _ k

theorem ResetTo.rect_eq : t.rect =
    initialRectifier t.store.inUse.rect t.store.cfg.alphaMax (if warm then s.rect.dips else 0) := by
  rw [h.rect, h.inUse, h.cfg]
  rfl

theorem ResetTo.link_eq (p : Port) : t.link p =
    initialLink (t.store.cfg.port p).used (if warm then (s.link p).errors else 0) := by
  rw [h.cfg]
  cases p with
  | a => exact h.linkA
  | b => exact h.linkB

theorem ResetTo.sp_eq : t.sp = initialPort (if warm then s.sp.frameErrors else 0) := h.sp

theorem ResetTo.pair_eq (p : PairId) : t.pair p = initialPair := by
  rw [State.pair, h.mi]
  exact replicate_get _ _

theorem ResetTo.input_eq (i : InputId) : t.input i = initialInput (s.input i).raw := by
  rw [State.input, h.mi]
  exact vmap_get _ _ _

theorem ResetTo.point_eq (p : PointNo) : t.point p = { initialPoint with gathered := (t.point p).gathered } := by
  have e : (s.afterReset warm held).point p = initialPoint := replicate_get _ p
  rw [h.point p, e]

end

/-- What the loading of the store leaves of it, the groups and the configuration apart. -/
structure LoadedFrom (warm : Bool) (s : State) (st : Store) : Prop where
  staging : st.staging = Vector.replicate 512 0
  operation : st.operation = none
  fittedPending : st.fittedPending = false
  eraseError : st.eraseError = (warm && s.store.eraseError)
  programError : st.programError = (warm && s.store.programError)
  retainedLost : st.retainedLost = ((warm && s.store.retainedLost) || s.store.latestCopy.isNone)
  active : st.active = s.loadedCopy.active
  lock : st.lock = s.loadedCopy.lock

theorem State.loadedStore_loadedFrom (warm : Bool) (s : State) : LoadedFrom warm s (s.loadedStore warm) := by
  obtain ⟨b0, b1, e⟩ := s.store.restarted_eq warm
  obtain ⟨cfg, fault, hcfg⟩ := (s.store.clearedFor warm s.loadedCopy b0 b1).loadConfig_frame
  obtain ⟨set, factory, hgroup⟩ := ((s.store.clearedFor warm s.loadedCopy b0 b1).loadConfig).loadGroup_frame
  rw [State.loadedStore, e, ← State.loadedCopy, hgroup, hcfg]
  exact ⟨rfl, rfl, rfl, rfl, rfl, rfl, rfl, rfl⟩

theorem ResetTo.loaded (h : ResetTo (s.afterReset warm held) t) : LoadedFrom warm s t.store := by
  obtain ⟨h1, h2, h3, h4, h5, h6, h7, h8⟩ := s.loadedStore_loadedFrom warm
  rw [h.store]
  exact ⟨h1, h2, h3, h4, h5, h6, h7, h8⟩

/-! ### Every block at its reset values -/

theorem ResetTo.freshlyReset (h : ResetTo (s.afterReset warm held) t) : FreshlyReset t where
  channels c := by rw [State.channel, h.mi]; exact replicate_get _ c
  reception := by rw [h.mi]; rfl
  inputs i := by rw [h.input_eq]; exact ⟨rfl, rfl⟩
  pairs := h.pair_eq
  engines := h.engine_eq
  sequencers k := by rw [h.seq_eq]; cases warm <;> rfl
  latch := h.backupLatch
  rectifier := by
    have e := h.rect_eq
    rw [e]
    rfl
  energisation n := by obtain ⟨_, _, _, e⟩ := h.sec_eq n; rw [e]; exact ⟨rfl, rfl⟩
  earthSwitches n := by obtain ⟨_, _, _, e⟩ := h.sec_eq n; rw [e]; exact ⟨rfl, rfl, rfl⟩
  neighbours k := by obtain ⟨_, e⟩ := h.line_eq k; rw [e]; rfl
  wanted n := by obtain ⟨_, _, _, e⟩ := h.sec_eq n; rw [e]; rfl
  commanded k := by obtain ⟨_, e⟩ := h.line_eq k; rw [e]
  counts n := by obtain ⟨_, _, _, e⟩ := h.sec_eq n; rw [e]; exact ⟨rfl, rfl, rfl⟩
  links p := by rw [h.link_eq]; rfl
  points p := by rw [h.point_eq]; exact ⟨rfl, rfl, rfl, rfl⟩
  alerts := by rw [h.au]; exact ⟨rfl, rfl⟩
  bands b := by rw [h.au]; exact replicate_get _ b
  clock := by rw [h.au]; exact ⟨rfl, rfl⟩
  staging i := by rw [h.loaded.staging]; exact replicate_get _ i
  operation := ⟨h.loaded.operation, h.loaded.fittedPending⟩
  port := by rw [h.sp_eq]; rfl
  verification := h.verification
  agenda := h.agenda

theorem ResetTo.countersClear (h : ResetTo (s.afterReset false held) t) : CountersClear t where
  trips k := by rw [h.seq_eq]; exact ⟨rfl, rfl, rfl⟩
  dips := by rw [h.rect_eq]; rfl
  errors p := by rw [h.link_eq]; rfl
  frames := by rw [h.sp_eq]; rfl
  bits := ⟨h.loaded.eraseError, h.loaded.programError⟩

theorem ResetTo.countersKept (h : ResetTo (s.afterReset true held) t) : CountersKept s t where
  trips k := by rw [h.seq_eq]; exact ⟨rfl, rfl, rfl⟩
  dips := by rw [h.rect_eq]; rfl
  errors p := by rw [h.link_eq]; rfl
  frames := by rw [h.sp_eq]; rfl
  bits := ⟨h.loaded.eraseError, h.loaded.programError⟩

/-! ### What the part loads (R195 to R198, R144) -/

/-- R195: the configuration that a reset loads. -/
theorem Store.loadConfig_use (st : Store) :
    (st.config.good → st.loadConfig.cfg = readConfig st.config.content ∧ st.loadConfig.configFault = false) ∧
      (¬ st.config.good → st.loadConfig.cfg = factoryConfig ∧ st.loadConfig.configFault = true) :=
  ⟨fun h => by rw [st.loadConfig_good h]; exact ⟨rfl, rfl⟩, fun h => by rw [st.loadConfig_fallback h]; exact ⟨rfl, rfl⟩⟩

/-- R196: the group that a reset loads. -/
theorem Store.loadGroup_use (st : Store) :
    ((st.groups.get st.active).good →
      st.loadGroup.inUse = readGroup (st.groups.get st.active).content ∧ st.loadGroup.factoryInUse = false) ∧
      (¬ (st.groups.get st.active).good → st.loadGroup.inUse = factoryGroup ∧ st.loadGroup.factoryInUse = true) :=
  ⟨fun h => by rw [st.loadGroup_good h]; exact ⟨rfl, rfl⟩, fun h => by rw [st.loadGroup_factory h]; exact ⟨rfl, rfl⟩⟩

/-- R196: a bad image of the active group becomes INVALID; no content changes. -/
theorem Store.loadGroup_content (st : Store) (g : GroupNo) :
    (st.loadGroup.groups.get g).content = (st.groups.get g).content := by
  obtain ⟨set, factory, h⟩ := st.loadGroup_frame
  rw [h]
  by_cases hg : g = st.active
  · subst hg; rw [vget_set]; simp
  · rw [vget_set]; simp [Ne.symm hg]

/-- What a loaded store has taken into use, read off the store `x` as it stood after the clearing of a reset. -/
theorem State.loadedStore_eq (warm : Bool) (s : State) : ∃ x : Store,
    s.loadedStore warm = x.loadConfig.loadGroup ∧ x.groups = s.store.groups ∧ x.config = s.store.config ∧
      x.active = s.loadedCopy.active := by
  obtain ⟨b0, b1, e⟩ := s.store.restarted_eq warm
  refine ⟨s.store.clearedFor warm s.loadedCopy b0 b1, ?_, rfl, rfl, rfl⟩
  rw [State.loadedStore, e, ← State.loadedCopy]

theorem State.loadedStore_uses (warm : Bool) (s : State) {st : Store} (hst : st = s.loadedStore warm) :
    (s.store.config.good → st.cfg = readConfig s.store.config.content ∧ st.configFault = false) ∧
    (¬ s.store.config.good → st.cfg = factoryConfig ∧ st.configFault = true) ∧
    ((s.store.groups.get s.loadedCopy.active).good →
      st.inUse = readGroup (s.store.groups.get s.loadedCopy.active).content ∧ st.factoryInUse = false) ∧
    (¬ (s.store.groups.get s.loadedCopy.active).good → st.inUse = factoryGroup ∧ st.factoryInUse = true) ∧
    (∀ g, (st.groups.get g).content = (s.store.groups.get g).content) ∧
    st.config.content = s.store.config.content := by
  obtain ⟨x, hx, hgroups, hconfig, hactive⟩ := s.loadedStore_eq warm
  subst hst
  rw [hx, ← hgroups, ← hconfig, ← hactive]
  obtain ⟨cfg, fault, hcfg⟩ := x.loadConfig_frame
  obtain ⟨set, factory, hgroup⟩ := x.loadConfig.loadGroup_frame
  have same : x.loadConfig.groups = x.groups ∧ x.loadConfig.active = x.active := by rw [hcfg]; exact ⟨rfl, rfl⟩
  have kept : x.loadConfig.loadGroup.cfg = x.loadConfig.cfg ∧ x.loadConfig.loadGroup.configFault = x.loadConfig.configFault ∧
      x.loadConfig.loadGroup.config = x.loadConfig.config := by rw [hgroup]; exact ⟨rfl, rfl, rfl⟩
  obtain ⟨hc, hf, hi⟩ := kept
  obtain ⟨good, bad⟩ := x.loadConfig_use
  obtain ⟨goodGroup, badGroup⟩ := x.loadConfig.loadGroup_use
  rw [same.1, same.2] at goodGroup badGroup
  rw [hc, hf, hi]
  refine ⟨good, bad, goodGroup, badGroup, fun g => ?_, ?_⟩
  · rw [Store.loadGroup_content, same.1]
  · rw [hcfg]; exact Image.judged_content _

theorem ResetTo.loads (h : ResetTo (s.afterReset warm held) t) : Loaded s t := by
  have hfrom := h.loaded
  have hht : t.ht = settledTable s.loadedCopy.holds s.loadedCopy.lastId := h.ht.trans (State.afterReset_ht warm held s)
  have hstore : t.store = { s.loadedStore warm with bank0 := t.store.bank0, bank1 := t.store.bank1 } := h.store
  obtain ⟨good, bad, goodGroup, badGroup, contents, content⟩ := s.loadedStore_uses warm rfl
  exact {
    retained := fun kept hkept => by
      have hcopy : s.loadedCopy = kept := by rw [State.loadedCopy, hkept]; rfl
      rw [hfrom.active, hfrom.lock, hht, hcopy]
      exact ⟨rfl, rfl, rfl, rfl⟩
    lost := fun hlost => by
      have hcopy : s.loadedCopy = lostRetained := by rw [State.loadedCopy, hlost]; rfl
      rw [hfrom.active, hfrom.lock, hfrom.retainedLost, hht, hcopy, hlost]
      exact ⟨rfl, rfl, rfl, rfl, Bool.or_true _⟩
    config := by rw [hstore]; exact good
    fallback := by rw [hstore]; exact bad
    group := by rw [hfrom.active, hstore]; exact goodGroup
    factory := by rw [hfrom.active, hstore]; exact badGroup
    contents := by rw [hstore]; exact ⟨contents, content⟩ }

/-! ### The resets (R211) -/

theorem takeReset_raw (warm held : Bool) (s : State) (i : InputId) : ((s.takeReset warm held).input i).raw = (s.input i).raw := by
  rw [(takeReset_to warm held s).input_eq]
  rfl

theorem takeReset_pending (warm held : Bool) (s : State) : (s.takeReset warm held).pending = s.pending :=
  (takeReset_to warm held s).pending

theorem takeReset_resetHeld (warm held : Bool) (s : State) : (s.takeReset warm held).resetHeld = held :=
  (takeReset_to warm held s).resetHeld

/-- Settles O4: a POWER-ON reset is taken with nothing kept but what the store and the pins hold. -/
theorem powerOnReset : Obligations.PowerOnReset := by
  intro s
  have h := takeReset_to false false s
  exact ⟨s.takeReset false false, rfl, h.freshlyReset, h.countersClear, h.loads, h.resetHeld, takeReset_raw _ _ s,
    takeReset_pending _ _ s⟩

/-- Settles O5: RESET_INPUT takes a WARM reset that holds the part; the release writes the holding alone. -/
theorem warmReset : Obligations.WarmReset := by
  intro s
  have h := takeReset_to true true s
  exact ⟨⟨s.takeReset true true, rfl, h.freshlyReset, h.countersKept, h.loads, h.resetHeld, takeReset_raw _ _ s,
    takeReset_pending _ _ s⟩, rfl⟩

/-! ### RESTART (R204, R211) -/

theorem State.portRestart_local (ha : s.sp.selArmed = true) (hl : s.sp.localAuthority = true) :
    s.portRestart = s.refusing 0x5F .authority := by
  simp [State.portRestart, ha, State.portAnswer, hl, refuse, State.record, State.modSp, State.refusing, State.resulting]

theorem State.portRestart_disabled (ha : s.sp.selArmed = true) (hl : s.sp.localAuthority = false)
    (hd : s.store.cfg.restartEnable = false) : s.portRestart = s.refusing 0x5F .disabled := by
  simp [State.portRestart, ha, State.portAnswer, hl, State.commandRestart, hd, refuse, State.record, State.modSp,
    State.refusing, State.resulting]

/-- The acceptance is written before the reset clears it. -/
theorem State.portRestart_taken (ha : s.sp.selArmed = true) (hl : s.sp.localAuthority = false)
    (he : s.store.cfg.restartEnable = true) : s.portRestart = (s.resulting 0x5F .accepted 0).takeReset true false := by
  simp [State.portRestart, ha, State.portAnswer, hl, State.commandRestart, he, accept, State.record, State.modSp,
    State.resulting]

/-- Settles O6: the two refusals come from the port's checks and the owner's; the accepted case is a WARM reset of the part with
the acceptance written, which changes nothing that a reset keeps. -/
theorem restartJudged : Obligations.RestartJudged := by
  intro s hrun harmed
  have taken : exec .restart s = .next s.portRestart := taken_running _ hrun
  rw [taken]
  refine ⟨fun hl => by rw [State.portRestart_local harmed hl], fun hl hd => by rw [State.portRestart_disabled harmed hl hd],
    fun hl he => ⟨_, rfl, ?_⟩⟩
  rw [State.portRestart_taken harmed hl he]
  have h := takeReset_to true false (s.resulting 0x5F .accepted 0)
  obtain ⟨trips, dips, errors, frames, bits⟩ := h.countersKept
  obtain ⟨retained, lost, config, fallback, group, factory, contents⟩ := h.loads
  exact ⟨h.freshlyReset, ⟨trips, dips, fun p => by rw [errors]; cases p <;> rfl, frames, bits⟩,
    ⟨retained, lost, config, fallback, group, factory, contents⟩, h.resetHeld, takeReset_raw _ _ _, takeReset_pending _ _ _⟩

end Sys2Proof.Machine
end

section
/-! What every command leaves of the laws of the alert list, of the levels and of the retained area: an event ends with the end of an
event, which makes them hold; every other command writes nothing that they are read from, or ends with the part of the end of an
event that follows what it writes. -/

namespace Sys2Proof.Machine

open Sys2Proof

variable {s t u : State} {c : Instr}

/-! ### The end of an event changes nothing where the laws hold (R169, R174, R197) -/

theorem State.setLevel_same {p : PointNo} {l : Bool} (h : (s.point p).condition = l) : s.setLevel p l = s := by
  unfold State.setLevel
  exact if_pos h

theorem State.syncLevels_same (h : LevelLaw s) : s.syncLevels = s := by
  unfold State.syncLevels
  split
  · rfl
  · next hv =>
    have hlevel := h (by simpa [State.verifying] using hv)
    exact List.foldlRecOn (motive := fun t => t = s) allPoints _ rfl
      fun t ht p _ => by rw [ht]; exact State.setLevel_same (hlevel p)

theorem State.closeAlerts_same (h : AttnLaw s) : s.closeAlerts = s := by
  obtain ⟨hjoining, hattn⟩ := h
  unfold State.closeAlerts State.modAu
  dsimp only
  rw [hjoining, List.append_nil, ← hattn, ← hjoining]

theorem State.finish_same (hl : LevelLaw s) (ha : AttnLaw s) (hr : RetainedLaw s) : s.finish = s := by
  unfold State.finish
  rw [State.syncLevels_same hl, State.closeAlerts_same ha, State.writeRetained_same s hr]

/-- Settles O7. -/
theorem eventEnd : Obligations.EventEnd := fun s =>
  ⟨s.finish_only, s.finish_level, s.finish_attn, s.finish_retained, AlertLaw.finish, State.finish_same⟩

/-! ### What the levels are read from (R178) -/

/-- Two states that show the same level on every point. -/
structure LevelsAlike (s t : State) : Prop where
  channels : t.mi.channels = s.mi.channels
  mismatched : t.mi.mismatch = s.mi.mismatch
  engines : t.engines = s.engines
  sequencers : ∀ k, (t.seq k).state = (s.seq k).state ∧ (t.seq k).wait = (s.seq k).wait
  rectifier : t.rect.state = s.rect.state ∧ t.rect.bridge1 = s.rect.bridge1 ∧ t.rect.bridge2 = s.rect.bridge2
  sections : ∀ n, (t.sec n).mismatch = (s.sec n).mismatch
  links : ∀ p, (t.link p).state = (s.link p).state
  bands : t.au.bands = s.au.bands
  store : t.store.factoryInUse = s.store.factoryInUse ∧ t.store.configFault = s.store.configFault ∧
    t.store.fittedPending = s.store.fittedPending ∧ t.store.inUse = s.store.inUse
  authority : t.sp.localAuthority = s.sp.localAuthority

theorem LevelsAlike.levelOf (h : LevelsAlike s t) (p : PointNo) : t.levelOf p = s.levelOf p := by
  obtain ⟨hch, hmis, heng, hseq, ⟨hrect, hb1, hb2⟩, hsec, hlink, hbands, ⟨hfac, hcf, hfp, huse⟩, hauth⟩ := h
  have hA : t.linkA.state = s.linkA.state := hlink .a
  have hB : t.linkB.state = s.linkB.state := hlink .b
  have hc : ∀ c, t.channel c = s.channel c := fun c => by rw [State.channel, hch, State.channel]
  have he : ∀ k, t.engine k = s.engine k := fun k => by rw [State.engine, heng, State.engine]
  simp only [State.levelOf, State.feederLevel, State.seqIn, State.chFailed, State.tempWarning, State.configPoint, hc, he, hmis,
    (hseq _).1, (hseq _).2, hrect, hb1, hb2, hsec, hA, hB, hbands, hfac, hcf, hfp, huse, hauth]

theorem LevelsAlike.rfl : LevelsAlike s s :=
  ⟨Eq.refl _, Eq.refl _, Eq.refl _, fun _ => ⟨Eq.refl _, Eq.refl _⟩, ⟨Eq.refl _, Eq.refl _, Eq.refl _⟩, fun _ => Eq.refl _,
    fun _ => Eq.refl _, Eq.refl _, ⟨Eq.refl _, Eq.refl _, Eq.refl _, Eq.refl _⟩, Eq.refl _⟩

/-! ### The three laws together -/

/-- The laws of the levels, of ATTN and of the retained area, kept from one state to another. -/
structure Settled (s t : State) : Prop where
  level : LevelLaw s → LevelLaw t
  attn : AttnLaw s → AttnLaw t
  retained : RetainedLaw s → RetainedLaw t

theorem Settled.refl (s : State) : Settled s s := ⟨id, id, id⟩

theorem Settled.trans (h : Settled s t) (g : Settled t u) : Settled s u :=
  ⟨g.level ∘ h.level, g.attn ∘ h.attn, g.retained ∘ h.retained⟩

theorem Settled.finish (s u : State) : Settled s u.finish :=
  ⟨fun _ => u.finish_level, fun _ => u.finish_attn, fun _ => u.finish_retained⟩

theorem Settled.event (f : State → State) (s : State) : Settled s (s.event f) := .finish _ _

theorem LevelLaw.congr (h : LevelLaw s) (hp : ∀ p, (t.point p).condition = (s.point p).condition) (hl : LevelsAlike s t)
    (hv : t.verification = none → s.verification = none) : LevelLaw t := fun v p => by
  rw [hp, hl.levelOf, h (hv v)]

theorem RetainedLaw.congr (h : RetainedLaw s) (hview : t.retainedView = s.retainedView)
    (hbanks : t.store.bank0 = s.store.bank0 ∧ t.store.bank1 = s.store.bank1) : RetainedLaw t := by
  unfold RetainedLaw Store.latestCopy Store.latest at *
  rw [hbanks.1, hbanks.2, hview, h]

/-- A write that leaves the points, what their levels are read from, and what the retained area keeps. -/
theorem Settled.of_still (hau : t.au = s.au) (hl : LevelsAlike s t) (hv : t.verification = none → s.verification = none)
    (hview : t.retainedView = s.retainedView)
    (hbanks : t.store.bank0 = s.store.bank0 ∧ t.store.bank1 = s.store.bank1) : Settled s t where
  level h := h.congr (fun p => by rw [State.point, hau, State.point]) hl hv
  attn h := by unfold AttnLaw at *; rwa [hau]
  retained h := h.congr hview hbanks

theorem Settled.modSp (s : State) (f : StationPort → StationPort) (h : (f s.sp).localAuthority = s.sp.localAuthority) :
    Settled s (s.modSp f) :=
  .of_still rfl { LevelsAlike.rfl with authority := h } id rfl ⟨rfl, rfl⟩

theorem Settled.setInput (s : State) (i : InputId) (r : ContactInput) : Settled s (s.setInput i r) :=
  .of_still rfl { LevelsAlike.rfl with } id rfl ⟨rfl, rfl⟩

theorem Settled.modSeq (s : State) (k : FeederNo) (f : Sequencer → Sequencer) (hf : ∀ r, (f r).state = r.state ∧ (f r).wait = r.wait) :
    Settled s (s.modSeq k f) := by
  refine .of_still rfl { LevelsAlike.rfl with sequencers := fun j => ?_ } id rfl ⟨rfl, rfl⟩
  by_cases hj : j = k
  · subst hj; rw [State.modSeq_seq]; exact hf _
  · rw [State.modSeq_seq_ne _ hj]; exact ⟨rfl, rfl⟩

theorem Settled.modRect (s : State) (f : Rectifier → Rectifier)
    (hf : ∀ r, (f r).state = r.state ∧ (f r).bridge1 = r.bridge1 ∧ (f r).bridge2 = r.bridge2) : Settled s (s.modRect f) :=
  .of_still rfl { LevelsAlike.rfl with rectifier := hf _ } id rfl ⟨rfl, rfl⟩

theorem Settled.modLink (s : State) (p : Port) (f : Link → Link) (hf : (f (s.link p)).state = (s.link p).state) :
    Settled s (s.modLink p f) := by
  have links : ∀ q, ((s.modLink p f).link q).state = (s.link q).state := fun q => by
    by_cases hq : q = p
    · subst hq; rw [State.modLink_link, hf]
    · rw [State.modLink_link_ne _ hq]
  cases p <;> exact .of_still rfl { LevelsAlike.rfl with links := links } id rfl ⟨rfl, rfl⟩

/-- A write of the settings that leaves the settings in use, the flags of point 62 and the retained area. -/
theorem Settled.modStore (s : State) (f : Store → Store)
    (hf : ∀ st : Store, ((f st).factoryInUse = st.factoryInUse ∧ (f st).configFault = st.configFault ∧
      (f st).fittedPending = st.fittedPending ∧ (f st).inUse = st.inUse) ∧ ((f st).bank0 = st.bank0 ∧ (f st).bank1 = st.bank1) ∧
      (f st).active = st.active ∧ (f st).lock = st.lock) : Settled s (s.modStore f) := by
  obtain ⟨hlevels, hbanks, hactive, hlock⟩ := hf s.store
  refine .of_still rfl { LevelsAlike.rfl with store := hlevels } id ?_ hbanks
  show { s.retainedView with active := (f s.store).active, lock := (f s.store).lock } = s.retainedView
  rw [hactive, hlock]
  rfl

/-! ### The transmitters (R153, R156, R157) -/

theorem State.chooseMessage_state {p : Port} {body : MsgBody} {take : Link → Link} (h : s.chooseMessage p = some (body, take))
    (l : Link) : (take l).state = l.state := by
  unfold State.chooseMessage at h
  dsimp only at h
  split at h
  · cases h; rfl
  · cases h; rfl
  · split at h
    · cases h; rfl
    · cases h

theorem Settled.transmit (s : State) (p : Port) : Settled s (s.transmit p) := by
  unfold State.transmit
  split
  · exact .refl s
  · split
    · next body take h => exact .modLink s p _ (State.chooseMessage_state h _)
    · exact .refl s

theorem Settled.transmissionEnds (s : State) (p : Port) : Settled s (s.transmissionEnds p) := by
  unfold State.transmissionEnds
  split
  · exact (Settled.modLink s p (fun l => { l with inFlight := none }) rfl).trans (.transmit _ p)
  · exact .refl s

theorem Settled.beaconTimeout (s : State) (p : Port) : Settled s (s.beaconTimeout p) := by
  unfold State.beaconTimeout State.beaconDue
  split
  · refine (Settled.modLink s p (fun l => { l with beaconTimer := some 100 }) rfl).trans ?_
    split
    · exact .refl _
    · exact (Settled.modLink _ p (fun l => { l with beaconDue := true }) rfl).trans (.transmit _ p)
  · exact .refl s

/-! ### The tick (R181) -/

theorem tickHold_retained (h : Hold) : retainedHold (tickHold h) = retainedHold h := rfl

theorem State.tick_view (s : State) : s.tick.retainedView = s.retainedView := by
  have hholds : (s.ht.holds.map tickHold).map retainedHold = s.ht.holds.map retainedHold := by
    rw [List.map_map]; rfl
  unfold State.retainedView State.tick
  dsimp only
  rw [hholds]

theorem State.tick_levels (s : State) : LevelsAlike s s.tick where
  channels := rfl
  mismatched := rfl
  engines := rfl
  sequencers k := by
    have e : s.tick.seq k = tickSeq (s.seq k) := vmap_get _ _ k
    rw [e]; exact ⟨rfl, rfl⟩
  rectifier := ⟨rfl, rfl, rfl⟩
  sections n := by
    have e : s.tick.sec n = { s.sec n with mismatchTimer := tickDown (s.sec n).mismatchTimer } := vmap_get _ _ n
    rw [e]
  links p := by cases p <;> rfl
  bands := rfl
  store := ⟨rfl, rfl, rfl, rfl⟩
  authority := rfl

theorem Settled.tick (s : State) : Settled s s.tick where
  level h := h.congr (fun _ => rfl) s.tick_levels (by
    show tickDown s.verification = none → _
    unfold tickDown
    exact Option.map_eq_none_iff.1)
  attn h := h
  retained h := h.congr s.tick_view ⟨rfl, rfl⟩

/-! ### The port (R200, R203) -/

theorem Settled.portRead (s : State) (code : Byte) (operands : Nat) (response : List Byte) :
    Settled s (s.portRead code operands response) := by
  unfold State.portRead
  split
  · exact .modSp s _ rfl
  · exact .refl s

/-- An action command keeps the laws that its owner keeps. -/
theorem Settled.port (s : State) (row : PortRow) (target : Option Nat) (owner : Option (State → Answer))
    (h : ∀ f ∈ owner, Settled s (f s).state) : Settled s (s.port row target owner) := by
  have answer : Settled s (s.portAnswer row owner).state := by
    unfold State.portAnswer
    repeat' split
    all_goals first
      | exact .refl s
      | exact h _ rfl
  unfold State.port
  split
  · exact answer.trans (.modSp _ _ rfl)
  · exact .refl s

theorem Settled.commandSelect (s : State) (target : Target) (action : SwitchAction) :
    Settled s (s.commandSelect target action).state := by
  have selects : Settled s
      (s.modSp fun r => { r with selection := some { target := target, action := action }, selectionTimer := some 10000 }) :=
    .modSp s _ rfl
  cases target with
  | rectifier => exact selects
  | feeder k =>
    cases h : s.fitted k with
    | true => rw [State.commandSelect_accepted action (by rintro _ ⟨⟩; exact h)]; exact selects
    | false => rw [State.commandSelect_notFitted action h]; exact .refl s

theorem Settled.clearRecords (s : State) (k : FeederNo) : Settled s (s.clearRecords k) := .modSeq s k _ fun _ => ⟨rfl, rfl⟩

theorem Settled.commandClear (s : State) (k : FeederNo) : Settled s (s.commandClear k).state := by
  unfold State.commandClear
  split
  · exact .clearRecords s k
  · exact .refl s

theorem Settled.forEach {α : Type} (l : List α) (f : α → State → State) (h : ∀ a s, Settled s (f a s)) (s : State) :
    Settled s (Machine.forEach l f s) :=
  forEach_keeps (P := Settled s) l f (fun a _ g => g.trans (h a _)) (.refl s)

theorem Settled.commandWrite (s : State) (start : Nat) (data : List Byte) : Settled s (s.commandWrite start data).state := by
  unfold State.commandWrite
  repeat' split
  · exact .refl s
  · exact .refl s
  · exact .modStore s (fun st => { st with staging := writeBytes start data st.staging })
      fun _ => ⟨⟨rfl, rfl, rfl, rfl⟩, ⟨rfl, rfl⟩, rfl, rfl⟩

theorem Settled.beginOperation (s : State) (kind : OpKind) (target : StoreTarget) (content : List Byte) (code : Half) :
    Settled s (s.beginOperation kind target content code) := by
  unfold State.beginOperation
  refine .modStore s _ fun st => ?_
  cases target <;> exact ⟨⟨rfl, rfl, rfl, rfl⟩, ⟨rfl, rfl⟩, rfl, rfl⟩

theorem Settled.commandErase (s : State) (code : Byte) : Settled s (s.commandErase code).state := by
  unfold State.commandErase
  repeat' split
  · exact .refl s
  · exact .refl s
  · exact .beginOperation s _ _ _ _

theorem Settled.commandProgram (s : State) (code : Byte) : Settled s (s.commandProgram code).state := by
  unfold State.commandProgram
  dsimp only
  repeat' split
  all_goals first
    | exact .refl s
    | exact .beginOperation s _ _ _ _

/-! ### Acknowledgements, the clock and the lock -/

/-- R175, R176: an acknowledgement leaves every condition. -/
theorem State.ackPoint_condition (s : State) (p q : PointNo) : ((s.ackPoint p).point q).condition = (s.point q).condition := by
  unfold State.ackPoint
  by_cases hq : q = p
  · subst hq; simp
  · rw [State.putPoint_point_ne _ hq]

/-- What an acknowledgement keeps: the levels and the retained area; ATTN follows at its end. -/
structure SettledButAttn (s t : State) : Prop where
  level : LevelLaw s → LevelLaw t
  retained : RetainedLaw s → RetainedLaw t

theorem Settled.butAttn (h : Settled s t) : SettledButAttn s t := ⟨h.level, h.retained⟩

theorem SettledButAttn.trans (h : SettledButAttn s t) (g : SettledButAttn t u) : SettledButAttn s u :=
  ⟨g.level ∘ h.level, g.retained ∘ h.retained⟩

theorem SettledButAttn.closeAlerts (h : SettledButAttn s t) : Settled s t.closeAlerts :=
  ⟨fun hs v p => h.level hs v p, fun _ => t.closeAlerts_attn, h.retained⟩

theorem SettledButAttn.ackPoint (s : State) (p : PointNo) : SettledButAttn s (s.ackPoint p) where
  level h v q := by rw [State.ackPoint_condition, h v]; rfl
  retained h := h

theorem SettledButAttn.ackList (s : State) : SettledButAttn s s.ackList :=
  forEach_keeps (P := SettledButAttn s) _ _ (fun p _ h => h.trans (.ackPoint _ p)) (Settled.refl s).butAttn

/-- The port around an owner that keeps all but ATTN. -/
theorem SettledButAttn.port (s : State) (row : PortRow) (target : Option Nat) (owner : Option (State → Answer))
    (h : ∀ f ∈ owner, SettledButAttn s (f s).state) : SettledButAttn s (s.port row target owner) := by
  have answer : SettledButAttn s (s.portAnswer row owner).state := by
    unfold State.portAnswer
    repeat' split
    all_goals first
      | exact (Settled.refl s).butAttn
      | exact h _ rfl
  unfold State.port
  split
  · exact answer.trans (Settled.modSp _ _ rfl).butAttn
  · exact (Settled.refl s).butAttn

theorem Settled.setTime (s : State) (time : BitVec 48) :
    Settled s (s.modAu fun a => { a with time := time, timeNotSet := false }) where
  level h := h.congr (fun _ => rfl) { LevelsAlike.rfl with } id
  attn h := h
  retained h := h

/-- A write of the lock, followed by the retained area (R194, R197). -/
theorem Settled.writeRetained (hlevel : LevelLaw s → LevelLaw t) (hattn : AttnLaw s → AttnLaw t) : Settled s t.writeRetained where
  level h v p := by
    rw [State.writeRetained_levelOf, State.point, State.writeRetained_au]
    exact hlevel h (by rwa [State.writeRetained_verification] at v) p
  attn h := by
    unfold AttnLaw
    rw [State.writeRetained_au]
    exact hattn h
  retained _ := t.writeRetained_law

end Sys2Proof.Machine
end

section
/-! The laws that every step keeps, and what no command touches: row by row of the table. -/

namespace Sys2Proof.Machine

open Sys2Proof

variable {s t u : State} {c : Instr}

/-! ### Row by row: the laws of the levels, of ATTN and of the retained area -/

theorem Settled.taken {f : State → State} (h : Machine.taken f s = .next t) (hf : Settled s (f s)) : Settled s t := by
  rw [taken_eq h]
  split
  · exact .refl s
  · exact hf

theorem Settled.taken_event {f : State → State} (h : Machine.event f s = .next t) : Settled s t :=
  .taken h (.event f s)

/-- After any reset equipment verification runs, no point waits, and the retained area has been written. -/
theorem Settled.takeReset (warm held : Bool) (s u : State) : Settled u (s.takeReset warm held) where
  level _ v := by rw [(takeReset_to warm held s).verification] at v; cases v
  attn _ := by
    unfold AttnLaw
    rw [(takeReset_to warm held s).au]
    exact ⟨rfl, rfl⟩
  retained _ := (takeReset_to warm held s).retained

theorem Settled.portRestart (s : State) : Settled s s.portRestart := by
  unfold State.portRestart
  dsimp only
  split
  · split
    · exact .takeReset _ _ _ _
    · refine Settled.trans ?_ (.modSp _ _ rfl)
      unfold State.portAnswer State.commandRestart
      dsimp only
      repeat' split
      all_goals exact .refl s
  · exact .refl s

/-- A write of the lock behind the port, followed by the retained area. -/
theorem Settled.lockPort (s : State) (row : PortRow) (owner : State → Answer)
    (h : (owner s).state = s ∨ ∃ b, (owner s).state = s.modStore fun st => { st with lock := b }) :
    Settled s (s.port row none (some owner)).writeRetained := by
  have answer : (s.portAnswer row (some owner)).state = s ∨
      ∃ b, (s.portAnswer row (some owner)).state = s.modStore fun st => { st with lock := b } := by
    unfold State.portAnswer
    dsimp only
    repeat' split
    all_goals first
      | exact .inl rfl
      | exact h
  unfold State.port State.record
  split
  · obtain e | ⟨b, e⟩ := answer
    · rw [e]; exact .writeRetained (Settled.modSp s _ rfl).level id
    · rw [e]; exact .writeRetained (fun hs => hs.congr (fun _ => rfl) { LevelsAlike.rfl with } id) id
  · exact .writeRetained id id

theorem Settled.setLock (s : State) : Settled s (s.port { code := 0x55 } none (some State.commandSetLock)).writeRetained :=
  .lockPort s _ _ (.inr ⟨true, rfl⟩)

theorem Settled.clearLock (s : State) : Settled s (s.port { code := 0x56 } none (some State.commandClearLock)).writeRetained := by
  refine .lockPort s _ _ ?_
  unfold State.commandClearLock
  split
  · exact .inr ⟨false, rfl⟩
  · exact .inl rfl

theorem exec_settled (c : Instr) (h : exec c s = .next t) : Settled s t := by
  cases c with
  | powerOn => cases h; exact .takeReset _ _ _ _
  | resetInput => cases h; exact .takeReset _ _ _ _
  | resetInputRelease => cases h; exact ⟨id, id, id⟩
  | restart => exact .taken h (.portRestart s)
  | contactRawChange i on => cases h; exact .setInput s i _
  | equipmentVerificationEnd =>
    change execEquipmentVerificationEnd s = .next t at h
    unfold execEquipmentVerificationEnd at h
    refine .taken h ?_
    split
    · exact .finish _ _
    · exact .event _ _
  | reclaimTimerExpiry k =>
    refine .taken h ?_
    split
    · exact .modSeq s k _ fun _ => ⟨rfl, rfl⟩
    · exact .refl s
  | gatePulse bridge pair =>
    refine .taken h (.modRect s _ fun r => ?_)
    unfold emitPulse
    split <;> exact ⟨rfl, rfl, rfl⟩
  | transmissionCompletion p => exact .taken h (.transmissionEnds s p)
  | beaconTimerExpiry p => exact .taken h (.beaconTimeout s p)
  | stationTimeTick => exact .taken h (.tick s)
  | selectionTimerExpiry =>
    refine .taken h ?_
    split
    · exact .modSp s _ rfl
    · exact .refl s
  | selArming => exact .taken h (.modSp s _ rfl)
  | emptyFrame =>
    refine .taken h ?_
    split
    · exact .modSp s _ rfl
    · exact .refl s
  | unknownCommand code => exact .taken h (.port s _ _ _ (by rintro f ⟨⟩; exact .refl s))
  | readStatus => exact .taken (show execReadStatus s = .next t from h) (.portRead s _ _ _)
  | readFeeder x => exact .taken (show execReadFeeder x s = .next t from h) (.portRead s _ _ _)
  | readTripRecord x y => exact .taken (show execReadTripRecord x y s = .next t from h) (.portRead s _ _ _)
  | readSection x => exact .taken (show execReadSection x s = .next t from h) (.portRead s _ _ _)
  | readHold x => exact .taken (show execReadHold x s = .next t from h) (.portRead s _ _ _)
  | listHolds => exact .taken (show execListHolds s = .next t from h) (.portRead s _ _ _)
  | readRectifier => exact .taken (show execReadRectifier s = .next t from h) (.portRead s _ _ _)
  | readAlerts => exact .taken (show execReadAlerts s = .next t from h) (.portRead s _ _ _)
  | readPoint x => exact .taken (show execReadPoint x s = .next t from h) (.portRead s _ _ _)
  | readLink x => exact .taken (show execReadLink x s = .next t from h) (.portRead s _ _ _)
  | readSettingsStatus => exact .taken (show execReadSettingsStatus s = .next t from h) (.portRead s _ _ _)
  | readStaging x y => exact .taken (show execReadStaging x y s = .next t from h) (.portRead s _ _ _)
  | readTime => exact .taken (show execReadTime s = .next t from h) (.portRead s _ _ _)
  | select x y =>
    refine .taken h (.port s _ _ _ fun f hf => ?_)
    split at hf
    · split at hf
      · cases hf; exact .commandSelect s _ _
      · cases hf
    · cases hf
  | cancelSelection => exact .taken h (.port s _ _ _ (by rintro f ⟨⟩; exact .modSp s _ rfl))
  | clearTripRecords x =>
    refine .taken h (.port s _ _ _ fun f hf => ?_)
    split at hf
    · cases hf; exact .forEach _ _ (fun k s => .clearRecords s k) s
    · obtain ⟨k, _, rfl⟩ := Option.map_eq_some_iff.1 hf
      exact .commandClear s k
  | acknowledgePoint x =>
    refine .taken (show execAcknowledgePoint x s = .next t from h) (SettledButAttn.closeAlerts (.port s _ _ _ fun f hf => ?_))
    obtain ⟨p, _, rfl⟩ := Option.map_eq_some_iff.1 hf
    unfold State.commandAck
    split
    · exact .ackPoint s p
    · exact (Settled.refl s).butAttn
  | acknowledgeAll => 
    refine .taken (show execAcknowledgeAll s = .next t from h) (SettledButAttn.closeAlerts (.port s _ _ _ ?_))
    rintro f ⟨⟩
    exact .ackList s
  | setTime time => exact .taken h (.port s _ _ _ (by rintro f ⟨⟩; exact .setTime s time))
  | writeStaging offset count data =>
    change execWriteStaging offset count data s = .next t at h
    unfold execWriteStaging at h
    split at h
    · exact .taken_event h
    · refine .taken h (.port s _ _ _ fun f hf => ?_)
      split at hf
      · cases hf; exact .commandWrite s _ _
      · cases hf
  | erase x => exact .taken h (.port s _ _ _ (by rintro f ⟨⟩; exact .commandErase s x))
  | program x => exact .taken h (.port s _ _ _ (by rintro f ⟨⟩; exact .commandProgram s x))
  | clearSettingsStatus =>
    refine .taken h (.port s _ _ _ ?_)
    rintro f ⟨⟩
    exact .modStore s (fun st => { st with eraseError := false, programError := false, retainedLost := false })
      fun _ => ⟨⟨rfl, rfl, rfl, rfl⟩, ⟨rfl, rfl⟩, rfl, rfl⟩
  | setLock => exact .taken (show execSetLock s = .next t from h) (.setLock s)
  | clearLock => exact .taken (show execClearLock s = .next t from h) (.clearLock s)
  | _ => exact .taken_event h

/-! ### Row by row: the laws of the alert list and of the records -/

/-- R176, R182: what SET TIME does of the clock, whatever the port answers. -/
theorem port_setTime {P : State → Prop} (F : Free P) (time : BitVec 48)
    (hc : ∀ s, P s → P (s.modAu fun a => { a with time := time, timeNotSet := false })) (hs : P s) :
    P (s.port { code := 0x42 } none (some fun s => accept (s.modAu fun a => { a with time := time, timeNotSet := false }))) := by
  unfold State.port State.record
  split
  · exact F.sp _ _ (hc _ hs)
  · exact hs

/-- What survives any write, and a write of the clock with its timers, survives every command that is no reset. -/
theorem exec_free_clock {P : State → Prop} (F : Free P) (htick : ∀ s, P s → P s.tick)
    (hc : ∀ s time, P s → P (s.modAu fun a => { a with time := time, timeNotSet := false })) (hr : touchesReset c = false)
    (h : exec c s = .next t) (hs : P s) : P t :=
  exec_clock hr h (fun hk => exec_free F hr hk h hs) hs (htick s hs)
    fun time => port_setTime F time (fun s => hc s time) hs

theorem SequencerLaw.tick {r : Sequencer} (h : SequencerLaw r) : SequencerLaw (tickSeq r) := by
  obtain ⟨h1, h2, h3, h4, h5, h6, h7, h8, h9, h10, h11, h12⟩ := h
  unfold tickSeq tickDown
  constructor <;> simpa

theorem RectifierLaw.tick {r : Rectifier} (h : RectifierLaw r) : RectifierLaw (tickRect r) := by
  obtain ⟨h1, h2, h3, h4, h5, h6, h7⟩ := h
  unfold tickRect tickDown
  constructor <;> simpa

theorem LinkLaw.tick {l : Link} (h : LinkLaw l) : LinkLaw (tickLink l) := ⟨h.subjects, h.lines, h.down⟩

theorem RecordLaws.tick (h : RecordLaws s) : RecordLaws s.tick where
  engines := h.engines
  sequencers k := by
    have e : s.tick.seq k = tickSeq (s.seq k) := vmap_get _ _ k
    rw [e]; exact (h.sequencers k).tick
  rectifier := h.rectifier.tick
  links p := by
    cases p with
    | a => exact (h.links .a).tick
    | b => exact (h.links .b).tick

theorem RecordLaws.takeReset (warm held : Bool) (s : State) : RecordLaws (s.takeReset warm held) := by
  have h := takeReset_to warm held s
  exact {
    engines := fun k => by rw [h.engine_eq]; exact .initial _ _
    sequencers := fun k => by rw [h.seq_eq]; cases warm <;> exact .initial _ _ _
    rectifier := by rw [h.rect_eq]; exact .initial _ _ _
    links := fun p => by rw [h.link_eq]; exact .initial _ _ }

theorem AlertLaw.takeReset (warm held : Bool) (s : State) : AlertLaw (s.takeReset warm held) := by
  have h := takeReset_to warm held s
  have hlist : (s.takeReset warm held).au.alerts ++ (s.takeReset warm held).au.joining = [] := by rw [h.au]; rfl
  exact {
    once := by rw [hlist]; exact .nil
    points := fun p => by rw [hlist, h.point_eq]; exact ⟨fun m => absurd m List.not_mem_nil, fun e => absurd e Bool.false_ne_true⟩ }

/-- The commands by which a reset is taken or ends, one by one. A RESTART that is refused writes the port record alone. -/
theorem exec_reset {P : State → Prop} (hr : touchesReset c = true) (hreset : ∀ warm held s, P s → P (s.takeReset warm held))
    (hsp : ∀ s f, P s → P (s.modSp f)) (hheld : ∀ s, P s → P { s with resetHeld := false })
    (h : exec c s = .next t) (hs : P s) : P t := by
  obtain rfl | rfl | rfl | rfl := touchesReset_iff.1 hr
  · cases h; exact hreset _ _ _ hs
  · cases h; exact hreset _ _ _ hs
  · cases h; exact hheld _ hs
  · refine taken_keeps (P := P) (fun hs => ?_) (show execRestart s = .next t from h) hs
    have answer : (s.portAnswer { code := 0x5F, remote := true } (some State.commandRestart)).state = s := by
      unfold State.portAnswer State.commandRestart
      repeat' split
      all_goals first
        | rfl
        | (next e => cases e; dsimp only; split <;> rfl)
    have recorded : P (State.record { code := 0x5F, remote := true } none
        (s.portAnswer { code := 0x5F, remote := true } (some State.commandRestart))) := by
      unfold State.record
      rw [answer]
      exact hsp _ _ hs
    unfold State.portRestart
    dsimp only
    split
    · split
      · exact hreset _ _ _ recorded
      · exact recorded
    · exact hs

theorem exec_alertLaw (c : Instr) (h : exec c s = .next t) (hs : AlertLaw s) : AlertLaw t := by
  cases hr : touchesReset c with
  | true =>
    exact exec_reset hr (fun w d s _ => .takeReset w d s) free_alertLaw.sp (fun _ h => ⟨h.once, h.points⟩) h hs
  | false => exact exec_free_clock free_alertLaw (fun _ h => ⟨h.once, h.points⟩) (fun _ _ h => ⟨h.once, h.points⟩) hr h hs

theorem exec_recordLaws (c : Instr) (h : exec c s = .next t) (hs : RecordLaws s) : RecordLaws t := by
  cases hr : touchesReset c with
  | true =>
    exact exec_reset hr (fun w d s _ => .takeReset w d s) free_recordLaws.sp
      (fun _ h => ⟨h.engines, h.sequencers, h.rectifier, h.links⟩) h hs
  | false =>
    exact exec_free_clock free_recordLaws (fun _ h => h.tick) (fun _ _ h => ⟨h.engines, h.sequencers, h.rectifier, h.links⟩)
      hr h hs

/-! ### Steps -/

/-- A step is a command on the queue's rest, or none. -/
theorem step_cases (h : step s = .next t) : t = s ∨ ∃ c rest, s.pending = c :: rest ∧ exec c { s with pending := rest } = .next t := by
  unfold step at h
  split at h
  · cases h; exact .inl rfl
  · next c rest e => exact .inr ⟨c, rest, e, h⟩

/-- What a command keeps and the queue does not bear on, a step keeps. -/
theorem step_keeps {P : State → Prop} (hq : ∀ s q, P s → P { s with pending := q })
    (he : ∀ c s t, exec c s = .next t → P s → P t) (h : step s = .next t) (hs : P s) : P t := by
  obtain rfl | ⟨c, rest, _, hc⟩ := step_cases h
  · exact hs
  · exact he c _ t hc (hq _ _ hs)

/-- Settles O8: no write breaks the alert list but through a point's record, which keeps it; ATTN follows at every end. -/
theorem alertListInvariant : Obligations.AlertListInvariant := by
  intro s t halert hattn h
  exact step_keeps (P := fun s => AlertLaw s ∧ AttnLaw s) (fun _ _ h => ⟨⟨h.1.once, h.1.points⟩, h.2⟩)
    (fun c _ _ hc hs => ⟨exec_alertLaw c hc hs.1, (exec_settled c hc).attn hs.2⟩) h ⟨halert, hattn⟩

/-- Settles O9. -/
theorem levelInvariant : Obligations.LevelInvariant := fun _ _ hlevel h =>
  step_keeps (fun _ _ h => h) (fun c _ _ hc => (exec_settled c hc).level) h hlevel

/-- Settles O10. -/
theorem retainedInvariant : Obligations.RetainedInvariant := fun _ _ hretained h =>
  step_keeps (fun _ _ h => h) (fun c _ _ hc => (exec_settled c hc).retained) h hretained

end Sys2Proof.Machine
end

section
/-! The laws of the plant through every step (R101, R104, R112): a reset reads the hold table back from the retained area. And what no
command touches: the queue, the fitted flags and the clock; and the part held by the RESET input. -/

namespace Sys2Proof.Machine

open Sys2Proof

variable {s t u : State} {c : Instr}

/-! ### The plant laws at a tick -/

theorem HoldLaw.tick {h : Hold} (l : HoldLaw h) : HoldLaw (tickHold h) := ⟨l.sections, l.purpose, l.phase, l.convert⟩

theorem tally_tick (holds : List Hold) (x : Count) (n : SectionNo) : tally (holds.map tickHold) x n = tally holds x n := by
  unfold tally
  rw [List.map_map]
  rfl

theorem State.tick_sec (s : State) (n : SectionNo) :
    s.tick.sec n = { s.sec n with mismatchTimer := tickDown (s.sec n).mismatchTimer } := vmap_get _ _ n

theorem State.tick_breakerPos (s : State) (k : FeederNo) : s.tick.breakerPos k = s.breakerPos k := by
  have e : s.tick.pair (.breaker k) = { s.pair (.breaker k) with transit := tickDown (s.pair (.breaker k)).transit } := vmap_get _ _ _
  rw [State.breakerPos, e, State.breakerPos]

theorem PlantLaws.tick (h : PlantLaws s) : PlantLaws s.tick where
  table := h.table.map tickHold fun _ _ => rfl
  holds x m := by
    obtain ⟨y, hy, rfl⟩ := List.mem_map.1 (show x ∈ s.ht.holds.map tickHold from m)
    exact (h.holds y hy).tick
  counts := (countLaw_iff _).2 fun n x => by
    have hcount : (s.tick.sec n).count x = (s.sec n).count x := by rw [State.tick_sec]; cases x <;> rfl
    rw [hcount, (countLaw_iff s).1 h.counts n x]
    exact (tally_tick _ x n).symm
  drives n := by
    rw [State.tick_sec]
    intro hdrive
    obtain ⟨hclosed, hearth, hopen⟩ := h.drives n hdrive
    exact ⟨hclosed, hearth, fun k hk => by rw [State.tick_breakerPos]; exact hopen k hk⟩
  unhanded hv k := by
    rw [State.tick_breakerPos]
    refine h.unhanded ?_ k
    simpa [State.verifying, State.tick, tickDown] using hv

/-! ### The hold table across a reset (R144, R197) -/

theorem settleHold_who (h : Hold) : (settleHold h).who = h.who := by
  unfold settleHold
  dsimp only
  cases h.state <;> rfl

theorem HoldLaw.retained {h : Hold} (l : HoldLaw h) : HoldLaw (retainedHold h) := ⟨l.sections, l.purpose, l.phase, l.convert⟩

/-- R144: a record that is settled keeps purpose and phase only where they stand, which is in none of the states it then has. -/
theorem HoldLaw.settle {h : Hold} (l : HoldLaw h) : HoldLaw (settleHold h) := by
  obtain ⟨hsections, hpurpose, hphase, hconvert⟩ := l
  unfold settleHold
  cases e : h.state with
  | active => exact ⟨hsections, nofun, nofun, nofun⟩
  | releasing => exact ⟨hsections, nofun, nofun, nofun⟩
  | failed =>
    rw [e] at hpurpose hphase
    exact ⟨hsections, hpurpose, hphase, hconvert⟩
  | securing | proving | earthing =>
    rw [e] at hpurpose hphase
    exact ⟨hsections, fun x => (nomatch hpurpose x), fun x => (nomatch hphase x), hconvert⟩

theorem PlantLaws.takeReset (hretained : RetainedLaw s) (h : PlantLaws s) (warm held : Bool) : PlantLaws (s.takeReset warm held) := by
  have hto := takeReset_to warm held s
  have hfresh := hto.freshlyReset
  have hholds : (s.takeReset warm held).ht.holds = s.ht.holds.map fun x => settleHold (retainedHold x) := by
    have hcopy : s.loadedCopy = s.retainedView := by rw [State.loadedCopy, hretained]; rfl
    rw [hto.ht, State.afterReset_ht, hcopy]
    exact List.map_map
  exact {
    table := by
      rw [hholds]
      exact h.table.map _ fun x _ => settleHold_who (retainedHold x)
    holds := fun x m => by
      rw [hholds] at m
      obtain ⟨y, hy, rfl⟩ := List.mem_map.1 m
      exact (h.holds y hy).retained.settle
    counts := hfresh.counts
    drives := fun n hdrive => by
      rw [(hfresh.earthSwitches n).1] at hdrive
      cases hdrive
    unhanded := fun _ k => by rw [State.breakerPos, hfresh.pairs] }

/-! ### The plant laws through every command -/

/-- A write that leaves the hold table, the sections, the positions handed and the verification. -/
theorem PlantLaws.congr (h : PlantLaws s) (hht : t.ht = s.ht) (hsec : t.sections = s.sections) (hmi : t.mi = s.mi)
    (hv : t.verification = s.verification) : PlantLaws t := by
  have sec : ∀ n, t.sec n = s.sec n := fun n => by rw [State.sec, hsec, State.sec]
  have pos : ∀ k, t.breakerPos k = s.breakerPos k := fun k => State.breakerPos_congr hmi k
  exact {
    table := by rw [hht]; exact h.table
    holds := by rw [hht]; exact h.holds
    counts := fun n => by rw [sec, hht]; exact h.counts n
    drives := fun n hdrive => by
      rw [sec] at hdrive ⊢
      obtain ⟨hclosed, hearth, hopen⟩ := h.drives n hdrive
      exact ⟨hclosed, hearth, fun k hk => by rw [pos]; exact hopen k hk⟩
    unhanded := fun hverifying k => by
      rw [pos]
      exact h.unhanded (by rwa [State.verifying, hv] at hverifying) k }

theorem exec_plantLaws (c : Instr) (h : exec c s = .next t) (hs : RetainedLaw s ∧ PlantLaws s) : RetainedLaw t ∧ PlantLaws t := by
  refine ⟨(exec_settled c h).retained hs.1, ?_⟩
  cases hr : touchesReset c with
  | true =>
    exact (exec_reset (P := fun s => RetainedLaw s ∧ PlantLaws s) hr
      (fun w d s hs => ⟨(takeReset_to w d s).retained, hs.2.takeReset hs.1 w d⟩) (fun _ _ hs => ⟨hs.1, hs.2.congr rfl rfl rfl rfl⟩)
      (fun _ hs => ⟨hs.1, hs.2.congr rfl rfl rfl rfl⟩) h hs).2
  | false =>
    refine exec_clock hr h (fun hk => ?_) hs.2 hs.2.tick fun time => ?_
    · refine mid_iff.1 (exec_lawful mid_lawful (fun s hv hs => ?_) c hr hk h (mid_iff.2 hs.2))
      exact mid_endVerification hv hs
    · unfold State.port State.record
      split
      · exact hs.2.congr rfl rfl rfl rfl
      · exact hs.2

/-- Settles O11: the records' laws survive every write, those of the plant every event, and a reset reads the hold table back from
the retained area. -/
theorem recordInvariant : Obligations.RecordInvariant := by
  refine ⟨fun s t hrecords h => ?_, fun s t hretained hplant h => ?_⟩
  · exact step_keeps (fun _ _ h => ⟨h.engines, h.sequencers, h.rectifier, h.links⟩) (fun c _ _ => exec_recordLaws c) h hrecords
  · exact (step_keeps (P := fun s => RetainedLaw s ∧ PlantLaws s) (fun _ _ hs => ⟨hs.1, hs.2.congr rfl rfl rfl rfl⟩)
      (fun c _ _ => exec_plantLaws c) h ⟨hretained, hplant⟩).2

/-! ### What no command touches -/

theorem Untouched.refl (s : State) : Untouched s s := ⟨rfl, rfl, rfl, rfl⟩

/-- Queue and fitted flags are written by no command but a reset, which leaves the queue. -/
theorem exec_untouched (hr : touchesReset c = false) (h : exec c s = .next t) :
    t.pending = s.pending ∧ t.store.cfg.fitted = s.store.cfg.fitted := by
  refine exec_clock (P := fun t => t.pending = s.pending ∧ t.store.cfg.fitted = s.store.cfg.fitted) hr h (fun hk => ?_)
    ⟨rfl, rfl⟩ ⟨rfl, rfl⟩ fun time => ?_
  · have u := exec_free (free_untouched s) hr hk h (.refl s)
    exact ⟨u.queue, u.fitted⟩
  · unfold State.port State.record
    split <;> exact ⟨rfl, rfl⟩

theorem exec_pending (c : Instr) (h : exec c s = .next t) : t.pending = s.pending := by
  cases hr : touchesReset c with
  | true =>
    exact exec_reset (P := fun t => t.pending = s.pending) hr (fun w d u hu => (takeReset_pending w d u).trans hu)
      (fun _ _ hu => hu) (fun _ hu => hu) h rfl
  | false => exact (exec_untouched hr h).1

/-- Settles O2. -/
theorem queueUntouched : Obligations.QueueUntouched := fun c s =>
  let ⟨t, h⟩ := exec_next c s
  ⟨t, h, exec_pending c h⟩

/-- Settles O13. -/
theorem fittedOnlyAtReset : Obligations.FittedOnlyAtReset := fun _ _ _ hr h => (exec_untouched hr h).2

/-- Settles O14. -/
theorem clockOnlyByClockCommands : Obligations.ClockOnlyByClockCommands := fun _ s _ hr hk h =>
  let u := exec_free (free_untouched s) hr hk h (.refl s)
  ⟨u.time, u.notSet⟩

/-- Settles O1. -/
theorem stepTakesTheFront : Obligations.StepTakesTheFront :=
  ⟨fun _ _ _ => rfl, fun s h => by unfold step; rw [h]⟩

/-! ### The part held by the RESET input (R211) -/

theorem taken_held (f : State → State) (h : s.resetHeld = true) : taken f s = .next s := by
  unfold taken
  rw [if_pos h]

/-- Every command but a reset and the change of a contact's pin is one that a held part does not take. -/
theorem exec_held (hheld : s.resetHeld = true) (hr : touchesReset c = false) (hpin : ∀ i on, c ≠ .contactRawChange i on) :
    exec c s = .next s := by
  cases c with
  | powerOn | resetInput | resetInputRelease | restart => cases hr
  | contactRawChange i on => exact absurd rfl (hpin i on)
  | writeStaging offset count data =>
    show execWriteStaging offset count data s = .next s
    unfold execWriteStaging
    split <;> exact taken_held _ hheld
  | _ => exact congrArg Host.Outcome.next (if_pos hheld)

/-- Settles O3. -/
theorem heldPartTakesNothing : Obligations.HeldPartTakesNothing := by
  intro s hheld
  refine ⟨fun c => exec_held hheld, fun i on => ?_, taken_held _ hheld⟩
  show execContactRawChange i on s = _
  unfold execContactRawChange
  rw [if_pos hheld]

end Sys2Proof.Machine
end

section
/-! The part as it is made: it stands at the reset values and obeys every law. And the frames and messages written out. -/

namespace Sys2Proof.Machine

open Sys2Proof

variable {t : State}

/-- The part of log entry 1 stands at its reset values, block by block. -/
theorem freshlyReset_reset : FreshlyReset State.reset where
  channels := by decide +kernel
  reception := by decide +kernel
  inputs i := ⟨by rw [State.input, State.reset, replicate_get]; rfl, by rw [State.input, State.reset, replicate_get]; rfl⟩
  pairs p := by rw [State.pair, State.reset, replicate_get]; rfl
  engines := by decide +kernel
  sequencers := by decide +kernel
  latch := rfl
  rectifier := by decide +kernel
  energisation := by decide +kernel
  earthSwitches := by decide +kernel
  neighbours := by decide +kernel
  wanted := by decide +kernel
  commanded := by decide +kernel
  counts := by decide +kernel
  links p := by cases p <;> decide +kernel
  points := by decide +kernel
  alerts := by decide +kernel
  bands := by decide +kernel
  clock := by decide +kernel
  staging i := replicate_get _ i
  operation := by decide +kernel
  port := by decide +kernel
  verification := by decide +kernel
  agenda := by decide +kernel

/-- With an empty hold table the reset values alone give the laws of the plant. -/
theorem FreshlyReset.plantLaws (h : FreshlyReset t) (hempty : t.ht.holds = []) : PlantLaws t where
  table := by rw [hempty]; exact ⟨Nat.zero_le _, .nil, fun _ => Nat.zero_le _, fun _ => .nil⟩
  holds x m := by rw [hempty] at m; cases m
  counts := h.counts
  drives n hdrive := by
    rw [(h.earthSwitches n).1] at hdrive
    cases hdrive
  unhanded _ k := by rw [State.breakerPos, h.pairs]

/-- A part on which every point is NORMAL and the list is empty. -/
theorem FreshlyReset.alertLaw (h : FreshlyReset t) (hjoining : t.au.joining = []) : AlertLaw t := by
  have hlist : t.au.alerts ++ t.au.joining = [] := by rw [h.alerts.1, hjoining]; rfl
  refine ⟨by rw [hlist]; exact .nil, fun p => ?_⟩
  rw [hlist, (h.points p).2.1]
  exact ⟨fun m => absurd m List.not_mem_nil, fun e => absurd e Bool.false_ne_true⟩

theorem recordLaws_reset : RecordLaws State.reset where
  engines k := by rw [State.engine, State.reset, replicate_get]; exact .initial _ _
  sequencers k := by rw [State.seq, State.reset, replicate_get]; exact .initial _ _ _
  rectifier := .initial _ _ _
  links p := by cases p <;> exact .initial _ _

/-- Settles O12. -/
theorem resetObeysTheLaws : Obligations.ResetObeysTheLaws :=
  have fresh := freshlyReset_reset
  ⟨fresh.alertLaw rfl, ⟨rfl, (by rw [fresh.alerts.1, fresh.alerts.2]; rfl)⟩,
    fun hv => (by rw [fresh.verification] at hv; cases hv),
    (by unfold RetainedLaw; decide +kernel), recordLaws_reset, fresh.plantLaws rfl, fresh⟩

/-- Settles O17: each frame and message is read by the tables of 11.1 and 11.3. -/
theorem writtenOutFrames : Obligations.WrittenOutFrames := by
  refine ⟨?_, ?_, ?_, ?_, ?_, ?_, ?_, ?_, ?_, ?_, ?_, fun p => ?_, fun p => ?_, fun p => ?_, fun p => ?_⟩
  case refine_12 | refine_13 | refine_14 | refine_15 => cases p <;> decide +kernel
  all_goals decide +kernel

end Sys2Proof.Machine
end

section
/-! The frames of the station port and the messages of the links, read back from their bytes (R147, R200, 11.1, 11.3). -/

namespace Sys2Proof.Machine

open Sys2Proof

/-! ### Operand words -/

theorem operandHalf_extract (w : Half) : operandHalf (w.extractLsb' 8 8) (w.extractLsb' 0 8) = w :=
  (BitVec.extractLsb'_append_extractLsb'_eq_extractLsb' (x := w) (by decide)).trans BitVec.extractLsb'_eq_self

theorem extract_append_byte {n : Nat} (x : BitVec n) (i k : Nat) :
    x.extractLsb' (i + 8) k ++ x.extractLsb' i 8 = x.extractLsb' i (k + 8) :=
  BitVec.extractLsb'_append_extractLsb'_eq_extractLsb' rfl

theorem operandTime_extract (t : BitVec 48) :
    operandTime (t.extractLsb' 40 8) (t.extractLsb' 32 8) (t.extractLsb' 24 8) (t.extractLsb' 16 8) (t.extractLsb' 8 8)
      (t.extractLsb' 0 8) = t := by
  unfold operandTime
  rw [extract_append_byte t 32, extract_append_byte t 24, extract_append_byte t 16, extract_append_byte t 8,
    extract_append_byte t 0]
  exact BitVec.extractLsb'_eq_self

/-! ### Frames (R200) -/

/-- What O15 asks of the bytes of a command. -/
def ReadBack (c : Instr) (bytes : List Byte) : Prop :=
  (∀ surplus, (c = .emptyFrame → surplus = []) → commandOfFrame (bytes ++ surplus) = c) ∧
    ∀ n, 0 < n → n < bytes.length → commandOfFrame (bytes.take n) = .brokenFrame

theorem countOk_length {top : Nat} {count : Byte} {data : List Byte} (h : countOk top count data = true) :
    data.length = if 1 ≤ count.toNat ∧ count.toNat ≤ top then count.toNat else 0 := by
  unfold countOk at h
  exact eq_of_beq h

/-- The number of data bytes a WRITE STAGING calls for. -/
theorem writeFrame_complete {offset : Half} {count : Byte} {data : List Byte} (surplus : List Byte)
    (h : countOk 64 count data = true) :
    writeFrame (offset.extractLsb' 8 8 :: offset.extractLsb' 0 8 :: count :: (data ++ surplus)) = .writeStaging offset count data := by
  have hlength := countOk_length h
  unfold writeFrame
  dsimp only
  rw [← hlength, if_neg (by simp), List.take_left, operandHalf_extract]

theorem writeFrame_cut {hi lo count : Byte} {data cut : List Byte} (h : countOk 64 count data = true)
    (hcut : cut.length < data.length) : writeFrame (hi :: lo :: count :: cut) = .brokenFrame := by
  have hlength := countOk_length h
  unfold writeFrame
  dsimp only
  rw [← hlength, if_pos hcut]

theorem readBack_writeStaging {offset : Half} {count : Byte} {data : List Byte} (h : countOk 64 count data = true) :
    ReadBack (.writeStaging offset count data) (0x50 :: halfOperand offset ++ count :: data) := by
  refine ⟨fun surplus _ => writeFrame_complete surplus h, fun n h0 hn => ?_⟩
  match n, h0 with
  | 1, _ | 2, _ | 3, _ => rfl
  | m + 4, _ =>
    refine writeFrame_cut (cut := data.take m) h ?_
    simp [halfOperand] at hn ⊢
    omega

/-- R200: the count of PLACE HOLD calls for its sections and a duration. -/
theorem placeFrame_complete {kind count : Byte} {tag duration : Half} {sections : List Byte} (surplus : List Byte)
    (hcount : 1 ≤ count.toNat ∧ count.toNat ≤ 7) (hlength : sections.length = count.toNat) :
    placeFrame (kind :: tag.extractLsb' 8 8 :: tag.extractLsb' 0 8 :: count ::
      (sections ++ duration.extractLsb' 8 8 :: duration.extractLsb' 0 8 :: surplus)) =
      .placeHold kind tag count sections duration := by
  unfold placeFrame
  dsimp only
  rw [if_pos hcount, ← hlength, List.drop_left, List.take_left]
  dsimp only
  rw [operandHalf_extract, operandHalf_extract]

theorem placeFrame_cut {kind t1 t2 count : Byte} {data : List Byte} (hcount : 1 ≤ count.toNat ∧ count.toNat ≤ 7)
    (hdata : data.length < count.toNat + 2) : placeFrame (kind :: t1 :: t2 :: count :: data) = .brokenFrame := by
  unfold placeFrame
  dsimp only
  rw [if_pos hcount]
  have hrest : (data.drop count.toNat).length < 2 := by rw [List.length_drop]; omega
  match data.drop count.toNat, hrest with
  | [], _ | [_], _ => rfl
  | _ :: _ :: rest, h => simp only [List.length_cons] at h; omega

theorem readBack_placeHold {kind count : Byte} {tag duration : Half} {sections bytes : List Byte}
    (hw : (Instr.placeHold kind tag count sections duration).wf = true)
    (h : frameOfCommand (.placeHold kind tag count sections duration) = some bytes) :
    ReadBack (.placeHold kind tag count sections duration) bytes := by
  obtain ⟨hsections, hduration⟩ := Bool.and_eq_true_iff.1 (show (countOk 7 count sections && durationOk count duration) = true from hw)
  have hlength : sections.length = if 1 ≤ count.toNat ∧ count.toNat ≤ 7 then count.toNat else 0 := countOk_length hsections
  replace h : (if 1 ≤ count.toNat ∧ count.toNat ≤ 7 then
      some (0x30 :: kind :: halfOperand tag ++ [count] ++ sections ++ halfOperand duration)
    else some (0x30 :: kind :: halfOperand tag ++ [count])) = some bytes := h
  by_cases hcount : 1 ≤ count.toNat ∧ count.toNat ≤ 7
  · rw [if_pos hcount] at h hlength
    cases h
    refine ⟨fun surplus _ => ?_, fun n h0 hn => ?_⟩
    · have hbytes : 0x30 :: kind :: halfOperand tag ++ [count] ++ sections ++ halfOperand duration ++ surplus =
          0x30 :: kind :: tag.extractLsb' 8 8 :: tag.extractLsb' 0 8 :: count ::
            (sections ++ duration.extractLsb' 8 8 :: duration.extractLsb' 0 8 :: surplus) := by simp [halfOperand]
      rw [hbytes]
      exact placeFrame_complete surplus hcount hlength
    · match n, h0 with
      | 1, _ | 2, _ | 3, _ | 4, _ => rfl
      | m + 5, _ =>
        have hbytes : 0x30 :: kind :: halfOperand tag ++ [count] ++ sections ++ halfOperand duration =
            0x30 :: kind :: tag.extractLsb' 8 8 :: tag.extractLsb' 0 8 :: count :: (sections ++ halfOperand duration) := by
          simp [halfOperand]
        rw [hbytes] at hn ⊢
        refine placeFrame_cut (data := (sections ++ halfOperand duration).take m) hcount ?_
        simp [halfOperand] at hn ⊢
        omega
  · rw [if_neg hcount] at h hlength
    cases h
    obtain rfl := List.length_eq_zero_iff.1 hlength
    obtain rfl : duration = 0 := by simpa [durationOk, hcount] using hduration
    refine ⟨fun surplus _ => ?_, fun n h0 hn => ?_⟩
    · show placeFrame (kind :: tag.extractLsb' 8 8 :: tag.extractLsb' 0 8 :: count :: surplus) = _
      unfold placeFrame
      dsimp only
      rw [if_neg hcount, operandHalf_extract]
    · match n, h0, hn with
      | 1, _, _ | 2, _, _ | 3, _, _ | 4, _, _ => rfl
      | m + 5, _, hn =>
        have short : m + 5 < 5 := hn
        omega

/-- R203 item 1: a code outside the table, whatever follows it. -/
theorem readBack_unknown {code : Byte} (h : knownCodes.contains code = false) : ReadBack (.unknownCommand code) [code] := by
  refine ⟨fun surplus _ => ?_, fun n h0 hn => absurd hn (by simp; omega)⟩
  have other : ∀ x : Byte, knownCodes.contains x = true → code ≠ x := fun x hx e => by rw [e, hx] at h; cases h
  show commandOfFrame (code :: surplus) = _
  unfold commandOfFrame
  dsimp only
  rw [if_neg (other 0x50 rfl), if_neg (other 0x30 rfl), h]
  rfl

/-- Settles O15: by the length of the frame. -/
theorem frameRoundTrip : Obligations.FrameRoundTrip := by
  intro c bytes surplus hw h
  suffices b : ReadBack c bytes from ⟨b.1 surplus, b.2⟩
  cases c with
  | placeHold kind tag count sections duration => exact readBack_placeHold hw h
  | writeStaging offset count data => cases h; exact readBack_writeStaging hw
  | unknownCommand code => cases h; exact readBack_unknown (by simpa [Instr.wf] using hw)
  | emptyFrame => cases h; exact ⟨fun surplus e => by rw [e rfl]; rfl, fun n h0 hn => absurd hn (by simp)⟩
  | readStatus | listHolds | readRectifier | readAlerts | readSettingsStatus | readTime | cancelSelection | acknowledgeAll
  | clearSettingsStatus | setLock | clearLock | restart =>
    cases h
    exact ⟨fun _ _ => rfl, fun n h0 hn => absurd hn (by simp; omega)⟩
  | readFeeder | readSection | readHold | readPoint | readLink | resetLockout | clearTripRecords | forceRelease
  | acknowledgePoint | erase | program | activate =>
    cases h
    refine ⟨fun _ _ => rfl, fun n h0 hn => ?_⟩
    obtain rfl : n = 1 := by simp at hn; omega
    rfl
  | readTripRecord | select | operate =>
    cases h
    refine ⟨fun _ _ => rfl, fun n h0 hn => ?_⟩
    simp only [List.length_cons, List.length_nil] at hn
    match n, h0, hn with
    | 1, _, _ | 2, _, _ => rfl
    | n + 3, _, hn => omega
  | readStaging offset length =>
    cases h
    refine ⟨fun _ _ => congrArg (Instr.readStaging · length) (operandHalf_extract offset), fun n h0 hn => ?_⟩
    simp only [halfOperand, List.cons_append, List.nil_append, List.length_cons, List.length_nil] at hn
    match n, h0, hn with
    | 1, _, _ | 2, _, _ | 3, _, _ => rfl
    | n + 4, _, hn => omega
  | releaseHold id tag =>
    cases h
    refine ⟨fun _ _ => congrArg (Instr.releaseHold id) (operandHalf_extract tag), fun n h0 hn => ?_⟩
    simp only [halfOperand, List.length_cons, List.length_nil] at hn
    match n, h0, hn with
    | 1, _, _ | 2, _, _ | 3, _, _ => rfl
    | n + 4, _, hn => omega
  | dismissHold id tag =>
    cases h
    refine ⟨fun _ _ => congrArg (Instr.dismissHold id) (operandHalf_extract tag), fun n h0 hn => ?_⟩
    simp only [halfOperand, List.length_cons, List.length_nil] at hn
    match n, h0, hn with
    | 1, _, _ | 2, _, _ | 3, _, _ => rfl
    | n + 4, _, hn => omega
  | extendHold id tag duration =>
    cases h
    refine ⟨fun _ _ => congr (congrArg (Instr.extendHold id) (operandHalf_extract tag)) (operandHalf_extract duration), fun n h0 hn => ?_⟩
    simp only [halfOperand, List.cons_append, List.nil_append, List.length_cons, List.length_nil] at hn
    match n, h0, hn with
    | 1, _, _ | 2, _, _ | 3, _, _ | 4, _, _ | 5, _, _ => rfl
    | n + 6, _, hn => omega
  | setTime time =>
    cases h
    refine ⟨fun _ _ => congrArg Instr.setTime (operandTime_extract time), fun n h0 hn => ?_⟩
    simp only [timeOperand, List.length_cons, List.length_nil] at hn
    match n, h0, hn with
    | 1, _, _ | 2, _, _ | 3, _, _ | 4, _, _ | 5, _, _ | 6, _, _ => rfl
    | n + 7, _, hn => omega
  | _ => cases h

/-! ### Messages (R147) -/

theorem stateOfByte_beaconStateByte (closed : Bool) : stateOfByte (beaconStateByte closed) = some closed := by
  cases closed <;> decide

theorem flagOfByte_yes (b : Bool) : flagOfByte (yes b) = some b := by cases b <;> decide

theorem classOfByte_classByte (c : FeederClass) : classOfByte (classByte c) = some c := by cases c <;> decide

theorem causeOfByte_intertripByte (c : IntertripCause) : causeOfByte (intertripByte c) = some c := by cases c <;> decide

theorem reasonOfByte_denyByte (r : DenyReason) : reasonOfByte (denyByte r) = some r := by cases r <;> decide

theorem kindOperand_kindByte (k : HoldKind) : kindOperand (kindByte k) = some k := by cases k <;> decide

theorem entriesOf_entryBytes (entries : List BeaconEntry) (rest : List Byte) :
    entriesOf entries.length (entries.flatMap entryBytes ++ rest) = some (entries, rest) := by
  induction entries with
  | nil => rfl
  | cons e l ih =>
    show entriesOf (l.length + 1) (e.line :: beaconStateByte e.closed :: classByte e.feederClass :: (l.flatMap entryBytes ++ rest)) = _
    rw [entriesOf, stateOfByte_beaconStateByte, classOfByte_classByte, ih]

theorem byteOf_toNat {n : Nat} (h : n < 256) : (byteOf n).toNat = n := by
  rw [byteOf, BitVec.toNat_ofNat]
  exact Nat.mod_eq_of_lt h

/-- The fields of a message are read back under its kind. -/
theorem bodyOf_messageFields {body : MsgBody} (h : fieldsValid body = true) : bodyOf (kindOfBody body) (messageFields body) = some body := by
  cases body with
  | beacon entries delivers =>
    have hlength : entries.length ≤ 2 := by
      simp only [fieldsValid, Bool.and_eq_true, decide_eq_true_eq] at h
      exact h.1
    show bodyOf 1 (byteOf entries.length :: (entries.flatMap entryBytes ++ [yes delivers])) = _
    show (match entriesOf (byteOf entries.length).toNat (entries.flatMap entryBytes ++ [yes delivers]) with
      | some (entries, [d]) => (flagOfByte d).map fun d => MsgBody.beacon entries d
      | _ => none) = _
    rw [byteOf_toNat (by omega), entriesOf_entryBytes]
    show (flagOfByte (yes delivers)).map _ = _
    rw [flagOfByte_yes]
    rfl
  | intertrip line cause => exact congrArg (Option.map (MsgBody.intertrip line)) (causeOfByte_intertripByte cause)
  | ask id line kind => exact congrArg (Option.map (MsgBody.ask id line)) (kindOperand_kindByte kind)
  | grant | drop | dropped => rfl
  | deny id reason => exact congrArg (Option.map (MsgBody.deny id)) (reasonOfByte_denyByte reason)
  | audit ids =>
    have hlength : ids.length ≤ 8 := by
      simp only [fieldsValid, Bool.and_eq_true, decide_eq_true_eq] at h
      exact h.1.1
    have hids : ids.flatMap (fun id => [id]) = ids := List.flatMap_singleton' ids
    show (if (ids.flatMap fun id => [id]).length = (byteOf ids.length).toNat then
      some (MsgBody.audit (ids.flatMap fun id => [id])) else none) = _
    rw [hids, byteOf_toNat (by omega), if_pos rfl]

theorem halfOperand_inj {a b : Half} (h : halfOperand a = halfOperand b) : a = b := by
  unfold halfOperand at h
  injection h with hi hl
  injection hl with hl
  rw [← operandHalf_extract a, hi, hl, operandHalf_extract]

/-- R147: the head of a message and the check code behind it. -/
theorem append_halfOperand_split (head : List Byte) (check : Half) :
    (head ++ halfOperand check).take ((head ++ halfOperand check).length - 2) = head ∧
      (head ++ halfOperand check).drop ((head ++ halfOperand check).length - 2) = halfOperand check := by
  have hlength : (head ++ halfOperand check).length - 2 = head.length := by simp [halfOperand]
  rw [hlength, List.take_left, List.drop_left]
  exact ⟨rfl, rfl⟩

theorem readMessage_discarded {head : List Byte} {check : Half} (h : check ≠ checkCode head) :
    readMessage (head ++ halfOperand check) = none := by
  unfold readMessage
  dsimp only
  rw [(append_halfOperand_split head check).1, (append_halfOperand_split head check).2, if_neg fun e => h (halfOperand_inj e)]

theorem readMessage_taken {kind station : Byte} {fields : List Byte} {body : MsgBody} (hbody : bodyOf kind fields = some body)
    (h : fieldsValid body = true) :
    readMessage (kind :: station :: fields ++ halfOperand (checkCode (kind :: station :: fields))) = some (station, body) := by
  unfold readMessage
  dsimp only
  rw [(append_halfOperand_split _ _).1, (append_halfOperand_split _ _).2, if_pos rfl]
  dsimp only
  rw [hbody]
  exact if_pos h

/-- Settles O16. -/
theorem messageRoundTrip : Obligations.MessageRoundTrip := by
  intro p station body h
  refine ⟨?_, fun check hcheck => ?_⟩
  · unfold eventOfBytes messageBytes
    rw [readMessage_taken (bodyOf_messageFields h) h]
  · unfold eventOfBytes
    rw [readMessage_discarded hcheck]

end Sys2Proof.Machine
end

section
/-! The station port: arming, broken frames, the reads with the status summary, and what it refuses with BUSY (R200 to R203). -/

namespace Sys2Proof.Machine

open Sys2Proof

variable {s u : State} {row : PortRow}

/-! ### Events whose first effect is known -/

/-- An event that the part takes and that hands nothing on. -/
theorem event_quiet_next {f : State → State} (hrun : s.resetHeld = false) (hf : f s = u) (hu : u.agenda = []) :
    event f s = .next u.finish := by
  rw [event_running f hrun, State.event_quiet f (by rw [hf]; exact hu), hf]

/-- A settled part that an event leaves as it is. -/
theorem event_still {f : State → State} (hrun : s.resetHeld = false) (hq : Quiet s) (hl : LevelLaw s) (ha : AttnLaw s)
    (hr : RetainedLaw s) (hf : f s = s) : event f s = .next s :=
  (event_quiet_next hrun hf hq).trans (congrArg _ (State.finish_same hl ha hr))

/-! ### The port before SEL is armed (R200) -/

theorem State.port_unarmed (named : Option Nat) (owner : Option (State → Answer)) (h : s.sp.selArmed = false) :
    s.port row named owner = s := if_neg (by simp [h])

theorem State.portRead_unarmed (code : Byte) (operands : Nat) (response : List Byte) (h : s.sp.selArmed = false) :
    s.portRead code operands response = s := if_neg (by simp [h])

theorem State.frameBreaks_unarmed (h : s.sp.selArmed = false) : s.frameBreaks = s := if_neg (by simp [h])

/-- No frame is opened by a port that is not armed, so no command of the port changes a part that has settled. -/
theorem exec_unarmed {c : Instr} (hrun : s.resetHeld = false) (harmed : s.sp.selArmed = false) (hq : Quiet s) (hl : LevelLaw s)
    (ha : AttnLaw s) (hr : RetainedLaw s) (hc : c = .brokenFrame ∨ (frameOfCommand c).isSome = true) : exec c s = .next s := by
  have taken_still : ∀ {f : State → State}, f s = s → taken f s = .next s :=
    fun hf => (taken_running _ hrun).trans (congrArg _ hf)
  have still : ∀ {f : State → State}, f s = s → event f s = .next s := event_still hrun hq hl ha hr
  have port : ∀ {row named owner}, s.port row named owner = s := State.port_unarmed _ _ harmed
  cases c with
  | readSection number =>
    show execReadSection number s = _
    exact taken_still (State.portRead_unarmed _ _ _ harmed)
  | readRectifier =>
    show execReadRectifier s = _
    exact taken_still (State.portRead_unarmed _ _ _ harmed)
  | readStatus | readFeeder | readTripRecord | readHold | listHolds | readAlerts | readPoint | readLink | readSettingsStatus
  | readStaging | readTime =>
    show taken _ s = _
    refine taken_still ?_
    exact State.portRead_unarmed _ _ _ harmed
  | unknownCommand | select | cancelSelection | clearTripRecords | setTime | erase | program | clearSettingsStatus =>
    show taken _ s = _
    refine taken_still ?_
    exact port
  | operate | resetLockout | releaseHold | extendHold | dismissHold | forceRelease | activate =>
    show event _ s = _
    refine still ?_
    exact port
  | emptyFrame | restart =>
    show taken _ s = _
    refine taken_still ?_
    exact if_neg (by simp [harmed])
  | brokenFrame =>
    show event _ s = _
    refine still ?_
    exact State.frameBreaks_unarmed harmed
  | placeHold kind tag count sections duration =>
    show execPlaceHold kind tag count sections duration s = _
    unfold execPlaceHold
    split
    · exact still (State.frameBreaks_unarmed harmed)
    · exact still port
  | writeStaging offset count data =>
    show execWriteStaging offset count data s = .next s
    unfold execWriteStaging
    split
    · refine still ?_
      exact State.frameBreaks_unarmed harmed
    · refine taken_still ?_
      exact port
  | acknowledgePoint point =>
    show execAcknowledgePoint point s = _
    exact taken_still ((congrArg State.closeAlerts port).trans (State.closeAlerts_same ha))
  | acknowledgeAll =>
    show execAcknowledgeAll s = _
    exact taken_still ((congrArg State.closeAlerts port).trans (State.closeAlerts_same ha))
  | setLock =>
    show execSetLock s = _
    exact taken_still ((congrArg State.writeRetained port).trans (State.writeRetained_same s hr))
  | clearLock =>
    show execClearLock s = _
    exact taken_still ((congrArg State.writeRetained port).trans (State.writeRetained_same s hr))
  | _ =>
    rcases hc with hc | hc
    · exact Instr.noConfusion hc
    · exact absurd hc Bool.false_ne_true

/-- Settles O18. -/
theorem portArming : Obligations.PortArming := fun _ hrun =>
  ⟨taken_running _ hrun,
    fun harmed => ⟨(taken_running _ hrun).trans (congrArg _ (if_pos harmed)),
      fun _ => (taken_running _ hrun).trans (congrArg _ (if_pos harmed))⟩,
    fun harmed hq hl ha hr _ hc => exec_unarmed hrun harmed hq hl ha hr hc⟩

/-! ### Broken frames (R201) -/

/-- Settles O19: BROKEN_FRAME, and a WRITE STAGING that is cut short, which is one. -/
theorem brokenFrame : Obligations.BrokenFrame := by
  intro s hready broken herrors
  have hbreaks : s.frameBreaks = broken.pulse 64 := by
    unfold State.frameBreaks
    rw [if_pos hready.armed]
    simp only [broken, State.modSp, satSucc_eq_min herrors]
  have hbroken : event State.frameBreaks s = .next (broken.pulse 64).finish :=
    event_quiet_next hready.running hbreaks (by rw [State.pulse_agenda]; exact hready.quiet)
  refine ⟨hbroken, fun offset count data h1 h64 hshort => ?_⟩
  show execWriteStaging offset count data s = _
  unfold execWriteStaging
  rw [if_pos (by simp [shortOf, h1, h64, hshort]), hbroken]

/-! ### The reads (R202) -/

theorem State.portRead_armed (code : Byte) (operands : Nat) (response : List Byte) (h : s.sp.selArmed = true) :
    s.portRead code operands response = s.showing code operands response := if_pos h

theorem feederOperand_eq_none {b : Byte} (h : 6 ≤ b.toNat) : feederOperand b = none := dif_neg (by omega)

theorem sectionOperand_of_lt {b : Byte} {n : SectionNo} (h : b.toNat = n.val) : sectionOperand b = some n :=
  (dif_pos (h ▸ n.isLt)).trans (congrArg some (Fin.ext h))

theorem sectionOperand_eq_none {b : Byte} (h : 7 ≤ b.toNat) : sectionOperand b = none := dif_neg (by omega)

theorem pointOperand_of_lt {b : Byte} {p : PointNo} (h : b.toNat = p.val) : pointOperand b = some p :=
  (dif_pos (h ▸ p.isLt)).trans (congrArg some (Fin.ext h))

theorem pointOperand_eq_none {b : Byte} (h : 79 ≤ b.toNat) : pointOperand b = none := dif_neg (by omega)

theorem portOperand_eq_none {b : Byte} (h : 2 ≤ b.toNat) : portOperand b = none := by
  unfold portOperand
  rw [if_neg (by rintro rfl; simp at h), if_neg (by rintro rfl; simp at h)]

theorem State.tripResponse_outside (k : FeederNo) {choice : Byte} (h : 2 ≤ choice.toNat) :
    s.tripResponse k choice = refused .badOperand := by
  unfold State.tripResponse
  rw [if_neg (by rintro rfl; simp at h), if_neg (by rintro rfl; simp at h)]

theorem stagingBounds_iff {offset length : Nat} :
    stagingBounds offset length = true ↔ 1 ≤ length ∧ length ≤ 64 ∧ offset + length ≤ 512 := by
  simp [stagingBounds, and_assoc]
  omega

theorem State.showing_dataOut (s : State) (code : Byte) (operands : Nat) (response : List Byte) (n : Nat) :
    (s.showing code operands response).dataOut n = if n ≤ operands then 0 else response.getD (n - operands - 1) 0 := by
  show (if n < operands + 1 then 0 else response.getD (n - (operands + 1)) 0) = _
  simp only [Nat.lt_succ_iff, Nat.sub_sub]

/-- The read of an armed port, its answer worked out. -/
theorem taken_portRead {f : State → State} {code : Byte} {operands : Nat} {answer response : List Byte} (hrun : s.resetHeld = false)
    (harmed : s.sp.selArmed = true) (hf : f s = s.portRead code operands answer) (h : answer = response) :
    taken f s = .next (s.showing code operands response) := by
  rw [taken_running f hrun, hf, h, State.portRead_armed _ _ _ harmed]

/-- Settles O20: each read is the answer of its operand, behind a port that is armed. -/
theorem readsAnswer : Obligations.ReadsAnswer := by
  intro s hrun harmed
  have bare : ∀ {f : State → State} {code : Byte} {operands : Nat} {response : List Byte},
      f s = s.portRead code operands response → taken f s = .next (s.showing code operands response) :=
    fun hf => taken_portRead hrun harmed hf rfl
  refine ⟨?status, fun b k hb => ?feeder, fun b hb => ?noFeeder, fun b n hb => ?sect, fun b hb => ?noSection,
    fun id h hh => ?hold, fun id hid => ?noHold, ?holds, ?rectifier, ?alerts, fun b p hb => ?point, fun b hb => ?noPoint, ?linkA,
    ?linkB, fun b hb => ?noLink, ?settings, fun o l h1 h64 h512 => ?staging, fun o l h => ?noStaging, ?time,
    fun code operands response n => State.showing_dataOut s code operands response n⟩
  case status => show execReadStatus s = _; exact bare rfl
  case holds => show execListHolds s = _; exact bare rfl
  case rectifier => show execReadRectifier s = _; exact bare rfl
  case alerts => show execReadAlerts s = _; exact bare rfl
  case linkA => show execReadLink 0 s = _; exact bare rfl
  case linkB => show execReadLink 1 s = _; exact bare rfl
  case settings => show execReadSettingsStatus s = _; exact bare rfl
  case time => show execReadTime s = _; exact bare rfl
  case feeder =>
    have hk := feederOperand_eq_some_iff.2 hb
    have trip : ∀ {choice : Byte} {response : List Byte}, s.tripResponse k choice = response →
        execReadTripRecord b choice s = .next (s.showing 0x04 2 response) :=
      fun h => taken_portRead hrun harmed rfl (by rw [hk]; exact h)
    exact ⟨show execReadFeeder b s = _ from taken_portRead hrun harmed rfl (by rw [hk]; rfl), trip rfl, trip rfl,
      fun choice hchoice => trip (State.tripResponse_outside k hchoice)⟩
  case noFeeder =>
    have hk := feederOperand_eq_none hb
    exact ⟨show execReadFeeder b s = _ from taken_portRead hrun harmed rfl (by rw [hk]; rfl),
      fun choice => show execReadTripRecord b choice s = _ from taken_portRead hrun harmed rfl (by rw [hk]; rfl)⟩
  case sect =>
    show execReadSection b s = _
    exact taken_portRead hrun harmed rfl (by rw [sectionOperand_of_lt hb]; rfl)
  case noSection =>
    show execReadSection b s = _
    exact taken_portRead hrun harmed rfl (by rw [sectionOperand_eq_none hb]; rfl)
  case hold =>
    show execReadHold id s = _
    exact taken_portRead hrun harmed rfl (by rw [hh]; rfl)
  case noHold =>
    show execReadHold id s = _
    exact taken_portRead hrun harmed rfl (by rw [hid]; rfl)
  case point =>
    show execReadPoint b s = _
    exact taken_portRead hrun harmed rfl (by rw [pointOperand_of_lt hb]; rfl)
  case noPoint =>
    show execReadPoint b s = _
    exact taken_portRead hrun harmed rfl (by rw [pointOperand_eq_none hb]; rfl)
  case noLink =>
    show execReadLink b s = _
    exact taken_portRead hrun harmed rfl (by rw [portOperand_eq_none hb]; rfl)
  case staging =>
    show execReadStaging o l s = _
    exact taken_portRead hrun harmed rfl (by rw [if_pos (stagingBounds_iff.2 ⟨h1, h64, h512⟩)]; rfl)
  case noStaging =>
    show execReadStaging o l s = _
    exact taken_portRead hrun harmed rfl (by rw [if_neg fun e => by have := stagingBounds_iff.1 e; omega]; rfl)

/-! ### The status summary (R183) -/

theorem bytesOfNat_length (size v : Nat) : (bytesOfNat size v).length = size := by
  induction size generalizing v with
  | zero => rfl
  | succ n ih => rw [bytesOfNat, List.length_append, ih]; rfl

theorem natOfBytes_append_singleton (bytes : List Byte) (b : Byte) : natOfBytes (bytes ++ [b]) = natOfBytes bytes * 256 + b.toNat :=
  List.foldl_append

/-- R213: a number that fits its bytes is read back from them. -/
theorem natOfBytes_bytesOfNat {size v : Nat} (h : v < 256 ^ size) : natOfBytes (bytesOfNat size v) = v := by
  induction size generalizing v with
  | zero => exact (Nat.lt_one_iff.1 h).symm
  | succ n ih =>
    have hv : v / 256 < 256 ^ n := Nat.div_lt_of_lt_mul (by rwa [Nat.mul_comm, ← Nat.pow_succ])
    rw [bytesOfNat, natOfBytes_append_singleton, ih hv, BitVec.toNat_ofNat]
    omega

/-- The first of an ascending list that a test accepts. -/
theorem find?_first {n : Nat} {l : List (Fin n)} {p : Fin n → Bool} {k : Fin n} (hl : l.Pairwise (· < ·)) (hk : k ∈ l) (hp : p k = true)
    (hlt : ∀ j, j < k → p j = false) : l.find? p = some k := by
  induction l with
  | nil => cases hk
  | cons a l ih =>
    obtain ⟨ha, hl⟩ := List.pairwise_cons.1 hl
    rcases List.mem_cons.1 hk with rfl | hk
    · exact List.find?_cons_of_pos hp
    · rw [List.find?_cons_of_neg (by rw [hlt a (ha k hk)]; exact Bool.false_ne_true), ih hl hk]

theorem allFeeders_ascending : allFeeders.Pairwise (· < ·) := by decide

theorem State.lowestOut_eq_none (h : ∀ k, s.seqIn k .lockout = false ∧ s.seqIn k .breakerFault = false) : s.lowestOut = none :=
  List.find?_eq_none.2 fun k _ => by rw [(h k).1, (h k).2]; exact Bool.false_ne_true

theorem State.lowestOut_eq_some {k : FeederNo} (hk : (s.seqIn k .lockout || s.seqIn k .breakerFault) = true)
    (hlt : ∀ j : FeederNo, j.val < k.val → s.seqIn j .lockout = false ∧ s.seqIn j .breakerFault = false) : s.lowestOut = some k :=
  find?_first allFeeders_ascending (mem_allFeeders k) hk fun j hj => by rw [(hlt j hj).1, (hlt j hj).2]; rfl

/-- The bytes of the summary from offset 13 on: three numbers of fixed size. -/
theorem State.statusBytes_drop (s : State) :
    s.statusBytes.drop 13 = bytesOfNat 6 s.au.time.toNat ++ (bytesOfNat 2 s.sp.frameErrors ++ lastBytes s.sp.lastResult) := by
  unfold State.statusBytes
  rw [List.append_assoc, List.append_assoc]
  rfl

theorem State.statusBytes_drop_last (s : State) : s.statusBytes.drop 21 = lastBytes s.sp.lastResult := by
  have h := congrArg (List.drop 8) s.statusBytes_drop
  rw [List.drop_drop] at h
  rw [h, ← List.append_assoc]
  exact List.drop_left' (by rw [List.length_append, bytesOfNat_length, bytesOfNat_length])

theorem lastBytes_length (r : Option LastResult) : (lastBytes r).length = 4 := by cases r <;> rfl

/-- Settles O21: the first thirteen bytes stand one by one, the rest behind them. -/
theorem statusSummaryLayout : Obligations.StatusSummaryLayout := by
  intro s
  have hlast := s.statusBytes_drop_last
  have time : natOfBytes ((s.statusBytes.drop 13).take 6) = s.au.time.toNat := by
    rw [s.statusBytes_drop, List.take_left' (bytesOfNat_length 6 _)]
    exact natOfBytes_bytesOfNat s.au.time.isLt
  have errors (h : s.sp.frameErrors ≤ 65535) : natOfBytes ((s.statusBytes.drop 19).take 2) = s.sp.frameErrors := by
    have hdrop := congrArg (List.drop 6) s.statusBytes_drop
    rw [List.drop_drop, List.drop_left' (bytesOfNat_length 6 _)] at hdrop
    rw [hdrop, List.take_left' (bytesOfNat_length 2 _)]
    exact natOfBytes_bytesOfNat (by omega)
  have result (r : LastResult) (hr : s.sp.lastResult = some r) : s.statusBytes[21]? = some r.code ∧
      s.statusBytes[22]? = some (outcomeByte r.result) ∧ (r.value ≤ 65535 → natOfBytes (s.statusBytes.drop 23) = r.value) := by
    have hbytes : s.statusBytes.drop 21 = [r.code, outcomeByte r.result] ++ bytesOfNat 2 r.value := by rw [hlast, hr]; rfl
    have hdrop := congrArg (List.drop 2) hbytes
    rw [List.drop_drop, show [r.code, outcomeByte r.result] ++ bytesOfNat 2 r.value = r.code :: outcomeByte r.result :: bytesOfNat 2 r.value from rfl] at hdrop
    replace hdrop : s.statusBytes.drop 23 = bytesOfNat 2 r.value := hdrop
    refine ⟨?_, ?_, fun h => by rw [hdrop]; exact natOfBytes_bytesOfNat (by omega)⟩
    · rw [show 21 = 21 + 0 from rfl, ← List.getElem?_drop, hbytes]; rfl
    · rw [show 22 = 21 + 1 from rfl, ← List.getElem?_drop, hbytes]; rfl
  refine ⟨?_, rfl, rfl, rfl, rfl, rfl, rfl, fun p l h => ?_, fun h => ?_, rfl, rfl, fun h => ?_, fun k hk hlt => ?_, time, errors,
    result, fun h => by rw [hlast, h]; rfl⟩
  · unfold State.statusBytes
    simp only [List.length_append, bytesOfNat_length, lastBytes_length]
    rfl
  · show some (match s.au.alerts with | [] => 0xFF | p :: _ => byteOf p.val) = _
    rw [h]; rfl
  · show some (match s.au.alerts with | [] => 0xFF | p :: _ => byteOf p.val) = _
    rw [h]
  · show some (match s.lowestOut with | some k => byteOf k.val | none => 0xFF) = _
    rw [State.lowestOut_eq_none h]
  · show some (match s.lowestOut with | some k => byteOf k.val | none => 0xFF) = _
    rw [State.lowestOut_eq_some hk hlt]; rfl

/-! ### BUSY (R203 item 2) -/

/-- Until equipment verification has ended the port answers for the owner of a command that waits for it. -/
theorem State.port_busy (named : Option Nat) (owner : Option (State → Answer)) (harmed : s.sp.selArmed = true)
    (hverifying : s.verification.isSome = true) (hrow : row.waits = true) :
    s.port row named owner = s.resulting row.code (.refused .busy) (named.getD 0) := by
  simp [State.port, harmed, State.portAnswer, State.verifying, hverifying, hrow, State.record, State.modSp, refuse,
    State.resulting]

/-- Settles O23. -/
theorem busyUntilVerified : Obligations.BusyUntilVerified := by
  intro s hready hverifying
  have busy : ∀ {row : PortRow} {named owner}, row.waits = true →
      s.port row named owner = s.resulting row.code (.refused .busy) (named.getD 0) :=
    State.port_busy _ _ hready.armed hverifying
  have ends : ∀ {f : State → State} {code : Byte} {value : Nat}, f s = s.resulting code (.refused .busy) value →
      event f s = .next (s.resulting code (.refused .busy) value).finish := fun hf => event_quiet_next hready.running hf hready.quiet
  refine ⟨fun t a => (taken_running _ hready.running).trans (congrArg _ (busy rfl)), fun t a => ?_, fun k => ?_,
    fun k => (taken_running _ hready.running).trans (congrArg _ (busy rfl)), fun kind tag count l d h1 h7 hl => ?_,
    fun id tag => ?_, fun id tag d => ?_, fun id tag => ?_, fun id => ?_⟩
  case refine_3 =>
    show execPlaceHold kind tag count l d s = _
    unfold execPlaceHold
    rw [if_neg (by simp [shortOf, hl])]
    exact ends (busy rfl)
  all_goals
    show event _ s = _
    refine ends ?_
    exact busy rfl

end Sys2Proof.Machine
end

section
/-! Annunciation, the clock and the settings by command (R175, R176, R181, R182, R186, R188 to R190, R194). -/

namespace Sys2Proof.Machine

open Sys2Proof

variable {s t : State} {p : PointNo} {row : PortRow} {owner : State → Answer}

/-! ### Commands whose row asks for nothing (R203) -/

/-- A row without conditions hands its command to its owner. -/
theorem State.port_plain (named : Option Nat) (harmed : s.sp.selArmed = true) (hwaits : row.waits = false) (hremote : row.remote = false)
    (hkey : row.supervisor = false) : s.port row named (some owner) = State.record row named (owner s) := by
  simp [State.port, harmed, State.portAnswer, hwaits, hremote, hkey]

/-! ### Acknowledgements (R175, R176) -/

theorem onList_ackOn (r : PointRec) : onList (ackOn r).state = false := by
  unfold ackOn
  cases h : r.state <;> simp [toNormal, onList, h]

theorem ackOn_unack {r : PointRec} (h : r.state = .unack) : ackOn r = { r with state := .acked, repeats := none } := by
  unfold ackOn
  rw [h]

theorem ackOn_clearedUnack {r : PointRec} (h : r.state = .clearedUnack) :
    ackOn r = { r with state := .normal, rise := none, repeats := none } := by
  unfold ackOn
  rw [h]
  rfl

/-- R174, R175: an acknowledged point leaves the list. -/
theorem State.ackPoint_eq (hjoining : s.au.joining = []) (hlist : onList (s.point p).state = true) :
    s.ackPoint p = s.modAu fun a => { a with points := a.points.set p (ackOn (s.point p)), alerts := a.alerts.erase p, joining := [] } := by
  have hbefore : onList (s.au.points.get p).state = true := hlist
  unfold State.ackPoint State.putPoint State.modAu
  dsimp only
  rw [hbefore, onList_ackOn, hjoining]
  rfl

theorem State.commandAck_off (hlist : onList (s.point p).state = false) : s.commandAck p = refuse s .state := by
  unfold State.commandAck
  rw [hlist]
  rfl

theorem State.commandAck_on (hlist : onList (s.point p).state = true) : s.commandAck p = accept (s.ackPoint p) p.val := if_pos hlist

theorem AttnLaw.congr (h : AttnLaw s) (hau : t.au = s.au) : AttnLaw t := by
  unfold AttnLaw
  rw [hau]
  exact h

/-- Settles O33. -/
theorem acknowledgePoint : Obligations.AcknowledgePoint := by
  intro s b hrun harmed hattn
  have refused : ∀ {code : RefusalCode} {owner}, (∀ u : State, s.port { code := 0x40 } none owner = u → u = s.refusing 0x40 code) →
      (s.port { code := 0x40 } none owner).closeAlerts = s.refusing 0x40 code :=
    fun h => (congrArg State.closeAlerts (h _ rfl)).trans (State.closeAlerts_same (hattn.congr rfl))
  refine ⟨fun hb => ?_, fun p hp => ?_⟩
  · show execAcknowledgePoint b s = _
    unfold execAcknowledgePoint
    rw [taken_running _ hrun, pointOperand_eq_none hb, refused]
    rintro _ rfl
    exact if_pos harmed
  · have judged : exec (.acknowledgePoint b) s =
        .next (State.record { code := 0x40 } none (s.commandAck p)).closeAlerts := by
      show execAcknowledgePoint b s = _
      unfold execAcknowledgePoint
      rw [taken_running _ hrun, pointOperand_of_lt hp]
      exact congrArg (fun u => Host.Outcome.next (State.closeAlerts u)) (State.port_plain none harmed rfl rfl rfl)
    have acked (h : onList (s.point p).state = true) : exec (.acknowledgePoint b) s =
        .next { s.resulting 0x40 .accepted p.val with
                au := { s.au with
                        points := s.au.points.set p (ackOn (s.point p)), alerts := s.au.alerts.erase p, joining := [],
                        attn := !(s.au.alerts.erase p).isEmpty } } := by
      rw [judged, State.commandAck_on h, State.ackPoint_eq hattn.1 h]
      simp only [State.closeAlerts, State.record, State.modAu, State.modSp, accept, State.resulting, List.append_nil]
      rfl
    refine ⟨fun h => ?_, fun h => ?_, fun h => ?_⟩
    · have hoff : onList (s.point p).state = false := by rcases h with h | h <;> rw [h] <;> rfl
      rw [judged, State.commandAck_off hoff]
      exact congrArg _ (State.closeAlerts_same (hattn.congr rfl))
    · rw [acked (by rw [h]; rfl), ackOn_unack h]
    · rw [acked (by rw [h]; rfl), ackOn_clearedUnack h]

theorem emptied_eq {a : Annunciation} (halerts : a.alerts = []) (hjoining : a.joining = []) :
    { a with alerts := [], joining := [] } = a := by
  cases a
  cases halerts
  cases hjoining
  rfl

/-- R176: the points of the list, one after the other. -/
theorem ackPoints_eq : ∀ {l : List PointNo} {s : State}, s.au.alerts = l → s.au.joining = [] → l.Nodup →
    (∀ p ∈ l, onList (s.point p).state = true) →
    ∃ v, forEach l State.ackPoint s = { s with au := { s.au with points := v, alerts := [], joining := [] } } ∧
      ∀ q, v.get q = if q ∈ l then ackOn (s.point q) else s.point q
  | [], s, halerts, hjoining, _, _ => by
    refine ⟨s.au.points, ?_, fun q => (if_neg List.not_mem_nil).symm⟩
    show s = { s with au := { s.au with alerts := [], joining := [] } }
    rw [emptied_eq halerts hjoining]
  | p :: l, s, halerts, hjoining, hnodup, hlisted => by
    obtain ⟨hp, hl⟩ := List.nodup_cons.1 hnodup
    have hfirst := State.ackPoint_eq hjoining (hlisted p List.mem_cons_self)
    have other : ∀ q, q ≠ p → (s.ackPoint p).point q = s.point q := fun q hq => State.putPoint_point_ne s hq _
    have hrest : (s.ackPoint p).au.alerts = l := by
      rw [hfirst]
      show s.au.alerts.erase p = l
      rw [halerts, List.erase_cons_head]
    obtain ⟨v, hv, hpoints⟩ := ackPoints_eq hrest (by rw [hfirst]; rfl) hl fun q hq => by
      rw [other q (by rintro rfl; exact hp hq)]
      exact hlisted q (List.mem_cons_of_mem _ hq)
    refine ⟨v, ?_, fun q => ?_⟩
    · show forEach l State.ackPoint (s.ackPoint p) = _
      rw [hv, hfirst]
      rfl
    · rw [hpoints q]
      by_cases hq : q = p
      · subst hq
        rw [if_neg hp, if_pos List.mem_cons_self]
        exact State.putPoint_point s _ _
      · rw [other q hq]
        simp only [List.mem_cons, hq, false_or]

theorem onList_cases {r : PointRec} (h : onList r.state = true) : r.state = .unack ∨ r.state = .clearedUnack := by
  cases hr : r.state <;> rw [hr] at h <;> simp_all [onList]

/-- Settles O34. -/
theorem acknowledgeAll : Obligations.AcknowledgeAll := by
  intro s hrun harmed halert hattn
  have hlist : s.au.alerts ++ s.au.joining = s.au.alerts := by rw [hattn.1, List.append_nil]
  have hnodup : s.au.alerts.Nodup := hlist ▸ halert.once
  have hlisted : ∀ p, p ∈ s.au.alerts ↔ onList (s.point p).state = true := fun p => by rw [← halert.points p, hlist]
  obtain ⟨v, hv, hpoints⟩ := ackPoints_eq rfl hattn.1 hnodup fun p => (hlisted p).1
  refine ⟨v, ?_, by simpa using hnodup.length_le_of_subset fun p _ => List.mem_finRange p, fun p => ?_⟩
  · show execAcknowledgeAll s = _
    unfold execAcknowledgeAll
    have hack : s.ackList = { s with au := { s.au with points := v, alerts := [], joining := [] } } := hv
    rw [taken_running _ hrun, State.port_plain none harmed rfl rfl rfl, State.commandAckAll, hack]
    rfl
  · rw [hpoints p]
    by_cases hp : p ∈ s.au.alerts
    · rw [if_pos hp, if_pos hp]
      rcases onList_cases ((hlisted p).1 hp) with h | h
      · rw [if_pos h, ackOn_unack h]
      · rw [if_neg (by rw [h]; decide), ackOn_clearedUnack h]
    · rw [if_neg hp, if_neg hp]

/-! ### The clock (R181, R182) -/

theorem State.tick_seq (s : State) (k : FeederNo) : s.tick.seq k = tickSeq (s.seq k) := vmap_get _ _ k

/-- R181: the tick writes beside the clock the records that hold timers. -/
theorem State.tick_only (s : State) : OnlyChanges [.reception, .inputs, .pairs, .sequencers, .rectifier, .sections, .holds, .linkA,
    .linkB, .clock, .settings, .port, .verification] s s.tick := by
  intro p m
  cases p
  all_goals first
    | exact absurd (by decide) m
    | rfl
    | exact ⟨rfl, rfl⟩
    | exact ⟨rfl, rfl, rfl, rfl⟩

/-- Settles O35. -/
theorem timeKept : Obligations.TimeKept := by
  intro s hrun
  refine ⟨fun harmed time => ?_, s.tick, taken_running _ hrun, rfl, fun k => s.tick_seq k, rfl, fun n => s.tick_sec n, ?_,
    fun p => by cases p <;> rfl, rfl, rfl, s.tick_only⟩
  · show execSetTime time s = _
    unfold execSetTime
    rw [taken_running _ hrun, State.port_plain none harmed rfl rfl rfl]
    rfl
  · show (s.ht.holds.map tickHold).map retainedHold = _
    rw [List.map_map]
    rfl

/-! ### The staging buffer (R186) -/

theorem writeBytes_get (start : Nat) (data : List Byte) (v : Vector Byte 512) (i : Fin 512) :
    (writeBytes start data v).get i = if start ≤ i.val ∧ i.val < start + data.length then data.getD (i.val - start) 0 else v.get i := by
  exact Vector.getElem_ofFn _

/-- What has been written is what the buffer shows. -/
theorem writeBytes_shown {start : Nat} {data : List Byte} (v : Vector Byte 512) (h : start + data.length ≤ 512) :
    ((writeBytes start data v).toList.drop start).take data.length = data := by
  refine List.ext_getElem (by simp; omega) fun i hi hd => ?_
  have hlt : start + i < 512 := by omega
  have hget := writeBytes_get start data v ⟨start + i, hlt⟩
  rw [if_pos (by dsimp only; omega)] at hget
  simp only [Vector.get, Nat.add_sub_cancel_left] at hget
  simp only [List.getElem_take, List.getElem_drop]
  simpa [List.getD_eq_getElem?_getD, hd] using hget

theorem State.commandWrite_outside {start : Nat} {data : List Byte} (h : stagingBounds start data.length = false) :
    s.commandWrite start data = refuse s .badOperand := if_pos (by simp [h])

theorem State.commandWrite_busy {start : Nat} {data : List Byte} (h : stagingBounds start data.length = true)
    (hbusy : s.store.operation ≠ none) : s.commandWrite start data = refuse s .busy := by
  unfold State.commandWrite
  rw [if_neg (by simp [h]), if_pos (Option.isSome_iff_ne_none.2 hbusy)]

theorem State.commandWrite_taken {start : Nat} {data : List Byte} (h : stagingBounds start data.length = true)
    (hidle : s.store.operation = none) :
    s.commandWrite start data = accept (s.modStore fun st => { st with staging := writeBytes start data st.staging }) data.length := by
  unfold State.commandWrite
  rw [if_neg (by simp [h]), if_neg (by simp [hidle])]

/-- Settles O36. -/
theorem writeStaging : Obligations.WriteStaging := by
  intro s offset count data hrun harmed
  refine ⟨fun hcount => ?_, fun h1 h64 hlength => ?_⟩
  · show execWriteStaging offset count [] s = _
    have hshort : shortOf 1 64 count [] = false := by
      simp only [shortOf, Bool.and_eq_false_imp, Bool.and_eq_true, decide_eq_true_eq, decide_eq_false_iff_not]
      intro h
      exact absurd h (by simp; omega)
    unfold execWriteStaging
    rw [hshort, if_neg (by omega : ¬ (1 ≤ count.toNat ∧ count.toNat ≤ 64)), if_neg Bool.false_ne_true, taken_running _ hrun]
    exact congrArg _ (if_pos harmed)
  · have judged : exec (.writeStaging offset count data) s =
        .next (State.record { code := 0x50 } none (s.commandWrite offset.toNat data)) := by
      show execWriteStaging offset count data s = _
      unfold execWriteStaging
      rw [if_neg (by simp [shortOf, hlength]), if_pos ⟨h1, h64⟩, ← hlength, List.take_length, taken_running _ hrun,
        State.port_plain none harmed rfl rfl rfl]
    refine ⟨fun hpast => ?_, fun hfits hbusy => ?_, fun hfits hidle => ?_⟩
    · rw [judged, State.commandWrite_outside]
      · rfl
      · rw [Bool.eq_false_iff, ne_eq, stagingBounds_iff]
        omega
    · rw [judged, State.commandWrite_busy (stagingBounds_iff.2 (by omega)) hbusy]
      rfl
    · refine ⟨writeBytes offset.toNat data s.store.staging, ?_, fun i => ?_, ?_⟩
      · rw [judged, State.commandWrite_taken (stagingBounds_iff.2 (by omega)) hidle, hlength]
        rfl
      · rw [writeBytes_get, hlength]
      · rw [← hlength]
        exact writeBytes_shown _ (by omega)

/-! ### Operations of the store (R188, R189) -/

theorem targetOf_of_code {code : Byte} {target : StoreTarget} (h : code.toNat = targetCode target) : targetOf code = some target := by
  cases target with
  | group g => exact (dif_pos (h ▸ g.isLt)).trans (congrArg (fun x => some (StoreTarget.group x)) (Fin.ext h))
  | config =>
    have h4 : code.toNat = 4 := h
    exact (dif_neg (by omega)).trans (if_pos h)

theorem targetOf_outside {code : Byte} (h : 4 < code.toNat) : targetOf code = none :=
  (dif_neg (by omega)).trans (if_neg (by omega))

section
variable {target : StoreTarget}

theorem State.storeRefusal_busy (h : s.store.operation ≠ none) : s.storeRefusal target = some .busy :=
  if_pos (Option.isSome_iff_ne_none.2 h)

theorem State.storeRefusal_locked (h : s.store.operation = none) (hlock : s.store.lock = true) :
    s.storeRefusal target = some .locked :=
  (if_neg (by simp [h])).trans (if_pos hlock)

theorem State.storeRefusal_active (h : s.store.operation = none) (hlock : s.store.lock = false)
    (hactive : target = .group s.store.active) : s.storeRefusal target = some .activeGroup :=
  (if_neg (by simp [h])).trans ((if_neg (by simp [hlock])).trans (if_pos hactive))

theorem State.storeRefusal_none (h : s.store.operation = none) (hlock : s.store.lock = false)
    (hactive : target ≠ .group s.store.active) : s.storeRefusal target = none :=
  (if_neg (by simp [h])).trans ((if_neg (by simp [hlock])).trans (if_neg hactive))

end

/-- Settles O37. -/
theorem operationsBegin : Obligations.OperationsBegin := by
  intro s code hrun harmed
  have erase : exec (.erase code) s = .next (State.record { code := 0x51 } none (s.commandErase code)) := by
    show execErase code s = _
    unfold execErase
    rw [taken_running _ hrun, State.port_plain none harmed rfl rfl rfl]
  have program : exec (.program code) s = .next (State.record { code := 0x52 } none (s.commandProgram code)) := by
    show execProgram code s = _
    unfold execProgram
    rw [taken_running _ hrun, State.port_plain none harmed rfl rfl rfl]
  rw [erase, program]
  unfold State.commandErase State.commandProgram
  refine ⟨fun h => ?_, fun target h => ?_⟩
  · rw [targetOf_outside h]
    exact ⟨rfl, rfl⟩
  · rw [targetOf_of_code h]
    dsimp only
    refine ⟨fun hbusy => ?_, fun hidle hlock => ?_, fun hidle hlock => ⟨fun hactive => ?_, fun hother => ?_⟩⟩
    · rw [State.storeRefusal_busy hbusy]
      exact ⟨rfl, rfl⟩
    · rw [State.storeRefusal_locked hidle hlock]
      exact ⟨rfl, rfl⟩
    · rw [State.storeRefusal_active hidle hlock hactive]
      exact ⟨rfl, rfl⟩
    · rw [State.storeRefusal_none hidle hlock hother]
      refine ⟨rfl, fun himage => ?_, fun himage => ?_⟩
      · dsimp only
        rw [if_pos himage]
        rfl
      · dsimp only
        rw [if_neg (Classical.not_not.2 himage)]
        refine ⟨fun i hi => ?_, fun hnone => ?_⟩
        · rw [hi]
          rfl
        · rw [hnone]
          rfl

/-! ### Status and lock (R190, R194) -/

/-- Settles O40: a lock that is as it was leaves nothing to write. -/
theorem settingsStatusAndLock : Obligations.SettingsStatusAndLock := by
  intro s hrun harmed
  have setLock : exec .setLock s = .next (State.writeRetained (State.record { code := 0x55 } none s.commandSetLock)) := by
    show execSetLock s = _
    unfold execSetLock
    rw [taken_running _ hrun, State.port_plain none harmed rfl rfl rfl]
  have clearLock : exec .clearLock s = .next (State.writeRetained (State.record { code := 0x56 } none s.commandClearLock)) := by
    show execClearLock s = _
    unfold execClearLock
    rw [taken_running _ hrun, State.port_plain none harmed rfl rfl rfl]
  refine ⟨?_, setLock, fun hlock hretained => ?_, fun hkey hretained => ?_, fun hkey => ?_⟩
  · show execClearSettingsStatus s = _
    unfold execClearSettingsStatus
    rw [taken_running _ hrun, State.port_plain none harmed rfl rfl rfl]
    rfl
  · have hsame : State.record { code := 0x55 } none s.commandSetLock = s.resulting 0x55 .accepted 0 := by
      have hstore : ({ s.store with lock := true } : Store) = s.store := by rw [← hlock]
      exact congrArg (fun st => State.resulting 0x55 .accepted 0 { s with store := st }) hstore
    rw [setLock, hsame]
    exact congrArg _ (State.writeRetained_same _ (hretained.congr rfl ⟨rfl, rfl⟩))
  · rw [clearLock, State.commandClearLock, if_neg (by simp [hkey])]
    exact congrArg _ (State.writeRetained_same _ (hretained.congr rfl ⟨rfl, rfl⟩))
  · rw [clearLock, State.commandClearLock, if_pos hkey]
    rfl

end Sys2Proof.Machine
end

section
/-! Judgements over one record: the four criteria (R23 to R33), where a confirmed open leads (R48, R49), one regulation step (R78 to
R80). -/

namespace Sys2Proof.Machine

open Sys2Proof

variable {p : ParamSet} {feed : Nat} {e : Engine} {a : Arming}

/-! ### The DELTA criterion, stage by stage (R24 to R26) -/

theorem deltaJudge_idle (rate : Option Int) (h : e.stage = .idle) : deltaJudge p feed rate e = (deltaIdle p feed rate e.history e, false) := by
  unfold deltaJudge
  rw [h]

theorem deltaJudge_rising (rate : Option Int) (h : e.stage = .rising) (ha : e.arming = some a) :
    deltaJudge p feed rate e = (deltaRising p feed rate a e, false) := by
  unfold deltaJudge
  rw [h, ha]

theorem deltaJudge_confirm (rate : Option Int) (h : e.stage = .confirm) (ha : e.arming = some a) :
    deltaJudge p feed rate e = deltaConfirm p feed a e := by
  unfold deltaJudge
  rw [h, ha]

/-- R24: without a full history nothing is armed. -/
theorem deltaIdle_short (hshort : e.history.length < 2) : deltaIdle p feed (riseRate feed e.history) e.history e = e := by
  unfold deltaIdle riseRate
  match e.history, hshort with
  | [], _ | [_], _ => rfl
  | _ :: _ :: rest, h => simp only [List.length_cons] at h; omega

/-- DELTA writes the stage and the arming fields alone. -/
theorem deltaJudge_frame (rate : Option Int) :
    (deltaJudge p feed rate e).1 = { e with stage := (deltaJudge p feed rate e).1.stage, arming := (deltaJudge p feed rate e).1.arming } := by
  unfold deltaJudge
  split
  · unfold deltaIdle
    split
    · split <;> rfl
    · rfl
  · unfold deltaRising disarm
    dsimp only
    repeat' split
    all_goals rfl
  · unfold deltaConfirm
    dsimp only
    split <;> rfl
  · rfl

/-- A saturating count, from wherever it stands. -/
theorem satSucc_eq_min_succ (top n : Nat) : satSucc top n = min top (n + 1) := by
  unfold satSucc
  split <;> omega

/-! ### The causes in their order (R33) -/

theorem imaxAfter_decides {count : Nat} : 2 ≤ imaxAfter p feed count ↔ p.imax ≤ feed ∧ 1 ≤ count := by
  unfold imaxAfter
  split
  · next h => simp only [h, true_and]; omega
  · next h => simp [h]

/-- R33: the cause of an arrival, from what each criterion says. -/
def causeOf (imax delta reverse thermal : Prop) [Decidable imax] [Decidable delta] [Decidable reverse] [Decidable thermal] :
    Option TripCause :=
  if imax then some .imax else if delta then some .delta else if reverse then some .reverse else if thermal then some .thermal
  else none

theorem causeOf_iff (imax delta reverse thermal : Prop) [Decidable imax] [Decidable delta] [Decidable reverse] [Decidable thermal] :
    (causeOf imax delta reverse thermal = some .imax ↔ imax) ∧
    (causeOf imax delta reverse thermal = some .delta ↔ ¬ imax ∧ delta) ∧
    (causeOf imax delta reverse thermal = some .reverse ↔ ¬ imax ∧ ¬ delta ∧ reverse) ∧
    (causeOf imax delta reverse thermal = some .thermal ↔ ¬ imax ∧ ¬ delta ∧ ¬ reverse ∧ thermal) := by
  unfold causeOf
  by_cases imax
  · simp [*]
  · by_cases delta
    · simp [*]
    · by_cases reverse
      · simp [*]
      · by_cases thermal <;> simp [*]

/-- What an arrival leaves in the engine, and the cause it decides. -/
theorem judgeCriteria_eq (i : Int) (e : Engine) :
    judgeCriteria i e =
      ({ (deltaJudge e.params i.toNat (riseRate i.toNat e.history) e).1 with
          imaxCount := imaxAfter e.params i.toNat e.imaxCount, revCount := revAfter e.params i e.revCount },
        causeOf (2 ≤ imaxAfter e.params i.toNat e.imaxCount)
          ((deltaJudge e.params i.toNat (riseRate i.toNat e.history) e).2 = true)
          (e.params.revEnable = true ∧ e.params.trev ≤ revAfter e.params i e.revCount)
          (e.copy.thermal.enable = true ∧ heatLimit e.copy.thermal ≤ e.heat)) := by
  have hframe := deltaJudge_frame (p := e.params) (feed := i.toNat) (e := e) (riseRate i.toNat e.history)
  have hcopy : (deltaJudge e.params i.toNat (riseRate i.toNat e.history) e).1.copy = e.copy := by rw [hframe]
  have hheat : (deltaJudge e.params i.toNat (riseRate i.toNat e.history) e).1.heat = e.heat := by rw [hframe]
  unfold judgeCriteria causeOf feedCurrent
  dsimp only
  rw [hcopy, hheat]
  simp only [Bool.and_eq_true, decide_eq_true_eq]

/-- Settles O47. -/
theorem criteriaJudged : Obligations.CriteriaJudged := by
  intro e i
  rw [judgeCriteria_eq]
  dsimp only
  have hcause := causeOf_iff (2 ≤ imaxAfter e.params i.toNat e.imaxCount)
    ((deltaJudge e.params i.toNat (riseRate i.toNat e.history) e).2 = true)
    (e.params.revEnable = true ∧ e.params.trev ≤ revAfter e.params i e.revCount)
    (e.copy.thermal.enable = true ∧ heatLimit e.copy.thermal ≤ e.heat)
  obtain ⟨himax, hdelta, hreverse, hthermal⟩ := hcause
  have hframe := deltaJudge_frame (p := e.params) (feed := i.toNat) (e := e) (riseRate i.toNat e.history)
  refine ⟨rfl, by simp [revAfter], himax.trans imaxAfter_decides, by rw [hdelta, imaxAfter_decides], ?_, ?_, ?_, fun hidle newer older hhistory => ?_, fun hidle hshort => ?_,
    fun a newer older hrising harmed hhistory => ?_, fun a hconfirm harmed => ?_⟩
  · rw [hreverse, imaxAfter_decides, Bool.not_eq_true]
  · rw [hthermal, imaxAfter_decides, Bool.not_eq_true, And.comm (a := e.copy.thermal.enable = true)]
  · rw [hframe]
  · rw [deltaJudge_idle _ hidle, hhistory]
    refine ⟨rfl, fun h => ?_, fun h => ?_⟩
    · simp only [deltaIdle, riseRate, if_pos h, and_self]
    · simp only [deltaIdle, riseRate, if_neg (Int.not_le.2 h), hidle, and_self]
  · rw [deltaJudge_idle _ hidle, deltaIdle_short hshort]
    exact ⟨hidle, rfl, rfl⟩
  · have hrate : riseRate i.toNat e.history = some ((i.toNat : Int) - older) := by rw [hhistory]; rfl
    have hwindow : satSucc 65535 a.window = min 65535 (a.window + 1) := satSucc_eq_min_succ _ _
    rw [deltaJudge_rising _ hrising harmed, hrate]
    simp only [deltaRising, hwindow, decide_eq_true_eq]
    refine ⟨trivial, fun h => ?_, fun h hends => ?_, fun h hrun hlong => ?_⟩
    · rw [if_pos h]
      exact ⟨rfl, rfl⟩
    · rw [if_neg (Int.not_le.2 h)]
      by_cases hrun : 2 ≤ if (i.toNat : Int) - older < e.params.dreset then a.lowRun + 1 else 0
      · rw [if_pos hrun]
        exact ⟨rfl, rfl⟩
      · rw [if_neg hrun, if_pos (hends.resolve_left hrun)]
        exact ⟨rfl, rfl⟩
    · rw [if_neg (Int.not_le.2 h), if_neg (Nat.not_le.2 hrun), if_neg (Nat.not_le.2 hlong)]
      exact ⟨hrising, rfl⟩
  · have hwindow : satSucc 65535 a.window = min 65535 (a.window + 1) := satSucc_eq_min_succ _ _
    rw [deltaJudge_confirm _ hconfirm harmed]
    simp only [deltaConfirm, hwindow]
    refine ⟨fun h => ?_, fun h => ?_⟩
    · rw [if_pos h]
      exact ⟨rfl, rfl, rfl⟩
    · rw [if_neg (Int.not_lt.2 h)]
      exact ⟨hconfirm, rfl, decide_eq_true_iff⟩

/-! ### Where a confirmed open leads (R48, R49) -/

/-- The causes that may reclose. -/
theorem confirmedOutcome_reclosing {isolated barred : Bool} {n : Nat} {r : Sequencer} (hoverride : r.override = none)
    (hcause : r.cause = some .imax ∨ r.cause = some .delta ∨ r.cause = some .thermal ∨ r.cause = some .reverse ∨
      r.cause = some .direct ∨ r.cause = some .intertrip) : confirmedOutcome isolated barred n r = reclosePath isolated barred n r := by
  unfold confirmedOutcome
  rcases hcause with h | h | h | h | h | h <;> rw [hoverride, h]

/-- Settles O48. -/
theorem reclosePath' : Obligations.ReclosePath := by
  intro isolated barred n r
  refine ⟨fun h => ?_, fun h => ?_, fun h => ⟨fun hcause => ?_, fun hcause => ?_, fun hcause => ?_⟩, fun set => rfl⟩
  · unfold confirmedOutcome
    rw [h]
  · unfold confirmedOutcome
    rw [h]
  · unfold confirmedOutcome
    rcases hcause with hc | hc <;> rw [h, hc]
  · unfold confirmedOutcome
    rcases hcause with hc | hc | hc <;> rw [h, hc]
  · rw [confirmedOutcome_reclosing h hcause]
    unfold reclosePath
    refine ⟨fun hisolated => by rw [if_pos hisolated], fun hisolated hbarred => ?_, fun hisolated hbarred hreclaim => ?_,
      fun hisolated hbarred hreclaim => ?_⟩
    · simp [hisolated, hbarred]
    · simp [hisolated, hbarred, hreclaim]
    · simp only [hisolated, hbarred, hreclaim, Bool.false_eq_true, if_false, if_true]
      by_cases hn : n ≤ r.attempts + 1
      · rw [if_pos hn, Nat.min_eq_right hn, if_pos (Nat.le_refl n)]
      · rw [if_neg hn, Nat.min_eq_left (by omega), if_neg hn]

/-! ### One regulation step (R78 to R80) -/

section
variable {set : RectSettings} {lo hi : Nat} {ub ir uEff : Int} {r : Rectifier} {q q' : RectState} {ramp : Option Nat} {limited : Bool}
  {iEff : Nat}

theorem rampStep_still (u : Int) (h : r.state ≠ .ramping) : rampStep set u r = (r.state, r.ramp, u) := by
  unfold rampStep
  cases hs : r.state <;> first | rfl | exact absurd hs h

theorem rampStep_ramping (u : Int) {v : Nat} (h : r.state = .ramping) (hv : r.ramp = some v) :
    rampStep set u r = if 16 * u ≤ ((min 36000 (v + set.sRamp) : Nat) : Int) then (.regulating, none, u)
      else (.ramping, some (min 36000 (v + set.sRamp)), ((min 36000 (v + set.sRamp) / 16 : Nat) : Int)) := by
  unfold rampStep
  rw [h, hv]

theorem limitStep_below (h : q ≠ .limiting) (hir : ir ≤ (iEff : Int)) : limitStep iEff ir q = (q, false) :=
  (if_neg h).trans (if_neg (Int.not_lt.2 hir))

theorem limitStep_above (h : q ≠ .limiting) (hir : (iEff : Int) < ir) : limitStep iEff ir q = (.limiting, true) :=
  (if_neg h).trans (if_pos hir)

theorem limitStep_leaves (h : q = .limiting) (hir : ir ≤ ((iEff * 15 / 16 : Nat) : Int)) : limitStep iEff ir q = (.regulating, false) :=
  (if_pos h).trans (if_pos hir)

theorem limitStep_stays (h : q = .limiting) (hir : ((iEff * 15 / 16 : Nat) : Int) < ir) : limitStep iEff ir q = (.limiting, true) :=
  (if_pos h).trans (if_neg (Int.not_le.2 hir))

/-- One step, from what the ramp and the current limit say. -/
theorem regulate_eq (hramp : rampStep set (referenceVoltage set ir) r = (q, ramp, uEff))
    (hlimit : limitStep (effectiveLimit set r.degraded) ir q = (q', limited)) :
    regulate set lo hi ub ir r =
      { r with
        state := q'
        ramp := if q' = .ramping then ramp else none
        uRef := some (referenceVoltage set ir)
        alpha := clampInt lo hi (r.alpha +
          if limited then max (voltageTerm set.kv (uEff - ub)) (currentTerm set.kc (effectiveLimit set r.degraded) ir)
          else voltageTerm set.kv (uEff - ub)) } := by
  unfold regulate
  dsimp only
  rw [hramp]
  dsimp only
  rw [hlimit]

end

/-- Settles O51: the ramp step and the limit step of each case. -/
theorem regulationStep : Obligations.RegulationStep := by
  intro set lo hi ub ir r hle
  have upper : ∀ v : Int, clampInt lo hi v ≤ hi := fun v => Int.max_le.2 ⟨by exact_mod_cast hle, Int.min_le_left _ _⟩
  refine ⟨rfl, Int.le_max_left _ _, upper _, fun hstate hir => ?_, fun hstate hir => ?_, fun hstate hir => ?_, fun hstate hir => ?_,
    fun v hstate hramp hir => ⟨fun hreached => ?_, fun hbelow => ?_⟩⟩
  · rw [regulate_eq (rampStep_still _ (by rw [hstate]; decide)) (limitStep_below (by rw [hstate]; decide) hir)]
    exact ⟨hstate, rfl⟩
  · rw [regulate_eq (rampStep_still _ (by rw [hstate]; decide)) (limitStep_above (by rw [hstate]; decide) hir)]
    exact ⟨rfl, rfl⟩
  · rw [regulate_eq (rampStep_still _ (by rw [hstate]; decide)) (limitStep_leaves hstate hir)]
    exact ⟨rfl, rfl⟩
  · rw [regulate_eq (rampStep_still _ (by rw [hstate]; decide)) (limitStep_stays hstate hir)]
    exact ⟨rfl, rfl⟩
  · rw [regulate_eq ((rampStep_ramping _ hstate hramp).trans (if_pos hreached)) (limitStep_below (by decide) hir)]
    exact ⟨rfl, rfl, rfl⟩
  · rw [regulate_eq ((rampStep_ramping _ hstate hramp).trans (if_neg (Int.not_le.2 hbelow))) (limitStep_below (by decide) hir)]
    exact ⟨rfl, rfl, rfl⟩

end Sys2Proof.Machine
end

section
/-! Tables written entry by entry (watch bands, energisation, trip records), and what the Section Table derives (R36, R96 to R109,
R179). -/

namespace Sys2Proof.Machine

open Sys2Proof

variable {s : State} {k : FeederNo}

/-! ### A table written entry by entry -/

/-- A table whose entries named in a list have been written, each from its own value. -/
def writeEntries {α : Type} {n : Nat} (g : Fin n → α → α) (l : List (Fin n)) (v : Vector α n) : Vector α n :=
  l.foldl (fun (w : Vector α n) (i : Fin n) => w.set i (g i (w.get i))) v

theorem writeEntries_get {α : Type} {n : Nat} (g : Fin n → α → α) {l : List (Fin n)} (hl : l.Nodup) (v : Vector α n) (i : Fin n) :
    (writeEntries g l v).get i = if i ∈ l then g i (v.get i) else v.get i := by
  induction l generalizing v with
  | nil => rfl
  | cons a l ih =>
    obtain ⟨ha, hl⟩ := List.nodup_cons.1 hl
    refine (ih hl (v.set a (g a (v.get a)))).trans ?_
    rw [vget_set]
    by_cases hi : i = a
    · subst hi
      simp [ha]
    · simp [hi, Ne.symm hi]

/-- A step for each entry of a list, each step a write of its entry of one table of the state. -/
theorem forEach_writeEntries {α : Type} {n : Nat} {mk : Vector α n → State} {f : Fin n → State → State} {g : Fin n → α → α}
    (h : ∀ i w, f i (mk w) = mk (w.set i (g i (w.get i)))) (l : List (Fin n)) (v : Vector α n) :
    forEach l f (mk v) = mk (writeEntries g l v) := by
  induction l generalizing v with
  | nil => rfl
  | cons a l ih =>
    show forEach l f (f a (mk v)) = _
    rw [h, ih]
    rfl

/-! ### Watch bands (R179) -/

theorem mem_allBands (b : BandNo) : b ∈ allBands := by revert b; decide

theorem mem_allChannels (c : ChannelNo) : c ∈ allChannels := by revert c; decide

theorem bandSatisfied_iff {set : BandSettings} {v : Int} :
    bandSatisfied set v = true ↔ if set.outside then ¬ (set.low ≤ v ∧ v ≤ set.high) else set.low ≤ v ∧ v ≤ set.high := by
  unfold bandSatisfied
  cases set.outside
  · simp
  · simp only [if_true, Bool.or_eq_true, decide_eq_true_eq]
    omega

theorem State.bandMeets_iff {set : BandSettings} :
    s.bandMeets set = true ↔ ∃ c : ChannelNo, set.mask.getLsbD c.val = true ∧ (s.channel c).state = .good ∧
      if set.outside then ¬ (set.low ≤ (s.channel c).value ∧ (s.channel c).value ≤ set.high)
      else set.low ≤ (s.channel c).value ∧ (s.channel c).value ≤ set.high := by
  simp only [State.bandMeets, List.any_eq_true, mem_allChannels, true_and, Bool.and_eq_true, beq_iff_eq, and_assoc, bandSatisfied_iff]

/-- R179: the record of one band after an arrival. -/
def State.bandAfter (s : State) (b : BandNo) (r : BandRec) : BandRec :=
  if (s.store.inUse.bands.get b).enable then
    bandArrival (s.store.inUse.bands.get b).delay (s.bandMeets (s.store.inUse.bands.get b)) r
  else { condition := false, run := 0 }

theorem bandArrival_same {delay : Nat} {meets : Bool} {r : BandRec} (h : meets = r.condition) :
    bandArrival delay meets r = { r with run := 0 } := if_pos h

theorem bandArrival_contradicted {delay : Nat} {meets : Bool} {r : BandRec} (h : meets ≠ r.condition) :
    bandArrival delay meets r = if delay ≤ r.run + 1 then { condition := !r.condition, run := 0 } else { r with run := r.run + 1 } :=
  if_neg h

/-- Settles O60. -/
theorem bandsJudged : Obligations.BandsJudged := by
  intro s valid
  refine ⟨writeEntries s.bandAfter allBands s.au.bands, ?_, fun b => ?_⟩
  · show s.bandsTakeArrival = _
    refine forEach_writeEntries (mk := fun w => { s with au := { s.au with bands := w } }) (fun b w => ?_) allBands s.au.bands
    dsimp only
    unfold State.bandAfter
    split <;> rfl
  · have hget : (writeEntries s.bandAfter allBands s.au.bands).get b = s.bandAfter b (s.au.bands.get b) :=
      (writeEntries_get _ (by decide) _ _).trans (if_pos (mem_allBands b))
    have hmeets := State.bandMeets_iff (s := s) (set := s.store.inUse.bands.get b)
    dsimp only
    rw [hget, State.bandAfter, ← hmeets]
    refine ⟨fun h => by rw [if_neg (by simp [h])], fun h => ?_⟩
    rw [if_pos h]
    refine ⟨fun hcontradicted => bandArrival_contradicted ?_, fun hsame => bandArrival_same ?_⟩
    · rcases hcontradicted with ⟨hc, hm⟩ | ⟨hc, hm⟩ <;> simp_all
    · rcases hsame with ⟨hc, hm⟩ | ⟨hc, hm⟩ <;> simp_all

/-! ### Energisation (R96, R97) -/

/-- R96, R97: the record of one section after an arrival. -/
def State.sectionAfter (s : State) (valid : Half) (n : SectionNo) (r : SectionRec) : SectionRec :=
  if valid.getLsbD (voltageChannel n).val && !s.channelLost (voltageChannel n) then
    energise s.store.inUse.uLive s.store.inUse.uDead (s.channel (voltageChannel n)).value r
  else r

theorem State.channelLost_iff {c : ChannelNo} : s.channelLost c = true ↔ s.verification = none ∧ (s.channel c).state = .failed := by
  simp [State.channelLost, State.verifying, State.chFailed]

theorem mem_allSections (n : SectionNo) : n ∈ allSections := by revert n; decide

/-- Settles O52. -/
theorem energisationJudged : Obligations.EnergisationJudged := by
  intro s valid hrun
  refine ⟨writeEntries (s.sectionAfter valid) allSections s.sections, ?_, voltageChannel_sectionOf, rfl, fun n => ?_⟩
  · show s.sectionsTakeArrival valid = _
    refine forEach_writeEntries (mk := fun w => { s with sections := w }) (fun n w => ?_) allSections s.sections
    unfold State.sectionAfter
    dsimp only
    split
    · rw [if_pos (by assumption)]
      rfl
    · rw [if_neg (by assumption), show w.get n = w[n.val] from rfl, Vector.set_getElem_self]
  · have hget : (writeEntries (s.sectionAfter valid) allSections s.sections).get n = s.sectionAfter valid n (s.sec n) :=
      (writeEntries_get _ (by decide) _ _).trans (if_pos (mem_allSections n))
    have hlost := State.channelLost_iff (s := s) (c := voltageChannel n)
    dsimp only
    rw [hget, State.sectionAfter, ← hlost]
    refine ⟨fun h => if_neg ?_, fun hvalid hnot => ?_⟩
    · rw [Bool.and_eq_true, Bool.not_eq_true']
      rintro ⟨hvalid, hnot⟩
      rcases h with h | h
      · rw [h] at hvalid
        cases hvalid
      · rw [h] at hnot
        cases hnot
    rw [if_pos (Bool.and_eq_true_iff.2 ⟨hvalid, by simpa using hnot⟩)]
    unfold energise energisationOf
    refine ⟨fun hlive => ?_, fun hlive hdead => ?_, fun hlive hdead => ?_⟩
    · simp [hlive]
    · simp [Int.not_le.2 hlive, hdead, satSucc_eq_min (hrun n)]
    · simp [Int.not_le.2 hlive, Int.not_le.2 hdead]

/-! ### Trip records (R45) -/

/-- Settles O27. -/
theorem clearTripRecords : Obligations.ClearTripRecords := by
  intro s b hrun harmed hverified
  have judged : ∀ (c : Byte), exec (.clearTripRecords c) s =
      .next (State.record { code := 0x24, waits := true } (some c.toNat) ((if c = 255 then some State.commandClearAll
        else (feederOperand c).map fun k => State.commandClear k).elim (refuse s .badOperand) fun f => f s)) := fun c => by
    show execClearTripRecords c s = _
    unfold execClearTripRecords
    rw [taken_running _ hrun, State.port_judged _ _ harmed hverified (fun h => absurd h Bool.false_ne_true) rfl]
  refine ⟨fun k hb => ?_, fun h6 hne => ?_, writeEntries (fun _ r => { r with first := none, last := none }) allFeeders s.seqs, ?_,
    fun k => (writeEntries_get _ (by decide) _ _).trans (if_pos (mem_allFeeders k))⟩
  · have hne : b ≠ 255 := by
      rintro rfl
      have := k.isLt
      simp at hb
      omega
    rw [judged, if_neg hne, feederOperand_eq_some_iff.2 hb, ← hb]
    refine ⟨fun hfitted => ?_, fun hfitted => ?_⟩
    · show Host.Outcome.next (State.record _ _ (s.commandClear k)) = _
      rw [State.commandClear, if_pos hfitted]
      rfl
    · show Host.Outcome.next (State.record _ _ (s.commandClear k)) = _
      rw [State.commandClear, if_neg (by simp [hfitted])]
      rfl
  · rw [judged, if_neg hne, feederOperand_eq_none h6]
    rfl
  · rw [judged, if_pos rfl]
    show Host.Outcome.next (State.record _ _ s.commandClearAll) = _
    have hall : forEach allFeeders State.clearRecords s =
        { s with seqs := writeEntries (fun _ r => { r with first := none, last := none }) allFeeders s.seqs } :=
      forEach_writeEntries (mk := fun w => { s with seqs := w }) (fun k w => rfl) allFeeders s.seqs
    rw [State.commandClearAll, hall]
    rfl

/-! ### What the Section Table derives (R36, R99, R104, R108, R109) -/

theorem BarReasons.barred_iff {b : BarReasons} : b.barred = true ↔
    b.held = true ∨ b.busHeld = true ∨ b.earthed = true ∨ b.lockout = true ∨ b.breakerFault = true ∨ b.notFitted = true := by
  simp only [BarReasons.barred, Bool.or_eq_true, or_assoc]

theorem feedModeOf_cases (localEnd remoteEnd : Bool) :
    (localEnd = true → remoteEnd = true → feedModeOf localEnd remoteEnd = .fedBoth) ∧
    (localEnd = true → remoteEnd ≠ true → feedModeOf localEnd remoteEnd = .fedLocal) ∧
    (localEnd ≠ true → remoteEnd = true → feedModeOf localEnd remoteEnd = .fedRemote) ∧
    (localEnd ≠ true → remoteEnd ≠ true → feedModeOf localEnd remoteEnd = .unfed) := by
  cases localEnd <;> cases remoteEnd <;> decide

theorem State.remoteFeeds_iff : s.remoteFeeds k = true ↔ s.share k ≠ none ∧ (s.sec (sectionOf k)).neighbour = some .closed := by
  simp [State.remoteFeeds, Option.isSome_iff_ne_none]

theorem delivering_iff {q : RectState} : delivering q = true ↔ q = .ramping ∨ q = .regulating ∨ q = .limiting := by
  cases q <;> simp [delivering]

theorem State.wantedOf_iff : s.wantedOf k = .double ↔ (∃ p line, s.share k = some (p, line) ∧ (s.link p).state = .up) ∧
    (s.sec (sectionOf k)).neighbour = some .closed ∧ s.breakerPos k = some .closed := by
  unfold State.wantedOf
  cases h : s.share k with
  | none => simp
  | some x =>
    obtain ⟨p, line⟩ := x
    simp [State.linkUp, and_assoc]

theorem State.changeEngine_wanted (w : SetSel) : ((s.wantSet k w).engine k).wanted = w := by
  unfold State.wantSet State.changeEngine
  have hwanted : ∀ {f : FeederSettings} {g : GroupSource} {b : Bool} {e : Engine}, (e.takeOver f g b).wanted = e.wanted := by
    intro f g b e
    unfold Engine.takeOver
    split
    · dsimp only
      split <;> rfl
    · rfl
  dsimp only
  split
  · rw [State.modEngine_engine, hwanted]
  · show ((s.modEngine k fun e => ({ e with wanted := w } : Engine).takeOver (s.feederSettings k) s.groupSource
      (s.fitted k)).engine k).wanted = w
    rw [State.modEngine_engine, hwanted]

/-- Settles O53. -/
theorem sectionJudgements : Obligations.SectionJudgements := by
  intro s k
  have hlocal : (s.breakerPos k == some .closed) = true ↔ s.breakerPos k = some .closed := beq_iff_eq
  have hback : (allFeeders.any fun j => (s.sec (sectionOf j)).feed == .fedBoth) = true ↔ ∃ j, (s.sec (sectionOf j)).feed = .fedBoth := by
    simp only [List.any_eq_true, mem_allFeeders, true_and, beq_iff_eq]
  have hline := feedModeOf_cases (s.breakerPos k == some .closed) (s.remoteFeeds k)
  have hbus := feedModeOf_cases (delivering s.rect.state) (allFeeders.any fun j => (s.sec (sectionOf j)).feed == .fedBoth)
  simp only [ne_eq, hlocal, State.remoteFeeds_iff] at hline
  simp only [ne_eq, hback, delivering_iff] at hbus
  refine ⟨hline.1, hline.2.1, hline.2.2.1, hline.2.2.2, hbus, State.wantedOf_iff, fun hfitted hwanted => ?_, fun hsame => ?_, ?_, ?_,
    rfl, fun hfitted => ?_, fun hfitted hno => ?_, fun hfitted hearth hopen => ?_⟩
  · unfold State.deriveWanted
    rw [if_pos hfitted]
    dsimp only
    rw [if_neg hwanted]
    exact ⟨by simp [State.sec, State.modSec, vget_set], State.changeEngine_wanted _⟩
  · unfold State.deriveWanted
    dsimp only
    rcases hsame with hfitted | hwanted
    · rw [if_neg (by simp [hfitted])]
    · rw [if_pos hwanted, ite_self]
  · rw [BarReasons.barred_iff, State.barsOf, feederOf_sectionOf]
    simp [State.seqIn, or_assoc]
  · rw [BarReasons.barred_iff]
    simp [State.barsOf, show feederOf busSection = none from rfl]
  · simp [State.earthAnswer, feederOf_sectionOf, hfitted]
  · simp only [State.earthAnswer, feederOf_sectionOf, hfitted, Bool.not_true, Bool.false_eq_true, if_false]
    rcases hno with h | h
    · rw [if_pos h]
    · rw [if_pos h, ite_self]
  · simp [State.earthAnswer, feederOf_sectionOf, hfitted, hearth, hopen]

end Sys2Proof.Machine
end

section
/-! The outbound lists of a port and the life of a point (R152 to R155, R169 to R174). -/

namespace Sys2Proof.Machine

open Sys2Proof

variable {s : State} {p : Port}

/-! ### Links -/

theorem State.modLink_congr {f g : Link → Link} (h : f (s.link p) = g (s.link p)) : s.modLink p f = s.modLink p g := by
  cases p
  · exact congrArg (fun l => { s with linkA := l }) h
  · exact congrArg (fun l => { s with linkB := l }) h

theorem State.modLink_modLink (f g : Link → Link) : (s.modLink p f).modLink p g = s.modLink p fun l => g (f l) := by
  cases p <;> rfl

theorem State.transmit_inFlight (h : (s.link p).inFlight ≠ none) : s.transmit p = s := by
  unfold State.transmit
  rw [if_pos]
  simp [Option.isSome_iff_ne_none.2 h]

theorem State.chooseNext_inFlight (h : (s.link p).inFlight ≠ none) : s.chooseNext p = s := by
  unfold State.chooseNext
  rw [if_pos (Option.isSome_iff_ne_none.2 h)]

/-! ### Outbound lists -/

theorem takesMessages_iff (q : LinkState) : takesMessages q = true ↔ q = .joining ∨ q = .up := by cases q <;> simp [takesMessages]

theorem queueBySubject_fresh {m : HoldMsg} {l : List HoldMsg} (h : ∀ x ∈ l, subjectOf x ≠ subjectOf m) :
    queueBySubject m l = l ++ [m] := by
  induction l with
  | nil => rfl
  | cons x l ih =>
    rw [queueBySubject, if_neg (h x (by simp)), ih fun y hy => h y (by simp [hy])]
    rfl

theorem queueBySubject_pending {m x : HoldMsg} {before after : List HoldMsg} (h : ∀ y ∈ before, subjectOf y ≠ subjectOf m)
    (hx : subjectOf x = subjectOf m) : queueBySubject m (before ++ x :: after) = before ++ m :: after := by
  induction before with
  | nil => exact if_pos hx
  | cons y l ih =>
    rw [List.cons_append, queueBySubject, if_neg (h y (by simp)), ih fun z hz => h z (by simp [hz])]
    rfl

theorem queueIntertrip_fresh {line : Byte} {cause : IntertripCause} {l : List PendingIntertrip} (h : ∀ x ∈ l, x.line ≠ line) :
    queueIntertrip line cause l = l ++ [{ line := line, cause := cause }] := by
  induction l with
  | nil => rfl
  | cons x l ih =>
    rw [queueIntertrip, if_neg (h x (by simp)), ih fun y hy => h y (by simp [hy])]
    rfl

theorem queueIntertrip_pending {line : Byte} {cause : IntertripCause} {x : PendingIntertrip} {before after : List PendingIntertrip}
    (h : ∀ y ∈ before, y.line ≠ line) (hx : x.line = line) :
    queueIntertrip line cause (before ++ x :: after) =
      before ++ { x with cause := if causeRank x.cause < causeRank cause then cause else x.cause } :: after := by
  induction before with
  | nil => exact if_pos hx
  | cons y l ih =>
    rw [List.cons_append, queueIntertrip, if_neg (h y (by simp)), ih fun z hz => h z (by simp [hz])]
    rfl

/-- R154: the higher of two causes. -/
theorem higherCause_eq (c d : IntertripCause) :
    (if causeRank c < causeRank d then d else c) =
      if c = .emergency ∨ d = .emergency then .emergency else if c = .backup ∨ d = .backup then .backup else .fault := by
  cases c <;> cases d <;> rfl

/-- R155: a hold message behind a busy transmitter. -/
theorem State.queueMessage_busy (h : (s.link p).inFlight ≠ none) (hq : takesMessages (s.link p).state = true) (m : HoldMsg) :
    s.queueMessage p m = s.modLink p fun l => { l with messages := queueBySubject m l.messages } := by
  unfold State.queueMessage
  rw [if_pos hq, State.transmit_inFlight (by simpa using h)]

/-- R154: an intertrip demand behind a busy transmitter. -/
theorem State.intertripDemand_busy (h : (s.link p).inFlight ≠ none) (hq : takesMessages (s.link p).state = true) (line : Byte)
    (cause : IntertripCause) :
    s.intertripDemand p line cause = s.modLink p fun l => { l with intertrips := queueIntertrip line cause l.intertrips } := by
  unfold State.intertripDemand
  rw [if_pos hq, State.chooseNext_inFlight (by simpa using h)]

/-- Settles O58, by the place of the message's subject in the list. -/
theorem outboundLists : Obligations.OutboundLists := by
  unfold Obligations.OutboundLists
  intro s p line cause m busy
  refine ⟨fun down => ?_, fun takes => ?_⟩
  · have hq : ¬ takesMessages (s.link p).state = true := by rw [down]; simp [takesMessages]
    exact ⟨if_neg hq, if_neg hq⟩
  · have hq := (takesMessages_iff _).2 takes
    rw [State.intertripDemand_busy busy hq, State.queueMessage_busy busy hq]
    refine ⟨fun fresh => ?_, fun before x after split fresh hx => ?_, fun fresh => ?_, fun before x after split fresh hx => ?_⟩
    · exact State.modLink_congr (by rw [queueIntertrip_fresh fresh])
    · refine State.modLink_congr ?_
      rw [split, queueIntertrip_pending fresh hx, ← higherCause_eq, ← hx]
    · exact State.modLink_congr (by rw [queueBySubject_fresh fresh])
    · exact State.modLink_congr (by rw [split, queueBySubject_pending fresh hx])

/-! ### The life of a point -/

variable {p q : PointNo}

theorem State.setLevel_masked (hm : s.masked p = true) (level : Bool) :
    (s.setLevel p level).point p = { s.point p with condition := level } := by
  unfold State.setLevel
  dsimp only
  split
  · rename_i h; rw [← h]
  · simp

/-- R169: the condition of an unmasked point rises. -/
theorem State.setLevel_rise (hm : s.masked p = false) (hc : (s.point p).condition = false) :
    s.setLevel p true = s.putPoint p (riseOn s.stamp { s.point p with condition := true }) := by
  unfold State.setLevel
  dsimp only
  rw [if_neg (by simp [hc]), if_neg (by simp [hm]), if_pos rfl]

/-- R169: the condition of an unmasked point clears. -/
theorem State.setLevel_clear (hm : s.masked p = false) (hc : (s.point p).condition = true) :
    s.setLevel p false = s.putPoint p (clearOn (s.pointClass p) { s.point p with condition := false }) := by
  unfold State.setLevel
  dsimp only
  rw [if_neg (by simp [hc]), if_neg (by simp [hm]), if_neg (by simp)]

/-- R172: a pulse on a standing condition. -/
theorem State.pulse_standing (hv : s.verification = none) (hm : s.masked p = false) (hc : (s.point p).condition = true) :
    s.pulse p = s.putPoint p (pulseStanding s.stamp (s.point p)) := by
  unfold State.pulse
  dsimp only
  rw [if_neg (by simp [hm]), if_neg (by simp [State.verifying, hv]), if_pos hc]

/-- R172: a pulse on no condition. -/
theorem State.pulse_fresh (hv : s.verification = none) (hm : s.masked p = false) (hc : (s.point p).condition = false) :
    s.pulse p = s.putPoint p (clearOn (s.pointClass p) (riseOn s.stamp (s.point p))) := by
  unfold State.pulse
  dsimp only
  rw [if_neg (by simp [hm]), if_neg (by simp [State.verifying, hv]), if_neg (by simp [hc])]

theorem State.pulse_masked (hm : s.masked p = true) : s.pulse p = s := if_pos hm

/-- R174: a point's new record and the list at the end of the event. -/
theorem State.closeAlerts_putPoint (hj : s.au.joining = []) (r : PointRec) :
    (s.putPoint p r).closeAlerts.au.alerts =
      if onList (s.point p).state = true then if onList r.state = true then s.au.alerts else s.au.alerts.erase p
      else if onList r.state = true then s.au.alerts ++ [p] else s.au.alerts := by
  show (s.putPoint p r).au.alerts ++ (s.putPoint p r).au.joining = _
  unfold State.putPoint State.modAu State.point
  dsimp only
  rw [hj]
  cases onList (s.au.points.get p).state <;> cases onList r.state <;> simp [insertPoint]

/-- R174: two points that join within one event. -/
theorem State.closeAlerts_putPoint_two (hj : s.au.joining = []) (hq : q ≠ p) {r x : PointRec} (hp : onList (s.point p).state = false)
    (hr : onList r.state = true) (hpq : onList (s.point q).state = false) (hx : onList x.state = true) :
    ((s.putPoint p r).putPoint q x).closeAlerts.au.alerts = s.au.alerts ++ if p.val < q.val then [p, q] else [q, p] := by
  have hpq' : onList ((s.putPoint p r).au.points.get q).state = false := by
    rw [← hpq]
    exact congrArg (fun r : PointRec => onList r.state) (State.putPoint_point_ne s hq r)
  have hl : (s.putPoint p r).au.joining = [p] ∧ (s.putPoint p r).au.alerts = s.au.alerts := by
    unfold State.putPoint State.modAu
    dsimp only
    rw [show onList (s.au.points.get p).state = false from hp, hr, hj]
    exact ⟨rfl, rfl⟩
  generalize s.putPoint p r = t at *
  show (t.putPoint q x).au.alerts ++ (t.putPoint q x).au.joining = _
  unfold State.putPoint State.modAu
  dsimp only
  rw [hpq', hx, hl.1, hl.2]
  have : q.val ≠ p.val := fun e => hq (Fin.ext e)
  by_cases h : p.val < q.val
  · simp [insertPoint, h, show ¬ q.val < p.val by omega]
  · simp [insertPoint, h, show q.val < p.val by omega]

theorem State.putPoint_only (r : PointRec) : OnlyChanges [.points] s (s.putPoint p r) := by
  intro part m
  cases part <;> first | exact absurd m (by decide) | simp [Same, State.putPoint, State.modAu]

theorem State.setLevel_cases (level : Bool) : s.setLevel p level = s ∨ ∃ r, s.setLevel p level = s.putPoint p r := by
  unfold State.setLevel
  dsimp only
  split
  · exact .inl rfl
  · split
    · exact .inr ⟨_, rfl⟩
    · split <;> exact .inr ⟨_, rfl⟩

theorem State.pulse_cases : s.pulse p = s ∨ ∃ r, s.pulse p = s.putPoint p r := by
  unfold State.pulse
  dsimp only
  split
  · exact .inl rfl
  · split
    · exact .inr ⟨_, rfl⟩
    · split <;> exact .inr ⟨_, rfl⟩

/-- What keeps the state or writes one point writes that point alone. -/
theorem State.one_point {t : State} (h : t = s ∨ ∃ r, t = s.putPoint p r) :
    (∀ q, q ≠ p → t.point q = s.point q) ∧ OnlyChanges [.points] s t := by
  obtain rfl | ⟨r, rfl⟩ := h
  · exact ⟨fun _ _ => rfl, OnlyChanges.refl _ _⟩
  · exact ⟨fun q hq => State.putPoint_point_ne s hq r, State.putPoint_only r⟩

/-- R174: the ends of the list after a rise, a clear and a pulse of an unmasked point. -/
theorem State.alerts_setLevel_rise (hm : s.masked p = false) (hj : s.au.joining = []) (hc : (s.point p).condition = false) :
    (s.setLevel p true).closeAlerts.au.alerts =
      if (s.point p).state = .normal then s.au.alerts ++ [p] else s.au.alerts := by
  rw [State.setLevel_rise hm hc, State.closeAlerts_putPoint hj]
  cases h : (s.point p).state <;> simp [riseOn, onList, h]

theorem State.alerts_setLevel_clear (hm : s.masked p = false) (hj : s.au.joining = []) (hc : (s.point p).condition = true) :
    (s.setLevel p false).closeAlerts.au.alerts =
      if (s.point p).state = .unack ∧ s.pointClass p = .selfReset then s.au.alerts.erase p else s.au.alerts := by
  rw [State.setLevel_clear hm hc, State.closeAlerts_putPoint hj]
  cases h : (s.point p).state <;> cases hcl : s.pointClass p <;> simp [clearOn, toNormal, onList, h]

theorem State.alerts_setLevel_two (hm : s.masked p = false) (hj : s.au.joining = []) (hc : (s.point p).condition = false)
    (hs : (s.point p).state = .normal) (hq : q ≠ p) (hmq : s.masked q = false) (hcq : (s.point q).condition = false)
    (hsq : (s.point q).state = .normal) :
    ((s.setLevel p true).setLevel q true).closeAlerts.au.alerts = s.au.alerts ++ if p.val < q.val then [p, q] else [q, p] := by
  rw [State.setLevel_rise hm hc]
  generalize hr : riseOn s.stamp _ = r
  have hpoint : (s.putPoint p r).point q = s.point q := State.putPoint_point_ne s hq _
  rw [State.setLevel_rise (s := s.putPoint p r) (p := q) hmq (by rw [hpoint]; exact hcq), hpoint]
  exact State.closeAlerts_putPoint_two hj hq (by simp [onList, hs]) (by simp [← hr, riseOn, onList, hs])
    (by simp [onList, hsq]) (by simp [riseOn, onList, hsq])

/-- Settles O59, by the state of the point's record before. -/
theorem pointLife : Obligations.PointLife := by
  unfold Obligations.PointLife
  intro s p hv r now
  refine ⟨fun hm => ⟨State.pulse_masked hm, State.setLevel_masked hm⟩, fun hm => ⟨fun hc => ?_, fun hc => ?_⟩, fun hm hj => ?_,
    fun level => ?_⟩
  · rw [State.setLevel_rise hm hc, State.pulse_fresh hv hm hc, State.putPoint_point, State.putPoint_point]
    refine ⟨fun hs => ?_, fun n _ hs hn => ?_, fun hs hcl => ?_, fun hs hcl => ?_, fun n _ hs hn hcl => ?_⟩
    · simp [riseOn, r, now, show (s.point p).state = _ from hs]
    · simp [riseOn, r, show (s.point p).state = _ from hs, show (s.point p).repeats = _ from hn, satSucc_eq_min_succ]
    · simp [riseOn, clearOn, r, now, show (s.point p).state = _ from hs, hcl]
    · simp [riseOn, clearOn, toNormal, r, show (s.point p).state = _ from hs, hcl]
    · simp [riseOn, clearOn, r, show (s.point p).state = _ from hs, show (s.point p).repeats = _ from hn, hcl,
        satSucc_eq_min_succ]
  · rw [State.setLevel_clear hm hc, State.pulse_standing hv hm hc, State.putPoint_point, State.putPoint_point]
    refine ⟨fun hs hcl => ?_, fun hs hcl => ?_, fun hs => ?_, fun n _ hs hn => ?_, fun hs => ?_⟩
    · simp [clearOn, r, show (s.point p).state = _ from hs, hcl]
    · simp [clearOn, toNormal, r, show (s.point p).state = _ from hs, hcl]
    · simp [clearOn, toNormal, r, show (s.point p).state = _ from hs]
    · simp [pulseStanding, r, show (s.point p).state = _ from hs, show (s.point p).repeats = _ from hn, satSucc_eq_min_succ]
    · simp [pulseStanding, r, now, show (s.point p).state = _ from hs]
  · refine ⟨fun hc hs => ⟨?_, fun q hq hmq hcq hsq => ?_⟩, fun hc hs => ⟨?_, ?_⟩, fun hc hs => ?_, fun hc hs hcl => ?_,
      fun hc hs hcl => ?_⟩
    · exact (State.alerts_setLevel_rise hm hj hc).trans (if_pos hs)
    · exact State.alerts_setLevel_two hm hj hc hs hq hmq hcq hsq
    · refine (congrArg (fun u => u.closeAlerts.au.alerts) (State.pulse_standing hv hm hc)).trans ?_
      refine (State.closeAlerts_putPoint hj _).trans ?_
      simp [pulseStanding, onList, show (s.point p).state = _ from hs]
    · exact (State.alerts_setLevel_clear hm hj hc).trans (if_neg (by simp [show (s.point p).state = _ from hs]))
    · exact (State.alerts_setLevel_rise hm hj hc).trans (if_neg (by simp [show (s.point p).state = _ from hs]))
    · exact (State.alerts_setLevel_clear hm hj hc).trans (if_neg (by simp [hcl]))
    · exact (State.alerts_setLevel_clear hm hj hc).trans (if_pos ⟨hs, hcl⟩)
  · obtain ⟨hsl, hol⟩ := State.one_point (State.setLevel_cases (s := s) (p := p) level)
    obtain ⟨hsp, hop⟩ := State.one_point (State.pulse_cases (s := s) (p := p))
    exact ⟨fun q hq => ⟨hsl q hq, hsp q hq⟩, hol, hop⟩

end Sys2Proof.Machine
end

section
/-! The timers and the transmitter of a port, and the messages that a link does not take (R146 to R157). -/

namespace Sys2Proof.Machine

open Sys2Proof

variable {s t u : State} {p : Port}

/-! ### Events whose handings have been carried out -/

theorem event_carried_next {f : State → State} {n : Nat} {l : List Signal} (hrun : s.resetHeld = false)
    (hf : f s = { u with agenda := l }) (c : Carried n u l t) (hn : n ≤ 4096) : event f s = .next t.finish := by
  rw [event_running f hrun, c.event hf hn]

theorem State.hand_quiet (h : u.agenda = []) (g : Signal) : u.hand g = { u with agenda := [g] } := by
  unfold State.hand
  rw [h]
  rfl

/-! ### Loops that change nothing -/

theorem forEach_still {α : Type} {l : List α} {f : α → State → State} (h : ∀ a ∈ l, f a s = s) : forEach l f s = s := by
  unfold forEach
  induction l with
  | nil => rfl
  | cons a l ih =>
    rw [List.foldl_cons, h a (by simp)]
    exact ih fun b hb => h b (by simp [hb])

/-- R98: nothing is shared on the port. -/
theorem State.forgetReport_unshared (h : ∀ k line, s.share k ≠ some (p, line)) : s.forgetReport p = s := by
  unfold State.forgetReport
  refine forEach_still fun k _ => ?_
  split
  · rename_i q line e
    rw [if_neg]
    rintro rfl
    exact h k line e
  · rfl

/-- R109: the wanted set of every fitted section shared on the port stands as derived. -/
theorem State.deriveWantedOn_still
    (h : ∀ k line, s.fitted k = true → s.share k = some (p, line) → (s.sec (sectionOf k)).wanted = s.wantedOf k) :
    s.deriveWantedOn p = s := by
  unfold State.deriveWantedOn
  refine forEach_still fun k _ => ?_
  split
  · rename_i q line e
    split
    · rename_i hq
      subst hq
      unfold State.deriveWanted
      dsimp only
      split
      · rename_i hf
        rw [if_pos (h k line hf e)]
      · rfl
    · rfl
  · rfl

/-! ### A link that falls -/

theorem forEach_pulse_frame {α : Type} (l : List α) (n : PointNo) (s : State) :
    (forEach l (fun _ => State.pulse n) s).agenda = s.agenda ∧ (forEach l (fun _ => State.pulse n) s).store = s.store :=
  ⟨forEach_same State.agenda l _ s fun _ s => State.pulse_agenda s n, forEach_same State.store l _ s fun _ s => State.pulse_store s n⟩

/-- R149: a link falls on a port on which nothing is shared. -/
theorem State.linkFalls_unshared (h : ∀ k line, s.share k ≠ some (p, line)) (q : LinkState) :
    s.linkFalls p q =
      if (s.link p).state = .up then
        (forEach (s.link p).intertrips (fun _ => State.pulse 56) (s.modLink p (fallenLink q))).hand (.linkLeftUp p)
      else forEach (s.link p).intertrips (fun _ => State.pulse 56) (s.modLink p (fallenLink q)) := by
  have hsh : ∀ k line,
      State.share (forEach (s.link p).intertrips (fun _ => State.pulse 56) (s.modLink p (fallenLink q))) k ≠ some (p, line) := by
    intro k line
    unfold State.share
    rw [(forEach_pulse_frame _ _ _).2, State.modLink_store]
    exact h k line
  unfold State.linkFalls
  dsimp only
  rw [State.forgetReport_unshared hsh, State.deriveWantedOn_still fun k line _ e => absurd e (hsh k line)]

/-- R123: no hold waits on the port. -/
theorem State.endWaits_empty (h : s.ht.holds = []) : s.endWaits p = s := by
  unfold State.endWaits
  rw [h]
  rfl

theorem execSupervision_falls (r : Ready s) (hsup : (s.link p).supervision ≠ none)
    (hsh : ∀ k line, s.share k ≠ some (p, line)) (hh : s.ht.holds = []) (hi : (s.link p).intertrips = []) :
    exec (.supervisionTimerExpiry p) s = .next (s.modLink p (fallenLink .down)).finish := by
  show execSupervisionTimerExpiry p s = _
  unfold execSupervisionTimerExpiry
  have quiet : (s.modLink p (fallenLink .down)).agenda = [] := by simp [r.quiet]
  have falls := State.linkFalls_unshared hsh .down
  rw [hi] at falls
  by_cases hup : (s.link p).state = .up
  · have c : Carried 1 (s.modLink p (fallenLink .down)) [.linkLeftUp p] { s.modLink p (fallenLink .down) with agenda := [] } :=
      .skip (State.endWaits_empty (by simp [hh])) (.done 0 _)
    rw [State.quiet_eq quiet] at c
    refine event_carried_next r.running ?_ c (by decide)
    rw [if_pos (Option.isSome_iff_ne_none.2 hsup), falls, if_pos hup]
    exact State.hand_quiet quiet _
  · refine event_quiet_next r.running ?_ quiet
    rw [if_pos (Option.isSome_iff_ne_none.2 hsup), falls, if_neg hup]
    rfl

/-! ### The transmitter (R153, R156, R157) -/

/-- R153: a free transmitter begins the message chosen. -/
theorem State.transmit_free (hv : s.verification = none) (hq : (s.link p).state ≠ .unused) (hf : (s.link p).inFlight = none)
    {body : MsgBody} {take : Link → Link} (hc : s.chooseMessage p = some (body, take)) :
    s.transmit p = s.modLink p fun l => { take l with inFlight := some { station := s.store.cfg.station, body := body } } := by
  unfold State.transmit
  rw [if_neg (by simp [State.verifying, hv, hq, hf]), hc]

theorem State.transmit_nothing (hc : s.chooseMessage p = none) : s.transmit p = s := by
  unfold State.transmit
  rw [hc]
  exact ite_self _

/-- R156: a completed transmission is followed by the message chosen. -/
theorem transmissionCompletion_sends (r : Ready s) (hf : (s.link p).inFlight ≠ none) (hv : s.verification = none)
    (hq : (s.link p).state ≠ .unused) {body : MsgBody} {take : Link → Link}
    (hc : (s.modLink p fun l => { l with inFlight := none }).chooseMessage p = some (body, take)) :
    exec (.transmissionCompletion p) s = .next (s.modLink p fun l =>
      { take { l with inFlight := none } with inFlight := some { station := s.store.cfg.station, body := body } }) := by
  show execTransmissionCompletion p s = _
  unfold execTransmissionCompletion
  rw [taken_running _ r.running]
  unfold State.transmissionEnds
  rw [if_pos (Option.isSome_iff_ne_none.2 hf), State.transmit_free (by simpa using hv) (by simpa using hq) (by simp) hc,
    State.modLink_modLink, State.modLink_store]

/-- Settles O57, by the fall of a link that shares nothing and the transmitter's choice. -/
theorem linkTimersAndTransmitter : Obligations.LinkTimersAndTransmitter := by
  unfold Obligations.LinkTimersAndTransmitter
  intro s p r
  refine ⟨fun hsup hsh hh hi => execSupervision_falls r hsup hsh hh hi, fun ht hq hf => ?_, fun hf hv hq => ?_⟩
  · show execBeaconTimerExpiry p s = _
    unfold execBeaconTimerExpiry
    rw [taken_running _ r.running]
    unfold State.beaconTimeout State.beaconDue
    rw [if_pos (Option.isSome_iff_ne_none.2 ht), if_neg (by simpa using hq), State.transmit_inFlight (by simpa using hf),
      State.modLink_modLink]
  · have cases := @transmissionCompletion_sends s p r hf hv hq
    have choice : (s.modLink p fun l => { l with inFlight := none }).chooseMessage p = s.chooseMessage p := by cases p <;> rfl
    rw [choice] at cases
    refine ⟨fun x rest hi => ?_, fun m rest hi hm => ?_, fun hi hm hb => ?_, fun hi hm hb => ?_⟩
    · refine (cases (body := .intertrip x.line x.cause) (take := fun l => { l with intertrips := rest }) ?_).trans rfl
      unfold State.chooseMessage; dsimp only; rw [hi]
    · refine (cases (body := s.messageBody p m) (take := fun l => { l with messages := rest }) ?_).trans rfl
      unfold State.chooseMessage; dsimp only; rw [hi, hm]
    · refine (cases (take := fun l => { l with beaconDue := false }) ?_).trans rfl
      unfold State.chooseMessage; dsimp only; rw [hi, hm]; exact if_pos hb
    · show execTransmissionCompletion p s = _
      unfold execTransmissionCompletion
      rw [taken_running _ r.running]
      unfold State.transmissionEnds
      rw [if_pos (Option.isSome_iff_ne_none.2 hf), State.transmit_nothing]
      rw [choice]
      unfold State.chooseMessage; dsimp only; rw [hi, hm]; exact if_neg (by simp [hb])

end Sys2Proof.Machine
end

section
/-! Messages that a link does not take, and the joining of a link (R146 to R150, R168). -/

namespace Sys2Proof.Machine

open Sys2Proof

variable {s t u : State} {p : Port}

theorem State.pulse_link' (n : PointNo) (q : Port) : (s.pulse n).link q = s.link q := by
  cases q
  · exact State.pulse_linkA s n
  · exact State.pulse_linkB s n

/-- R147: the port's point at every sixteenth error. -/
def State.countError (p : Port) (s : State) : State :=
  if (s.link p).errors < 65535 ∧ ((s.link p).errors + 1) % 16 = 0 then
    (s.modLink p fun l => { l with errors := min 65535 (l.errors + 1) }).pulse (errorPoint p)
  else s.modLink p fun l => { l with errors := min 65535 (l.errors + 1) }

theorem State.countError_link : (s.countError p).link p = { s.link p with errors := min 65535 ((s.link p).errors + 1) } := by
  unfold State.countError
  split
  · rw [State.pulse_link', State.modLink_link]
  · rw [State.modLink_link]

theorem State.countError_agenda : (s.countError p).agenda = s.agenda := by
  unfold State.countError
  split <;> simp

theorem State.countError_store : (s.countError p).store = s.store := by
  unfold State.countError
  split <;> simp

/-- R147, R148: a discarded message is counted and takes a link in JOINING down. -/
theorem State.linkDiscards_eq :
    s.linkDiscards p = if (s.link p).state = .joining then (s.countError p).linkFalls p .down else s.countError p := by
  have e : (s.modLink p fun l => { l with errors := satSucc 65535 l.errors }) =
      s.modLink p fun l => { l with errors := min 65535 (l.errors + 1) } :=
    State.modLink_congr (by rw [satSucc_eq_min_succ])
  have l : ((s.countError p).link p).state = (s.link p).state := by rw [State.countError_link]
  unfold State.linkDiscards
  rw [e, ← l]
  rfl

/-- R148, R149: a discarded message on a link in JOINING that shares nothing. -/
theorem State.linkDiscards_joining (hq : (s.link p).state = .joining) (hsh : ∀ k line, s.share k ≠ some (p, line)) :
    s.linkDiscards p = forEach (s.link p).intertrips (fun _ => State.pulse 56) ((s.countError p).modLink p (fallenLink .down)) := by
  have l : ((s.countError p).link p).state = .joining := by rw [State.countError_link]; exact hq
  have i : ((s.countError p).link p).intertrips = (s.link p).intertrips := by rw [State.countError_link]
  rw [State.linkDiscards_eq, if_pos hq, State.linkFalls_unshared (q := .down), if_neg (by rw [l]; simp), i]
  intro k line
  unfold State.share
  rw [State.countError_store]
  exact hsh k line

/-- A discarded message, on a port that hears. -/
theorem discarded_heard (r : Ready s) (hv : s.verification = none) (hq : (s.link p).state ≠ .unused) {t : State}
    (ht : s.linkDiscards p = t) (hquiet : t.agenda = []) : exec (.discardedMessage p) s = .next t.finish := by
  show execDiscardedMessage p s = _
  unfold execDiscardedMessage
  refine event_quiet_next r.running ?_ hquiet
  rw [if_neg (by simp [State.verifying, hv, hq]), ht]

/-- A DROPPED of a station that is not the neighbour. -/
theorem foreign_heard (r : Ready s) (hv : s.verification = none) (hq : (s.link p).state ≠ .unused) {station id : Byte}
    (hst : station ≠ (s.store.cfg.port p).neighbour) {t : State} (ht : s.linkDiscards p = t) (hquiet : t.agenda = []) :
    exec (.dropped p station id) s = .next t.finish := by
  show execDropped p station id s = _
  unfold execDropped
  refine event_quiet_next r.running ?_ hquiet
  unfold State.linkReceives
  rw [if_neg (by simp [State.verifying, hv, hq]), if_neg (by simp [State.messageValid, hst]), ht]

/-! ### Messages that are taken -/

/-- R147, R148, R151: a valid message acts on the link and is handed on. -/
theorem State.linkReceives_valid (hv : s.verification = none) (hq : (s.link p).state ≠ .unused) {station : Byte} {body : MsgBody}
    (hst : station = (s.store.cfg.port p).neighbour) (hbody : fieldsValid body = true) {u : State} (hu : s.linkHears p = u)
    {l : List Signal} (hl : u.agenda = l) : s.linkReceives p station body = { u with agenda := l ++ [.message p body] } := by
  subst hu hl
  unfold State.linkReceives
  rw [if_neg (by simp [State.verifying, hv, hq]), if_pos (by simp [State.messageValid, hst, hbody])]
  rfl

theorem State.takeDropped_unknown {id : Byte} (h : s.hold id = none) : s.takeDropped p id = s := by
  unfold State.takeDropped
  rw [h]

theorem handle_dropped_unknown {id : Byte} (h : s.hold id = none) :
    State.handle (.message p (.dropped id)) { s with agenda := [] } = { s with agenda := [] } :=
  State.takeDropped_unknown (s := { s with agenda := [] }) h

/-- A DROPPED of an unknown hold acts on the link alone. -/
theorem dropped_unknown_heard (r : Ready s) (hv : s.verification = none) (hq : (s.link p).state ≠ .unused) {station id : Byte}
    (hst : station = (s.store.cfg.port p).neighbour) (hid : id ≠ 0) {u : State} (hu : s.linkHears p = u)
    (hl : u.agenda = []) (hh : u.hold id = none) : exec (.dropped p station id) s = .next u.finish := by
  show execDropped p station id s = _
  unfold execDropped
  have hf := State.linkReceives_valid hv hq hst (body := .dropped id) (by simpa [fieldsValid] using hid) hu hl
  have c : Carried 1 u [.message p (.dropped id)] { u with agenda := [] } := .skip (handle_dropped_unknown hh) (.done 0 _)
  rw [State.quiet_eq hl] at c
  exact event_carried_next r.running hf c (by decide)

/-! ### A link that reaches UP -/

theorem State.transmit_state : ((s.transmit p).link p).state = (s.link p).state := by
  unfold State.transmit
  split
  · rfl
  · split
    · rename_i h
      rw [State.modLink_link]
      exact State.chooseMessage_state h _
    · rfl

/-- R153: a transmitter with a message to send is busy once it has chosen. -/
theorem State.transmit_sends (hv : s.verification = none) (hq : (s.link p).state ≠ .unused) (hm : (s.link p).messages ≠ []) :
    ((s.transmit p).link p).inFlight ≠ none := by
  by_cases hf : (s.link p).inFlight = none
  · obtain ⟨body, take, hc⟩ : ∃ body take, s.chooseMessage p = some (body, take) := by
      unfold State.chooseMessage
      dsimp only
      cases hi : (s.link p).intertrips with
      | cons x rest => exact ⟨_, _, rfl⟩
      | nil =>
        cases hl : (s.link p).messages with
        | cons m rest => exact ⟨_, _, rfl⟩
        | nil => exact absurd hl hm
    rw [State.transmit_free hv hq hf hc, State.modLink_link]
    simp
  · rwa [State.transmit_inFlight hf]

theorem queueBySubject_ne_nil (m : HoldMsg) (l : List HoldMsg) : queueBySubject m l ≠ [] := by
  cases l with
  | nil => simp [queueBySubject]
  | cons x l => rw [queueBySubject]; split <;> simp

theorem State.queueMessage_sends (hv : s.verification = none) (hq : (s.link p).state = .up) (m : HoldMsg) :
    ((s.queueMessage p m).link p).inFlight ≠ none ∧ ((s.queueMessage p m).link p).state = .up := by
  unfold State.queueMessage
  rw [if_pos (by rw [hq]; rfl)]
  refine ⟨State.transmit_sends (by simpa using hv) (by simp [hq]) (by simpa using queueBySubject_ne_nil m _), ?_⟩
  rw [State.transmit_state, State.modLink_link]
  exact hq

/-- R150, R157: the beacon of a link that has just sent its AUDIT waits. -/
theorem State.queueMessage_beaconDue (hv : s.verification = none) (hq : (s.link p).state = .up) (m : HoldMsg) :
    (s.queueMessage p m).beaconDue p = (s.queueMessage p m).modLink p fun l => { l with beaconDue := true } := by
  obtain ⟨hf, hu⟩ := State.queueMessage_sends hv hq m
  unfold State.beaconDue
  rw [if_neg (by rw [hu]; decide), State.transmit_inFlight (by simpa using hf)]

/-! ### The asks of the holds that wait for a link -/

theorem State.hold_of_mem (hn : (s.ht.holds.map Hold.id).Nodup) {h : Hold} (hm : h ∈ s.ht.holds) : s.hold h.id = some h := by
  cases e : s.hold h.id with
  | none => exact absurd (List.mem_map_of_mem (f := Hold.id) hm) (State.hold_none e)
  | some x => rw [only_hold hn hm (State.hold_mem e) (State.hold_id e).symm]

/-- A change of one record leaves the holds of other IDs. -/
theorem State.modHold_hold_ne {a b : Byte} (hab : b ≠ a) {f : Hold → Hold} (hf : ∀ h, (f h).id = h.id) :
    (s.modHold a f).hold b = s.hold b := by
  show (s.ht.holds.map fun h => if h.id = a then f h else h).find? _ = s.ht.holds.find? _
  induction s.ht.holds with
  | nil => rfl
  | cons h l ih =>
    by_cases ha : h.id = a
    · have hb : ¬ h.id = b := fun e => hab (e.symm.trans ha)
      simp [ha, hf, ih, Ne.symm hab]
    · by_cases hb : h.id = b
      · simp [hb, hab]
      · simp [ha, hb, ih]

/-- R123: what one hold in SECURING asks when the link reaches UP. -/
def State.askOne (p : Port) (x : Byte × Byte × HoldKind) (s : State) : State :=
  (s.modHold x.1 (modAsks p fun a => { a with status := .asked })).queueMessage p (.ask x.1 x.2.1 x.2.2)

theorem State.askOne_hold {x : Byte × Byte × HoldKind} {id : Byte} (h : id ≠ x.1) : (s.askOne p x).hold id = s.hold id := by
  unfold State.askOne
  exact (State.hold_congr (State.queueMessage_ht _ _ _) id).trans
    (State.modHold_hold_ne h (f := modAsks p fun a => { a with status := .asked }) fun _ => rfl)

theorem State.modHold_hold_none {a b : Byte} {f : Hold → Hold} (hf : ∀ h, (f h).id = h.id) (h : s.hold b = none) :
    (s.modHold a f).hold b = none := by
  by_cases hab : b = a
  · subst hab
    refine (find_map_id s.ht.holds b f fun x e => ?_).trans (congrArg (Option.map f) h)
    exact (hf x).trans (by simpa using List.find?_some e)
  · rw [State.modHold_hold_ne hab hf, h]

theorem State.askOne_hold_none {x : Byte × Byte × HoldKind} {id : Byte} (h : s.hold id = none) : (s.askOne p x).hold id = none :=
  (State.hold_congr (State.queueMessage_ht _ _ _) id).trans
    (State.modHold_hold_none (f := modAsks p fun a => { a with status := .asked }) (fun _ => rfl) h)

/-- R123: the asks of a list of holds, each read from the table as it stands, are those of the table before. -/
theorem forEach_askOne {f : Byte → State → State} {g : Hold → Option (Byte × Byte × HoldKind)} {L : List Hold}
    (hid : ∀ h ∈ L, ∀ x, g h = some x → x.1 = h.id)
    (hf : ∀ (s : State), ∀ h ∈ L, s.hold h.id = some h → h.state = .securing → f h.id s = (g h).elim s fun x => s.askOne p x)
    (hg : ∀ h ∈ L, h.state ≠ .securing → g h = none) (hn : (L.map Hold.id).Nodup) (hs : ∀ h ∈ L, s.hold h.id = some h) :
    forEach ((L.filter fun h => h.state = .securing).map Hold.id) f s = forEach (L.filterMap g) (State.askOne p) s := by
  induction L generalizing s with
  | nil => rfl
  | cons h L ih =>
    obtain ⟨hh, hn⟩ := List.nodup_cons.1 hn
    have rest : ∀ t : State, (∀ x ∈ L, t.hold x.id = some x) →
        forEach ((L.filter fun h => h.state = .securing).map Hold.id) f t = forEach (L.filterMap g) (State.askOne p) t := fun t =>
      ih (fun x m => hid x (by simp [m])) (fun s x m => hf s x (by simp [m])) (fun x m => hg x (by simp [m])) hn
    have hL : ∀ x ∈ L, s.hold x.id = some x := fun x m => hs x (by simp [m])
    by_cases hq : h.state = .securing
    · have e := hf s h (by simp) (hs h (by simp)) hq
      rw [List.filter_cons_of_pos (by simpa using hq)]
      show forEach _ f (f h.id s) = _
      rw [e]
      cases hx : g h with
      | none => rw [List.filterMap_cons_none hx]; exact rest s hL
      | some x =>
        rw [List.filterMap_cons_some hx]
        refine rest _ fun y m => (State.askOne_hold ?_).trans (hL y m)
        rw [hid h (by simp) x hx]
        exact fun e => hh (List.mem_map.2 ⟨y, m, e⟩)
    · rw [List.filter_cons_of_neg (by simpa using hq), List.filterMap_cons_none (hg h (by simp) hq)]
      exact rest s hL

/-- R123: the holds in SECURING whose ask waits for the link ask in order. -/
theorem State.askAgain_eq {g : Hold → Option (Byte × Byte × HoldKind)} (hn : (s.ht.holds.map Hold.id).Nodup)
    (hnone : ∀ h, h.askOn p = none → g h = none)
    (hsome : ∀ h a, h.askOn p = some a →
      g h = if h.state = .securing ∧ a.status = .none then some (h.id, a.line, h.kind) else none) :
    s.askAgain p = forEach (s.ht.holds.filterMap g) (State.askOne p) s := by
  unfold State.askAgain
  refine forEach_askOne (fun h _ x hx => ?_) (fun t h _ ht hq => ?_) (fun h _ hq => ?_) hn fun h m => State.hold_of_mem hn m
  · cases ha : h.askOn p with
    | none => rw [hnone h ha] at hx; cases hx
    | some a =>
      rw [hsome h a ha] at hx
      split at hx
      · cases hx; rfl
      · cases hx
  · rw [ht]
    cases ha : h.askOn p with
    | none => rw [hnone h ha]; simp [ha]
    | some a =>
      rw [hsome h a ha]
      by_cases hst : a.status = .none
      · simp [ha, hq, hst]; rfl
      · simp [ha, hq, hst]
  · cases ha : h.askOn p with
    | none => exact hnone h ha
    | some a => rw [hsome h a ha, if_neg fun h => hq h.1]

/-! ### Joining (R148, R150) -/

theorem State.linkHears_down (hq : (s.link p).state = .down) :
    s.linkHears p = s.modLink p fun l => { l with supervision := some 350, state := .joining, joinCount := some 1 } := by
  unfold State.linkHears
  dsimp only
  rw [hq]
  exact State.modLink_modLink _ _

theorem State.linkHears_joining {n : Nat} (hq : (s.link p).state = .joining) (hn : (s.link p).joinCount = some n) :
    s.linkHears p =
      if 3 ≤ n + 1 then (s.modLink p fun l => { l with supervision := some 350 }).linkRises p
      else s.modLink p fun l => { l with supervision := some 350, joinCount := some (n + 1) } := by
  unfold State.linkHears
  dsimp only
  rw [hq]
  dsimp only
  rw [hn, State.modLink_modLink]
  rfl

/-- R109: the wanted set of a section shared on a link that is UP, from the two ends. -/
theorem State.wantedOf_up {k : FeederNo} {line : Byte} (hs : s.share k = some (p, line)) (hl : (s.link p).state = .up) :
    s.wantedOf k = if (s.sec (sectionOf k)).neighbour = some .closed ∧ s.breakerPos k = some .closed then .double else .single := by
  have hdouble : s.wantedOf k = .double ↔ (s.sec (sectionOf k)).neighbour = some .closed ∧ s.breakerPos k = some .closed :=
    State.wantedOf_iff.trans ⟨fun h => h.2, fun h => ⟨⟨p, line, hs, hl⟩, h⟩⟩
  split
  · exact hdouble.2 ‹_›
  · cases hwanted : s.wantedOf k
    · rfl
    · exact absurd (hdouble.1 hwanted) ‹_›

/-- R109: the wanted sets stand as derived when the link comes up and the ends do not change. -/
theorem State.deriveWantedOn_up {t : State} (hmi : t.mi = s.mi) (hsec : t.sections = s.sections) (hst : t.store = s.store)
    (hl : (t.link p).state = .up)
    (hw : ∀ k line, s.fitted k = true → s.share k = some (p, line) → (s.sec (sectionOf k)).wanted =
      if (s.sec (sectionOf k)).neighbour = some .closed ∧ s.breakerPos k = some .closed then .double else .single) :
    t.deriveWantedOn p = t := by
  refine State.deriveWantedOn_still fun k line hf hs => ?_
  rw [State.wantedOf_up hs hl]
  unfold State.fitted at hf
  unfold State.share at hs
  rw [hst] at hf hs
  have hsc : t.sec (sectionOf k) = s.sec (sectionOf k) := by unfold State.sec; rw [hsec]
  have hbr : t.breakerPos k = s.breakerPos k := by unfold State.breakerPos State.pair; rw [hmi]
  rw [hsc, hbr, hw k line hf hs]

/-- R150: a link reaches UP, with its AUDIT and its beacon. -/
theorem State.linkRises_eq (hv : s.verification = none)
    (hw : ∀ k line, s.fitted k = true → s.share k = some (p, line) → (s.sec (sectionOf k)).wanted =
      if (s.sec (sectionOf k)).neighbour = some .closed ∧ s.breakerPos k = some .closed then .double else .single) :
    s.linkRises p = ((((s.modLink p fun l => { l with state := .up, joinCount := none }).queueMessage p .audit).modLink p
      fun l => { l with beaconDue := true }).hand (.linkReachedUp p)) := by
  have hup := (State.queueMessage_sends (s := s.modLink p fun l => { l with state := .up, joinCount := none }) (p := p)
    (by simpa using hv) (by simp) .audit).2
  unfold State.linkRises
  dsimp only
  rw [State.queueMessage_beaconDue (by simpa using hv) (by simp)]
  generalize hy : (s.modLink p fun l => { l with state := .up, joinCount := none }).queueMessage p .audit = y at hup
  have hy' : y.mi = s.mi ∧ y.sections = s.sections ∧ y.store = s.store := by subst hy; simp
  obtain ⟨hmi, hsec, hst⟩ := hy'
  refine State.deriveWantedOn_up (s := s) (by simp [hmi]) (by simp [hsec]) (by simp [hst]) ?_ hw
  exact (congrArg Link.state (State.modLink_link y p _)).trans hup

/-- R123, R150: a message on a link in JOINING that has heard two brings it UP, and what waits for it asks. -/
theorem dropped_rises {station id : Byte} (r : Ready s) (hv : s.verification = none)
    (hst : station = (s.store.cfg.port p).neighbour) (hid : id ≠ 0) (hh : s.hold id = none) (hq : (s.link p).state = .joining)
    (hc : (s.link p).joinCount = some 2) (hn : (s.ht.holds.map Hold.id).Nodup)
    (hw : ∀ k line, s.fitted k = true → s.share k = some (p, line) → (s.sec (sectionOf k)).wanted =
      if (s.sec (sectionOf k)).neighbour = some .closed ∧ s.breakerPos k = some .closed then .double else .single)
    {g : Hold → Option (Byte × Byte × HoldKind)} (hnone : ∀ h, h.askOn p = none → g h = none)
    (hsome : ∀ h a, h.askOn p = some a →
      g h = if h.state = .securing ∧ a.status = .none then some (h.id, a.line, h.kind) else none) :
    exec (.dropped p station id) s = .next (forEach (s.ht.holds.filterMap g) (State.askOne p)
      (((s.modLink p fun l => { l with supervision := some 350, state := .up, joinCount := none }).queueMessage p .audit).modLink p
        fun l => { l with beaconDue := true })).finish := by
  have hears := State.linkHears_joining hq hc
  rw [if_pos (by decide), State.linkRises_eq (by simpa using hv) (by cases p <;> exact hw),
    State.modLink_modLink] at hears
  generalize hr : ((s.modLink p fun l => { l with supervision := some 350, state := .up, joinCount := none }).queueMessage p
    .audit).modLink p (fun l => { l with beaconDue := true }) = rising
  replace hears : s.linkHears p = rising.hand (.linkReachedUp p) := hears.trans (by rw [← hr])
  have hagenda : rising.agenda = [] := by subst hr; simp [r.quiet]
  have hht : rising.ht = s.ht := by subst hr; simp
  have hasked := State.askAgain_eq (s := rising) (p := p) (g := g) (by rw [hht]; exact hn) hnone hsome
  rw [hht] at hasked
  generalize hs' : forEach (s.ht.holds.filterMap g) (State.askOne p) rising = asked at hasked
  have hquiet : asked.agenda = [] := by
    rw [← hs', forEach_same State.agenda _ _ _ fun x t => by simp [State.askOne], hagenda]
  have hgone : asked.hold id = none :=
    hs' ▸ forEach_keeps (P := fun t : State => t.hold id = none) _ _ (fun _ _ => State.askOne_hold_none)
      ((State.hold_congr hht id).trans hh)
  have c : Carried 2 rising [.linkReachedUp p, .message p (.dropped id)] { asked with agenda := [] } := by
    refine .step (u := asked) (m := []) ?_ (.skip (handle_dropped_unknown hgone) (.done 0 _))
    rw [State.quiet_eq hagenda, State.quiet_eq hquiet]
    exact hasked
  rw [State.quiet_eq hquiet] at c
  show execDropped p station id s = _
  unfold execDropped
  refine event_carried_next r.running ?_ c (by decide)
  exact State.linkReceives_valid (body := .dropped id) (l := [.linkReachedUp p]) hv (by simp [hq]) hst
    (by simpa [fieldsValid] using hid) hears (by simp [hagenda])

/-- R147: a discarded message on a link that is UP is counted. -/
theorem State.linkDiscards_up (hq : (s.link p).state = .up) : s.linkDiscards p = s.countError p := by
  rw [State.linkDiscards_eq, if_neg (by simp [hq])]

/-- R146, R168: nothing is taken until equipment verification has ended, or on an UNUSED port. -/
theorem unheard (r : Ready s) (h : s.verification ≠ none ∨ (s.link p).state = .unused) {station id : Byte} :
    exec (.dropped p station id) s = .next s.finish ∧ exec (.discardedMessage p) s = .next s.finish := by
  have deaf : (s.verifying || (s.link p).state == .unused) = true := by
    obtain h | h := h
    · simp [State.verifying, Option.isSome_iff_ne_none.2 h]
    · simp [h]
  constructor
  · show execDropped p station id s = _
    unfold execDropped
    exact event_quiet_next r.running (if_pos deaf) r.quiet
  · show execDiscardedMessage p s = _
    unfold execDiscardedMessage
    exact event_quiet_next r.running (if_pos deaf) r.quiet

/-- Settles O56, by the state of the link. -/
theorem messagesDiscarded : Obligations.MessagesDiscarded := by
  unfold Obligations.MessagesDiscarded
  intro s p station id r counted point n
  have hpoint : errorPoint p = point := by cases p <;> rfl
  have counts : s.countError p = if n < 65535 ∧ (n + 1) % 16 = 0 then counted.pulse point else counted := by
    unfold State.countError
    rw [hpoint]
  have quiet := State.countError_agenda (s := s) (p := p)
  rw [r.quiet] at quiet
  refine ⟨fun h => unheard r h, fun hv hq hn => ⟨fun h => ?_, fun hlt h16 => ?_⟩, fun hv hq _ hsh => ?_, fun hv hst hid hh =>
    ⟨fun hq => ?_, fun hq hc => ?_, fun hq hc hnodup hw => ?_⟩⟩
  · have e : s.linkDiscards p = counted := by
      rw [State.linkDiscards_up hq, counts, if_neg]
      omega
    have hquiet : counted.agenda = [] := by simp [counted, r.quiet]
    exact ⟨discarded_heard r hv (by simp [hq]) e hquiet, fun hst => foreign_heard r hv (by simp [hq]) hst e hquiet⟩
  · have e : s.linkDiscards p = counted.pulse point := by
      rw [State.linkDiscards_up hq, counts, if_pos ⟨hlt, h16⟩]
    exact discarded_heard r hv (by simp [hq]) e (by simp [counted, r.quiet])
  · have e := State.linkDiscards_joining hq hsh
    rw [counts] at e quiet
    refine discarded_heard r hv (by simp [hq]) e ?_
    exact (forEach_pulse_frame _ _ _).1.trans ((State.modLink_agenda _ _ _).trans quiet)
  · exact dropped_unknown_heard r hv (by simp [hq]) hst hid (State.linkHears_down hq) (by simp [r.quiet])
      ((State.hold_congr (State.modLink_ht _ _ _) id).trans hh)
  · exact dropped_unknown_heard r hv (by simp [hq]) hst hid ((State.linkHears_joining hq hc).trans (if_neg (by decide)))
      (by simp [r.quiet]) ((State.hold_congr (State.modLink_ht _ _ _) id).trans hh)
  · intro waiting up rising asking
    refine dropped_rises r hv hst hid hh hq hc hnodup hw (fun h ha => ?_) fun h a ha => ?_
    · unfold Hold.askOn at ha
      rw [ha]
    · unfold Hold.askOn at ha
      rw [ha]

end Sys2Proof.Machine
end

section
/-! The end of ERASE and PROGRAM, and ACTIVATE: what the handing on of a configuration and of a group leaves alone (R188 to R193). -/

namespace Sys2Proof.Machine

open Sys2Proof

variable {s t u : State} {P : State → Prop}

/-! ### What any write of a handing leaves alone -/

/-- Whatever the handings of an event may reach, the parts behind a list that names all of it stay. -/
theorem onlyChanges_any {l : List Part} (hl : ∀ p ∈ reached, p ∈ l) (u : State) : Any (OnlyChanges l u) := by
  have step : ∀ {a b : State}, OnlyChanges l u a → (∀ p, p ∉ reached → Same p a b) → OnlyChanges l u b :=
    fun h g => h.trans fun p m => g p fun r => m (hl p r)
  exact {
    engine := fun a k f _ h => step h fun p m => by cases p <;> first | exact absurd m (by decide) | simp [Same]
    seq := fun a k f _ h => step h fun p m => by cases p <;> first | exact absurd m (by decide) | simp [Same]
    rect := fun a f _ h => step h fun p m => by cases p <;> first | exact absurd m (by decide) | simp [Same]
    sec := fun a n f h => step h fun p m => by cases p <;> first | exact absurd m (by decide) | simp [Same]
    table := fun a ht h => step h fun p m => by cases p <;> first | exact absurd m (by decide) | simp [Same]
    banks := fun a b c h => step h fun p m => by cases p <;> first | exact absurd m (by decide) | simp [Same]
    link := fun a q f _ h => step h fun p m => by cases p <;> first | exact absurd m (by decide) | simp [Same]
    point := fun a q r h => step h fun p m => by cases p <;> first | exact absurd m (by decide) | simp [Same]
    hand := fun a l _ h => step h fun p m => by cases p <;> first | exact absurd m (by decide) | simp [Same] }

theorem onlyChanges_modLink {l : List Part} (ha : .linkA ∈ l) (hb : .linkB ∈ l) (p : Port) (f : Link → Link) :
    OnlyChanges l s (s.modLink p f) := by
  intro q m
  cases q <;> first | exact absurd ha m | exact absurd hb m | simp [Same]

theorem onlyChanges_modRect {l : List Part} (hr : .rectifier ∈ l) (f : Rectifier → Rectifier) : OnlyChanges l s (s.modRect f) := by
  intro q m
  cases q <;> first | exact absurd hr m | simp [Same]

theorem onlyChanges_modSeq {l : List Part} (hr : .sequencers ∈ l) (k : FeederNo) (f : Sequencer → Sequencer) :
    OnlyChanges l s (s.modSeq k f) := by
  intro q m
  cases q <;> first | exact absurd hr m | simp [Same]

theorem onlyChanges_bands {l : List Part} (hr : .bands ∈ l) (v : Vector BandRec 8) :
    OnlyChanges l s { s with au := { s.au with bands := v } } := by
  intro q m
  cases q <;> first | exact absurd hr m | simp [Same]

/-- What waits is of the events' own kind. -/
theorem consequent_any : Any Consequent where
  engine _ _ _ _ h := h
  seq _ _ _ _ h := h
  rect _ _ _ h := h
  sec _ _ _ h := h
  table _ _ h := h
  banks _ _ _ h := h
  link s p f _ h := by cases p <;> exact h
  point _ _ _ h := h
  hand s gs c h g m := (List.mem_append.1 m).elim (h g) (c g)

/-! ### A configuration handed on (R193) -/

namespace Any

variable (A : Any P) (hlink : ∀ s p f, P s → P (s.modLink p f))

include A in
theorem reshare (c : ConfigRec) (h : P s) : P (s.reshare c) := by
  have K := A.keeps
  exact forEach_keeps _ _ (fun _ _ h => K.deriveWanted _ h) (K.deriveAllBars
    (forEach_keeps _ _ (fun _ _ h => K.deriveFeed _ h) (forEach_keeps _ _ (fun _ _ h => A.sec _ _ _ h) h)))

include A in
theorem remask (v : Vector Bool 79) (h : P s) : P (s.remask v) := by
  refine forEach_keeps _ _ (fun p s h => ?_) h
  dsimp only
  repeat' split
  all_goals first | exact h | exact A.point _ _ _ h

include A hlink

theorem linkFalls (p : Port) (q : LinkState) (h : P s) : P (s.linkFalls p q) := by
  have K := A.keeps
  have falls : P ((s.modLink p (fallenLink q)) |> forEach (s.link p).intertrips (fun _ s => s.pulse 56)) :=
    forEach_keeps _ _ (fun _ _ h => K.pulse _ h) (hlink _ _ _ h)
  have forgotten : P (((s.modLink p (fallenLink q)) |> forEach (s.link p).intertrips (fun _ s => s.pulse 56)).forgetReport p) := by
    refine forEach_keeps _ _ (fun k s h => ?_) falls
    repeat' split
    all_goals first | exact h | exact K.setNeighbour _ _ h
  have derived : P ((((s.modLink p (fallenLink q)) |> forEach (s.link p).intertrips (fun _ s => s.pulse 56)).forgetReport
      p).deriveWantedOn p) := by
    refine forEach_keeps _ _ (fun k s h => ?_) forgotten
    repeat' split
    all_goals first | exact h | exact K.deriveWanted _ h
  unfold State.linkFalls
  dsimp only
  split
  · exact K.hand1 _ rfl derived
  · exact derived

theorem reconfigurePort (p : Port) (c : PortConfig) (h : P s) : P (s.reconfigurePort p c) := by
  have K := A.keeps
  unfold State.reconfigurePort
  dsimp only
  split
  · exact A.linkFalls hlink _ _ h
  · split
    · unfold State.startPort
      split
      · exact hlink _ _ _ h
      · exact K.beaconDue _ (hlink _ _ _ (hlink _ _ _ h))
    · split
      · exact A.linkFalls hlink _ _ h
      · exact h

theorem handConfig (hrect : ∀ s f, P s → P (s.modRect f)) (c : ConfigRec) (h : P s) : P (s.handConfig c) :=
  hrect _ _ (A.remask _ (A.reconfigurePort hlink _ _ (A.reconfigurePort hlink _ _ (A.reshare c h))))

end Any

/-! ### A group handed on (R192) -/

namespace Any

variable (A : Any P)

include A

theorem engineActivate (k : FeederNo) (h : P s) : P (s.engineActivate k) := by
  unfold State.engineActivate
  split
  · exact A.keeps.changeEngine _ _ (fun l => by cases l; constructor <;> assumption) h
  · exact A.engine _ _ _ (fun l => (l.recopy _ _).judgeHeat _) h

theorem rebands (hbands : ∀ s v, P s → P { s with au := { s.au with bands := v } }) (g : GroupSettings) (h : P s) :
    P (s.rebands g) := by
  refine forEach_keeps _ _ (fun b s h => ?_) h
  have hb := hbands s (s.au.bands.set b
    { condition := (s.store.inUse.bands.get b).enable && (s.au.bands.get b).condition, run := 0 }) h
  have fin : ∀ t : State, P t → ∀ (c : Bool) (p : PointNo) (r : PointRec), P (if c = true then t.putPoint p r else t) :=
    fun t ht c p r => by
      split
      · exact A.point _ _ _ ht
      · exact ht
  dsimp only
  refine fin _ ?_ _ _ _
  split
  · exact hb
  · unfold State.disableBand
    exact fin _ hb _ _ _

theorem handGroup (hseq : ∀ s k f, P s → P (s.modSeq k f)) (hbands : ∀ s v, P s → P { s with au := { s.au with bands := v } })
    (g : GroupSettings) (h : P s) : P (s.handGroup g) := by
  have h1 : P (forEach allFeeders State.engineActivate s) := forEach_keeps _ _ (fun _ _ h => A.engineActivate _ h) h
  have h2 : P (forEach allFeeders State.seqActivate (forEach allFeeders State.engineActivate s)) :=
    forEach_keeps _ _ (fun k s h => by unfold State.seqActivate; exact hseq _ _ _ h) h1
  exact A.rebands hbands g h2

end Any

/-! ### The end of an operation -/

/-- R193: the store once a verified configuration is in use. -/
def Store.configVerified (st : Store) : Store :=
  let image := { st.config with state := .valid }
  let new := readConfig image.content
  { st with operation := none, config := image, cfg := { new with fitted := st.cfg.fitted }, configFault := false,
            fittedPending := new.fitted != st.cfg.fitted }

/-- What a verified configuration leaves of the store, and what it hands on. -/
theorem State.programEnds_config {op : Operation} (hop : s.store.operation = some op) (hk : op.kind = .program)
    (ht : op.target = .config) :
    Same .settings { s with store := s.store.configVerified } (s.programEnds true) ∧
      (s.agenda = [] → Consequent (s.programEnds true)) := by
  have e : s.programEnds true = (({ s with store := { s.store.configVerified with
      fittedPending := s.store.fittedPending } } : State).handConfig s.store.cfg).judgeFitted .config := by
    unfold State.programEnds
    rw [hop]
    dsimp only
    rw [if_neg (by simp [hk]), ht, if_pos rfl, if_pos rfl]
    rfl
  generalize hu : ({ s with store := { s.store.configVerified with fittedPending := s.store.fittedPending } } : State) = u at e
  have hagenda : u.agenda = s.agenda := by subst hu; rfl
  have hstore : u.store = { s.store.configVerified with fittedPending := s.store.fittedPending } := by subst hu; rfl
  rw [e]
  have same : Same .settings u (u.handConfig s.store.cfg) :=
    Any.handConfig (onlyChanges_any (l := reached) (fun _ m => m) u)
      (fun a p f h => h.trans (onlyChanges_modLink (by decide) (by decide) p f))
      (fun a f h => h.trans (onlyChanges_modRect (by decide) f)) s.store.cfg (OnlyChanges.refl _ u) .settings (by decide)
  have hands (h : Consequent u) : Consequent (u.handConfig s.store.cfg) :=
    consequent_any.handConfig (fun a p f h g m => h g (State.modLink_agenda a p f ▸ m)) (fun _ _ h => h) s.store.cfg h
  generalize u.handConfig s.store.cfg = v at same hands
  refine ⟨?_, fun h => hands fun g m => by rw [hagenda, h] at m; cases m⟩
  have hv : v.store = { s.store.configVerified with
      fittedPending := s.store.fittedPending, bank0 := v.store.bank0, bank1 := v.store.bank1 } := by
    have := congrArg (fun st : Store => { st with bank0 := v.store.bank0, bank1 := v.store.bank1 }) same
    exact this.trans (by rw [hstore])
  show ({ (v.modStore fun st => { st with fittedPending := st.fittedDiffers }).store with
    bank0 := s.store.bank0, bank1 := s.store.bank1 } : Store) = s.store.configVerified
  have hd : v.store.fittedDiffers = ((readConfig s.store.config.content).fitted != s.store.cfg.fitted) := by
    unfold Store.fittedDiffers
    rw [hv]
    rfl
  show ({ v.store with fittedPending := v.store.fittedDiffers, bank0 := s.store.bank0, bank1 := s.store.bank1 } : Store) = _
  rw [hd, hv]
  rfl

theorem State.judgeFitted_group (g : GroupNo) : s.judgeFitted (.group g) = s := if_neg (by simp)

theorem State.eraseEnds_eq {op : Operation} (hop : s.store.operation = some op) (hk : op.kind = .erase) (verified : Bool) :
    s.eraseEnds verified = State.judgeFitted op.target
      (if verified = true then (s.modStore fun st => { st with operation := none }).modStore (Store.setImage op.target emptyImage)
      else ((s.modStore fun st => { st with operation := none }).modStore fun st => { st with eraseError := true }).pulse 61) := by
  unfold State.eraseEnds
  rw [hop]
  exact if_neg (by simp [hk])

theorem State.programEnds_eq {op : Operation} (hop : s.store.operation = some op) (hk : op.kind = .program) (verified : Bool)
    {g : GroupNo} (ht : op.target = .group g) :
    s.programEnds verified =
      if verified = true then (s.modStore fun st => { st with operation := none }).modStore fun st =>
        st.setImage (.group g) { st.image (.group g) with state := .valid }
      else ((s.modStore fun st => { st with operation := none }).modStore fun st => { st with programError := true }).pulse 61 := by
  unfold State.programEnds
  rw [hop]
  dsimp only
  rw [if_neg (by simp [hk]), ht, State.judgeFitted_group]
  cases verified <;> rfl

/-- Settles O38, by the target of the operation. -/
theorem operationsEnd : Obligations.OperationsEnd := by
  unfold Obligations.OperationsEnd
  intro s op r hop
  have erase (verified : Bool) {u : State} (h : s.eraseEnds verified = u) (hu : u.agenda = []) :
      exec (.eraseCompletion verified) s = .next u.finish := by
    show execEraseCompletion verified s = _
    unfold execEraseCompletion
    exact event_quiet_next r.running h hu
  have program (verified : Bool) {u : State} (h : s.programEnds verified = u) (hu : u.agenda = []) :
      exec (.programCompletion verified) s = .next u.finish := by
    show execProgramCompletion verified s = _
    unfold execProgramCompletion
    exact event_quiet_next r.running h hu
  have pulsed (u : State) (hu : u.agenda = []) : (u.pulse 61).agenda = [] := by simpa using hu
  refine ⟨fun hk g ht => ⟨?_, ?_⟩, fun hk ht => ?_, fun hk g ht => ⟨?_, ?_⟩, fun hk ht => ?_⟩
  · refine erase true ((State.eraseEnds_eq hop hk true).trans ?_) r.quiet
    rw [ht, State.judgeFitted_group]
    rfl
  · refine erase false ((State.eraseEnds_eq hop hk false).trans ?_) (pulsed _ r.quiet)
    rw [ht, State.judgeFitted_group]
    rfl
  · refine erase true ((State.eraseEnds_eq hop hk true).trans ?_) r.quiet
    rw [ht]
    rfl
  · exact program true (State.programEnds_eq hop hk true ht) r.quiet
  · exact program false (State.programEnds_eq hop hk false ht) (pulsed _ r.quiet)
  · intro new
    obtain ⟨hset, hhands⟩ := State.programEnds_config hop hk ht
    have only := State.event_only (s := s) (State.programEnds true) (hhands r.quiet).consequential
    have h : Same .settings { s with store := s.store.configVerified } (s.event (State.programEnds true)) :=
      hset.trans (only .settings (by decide))
    have field {α : Type} (g : Store → α) (hg : ∀ st a b, g { st with bank0 := a, bank1 := b } = g st) :
        g (s.event (State.programEnds true)).store = g s.store.configVerified :=
      (hg _ _ _).symm.trans (congrArg g h)
    refine ⟨_, event_running _ r.running, ?_, ?_, ?_, ?_, ?_, ?_⟩
    · exact field Store.operation fun _ _ _ => rfl
    · exact field (fun st => st.config.state) fun _ _ _ => rfl
    · exact field Store.cfg fun _ _ _ => rfl
    · exact field Store.configFault fun _ _ _ => rfl
    · exact field Store.fittedPending fun _ _ _ => rfl
    · exact field Store.groups fun _ _ _ => rfl

/-! ### The watch bands of a new group (R180) -/

/-- R180: what one band keeps when a group comes into use. -/
def bandKept (set : GroupSettings) (b : BandNo) (r : BandRec) : BandRec :=
  { condition := (set.bands.get b).enable && r.condition, run := 0 }

theorem forEach_bands {l : List BandNo} {f : BandNo → State → State} {g : BandNo → BandRec → BandRec} {st : Store}
    (h : ∀ b s, s.store = st → (f b s).store = st ∧ (f b s).au.bands = s.au.bands.set b (g b (s.au.bands.get b)))
    (hs : s.store = st) : (forEach l f s).au.bands = writeEntries g l s.au.bands := by
  induction l generalizing s with
  | nil => rfl
  | cons b l ih =>
    obtain ⟨hst, hb⟩ := h b s hs
    refine (ih hst).trans ?_
    rw [hb]
    rfl

theorem State.disableBand_bands (b : BandNo) (old : BandSettings) :
    (s.disableBand b old).store = s.store ∧ (s.disableBand b old).au.bands = s.au.bands := by
  unfold State.disableBand
  dsimp only
  split <;> exact ⟨rfl, rfl⟩

theorem State.rebands_get (before : GroupSettings) (b : BandNo) :
    (s.rebands before).au.bands.get b = bandKept s.store.inUse b (s.au.bands.get b) := by
  have hall : ∀ b : BandNo, b ∈ allBands := mem_allBands
  have hnodup : allBands.Nodup := by decide
  refine (congrArg (fun v => v.get b) (forEach_bands (g := bandKept s.store.inUse) (st := s.store) (fun b t ht => ?_) rfl)).trans
    ((writeEntries_get _ hnodup _ b).trans (if_pos (hall b)))
  dsimp only
  generalize hu : t.modAu (fun a => { a with
    bands := a.bands.set b { condition := (t.store.inUse.bands.get b).enable && (a.bands.get b).condition, run := 0 } }) = u
  have hst : u.store = s.store := by subst hu; exact ht
  have hband : u.au.bands = t.au.bands.set b (bandKept s.store.inUse b (t.au.bands.get b)) := by subst hu; rw [← ht]; rfl
  generalize hv : (if (t.store.inUse.bands.get b).enable = true then u else u.disableBand b (before.bands.get b)) = v
  have hv' : v.store = u.store ∧ v.au.bands = u.au.bands := by
    subst hv
    split
    · exact ⟨rfl, rfl⟩
    · exact State.disableBand_bands b _
  have hfin : ∀ c : Bool, ∀ r : PointRec, (if c = true then v.putPoint (bandPoint b) r else v).store = s.store ∧
      (if c = true then v.putPoint (bandPoint b) r else v).au.bands =
        t.au.bands.set b (bandKept s.store.inUse b (t.au.bands.get b)) := by
    intro c r
    split <;> exact ⟨hv'.1.trans hst, hv'.2.trans hband⟩
  exact hfin _ _

theorem State.engineActivate_unit (k : FeederNo) : (s.engineActivate k).store = s.store ∧ (s.engineActivate k).au = s.au := by
  unfold State.engineActivate
  split <;> simp

/-- R180, R192: the bands once a group has been handed on. -/
theorem State.handGroup_bands (before : GroupSettings) (b : BandNo) :
    (s.handGroup before).au.bands.get b = bandKept s.store.inUse b (s.au.bands.get b) := by
  unfold State.handGroup
  dsimp only
  rw [State.rebands_get]
  have engines (t : State) : (forEach allFeeders State.engineActivate t).store = t.store ∧
      (forEach allFeeders State.engineActivate t).au = t.au :=
    ⟨forEach_same State.store _ _ _ fun k t => (State.engineActivate_unit k).1,
      forEach_same State.au _ _ _ fun k t => (State.engineActivate_unit k).2⟩
  have seqs (t : State) : (forEach allFeeders State.seqActivate t).store = t.store ∧
      (forEach allFeeders State.seqActivate t).au = t.au :=
    ⟨forEach_same State.store _ _ _ fun _ _ => rfl, forEach_same State.au _ _ _ fun _ _ => rfl⟩
  rw [(seqs _).1, (seqs _).2, (engines s).1, (engines s).2]

theorem bands_any (v : Vector BandRec 8) : Any fun t : State => t.au.bands = v where
  engine _ _ _ _ h := h
  seq _ _ _ _ h := h
  rect _ _ _ h := h
  sec _ _ _ h := h
  table _ _ h := h
  banks _ _ _ h := h
  link s p f _ h := by rw [State.modLink_au]; exact h
  point _ _ _ h := h
  hand _ _ _ h := h

/-! ### ACTIVATE (R191) -/

/-- The part once group g is in use, before it is handed on. -/
def State.groupChosen (g : GroupNo) (s : State) : State :=
  (s.modStore fun st => { st with active := g, factoryInUse := false, inUse := readGroup (st.groups.get g).content }) |> fun t =>
    t.modStore (Store.writeCopy t.retainedView)

theorem State.groupChosen_only {l : List Part} (hs : .settings ∈ l) (hb : .banks ∈ l) (g : GroupNo) :
    OnlyChanges l s (s.groupChosen g) := by
  intro p m
  cases p <;> first | exact absurd hs m | exact absurd hb m | simp [Same, State.groupChosen, State.modStore]

section
variable {code : Byte} {g : GroupNo}

theorem State.commandActivate_outside (h : 3 < code.toNat) : s.commandActivate code = refuse s .badOperand := dif_neg (by omega)

/-- R191: ACTIVATE of a group, item by item. -/
theorem State.commandActivate_group (h : code.toNat = g.val) :
    s.commandActivate code =
      if s.store.operation.isSome then refuse s .busy
      else if s.store.lock then refuse s .locked
      else if (s.store.groups.get g).state ≠ .valid then refuse s .state
      else if g = s.store.active ∧ s.store.factoryInUse = false then accept s g.val
      else accept ((s.groupChosen g).handGroup s.store.inUse) g.val := by
  have hg : (⟨code.toNat, h ▸ g.isLt⟩ : GroupNo) = g := Fin.ext h
  refine (dif_pos (h ▸ g.isLt)).trans ?_
  dsimp only
  rw [hg, h]
  rfl

end

/-- R191, R192: another group comes into use. -/
theorem activate_another (r : PortReady s) {code : Byte} {g : GroupNo}
    (hf : s.port { code := 0x53 } none (some (State.commandActivate code)) =
      State.record { code := 0x53 } none (accept ((s.groupChosen g).handGroup s.store.inUse) g.val)) :
    ∃ t, exec (.activate code) s = .next t ∧ t.store.active = g ∧ t.store.factoryInUse = false ∧
      t.store.inUse = readGroup (s.store.groups.get g).content ∧ t.store.groups = s.store.groups ∧
      t.sp = (s.resulting 0x53 .accepted g.val).sp ∧
      (∀ b, t.au.bands.get b = bandKept (readGroup (s.store.groups.get g).content) b (s.au.bands.get b)) ∧
      OnlyChanges (.settings :: .port :: reached) s t := by
  have any := onlyChanges_any (l := reached) (fun _ m => m) (s.groupChosen g)
  have handed : OnlyChanges reached (s.groupChosen g) ((s.groupChosen g).handGroup s.store.inUse) :=
    any.handGroup (fun a k f h => h.trans (onlyChanges_modSeq (by decide) k f))
      (fun a v h => h.trans (onlyChanges_bands (by decide) v)) s.store.inUse (OnlyChanges.refl _ _)
  have hands : Consequent ((s.groupChosen g).handGroup s.store.inUse) :=
    consequent_any.handGroup (fun _ _ _ h => h) (fun _ _ h => h) s.store.inUse
      (s := s.groupChosen g) (fun x m => by rw [show (s.groupChosen g).agenda = [] from r.quiet] at m; cases m)
  have bands := fun b => State.handGroup_bands (s := s.groupChosen g) s.store.inUse b
  generalize (s.groupChosen g).handGroup s.store.inUse = v at *
  have recorded (l : List Part) (hl : .port ∈ l) : OnlyChanges l v (State.record { code := 0x53 } none (accept v g.val)) := by
    intro p m
    cases p <;> first | exact absurd hl m | simp [Same, State.record, accept]
  have only := State.event_only (s := s) (State.port { code := 0x53 } none (some (State.commandActivate code)))
    (by rw [hf]; exact Consequent.consequential (s := State.record { code := 0x53 } none (accept v g.val)) hands)
  have kept : (s.event (State.port { code := 0x53 } none (some (State.commandActivate code)))).au.bands = v.au.bands :=
    (bands_any v.au.bands).keeps.event (fun _ _ h => h) (fun _ h => h) (fun _ _ h => h) _
      (by rw [hf]; exact hands) (by rw [hf]; rfl)
  have exec_eq : exec (.activate code) s = .next (s.event (State.port { code := 0x53 } none (some (State.commandActivate code)))) := by
    show execActivate code s = _
    exact event_running _ r.running
  rw [hf] at only
  refine ⟨_, exec_eq, ?_⟩
  generalize s.event (State.port { code := 0x53 } none (some (State.commandActivate code))) = t at *
  have settings : Same .settings (s.groupChosen g) t :=
    (handed .settings (by decide)).trans ((recorded [.port] (by decide) .settings (by decide)).trans (only .settings (by decide)))
  have field {α : Type} (f : Store → α) (hg : ∀ st a b, f { st with bank0 := a, bank1 := b } = f st) :
      f t.store = f (s.groupChosen g).store :=
    (hg _ _ _).symm.trans (congrArg f settings)
  have port : t.sp = (s.resulting 0x53 .accepted g.val).sp := by
    have hsp : v.sp = s.sp := handed .port (by decide)
    have hport : t.sp = (State.record { code := 0x53 } none (accept v g.val)).sp := only .port (by decide)
    rw [hport]
    unfold State.record State.resulting
    dsimp only [State.modSp_sp, accept]
    rw [hsp]
    rfl
  refine ⟨?_, ?_, ?_, ?_, port, fun b => by rw [kept]; exact bands b, ?_⟩
  · exact field Store.active fun _ _ _ => rfl
  · exact field Store.factoryInUse fun _ _ _ => rfl
  · exact field Store.inUse fun _ _ _ => rfl
  · exact field Store.groups fun _ _ _ => rfl
  · exact (State.groupChosen_only (by decide) (by decide) g).trans ((handed.mono (by decide)).trans
      ((recorded _ (by decide)).trans (only.mono (by decide))))

/-- Settles O39, item by item in the order of the refusals. -/
theorem activateGroup : Obligations.ActivateGroup := by
  unfold Obligations.ActivateGroup
  intro s code r
  have port : s.port { code := 0x53 } none (some (State.commandActivate code)) =
      State.record { code := 0x53 } none (s.commandActivate code) := State.port_plain none r.armed rfl rfl rfl
  have answers {a : Answer} (h : s.commandActivate code = a) (hq : a.state.agenda = []) :
      exec (.activate code) s = .next (State.record { code := 0x53 } none a).finish := by
    show execActivate code s = _
    unfold execActivate
    exact event_quiet_next r.running (port.trans (by rw [h])) hq
  refine ⟨fun h => answers (State.commandActivate_outside h) r.quiet, fun g h => ?_⟩
  have judged := State.commandActivate_group (s := s) h
  refine ⟨fun hbusy => ?_, fun hidle hlock => ?_, fun hidle hlock hvalid => ?_, fun hidle hlock hvalid =>
    ⟨fun hsame hfactory => ?_, fun hother => ?_⟩⟩
  · rw [if_pos (Option.isSome_iff_ne_none.2 hbusy)] at judged
    exact answers judged r.quiet
  · rw [if_neg (by simp [hidle]), if_pos hlock] at judged
    exact answers judged r.quiet
  · rw [if_neg (by simp [hidle]), if_neg (by simp [hlock]), if_pos hvalid] at judged
    exact answers judged r.quiet
  · rw [if_neg (by simp [hidle]), if_neg (by simp [hlock]), if_neg (Classical.not_not.2 hvalid), if_pos ⟨hsame, hfactory⟩] at judged
    exact answers judged r.quiet
  · rw [if_neg (by simp [hidle]), if_neg (by simp [hlock]), if_neg (Classical.not_not.2 hvalid), if_neg] at judged
    · exact activate_another r (port.trans (by rw [judged]))
    · rintro ⟨hsame, hfactory⟩
      obtain hg | hg := hother
      · exact hg hsame
      · simp [hfactory] at hg

end Sys2Proof.Machine
end

section
/-! The hold commands refused (R115, R130, R132, R133, R139). -/

namespace Sys2Proof.Machine

open Sys2Proof

variable {s u : State} {row : PortRow} {named : Option Nat}

/-! ### The answer of a command (R203, R204) -/

theorem State.portAnswer_judged (owner : Option (State → Answer)) (hv : s.verification = none)
    (hremote : row.remote = true → s.sp.localAuthority = false) (hkey : row.supervisor = true → s.sp.supervisorKey = true) :
    s.portAnswer row owner = owner.elim (refuse s .badOperand) fun f => f s := by
  have hr : ¬ (row.remote && s.sp.localAuthority) = true := by
    cases h : row.remote
    · simp
    · simp [hremote h]
  have hk : ¬ (row.supervisor && !s.sp.supervisorKey) = true := by
    cases h : row.supervisor
    · simp
    · simp [hkey h]
  unfold State.portAnswer
  rw [if_neg (by simp [State.verifying, hv]), if_neg hr, if_neg hk]
  cases owner <;> rfl

theorem event_port (r : PortReady s) {owner : Option (State → Answer)} {a : Answer} (h : s.portAnswer row owner = a)
    (hq : a.state.agenda = []) : event (State.port row named owner) s = .next (State.record row named a).finish :=
  event_quiet_next r.running ((if_pos r.armed).trans (by rw [h])) hq

/-- A command that is refused changes the last command result alone. -/
theorem event_port_refused (r : PortReady s) {owner : Option (State → Answer)} {reason : RefusalCode} {value : Nat}
    (h : s.portAnswer row owner = refuse s reason value) :
    event (State.port row named owner) s = .next (s.resulting row.code (.refused reason) (named.getD value)).finish :=
  event_port r h r.quiet

/-! ### RELEASE, EXTEND, DISMISS and FORCE RELEASE -/

section
variable {id : Byte} {tag : Half}

theorem holderOperands_iff : holderOperands id tag = true ↔ id ≠ 0 ∧ tag ≠ 0 := by simp [holderOperands]

theorem State.stationHold_none (h : s.hold id = none) : s.stationHold id tag = .inl .notFound := by
  unfold State.stationHold
  rw [h]

theorem State.stationHold_foreign {x : Hold} (h : s.hold id = some x) (hx : x.origin ≠ .station ∨ x.tag ≠ tag) :
    s.stationHold id tag = .inl .notHolder := by
  unfold State.stationHold
  rw [h]
  exact if_pos hx

theorem State.stationHold_own {x : Hold} (h : s.hold id = some x) (ho : x.origin = .station) (ht : x.tag = tag) :
    s.stationHold id tag = .inr x := by
  unfold State.stationHold
  rw [h]
  exact if_neg (by simp [ho, ht])

section
variable {reason : RefusalCode}

/-- A command with a hold ID and a holder tag is refused by its owner, or for its operands. -/
theorem event_holder_refused (r : PortOpen s) (hremote : row.remote = false) (hkey : row.supervisor = false)
    {owner : State → Answer} (h : holderOperands id tag = true → owner s = refuse s reason)
    (hb : holderOperands id tag = false → reason = .badOperand) :
    event (State.port row none (if holderOperands id tag then some owner else none)) s =
      .next (s.refusing row.code reason).finish := by
  refine event_port_refused r.toPortReady ?_
  rw [State.portAnswer_judged _ r.verified (by simp [hremote]) (by simp [hkey])]
  split
  next hin => exact h hin
  next hout => rw [hb (by simpa using hout)]; rfl

theorem exec_releaseHold_refused (r : PortOpen s)
    (h : holderOperands id tag = true → s.commandRelease id tag = refuse s reason) (hb : holderOperands id tag = false → reason = .badOperand) :
    exec (.releaseHold id tag) s = .next (s.refusing 0x31 reason).finish := by
  show execReleaseHold id tag s = _
  unfold execReleaseHold
  exact event_holder_refused r rfl rfl h hb

theorem exec_extendHold_refused (r : PortOpen s) {duration : Half}
    (h : holderOperands id tag = true → s.commandExtend id tag duration.toNat = refuse s reason)
    (hb : holderOperands id tag = false → reason = .badOperand) :
    exec (.extendHold id tag duration) s = .next (s.refusing 0x32 reason).finish := by
  show execExtendHold id tag duration s = _
  unfold execExtendHold
  exact event_holder_refused r rfl rfl h hb

theorem exec_dismissHold_refused (r : PortOpen s)
    (h : holderOperands id tag = true → s.commandDismiss id tag = refuse s reason) (hb : holderOperands id tag = false → reason = .badOperand) :
    exec (.dismissHold id tag) s = .next (s.refusing 0x33 reason).finish := by
  show execDismissHold id tag s = _
  unfold execDismissHold
  exact event_holder_refused r rfl rfl h hb

theorem exec_forceRelease_refused (r : PortOpen s) (hkey : s.sp.supervisorKey = true)
    (h : id ≠ 0 → s.commandForce id = refuse s reason) (hb : id = 0 → reason = .badOperand) :
    exec (.forceRelease id) s = .next (s.refusing 0x34 reason).finish := by
  show execForceRelease id s = _
  unfold execForceRelease
  refine event_port_refused r.toPortReady ?_
  rw [State.portAnswer_judged _ r.verified (by simp) fun _ => hkey]
  split
  next hz => rw [hb hz]; rfl
  next hid => exact h hid

end

/-- What RELEASE and DISMISS refuse of the hold's holder, and EXTEND with a duration inside its set. -/
theorem State.holder_refusals {reason : RefusalCode} {duration : Nat} (hd : 1 ≤ duration ∧ duration ≤ 720)
    (h : s.stationHold id tag = .inl reason) :
    s.commandRelease id tag = refuse s reason ∧ s.commandExtend id tag duration = refuse s reason ∧
      s.commandDismiss id tag = refuse s reason := by
  unfold State.commandRelease State.commandExtend State.commandDismiss
  rw [h]
  exact ⟨rfl, if_neg (by omega), rfl⟩

end

/-- Settles O31, item by item. -/
theorem holdCommandsRefused : Obligations.HoldCommandsRefused := by
  unfold Obligations.HoldCommandsRefused
  intro s id tag duration r
  have outside (h : id = 0 ∨ tag = 0) : ¬ holderOperands id tag = true := by
    rw [holderOperands_iff]
    rintro ⟨hid, htag⟩
    exact h.elim hid htag
  refine ⟨fun h => ?_, fun h => ?_, fun hkey => ?_, fun hkey => ⟨fun h => ?_, fun hid h => ?_, fun x hid h hx => ?_⟩,
    fun hid htag h1 h720 => ?_⟩
  · exact ⟨exec_releaseHold_refused r (fun e => absurd e (outside h)) fun _ => rfl,
      exec_extendHold_refused r (fun e => absurd e (outside h)) fun _ => rfl,
      exec_dismissHold_refused r (fun e => absurd e (outside h)) fun _ => rfl⟩
  · exact exec_extendHold_refused r (fun _ => if_pos h) fun _ => rfl
  · show execForceRelease id s = _
    unfold execForceRelease
    refine event_port_refused r.toPortReady ?_
    simp [State.portAnswer, State.verifying, r.verified, hkey]
  · exact exec_forceRelease_refused r hkey (fun e => absurd h e) fun _ => rfl
  · refine exec_forceRelease_refused r hkey (fun _ => ?_) fun e => absurd e hid
    unfold State.commandForce
    rw [h]
  · refine exec_forceRelease_refused r hkey (fun _ => ?_) fun e => absurd e hid
    unfold State.commandForce
    rw [h]
    dsimp only
    rw [hx]
  · have inside : ¬ holderOperands id tag = false := by rw [holderOperands_iff.2 ⟨hid, htag⟩]; decide
    have refused {reason : RefusalCode} (h : s.stationHold id tag = .inl reason) :
        exec (.releaseHold id tag) s = .next (s.refusing 0x31 reason).finish ∧
        exec (.extendHold id tag duration) s = .next (s.refusing 0x32 reason).finish ∧
        exec (.dismissHold id tag) s = .next (s.refusing 0x33 reason).finish := by
      obtain ⟨hrelease, hextend, hdismiss⟩ := State.holder_refusals ⟨h1, h720⟩ h
      exact ⟨exec_releaseHold_refused r (fun _ => hrelease) fun e => absurd e inside,
        exec_extendHold_refused r (fun _ => hextend) fun e => absurd e inside,
        exec_dismissHold_refused r (fun _ => hdismiss) fun e => absurd e inside⟩
    refine ⟨fun h => refused (State.stationHold_none h), fun x h => ⟨fun hx => refused (State.stationHold_foreign h hx),
      fun ho ht => ⟨fun hx => ?_, fun hx => ?_, fun hx => ?_⟩⟩⟩
    all_goals have own := State.stationHold_own (tag := tag) h ho ht
    · refine exec_releaseHold_refused r (fun _ => ?_) fun e => absurd e inside
      unfold State.commandRelease
      rw [own]
      exact if_pos hx
    · refine exec_extendHold_refused r (fun _ => ?_) fun e => absurd e inside
      unfold State.commandExtend
      rw [own]
      exact (if_neg (by omega)).trans (if_pos hx)
    · refine exec_dismissHold_refused r (fun _ => ?_) fun e => absurd e inside
      unfold State.commandDismiss
      rw [own]
      exact if_neg hx

/-! ### The operands of PLACE HOLD (R115, item 1) -/

theorem sectionOperands_some {l : List Byte} {sections : List SectionNo} (h : sectionOperands l = some sections) :
    sections.map Fin.val = l.map BitVec.toNat := by
  induction l generalizing sections with
  | nil => cases h; rfl
  | cons b l ih =>
    unfold sectionOperands at h
    split at h
    next n rest hn hrest =>
      cases h
      have hb : n.val = b.toNat := by
        unfold sectionOperand at hn
        split at hn
        · cases hn; rfl
        · cases hn
      rw [List.map_cons, List.map_cons, ih hrest, hb]
    next => cases h

theorem sectionOperands_ofNat (sections : List SectionNo) :
    sectionOperands (sections.map fun n => BitVec.ofNat 8 n.val) = some sections := by
  induction sections with
  | nil => rfl
  | cons n l ih =>
    have hn : sectionOperand (BitVec.ofNat 8 n.val) = some n := by
      revert n
      decide
    rw [List.map_cons, sectionOperands, hn, ih]

theorem ascending_iff {l : List SectionNo} : ascending l = true ↔ l.Pairwise fun a b => a.val < b.val := by
  refine ⟨ascending_pairwise, fun h => ?_⟩
  induction l with
  | nil => rfl
  | cons a l ih =>
    obtain ⟨ha, hl⟩ := List.pairwise_cons.1 h
    cases l with
    | nil => rfl
    | cons b l =>
      rw [ascending, decide_eq_true (ha b (by simp)), ih hl]
      rfl

theorem kindOperand_some {b : Byte} {k : HoldKind} (h : kindOperand b = some k) :
    b = 0 ∧ k = .isolate ∨ b = 1 ∧ k = .earth ∨ b = 2 ∧ k = .noreclose := by
  unfold kindOperand at h
  (repeat' split at h) <;> cases h <;> simp_all

theorem durationOperand_some {k : HoldKind} {d : Half} {x : Option Nat} (h : durationOperand k d = some x) :
    k = .noreclose ∧ 1 ≤ d.toNat ∧ d.toNat ≤ 720 ∧ x = some d.toNat ∨ k ≠ .noreclose ∧ d = 0 ∧ x = none := by
  unfold durationOperand at h
  (repeat' split at h) <;> cases h <;> simp_all

/-- R115, item 1: what passes stands inside every set. -/
theorem placementOperands_some {kind count : Byte} {tag duration : Half} {l : List Byte} {p : Placement}
    (h : placementOperands kind tag count l duration = some p) :
    tag ≠ 0 ∧ 1 ≤ count.toNat ∧ count.toNat ≤ 7 ∧ kindOperand kind = some p.kind ∧
      sectionOperands (l.take count.toNat) = some p.sections ∧ durationOperand p.kind duration = some p.duration ∧
      ascending p.sections = true := by
  unfold placementOperands at h
  split at h
  · cases h
  next hn =>
    split at h
    next k sections hk hs =>
      split at h
      next d hd =>
        split at h
        next ha =>
          cases h
          exact ⟨fun e => hn (.inl e), by omega, by omega, hk, hs, hd, ha⟩
        · cases h
      · cases h
    · cases h

theorem placementOperands_eq {kind count : Byte} {tag duration : Half} {l : List Byte} {p : Placement} (htag : tag ≠ 0)
    (h1 : 1 ≤ count.toNat) (h7 : count.toNat ≤ 7) (hk : kindOperand kind = some p.kind)
    (hs : sectionOperands (l.take count.toNat) = some p.sections) (hd : durationOperand p.kind duration = some p.duration)
    (ha : ascending p.sections = true) : placementOperands kind tag count l duration = some p := by
  unfold placementOperands
  rw [if_neg (by simp only [htag, false_or]; omega), hk, hs]
  dsimp only
  rw [hd]
  exact if_pos ha

theorem exec_placeHold_refused (r : PortOpen s) {kind count : Byte} {tag duration : Half} {l : List Byte} {reason : RefusalCode}
    {value : Nat} (hl : count.toNat = 0 ∨ 7 < count.toNat ∨ l.length = count.toNat)
    (h : ((placementOperands kind tag count l duration).map fun p => State.commandPlace p tag).elim (refuse s .badOperand)
      (fun f => f s) = refuse s reason value) :
    exec (.placeHold kind tag count l duration) s = .next (s.resulting 0x30 (.refused reason) value).finish := by
  show execPlaceHold kind tag count l duration s = _
  unfold execPlaceHold
  rw [if_neg]
  · refine event_port_refused r.toPortReady ?_
    rw [State.portAnswer_judged _ r.verified (by simp) (by simp)]
    exact h
  · simp [shortOf]
    omega

/-! ### PLACE HOLD judged (R115, items 2 to 5) -/

theorem State.namesUnfitted_iff {sections : List SectionNo} :
    s.namesUnfitted sections = true ↔ ∃ k : FeederNo, sectionOf k ∈ sections ∧ s.fitted k = false := by
  unfold State.namesUnfitted
  rw [List.any_eq_true]
  constructor
  · rintro ⟨n, hn, h⟩
    split at h
    next k hk => exact ⟨k, sectionOf_of_feederOf hk ▸ hn, by simpa using h⟩
    next => cases h
  · rintro ⟨k, hk, hf⟩
    refine ⟨_, hk, ?_⟩
    rw [feederOf_sectionOf]
    simp [hf]

theorem State.faultyFeeder_iff {k : FeederNo} :
    s.faultyFeeder k = true ↔ (s.seq k).state = some .breakerFault ∧ s.breakerPos k ≠ some .opened := by
  simp [State.faultyFeeder, State.seqIn]

section
variable {sections : List SectionNo} {bar : Bool}

theorem State.placementRefusal_notFitted (h : ∃ k : FeederNo, sectionOf k ∈ sections ∧ s.fitted k = false) :
    s.placementRefusal sections bar = some (.notFitted, 0) := if_pos (State.namesUnfitted_iff.2 h)

variable (hf : ¬ ∃ k : FeederNo, sectionOf k ∈ sections ∧ s.fitted k = false)

include hf

theorem State.placementRefusal_badSection (hb : bar = true) : s.placementRefusal sections bar = some (.badSection, 0) :=
  (if_neg (mt State.namesUnfitted_iff.1 hf)).trans (if_pos hb)

theorem State.placementRefusal_full (hb : bar = false) (h : 24 ≤ s.ht.holds.length) :
    s.placementRefusal sections bar = some (.full, 0) :=
  (if_neg (mt State.namesUnfitted_iff.1 hf)).trans ((if_neg (by simp [hb])).trans (if_pos h))

theorem State.placementRefusal_interlock (hb : bar = false) (h : s.ht.holds.length < 24) {k : FeederNo}
    (hk : s.covers sections k = true ∧ s.faultyFeeder k = true)
    (hlow : ∀ j, j < k → ¬ (s.covers sections j = true ∧ s.faultyFeeder j = true)) :
    s.placementRefusal sections bar = some (.interlock, k.val) := by
  have found : s.interlockFeeder sections = some k :=
    find?_first allFeeders_ascending (mem_allFeeders k) (by rw [hk.1, hk.2]; rfl) fun j hj => by
      rw [Bool.eq_false_iff]
      intro e
      exact hlow j hj (by simpa using e)
  unfold State.placementRefusal
  rw [if_neg (mt State.namesUnfitted_iff.1 hf), if_neg (by simp [hb]), if_neg (by omega), found]

end

theorem State.commandPlace_refused {p : Placement} {tag : Half} {reason : RefusalCode} {value : Nat}
    (h : s.placementRefusal p.sections (s.badSections p.kind p.sections) = some (reason, value)) :
    s.commandPlace p tag = refuse s reason value := by
  unfold State.commandPlace
  rw [h]

theorem State.badSections_iff {kind : HoldKind} {sections : List SectionNo} :
    s.badSections kind sections = true ↔ (kind ≠ .isolate ∧ busSection ∈ sections) ∨ s.sharesTwice sections = true := by
  simp [State.badSections]

/-- The operands of a placement inside their sets. -/
theorem placement_operands {kind : Byte} {duration : Half}
    (h : (kind = 0 ∨ kind = 1) ∧ duration = 0 ∨ kind = 2 ∧ 1 ≤ duration.toNat ∧ duration.toNat ≤ 720) :
    ∃ k d, kindOperand kind = some k ∧ durationOperand k duration = some d ∧ (k = .isolate ↔ kind = 0) := by
  obtain ⟨rfl | rfl, rfl⟩ | ⟨rfl, h1, h720⟩ := h
  · exact ⟨.isolate, none, rfl, rfl, by decide⟩
  · exact ⟨.earth, none, rfl, rfl, by decide⟩
  · exact ⟨.noreclose, some duration.toNat, rfl, (if_pos rfl).trans (if_pos ⟨h1, h720⟩), by decide⟩

/-- Settles O29, item by item. -/
theorem placeHoldRefused : Obligations.PlaceHoldRefused := by
  unfold Obligations.PlaceHoldRefused
  intro s kind tag count duration r
  refine ⟨fun hcount => ?_, fun l h1 h7 hl bad => ?_, fun sections h1 h7 hl hsorted htag hkind => ?_⟩
  · have none : placementOperands kind tag count [] 0 = none := by
      cases e : placementOperands kind tag count [] 0 with
      | none => rfl
      | some p =>
        obtain ⟨_, h1, h7, _⟩ := placementOperands_some e
        omega
    exact exec_placeHold_refused r (by omega) (by rw [none]; rfl)
  · have none : placementOperands kind tag count l duration = none := by
      cases e : placementOperands kind tag count l duration with
      | none => rfl
      | some p =>
        exfalso
        obtain ⟨htag, _, _, hk, hs, hd, ha⟩ := placementOperands_some e
        rw [List.take_of_length_le (by omega)] at hs
        have bytes := sectionOperands_some hs
        obtain h | h | ⟨b, hb, h⟩ | h | ⟨rfl, h⟩ | ⟨h, h0⟩ := bad
        · exact htag h
        · obtain ⟨rfl, _⟩ | ⟨rfl, _⟩ | ⟨rfl, _⟩ := kindOperand_some hk <;> revert h <;> decide
        · have : b.toNat ∈ p.sections.map Fin.val := bytes ▸ List.mem_map_of_mem hb
          obtain ⟨n, _, hn⟩ := List.mem_map.1 this
          omega
        · have sorted : (p.sections.map Fin.val).Pairwise (· < ·) := List.pairwise_map.2 (ascending_pairwise ha)
          rw [bytes] at sorted
          exact h (List.pairwise_map.1 sorted)
        · obtain ⟨h0, _⟩ | ⟨h1, _⟩ | ⟨_, hk'⟩ := kindOperand_some hk
          · exact absurd h0 (by decide)
          · exact absurd h1 (by decide)
          · obtain ⟨_, h1, h720, _⟩ | ⟨hn, _⟩ := durationOperand_some hd
            · obtain rfl | h := h
              · exact absurd h1 (by decide)
              · omega
            · exact hn hk'
        · obtain ⟨_, hk'⟩ | ⟨_, hk'⟩ | ⟨hk', _⟩ := kindOperand_some hk
          · obtain ⟨hn, _⟩ | ⟨_, hd, _⟩ := durationOperand_some hd
            · rw [hk'] at hn; cases hn
            · exact h0 hd
          · obtain ⟨hn, _⟩ | ⟨_, hd, _⟩ := durationOperand_some hd
            · rw [hk'] at hn; cases hn
            · exact h0 hd
          · exact h hk'
    exact exec_placeHold_refused r (.inr (.inr hl)) (by rw [none]; rfl)
  · intro l unfitted twice faulty
    obtain ⟨k, d, hk, hd, hiso⟩ := placement_operands hkind
    have hlen : l.length = count.toNat := (List.length_map _).trans hl
    have operands : placementOperands kind tag count l duration = some { kind := k, sections := sections, duration := d } := by
      refine placementOperands_eq htag h1 h7 hk ?_ hd (ascending_iff.2 hsorted)
      rw [List.take_of_length_le (by omega)]
      exact sectionOperands_ofNat sections
    have refused {reason : RefusalCode} {value : Nat}
        (h : s.placementRefusal sections (s.badSections k sections) = some (reason, value)) :
        exec (.placeHold kind tag count l duration) s = .next (s.resulting 0x30 (.refused reason) value).finish :=
      exec_placeHold_refused r (.inr (.inr hlen)) (by rw [operands]; exact State.commandPlace_refused h)
    have good (hbus : kind = 0 ∨ busSection ∉ sections) (htwice : twice = false) : s.badSections k sections = false := by
      rw [Bool.eq_false_iff, Ne, State.badSections_iff]
      rintro (⟨hn, hb⟩ | ht)
      · exact hbus.elim (fun h => hn (hiso.2 h)) fun h => h hb
      · exact absurd (ht.symm.trans htwice) (by decide)
    refine ⟨fun h => refused (State.placementRefusal_notFitted h), fun hf h => refused (State.placementRefusal_badSection hf ?_),
      fun hf hbus htwice h => refused (State.placementRefusal_full hf (good hbus htwice) h),
      fun hf hbus htwice h j hj hlow => refused (State.placementRefusal_interlock hf (good hbus htwice) h ?_ fun i hi hfaulty => ?_)⟩
    · rw [State.badSections_iff]
      exact h.imp_left fun ⟨h0, hb⟩ => ⟨fun e => h0 (hiso.1 e), hb⟩
    · exact ⟨hj.1, State.faultyFeeder_iff.2 hj.2⟩
    · exact hlow i hi ⟨hfaulty.1, State.faultyFeeder_iff.1 hfaulty.2⟩

end Sys2Proof.Machine
end

section
/-! RESET LOCKOUT and OPERATE (R62 to R64, R76, R77, R81, R82, R206). -/

namespace Sys2Proof.Machine

open Sys2Proof

variable {s t u : State} {k : FeederNo}

/-! ### A sequencer whose engine does not run -/

/-- R70: a sequencer in which the engine does not run enters a state in which it does not start. -/
theorem State.enter_idle (q : SeqState) (f : Sequencer → Sequencer) (hq : q ≠ .closing) (hr : runsIn (s.seq k).state = false) :
    s.enter k q f =
      { s.modSeq k (fun x => enterFields q (f x)) with
        agenda := s.agenda ++ if (s.seq k).state = some q then [] else [.seqChanged k] } := by
  unfold State.enter
  dsimp only
  rw [if_neg hq, hr, Bool.false_and, if_neg Bool.false_ne_true]
  by_cases h : (s.seq k).state = some q
  · rw [if_pos h, if_pos h, List.append_nil]
    rfl
  · rw [if_neg h, if_neg h]
    rfl

/-- R70, R108: an event whose first effect changes the state of one sequencer, over which no hold is being secured. -/
theorem event_seqChanged {f : State → State} (hrun : s.resetHeld = false) (hf : f s = { u with agenda := [.seqChanged k] })
    (hsec : u.securingOver k = []) (hu : u.agenda = []) : event f s = .next (State.deriveBars (sectionOf k) u).finish := by
  have c : Carried 1 u [.seqChanged k] { State.deriveBars (sectionOf k) u with agenda := [] } :=
    .step (handle_seqChanged hsec) (.done 0 _)
  rw [State.quiet_eq (s := State.deriveBars (sectionOf k) u) hu] at c
  exact event_carried_next hrun hf c (by decide)

/-! ### RESET LOCKOUT (R64) -/

/-- R64: the sequencer of feeder k as RESET LOCKOUT leaves it. -/
def Sequencer.unlocked (r : Sequencer) : Sequencer := { r.bare .opened with attempts := 0 }

/-- R50, R64: whether another feeder holds the backup latch. -/
def State.latchHeld (s : State) (k : FeederNo) : Bool :=
  allFeeders.any fun j => decide (j ≠ k) && s.seqIn j .breakerFault && (s.seq j).failure == some .openFailed

theorem State.clearLatch_unlocked (l : List Signal) :
    State.clearLatch { s.modSeq k Sequencer.unlocked with agenda := l } =
      { s.modSeq k Sequencer.unlocked with backupLatch := s.backupLatch && s.latchHeld k, agenda := l } := by
  have h : (allFeeders.any fun j => State.seqIn { s.modSeq k Sequencer.unlocked with agenda := l } j .breakerFault &&
      (State.seq { s.modSeq k Sequencer.unlocked with agenda := l } j).failure == some .openFailed) = s.latchHeld k := by
    unfold State.latchHeld
    refine congrArg (List.any allFeeders) (funext fun j => ?_)
    by_cases hj : j = k
    · subst hj
      have e : State.seq { s.modSeq j Sequencer.unlocked with agenda := l } j = (s.seq j).unlocked := State.modSeq_seq s j _
      unfold State.seqIn
      rw [e]
      simp [Sequencer.unlocked, Sequencer.bare]
    · have e : State.seq { s.modSeq k Sequencer.unlocked with agenda := l } j = s.seq j := State.modSeq_seq_ne s hj _
      unfold State.seqIn
      rw [e]
      simp [hj]
  unfold State.clearLatch
  rw [h]
  cases s.latchHeld k
  · simp
  · simp

/-- R64: RESET LOCKOUT taken. -/
theorem State.unlocks (hq : (s.seq k).state = some .lockout ∨ (s.seq k).state = some .breakerFault) (ha : s.agenda = []) :
    (s.seqToOpen k).clearLatch =
      { s.modSeq k Sequencer.unlocked with backupLatch := s.backupLatch && s.latchHeld k, agenda := [.seqChanged k] } := by
  have he : s.seqToOpen k = { s.modSeq k Sequencer.unlocked with agenda := [.seqChanged k] } := by
    unfold State.seqToOpen
    rw [State.enter_idle _ _ (by decide) (by obtain h | h := hq <;> rw [h] <;> rfl), ha,
      if_neg (by obtain h | h := hq <;> rw [h] <;> decide)]
    rfl
  rw [he, State.clearLatch_unlocked]

theorem State.commandReset_taken (h : (s.seq k).state = some .lockout ∨
    ((s.seq k).state = some .breakerFault ∧ s.breakerPos k = some .opened)) :
    s.commandReset k = accept (s.seqToOpen k).clearLatch := by
  unfold State.commandReset
  obtain h | ⟨h, hpos⟩ := h
  · rw [h]
  · rw [h]
    exact if_pos hpos

/-- Settles O26, by the state of the sequencer. -/
theorem resetLockout : Obligations.ResetLockout := by
  unfold Obligations.ResetLockout
  intro s b k r hb
  have answer {a : Answer} (h : s.commandReset k = a) :
      s.portAnswer { code := 0x23, waits := true } ((feederOperand b).map fun k => State.commandReset k) = a := by
    rw [State.portAnswer_judged _ r.verified (by simp) (by simp), feederOperand_eq_some_iff.2 hb]
    exact h
  have refused {reason : RefusalCode} (h : s.commandReset k = refuse s reason) :
      exec (.resetLockout b) s = .next (s.resulting 0x23 (.refused reason) k.val).finish := by
    show execResetLockout b s = _
    unfold execResetLockout
    rw [← hb]
    exact event_port_refused r.toPortReady (answer h)
  refine ⟨fun h hsec => ?_, fun h => refused ?_, fun h hpos => refused ?_, fun q h h1 h2 h3 => refused ?_, fun c hc => ?_⟩
  · have unlocks := State.unlocks (h.imp_right And.left) r.quiet
    show execResetLockout b s = _
    unfold execResetLockout
    refine event_seqChanged (k := k) r.running ?_ hsec r.quiet
    rw [State.port, if_pos r.armed, answer (State.commandReset_taken h), unlocks, ← hb]
    rfl
  · unfold State.commandReset
    rw [h]
  · unfold State.commandReset
    rw [h]
    exact if_neg hpos
  · unfold State.commandReset
    rw [h]
    cases q <;> first | rfl | contradiction
  · show execResetLockout c s = _
    unfold execResetLockout
    refine event_port_refused r.toPortReady (value := 0) ?_
    rw [State.portAnswer_judged _ r.verified (by simp) (by simp), feederOperand_eq_none hc]
    rfl

/-! ### OPERATE (R206) -/

/-- R206: the part whose selection has been used. -/
def State.used (s : State) : State := { s with sp := { s.sp with selection := none, selectionTimer := none } }

section
variable {b a : Byte} {target : Target} {action : SwitchAction}

theorem execOperate_eq (ht : targetOperand b = some target) (ha : actionOperand a = some action) :
    exec (.operate b a) s = event (State.port { code := 0x21, waits := true, remote := true } (some b.toNat)
      (some (State.commandOperate target action))) s := by
  show execOperate b a s = _
  unfold execOperate
  rw [ht, ha]

theorem operate_local (r : PortOpen s) (ht : targetOperand b = some target) (ha : actionOperand a = some action)
    (hlocal : s.sp.localAuthority = true) :
    exec (.operate b a) s = .next (s.resulting 0x21 (.refused .authority) b.toNat).finish := by
  rw [execOperate_eq ht ha]
  refine event_port_refused r.toPortReady (value := 0) ?_
  simp [State.portAnswer, State.verifying, r.verified, hlocal]

theorem operate_unselected (r : PortOpen s) (ht : targetOperand b = some target) (ha : actionOperand a = some action)
    (hremote : s.sp.localAuthority = false) (hsel : s.sp.selection ≠ some { target := target, action := action }) :
    exec (.operate b a) s = .next (s.used.resulting 0x21 (.refused .notSelected) b.toNat).finish := by
  rw [execOperate_eq ht ha]
  refine event_port r.toPortReady (a := refuse s.used .notSelected) ?_ r.quiet
  rw [State.portAnswer_judged _ r.verified (fun _ => hremote) (by simp)]
  exact if_neg hsel

/-- R206: a matching OPERATE records what the target answers. -/
theorem operate_port (r : PortOpen s) (hremote : s.sp.localAuthority = false)
    (hsel : s.sp.selection = some { target := target, action := action }) {x : Answer} (h : s.used.switchTarget target action = x) :
    s.port { code := 0x21, waits := true, remote := true } (some b.toNat) (some (State.commandOperate target action)) =
      State.record { code := 0x21, waits := true, remote := true } (some b.toNat) x := by
  rw [State.port_judged _ _ r.armed r.verified (fun _ => hremote) rfl]
  exact congrArg _ ((if_pos hsel).trans h)

theorem operate_quiet (r : PortOpen s) (ht : targetOperand b = some target) (ha : actionOperand a = some action)
    (hremote : s.sp.localAuthority = false) (hsel : s.sp.selection = some { target := target, action := action }) {x : Answer}
    (h : s.used.switchTarget target action = x) (hx : x.state.agenda = []) :
    exec (.operate b a) s =
      .next (State.record { code := 0x21, waits := true, remote := true } (some b.toNat) x).finish := by
  rw [execOperate_eq ht ha]
  exact event_quiet_next r.running (operate_port r hremote hsel h) hx

/-- R206: a matching OPERATE that the target accepts, with what it hands on carried out. -/
theorem operate_carried (r : PortOpen s) (ht : targetOperand b = some target) (ha : actionOperand a = some action)
    (hremote : s.sp.localAuthority = false) (hsel : s.sp.selection = some { target := target, action := action })
    {v : State} {l : List Signal} {n value : Nat} (h : s.used.switchTarget target action = accept { v with agenda := l } value)
    (c : Carried n (v.resulting 0x21 .accepted b.toNat) l t) (hn : n ≤ 4096) : exec (.operate b a) s = .next t.finish := by
  rw [execOperate_eq ht ha]
  exact event_carried_next r.running (operate_port r hremote hsel h) c hn

end

/-! ### OPEN of a feeder (R62) -/

section
variable {b a : Byte} {action : SwitchAction}

/-- R206: the switching of a feeder by a matching OPERATE, as its sequencer answers it. -/
structure Switches (s : State) (b a : Byte) (k : FeederNo) (action : SwitchAction) : Prop where
  part : PortOpen s
  targets : targetOperand b = some (.feeder k)
  acts : actionOperand a = some action
  remote : s.sp.localAuthority = false
  selected : s.sp.selection = some { target := .feeder k, action := action }

theorem Switches.number (w : Switches s b a k action) : b.toNat = k.val := targetOperand_eq_some_iff.1 w.targets

theorem Switches.refused (w : Switches s b a k action) {reason : RefusalCode}
    (h : s.used.switchTarget (.feeder k) action = refuse s.used reason) :
    exec (.operate b a) s = .next (s.used.resulting 0x21 (.refused reason) k.val).finish := by
  rw [← w.number]
  exact operate_quiet w.part w.targets w.acts w.remote w.selected h w.part.quiet

/-- R70, R108: a switching that changes the sequencer's state, with its handings carried out. -/
theorem Switches.takes (w : Switches s b a k action) {f : Sequencer → Sequencer} {l : List Signal} {n value : Nat}
    (h : s.used.switchTarget (.feeder k) action = accept { s.used.modSeq k f with agenda := l } value)
    (c : Carried n ((s.used.resulting 0x21 .accepted k.val).modSeq k f) l
      { (s.used.resulting 0x21 .accepted k.val).entering k f with agenda := [] }) (hn : n ≤ 4096) :
    exec (.operate b a) s = .next ((s.used.resulting 0x21 .accepted k.val).entering k f).finish := by
  have hquiet : ((s.used.resulting 0x21 .accepted k.val).entering k f).agenda = [] := w.part.quiet
  rw [State.quiet_eq hquiet] at c
  refine operate_carried w.part w.targets w.acts w.remote w.selected h (n := n) ?_ hn
  rw [w.number]
  exact c

end

/-- R62: OPEN of a feeder in each of its states. -/
theorem State.commandOpen_running (h : (s.seq k).state = some .inService ∨ (s.seq k).state = some .closing) :
    s.commandOpen k = accept (s.seqTrip k .command none) := by
  unfold State.commandOpen
  obtain h | h := h <;> rw [h]

theorem State.commandOpen_waiting (h : (s.seq k).state = some .deadTime ∨ (s.seq k).state = some .lineTest) :
    s.commandOpen k = accept (s.seqToOpen k) := by
  unfold State.commandOpen
  obtain h | h := h <;> rw [h]

theorem State.commandOpen_opened (h : (s.seq k).state = some .opened ∨ (s.seq k).state = some .lockout) :
    s.commandOpen k = if s.breakerPos k = some .opened then refuse s .state else accept (s.startOpenPulse k) := by
  unfold State.commandOpen
  obtain h | h := h <;> rw [h]

theorem State.commandOpen_stuck (h : (s.seq k).state = some .tripping ∨ (s.seq k).state = some .breakerFault) :
    s.commandOpen k = refuse s .state := by
  unfold State.commandOpen
  obtain h | h := h <;> rw [h]

theorem State.commandOpen_notFitted (h : (s.seq k).state = some .notFitted) : s.commandOpen k = refuse s .notFitted := by
  unfold State.commandOpen
  rw [h]

/-- R62: OPEN ends a dead time and a line test. -/
theorem EngineRests.seqToOpen (r : EngineRests s k) (ha : s.agenda = []) (h : (s.seq k).state ≠ some .opened) :
    s.seqToOpen k = { s.modSeq k (fun x => { x.bare .opened with attempts := 0 }) with agenda := [.seqChanged k] } := by
  unfold State.seqToOpen
  rw [r.enter, ha, if_neg h]
  rfl

/-- R44, R62: a trip by command on a breaker that is not OPEN. -/
theorem EngineRests.seqTrip_command (r : EngineRests s k) (ha : s.agenda = [])
    (hq : (s.seq k).state = some .inService ∨ (s.seq k).state = some .closing) (hb : s.breakerPos k ≠ some .opened) :
    s.seqTrip k .command none =
      { s.modSeq k (fun x => x.tripped (s.demandRecord k .command) (some (x.openPulse.getD s.store.cfg.tOpenMax))) with
        agenda := [.seqChanged k] } := by
  rw [r.seqTrip .command (some ((s.seq k).openPulse.getD s.store.cfg.tOpenMax)) hq (by rw [if_neg hb])]
  dsimp only
  rw [if_neg hb, ha]
  show ({ s.modSeq k (fun x => x.tripped (s.demandRecord k .command) (some ((s.seq k).openPulse.getD s.store.cfg.tOpenMax))) with
    agenda := [.seqChanged k] } : State) = _
  rw [State.modSeq_congr (g := fun x => x.tripped (s.demandRecord k .command) (some (x.openPulse.getD s.store.cfg.tOpenMax))) rfl]

/-- R44, R48, R62: a trip by command on a breaker that stands OPEN is confirmed at once. -/
theorem EngineRests.seqTrip_confirmed (r : EngineRests s k) (ha : s.agenda = [])
    (hq : (s.seq k).state = some .inService ∨ (s.seq k).state = some .closing) (hb : s.breakerPos k = some .opened) :
    s.seqTrip k .command none =
      { s.modSeq k (fun x => (x.tripped (s.demandRecord k .command) none).confirmed (s.reclose k) .opened) with
        agenda := [.seqChanged k, .seqChanged k] } := by
  rw [r.seqTrip .command none hq (by rw [if_pos hb])]
  dsimp only
  rw [if_pos hb, ha]
  generalize hu : ({ s.modSeq k (fun x => x.tripped (s.demandRecord k .command) none) with agenda := [] ++ [.seqChanged k] } : State) = u
  show u.openConfirmed k = _
  have ru : EngineRests u k := r.congr (by subst hu; rfl)
  have hseq : u.seq k = (s.seq k).tripped (s.demandRecord k .command) none := by subst hu; exact State.modSeq_seq s k _
  have outcome : confirmedOutcome (u.isolated k) (u.reclosBarred k) (u.reclose k).nRec (u.seq k) = .opened := by
    rw [hseq]
    unfold Sequencer.tripped confirmedOutcome
    dsimp only
    by_cases ho : (s.seq k).state = some .closing ∧ (s.seq k).holdOpenPending = true
    · rw [if_pos ho]
    · rw [if_neg ho]; rfl
  rw [ru.openConfirmed (by rw [hseq]; rfl), outcome]
  subst hu
  simp [State.modSeq, vget_set]
  rfl

/-! ### CLOSE of a feeder (R63) -/

theorem State.chFailed_iff {c : ChannelNo} : s.chFailed c = true ↔ (s.channel c).state = .failed := by simp [State.chFailed]

theorem State.busLow_iff : s.busLow k = true ↔ (s.channel chUB).state = .failed ∨ (s.channel chUB).value < ((s.reclose k).uBusmin : Int) := by
  simp [State.busLow, State.chFailed]

theorem State.commandClose_notFitted (h : (s.seq k).state = some .notFitted) : s.commandClose k = refuse s .notFitted :=
  if_pos (by simp [State.seqIn, h])

theorem State.commandClose_state (h : (s.seq k).state ≠ some .notFitted)
    (hq : (s.seq k).state ≠ some .opened ∨ s.breakerPos k ≠ some .opened) : s.commandClose k = refuse s .state := by
  unfold State.commandClose
  rw [if_neg (by simp [State.seqIn, h]), if_pos]
  simpa [State.seqIn] using hq

theorem State.commandClose_ready (hq : (s.seq k).state = some .opened) (hb : s.breakerPos k = some .opened) :
    s.commandClose k =
      if (s.sec (sectionOf k)).bars.barred then refuse s .interlock
      else if s.chFailed (chIF k) || s.chFailed (chUL k) || s.busLow k then refuse s .interlock
      else accept ((s.modSeq k fun r => { r with attempts := 0 }).beginLineTest k .manual) := by
  unfold State.commandClose
  rw [if_neg (by simp [State.seqIn, hq]), if_neg (by simp [State.seqIn, hq, hb])]

/-- R59, R61: a close by command, with the line test and without it. -/
def State.closes (s : State) (k : FeederNo) (x : Sequencer) : Sequencer :=
  if (s.channel chUB).value * 4 / 5 ≤ (s.channel (chUL k)).value then
    { x.bare .closing with attempts := 0, closeKind := some .manual, closeCoil := true, closeTimer := some s.store.cfg.tCloseMax }
  else
    { x.bare .lineTest with
      attempts := 0, closeKind := some .manual, testContactor := true, testTimer := some ((s.reclose k).tTest * 10) }

theorem State.closes_tested (h : (s.channel (chUL k)).value < (s.channel chUB).value * 4 / 5) :
    s.closes k = fun x => { x.bare .lineTest with
      attempts := 0, closeKind := some .manual, testContactor := true, testTimer := some ((s.reclose k).tTest * 10) } :=
  funext fun _ => if_neg (Int.not_le.2 h)

theorem State.closes_skipped (h : (s.channel chUB).value * 4 / 5 ≤ (s.channel (chUL k)).value) :
    s.closes k = fun x => { x.bare .closing with
      attempts := 0, closeKind := some .manual, closeCoil := true, closeTimer := some s.store.cfg.tCloseMax } :=
  funext fun _ => if_pos h

theorem EngineRests.closes (r : EngineRests s k) (ha : s.agenda = []) (hq : (s.seq k).state = some .opened) :
    (s.modSeq k fun r => { r with attempts := 0 }).beginLineTest k .manual =
      { s.modSeq k (s.closes k) with agenda := [.seqChanged k, .wake] } := by
  have ru : EngineRests (s.modSeq k fun r => { r with attempts := 0 }) k := r.congr rfl
  have hs : ((s.modSeq k fun r => { r with attempts := 0 }).seq k).state = some .opened := by rw [State.modSeq_seq]; exact hq
  rw [ru.beginLineTest .manual (by rw [hs]; decide), State.modSeq_modSeq, State.modSeq_agenda, ha]
  have e : s.modSeq k (s.closes k) = s.modSeq k (fun x =>
      if (s.channel chUB).value * 4 / 5 ≤ (s.channel (chUL k)).value then
        { Sequencer.bare .closing { x with attempts := 0 } with
          closeKind := some .manual, closeCoil := true, closeTimer := some s.store.cfg.tCloseMax }
      else
        { Sequencer.bare .lineTest { x with attempts := 0 } with
          closeKind := some .manual, testContactor := true, testTimer := some ((s.reclose k).tTest * 10) }) := rfl
  rw [e]
  rfl

/-- Settles O24, by the state of the sequencer. -/
theorem operateJudged : Obligations.OperateJudged := by
  unfold Obligations.OperateJudged
  intro s b a target action r ht ha used
  refine ⟨fun hlocal => operate_local r ht ha hlocal, fun hremote hsel => operate_unselected r ht ha hremote hsel,
    fun hremote hsel => ⟨fun htarget haction hoff => ?_, fun k htarget => ?_⟩⟩
  · subst htarget haction
    have hb : b.toNat = 6 := targetOperand_eq_some_iff.1 ht
    have h : s.used.switchTarget .rectifier .stop = accept s.used := by
      show accept s.used.rectStop = _
      rw [State.rectStop, if_pos (show s.used.rect.state = .off from hoff)]
    refine (operate_quiet r ht ha hremote hsel h r.quiet).trans ?_
    rw [hb]
    rfl
  · subst htarget
    intro refused takes q tripping
    have engine : FeederQuiet s k → EngineRests s.used k := fun f => f.toEngineRests.congr rfl
    refine ⟨fun haction => ?_, fun haction => ?_⟩
    all_goals
      subst haction
      have w : Switches s b a k _ := ⟨r, ht, ha, hremote, hsel⟩
    · refine ⟨fun hq => ⟨fun hpos => w.refused ?_, fun hpos => ?_⟩, fun hq => w.refused (State.commandOpen_notFitted (s := s.used) hq),
        fun hq => w.refused (State.commandOpen_stuck (s := s.used) hq), fun hf hq => ?_, fun hf hq => ⟨fun hpos => ?_, fun hpos => ?_⟩⟩
      · exact (State.commandOpen_opened (s := s.used) hq).trans (if_pos hpos)
      · have h : s.used.switchTarget (.feeder k) .opened = accept (s.used.startOpenPulse k) :=
          (State.commandOpen_opened (s := s.used) hq).trans (if_neg hpos)
        rw [State.startOpenPulse_moving (s := s.used) hpos] at h
        refine (operate_quiet r ht ha hremote hsel h r.quiet).trans ?_
        rw [w.number]
        rfl
      · refine w.takes (l := [.seqChanged k]) ((State.commandOpen_waiting (s := s.used) hq).trans (congrArg accept ((engine hf).seqToOpen r.quiet ?_)))
          (carried_seqChanged hf.securing) (by decide)
        show (s.seq k).state ≠ _
        obtain h | h := hq <;> rw [show (s.seq k).state = _ from h] <;> decide
      · exact w.takes ((State.commandOpen_running (s := s.used) hq).trans (congrArg accept ((engine hf).seqTrip_command r.quiet hq hpos)))
          (carried_seqChanged hf.securing) (by decide)
      · exact w.takes ((State.commandOpen_running (s := s.used) hq).trans (congrArg accept ((engine hf).seqTrip_confirmed r.quiet hq hpos)))
          (carried_seqChanged_twice hf.securing) (by decide)
    · intro bus line ready measured
      have unmeasured : (s.used.chFailed (chIF k) || s.used.chFailed (chUL k) || s.used.busLow k) = true ↔ ¬ measured := by
        rw [Bool.or_eq_true, Bool.or_eq_true, State.chFailed_iff, State.chFailed_iff, State.busLow_iff]
        show _ ↔ ¬ (_ ∧ _ ∧ _ ∧ _)
        rw [Classical.not_and_iff_not_or_not, Classical.not_and_iff_not_or_not, Classical.not_and_iff_not_or_not, Classical.not_not,
          Classical.not_not, Classical.not_not, Int.not_le, or_assoc]
        rfl
      refine ⟨fun hq => w.refused (State.commandClose_notFitted (s := s.used) hq), fun hn hq => w.refused (State.commandClose_state (s := s.used) hn hq),
        fun hq hpos hbar => w.refused ((State.commandClose_ready (s := s.used) hq hpos).trans (if_pos hbar)),
        fun ⟨hq, hpos, hbar⟩ hm => w.refused ((State.commandClose_ready (s := s.used) hq hpos).trans ?_),
        fun hf hstandby ⟨hq, hpos, hbar⟩ hm => ?_⟩
      · exact (if_neg (by rw [show (s.used.sec (sectionOf k)).bars.barred = false from hbar]; decide)).trans (if_pos (unmeasured.2 hm))
      · have taken : s.used.switchTarget (.feeder k) .close =
            accept { s.used.modSeq k (s.used.closes k) with agenda := [.seqChanged k, .wake] } := by
          refine (State.commandClose_ready (s := s.used) hq hpos).trans ?_
          rw [if_neg (by rw [show (s.used.sec (sectionOf k)).bars.barred = false from hbar]; decide),
            if_neg (fun h => unmeasured.1 h hm), (engine hf).closes r.quiet hq]
        have next := w.takes taken (carried_seqChanged_wake hf.securing hstandby) (by decide)
        refine ⟨fun hl => ?_, fun hl => ?_⟩
        · rw [State.closes_tested (s := s.used) hl] at next
          exact next
        · rw [State.closes_skipped (s := s.used) hl] at next
          exact next

/-! ### The rectifier group by OPERATE (R76, R77, R81, R82) -/

/-- R74: the group enters another state. -/
theorem State.rectEnter_changed {q : RectState} (f : Rectifier → Rectifier) (h : s.rect.state ≠ q) (ha : s.agenda = []) :
    s.rectEnter q f = { s with rect := rectFields s.store.cfg.alphaMax q (f s.rect), agenda := [.rectChanged] } := by
  unfold State.rectEnter
  dsimp only
  rw [if_neg h]
  unfold State.hand
  rw [State.modRect_agenda, ha]
  rfl

theorem NothingWaits.carried_quiet (n : NothingWaits s) (h : s.agenda = []) : Carried 7 s [.rectChanged] s.deriveBusFeed := by
  have c := n.carried
  rwa [State.quiet_eq (s := s.deriveBusFeed) h] at c

/-- R206: a matching OPERATE of the rectifier group. -/
structure SwitchesGroup (s : State) (a : Byte) (action : SwitchAction) : Prop where
  part : PortOpen s
  acts : actionOperand a = some action
  remote : s.sp.localAuthority = false
  selected : s.sp.selection = some { target := .rectifier, action := action }

section
variable {a : Byte} {action : SwitchAction}

theorem SwitchesGroup.refused (w : SwitchesGroup s a action) {reason : RefusalCode}
    (h : s.used.switchTarget .rectifier action = refuse s.used reason) :
    exec (.operate 6 a) s = .next (s.used.resulting 0x21 (.refused reason) 6).finish :=
  operate_quiet w.part rfl w.acts w.remote w.selected h w.part.quiet

/-- R57, R99: a change of the state of the group while nothing waits. -/
theorem SwitchesGroup.becomes (w : SwitchesGroup s a action) (n : NothingWaits s) {x : Rectifier}
    (h : s.used.switchTarget .rectifier action = accept { s.used with rect := x, agenda := [.rectChanged] }) :
    exec (.operate 6 a) s = .next (State.deriveBusFeed { s.used.resulting 0x21 .accepted 6 with rect := x }).finish := by
  have nothing : NothingWaits { s.used.resulting 0x21 .accepted 6 with rect := x } := ⟨n.waits, n.securing⟩
  exact operate_carried w.part (v := { s.used with rect := x }) rfl w.acts w.remote w.selected h
    (nothing.carried_quiet w.part.quiet) (by decide)

end

theorem State.startInterlock_iff :
    s.startInterlock = true ↔ s.store.configFault = true ∨ s.acPos ≠ some .closed ∨ (s.sec busSection).isolate ≠ 0 ∨
      (s.channel chUB).state = .failed ∨ (s.channel chIB1).state = .failed ∨ (s.channel chIB2).state = .failed ∨
      s.backupLatch = true ∨ s.sp.emergency = true ∨
      ((s.channel chTT).state ≠ .failed ∧ (s.rect.settings.tTrip : Int) ≤ (s.channel chTT).value) := by
  unfold State.startInterlock State.rectSettings
  simp only [State.chFailed, Bool.or_eq_true, Bool.and_eq_true, Bool.not_eq_true', beq_iff_eq,
    bne_iff_ne, decide_eq_true_eq, beq_eq_false_iff_ne, or_assoc]

theorem State.tooWarm_iff :
    s.tooWarm = true ↔ (s.channel chTT).state = .failed ∨ (s.rect.settings.tWarn : Int) ≤ (s.channel chTT).value := by
  unfold State.tooWarm State.rectSettings
  simp [State.chFailed]

theorem groupRuns_iff {q : RectState} : groupRuns q = true ↔ q ≠ .off ∧ q ≠ .tripped := by cases q <;> decide

/-- R76: START, item by item. -/
theorem State.rectStart_runs (h : s.rect.state ≠ .off) (h' : s.rect.state ≠ .tripped) : s.rectStart = refuse s .state :=
  if_pos (groupRuns_iff.2 ⟨h, h'⟩)

theorem State.rectStart_interlock (h : s.rect.state = .off ∨ s.rect.state = .tripped) (hi : s.startInterlock = true) :
    s.rectStart = refuse s .interlock :=
  (if_neg (fun e => (groupRuns_iff.1 e).1.elim (h.resolve_right (groupRuns_iff.1 e).2))).trans (if_pos hi)

theorem State.rectStart_warm (h : s.rect.state = .tripped) (hc : s.rect.cause = some .temp) (hw : s.tooWarm = true) :
    s.rectStart = refuse s .interlock := by
  unfold State.rectStart
  rw [if_neg (fun e => (groupRuns_iff.1 e).2 h)]
  split
  · rfl
  · rw [if_pos ⟨h, hc, hw⟩]

/-- R77: the record of a group that START takes to SYNCING. -/
def Rectifier.started (alphaMax : Nat) (r : Rectifier) : Rectifier :=
  rectFields alphaMax .syncing { r with
    cause := none, tripTime := none, bridge1 := { r.bridge1 with lost := false }, bridge2 := { r.bridge2 with lost := false },
    degraded := false, syncCount := some 0, syncTimer := some 2000 }

theorem State.rectStart_taken (ha : s.agenda = []) (h : s.rect.state = .off ∨ s.rect.state = .tripped) (hi : s.startInterlock ≠ true)
    (hw : ¬ (s.rect.state = .tripped ∧ s.rect.cause = some .temp ∧ s.tooWarm = true)) :
    s.rectStart = accept { s with rect := s.rect.started s.store.cfg.alphaMax, agenda := [.rectChanged] } := by
  unfold State.rectStart
  rw [if_neg (fun e => (groupRuns_iff.1 e).1.elim (h.resolve_right (groupRuns_iff.1 e).2)), if_neg hi, if_neg hw]
  unfold State.enterSyncing
  rw [State.rectEnter_changed _ _ (by exact ha)]
  · rfl
  · show s.rect.state ≠ .syncing
    obtain h | h := h <;> rw [h] <;> decide

/-- R82: what keeps the group from STANDBY. -/
theorem State.standbyBarred_iff :
    (allFeeders.any fun k => s.seqIn k .closing || s.seqIn k .lineTest || (s.seq k).wait == some .bus) = true ↔
      ∃ k, (s.seq k).state = some .closing ∨ (s.seq k).state = some .lineTest ∨ (s.seq k).wait = some .bus := by
  rw [List.any_eq_true]
  constructor
  · rintro ⟨k, _, h⟩
    exact ⟨k, by simpa [State.seqIn, or_assoc] using h⟩
  · rintro ⟨k, h⟩
    exact ⟨k, mem_allFeeders k, by simpa [State.seqIn, or_assoc] using h⟩

/-- Settles O25, by the action. -/
theorem operateRectifier : Obligations.OperateRectifier := by
  unfold Obligations.OperateRectifier
  intro s action r hremote hsel used refused becomes tt interlocked warm resting
  refine ⟨fun haction => ?_, fun haction n hoff => ?_, fun haction => ?_⟩
  all_goals subst haction
  · have w : SwitchesGroup s 2 .start := ⟨r, rfl, hremote, hsel⟩
    have interlock : s.used.startInterlock = true ↔ interlocked := State.startInterlock_iff
    have tooWarm : s.used.tooWarm = true ↔ warm := State.tooWarm_iff
    refine ⟨fun hoff htripped => w.refused (State.rectStart_runs (s := s.used) hoff htripped),
      fun hq hi => w.refused (State.rectStart_interlock (s := s.used) hq (interlock.2 hi)),
      fun hq hc hw => w.refused (State.rectStart_warm (s := s.used) hq hc (tooWarm.2 hw)), fun n hi hq => ?_⟩
    refine w.becomes n (State.rectStart_taken (s := s.used) r.quiet (hq.imp_right And.left) (mt interlock.1 hi) ?_)
    rintro ⟨h, hc, hw⟩
    obtain hq | ⟨_, hq⟩ := hq
    · rw [show s.rect.state = .tripped from h] at hq
      cases hq
    · exact hq ⟨hc, tooWarm.1 hw⟩
  · have w : SwitchesGroup s 3 .stop := ⟨r, rfl, hremote, hsel⟩
    refine w.becomes n ?_
    show accept s.used.rectStop = _
    rw [State.rectStop, if_neg (show s.used.rect.state ≠ .off from hoff), State.rectEnter_changed (s := s.used) _ hoff r.quiet]
    rfl
  · have w : SwitchesGroup s 4 .standby := ⟨r, rfl, hremote, hsel⟩
    refine ⟨fun hq => w.refused (if_neg hq), fun hq hk => w.refused ((if_pos hq).trans (if_pos (State.standbyBarred_iff.2 hk))),
      fun hq n hk => ?_⟩
    have free : ¬ ∃ k, (s.seq k).state = some .closing ∨ (s.seq k).state = some .lineTest ∨ (s.seq k).wait = some .bus := by
      rintro ⟨k, h | h | h⟩
      · exact (hk k).1 h
      · exact (hk k).2 h
      · rw [n.waits k] at h; cases h
    refine w.becomes n ((if_pos hq).trans ((if_neg (mt (State.standbyBarred_iff (s := s.used)).1 free)).trans ?_))
    rw [State.rectEnter_changed (s := s.used) _ (show s.rect.state ≠ .standby by rw [hq]; decide) r.quiet]
    rfl

end Sys2Proof.Machine
end

section
/-! The rectifier group: its timers, the commutation references and the gate pulses (R72, R73, R77, R83, R84). -/

namespace Sys2Proof.Machine

open Sys2Proof

variable {s t u : State}

/-- Sequencers and holds decide whether anything waits for the rectifier group. -/
theorem NothingWaits.congr (n : NothingWaits s) (hq : t.seqs = s.seqs) (hh : t.ht = s.ht) : NothingWaits t := by
  refine ⟨fun k => ?_, ?_⟩
  · rw [← n.waits k]
    unfold State.seq
    rw [hq]
  · rw [← n.securing]
    unfold State.securingBus
    rw [hh]

/-- R57, R99: an event whose first effect changes the state of the group while nothing waits. -/
theorem event_rectChanged {f : State → State} (hrun : s.resetHeld = false) (hf : f s = { u with agenda := [.rectChanged] })
    (n : NothingWaits u) (hu : u.agenda = []) : event f s = .next u.deriveBusFeed.finish :=
  event_carried_next hrun hf (n.carried_quiet hu) (by decide)

theorem State.pulse_with_rect (p : PointNo) (x : Rectifier) : State.pulse p { s with rect := x } = { s.pulse p with rect := x } := by
  rw [State.pulse_eq { s with rect := x }, State.pulse_au (s := s) (t := { s with rect := x }) p rfl rfl rfl]
  conv => rhs; rw [State.pulse_eq s]

theorem delivering_of {q : RectState} (h : q = .ramping ∨ q = .regulating ∨ q = .limiting) : delivering q = true := by
  obtain rfl | rfl | rfl := h <;> rfl

/-- R72, R84: the references are lost. -/
theorem State.rectDip_idle (h : delivering s.rect.state = false) :
    s.rectDip = { s with rect := { s.rect with refTimer := none, refsPresent := false } } := by
  unfold State.rectDip
  dsimp only
  rw [if_neg (by exact (by simp [h]))]
  rfl

/-- R84: the record of a group that loses its references while it delivers. -/
def Rectifier.dipped (alphaMax : Nat) (r : Rectifier) : Rectifier :=
  rectFields alphaMax .syncing { r with
    refTimer := none, refsPresent := false, dips := min 65535 (r.dips + 1), syncCount := some 0, syncTimer := some 2000 }

theorem State.rectDip_delivering (ha : s.agenda = []) (h : delivering s.rect.state = true) :
    s.rectDip = { s.pulse 47 with rect := s.rect.dipped s.store.cfg.alphaMax, agenda := [.rectChanged] } := by
  have he : s.rectDip = State.enterSyncing (State.pulse 47 { s with rect := { s.rect with
      refTimer := none, refsPresent := false, dips := min 65535 (s.rect.dips + 1) } }) := by
    unfold State.rectDip
    refine (if_pos h).trans ?_
    unfold State.modRect
    dsimp only
    rw [satSucc_eq_min_succ]
  rw [he, State.pulse_with_rect]
  unfold State.enterSyncing
  rw [State.rectEnter_changed]
  · show ({ s.pulse 47 with rect := rectFields (s.pulse 47).store.cfg.alphaMax .syncing _, agenda := _ } : State) = _
    rw [State.pulse_store]
    rfl
  · show s.rect.state ≠ .syncing
    intro e
    rw [e] at h
    cases h
  · simpa using ha

/-- R77: the record of a group that is taken to SYNCING. -/
def Rectifier.syncing (alphaMax : Nat) (r : Rectifier) : Rectifier :=
  rectFields alphaMax .syncing { r with syncCount := some 0, syncTimer := some 2000 }

/-- R77, R83: the record of a group that is taken to RAMPING from a bus voltage. -/
def Rectifier.rampingFrom (alphaMax ub : Nat) (r : Rectifier) : Rectifier :=
  rectFields alphaMax .ramping { r with
    ramp := some (16 * ub), bridge1 := { r.bridge1 with pair := 0 }, bridge2 := { r.bridge2 with pair := 0 } }

theorem State.enterSyncing_eq (ha : s.agenda = []) (h : s.rect.state ≠ .syncing) :
    s.enterSyncing = { s with rect := s.rect.syncing s.store.cfg.alphaMax, agenda := [.rectChanged] } :=
  State.rectEnter_changed _ h ha

theorem State.enterRamping_eq (ha : s.agenda = []) (h : s.rect.state ≠ .ramping) :
    s.enterRamping =
      { s with rect := s.rect.rampingFrom s.store.cfg.alphaMax (s.channel chUB).value.toNat, agenda := [.rectChanged] } :=
  State.rectEnter_changed _ h ha

/-- R75: the record of a group that trips. -/
def Rectifier.trippedBy (alphaMax : Nat) (cause : RectCause) (now : Stamp) (r : Rectifier) : Rectifier :=
  rectFields alphaMax .tripped { r with cause := some cause, tripTime := some now }

/-- R75: a trip of a group that does not stand tripped. -/
theorem State.rectTrip_eq (ha : s.agenda = []) (h : s.rect.state ≠ .tripped) (cause : RectCause) :
    s.rectTrip cause =
      { s with rect := s.rect.trippedBy s.store.cfg.alphaMax cause s.stamp, agenda := [.rectChanged] } := by
  unfold State.rectTrip
  rw [if_neg h]
  exact State.rectEnter_changed _ h ha

/-- Settles O49, by the state of the group. -/
theorem rectifierTimers : Obligations.RectifierTimers := by
  unfold Obligations.RectifierTimers
  intro s r n becomes low syncing
  refine ⟨fun ht hq => ?_, fun ht hq _ => ?_, fun ht hq => ?_, fun ht hq => ⟨fun hrefs => ?_, fun hrefs => ?_⟩⟩
  · show execReferenceSupervisionExpiry s = _
    unfold execReferenceSupervisionExpiry
    refine event_quiet_next r.running ((if_pos (Option.isSome_iff_ne_none.2 ht)).trans (State.rectDip_idle ?_)) r.quiet
    obtain h | h | h | h := hq <;> rw [h] <;> rfl
  · have hd : delivering s.rect.state = true := delivering_of hq
    have hf : (if s.rect.refTimer.isSome then s.rectDip else s) =
        { s.pulse 47 with rect := s.rect.dipped s.store.cfg.alphaMax, agenda := [.rectChanged] } := by
      rw [if_pos (Option.isSome_iff_ne_none.2 ht), State.rectDip_delivering r.quiet hd]
    show execReferenceSupervisionExpiry s = _
    unfold execReferenceSupervisionExpiry
    exact event_rectChanged (u := { s.pulse 47 with rect := s.rect.dipped s.store.cfg.alphaMax }) r.running hf
      (NothingWaits.congr n (State.pulse_seqs s 47) (State.pulse_ht s 47)) ((State.pulse_agenda s 47).trans r.quiet)
  · have hf : (if s.rect.syncTimer.isSome then s.rectTrip .mains else s) =
        { s with rect := s.rect.trippedBy s.store.cfg.alphaMax .mains s.stamp, agenda := [.rectChanged] } := by
      rw [if_pos (Option.isSome_iff_ne_none.2 ht), State.rectTrip_eq r.quiet (by rw [hq]; decide) .mains]
    show execSyncTimerExpiry s = _
    unfold execSyncTimerExpiry
    exact event_rectChanged (u := { s with rect := s.rect.trippedBy s.store.cfg.alphaMax .mains s.stamp }) r.running hf
      (NothingWaits.congr n rfl rfl) r.quiet
  · have hf : (if s.rect.wakeTimer.isSome then s.rectWake else s) =
        { s with rect := s.rect.syncing s.store.cfg.alphaMax, agenda := [.rectChanged] } := by
      rw [if_pos (Option.isSome_iff_ne_none.2 ht), State.rectWake, if_pos hq, if_neg (by simp [hrefs]),
        State.enterSyncing_eq r.quiet (by rw [hq]; decide)]
    show execWakeTimerExpiry s = _
    unfold execWakeTimerExpiry
    exact event_rectChanged (u := { s with rect := s.rect.syncing s.store.cfg.alphaMax }) r.running hf
      (NothingWaits.congr n rfl rfl) r.quiet
  · have hf : (if s.rect.wakeTimer.isSome then s.rectWake else s) =
        { s with rect := s.rect.rampingFrom s.store.cfg.alphaMax (s.channel chUB).value.toNat, agenda := [.rectChanged] } := by
      rw [if_pos (Option.isSome_iff_ne_none.2 ht), State.rectWake, if_pos hq, if_pos hrefs,
        State.enterRamping_eq r.quiet (by rw [hq]; decide)]
    show execWakeTimerExpiry s = _
    unfold execWakeTimerExpiry
    exact event_rectChanged (u := { s with rect := s.rect.rampingFrom s.store.cfg.alphaMax (s.channel chUB).value.toNat })
      r.running hf (NothingWaits.congr n rfl rfl) r.quiet

/-! ### References and pulses (R72, R73, R77) -/

/-- R72: a reference in a state that neither delivers nor synchronises. -/
theorem State.rectReference_idle (h : delivering s.rect.state = false) (h' : s.rect.state ≠ .syncing) (elapsed : Nat) :
    s.rectReference elapsed = s.modRect (takeReference elapsed) := by
  unfold State.rectReference
  refine (if_neg (show ¬ delivering s.rect.state = true by simp [h])).trans (if_neg ?_)
  exact h'

/-- R73: a reference to a group that delivers. -/
theorem State.rectReference_delivering (h : delivering s.rect.state = true) (elapsed : Nat) :
    s.rectReference elapsed = { s with rect := fire (takeReference elapsed s.rect) } := by
  unfold State.rectReference
  exact if_pos h

/-- R77: a reference to a group that synchronises. -/
theorem State.rectReference_syncing (h : s.rect.state = .syncing) (elapsed n : Nat)
    (hn : syncAfter (takeReference elapsed s.rect).lastInterval (s.rect.syncCount.getD 0) = n) :
    s.rectReference elapsed =
      if 24 ≤ n then State.enterRamping { s with rect := { takeReference elapsed s.rect with syncCount := some n } }
      else { s with rect := { takeReference elapsed s.rect with syncCount := some n } } := by
  unfold State.rectReference
  refine (if_neg (show ¬ delivering s.rect.state = true by rw [h]; decide)).trans ((if_pos (by exact h)).trans ?_)
  subst hn
  rfl

/-- R73: both bridges in use place a pulse of their next pair. -/
theorem fire_both {r : Rectifier} {t : Nat} (h1 : r.bridge1.lost = false) (h2 : r.bridge2.lost = false) (ht : r.lastInterval = some t) :
    fire r =
      { r with
        bridge1 := { r.bridge1 with pair := r.bridge1.pair % 6 + 1 }
        bridge2 := { r.bridge2 with pair := r.bridge2.pair % 6 + 1 }
        pulses := r.pulses ++
          [{ bridge := .one, pair := r.bridge1.pair % 6 + 1, delay := pulseDelay r.alpha t },
           { bridge := .two, pair := r.bridge2.pair % 6 + 1, delay := pulseDelay r.alpha t }] } := by
  have a1 : advancePair r.bridge1 = { r.bridge1 with pair := r.bridge1.pair % 6 + 1 } := if_neg (by simp [h1])
  have a2 : advancePair r.bridge2 = { r.bridge2 with pair := r.bridge2.pair % 6 + 1 } := if_neg (by simp [h2])
  unfold fire placedPulse
  dsimp only
  rw [a1, a2, ht]
  simp [h1, h2]

/-- R73: the pulse at the head of the list is taken. -/
theorem emitPulse_head {r : Rectifier} {x : GatePulse} {rest : List GatePulse} (h : r.pulses = x :: rest) :
    emitPulse x.bridge x.pair r =
      { r with pulses := rest, gateOut := if delivering r.state && !(r.bridge x.bridge).lost then some x else r.gateOut } := by
  unfold emitPulse
  rw [h, takePulse, if_pos ⟨rfl, rfl⟩]

/-- Settles O50, by the state of the group. -/
theorem referencesAndPulses : Obligations.ReferencesAndPulses := by
  unfold Obligations.ReferencesAndPulses
  intro s elapsed r interval taken
  have reference {u : State} (h : s.rectReference elapsed = u) (hu : u.agenda = []) :
      exec (.commutationReference elapsed) s = .next u.finish := by
    show execCommutationReference elapsed s = _
    unfold execCommutationReference
    exact event_quiet_next r.running h hu
  refine ⟨fun hq => ?_, fun hq hseen h1 h2 => ?_, fun n hq hn hseen => ?_, fun x rest hx => ⟨fun hq hb => ?_, fun hb => ?_⟩⟩
  · refine reference (State.rectReference_idle ?_ ?_ elapsed) r.quiet <;> obtain h | h | h := hq <;> rw [h] <;> decide
  · intro next delay
    have ht : (takeReference elapsed s.rect).lastInterval = some (min 65535 elapsed) := if_pos hseen
    have h := State.rectReference_delivering (delivering_of hq) elapsed
    rw [fire_both (r := takeReference elapsed s.rect) h1 h2 ht] at h
    exact reference h r.quiet
  · intro count
    have ht : (takeReference elapsed s.rect).lastInterval = some (min 65535 elapsed) := if_pos hseen
    have hc : syncAfter (takeReference elapsed s.rect).lastInterval (s.rect.syncCount.getD 0) = count := by
      rw [ht, hn]
      unfold syncAfter goodInterval
      simp only [Option.getD_some, Bool.and_eq_true, decide_eq_true_eq]
      rfl
    have h := State.rectReference_syncing hq elapsed count hc
    refine ⟨fun hlt => reference (h.trans (if_neg (Nat.not_le.2 hlt))) r.quiet, fun hle n => ?_⟩
    rw [if_pos hle, State.enterRamping_eq (s := { s with rect := { takeReference elapsed s.rect with syncCount := some count } }) r.quiet
      (show s.rect.state ≠ .ramping by rw [hq]; decide)] at h
    show execCommutationReference elapsed s = _
    unfold execCommutationReference
    let counted : Rectifier := { takeReference elapsed s.rect with syncCount := some count }
    exact event_rectChanged (u := { s with rect := counted.rampingFrom s.store.cfg.alphaMax (s.channel chUB).value.toNat })
      r.running h (NothingWaits.congr n rfl rfl) r.quiet
  · show execGatePulse x.bridge x.pair s = _
    unfold execGatePulse
    rw [taken_running _ r.running]
    unfold State.modRect
    rw [emitPulse_head hx, if_pos (by simp [delivering_of hq, hb])]
  · show execGatePulse x.bridge x.pair s = _
    unfold execGatePulse
    rw [taken_running _ r.running]
    unfold State.modRect
    rw [emitPulse_head hx, if_neg (by simp [hb])]

end Sys2Proof.Machine
end

section
/-! The timers of a breaker sequencer (R50, R52, R56 to R61, R65). -/

namespace Sys2Proof.Machine

open Sys2Proof

variable {s t u v : State} {k : FeederNo}

/-! ### A sequencer that enters a state, and what it hands on -/

/-- R70, R108: an event whose first effect writes the sequencer of feeder k, with its handings carried out. -/
theorem event_entering {f : State → State} {g : Sequencer → Sequencer} {l : List Signal} {n : Nat} (hrun : s.resetHeld = false)
    (hf : f s = { v.modSeq k g with agenda := l })
    (c : Carried n (v.modSeq k g) l { v.entering k g with agenda := [] }) (hv : v.agenda = []) (hn : n ≤ 4096) :
    event f s = .next (v.entering k g).finish := by
  rw [State.quiet_eq (s := v.entering k g) hv] at c
  exact event_carried_next hrun hf c hn

/-- R70: a sequencer whose engine rests enters another state, after a first write `p` of its record. -/
theorem EngineRests.enters (r : EngineRests s k) (ha : s.agenda = []) {q : SeqState} {p f g : Sequencer → Sequencer}
    (h : (p (s.seq k)).state ≠ some q) (hg : enterFields q (f (p (s.seq k))) = g (s.seq k)) :
    (s.modSeq k p).enter k q f = { s.modSeq k g with agenda := [.seqChanged k] } := by
  have rp : EngineRests (s.modSeq k p) k := r.congr rfl
  rw [rp.enter, if_neg (by rw [State.modSeq_seq]; exact h), State.modSeq_modSeq, State.modSeq_agenda, ha,
    State.modSeq_congr (f := fun x => enterFields q (f (p x))) hg]
  rfl

/-- The same without a first write. -/
theorem EngineRests.enters_now (r : EngineRests s k) (ha : s.agenda = []) {q : SeqState} {f g : Sequencer → Sequencer}
    (h : (s.seq k).state ≠ some q) (hg : enterFields q (f (s.seq k)) = g (s.seq k)) :
    s.enter k q f = { s.modSeq k g with agenda := [.seqChanged k] } := by
  rw [r.enter, if_neg h, ha, State.modSeq_congr (f := fun x => enterFields q (f x)) hg]
  rfl

/-- A pulse commutes with a change that neither reads nor writes what a pulse touches. -/
theorem State.pulse_comm {f : State → State} (p : PointNo) (hf : ∀ x, f { s with au := x } = { f s with au := x })
    (ha : (f s).au = s.au) (hv : (f s).verification = s.verification) (hs : (f s).store = s.store) :
    f (s.pulse p) = (f s).pulse p := by
  rw [State.pulse_eq s, State.pulse_eq (f s), hf, State.pulse_au p ha hv hs]

theorem State.pulse_modSeq (p : PointNo) (g : Sequencer → Sequencer) (l : List Signal) :
    State.pulse p { s.modSeq k g with agenda := l } = { (s.pulse p).modSeq k g with agenda := l } :=
  (State.pulse_comm (f := fun u => { u.modSeq k g with agenda := l }) p (fun _ => rfl) rfl rfl rfl).symm

theorem State.pulse_stamp (p : PointNo) : (s.pulse p).stamp = s.stamp := by
  obtain h | ⟨r, h⟩ := State.pulse_cases (s := s) (p := p) <;> rw [h]
  rfl

/-- R49, R56: a close or a test that ends leaves the record of the demand as it was. -/
theorem State.demandRecord_congr (cause : TripCause) (he : t.engines = s.engines) (hm : t.mi = s.mi) (hs : t.stamp = s.stamp)
    (hq : (t.seq k).attempts = (s.seq k).attempts) : t.demandRecord k cause = s.demandRecord k cause := by
  have e : t.engine k = s.engine k := by unfold State.engine; rw [he]
  have c : t.channel (chIF k) = s.channel (chIF k) := by unfold State.channel; rw [hm]
  unfold State.demandRecord
  rw [e, c, hs, hq]

/-! ### The close timer (R52, R65) -/

section
variable (r : EngineRests s k) (ha : s.agenda = [])

include r ha

theorem EngineRests.closeFailure (h : (s.seq k).state ≠ some .lockout) :
    (s.modSeq k fun x => { x with closeTimer := none }).closeFailure k =
      { (s.pulse (feederPoint 65 k)).modSeq k (fun x =>
          { x.bare .lockout with
            lastClose := .closeFailed
            openPulse := if s.breakerPos k = some .opened then none else some (x.openPulse.getD s.store.cfg.tOpenMax) }) with
        agenda := [.seqChanged k] } := by
  have m : ∀ f g : Sequencer → Sequencer, State.modSeq k g { s.modSeq k f with agenda := [.seqChanged k] } =
      { s.modSeq k (fun x => g (f x)) with agenda := [.seqChanged k] } := by
    intro f g; simp [State.modSeq, vget_set]
  have entered := r.enters ha (p := fun x => { x with closeTimer := none }) (q := .lockout)
    (f := fun x => { x with lastClose := .closeFailed })
    (g := fun x => { x.bare .lockout with lastClose := .closeFailed }) h rfl
  have started : State.startOpenPulse k { s.modSeq k (fun x => { x.bare .lockout with lastClose := .closeFailed }) with
        agenda := [.seqChanged k] } =
      { s.modSeq k (fun x =>
          { x.bare .lockout with
            lastClose := .closeFailed
            openPulse := if s.breakerPos k = some .opened then none else some (x.openPulse.getD s.store.cfg.tOpenMax) }) with
        agenda := [.seqChanged k] } := by
    by_cases hb : s.breakerPos k = some .opened
    · rw [State.startOpenPulse_opened (by exact hb), m]
      simp only [if_pos hb]
      rfl
    · rw [State.startOpenPulse_moving (by exact hb), m]
      simp only [if_neg hb]
      rfl
  unfold State.closeFailure
  dsimp only
  rw [entered, started, State.pulse_modSeq]

/-- R65: a close pulse that ends with hold open pending on a breaker that is not OPEN. -/
theorem EngineRests.seqTrip_hold (h : (s.seq k).state = some .closing) (hb : s.breakerPos k ≠ some .opened) :
    (s.modSeq k fun x => { x with closeTimer := none }).seqTrip k .hold none =
      { s.modSeq k (fun x => x.tripped (s.demandRecord k .hold) (some (x.openPulse.getD s.store.cfg.tOpenMax))) with
        agenda := [.seqChanged k] } := by
  generalize hw : (s.modSeq k fun x => { x with closeTimer := none }) = w
  have rw_ : EngineRests w k := r.congr (by subst hw; rfl)
  have hseq : w.seq k = { s.seq k with closeTimer := none } := by subst hw; exact State.modSeq_seq s k _
  have hb' : ¬ w.breakerPos k = some .opened := by subst hw; exact hb
  have hrec : w.demandRecord k .hold = s.demandRecord k .hold :=
    State.demandRecord_congr .hold (by subst hw; rfl) (by subst hw; rfl) (by subst hw; rfl) (by rw [hseq])
  rw [rw_.seqTrip .hold (some ((w.seq k).openPulse.getD w.store.cfg.tOpenMax)) (.inr (by rw [hseq]; exact h)) (by rw [if_neg hb'])]
  dsimp only
  rw [if_neg hb', hrec, hseq]
  subst hw
  show ({ (s.modSeq k fun x => { x with closeTimer := none }).modSeq k _ with agenda := s.agenda ++ [.seqChanged k] } : State) = _
  rw [ha]
  have both : (s.modSeq k fun x => { x with closeTimer := none }).modSeq k (fun x => x.tripped (s.demandRecord k .hold)
      (some ((s.seq k).openPulse.getD s.store.cfg.tOpenMax))) =
      s.modSeq k fun x => x.tripped (s.demandRecord k .hold) (some (x.openPulse.getD s.store.cfg.tOpenMax)) :=
    (State.modSeq_modSeq _ _).trans (State.modSeq_congr rfl)
  exact congrArg (fun v : State => { v with agenda := [.seqChanged k] }) both

end

/-! ### The dead timer (R56 to R59) -/

/-- R57: a feeder whose dead timer has run out waits with a reason. -/
theorem State.waits_eq (w : WaitReason) (ha : s.agenda = []) :
    (s.modSeq k fun r => { r with deadTimer := none }).waitFor k w =
      { (s.modSeq k fun r => { r with deadTimer := none, wait := some w }) with
        agenda := if w = .bus ∧ (s.seq k).wait ≠ some .bus then [.wake] else [] } := by
  have h : ((s.modSeq k fun r => { r with deadTimer := none }).seq k).wait = (s.seq k).wait := by rw [State.modSeq_seq]
  unfold State.waitFor
  dsimp only
  rw [h, State.modSeq_modSeq]
  split
  · exact State.hand_quiet (u := s.modSeq k fun r => { r with deadTimer := none, wait := some w }) ha .wake
  · exact (State.quiet_eq (s := s.modSeq k fun r => { r with deadTimer := none, wait := some w }) ha).symm

/-- R57: the wait carried out; a group that does not stand by is not woken. -/
theorem event_waits {f : State → State} (hrun : s.resetHeld = false) (ha : s.agenda = []) (hrect : s.rect.state ≠ .standby) (w : WaitReason)
    (hf : f s = (s.modSeq k fun r => { r with deadTimer := none }).waitFor k w) :
    event f s = .next (s.modSeq k fun r => { r with deadTimer := none, wait := some w }).finish := by
  have hw := hf.trans (State.waits_eq w ha)
  by_cases h : w = .bus ∧ (s.seq k).wait ≠ some .bus
  · rw [if_pos h] at hw
    have c : Carried 1 (s.modSeq k fun r => { r with deadTimer := none, wait := some w }) [.wake] _ :=
      .skip (handle_wake (s := s.modSeq k fun r => { r with deadTimer := none, wait := some w }) hrect) (.done 0 _)
    rw [State.quiet_eq (s := s.modSeq k fun r => { r with deadTimer := none, wait := some w }) ha] at c
    exact event_carried_next hrun hw c (by decide)
  · rw [if_neg h, State.quiet_eq (s := s.modSeq k fun r => { r with deadTimer := none, wait := some w }) ha] at hw
    exact event_quiet_next hrun hw ha

/-- R56: the list is not past its third item. -/
theorem State.deadVerdict_ready (hi : s.isolated k = false) (hb : s.reclosBarred k = false) (hn : (s.reclose k).nRec ≠ 0) :
    s.deadVerdict k =
      if s.busLow k then .waits .bus
      else if s.rect.state = .limiting then .waits .limit
      else if (s.engine k).recloseBar then .waits .thermal
      else if s.chFailed (chUL k) then .lockout
      else .test := by
  unfold State.deadVerdict
  rw [if_neg (by simp [hi]), if_neg (by simp [hb, hn])]

/-- R56: what the list says, acted on. -/
def DeadVerdict.acted (k : FeederNo) (s : State) : DeadVerdict → State
  | .opened => s.seqToOpen k
  | .lockout => s.seqToLockout k
  | .waits w => s.waitFor k w
  | .test => s.beginLineTest k .automatic

theorem State.judgeDead_of {v : DeadVerdict} (h : s.deadVerdict k = v) : s.judgeDead k = v.acted k s := by
  subst h
  rfl

/-- R58, R59, R61: the line test of a feeder whose dead timer has run out, begun or skipped. -/
theorem EngineRests.deadTest (r : EngineRests s k) (ha : s.agenda = []) (h : (s.seq k).state = some .deadTime) :
    (s.modSeq k fun r => { r with deadTimer := none }).beginLineTest k .automatic =
      { s.modSeq k (fun x =>
          if (s.channel chUB).value * 4 / 5 ≤ (s.channel (chUL k)).value then
            { x.bare .closing with
              closeKind := some .automatic, closeCoil := true, closeTimer := some s.store.cfg.tCloseMax }
          else
            { x.bare .lineTest with
              closeKind := some .automatic, testContactor := true, testTimer := some ((s.reclose k).tTest * 10) }) with
        agenda := [.seqChanged k, .wake] } := by
  have rw_ : EngineRests (s.modSeq k fun r => { r with deadTimer := none }) k := r.congr rfl
  rw [rw_.beginLineTest .automatic (by rw [State.modSeq_seq]; show (s.seq k).state ≠ _ ∧ (s.seq k).state ≠ _; rw [h]; decide),
    State.modSeq_modSeq, State.modSeq_agenda, ha]
  rfl

theorem State.deadVerdict_barred (hi : s.isolated k = false) (h : s.reclosBarred k = true ∨ (s.reclose k).nRec = 0) :
    s.deadVerdict k = .lockout := by
  unfold State.deadVerdict
  rw [if_neg (by simp [hi]), if_pos (by simpa using h)]

/-! ### The test timer (R60) -/

section
variable (r : EngineRests s k) (ha : s.agenda = [])

include r ha

theorem EngineRests.manualTestFailed (h : (s.seq k).state ≠ some .opened) :
    s.manualTestFailed k =
      { (s.pulse (feederPoint 65 k)).modSeq k (fun x => { x.bare .opened with lastClose := .testFailed }) with
        agenda := [.seqChanged k] } := by
  unfold State.manualTestFailed
  rw [r.enters_now ha (g := fun x => { x.bare .opened with lastClose := .testFailed }) h rfl, State.pulse_modSeq]

/-- R60: an automatic test that is not judged for want of the bus. -/
theorem EngineRests.testUnjudged (h : (s.seq k).state ≠ some .deadTime) :
    (s.enter k .deadTime fun r => { r with wait := none, deadTimer := none }).waitFor k .bus =
      { s.modSeq k (fun x => { x.bare .deadTime with wait := some .bus }) with agenda := [.seqChanged k, .wake] } := by
  rw [r.enters_now ha (g := Sequencer.bare .deadTime) h rfl]
  have hw : (State.seq { s.modSeq k (Sequencer.bare .deadTime) with agenda := [.seqChanged k] } k).wait = none := by
    show ((s.modSeq k (Sequencer.bare .deadTime)).seq k).wait = none
    rw [State.modSeq_seq]
    rfl
  unfold State.waitFor
  dsimp only
  rw [hw, if_pos ⟨rfl, nofun⟩]
  have both : (s.modSeq k (Sequencer.bare .deadTime)).modSeq k (fun x => { x with wait := some .bus, deadTimer := none }) =
      s.modSeq k fun x => { x.bare .deadTime with wait := some .bus } := State.modSeq_modSeq _ _
  exact congrArg (fun v : State => { v with agenda := [.seqChanged k, .wake] }) both

/-- R60: an automatic test that fails counts an attempt; the last of them locks out. -/
theorem EngineRests.automaticTestFailed (h : (s.seq k).state = some .lineTest) :
    let c := min ((s.seq k).attempts + 1) (s.reclose k).nRec
    s.automaticTestFailed k =
      { s.modSeq k (fun x =>
          if (s.reclose k).nRec ≤ c then { x.bare .lockout with attempts := c, lastClose := .testFailed }
          else { x.bare .deadTime with
            attempts := c, lastClose := .testFailed
            deadTimer := some (min ((s.reclose k).tDead * 500 * 2 ^ c) 60000 +
              if x.cause = some .intertrip then (s.reclose k).tOffset * 500 else 0) }) with
        agenda := [.seqChanged k] } := by
  intro c
  unfold State.automaticTestFailed
  dsimp only
  by_cases hc : (s.reclose k).nRec ≤ c
  · rw [if_pos hc]
    unfold State.seqToLockout
    rw [r.enters ha (g := fun x => { x.bare .lockout with attempts := c, lastClose := .testFailed }) (by rw [h]; decide) rfl]
    simp only [if_pos hc]
  · rw [if_neg hc]
    unfold State.enterDeadTime
    refine (r.enters ha (g := fun x => { x.bare .deadTime with
            attempts := c, lastClose := .testFailed
            deadTimer := some (min ((s.reclose k).tDead * 500 * 2 ^ c) 60000 +
              if x.cause = some .intertrip then (s.reclose k).tOffset * 500 else 0) }) (by rw [h]; decide) rfl).trans ?_
    simp only [if_neg hc]

end

/-! ### The open timer (R50, R51) -/

/-- R50: the sequencer of a breaker that did not open. -/
def Sequencer.openFailed (r : Sequencer) : Sequencer :=
  { r.bare .breakerFault with openPulse := none, failure := some .openFailed }

/-- R50: the part in which the failure of feeder k has set the backup latch. -/
def State.failedOpen (k : FeederNo) (s : State) : State := { s.modSeq k Sequencer.openFailed with backupLatch := true }

/-- R75: the record of a group that the backup trips, its AC breaker driven open. -/
def State.backedUp (s : State) : Rectifier :=
  { s.rect.trippedBy s.store.cfg.alphaMax .backup s.stamp with acDrive := true }

/-- R50: the backup has reached the rectifier group. -/
def State.backupBegun (k : FeederNo) (s : State) : State :=
  State.deriveBusFeed (State.pulse 49 { State.deriveBars (sectionOf k) (s.failedOpen k) with rect := s.backedUp })

theorem State.intertripFor_unshared (h : s.share k = none) (cause : IntertripCause) : s.intertripFor k cause = s := by
  unfold State.intertripFor
  rw [h]

section
variable (r : EngineRests s k) (ha : s.agenda = []) (h : (s.seq k).state = some .tripping)

include r ha h

theorem EngineRests.openFailure_latched (hl : s.backupLatch = true) :
    (s.modSeq k fun x => { x with openPulse := none }).openFailure k =
      { s.modSeq k Sequencer.openFailed with agenda := [.seqChanged k] } := by
  unfold State.openFailure
  dsimp only
  rw [r.enters ha (p := fun x => { x with openPulse := none }) (q := .breakerFault)
    (f := fun x => { x with failure := some .openFailed }) (g := Sequencer.openFailed) (by rw [h]; decide) rfl]
  exact if_pos hl

theorem EngineRests.openFailure_backup (hl : s.backupLatch = false) (hshare : s.share k = none) :
    (s.modSeq k fun x => { x with openPulse := none }).openFailure k =
      { (s.failedOpen k).pulse 49 with
        agenda := .seqChanged k :: .backupRectifier :: (allFeeders.filter (· ≠ k)).map Signal.backupTo } := by
  unfold State.openFailure
  dsimp only
  rw [r.enters ha (p := fun x => { x with openPulse := none }) (q := .breakerFault)
    (f := fun x => { x with failure := some .openFailed }) (g := Sequencer.openFailed) (by rw [h]; decide) rfl]
  refine (if_neg (by exact ne_true_of_eq_false hl)).trans ?_
  rw [State.intertripFor_unshared (by exact hshare)]
  exact (State.pulse_comm (s := s.failedOpen k) (f := fun u =>
    { u with agenda := .seqChanged k :: .backupRectifier :: (allFeeders.filter (· ≠ k)).map Signal.backupTo }) 49
    (fun _ => rfl) rfl rfl rfl).symm

end

/-- R50: the backup demand on the rectifier group. -/
theorem handle_backupRectifier (hr : s.rect.state ≠ .tripped) (hac : s.acPos ≠ some .opened) :
    State.handle .backupRectifier { s with agenda := [] } = { { s with rect := s.backedUp } with agenda := [.rectChanged] } := by
  show (State.rectTrip .backup { s with agenda := [] }).startAcDrive = _
  rw [State.rectTrip_eq (s := { s with agenda := [] }) rfl hr]
  exact if_neg hac

/-- R57, R99: a change of the group while nothing waits, with what is handed on behind it. -/
theorem NothingWaits.carried_then (w : NothingWaits s) {n : Nat} {l : List Signal} (c : Carried n s.deriveBusFeed l t) :
    Carried (n + 6 + 1) s (.rectChanged :: l) t := by
  refine .step handle_rectChanged ?_
  rw [w.securing, List.map_nil, List.append_nil]
  refine Carried.skips (m := allFeeders.map Signal.judgeWait) (fun g mg => ?_) c
  obtain ⟨j, _, rfl⟩ := List.mem_map.1 mg
  exact handle_judgeWait (w.waits j)

/-- R51: a sequencer that a backup demand leaves as it is. -/
def State.ignoresBackup (s : State) (j : FeederNo) : Prop :=
  ∃ q, (s.seq j).state = some q ∧ (q = .deadTime ∨ q = .opened ∨ q = .lockout ∨ q = .breakerFault ∨ q = .notFitted)

theorem handle_backupTo_ignored {j : FeederNo} (h : s.ignoresBackup j) :
    State.handle (.backupTo j) { s with agenda := [] } = { s with agenda := [] } := by
  obtain ⟨q, hq, hs⟩ := h
  show State.seqBackup j { s with agenda := [] } = _
  unfold State.seqBackup
  rw [show (State.seq { s with agenda := [] } j).state = some q from hq]
  obtain rfl | rfl | rfl | rfl | rfl := hs <;> rfl

/-- R44, R51: the sequencer of feeder k as a backup demand trips it. -/
def State.backupTripped (s : State) (k : FeederNo) (r : Sequencer) : Sequencer :=
  r.tripped (s.demandRecord k .backup) (some (r.openPulse.getD s.store.cfg.tOpenMax))

/-- R51: a feeder in service is tripped by a backup demand. -/
theorem EngineRests.handle_backupTo (r : EngineRests s k) (h : (s.seq k).state = some .inService) (hb : s.breakerPos k ≠ some .opened)
    (hshare : s.share k = none) :
    State.handle (.backupTo k) { s with agenda := [] } =
      { (s.modSeq k (s.backupTripped k)).pulse (feederPoint 0 k) with agenda := [.seqChanged k] } := by
  have rests : EngineRests { s with agenda := [] } k := r.congr rfl
  have trip : State.handle (.backupTo k) { s with agenda := [] } = State.seqTrip k .backup none { s with agenda := [] } := by
    show State.seqBackup k { s with agenda := [] } = _
    unfold State.seqBackup
    rw [show (State.seq { s with agenda := [] } k).state = some .inService from h]
  rw [trip, rests.seqTrip .backup (some ((s.seq k).openPulse.getD s.store.cfg.tOpenMax)) (.inl h) (if_neg hb).symm]
  refine (if_neg hb).trans ((State.intertripFor_unshared ?_ _).trans ?_)
  · show (State.pulse (feederPoint 0 k) _).share k = none
    unfold State.share
    rw [State.pulse_store]
    exact hshare
  · have tripped : s.modSeq k (fun x => x.tripped (s.demandRecord k .backup) (some ((s.seq k).openPulse.getD s.store.cfg.tOpenMax))) =
        s.modSeq k (s.backupTripped k) := State.modSeq_congr rfl
    show State.pulse (feederPoint 0 k) { s.modSeq k (fun x => x.tripped (s.demandRecord k .backup)
      (some ((s.seq k).openPulse.getD s.store.cfg.tOpenMax))) with agenda := [.seqChanged k] } = _
    rw [tripped]
    exact (State.pulse_comm (s := s.modSeq k (s.backupTripped k)) (f := fun u => { u with agenda := [.seqChanged k] }) _
      (fun _ => rfl) rfl rfl rfl).symm

/-! What the backup's first effects leave as it was. -/

theorem State.backupBegun_engines : (s.backupBegun k).engines = s.engines := State.pulse_engines _ 49
theorem State.backupBegun_mi : (s.backupBegun k).mi = s.mi := State.pulse_mi _ 49
theorem State.backupBegun_store : (s.backupBegun k).store = s.store := State.pulse_store _ 49
theorem State.backupBegun_ht : (s.backupBegun k).ht = s.ht := State.pulse_ht _ 49
theorem State.backupBegun_stamp : (s.backupBegun k).stamp = s.stamp :=
  State.pulse_stamp (s := { State.deriveBars (sectionOf k) (s.failedOpen k) with rect := s.backedUp }) 49

theorem State.backupBegun_seq {j : FeederNo} (hj : j ≠ k) : (s.backupBegun k).seq j = s.seq j := by
  have h : (s.backupBegun k).seqs = (s.modSeq k Sequencer.openFailed).seqs := State.pulse_seqs _ 49
  unfold State.seq
  rw [h]
  exact State.modSeq_seq_ne s hj _

/-- R50, R57, R75: the backup carried out as far as the rectifier group. -/
theorem carried_backupBegun {n : Nat} {l : List Signal} (w : NothingWaits s) (hsec : s.securingOver k = []) (hr : s.rect.state ≠ .tripped)
    (hac : s.acPos ≠ some .opened) (c : Carried n (s.backupBegun k) l t) :
    Carried (n + 6 + 1 + 1 + 1) ((s.failedOpen k).pulse 49) (.seqChanged k :: .backupRectifier :: l) t := by
  have waits : NothingWaits ((s.failedOpen k).pulse 49) := by
    refine ⟨fun j => ?_, ?_⟩
    · unfold State.seq
      rw [State.pulse_seqs]
      by_cases hj : j = k
      · subst hj
        exact congrArg Sequencer.wait (State.modSeq_seq s j Sequencer.openFailed)
      · exact (congrArg Sequencer.wait (State.modSeq_seq_ne s hj Sequencer.openFailed)).trans (w.waits j)
    · unfold State.securingBus
      rw [State.pulse_ht]
      exact w.securing
  have bars : State.deriveBars (sectionOf k) ((s.failedOpen k).pulse 49) =
      State.pulse 49 (State.deriveBars (sectionOf k) (s.failedOpen k)) :=
    State.pulse_comm (f := State.deriveBars (sectionOf k)) 49 (fun _ => rfl) rfl rfl rfl
  have quiet : ((s.failedOpen k).pulse 49).securingOver k = [] := by
    rw [State.pulse_eq]
    exact hsec
  refine .step (m := []) (handle_seqChanged quiet) ?_
  rw [bars]
  have backed : State.backedUp (State.pulse 49 (State.deriveBars (sectionOf k) (s.failedOpen k))) = s.backedUp := by
    unfold State.backedUp
    rw [State.pulse_rect, State.pulse_store, State.pulse_stamp]
    rfl
  have notTripped : (State.pulse 49 (State.deriveBars (sectionOf k) (s.failedOpen k))).rect.state ≠ .tripped := by
    rw [State.pulse_rect]
    exact hr
  have notOpen : (State.pulse 49 (State.deriveBars (sectionOf k) (s.failedOpen k))).acPos ≠ some .opened := by
    rw [State.pulse_eq]
    exact hac
  refine .step (m := [.rectChanged]) (handle_backupRectifier notTripped notOpen) ?_
  rw [backed, ← State.pulse_with_rect]
  refine NothingWaits.carried_then (NothingWaits.congr waits ?_ ?_) c
  · rw [State.pulse_seqs, State.pulse_seqs]
    rfl
  · rw [State.pulse_ht, State.pulse_ht]
    rfl

/-- R51: backup demands that no feeder follows. -/
theorem carried_ignored {n : Nat} {js : List FeederNo} {l : List Signal} (h : ∀ j ∈ js, s.ignoresBackup j) (c : Carried n s l t) :
    Carried (n + js.length) s (js.map Signal.backupTo ++ l) t := by
  have := Carried.skips (m := js.map Signal.backupTo) (fun g mg => by
    obtain ⟨j, mj, rfl⟩ := List.mem_map.1 mg
    exact handle_backupTo_ignored (h j mj)) c
  rwa [List.length_map] at this

/-- R51: backup demands that one feeder, in service, follows. -/
theorem carried_tripOne {js : List FeederNo} (r : FeederQuiet s k) (h : (s.seq k).state = some .inService)
    (hb : s.breakerPos k ≠ some .opened) (hshare : s.share k = none) (hmem : k ∈ js) (hnodup : js.Nodup)
    (hothers : ∀ j ∈ js, j ≠ k → s.ignoresBackup j) :
    ∃ n ≤ js.length + 2, Carried n s (js.map Signal.backupTo) { State.entering k (s.backupTripped k) (s.pulse (feederPoint 0 k)) with agenda := [] } := by
  obtain ⟨before, after, rfl⟩ := List.append_of_mem hmem
  obtain ⟨-, hafter, hdisj⟩ := List.nodup_append.1 hnodup
  have notBefore : ∀ j ∈ before, j ≠ k := fun j mj => hdisj j mj k List.mem_cons_self
  have notAfter : ∀ j ∈ after, j ≠ k := fun j mj e => (List.nodup_cons.1 hafter).1 (e ▸ mj)
  let u := State.entering k (s.backupTripped k) (s.pulse (feederPoint 0 k))
  have entered : State.deriveBars (sectionOf k) ((s.modSeq k (s.backupTripped k)).pulse (feederPoint 0 k)) = u :=
    congrArg (State.deriveBars (sectionOf k))
      (State.pulse_comm (f := State.modSeq k (s.backupTripped k)) (feederPoint 0 k) (fun _ => rfl) rfl rfl rfl).symm
  have seqs : ∀ j ≠ k, u.seq j = s.seq j := fun j hj => by
    refine (State.modSeq_seq_ne _ hj _).trans ?_
    unfold State.seq
    rw [State.pulse_seqs]
  have quiet : ((s.modSeq k (s.backupTripped k)).pulse (feederPoint 0 k)).securingOver k = [] := by
    rw [State.pulse_eq]
    exact r.securing
  refine ⟨0 + after.length + 1 + 1 + before.length, by simp only [List.length_append, List.length_cons]; omega, ?_⟩
  rw [List.map_append, List.map_cons]
  refine carried_ignored (fun j mj => hothers j (by simp [mj]) (notBefore j mj)) ?_
  refine .step (m := [.seqChanged k]) (r.handle_backupTo h hb hshare) ?_
  refine .step (m := []) (handle_seqChanged quiet) ?_
  rw [entered]
  have rest := carried_ignored (s := u) (js := after) (l := []) (fun j mj => ?_) (.done 0 u)
  · simpa using rest
  · obtain ⟨q, hq, hs⟩ := hothers j (by simp [mj]) (notAfter j mj)
    exact ⟨q, (congrArg Sequencer.state (seqs j (notAfter j mj))).trans hq, hs⟩

/-! ### The timers -/

/-- R56, R59, R61: the dead timer ends and the line test begins, or is skipped. -/
theorem deadTimer_tests (r : Ready s) (q : FeederQuiet s k) (hrect : s.rect.state ≠ .standby) (ht : (s.seq k).deadTimer ≠ none)
    (hq : (s.seq k).state = some .deadTime) (h : s.deadVerdict k = .test) {g : Sequencer → Sequencer}
    (hg : (if (s.channel chUB).value * 4 / 5 ≤ (s.channel (chUL k)).value then
        { (s.seq k).bare .closing with
          closeKind := some .automatic, closeCoil := true, closeTimer := some s.store.cfg.tCloseMax }
      else
        { (s.seq k).bare .lineTest with
          closeKind := some .automatic, testContactor := true, testTimer := some ((s.reclose k).tTest * 10) }) = g (s.seq k)) :
    exec (.deadTimerExpiry k) s = .next (s.entering k g).finish := by
  have first : (fun s : State => if (s.seq k).deadTimer.isSome then (s.modSeq k fun x => { x with deadTimer := none }).judgeDead k else s) s =
      { s.modSeq k g with agenda := [.seqChanged k, .wake] } :=
    (if_pos (Option.isSome_iff_ne_none.2 ht)).trans ((State.judgeDead_of (v := .test) (by exact h)).trans
      ((q.toEngineRests.deadTest r.quiet hq).trans
        (congrArg (fun v : State => { v with agenda := [.seqChanged k, .wake] }) (State.modSeq_congr hg))))
  exact event_entering r.running first (carried_seqChanged_wake q.securing hrect) r.quiet (by decide)

/-- R60, R61: a test that passes closes. -/
theorem testTimer_passes (r : Ready s) (q : FeederQuiet s k) (hrect : s.rect.state ≠ .standby) (ht : (s.seq k).testTimer ≠ none)
    (hq : (s.seq k).state = some .lineTest) {kind : CloseKind} (h : s.judgeTest k = s.beginClosing k kind) :
    exec (.testTimerExpiry k) s = .next (s.entering k fun x =>
      { x.bare .closing with closeKind := some kind, closeCoil := true, closeTimer := some s.store.cfg.tCloseMax }).finish := by
  have closes : s.beginClosing k kind = { (s.modSeq k fun x =>
      { x.bare .closing with closeKind := some kind, closeCoil := true, closeTimer := some s.store.cfg.tCloseMax }) with
      agenda := [.seqChanged k, .wake] } := by
    unfold State.beginClosing
    dsimp only
    rw [q.toEngineRests.enters_now r.quiet (q := .closing)
      (g := fun x => { x.bare .closing with closeKind := some kind, closeCoil := true, closeTimer := some s.store.cfg.tCloseMax })
      (by rw [hq]; decide) rfl]
    rfl
  have first : (fun s : State => if (s.seq k).testTimer.isSome then s.judgeTest k else s) s = _ :=
    (if_pos (Option.isSome_iff_ne_none.2 ht)).trans (h.trans closes)
  exact event_entering r.running first (carried_seqChanged_wake q.securing hrect) r.quiet (by decide)

/-- R60: an automatic test that fails. -/
theorem testTimer_fails (r : Ready s) (q : FeederQuiet s k) (ht : (s.seq k).testTimer ≠ none)
    (hq : (s.seq k).state = some .lineTest) (h : s.judgeTest k = s.automaticTestFailed k) {g : Sequencer → Sequencer}
    (hg : (if (s.reclose k).nRec ≤ min ((s.seq k).attempts + 1) (s.reclose k).nRec then
        { (s.seq k).bare .lockout with attempts := min ((s.seq k).attempts + 1) (s.reclose k).nRec, lastClose := .testFailed }
      else { (s.seq k).bare .deadTime with
        attempts := min ((s.seq k).attempts + 1) (s.reclose k).nRec, lastClose := .testFailed
        deadTimer := some (min ((s.reclose k).tDead * 500 * 2 ^ min ((s.seq k).attempts + 1) (s.reclose k).nRec) 60000 +
          if (s.seq k).cause = some .intertrip then (s.reclose k).tOffset * 500 else 0) }) = g (s.seq k)) :
    exec (.testTimerExpiry k) s = .next (s.entering k g).finish := by
  have first : (fun s : State => if (s.seq k).testTimer.isSome then s.judgeTest k else s) s =
      { s.modSeq k g with agenda := [.seqChanged k] } :=
    (if_pos (Option.isSome_iff_ne_none.2 ht)).trans (h.trans ((q.toEngineRests.automaticTestFailed r.quiet hq).trans
      (congrArg (fun v : State => { v with agenda := [.seqChanged k] }) (State.modSeq_congr hg))))
  exact event_seqChanged r.running first q.securing r.quiet

/-- Settles O46, by the timer and the state it ends in. -/
theorem sequencerTimers : Obligations.SequencerTimers := by
  unfold Obligations.SequencerTimers
  intro s k r q hrect settings enters bus line busLow
  have rests := q.toEngineRests
  refine ⟨fun ht => ?_, fun ht hq => ?_, fun ht hq => ?_, fun ht hq => ?_, fun ht hq => ?_⟩
  · show execReclaimTimerExpiry k s = _
    unfold execReclaimTimerExpiry
    rw [taken_running _ r.running, if_pos (Option.isSome_iff_ne_none.2 ht)]
    rfl
  · intro failed
    have first {u : State} (h : (s.modSeq k fun x => { x with openPulse := none }).openFailure k = u) :
        (fun s : State => if (s.seq k).openPulse.isSome then s.openTimeout k else s) s = u :=
      (if_pos (Option.isSome_iff_ne_none.2 ht)).trans h
    refine ⟨fun hl => ?_, fun hl n hshare hrun hac => ?_⟩
    · exact event_seqChanged r.running (first (rests.openFailure_latched r.quiet hq hl)) q.securing r.quiet
    · intro keeps begun
      have start := first (rests.openFailure_backup r.quiet hq hl (hshare k))
      have begunQuiet : (s.backupBegun k).agenda = [] := (State.pulse_agenda _ 49).trans r.quiet
      have ignored {j : FeederNo} (hj : j ≠ k) (h : keeps j) : (s.backupBegun k).ignoresBackup j := by
        obtain ⟨p, hp, hs⟩ := h
        exact ⟨p, (congrArg Sequencer.state (State.backupBegun_seq hj)).trans hp, hs⟩
      have others {j : FeederNo} (mj : j ∈ allFeeders.filter (· ≠ k)) : j ≠ k := by simpa using (List.mem_filter.1 mj).2
      refine ⟨fun hk => ?_, fun i hi qi hiq hib hk => ?_⟩
      · have c := carried_ignored (s := s.backupBegun k) (js := allFeeders.filter (· ≠ k)) (l := [])
          (fun j mj => ignored (others mj) (hk j (others mj))) (.done 0 _)
        rw [List.append_nil, State.quiet_eq begunQuiet] at c
        have hlen : (allFeeders.filter (· ≠ k)).length ≤ 6 := List.length_filter_le _ _
        exact event_carried_next r.running start (carried_backupBegun n q.securing hrun hac c) (by omega)
      · have tripped : (s.backupBegun k).backupTripped i = fun x =>
            x.tripped (s.demandRecord i .backup) (some (x.openPulse.getD s.store.cfg.tOpenMax)) := by
          funext x
          unfold State.backupTripped
          rw [State.backupBegun_store, State.demandRecord_congr .backup State.backupBegun_engines State.backupBegun_mi
            State.backupBegun_stamp (congrArg Sequencer.attempts (State.backupBegun_seq hi))]
        have securing : (s.backupBegun k).securingOver i = s.securingOver i := by
          unfold State.securingOver State.covers State.fitted
          rw [State.backupBegun_ht, State.backupBegun_store]
        have share : (s.backupBegun k).share i = none := by
          unfold State.share
          rw [State.backupBegun_store]
          exact hshare i
        obtain ⟨m, hm, c⟩ := carried_tripOne (s := s.backupBegun k) (js := allFeeders.filter (· ≠ k))
          (qi.congr State.backupBegun_engines securing) ((congrArg Sequencer.state (State.backupBegun_seq hi)).trans hiq)
          (by rw [State.breakerPos_congr State.backupBegun_mi]; exact hib) share
          (List.mem_filter.2 ⟨mem_allFeeders i, by simpa using hi⟩) (List.Pairwise.filter _ (show allFeeders.Nodup by decide))
          (fun j mj hj => ignored (others mj) (hk j (others mj) hj))
        rw [tripped, State.quiet_eq (s := State.entering i _ ((s.backupBegun k).pulse (feederPoint 0 i)))
          ((State.pulse_agenda _ _).trans begunQuiet)] at c
        have hlen : (allFeeders.filter (· ≠ k)).length ≤ 6 := List.length_filter_le _ _
        exact event_carried_next r.running start (carried_backupBegun n q.securing hrun hac c) (by omega)
  · have first {u : State} (h : s.closeTimeout k = u) :
        (fun s : State => if (s.seq k).closeTimer.isSome then s.closeTimeout k else s) s = u :=
      (if_pos (Option.isSome_iff_ne_none.2 ht)).trans h
    have pending : ((s.modSeq k fun x => { x with closeTimer := none }).seq k).holdOpenPending = (s.seq k).holdOpenPending := by
      rw [State.modSeq_seq]
    refine ⟨fun hp => ?_, fun hp => ⟨fun hb => ?_, fun hb => ?_⟩⟩
    · have h : s.closeTimeout k = _ :=
        (if_neg (by rw [pending, hp]; decide)).trans (rests.closeFailure r.quiet (by rw [hq]; decide))
      refine event_seqChanged r.running (first h) ?_ ((State.pulse_agenda _ _).trans r.quiet)
      show (State.securingOver (State.modSeq k _ (s.pulse (feederPoint 65 k))) k) = []
      rw [State.pulse_eq]
      exact q.securing
    · have h : s.closeTimeout k = _ :=
        (if_pos (pending.trans hp)).trans ((if_pos (by exact hb)).trans
          (rests.enters r.quiet (p := fun x => { x with closeTimer := none }) (q := .opened) (f := fun x => { x with attempts := 0 })
            (g := fun x => { x.bare .opened with attempts := 0 }) (by rw [hq]; decide) rfl))
      exact event_seqChanged r.running (first h) q.securing r.quiet
    · have h : s.closeTimeout k = _ :=
        (if_pos (pending.trans hp)).trans ((if_neg (by exact hb)).trans (rests.seqTrip_hold r.quiet hq hb))
      exact event_seqChanged r.running (first h) q.securing r.quiet
  · intro gives waits
    have first {v : DeadVerdict} {u : State} (h : s.deadVerdict k = v)
        (hu : v.acted k (s.modSeq k fun x => { x with deadTimer := none }) = u) :
        (fun s : State => if (s.seq k).deadTimer.isSome then (s.modSeq k fun x => { x with deadTimer := none }).judgeDead k else s) s =
          u :=
      (if_pos (Option.isSome_iff_ne_none.2 ht)).trans ((State.judgeDead_of (by exact h)).trans hu)
    have opens (h : s.deadVerdict k = .opened) : gives (enters s fun r => { r.bare .opened with attempts := 0 }) :=
      event_seqChanged r.running (first h (rests.enters r.quiet (p := fun x => { x with deadTimer := none })
        (q := .opened) (f := fun x => { x with attempts := 0 }) (g := fun x => { x.bare .opened with attempts := 0 })
        (by rw [hq]; decide) rfl)) q.securing r.quiet
    have locks (h : s.deadVerdict k = .lockout) : gives (enters s (Sequencer.bare .lockout)) :=
      event_seqChanged r.running (first h (rests.enters r.quiet (p := fun x => { x with deadTimer := none })
        (q := .lockout) (f := id) (g := Sequencer.bare .lockout) (by rw [hq]; decide) rfl)) q.securing r.quiet
    have keepsWaiting {w : WaitReason} (h : s.deadVerdict k = .waits w) : gives (waits w) :=
      event_waits r.running r.quiet hrect w (first h rfl)
    refine ⟨fun hi => opens (if_pos hi), fun hi hb => locks (State.deadVerdict_barred hi hb), fun hi hb hn => ?_⟩
    have verdict := State.deadVerdict_ready hi hb hn
    refine ⟨fun hbus => keepsWaiting ?_, fun hbus hlim => keepsWaiting ?_, fun hbus hlim hbar => keepsWaiting ?_,
      fun hbus hlim hbar => ?_⟩
    · rw [verdict, if_pos (State.busLow_iff.2 hbus)]
    · rw [verdict, if_neg (mt State.busLow_iff.1 hbus), if_pos hlim]
    · rw [verdict, if_neg (mt State.busLow_iff.1 hbus), if_neg hlim, if_pos hbar]
    · rw [if_neg (mt State.busLow_iff.1 hbus), if_neg hlim, if_neg (by simp [hbar])] at verdict
      refine ⟨fun hline => locks ?_, fun hline hlow => ?_, fun hline hlive => ?_⟩
      · rw [verdict, if_pos (State.chFailed_iff.2 hline)]
      · rw [if_neg (mt State.chFailed_iff.1 hline)] at verdict
        exact deadTimer_tests r q hrect ht hq verdict (if_neg (Int.not_le.2 hlow))
      · rw [if_neg (mt State.chFailed_iff.1 hline)] at verdict
        exact deadTimer_tests r q hrect ht hq verdict (if_pos hlive)
  · intro gives passes manualFails
    have first {u : State} (h : s.judgeTest k = u) :
        (fun s : State => if (s.seq k).testTimer.isSome then s.judgeTest k else s) s = u :=
      (if_pos (Option.isSome_iff_ne_none.2 ht)).trans h
    have fails (h : s.judgeTest k = s.manualTestFailed k) : gives manualFails := by
      refine event_seqChanged r.running (first (h.trans (rests.manualTestFailed r.quiet (by rw [hq]; decide)))) ?_
        ((State.pulse_agenda _ _).trans r.quiet)
      show (State.securingOver (State.modSeq k _ (s.pulse (feederPoint 65 k))) k) = []
      rw [State.pulse_eq]
      exact q.securing
    refine ⟨fun hbus => ⟨fun hkind => fails ?_, fun hkind => ?_⟩, fun hbus => ⟨fun kind hkind hpass => ?_, fun hkind hpass => fails ?_,
      fun hkind hpass => ?_⟩⟩
    · exact (if_pos (State.busLow_iff.2 hbus)).trans (if_pos hkind)
    · have h : s.judgeTest k = _ := (if_pos (State.busLow_iff.2 hbus)).trans ((if_neg (by rw [hkind]; decide)).trans
        (rests.testUnjudged r.quiet (by rw [hq]; decide)))
      exact event_entering r.running (first h) (carried_seqChanged_wake q.securing hrect) r.quiet (by decide)
    · refine testTimer_passes r q hrect ht hq ?_
      refine (if_neg (mt State.busLow_iff.1 hbus)).trans ((if_pos (decide_eq_true hpass)).trans ?_)
      rw [hkind]
      cases kind <;> rfl
    · exact (if_neg (mt State.busLow_iff.1 hbus)).trans ((if_neg (mt of_decide_eq_true hpass)).trans (if_pos hkind))
    · intro c
      have h : s.judgeTest k = s.automaticTestFailed k := (if_neg (mt State.busLow_iff.1 hbus)).trans
        ((if_neg (mt of_decide_eq_true hpass)).trans (if_neg (by rw [hkind]; decide)))
      exact ⟨fun hc => testTimer_fails r q ht hq h (if_pos hc), fun hc => testTimer_fails r q ht hq h (if_neg (Nat.not_le.2 hc))⟩

end Sys2Proof.Machine
end

section
/-! The records of the Hold Table written, a hold of one line section placed, and its judgement (R112, R113, R116, R119, R124). -/

namespace Sys2Proof.Machine

open Sys2Proof

variable {s t u v : State} {k : FeederNo} {id : Byte}

/-! ### Writes of a record -/

theorem State.modHold_congr {f g : Hold → Hold} (h : ∀ x ∈ s.ht.holds, x.id = id → f x = g x) : s.modHold id f = s.modHold id g := by
  have e : (s.ht.holds.map fun x => if x.id = id then f x else x) = s.ht.holds.map fun x => if x.id = id then g x else x := by
    refine List.map_congr_left fun x hx => ?_
    by_cases hid : x.id = id
    · rw [if_pos hid, if_pos hid, h x hx hid]
    · rw [if_neg hid, if_neg hid]
  exact congrArg (fun l => s.handTable l s.ht.lastId) e

/-- R114, R197: a change that the retained area does not keep is not written to it. -/
theorem State.modHold_unkept {f : Hold → Hold} (hf : ∀ x, retainedHold (f x) = retainedHold x) :
    s.modHold id f =
      { s with ht := { s.ht with holds := s.ht.holds.map fun x => if x.id = id then f x else x } } := by
  have view : { s.retainedView with
      holds := (s.ht.holds.map fun x => if x.id = id then f x else x).map retainedHold, lastId := s.ht.lastId } = s.retainedView := by
    have kept : (s.ht.holds.map fun x => if x.id = id then f x else x).map retainedHold = s.ht.holds.map retainedHold := by
      rw [List.map_map]
      refine List.map_congr_left fun x _ => ?_
      show retainedHold (if x.id = id then f x else x) = _
      split
      · exact hf x
      · rfl
    rw [kept]
    rfl
  unfold State.modHold State.modHolds State.handTable Store.takeTable
  rw [view, if_pos rfl, if_pos rfl]

/-- R114: a table handed on after a change that is not retained is handed on as without it. -/
theorem State.handTable_unkept {f : Hold → Hold} (hf : ∀ x, retainedHold (f x) = retainedHold x) (l : List Hold) (last : Byte) :
    (s.modHold id f).handTable l last = s.handTable l last := by
  have view : (s.modHold id f).retainedView = s.retainedView := by
    rw [State.modHold_unkept hf]
    unfold State.retainedView
    dsimp only
    congr 1
    rw [List.map_map]
    refine List.map_congr_left fun x _ => ?_
    show retainedHold (if x.id = id then f x else x) = _
    split
    · exact hf x
    · rfl
  unfold State.handTable
  rw [view, State.modHold_unkept hf]

theorem State.modHold_again {f : Hold → Hold} (hf : ∀ x, retainedHold (f x) = retainedHold x) (hid : ∀ x, (f x).id = x.id)
    (g : Hold → Hold) : (s.modHold id f).modHold id g = s.modHold id fun x => g (f x) := by
  have table : ((s.modHold id f).ht.holds.map fun x => if x.id = id then g x else x) =
      s.ht.holds.map fun x => if x.id = id then g (f x) else x := by
    show (s.ht.holds.map _).map _ = _
    rw [List.map_map]
    refine List.map_congr_left fun x _ => ?_
    show (if (if x.id = id then f x else x).id = id then g (if x.id = id then f x else x) else _) = _
    by_cases h : x.id = id
    · simp only [if_pos h, hid]
    · simp only [if_neg h]
  exact (congrArg (fun l => State.handTable l s.ht.lastId (s.modHold id f)) table).trans (State.handTable_unkept hf _ _)

/-- A record retired after such a change is retired as without it. -/
theorem State.retired_again {f : Hold → Hold} (hf : ∀ x, retainedHold (f x) = retainedHold x) (hid : ∀ x, (f x).id = x.id) :
    (s.modHold id f).modHolds (fun l => l.filter fun x => x.id ≠ id) = s.modHolds fun l => l.filter fun x => x.id ≠ id := by
  have table : ((s.modHold id f).ht.holds.filter fun x => x.id ≠ id) = s.ht.holds.filter fun x => x.id ≠ id := by
    show (s.ht.holds.map fun x => if x.id = id then f x else x).filter _ = _
    induction s.ht.holds with
    | nil => rfl
    | cons x l ih =>
      by_cases h : x.id = id
      · simpa [h, hid] using ih
      · simpa [h] using ih
  exact (congrArg (fun l => State.handTable l s.ht.lastId (s.modHold id f)) table).trans (State.handTable_unkept hf _ _)

/-! ### A hold of one line section (R116) -/

/-- R116: the record of a hold placed on the section of feeder k. -/
def State.lineHold (s : State) (kind : HoldKind) (origin : Origin) (tag : Half) (k : FeederNo) (duration : Option Nat)
    (asks : List PeerAsk) : Hold :=
  { id := drawId s.ht.holds s.ht.lastId, kind := kind, origin := origin, tag := tag, sections := [sectionOf k], state := .securing,
    remaining := duration, asks := asks, purpose := none, phase := none, unearth := [], failure := none, placed := s.stamp,
    timers := { noHoldTimers with securing := some 30000, minute := duration.map fun _ => 60000 } }

/-- R113: the Hold Table with a new record. -/
def State.withHold (s : State) (h : Hold) : State := s.handTable (s.ht.holds ++ [h]) h.id

section
variable {kind : HoldKind} {origin : Origin} {tag : Half} {duration : Option Nat}

theorem State.asksFor_line : s.asksFor [sectionOf k] = match s.share k with
    | some (p, line) => [{ port := p, line := line, status := .none, peerId := none, deny := none, awaiting := false }]
    | none => [] := by
  unfold State.asksFor
  rw [List.filterMap_cons, feederOf_sectionOf]
  dsimp only
  cases s.share k <;> rfl

theorem State.newHold_unasked (h : s.share k = none ∨ (peerPort origin).isSome = true) :
    s.newHold kind origin tag [sectionOf k] duration = s.lineHold kind origin tag k duration [] := by
  have asks : (if (peerPort origin).isSome then [] else s.asksFor [sectionOf k]) = [] := by
    split
    · rfl
    next hp =>
      rw [State.asksFor_line, h.resolve_right hp]
  unfold State.newHold
  dsimp only
  rw [asks]
  rfl

/-- R116: on a shared section the record asks the neighbour, over a link that is UP at once. -/
theorem State.newHold_asked (ho : (peerPort origin).isSome = false) {p : Port} {line : Byte} (h : s.share k = some (p, line)) :
    s.newHold kind origin tag [sectionOf k] duration = s.lineHold kind origin tag k duration
      [{ port := p, line := line, status := if (s.link p).state = .up then .asked else .none, peerId := none, deny := none,
         awaiting := false }] := by
  unfold State.newHold
  dsimp only
  rw [if_neg (by simp [ho]), State.asksFor_line, h]
  unfold State.linkUp
  by_cases hu : (s.link p).state = .up
  · simp [hu, State.lineHold]
  · simp [hu, State.lineHold]

/-- The new record is the only one with its ID. -/
theorem State.lineHold_only (hroom : s.ht.holds.length < 24) {asks : List PeerAsk} {x : Hold}
    (hx : x ∈ s.ht.holds ++ [s.lineHold kind origin tag k duration asks]) (hid : x.id = drawId s.ht.holds s.ht.lastId) :
    x = s.lineHold kind origin tag k duration asks := by
  obtain hx | hx := List.mem_append.1 hx
  · exact absurd (hid ▸ List.mem_map_of_mem hx) (drawId_free s.ht.holds s.ht.lastId hroom)
  · exact List.mem_singleton.1 hx

theorem State.withHold_hold (hroom : s.ht.holds.length < 24) (asks : List PeerAsk) (ht : t.ht = (s.withHold (s.lineHold kind origin tag k duration asks)).ht) :
    t.hold (drawId s.ht.holds s.ht.lastId) = some (s.lineHold kind origin tag k duration asks) :=
  State.hold_placed (s := t) (t := s) (h := s.lineHold kind origin tag k duration asks) (by rw [ht]; rfl) hroom rfl

/-- R116: a placement that asks no neighbour. -/
theorem State.placeHold_unasked (h : s.share k = none ∨ (peerPort origin).isSome = true) :
    s.placeHold kind origin tag [sectionOf k] duration =
      (((s.withHold (s.lineHold kind origin tag k duration [])).raiseCounts kind (sectionOf k)).hand
        (.judgeHold (drawId s.ht.holds s.ht.lastId)), drawId s.ht.holds s.ht.lastId) := by
  unfold State.placeHold
  rw [State.newHold_unasked h]
  rfl

end

/-! ### Counts and judgements handed on -/

/-- R101, R103: a NORECLOSE hold counts on its one line section. -/
theorem State.raiseNoreclose_line : ∃ l, (∀ g ∈ l, g = .recloseBar k ∨ g = .judgeWait k) ∧ l.length ≤ 2 ∧
    s.raiseNoreclose (sectionOf k) =
      { State.deriveBars (sectionOf k) (s.modSec (sectionOf k) fun r => { r with noreclose := r.noreclose + 1 }) with
        agenda := s.agenda ++ l } := by
  unfold State.raiseNoreclose State.countChanged
  rw [feederOf_sectionOf, concerned_sectionOf]
  dsimp only
  by_cases h : (s.sec (sectionOf k)).noreclose = 0
  · refine ⟨[.recloseBar k, .judgeWait k], by simp, by simp, ?_⟩
    rw [if_pos h]
    show ({ State.deriveBars (sectionOf k) (s.modSec (sectionOf k) fun r => { r with noreclose := r.noreclose + 1 }) with
      agenda := (s.agenda ++ [.recloseBar k]) ++ [.judgeWait k] } : State) = _
    rw [List.append_assoc]
    rfl
  · refine ⟨[.judgeWait k], by simp, by simp, ?_⟩
    rw [if_neg h]
    rfl

theorem handle_recloseBar_out (h : (s.seq k).state = some .inService) :
    State.handle (.recloseBar k) { s with agenda := [] } = { s with agenda := [] } := by
  show State.seqRecloseBar k { s with agenda := [] } = _
  unfold State.seqRecloseBar
  rw [show State.seq { s with agenda := [] } k = s.seq k from rfl, h]

theorem handle_judgeHold {h : Hold} (e : s.hold id = some h) (hs : h.state = .securing) :
    State.handle (.judgeHold id) { s with agenda := [] } =
      if s.breakerFails h then State.failHold id .breaker { s with agenda := [] }
      else if s.breakersSecured h && h.asks.all fun a => a.status == .granted then State.secured id h { s with agenda := [] }
      else { s with agenda := [] } := by
  show State.judgeHold id { s with agenda := [] } = _
  unfold State.judgeHold
  rw [show State.hold { s with agenda := [] } id = some h from e]
  exact if_neg (by simp [hs])

/-- R119: a NORECLOSE hold of this station is secured at once. -/
theorem handle_judgeHold_noreclose {h : Hold} (e : s.hold id = some h) (hs : h.state = .securing) (hk : h.kind = .noreclose)
    (ho : peerPort h.origin = none) (ha : h.asks = []) :
    State.handle (.judgeHold id) { s with agenda := [] } = { s.modHold id activeHold with agenda := [] } := by
  rw [handle_judgeHold e hs, if_neg (by simp [State.breakerFails, hk]), if_pos (by simp [State.breakersSecured, hk, ha])]
  unfold State.secured
  rw [ho]
  exact if_pos hk

/-- R119, R124: a hold of this station on one line section with its breaker OPEN is secured, and is proved next. -/
theorem handle_judgeHold_proving {h : Hold} (e : s.hold id = some h) (hs : h.state = .securing) (hk : h.kind ≠ .noreclose)
    (ho : peerPort h.origin = none) (ha : h.asks = []) (hsec : h.sections = [sectionOf k])
    (hq : (s.seq k).state = some .opened ∨ (s.seq k).state = some .lockout) (hb : s.breakerPos k = some .opened)
    (hch : (s.channel (chUL k)).state ≠ .failed) :
    State.handle (.judgeHold id) { s with agenda := [] } =
      { (s.modHold id fun x => { x with
          state := .proving
          timers := { noHoldTimers with provingWait := some 2000, provingLimit := some 10000 } }) with agenda := [] } := by
  obtain ⟨secured, fails⟩ := State.breakersSecured_line (s := s) hsec hq hb
  rw [handle_judgeHold e hs, if_neg (by simp [fails]), if_pos (by simp [secured, ha])]
  unfold State.secured
  rw [ho]
  refine (if_neg hk).trans ?_
  unfold State.enterProving
  rw [show State.hold { s with agenda := [] } id = some h from e]
  refine (if_neg ?_).trans rfl
  rw [hsec]
  simp only [List.any_cons, List.any_nil, Bool.or_false, voltageChannel_sectionOf]
  exact mt State.chFailed_iff.1 hch

/-- R119: a hold that waits for its neighbour goes on waiting. -/
theorem handle_judgeHold_asking {h : Hold} (e : s.hold id = some h) (hs : h.state = .securing) (hf : s.breakerFails h = false)
    (ha : (h.asks.all fun a => a.status == .granted) = false) :
    State.handle (.judgeHold id) { s with agenda := [] } = { s with agenda := [] } := by
  rw [handle_judgeHold e hs, if_neg (by simp [hf]), if_neg (by simp [ha])]

/-- R119: a hold that waits for its breaker goes on waiting. -/
theorem handle_judgeHold_waiting {h : Hold} (e : s.hold id = some h) (hs : h.state = .securing) (hf : s.breakerFails h = false)
    (hb : s.breakersSecured h = false) :
    State.handle (.judgeHold id) { s with agenda := [] } = { s with agenda := [] } := by
  rw [handle_judgeHold e hs, if_neg (by simp [hf]), if_neg (by simp [hb])]

/-! ### A command of the port with consequences -/

/-- R203: a command whose owner accepts it and hands something on. -/
theorem event_port_carried {row : PortRow} {owner : Option (State → Answer)} {l : List Signal} {value n : Nat} (r : PortReady s)
    (h : s.portAnswer row owner = accept { u with agenda := l } value)
    (c : Carried n (u.resulting row.code .accepted value) l t) (hn : n ≤ 4096) :
    event (State.port row none owner) s = .next t.finish := by
  refine event_carried_next r.running (u := u.resulting row.code .accepted value) ?_ c hn
  rw [State.port, if_pos r.armed, h]
  rfl

theorem kindOperand_durationOperand_line {code : Byte} {kind : HoldKind} {d : Half} {x : Option Nat} {tag : Half} (htag : tag ≠ 0)
    (hk : kindOperand code = some kind) (hd : durationOperand kind d = some x) :
    placementOperands code tag 1 [BitVec.ofNat 8 k.val] d = some { kind := kind, sections := [sectionOf k], duration := x } := by
  refine placementOperands_eq htag (by decide) (by decide) hk ?_ hd rfl
  exact sectionOperands_ofNat [sectionOf k]

/-- R115: nothing refuses a hold on one fitted line section whose breaker is no faulty one. -/
theorem State.commandPlace_line {p : Placement} {tag : Half} (hp : p.sections = [sectionOf k]) (hfit : s.fitted k = true)
    (hroom : s.ht.holds.length < 24) (hfault : s.faultyFeeder k = false) :
    s.commandPlace p tag = accept (s.placeHold p.kind .station tag p.sections p.duration).1 (drawId s.ht.holds s.ht.lastId).toNat := by
  have covered {j : FeederNo} (h : s.covers p.sections j = true) : j = k := by
    unfold State.covers at h
    rw [hp] at h
    have hbus := sectionOf_ne_bus k
    simp only [List.contains_cons, List.contains_nil, Bool.or_false, beq_iff_eq, Bool.or_eq_true, Bool.and_eq_true] at h
    obtain h | ⟨h, _⟩ := h
    · exact sectionOf_inj h
    · exact absurd h.symm hbus
  have refusal : s.placementRefusal p.sections (s.badSections p.kind p.sections) = none := by
    unfold State.placementRefusal
    have fitted : s.namesUnfitted p.sections = false := by
      rw [Bool.eq_false_iff, Ne, State.namesUnfitted_iff, hp]
      rintro ⟨j, hj, hf⟩
      rw [sectionOf_inj (List.mem_singleton.1 hj), hfit] at hf
      cases hf
    have good : s.badSections p.kind p.sections = false := by
      rw [Bool.eq_false_iff, Ne, State.badSections_iff, hp]
      rintro (⟨_, h⟩ | h)
      · exact sectionOf_ne_bus k (List.mem_singleton.1 h).symm
      · unfold State.sharesTwice at h
        rw [State.asksFor_line] at h
        cases hs : s.share k with
        | none => simp [hs] at h
        | some x =>
          obtain ⟨q, line⟩ := x
          cases q <;> simp [hs] at h
    have free : s.interlockFeeder p.sections = none := by
      unfold State.interlockFeeder
      rw [List.find?_eq_none]
      intro j _ h
      obtain ⟨hc, hf⟩ := (Bool.and_eq_true _ _).mp h
      rw [covered hc, hfault] at hf
      cases hf
    rw [if_neg (by simp [fitted]), if_neg (by simp [good]), if_neg (by omega), free]
  unfold State.commandPlace
  rw [refusal]
  rfl

/-- Settles O30: the reclose bar and the wait reach a feeder in service, and the judgement secures the hold. -/
theorem placeNoreclose : Obligations.PlaceNoreclose := by
  unfold Obligations.PlaceNoreclose
  intro s k tag duration r htag h1 h720 hfit hshare hq hroom id placed
  have operands := kindOperand_durationOperand_line (k := k) (code := 2) (kind := .noreclose) (d := duration) htag rfl
    ((if_pos rfl).trans (if_pos ⟨h1, h720⟩))
  have hfault : s.faultyFeeder k = false := by simp [State.faultyFeeder, State.seqIn, hq]
  have answer := State.commandPlace_line (s := s) (p := { kind := .noreclose, sections := [sectionOf k], duration := some duration.toNat })
    (tag := tag) rfl hfit hroom hfault
  obtain ⟨l, hl, hlen, raised⟩ := State.raiseNoreclose_line (s := s.withHold placed) (k := k)
  let u := State.deriveBars (sectionOf k) ((s.withHold placed).modSec (sectionOf k) fun x => { x with noreclose := x.noreclose + 1 })
  have placement : (s.placeHold .noreclose .station tag [sectionOf k] (some duration.toNat)).1 =
      { u with agenda := l ++ [.judgeHold id] } := by
    rw [State.placeHold_unasked (.inl hshare)]
    show ((s.withHold placed).raiseNoreclose (sectionOf k)).hand (.judgeHold id) = _
    rw [raised, show (s.withHold placed).agenda = [] from r.quiet]
    rfl
  let v := u.resulting 0x30 .accepted id.toNat
  have found : v.hold id = some placed := State.withHold_hold (t := v) hroom [] rfl
  have active : v.modHold id activeHold = v.modHold id fun x => { x with state := .active, timers := { noHoldTimers with minute := some 60000 } } := by
    refine State.modHold_congr fun x hx hid => ?_
    rw [State.lineHold_only hroom (kind := .noreclose) (origin := .station) (tag := tag) (duration := some duration.toNat) hx hid]
    rfl
  have judged := Carried.step (s := v) (m := []) (l := []) (handle_judgeHold_noreclose found rfl rfl rfl rfl) (.done 0 _)
  have c := Carried.skips (s := v) (m := l) (fun g mg => ?_) judged
  · rw [active, State.quiet_eq (s := v.modHold id _) (by exact r.quiet)] at c
    show execPlaceHold 2 tag 1 [BitVec.ofNat 8 k.val] duration s = _
    unfold execPlaceHold
    rw [if_neg (by simp [shortOf])]
    refine event_port_carried r.toPortReady (u := u) (n := 0 + 1 + l.length) ?_ c (by omega)
    rw [State.portAnswer_judged _ r.verified (by simp) (by simp), operands]
    refine answer.trans ?_
    rw [placement]
  · obtain rfl | rfl := hl g mg
    · exact handle_recloseBar_out hq
    · exact handle_judgeWait_out (by rw [show v.seq k = s.seq k from rfl, hq]; decide)

end Sys2Proof.Machine
end

section
/-! Holds released, dismissed and forced, and ISOLATE and EARTH holds placed (R101, R102, R116, R119, R130 to R136, R139). -/

namespace Sys2Proof.Machine

open Sys2Proof

variable {s t u v : State} {k : FeederNo} {id : Byte} {p : Port}

/-! ### Writes that a link does not see -/

/-- A write that commutes with those of the link of a port and leaves what its transmitter reads. -/
structure OffLink (p : Port) (f : State → State) : Prop where
  modLink : ∀ t g, f (t.modLink p g) = (f t).modLink p g
  link : ∀ t, (f t).link p = t.link p
  verification : ∀ t, (f t).verification = t.verification
  cfg : ∀ t, (f t).store.cfg = t.store.cfg
  mi : ∀ t, (f t).mi = t.mi
  seqs : ∀ t, (f t).seqs = t.seqs
  rect : ∀ t, (f t).rect = t.rect
  audit : ∀ t, (f t).auditList p = t.auditList p

theorem OffLink.chooseMessage {f : State → State} (o : OffLink p f) (s : State) : (f s).chooseMessage p = s.chooseMessage p := by
  have body (m : HoldMsg) : (f s).messageBody p m = s.messageBody p m := by
    cases m <;> unfold State.messageBody <;> dsimp only
    rw [o.audit]
  have entries : (f s).beaconEntries p = s.beaconEntries p := by
    have pos (k : FeederNo) : (f s).breakerPos k = s.breakerPos k := State.breakerPos_congr (o.mi s) k
    unfold State.beaconEntries State.reportsClosed State.share State.fitted State.seq
    simp only [o.cfg, o.seqs, pos]
  unfold State.chooseMessage
  dsimp only
  rw [o.link, entries, o.rect]
  cases (s.link p).intertrips with
  | cons => rfl
  | nil =>
    cases (s.link p).messages with
    | cons m rest => dsimp only; rw [body]
    | nil => rfl

theorem OffLink.transmit {f : State → State} (o : OffLink p f) (s : State) : (f s).transmit p = f (s.transmit p) := by
  unfold State.transmit State.verifying
  rw [o.link, o.chooseMessage, o.verification, o.cfg]
  split
  · rfl
  · cases s.chooseMessage p with
    | none => rfl
    | some x => exact (o.modLink _ _).symm

theorem OffLink.queueMessage {f : State → State} (o : OffLink p f) (s : State) (m : HoldMsg) :
    (f s).queueMessage p m = f (s.queueMessage p m) := by
  unfold State.queueMessage
  rw [o.link]
  split
  · rw [← o.modLink]
    exact o.transmit _
  · rfl

/-- The last command result is no matter of a link. -/
theorem offLink_resulting (code : Byte) (result : CmdResult) (value : Nat) : OffLink p (State.resulting code result value) where
  modLink _ _ := by cases p <;> rfl
  link _ := by cases p <;> rfl
  verification _ := rfl
  cfg _ := rfl
  mi _ := rfl
  seqs _ := rfl
  rect _ := rfl
  audit _ := rfl

/-- A change of a hold's record that keeps what an AUDIT lists. -/
theorem offLink_modHold {f : Hold → Hold} (ho : ∀ x, (f x).origin = x.origin) (ht : ∀ x, (f x).tag = x.tag)
    (hs : ∀ x, ((f x).state == .securing || (f x).state == .active) = (x.state == .securing || x.state == .active)) :
    OffLink p (State.modHold id f) where
  modLink _ _ := by cases p <;> rfl
  link _ := by cases p <;> rfl
  verification _ := rfl
  cfg _ := rfl
  mi _ := rfl
  seqs _ := rfl
  rect _ := rfl
  audit t := by
    have one (x : Hold) : (if x.id = id then f x else x).origin = x.origin ∧ (if x.id = id then f x else x).tag = x.tag ∧
        ((if x.id = id then f x else x).state == .securing || (if x.id = id then f x else x).state == .active) =
          (x.state == .securing || x.state == .active) := by
      split
      · exact ⟨ho x, ht x, hs x⟩
      · exact ⟨rfl, rfl, rfl⟩
    show ((t.ht.holds.map fun x => if x.id = id then f x else x).filter _).map _ = _
    unfold State.auditList
    rw [List.filter_map, List.map_map]
    have keeps : ((fun h : Hold => h.origin == peerOrigin p && (h.state == .securing || h.state == .active)) ∘
        fun x => if x.id = id then f x else x) = fun h : Hold => h.origin == peerOrigin p && (h.state == .securing || h.state == .active) := by
      funext x
      obtain ⟨h1, _, h3⟩ := one x
      show ((if x.id = id then f x else x).origin == peerOrigin p && _) = _
      rw [h1, h3]
    rw [keeps]
    refine List.map_congr_left fun x _ => ?_
    exact congrArg (BitVec.setWidth 8) (one x).2.1

/-! ### Retirement (R137) -/

/-- R137: the table without the records of an ID. -/
def State.retired (id : Byte) (s : State) : State := s.modHolds fun l => l.filter fun x => x.id ≠ id

/-- R101, R137: the table without a hold, which counts no longer on the section of feeder k. -/
def State.retiredOn (id : Byte) (kind : HoldKind) (k : FeederNo) (s : State) : State :=
  State.deriveBars (sectionOf k) ((s.retired id).modSec (sectionOf k) (loweredBy kind))

section
variable {h : Hold}

theorem State.retireHold_failed (e : s.hold id = some h) (hf : h.state = .failed) : s.retireHold id = (s.retired id).unbind id := by
  unfold State.retireHold
  rw [e]
  dsimp only
  rw [if_pos hf]
  rfl

/-- The counts of an EARTH hold fall without leaving its switch to be commanded OPEN. -/
def State.earthStays (s : State) (h : Hold) (k : FeederNo) : Prop :=
  h.kind = .earth → (s.sec (sectionOf k)).commandedClosed = false ∨ 2 ≤ (s.sec (sectionOf k)).earth

theorem State.unbind_handed (l : List Signal) : State.unbind id { s with agenda := l } = { s.unbind id with agenda := l } := rfl

/-- R101, R137: a hold of one line section that still counts is retired; its feeder's waits are judged afresh. -/
theorem State.retireHold_line (e : s.hold id = some h) (hf : h.state ≠ .failed) (hsec : h.sections = [sectionOf k])
    (he : s.earthStays h k) :
    ∃ l, (∀ g ∈ l, g = .judgeWait k) ∧ l.length ≤ 2 ∧
      s.retireHold id = { (s.retiredOn id h.kind k).unbind id with agenda := s.agenda ++ l } := by
  obtain ⟨l, hl, hlen, lowered⟩ := State.lowerHold_line (s := s.retired id) hsec he
  refine ⟨l, hl, hlen, ?_⟩
  unfold State.retireHold
  rw [e]
  dsimp only
  rw [if_neg hf]
  show ((s.retired id).lowerHold h).unbind id = _
  rw [lowered, State.unbind_handed]
  rfl

/-! ### Release (R133 to R136) -/

/-- R134: a record whose timers have been stopped. -/
def stopped (x : Hold) : Hold := { x with timers := noHoldTimers }

theorem retainedHold_stopped (x : Hold) : retainedHold (stopped x) = retainedHold x := rfl

/-- A record that stands: it is not FAILED, nor RELEASING. -/
def Hold.stands (h : Hold) : Prop := h.state = .securing ∨ h.state = .proving ∨ h.state = .earthing ∨ h.state = .active

theorem State.releaseHold_dropping (e : s.hold id = some h) (hs : h.stands) (hu : s.unearthSet h = []) :
    s.releaseHold id = (s.modHold id stopped).dropPhase id := by
  unfold State.releaseHold
  rw [e]
  dsimp only
  have hu' : State.unearthSet (s.modHold id stopped) h = [] := hu
  unfold stopped at hu' ⊢
  obtain h | h | h | h := hs <;> rw [h] <;> dsimp only <;> rw [hu']

theorem State.releaseHold_unearthing (e : s.hold id = some h) (hs : h.stands) {n : SectionNo} {l : List SectionNo}
    (hu : s.unearthSet h = n :: l) : s.releaseHold id = (s.modHold id stopped).beginUnearth id .retire (n :: l) := by
  unfold State.releaseHold
  rw [e]
  dsimp only
  have hu' : State.unearthSet (s.modHold id stopped) h = n :: l := hu
  unfold stopped at hu' ⊢
  obtain h | h | h | h := hs <;> rw [h] <;> dsimp only <;> rw [hu']

theorem State.unearthSet_line (hsec : h.sections = [sectionOf k]) : s.unearthSet h =
    if h.kind = .earth ∧ (s.sec (sectionOf k)).earth = 1 ∧ (s.sec (sectionOf k)).commandedClosed = true then [sectionOf k] else [] := by
  unfold State.unearthSet
  rw [hsec]
  by_cases hk : h.kind = .earth
  · rw [if_pos hk]
    by_cases hc : (s.sec (sectionOf k)).earth = 1 ∧ (s.sec (sectionOf k)).commandedClosed = true
    · rw [if_pos ⟨hk, hc⟩, List.filter_cons_of_pos (by simpa using hc)]
      rfl
    · rw [if_neg (fun x => hc x.2), List.filter_cons_of_neg (by simpa using hc)]
      rfl
  · rw [if_neg hk, if_neg fun x => hk x.1]

theorem State.unearthSet_nothing (hsec : h.sections = [sectionOf k]) (he : s.earthStays h k) : s.unearthSet h = [] := by
  rw [State.unearthSet_line hsec, if_neg]
  rintro ⟨hk, h1, hc⟩
  obtain h | h := he hk
  · rw [h] at hc
    cases hc
  · omega

/-- R136: nothing to drop; the hold is retired. -/
theorem State.dropPhase_unasked (e : s.hold id = some h) (ha : h.asks = []) : s.dropPhase id = s.retireHold id := by
  unfold State.dropPhase
  rw [e]
  dsimp only
  rw [ha]
  rfl

/-- R133, R136, R137: a standing hold of one line section that asks no neighbour is released, and is gone. -/
theorem State.releaseHold_line (e : s.hold id = some h) (hs : h.stands) (hsec : h.sections = [sectionOf k]) (he : s.earthStays h k)
    (ha : h.asks = []) :
    ∃ l, (∀ g ∈ l, g = .judgeWait k) ∧ l.length ≤ 2 ∧
      s.releaseHold id = { (s.retiredOn id h.kind k).unbind id with agenda := s.agenda ++ l } := by
  have hid : h.id = id := State.hold_id e
  have e' : (s.modHold id stopped).hold id = some (stopped h) := State.modHold_hold e hid
  have hf : (stopped h).state ≠ .failed := by
    intro hf
    obtain h | h | h | h := hs <;> exact absurd (h.symm.trans hf) (by decide)
  obtain ⟨l, hl, hlen, retired⟩ := State.retireHold_line (s := s.modHold id stopped) e' hf hsec he
  refine ⟨l, hl, hlen, ?_⟩
  have same : (s.modHold id stopped).retired id = s.retired id := State.retired_again retainedHold_stopped fun _ => rfl
  rw [State.releaseHold_dropping e hs (State.unearthSet_nothing hsec he), State.dropPhase_unasked e' ha, retired]
  unfold State.retiredOn
  rw [same]
  rfl

/-- R104, R105, R107: an earth switch that stands elsewhere is commanded OPEN. -/
theorem State.commandEarth_opens (hc : (s.sec (sectionOf k)).commandedClosed = true) (hpos : s.earthPos k ≠ some .opened) :
    s.commandEarth k false = State.deriveBars (sectionOf k) (s.modSec (sectionOf k) fun r =>
      { r with commandedClosed := false, drive := .opened, mismatchTimer := some 10000 }) := by
  have there : atCommand false (s.earthPos k) = false := by simp [atCommand, hpos]
  unfold State.commandEarth
  dsimp only
  rw [if_neg (by rw [hc]; decide), there]
  rfl

/-- R134, R135: an EARTH hold of one line section, for which alone the switch is commanded CLOSED, has the switch opened first. -/
theorem State.releaseHold_earthed (e : s.hold id = some h) (hs : h.stands) (hsec : h.sections = [sectionOf k]) (hk : h.kind = .earth)
    (h1 : (s.sec (sectionOf k)).earth = 1) (hc : (s.sec (sectionOf k)).commandedClosed = true) (hpos : s.earthPos k ≠ some .opened) :
    s.releaseHold id =
      { (State.deriveBars (sectionOf k) ((s.modHold id fun x => { x with
          state := .releasing, purpose := some .retire, phase := some .earthOpen, unearth := [sectionOf k],
          timers := noHoldTimers }).modSec (sectionOf k) fun r =>
            { r with commandedClosed := false, drive := .opened, mismatchTimer := some 10000 })) with
        agenda := s.agenda ++ [.judgeUnearth id] } := by
  have set : s.unearthSet h = [sectionOf k] := by rw [State.unearthSet_line hsec, if_pos ⟨hk, h1, hc⟩]
  rw [State.releaseHold_unearthing e hs set]
  unfold State.beginUnearth
  dsimp only
  rw [State.modHold_again retainedHold_stopped fun _ => rfl]
  show State.hand (.judgeUnearth id) (State.earthOpenRequest (sectionOf k) _) = _
  unfold State.earthOpenRequest
  rw [feederOf_sectionOf]
  dsimp only
  rw [State.commandEarth_opens (by exact hc) (by exact hpos)]
  rfl

/-- R136: an ask that a DROP follows: it has been sent, and its link is UP. -/
def State.liveAsk (s : State) (a : PeerAsk) : Bool := (a.status == .asked || a.status == .granted) && s.linkUp a.port

/-- R136: the record of a hold that waits for DROPPED of its asks `live`. -/
def Hold.dropping (live : PeerAsk → Bool) (h : Hold) : Hold :=
  { h with
    state := .releasing, purpose := some .retire, phase := some .peerDrop, unearth := []
    asks := h.asks.map fun a => if live a then { a with awaiting := true } else a
    timers := { noHoldTimers with drop := some 5000 } }

theorem State.liveAsk_iff {a : PeerAsk} :
    s.liveAsk a = true ↔ (a.status = .asked ∨ a.status = .granted) ∧ (s.link a.port).state = .up := by
  simp [State.liveAsk, State.linkUp]

theorem State.dropPhase_asked (e : s.hold id = some h) {x : PeerAsk} (ha : h.asks = [x]) (hx : s.liveAsk x = true) :
    s.dropPhase id = (s.queueMessage x.port (.drop id)).modHold id (Hold.dropping s.liveAsk) := by
  have sent : (h.asks.filter fun a => (a.status == .asked || a.status == .granted) && s.linkUp a.port) = [x] := by
    rw [ha]
    exact List.filter_cons_of_pos (p := s.liveAsk) hx
  have waits : (h.asks.any fun a => (a.status == .asked || a.status == .granted) && s.linkUp a.port) = true := by
    rw [ha, List.any_cons, show ((x.status == .asked || x.status == .granted) && s.linkUp x.port) = true from hx, Bool.true_or]
  unfold State.dropPhase
  rw [e]
  dsimp only
  rw [sent, if_pos waits]
  rfl

/-- R136: a standing hold that has asked one neighbour, or been granted by it, sends a DROP and waits for DROPPED. -/
theorem State.releaseHold_asked (e : s.hold id = some h) (hs : h.stands) (hu : s.unearthSet h = []) {x : PeerAsk}
    (ha : h.asks = [x]) (hx : s.liveAsk x = true) :
    s.releaseHold id = (s.queueMessage x.port (.drop id)).modHold id (Hold.dropping s.liveAsk) := by
  have hid : h.id = id := State.hold_id e
  have e' : (s.modHold id stopped).hold id = some (stopped h) := State.modHold_hold e hid
  have live : State.liveAsk (s.modHold id stopped) = s.liveAsk := by
    funext a
    unfold State.liveAsk State.linkUp
    rw [show (s.modHold id stopped).link a.port = s.link a.port by cases a.port <;> rfl]
  have off : OffLink x.port (State.modHold id stopped) := offLink_modHold (fun _ => rfl) (fun _ => rfl) fun _ => rfl
  have sends : (s.modHold id stopped).queueMessage x.port (.drop id) = (s.queueMessage x.port (.drop id)).modHold id stopped :=
    off.queueMessage s _
  rw [State.releaseHold_dropping e hs hu, State.dropPhase_asked e' ha (by rw [live]; exact hx), live, sends,
    State.modHold_again retainedHold_stopped fun _ => rfl]
  rfl

end

/-! ### Placement (R101, R102, R116, R119) -/

section
variable {kind : HoldKind} {tag : Half}

/-- R116: what a placement that asks its neighbour leaves, and hands on. -/
theorem State.placeHold_asked {origin : Origin} {duration : Option Nat} (ho : (peerPort origin).isSome = false) {line : Byte}
    (h : s.share k = some (p, line)) {x : PeerAsk}
    (hx : x = { port := p, line := line, status := if (s.link p).state = .up then .asked else .none, peerId := none, deny := none,
                awaiting := false }) :
    s.placeHold kind origin tag [sectionOf k] duration =
      ((State.raiseCounts kind (sectionOf k)
        (if (s.link p).state = .up then
          (s.withHold (s.lineHold kind origin tag k duration [x])).queueMessage p (.ask (drawId s.ht.holds s.ht.lastId) line kind)
        else s.withHold (s.lineHold kind origin tag k duration [x]))).hand (.judgeHold (drawId s.ht.holds s.ht.lastId)),
        drawId s.ht.holds s.ht.lastId) := by
  subst hx
  unfold State.placeHold
  rw [State.newHold_asked ho h]
  by_cases hu : (s.link p).state = .up
  · rw [if_pos hu, if_pos hu]
    rfl
  · rw [if_neg hu, if_neg hu]
    rfl

/-- R101: the counts of an ISOLATE or EARTH hold on its one line section, with the permission. -/
def State.counted (kind : HoldKind) (k : FeederNo) (s : State) : State :=
  State.deriveBars (sectionOf k) (s.modSec (sectionOf k) fun r =>
    { r with isolate := r.isolate + 1, earth := if kind = .earth then r.earth + 1 else r.earth })

theorem State.raiseCounts_line (hk : kind ≠ .noreclose) (h0 : (s.sec (sectionOf k)).isolate = 0) :
    ∃ l, (∀ g ∈ l, g = .judgeWait k) ∧ l.length ≤ 2 ∧
      s.raiseCounts kind (sectionOf k) = { s.counted kind k with agenda := s.agenda ++ .holdDemand k :: l } := by
  obtain ⟨l, hl, hlen, raised⟩ := State.raiseHold_line (s := s) (k := k) (h := s.lineHold kind .station 0 k none []) rfl hk h0
  refine ⟨l, hl, hlen, ?_⟩
  have same : s.counted kind k = State.deriveBars (sectionOf k) (s.modSec (sectionOf k) (raisedBy kind)) := by
    unfold State.counted
    refine congrArg (State.deriveBars (sectionOf k)) (State.modSec_congr ?_)
    cases kind
    · rfl
    · rfl
    · exact absurd rfl hk
  rw [same]
  exact raised

/-- R65: a hold demand to a feeder that stands open. -/
theorem handle_holdDemand_opened (hq : (s.seq k).state = some .opened ∨ (s.seq k).state = some .lockout)
    (hb : s.breakerPos k = some .opened) : State.handle (.holdDemand k) { s with agenda := [] } = { s with agenda := [] } := by
  show State.seqHoldDemand k { s with agenda := [] } = _
  unfold State.seqHoldDemand
  rw [show State.seq { s with agenda := [] } k = s.seq k from rfl]
  obtain h | h := hq <;> rw [h] <;> exact if_pos hb

/-- R44, R65: the sequencer of feeder k as a hold demand trips it. -/
def State.holdTripped (s : State) (k : FeederNo) (r : Sequencer) : Sequencer :=
  r.tripped (s.demandRecord k .hold) (some (r.openPulse.getD s.store.cfg.tOpenMax))

/-- R65: a feeder in service is tripped by a hold demand. -/
theorem EngineRests.handle_holdDemand (r : EngineRests s k) (h : (s.seq k).state = some .inService)
    (hb : s.breakerPos k ≠ some .opened) :
    State.handle (.holdDemand k) { s with agenda := [] } = { s.modSeq k (s.holdTripped k) with agenda := [.seqChanged k] } := by
  have rests : EngineRests { s with agenda := [] } k := r.congr rfl
  have trip : State.handle (.holdDemand k) { s with agenda := [] } = State.seqTrip k .hold none { s with agenda := [] } := by
    show State.seqHoldDemand k { s with agenda := [] } = _
    unfold State.seqHoldDemand
    rw [show (State.seq { s with agenda := [] } k).state = some .inService from h]
  have tripped : s.modSeq k (fun x => x.tripped (s.demandRecord k .hold) (some ((s.seq k).openPulse.getD s.store.cfg.tOpenMax))) =
      s.modSeq k (s.holdTripped k) := State.modSeq_congr rfl
  rw [trip, rests.seqTrip .hold (some ((s.seq k).openPulse.getD s.store.cfg.tOpenMax)) (.inl h) (if_neg hb).symm]
  refine (if_neg hb).trans ?_
  exact congrArg (fun v : State => { v with agenda := [.seqChanged k] }) tripped

/-- R119: the feeders that a hold on one line section covers. -/
theorem State.covers_line {sections : List SectionNo} (h : sections = [sectionOf k]) (j : FeederNo) :
    s.covers sections j = decide (j = k) := by
  subst h
  unfold State.covers
  have hbus : ([sectionOf k].contains busSection) = false := by simp [(sectionOf_ne_bus k).symm]
  rw [hbus]
  by_cases hj : j = k
  · subst hj
    simp
  · have : sectionOf j ≠ sectionOf k := fun e => hj (sectionOf_inj e)
    simp [hj, this]

/-- R119, R120: a tripping feeder neither secures a hold on its section nor fails it. -/
theorem State.breakers_tripping {h : Hold} (hsec : h.sections = [sectionOf k]) (hk : h.kind ≠ .noreclose)
    (hq : (s.seq k).state = some .tripping) : s.breakersSecured h = false ∧ s.breakerFails h = false := by
  have insecure : s.feederSecured k = false := by simp [State.feederSecured, State.seqIn, hq]
  have sound : s.faultyFeeder k = false := by simp [State.faultyFeeder, State.seqIn, hq]
  constructor
  · unfold State.breakersSecured
    rw [Bool.or_eq_false_iff, Bool.and_eq_false_iff]
    refine ⟨by simpa using hk, .inl ?_⟩
    rw [Bool.eq_false_iff]
    intro all
    have := List.all_eq_true.1 all k (mem_allFeeders k)
    rw [State.covers_line hsec, insecure] at this
    simp at this
  · unfold State.breakerFails
    rw [Bool.and_eq_false_iff]
    refine .inr (List.any_eq_false.2 fun j _ => ?_)
    rw [State.covers_line hsec]
    by_cases hj : j = k
    · subst hj
      simp [sound]
    · simp [hj]

end

/-! ### Placement taken -/

section
variable {kind : HoldKind} {tag : Half} {code : Byte}

theorem handle_seqChanged_over {ids : List Byte} (h : s.securingOver k = ids) :
    State.handle (.seqChanged k) { s with agenda := [] } =
      { State.deriveBars (sectionOf k) s with agenda := ids.map Signal.judgeHold } := by
  subst h
  show State.handAll ((State.securingOver { s with agenda := [] } k).map Signal.judgeHold) _ = _
  rfl

theorem exec_placeHold_line (r : PortOpen s) (htag : tag ≠ 0) (hk : kindOperand code = some kind) (hd : kind ≠ .noreclose)
    (hfit : s.fitted k = true) (hroom : s.ht.holds.length < 24) (hfault : s.faultyFeeder k = false) {l : List Signal} {n : Nat}
    (h : (s.placeHold kind .station tag [sectionOf k] none).1 = { u with agenda := l })
    (c : Carried n (u.resulting 0x30 .accepted (drawId s.ht.holds s.ht.lastId).toNat) l t) (hn : n ≤ 4096) :
    exec (.placeHold code tag 1 [BitVec.ofNat 8 k.val] 0) s = .next t.finish := by
  have operands := kindOperand_durationOperand_line (k := k) htag hk (d := 0) (x := none) (by cases kind <;> first | rfl | exact absurd rfl hd)
  have answer := State.commandPlace_line (s := s) (p := { kind := kind, sections := [sectionOf k], duration := none })
    (tag := tag) rfl hfit hroom hfault
  show execPlaceHold code tag 1 [BitVec.ofNat 8 k.val] 0 s = _
  unfold execPlaceHold
  rw [if_neg (by simp [shortOf])]
  refine event_port_carried r.toPortReady (u := u) ?_ c hn
  rw [State.portAnswer_judged _ r.verified (by simp) (by simp), operands]
  refine answer.trans ?_
  rw [h]

/-- R102, R103: the demand and the waits that a placement over an open feeder hands on change nothing. -/
theorem carried_openPlacement {l : List Signal} (hl : ∀ g ∈ l, g = .judgeWait k)
    (hq : (v.seq k).state = some .opened ∨ (v.seq k).state = some .lockout) (hb : v.breakerPos k = some .opened) {n : Nat}
    (c : Carried n v [.judgeHold id] t) : Carried (n + l.length + 1) v (.holdDemand k :: (l ++ [.judgeHold id])) t := by
  refine .skip (handle_holdDemand_opened hq hb) (Carried.skips (fun g mg => ?_) c)
  rw [hl g mg]
  refine handle_judgeWait_out ?_
  obtain h | h := hq <;> rw [h] <;> decide

theorem State.placeHold_begun (hd : kind ≠ .noreclose) (ha : s.agenda = []) (hi : s.isolated k = false) {w : State}
    (hw : (s.placeHold kind .station tag [sectionOf k] none).1 =
      (w.raiseCounts kind (sectionOf k)).hand (.judgeHold (drawId s.ht.holds s.ht.lastId)))
    (hwa : w.agenda = s.agenda) (hws : w.sections = s.sections) :
    ∃ l, (∀ g ∈ l, g = .judgeWait k) ∧ l.length ≤ 2 ∧
      (s.placeHold kind .station tag [sectionOf k] none).1 =
        { w.counted kind k with agenda := .holdDemand k :: (l ++ [.judgeHold (drawId s.ht.holds s.ht.lastId)]) } := by
  have h0 : (w.sec (sectionOf k)).isolate = 0 := by
    unfold State.sec
    rw [hws]
    unfold State.isolated at hi
    simp only [Bool.or_eq_false_iff, bne_eq_false_iff_eq] at hi
    exact hi.1
  obtain ⟨l, hl, hlen, raised⟩ := State.raiseCounts_line (s := w) hd h0
  refine ⟨l, hl, hlen, ?_⟩
  rw [hw, raised, hwa, ha]
  rfl

variable (r : PortOpen s) (htag : tag ≠ 0) (hk : kindOperand code = some kind) (hd : kind ≠ .noreclose) (hfit : s.fitted k = true)
  (hroom : s.ht.holds.length < 24) (hi : s.isolated k = false)

include r htag hk hd hfit hroom hi

/-- R119, R124: placed over an open feeder of an unshared section: PROVING at once. -/
theorem placeHold_proving (hq : (s.seq k).state = some .opened ∨ (s.seq k).state = some .lockout) (hb : s.breakerPos k = some .opened)
    (hch : (s.channel (chUL k)).state ≠ .failed) (hshare : s.share k = none) :
    exec (.placeHold code tag 1 [BitVec.ofNat 8 k.val] 0) s =
      .next ((((s.resulting 0x30 .accepted (drawId s.ht.holds s.ht.lastId).toNat).withHold
        (s.lineHold kind .station tag k none [])).counted kind k).modHold (drawId s.ht.holds s.ht.lastId) fun x =>
          { x with
            state := .proving
            timers := { noHoldTimers with provingWait := some 2000, provingLimit := some 10000 } }).finish := by
  have hfault : s.faultyFeeder k = false := by obtain h | h := hq <;> simp [State.faultyFeeder, State.seqIn, h]
  obtain ⟨l, hl, hlen, begun⟩ := State.placeHold_begun hd r.quiet hi (w := s.withHold (s.lineHold kind .station tag k none []))
    (congrArg Prod.fst (State.placeHold_unasked (.inl hshare))) rfl rfl
  let v := ((s.resulting 0x30 .accepted (drawId s.ht.holds s.ht.lastId).toNat).withHold
        (s.lineHold kind .station tag k none [])).counted kind k
  have found : v.hold (drawId s.ht.holds s.ht.lastId) = some (s.lineHold kind .station tag k none []) :=
    State.withHold_hold (t := v) hroom [] rfl
  have judged := Carried.step (s := v) (m := []) (l := [])
    (handle_judgeHold_proving (k := k) found rfl hd rfl rfl rfl hq hb hch) (.done 0 _)
  rw [State.quiet_eq (s := v.modHold _ _) (by exact r.quiet)] at judged
  exact exec_placeHold_line r htag hk hd hfit hroom hfault begun (carried_openPlacement (v := v) hl hq hb judged) (by omega)

/-- R116, R119: placed over an open feeder of a shared section: the hold waits for the neighbour. -/
theorem placeHold_asking (hq : (s.seq k).state = some .opened ∨ (s.seq k).state = some .lockout) (hb : s.breakerPos k = some .opened)
    {line : Byte} (hshare : s.share k = some (p, line)) {x : PeerAsk}
    (hx : x = { port := p, line := line, status := if (s.link p).state = .up then .asked else .none, peerId := none, deny := none,
                awaiting := false })
    (hv : v = ((s.resulting 0x30 .accepted (drawId s.ht.holds s.ht.lastId).toNat).withHold
        (s.lineHold kind .station tag k none [x]))) :
    exec (.placeHold code tag 1 [BitVec.ofNat 8 k.val] 0) s =
      .next (State.counted kind k (if (s.link p).state = .up then
        v.queueMessage p (.ask (drawId s.ht.holds s.ht.lastId) line kind) else v)).finish := by
  have hfault : s.faultyFeeder k = false := by obtain h | h := hq <;> simp [State.faultyFeeder, State.seqIn, h]
  let w := s.withHold (s.lineHold kind .station tag k none [x])
  let sent := fun u : State => if (s.link p).state = .up then u.queueMessage p (.ask (drawId s.ht.holds s.ht.lastId) line kind) else u
  have frame (u : State) : (sent u).agenda = u.agenda ∧ (sent u).sections = u.sections ∧ (sent u).ht = u.ht ∧ (sent u).seqs = u.seqs ∧
      (sent u).mi = u.mi := by
    simp only [sent]
    split <;> simp
  obtain ⟨l, hl, hlen, begun⟩ := State.placeHold_begun hd r.quiet hi (w := sent w)
    (congrArg Prod.fst (State.placeHold_asked (by rfl) hshare hx)) (frame w).1 (frame w).2.1
  have recorded : ((sent w).counted kind k).resulting 0x30 .accepted (drawId s.ht.holds s.ht.lastId).toNat = (sent v).counted kind k := by
    have : State.resulting 0x30 .accepted (drawId s.ht.holds s.ht.lastId).toNat (sent w) = sent v := by
      subst hv
      simp only [sent]
      split
      · exact ((offLink_resulting 0x30 .accepted _).queueMessage w _).symm
      · rfl
    rw [← this]
    rfl
  obtain ⟨hagenda, hsections, hht, hseqs, hmi⟩ := frame v
  have hq' : ((State.counted kind k (sent v)).seq k) = s.seq k := by
    show ((sent v).seqs.get k) = _
    rw [hseqs, hv]
    rfl
  have hb' : (State.counted kind k (sent v)).breakerPos k = some .opened := by
    rw [← hb]
    exact State.breakerPos_congr (by show (sent v).mi = _; rw [hmi, hv]; rfl) k
  have found : ((sent v).counted kind k).hold (drawId s.ht.holds s.ht.lastId) = some (s.lineHold kind .station tag k none [x]) :=
    State.withHold_hold hroom [x] (by show (sent v).ht = _; rw [hht, hv]; rfl)
  have fails := (State.breakersSecured_line (s := (sent v).counted kind k) (h := s.lineHold kind .station tag k none [x]) (k := k) rfl
    (by rw [hq']; exact hq) hb').2
  have waits : ((s.lineHold kind .station tag k none [x]).asks.all fun a => a.status == .granted) = false := by
    subst hx
    simp only [State.lineHold, List.all_cons, List.all_nil, Bool.and_true]
    split <;> rfl
  have judged := Carried.skip (handle_judgeHold_asking found rfl fails waits) (.done 0 ((sent v).counted kind k))
  rw [State.quiet_eq (s := (sent v).counted kind k) (by show (sent v).agenda = []; rw [hagenda, hv]; exact r.quiet)] at judged
  refine exec_placeHold_line r htag hk hd hfit hroom hfault begun (n := 0 + 1 + l.length + 1) ?_ (by omega)
  rw [recorded]
  exact carried_openPlacement hl (by rw [hq']; exact hq) hb' judged

/-- R65, R119: placed over a feeder in service of an unshared section: the demand trips it. -/
theorem placeHold_tripping (q : FeederQuiet s k) (hq : (s.seq k).state = some .inService) (hb : s.breakerPos k ≠ some .opened)
    (hshare : s.share k = none) :
    exec (.placeHold code tag 1 [BitVec.ofNat 8 k.val] 0) s =
      .next ((((s.resulting 0x30 .accepted (drawId s.ht.holds s.ht.lastId).toNat).withHold
        (s.lineHold kind .station tag k none [])).counted kind k).entering k (s.holdTripped k)).finish := by
  have hfault : s.faultyFeeder k = false := by simp [State.faultyFeeder, State.seqIn, hq]
  obtain ⟨l, hl, hlen, begun⟩ := State.placeHold_begun hd r.quiet hi (w := s.withHold (s.lineHold kind .station tag k none []))
    (congrArg Prod.fst (State.placeHold_unasked (.inl hshare))) rfl rfl
  let v := ((s.resulting 0x30 .accepted (drawId s.ht.holds s.ht.lastId).toNat).withHold
        (s.lineHold kind .station tag k none [])).counted kind k
  have rests : EngineRests v k := q.toEngineRests.congr rfl
  have tripped : v.holdTripped k = s.holdTripped k := by
    unfold State.holdTripped
    rw [State.demandRecord_congr (t := v) (s := s) .hold rfl rfl rfl rfl]
    rfl
  have securing : (v.modSeq k (s.holdTripped k)).securingOver k = [drawId s.ht.holds s.ht.lastId] := by
    have empty : s.ht.holds.filter (fun h => h.state = .securing && s.covers h.sections k) = [] := List.map_eq_nil_iff.1 q.securing
    show ((s.ht.holds ++ [s.lineHold kind .station tag k none []]).filter
      (fun h => h.state = .securing && s.covers h.sections k)).map Hold.id = _
    rw [List.filter_append, empty, List.filter_cons_of_pos]
    · rfl
    · rw [State.covers_line (k := k) (sections := State.lineHold s kind .station tag k none [] |>.sections) rfl]
      simp [State.lineHold]
  let e := v.entering k (s.holdTripped k)
  have state : (e.seq k).state = some .tripping := by
    show ((v.modSeq k (s.holdTripped k)).seq k).state = _
    rw [State.modSeq_seq]
    rfl
  have found : e.hold (drawId s.ht.holds s.ht.lastId) = some (s.lineHold kind .station tag k none []) :=
    State.withHold_hold (t := e) hroom [] rfl
  obtain ⟨insecure, sound⟩ := State.breakers_tripping (s := e) (h := s.lineHold kind .station tag k none []) (k := k) rfl hd state
  have waiting := handle_judgeHold_waiting found rfl sound insecure
  have c : Carried (0 + 1 + l.length + 1 + 1 + 1) v (.holdDemand k :: (l ++ [.judgeHold (drawId s.ht.holds s.ht.lastId)])) e := by
    refine .step (m := [.seqChanged k]) (rests.handle_holdDemand hq hb) ?_
    rw [tripped]
    refine .step (m := [.judgeHold (drawId s.ht.holds s.ht.lastId)]) (handle_seqChanged_over securing) ?_
    refine .skip waiting (Carried.skips (fun g mg => ?_) ?_)
    · rw [hl g mg]
      exact handle_judgeWait_out fun c => absurd (state.symm.trans c) (by decide)
    · have last := Carried.skip waiting (.done 0 e)
      rwa [State.quiet_eq (s := e) (by exact r.quiet)] at last
  exact exec_placeHold_line r htag hk hd hfit hroom hfault begun c (by omega)

end

/-! ### The commands of a holder, and FORCE RELEASE, taken -/

section
variable {h : Hold} {tag : Half}

theorem waits_carried {l : List Signal} (hl : ∀ g ∈ l, g = .judgeWait k) (hw : (u.seq k).wait = none) (ha : u.agenda = []) :
    Carried (0 + l.length) u l u := by
  have c := Carried.skips (s := u) (m := l) (l := []) (fun g mg => by rw [hl g mg]; exact handle_judgeWait hw) (.done 0 u)
  rwa [List.append_nil, State.quiet_eq ha] at c

/-- A command with a hold ID and a holder tag that its owner accepts. -/
theorem event_holder_taken {row : PortRow} (r : PortOpen s) (hremote : row.remote = false) (hkey : row.supervisor = false) (hid : id ≠ 0)
    (htag : tag ≠ 0) {owner : State → Answer} {l : List Signal} {value n : Nat} (h : owner s = accept { u with agenda := l } value)
    (c : Carried n (u.resulting row.code .accepted value) l t) (hn : n ≤ 4096) :
    event (State.port row none (if holderOperands id tag then some owner else none)) s = .next t.finish := by
  refine event_port_carried r.toPortReady ?_ c hn
  rw [State.portAnswer_judged _ r.verified (by simp [hremote]) (by simp [hkey]), if_pos (holderOperands_iff.2 ⟨hid, htag⟩)]
  exact h

theorem event_holder_quiet {row : PortRow} (r : PortOpen s) (hremote : row.remote = false) (hkey : row.supervisor = false) (hid : id ≠ 0)
    (htag : tag ≠ 0) {owner : State → Answer} {value : Nat} (h : owner s = accept u value) (hu : u.agenda = []) :
    event (State.port row none (if holderOperands id tag then some owner else none)) s =
      .next (u.resulting row.code .accepted value).finish := by
  refine event_port (a := accept u value) r.toPortReady ?_ hu
  rw [State.portAnswer_judged _ r.verified (by simp [hremote]) (by simp [hkey]), if_pos (holderOperands_iff.2 ⟨hid, htag⟩)]
  exact h

variable (r : PortOpen s) (hid : id ≠ 0)

include r hid

theorem exec_forceRelease_taken (hkey : s.sp.supervisorKey = true) {l : List Signal} {n : Nat}
    (hf : s.commandForce id = accept { u with agenda := l } id.toNat) (c : Carried n (u.resulting 0x34 .accepted id.toNat) l t)
    (hn : n ≤ 4096) : exec (.forceRelease id) s = .next t.finish := by
  show execForceRelease id s = _
  unfold execForceRelease
  refine event_port_carried r.toPortReady ?_ c hn
  rw [State.portAnswer_judged _ r.verified (by simp) (fun _ => hkey), if_neg hid]
  exact hf

variable (e : s.hold id = some h)

include e

theorem exec_extendHold_taken (htag : tag ≠ 0) (ho : h.origin = .station) (ht : h.tag = tag) {duration : Half}
    (h1 : 1 ≤ duration.toNat) (h720 : duration.toNat ≤ 720) (hk : h.kind = .noreclose) (hs : h.state = .securing ∨ h.state = .active) :
    exec (.extendHold id tag duration) s = .next ((s.resulting 0x32 .accepted id.toNat).modHold id fun x =>
      { x with remaining := some duration.toNat, timers := { x.timers with minute := some 60000 } }).finish := by
  have answer : s.commandExtend id tag duration.toNat = accept (s.modHold id fun x =>
      { x with remaining := some duration.toNat, timers := { x.timers with minute := some 60000 } }) id.toNat := by
    unfold State.commandExtend
    rw [State.stationHold_own e ho ht, if_neg (by omega)]
    refine if_neg ?_
    rintro (h | ⟨h, h'⟩)
    · exact h hk
    · exact hs.elim h h'
  show execExtendHold id tag duration s = _
  unfold execExtendHold
  have commuted : State.resulting 0x32 .accepted id.toNat (s.modHold id fun x =>
        { x with remaining := some duration.toNat, timers := { x.timers with minute := some 60000 } }) =
      (s.resulting 0x32 .accepted id.toNat).modHold id fun x =>
        { x with remaining := some duration.toNat, timers := { x.timers with minute := some 60000 } } := rfl
  rw [← commuted]
  exact event_holder_quiet (row := { code := 0x32, waits := true }) r rfl rfl hid htag answer r.quiet

theorem exec_dismissHold_taken (htag : tag ≠ 0) (ho : h.origin = .station) (ht : h.tag = tag) (hs : h.state = .failed) :
    exec (.dismissHold id tag) s = .next (((s.resulting 0x33 .accepted id.toNat).retired id).unbind id).finish := by
  have answer : s.commandDismiss id tag = accept ((s.retired id).unbind id) id.toNat := by
    unfold State.commandDismiss
    rw [State.stationHold_own e ho ht]
    refine (if_pos hs).trans ?_
    rw [State.retireHold_failed e hs]
  show execDismissHold id tag s = _
  unfold execDismissHold
  have commuted : State.resulting 0x33 .accepted id.toNat ((s.retired id).unbind id) =
      ((s.resulting 0x33 .accepted id.toNat).retired id).unbind id := rfl
  rw [← commuted]
  exact event_holder_quiet (row := { code := 0x33, waits := true }) r rfl rfl hid htag answer
    ((State.unbind_agenda _ id).trans r.quiet)

theorem exec_releaseHold_taken (htag : tag ≠ 0) (ho : h.origin = .station) (ht : h.tag = tag) (hs : h.stands) {l : List Signal} {n : Nat}
    (hr : s.releaseHold id = { u with agenda := l }) (c : Carried n (u.resulting 0x31 .accepted id.toNat) l t) (hn : n ≤ 4096) :
    exec (.releaseHold id tag) s = .next t.finish := by
  have answer : s.commandRelease id tag = accept { u with agenda := l } id.toNat := by
    unfold State.commandRelease
    rw [State.stationHold_own e ho ht]
    refine (if_neg ?_).trans ?_
    · rintro (h | h)
      · obtain h' | h' | h' | h' := hs <;> exact absurd (h.symm.trans h') (by decide)
      · obtain h' | h' | h' | h' := hs <;> exact absurd (h.symm.trans h') (by decide)
    · rw [hr]
  show execReleaseHold id tag s = _
  unfold execReleaseHold
  exact event_holder_taken r rfl rfl hid htag answer c hn

end

theorem State.commandForce_standing {h : Hold} (e : s.hold id = some h) (hs : h.stands) :
    s.commandForce id = accept ((s.forceUnbind id).releaseHold id) id.toNat := by
  unfold State.commandForce
  rw [e]
  obtain h | h | h | h := hs <;> simp only [h]

theorem State.commandForce_failed {h : Hold} (e : s.hold id = some h) (hs : h.state = .failed) :
    s.commandForce id = accept ((s.forceUnbind id).retireHold id) id.toNat := by
  unfold State.commandForce
  rw [e]
  simp only [hs]

/-- A choice by equivalent conditions. -/
theorem ite_of_iff {α : Type} {c d : Prop} [Decidable c] [Decidable d] (h : c ↔ d) {x y : α} :
    (if c then x else y) = if d then x else y := by simp only [h]

theorem Hold.dropping_liveAsk : Hold.dropping s.liveAsk = fun y => { y with
    state := .releasing, purpose := some .retire, phase := some .peerDrop, unearth := []
    asks := y.asks.map fun a =>
      if (a.status = .asked ∨ a.status = .granted) ∧ (s.link a.port).state = .up then { a with awaiting := true } else a
    timers := { noHoldTimers with drop := some 5000 } } := by
  funext y
  unfold Hold.dropping
  rw [List.map_congr_left (l := y.asks) fun a _ => ite_of_iff State.liveAsk_iff]

/-- R135: the switch of a section to unearth is not OPEN yet. -/
theorem handle_judgeUnearth_waiting {h : Hold} (e : s.hold id = some h) (hu : h.unearth.all s.unearthed = false) :
    State.handle (.judgeUnearth id) { s with agenda := [] } = { s with agenda := [] } := by
  show State.judgeUnearth id { s with agenda := [] } = _
  unfold State.judgeUnearth
  rw [show State.hold { s with agenda := [] } id = some h from e]
  refine if_neg fun c => ?_
  rw [show h.unearth.all (State.unearthed { s with agenda := [] }) = false from hu] at c
  exact absurd c.2 (by decide)

/-- R134, R135: the record of a hold whose section is to be unearthed before it ends. -/
def Hold.unearthingOn (k : FeederNo) (h : Hold) : Hold :=
  { h with state := .releasing, purpose := some .retire, phase := some .earthOpen, unearth := [sectionOf k], timers := noHoldTimers }

/-- R107, R108: the section whose earth switch has been commanded OPEN. -/
def State.earthOpening (k : FeederNo) (s : State) : State :=
  State.deriveBars (sectionOf k) (s.modSec (sectionOf k) fun r =>
    { r with commandedClosed := false, drive := .opened, mismatchTimer := some 10000 })

theorem carried_unearthing {h : Hold} (e : s.hold id = some h) (hpos : s.earthPos k ≠ some .opened) (ha : s.agenda = []) :
    Carried 1 (State.resulting 0x31 .accepted id.toNat (State.earthOpening k (s.modHold id (Hold.unearthingOn k)))) [.judgeUnearth id]
      (State.earthOpening k ((s.resulting 0x31 .accepted id.toNat).modHold id (Hold.unearthingOn k))) := by
  let u := State.earthOpening k ((s.resulting 0x31 .accepted id.toNat).modHold id (Hold.unearthingOn k))
  have hid : h.id = id := State.hold_id e
  have found : u.hold id = some (h.unearthingOn k) := State.modHold_hold (s := s.resulting 0x31 .accepted id.toNat) e hid
  have commanded : (u.sec (sectionOf k)).commandedClosed = false := by
    show ((State.earthOpening k _).sec (sectionOf k)).commandedClosed = false
    unfold State.earthOpening State.deriveBars
    rw [State.modSec_sec, State.modSec_sec]
  have closed : u.unearthed (sectionOf k) = false := by
    unfold State.unearthed
    rw [commanded, feederOf_sectionOf]
    show (false || s.earthPos k == some .opened) = false
    simp [hpos]
  have waiting := Carried.skip (handle_judgeUnearth_waiting found (by simp [Hold.unearthingOn, closed])) (.done 0 u)
  rwa [State.quiet_eq (s := u) ha] at waiting

theorem carried_nothing (ha : u.agenda = []) : Carried 0 u [] u := by
  have c := Carried.done 0 u
  rwa [State.quiet_eq ha] at c

/-! The last command result and the Hold Table do not meet. -/

theorem forEach_modKey (l : List KeyNo) (f : KeyRec → KeyRec) (s : State) : forEach l (fun n s => s.modKey n f) s =
    { s with ht := { s.ht with keys := l.foldl (fun (v : Vector KeyRec 7) (n : KeyNo) => v.set n.val (f (v.get n))) s.ht.keys } } := by
  induction l generalizing s with
  | nil => rfl
  | cons n l ih => exact (ih (s.modKey n f)).trans rfl

section
variable {code : Byte} {result : CmdResult} {value : Nat}

theorem State.unbind_resulting : (s.resulting code result value).unbind id = (s.unbind id).resulting code result value := by
  unfold State.unbind
  rw [forEach_modKey, forEach_modKey]
  rfl

theorem State.forceUnbind_resulting :
    (s.resulting code result value).forceUnbind id = (s.forceUnbind id).resulting code result value := by
  unfold State.forceUnbind
  rw [forEach_modKey, forEach_modKey]
  rfl

theorem State.retired_resulting : (s.resulting code result value).retired id = (s.retired id).resulting code result value := rfl

theorem State.retiredOn_resulting {kind : HoldKind} :
    (s.resulting code result value).retiredOn id kind k = (s.retiredOn id kind k).resulting code result value := rfl

end

theorem State.forceUnbind_hold (i : Byte) : (s.forceUnbind id).hold i = s.hold i := by
  unfold State.forceUnbind
  rw [forEach_modKey]
  rfl

theorem State.forceUnbind_sections : (s.forceUnbind id).sections = s.sections := by
  unfold State.forceUnbind
  rw [forEach_modKey]

theorem State.forceUnbind_agenda : (s.forceUnbind id).agenda = s.agenda := by
  unfold State.forceUnbind
  rw [forEach_modKey]

theorem State.forceUnbind_seqs : (s.forceUnbind id).seqs = s.seqs := by
  unfold State.forceUnbind
  rw [forEach_modKey]

theorem State.retired_agenda : (s.retired id).agenda = s.agenda := rfl
theorem State.retiredOn_agenda {kind : HoldKind} : (s.retiredOn id kind k).agenda = s.agenda := rfl
theorem State.retiredOn_seqs {kind : HoldKind} : (s.retiredOn id kind k).seqs = s.seqs := rfl

theorem exec_forceRelease_failed (r : PortOpen s) (hid : id ≠ 0) (hkey : s.sp.supervisorKey = true) {h : Hold} (e : s.hold id = some h)
    (hs : h.state = .failed) :
    exec (.forceRelease id) s =
      .next ((((s.resulting 0x34 .accepted id.toNat).forceUnbind id).retired id).unbind id).finish := by
  have gone := State.retireHold_failed (s := s.forceUnbind id) ((State.forceUnbind_hold id).trans e) hs
  rw [State.forceUnbind_resulting, State.retired_resulting, State.unbind_resulting]
  generalize hu : ((s.forceUnbind id).retired id).unbind id = u at gone
  have quiet : u.agenda = [] := by
    rw [← hu, State.unbind_agenda, State.retired_agenda, State.forceUnbind_agenda]
    exact r.quiet
  have answer : s.commandForce id = accept { u with agenda := [] } id.toNat := by
    rw [State.commandForce_failed e hs, gone, State.quiet_eq quiet]
  exact exec_forceRelease_taken r hid hkey answer (carried_nothing (u := u.resulting 0x34 .accepted id.toNat) quiet) (by decide)

theorem exec_forceRelease_line (r : PortOpen s) (hid : id ≠ 0) (hkey : s.sp.supervisorKey = true) {h : Hold} (e : s.hold id = some h)
    (hs : h.stands) (hsec : h.sections = [sectionOf k]) (he : s.earthStays h k) (ha : h.asks = []) (hw : (s.seq k).wait = none) :
    exec (.forceRelease id) s =
      .next ((((s.resulting 0x34 .accepted id.toNat).forceUnbind id).retiredOn id h.kind k).unbind id).finish := by
  obtain ⟨l, hl, hlen, freed⟩ := State.releaseHold_line (s := s.forceUnbind id) (k := k) ((State.forceUnbind_hold id).trans e) hs hsec
    (by unfold State.earthStays State.sec; rw [State.forceUnbind_sections]; exact he) ha
  rw [State.forceUnbind_agenda, r.quiet, List.nil_append] at freed
  rw [State.forceUnbind_resulting, State.retiredOn_resulting, State.unbind_resulting]
  generalize hu : ((s.forceUnbind id).retiredOn id h.kind k).unbind id = u at freed
  have quiet : u.agenda = [] := by
    rw [← hu, State.unbind_agenda, State.retiredOn_agenda, State.forceUnbind_agenda]
    exact r.quiet
  have wait : (u.seq k).wait = none := by
    have hq : u.seqs = s.seqs := by
      rw [← hu, State.unbind_seqs, State.retiredOn_seqs, State.forceUnbind_seqs]
    unfold State.seq
    rw [hq]
    exact hw
  have answer : s.commandForce id = accept { u with agenda := l } id.toNat := by rw [State.commandForce_standing e hs, freed]
  exact exec_forceRelease_taken r hid hkey answer (waits_carried (u := u.resulting 0x34 .accepted id.toNat) hl wait quiet) (by omega)

/-- Settles O32: placement by the state of the feeder, and the commands by the state of the record. -/
theorem holdCommandsTaken : Obligations.HoldCommandsTaken := by
  unfold Obligations.HoldCommandsTaken
  refine ⟨fun s k tag code kind r htag hcode hfit hroom hi hsec hch => ?_, fun s id tag h r hid htag e => ?_⟩
  · intro id placed counted begun goes opened
    have hk : kindOperand code = some kind := by obtain ⟨rfl, rfl⟩ | ⟨rfl, rfl⟩ := hcode <;> rfl
    have hd : kind ≠ .noreclose := by obtain ⟨_, rfl⟩ | ⟨_, rfl⟩ := hcode <;> decide
    refine ⟨fun ho hshare => ?_, fun q hq hb hshare => ?_, fun p line ho hshare => ⟨fun hup => ?_, fun hup => ?_⟩⟩
    · exact placeHold_proving r htag hk hd hfit hroom hi ho.1 ho.2 hch hshare
    · exact placeHold_tripping r htag hk hd hfit hroom hi q hq hb hshare
    · have h := placeHold_asking r htag hk hd hfit hroom hi ho.1 ho.2 hshare rfl rfl
      rw [if_pos hup, if_pos hup] at h
      exact h
    · have h := placeHold_asking r htag hk hd hfit hroom hi ho.1 ho.2 hshare rfl rfl
      rw [if_neg hup, if_neg hup] at h
      exact h
  · intro gone lowered released one standing unearthed
    have line (k : FeederNo) (hone : one k) (u : State) (hu : u.seqs = s.seqs) : (u.seq k).wait = none := by
      unfold State.seq
      rw [hu]
      exact hone.2
    refine ⟨fun ho ht => ⟨fun duration h1 h720 hk hs => exec_extendHold_taken r hid e htag ho ht h1 h720 hk hs,
      fun hs => exec_dismissHold_taken r hid e htag ho ht hs, fun k hs hone hun ha => ?_, fun k hs hone hk h1 hc hpos => ?_,
      fun k x hs hone hun ha hx hup => ?_⟩, fun hkey => ⟨fun hs => ?_, fun k hs hone hun ha => ?_⟩⟩
    · obtain ⟨l, hl, hlen, freed⟩ := State.releaseHold_line e hs hone.1 hun ha
      rw [r.quiet, List.nil_append] at freed
      exact exec_releaseHold_taken r hid e htag ho ht hs freed
        (waits_carried (u := State.resulting 0x31 .accepted id.toNat ((s.retiredOn id h.kind k).unbind id)) hl (line k hone _ (State.unbind_seqs _ id))
          ((State.unbind_agenda _ id).trans r.quiet)) (by omega)
    · have freed := State.releaseHold_earthed e hs hone.1 hk h1 hc hpos
      rw [r.quiet, List.nil_append] at freed
      exact exec_releaseHold_taken r hid e htag ho ht hs freed (carried_unearthing e hpos r.quiet) (by omega)
    · have live : s.liveAsk x = true := State.liveAsk_iff.2 ⟨hx, hup⟩
      have freed := State.releaseHold_asked e hs (State.unearthSet_nothing hone.1 hun) ha live
      let u := (s.queueMessage x.port (.drop id)).modHold id (Hold.dropping s.liveAsk)
      have hu : u.agenda = [] := (State.queueMessage_agenda s x.port (.drop id)).trans r.quiet
      have c := carried_nothing (u := u.resulting 0x31 .accepted id.toNat) hu
      have off : OffLink x.port (State.resulting 0x31 .accepted id.toNat) := offLink_resulting _ _ _
      have recorded : u.resulting 0x31 .accepted id.toNat =
          ((s.resulting 0x31 .accepted id.toNat).queueMessage x.port (.drop id)).modHold id (Hold.dropping s.liveAsk) := by
        rw [off.queueMessage]
        rfl
      rw [Hold.dropping_liveAsk] at recorded
      refine (exec_releaseHold_taken r hid e htag ho ht hs (freed.trans (State.quiet_eq hu).symm) c (by decide)).trans ?_
      rw [recorded]
      rfl
    · exact exec_forceRelease_failed r hid hkey e hs
    · exact exec_forceRelease_line r hid hkey e hs hone.1 hun ha hone.2

end Sys2Proof.Machine
end

section
/-! The timers of a hold and of an earth switch (R101, R105, R107, R121, R124 to R127, R130 to R132, R136). -/

namespace Sys2Proof.Machine

open Sys2Proof

variable {s t u v : State} {k : FeederNo} {id : Byte} {h : Hold}

/-! ### What the fall of counts hands on (R103) -/

/-- Handings to feeders that wait. -/
def waitsOnly (l : List Signal) : Prop := ∀ g ∈ l, ∃ k, g = .judgeWait k

theorem waitsOnly_map (l : List FeederNo) : waitsOnly (l.map Signal.judgeWait) := by
  intro g hg
  obtain ⟨k, _, rfl⟩ := List.mem_map.1 hg
  exact ⟨k, rfl⟩

theorem State.countChanged_agenda (n : SectionNo) :
    (s.countChanged n).agenda = s.agenda ++ (concerned n).map Signal.judgeWait := by
  unfold State.countChanged
  cases feederOf n with
  | none => exact congrArg (· ++ (concerned n).map Signal.judgeWait) (State.deriveAllBars_agenda s)
  | some k => rfl

theorem State.commandEarth_opening_agenda : (s.commandEarth k false).agenda = s.agenda := by
  unfold State.commandEarth
  dsimp only
  split <;> rfl

/-- R103: the fall of the counts of one section hands waits on, at most one to each feeder. -/
theorem State.lowerCounts_agenda (kind : HoldKind) (n : SectionNo) :
    ∃ l, waitsOnly l ∧ l.length ≤ 6 ∧ (s.lowerCounts kind n).agenda = s.agenda ++ l := by
  have isolate : (s.lowerIsolate n).agenda = s.agenda ++ (concerned n).map Signal.judgeWait := State.countChanged_agenda n
  obtain rfl | ⟨k, rfl⟩ := sectionOf_or_bus n
  · have bus : feederOf busSection = none := by decide
    cases kind with
    | isolate => exact ⟨_, waitsOnly_map (concerned busSection), by decide, isolate⟩
    | earth =>
      refine ⟨_, waitsOnly_map (concerned busSection), by decide, ?_⟩
      rw [← isolate]
      unfold State.lowerCounts State.lowerEarth
      rw [bus]
    | noreclose =>
      refine ⟨[], by simp [waitsOnly], by decide, ?_⟩
      unfold State.lowerCounts State.lowerNoreclose
      rw [bus, List.append_nil]
  · have line := feederOf_sectionOf k
    cases kind with
    | isolate => exact ⟨_, waitsOnly_map (concerned (sectionOf k)), by simp [concerned_sectionOf], isolate⟩
    | noreclose =>
      refine ⟨_, waitsOnly_map (concerned (sectionOf k)), by simp [concerned_sectionOf], ?_⟩
      unfold State.lowerCounts State.lowerNoreclose
      rw [line]
      exact State.countChanged_agenda _
    | earth =>
      refine ⟨_, waitsOnly_map (concerned (sectionOf k) ++ concerned (sectionOf k)), by simp [concerned_sectionOf], ?_⟩
      have earth (u : State) : (u.lowerEarth (sectionOf k)).agenda = u.agenda ++ (concerned (sectionOf k)).map Signal.judgeWait := by
        unfold State.lowerEarth
        rw [line]
        dsimp only
        split
        · exact State.commandEarth_opening_agenda.trans (State.countChanged_agenda _)
        · exact State.countChanged_agenda _
      show ((s.lowerIsolate (sectionOf k)).lowerEarth (sectionOf k)).agenda = _
      rw [earth, isolate, List.map_append, List.append_assoc]

theorem State.lowerHold_agenda (h : Hold) :
    ∃ l, waitsOnly l ∧ l.length ≤ 6 * h.sections.length ∧ (s.lowerHold h).agenda = s.agenda ++ l := by
  unfold State.lowerHold
  induction h.sections generalizing s with
  | nil => exact ⟨[], by simp [waitsOnly], by simp, by rw [List.append_nil]; rfl⟩
  | cons n sections ih =>
    obtain ⟨l, hl, hlen, e⟩ := State.lowerCounts_agenda (s := s) h.kind n
    obtain ⟨l', hl', hlen', e'⟩ := ih (s := s.lowerCounts h.kind n)
    refine ⟨l ++ l', fun g hg => (List.mem_append.1 hg).elim (hl g) (hl' g), ?_, ?_⟩
    · rw [List.length_append, List.length_cons]
      omega
    · refine e'.trans ?_
      rw [e, List.append_assoc]

/-- R57, R103: an event whose first effect hands on nothing but waits, while no feeder waits. -/
theorem event_waitsOnly {f : State → State} (hrun : s.resetHeld = false) (hf : f s = u) (hw : ∀ k, (u.seq k).wait = none)
    (hl : waitsOnly u.agenda) (hn : u.agenda.length ≤ 4096) : event f s = .next (State.finish { u with agenda := [] }) := by
  have c := Carried.skips (s := u) (m := u.agenda) (l := []) (fun g mg => by
    obtain ⟨k, rfl⟩ := hl g mg
    exact handle_judgeWait (hw k)) (.done 0 u)
  rw [List.append_nil] at c
  exact event_carried_next hrun hf c (by omega)

/-! ### The fall of counts, section by section (R101, R105) -/

theorem feederOf_isSome {n : SectionNo} : (feederOf n).isSome = true ↔ n ≠ busSection := by revert n; decide

theorem State.standsOpen_iff {n : SectionNo} : s.standsOpen n = true ↔ ∃ k, n = sectionOf k ∧ s.earthPos k = some .opened := by
  unfold State.standsOpen
  obtain rfl | ⟨k, rfl⟩ := sectionOf_or_bus n
  · have bus : feederOf busSection = none := by decide
    rw [bus]
    constructor
    · intro h; cases h
    · rintro ⟨k, hk, _⟩
      exact absurd hk.symm (sectionOf_ne_bus k)
  · rw [feederOf_sectionOf]
    constructor
    · intro h
      exact ⟨k, rfl, by simpa using h⟩
    · rintro ⟨j, hj, hpos⟩
      rw [sectionOf_inj hj]
      simpa using hpos

/-- R105: the last EARTH hold of a line section goes, and its switch is commanded CLOSED. -/
def endsEarth (kind : HoldKind) (line : Bool) (r : SectionRec) : Prop :=
  line = true ∧ kind = .earth ∧ r.earth ≤ 1 ∧ r.commandedClosed = true

/-- R101: the counts after a hold of a kind has gone. -/
theorem loweredIn_counts (kind : HoldKind) (line stands : Bool) (r : SectionRec) :
    (loweredIn kind line stands r).isolate = (if kind ≠ .noreclose then r.isolate - 1 else r.isolate) ∧
    (loweredIn kind line stands r).earth = (if line = true ∧ kind = .earth then r.earth - 1 else r.earth) ∧
    (loweredIn kind line stands r).noreclose = (if line = true ∧ kind = .noreclose then r.noreclose - 1 else r.noreclose) := by
  unfold loweredIn
  cases kind <;> cases line
  case earth.true => dsimp only; split <;> simp
  all_goals simp

/-- R105: the earth switch after it has gone. -/
theorem loweredIn_switch (kind : HoldKind) (line stands : Bool) (r : SectionRec) :
    (endsEarth kind line r → (loweredIn kind line stands r).commandedClosed = false ∧
      (loweredIn kind line stands r).drive = (if stands = true then .none else .opened) ∧
      (loweredIn kind line stands r).mismatchTimer = (if stands = true then none else some 10000)) ∧
    (¬ endsEarth kind line r → (loweredIn kind line stands r).commandedClosed = r.commandedClosed ∧
      (loweredIn kind line stands r).drive = r.drive ∧ (loweredIn kind line stands r).mismatchTimer = r.mismatchTimer) := by
  constructor
  · rintro ⟨rfl, rfl, h⟩
    unfold loweredIn
    dsimp only
    rw [if_pos h]
    exact ⟨rfl, rfl, rfl⟩
  · intro h
    unfold loweredIn
    cases kind <;> cases line <;> dsimp only
    case earth.true => rw [if_neg fun c => h ⟨rfl, rfl, c⟩]; exact ⟨rfl, rfl, rfl⟩
    all_goals exact ⟨rfl, rfl, rfl⟩

/-- R101: what no count touches. -/
theorem loweredIn_others (kind : HoldKind) (line stands : Bool) (r : SectionRec) :
    (loweredIn kind line stands r).neighbour = r.neighbour ∧ (loweredIn kind line stands r).energisation = r.energisation ∧
    (loweredIn kind line stands r).deadRun = r.deadRun ∧ (loweredIn kind line stands r).feed = r.feed ∧
    (loweredIn kind line stands r).mismatch = r.mismatch ∧ (loweredIn kind line stands r).wanted = r.wanted := by
  unfold loweredIn
  cases kind <;> cases line
  case earth.true => dsimp only; split <;> exact ⟨rfl, rfl, rfl, rfl, rfl, rfl⟩
  all_goals exact ⟨rfl, rfl, rfl, rfl, rfl, rfl⟩

/-! ### The timers of a hold -/

/-- A pulse commutes with a change that leaves the clock of verification and how the point is judged. -/
theorem State.pulse_modHold (p : PointNo) (f : Hold → Hold) : (s.modHold id f).pulse p = (s.pulse p).modHold id f := by
  have masked : (s.modHold id f).masked p = s.masked p := rfl
  have verifying : (s.modHold id f).verifying = s.verifying := rfl
  have judged : (s.modHold id f).pointClass p = s.pointClass p := rfl
  have record : (s.modHold id f).point p = s.point p := rfl
  have now : (s.modHold id f).stamp = s.stamp := rfl
  have au : ((s.modHold id f).pulse p).au = (s.pulse p).au := by
    unfold State.pulse
    dsimp only
    rw [masked, verifying, judged, record, now]
    repeat' split
    all_goals rfl
  rw [State.pulse_eq (s.modHold id f), State.pulse_eq s, au]
  rfl

/-- R131: a hold on its way to ACTIVE that asks no neighbour and answers none fails. -/
theorem State.failHold_unasked (e : s.hold id = some h) (hc : caughtInFlight h = true) (ho : peerPort h.origin = none) (ha : h.asks = [])
    (reason : FailReason) : s.failHold id reason = ((s.modHold id (failedHold reason)).lowerHold h).pulse 57 := by
  unfold State.failHold State.dropAsks
  rw [e]
  dsimp only
  rw [if_pos hc, ho, ha]
  rfl

theorem event_holdTimer {timer : HoldTimers → Option Nat} {f : Hold → State → State} (hrun : s.resetHeld = false)
    (e : s.hold id = some h) (ht : timer h.timers ≠ none) (hf : f h s = u) (hw : ∀ k, (u.seq k).wait = none) (hl : waitsOnly u.agenda)
    (hn : u.agenda.length ≤ 4096) : event (State.holdTimer id timer f) s = .next (State.finish { u with agenda := [] }) := by
  refine event_waitsOnly hrun ?_ hw hl hn
  unfold State.holdTimer
  rw [e]
  exact (if_pos (Option.isSome_iff_ne_none.2 ht)).trans hf

theorem event_holdTimer_quiet {timer : HoldTimers → Option Nat} {f : Hold → State → State} (hrun : s.resetHeld = false)
    (e : s.hold id = some h) (ht : timer h.timers ≠ none) (hf : f h s = u) (hu : u.agenda = []) :
    event (State.holdTimer id timer f) s = .next u.finish := by
  refine event_quiet_next hrun ?_ hu
  unfold State.holdTimer
  rw [e]
  exact (if_pos (Option.isSome_iff_ne_none.2 ht)).trans hf

/-- R131: what a failure at the end of a timer hands on reaches no feeder. -/
theorem event_holdTimer_fails {timer : HoldTimers → Option Nat} {f : Hold → State → State} {x : Hold} (r : Ready s)
    (hw : ∀ k, (s.seq k).wait = none) (e : s.hold id = some h) (ht : timer h.timers ≠ none) (hlen : x.sections.length ≤ 7)
    (hs : u.seqs = s.seqs) (hu : u.agenda = []) {reason : FailReason}
    (hf : f h s = ((u.modHold id (failedHold reason)).lowerHold x).pulse 57) :
    event (State.holdTimer id timer f) s =
      .next (State.finish { ((u.modHold id (failedHold reason)).lowerHold x).pulse 57 with agenda := [] }) := by
  obtain ⟨l, hl, hlen', agenda⟩ := State.lowerHold_agenda (s := u.modHold id (failedHold reason)) x
  have agenda' : (((u.modHold id (failedHold reason)).lowerHold x).pulse 57).agenda = l := by
    rw [State.pulse_agenda, agenda, show (u.modHold id (failedHold reason)).agenda = [] from hu, List.nil_append]
  refine event_holdTimer r.running e ht hf (fun k => ?_) (by rw [agenda']; exact hl) (by rw [agenda']; omega)
  unfold State.seq
  rw [State.pulse_seqs, State.lowerHold_seqs, show (u.modHold id (failedHold reason)).seqs = s.seqs from hs]
  exact hw k

/-! ### The proving wait (R124, R126) -/

/-- R124: the record of a hold whose proving wait has ended. -/
def waited (x : Hold) : Hold := { x with timers := { x.timers with provingWait := none } }

theorem retainedHold_waited (x : Hold) : retainedHold (waited x) = retainedHold x := rfl

section
variable (e : s.hold id = some h) (hs : h.state = .proving)

include e hs

theorem State.judgeProof_waited : (s.modHold id waited).judgeProof id =
    if s.provedDead h = true then
      if h.kind = .earth then (s.modHold id waited).enterEarthing id else s.modHold id activeHold
    else s.modHold id waited := by
  have hid : h.id = id := State.hold_id e
  have e' : (s.modHold id waited).hold id = some (waited h) := State.modHold_hold e hid
  unfold State.judgeProof
  rw [e']
  dsimp only
  by_cases hd : s.provedDead h = true
  · rw [if_pos ⟨hs, rfl, hd⟩, if_pos hd]
    by_cases hk : h.kind = .earth
    · rw [if_pos hk]
      exact if_pos hk
    · rw [if_neg hk]
      refine (if_neg hk).trans ?_
      rw [State.modHold_again retainedHold_waited fun _ => rfl]
      rfl
  · rw [if_neg hd, if_neg fun c => hd c.2.2]

end

/-- R126: the record of a hold that enters EARTHING. -/
def earthingHold (x : Hold) : Hold :=
  { x with
    state := .earthing, purpose := none, phase := none, unearth := []
    timers := { noHoldTimers with earthing := some 10000 } }

theorem State.enterEarthing_eq {x : Hold} (e : (s.modHold id earthingHold).hold id = some x) : s.enterEarthing id =
    if ((s.modHold id earthingHold).requestEarths x.sections).2 then
      ((s.modHold id earthingHold).requestEarths x.sections).1.judgeEarthing id
    else ((s.modHold id earthingHold).requestEarths x.sections).1.failHold id .breaker := by
  unfold State.enterEarthing
  unfold earthingHold at e ⊢
  dsimp only at e ⊢
  rw [e]

theorem State.enterEarthing_waited (e : s.hold id = some h) : (s.modHold id waited).enterEarthing id =
    if ((s.modHold id earthingHold).requestEarths h.sections).2 then
      ((s.modHold id earthingHold).requestEarths h.sections).1.judgeEarthing id
    else ((s.modHold id earthingHold).requestEarths h.sections).1.failHold id .breaker := by
  have hid : h.id = id := State.hold_id e
  have e' : (s.modHold id earthingHold).hold id = some (earthingHold h) := State.modHold_hold e hid
  have same : (s.modHold id waited).modHold id earthingHold = s.modHold id earthingHold :=
    State.modHold_again retainedHold_waited (fun _ => rfl) _
  rw [State.enterEarthing_eq (x := earthingHold h) (by rw [same]; exact e'), same]
  rfl

/-- R104, R126: the earth close request of one line section whose switch is not commanded CLOSED. -/
theorem State.requestEarths_line (hc : (s.sec (sectionOf k)).commandedClosed = false) (hfit : s.fitted k = true) :
    s.requestEarths [sectionOf k] =
      if s.breakerPos k = some .opened ∧ (s.sec (sectionOf k)).earth ≠ 0 then (s.commandEarth k true, true) else (s, false) := by
  unfold State.requestEarths
  rw [if_neg (by simp [hc]), feederOf_sectionOf]
  unfold State.earthAnswer
  rw [feederOf_sectionOf]
  dsimp only
  rw [if_neg (by simp [hfit])]
  by_cases h0 : (s.sec (sectionOf k)).earth = 0
  · rw [if_pos h0, if_neg fun c => c.2 h0]
  · rw [if_neg h0]
    by_cases hb : s.breakerPos k = some .opened
    · rw [if_neg (by simp [hb]), if_pos ⟨hb, h0⟩]
      rfl
    · rw [if_pos hb, if_neg fun c => hb c.1]

/-- R104, R107, R108: the section whose earth switch has been commanded CLOSED. -/
def State.earthClosing (k : FeederNo) (s : State) : State :=
  State.deriveBars (sectionOf k) (s.modSec (sectionOf k) fun r =>
    { r with
      commandedClosed := true
      drive := if s.earthPos k = some .closed then .none else .close
      mismatchTimer := if s.earthPos k = some .closed then none else some 10000 })

theorem State.earthClosing_moving (hpos : s.earthPos k ≠ some .closed) : s.earthClosing k =
    State.deriveBars (sectionOf k) (s.modSec (sectionOf k) fun r =>
      { r with commandedClosed := true, drive := .close, mismatchTimer := some 10000 }) :=
  congrArg (State.deriveBars (sectionOf k)) (State.modSec_congr (by simp only [if_neg hpos]))

theorem State.earthClosing_standing (hpos : s.earthPos k = some .closed) : s.earthClosing k =
    State.deriveBars (sectionOf k) (s.modSec (sectionOf k) fun r =>
      { r with commandedClosed := true, drive := .none, mismatchTimer := none }) :=
  congrArg (State.deriveBars (sectionOf k)) (State.modSec_congr (by simp only [if_pos hpos]))

/-- R104, R107: an earth switch is commanded CLOSED, and no hold waits for it to open. -/
theorem State.commandEarth_closes (hc : (s.sec (sectionOf k)).commandedClosed = false) (hu : s.unearthing (sectionOf k) = [])
    (ha : s.agenda = []) :
    s.commandEarth k true = s.earthClosing k := by
  have there : (atCommand true (s.earthPos k) = true) = (s.earthPos k = some .closed) := by simp [atCommand]
  unfold State.commandEarth
  dsimp only
  rw [if_neg (by rw [hc]; decide)]
  simp only [there, if_true]
  show State.handAll ((s.unearthing (sectionOf k)).map Signal.judgeUnearth) _ = _
  rw [hu, List.map_nil]
  show ({ State.deriveBars (sectionOf k) (s.modSec (sectionOf k) _) with agenda := s.agenda ++ [] } : State) = _
  rw [ha]
  exact State.quiet_eq (s := State.deriveBars (sectionOf k) (s.modSec (sectionOf k) _)) ha

section
variable (e : s.hold id = some h) (hsec : h.sections = [sectionOf k]) (hfit : s.fitted k = true)
  (hc : (s.sec (sectionOf k)).commandedClosed = false)

include e hsec hfit hc

/-- R126: the earth close request is granted, and the switch moves, or stands there already. -/
theorem State.enterEarthing_granted (ha : s.agenda = []) (hu : s.unearthing (sectionOf k) = [])
    (hb : s.breakerPos k = some .opened) (h0 : (s.sec (sectionOf k)).earth ≠ 0) :
    (s.modHold id waited).enterEarthing id =
      if s.earthPos k = some .closed then ((s.modHold id earthingHold).earthClosing k).modHold id activeHold
      else (s.modHold id earthingHold).earthClosing k := by
  let u := (s.modHold id earthingHold).earthClosing k
  have hid : h.id = id := State.hold_id e
  have none : (s.modHold id earthingHold).unearthing (sectionOf k) = [] := by
    have still : s.ht.holds.filter (fun x => x.phase == some .earthOpen && x.sections.contains (sectionOf k)) = [] :=
      List.map_eq_nil_iff.1 hu
    have gone : (s.ht.holds.map fun x => if x.id = id then earthingHold x else x).filter
        (fun x => x.phase == some .earthOpen && x.sections.contains (sectionOf k)) = [] := by
      rw [List.filter_eq_nil_iff] at still ⊢
      intro y hy
      obtain ⟨x, hx, rfl⟩ := List.mem_map.1 hy
      split
      · simp [earthingHold]
      · exact still x hx
    show ((s.ht.holds.map fun x => if x.id = id then earthingHold x else x).filter _).map Hold.id = []
    rw [gone]
    rfl
  have closes : (s.modHold id earthingHold).commandEarth k true = u := State.commandEarth_closes hc none ha
  have requested : (s.modHold id earthingHold).requestEarths h.sections = (u, true) := by
    rw [hsec, State.requestEarths_line (s := s.modHold id earthingHold) hc hfit, if_pos ⟨hb, h0⟩, closes]
  have found : u.hold id = some (earthingHold h) := State.modHold_hold e hid
  rw [State.enterEarthing_waited e, requested]
  show u.judgeEarthing id = _
  unfold State.judgeEarthing
  rw [found]
  have all : u.allEarthed (earthingHold h) = true ↔ s.earthPos k = some .closed := by
    unfold State.allEarthed
    rw [show (earthingHold h).sections = [sectionOf k] from hsec, List.all_cons, feederOf_sectionOf]
    dsimp only
    rw [List.all_nil, Bool.and_true, beq_iff_eq]
    rfl
  refine ite_of_iff ?_
  rw [all]
  exact and_iff_right rfl

/-- R126: the earth close request is refused, and the hold fails. -/
theorem State.enterEarthing_refused (ho : peerPort h.origin = none) (ha : h.asks = [])
    (hb : s.breakerPos k ≠ some .opened ∨ (s.sec (sectionOf k)).earth = 0) :
    (s.modHold id waited).enterEarthing id =
      (((s.modHold id earthingHold).modHold id (failedHold .breaker)).lowerHold h).pulse 57 := by
  have hid : h.id = id := State.hold_id e
  have found : (s.modHold id earthingHold).hold id = some (earthingHold h) := State.modHold_hold e hid
  have requested : (s.modHold id earthingHold).requestEarths h.sections = (s.modHold id earthingHold, false) := by
    rw [hsec, State.requestEarths_line (s := s.modHold id earthingHold) hc hfit, if_neg]
    rintro ⟨h1, h2⟩
    exact hb.elim (fun c => c h1) fun c => h2 c
  rw [State.enterEarthing_waited e, requested]
  exact State.failHold_unasked found rfl ho ha .breaker

end

/-! ### The minute timer (R130) -/

/-- R130: the record of a hold whose last minute has run out. -/
def lapsed (x : Hold) : Hold := { x with remaining := some 0, timers := { x.timers with minute := none } }

theorem State.minuteEnds_last (hr : h.remaining = some 1) : s.minuteEnds id h = ((s.modHold id lapsed).pulse 58).releaseHold id := by
  unfold State.minuteEnds
  dsimp only
  rw [if_pos (by simp [hr])]
  rfl

theorem State.minuteEnds_more {n : Nat} (hr : h.remaining = some (n + 2)) : s.minuteEnds id h =
    s.modHold id fun x => { x with remaining := some (n + 1), timers := { x.timers with minute := some 60000 } } := by
  unfold State.minuteEnds
  dsimp only
  rw [if_neg (by simp [hr]), hr]
  rfl

/-- R136, R137: the drop limit ends the wait, and the hold is retired. -/
theorem event_holdTimer_retires {timer : HoldTimers → Option Nat} (r : Ready s) (hw : ∀ k, (s.seq k).wait = none) (e : s.hold id = some h)
    (ht : timer h.timers ≠ none) (hlen : h.sections.length ≤ 7) (hs : h.state ≠ .failed) :
    event (State.holdTimer id timer fun _ s => s.retireHold id) s =
      .next (State.finish { ((s.retired id).lowerHold h).unbind id with agenda := [] }) := by
  obtain ⟨l, hl, hlen', agenda⟩ := State.lowerHold_agenda (s := s.retired id) h
  have agenda' : (((s.retired id).lowerHold h).unbind id).agenda = l := by
    rw [State.unbind_agenda, agenda, State.retired_agenda, r.quiet, List.nil_append]
  have retires : s.retireHold id = ((s.retired id).lowerHold h).unbind id := by
    unfold State.retireHold
    rw [e]
    dsimp only
    rw [if_neg hs]
    rfl
  refine event_holdTimer r.running e ht retires (fun k => ?_) (by rw [agenda']; exact hl) (by rw [agenda']; omega)
  unfold State.seq
  rw [State.unbind_seqs, State.lowerHold_seqs]
  exact hw k

/-- R130, R133: the last minute of a NORECLOSE hold on one line section ends it. -/
theorem event_minute_last {timer : HoldTimers → Option Nat} (r : Ready s) (hw : ∀ k, (s.seq k).wait = none) (e : s.hold id = some h)
    (ht : timer h.timers ≠ none) (hr : h.remaining = some 1) (hk : h.kind = .noreclose) (hs : h.state = .active)
    (hsec : h.sections = [sectionOf k]) (ha : h.asks = []) :
    event (State.holdTimer id timer fun h s => s.minuteEnds id h) s =
      .next ((((s.pulse 58).modHold id lapsed).retiredOn id .noreclose k).unbind id).finish := by
  have hid : h.id = id := State.hold_id e
  have e' : ((s.pulse 58).modHold id lapsed).hold id = some (lapsed h) :=
    State.modHold_hold ((State.hold_congr (State.pulse_ht s 58) id).trans e) hid
  obtain ⟨l, hl, hlen, freed⟩ := State.releaseHold_line e' (.inr (.inr (.inr hs))) hsec
    (fun c => absurd (hk.symm.trans c) (by decide)) ha
  rw [show (lapsed h).kind = .noreclose from hk] at freed
  have lapses := State.minuteEnds_last (s := s) (id := id) hr
  rw [State.pulse_modHold, freed, State.modHold_agenda, State.pulse_agenda, r.quiet, List.nil_append] at lapses
  generalize hu : (((s.pulse 58).modHold id lapsed).retiredOn id .noreclose k).unbind id = u at lapses
  have quiet : u.agenda = [] := by
    rw [← hu, State.unbind_agenda, State.retiredOn_agenda, State.modHold_agenda, State.pulse_agenda, r.quiet]
  have seqs : u.seqs = s.seqs := by
    rw [← hu, State.unbind_seqs, State.retiredOn_seqs, State.modHold_seqs, State.pulse_seqs]
  have waits : (fun h s => State.minuteEnds id h s) h s = { u with agenda := l } := lapses
  rw [event_holdTimer r.running e ht waits (fun j => by unfold State.seq; rw [seqs]; exact hw j)
    (fun g mg => ⟨k, hl g mg⟩) (by show l.length ≤ 4096; omega), State.quiet_eq quiet]

/-- Settles O54: the counts section by section, and each timer. -/
theorem holdTimersExpire : Obligations.HoldTimersExpire := by
  unfold Obligations.HoldTimersExpire
  refine ⟨fun s k r ht => ?_, fun s h hn => ?_, fun s id h r hw e horigin ha hlen => ?_⟩
  · show execEarthMismatchTimerExpiry k s = _
    unfold execEarthMismatchTimerExpiry
    exact event_quiet_next r.running (if_pos (Option.isSome_iff_ne_none.2 ht)) r.quiet
  · intro t
    have down := lowerHold_down s h hn
    refine ⟨?_, fun n => ?_⟩
    · obtain ⟨v, l, ht⟩ := down.frame
      intro p m
      show Same p s (s.lowerHold h)
      rw [ht]
      cases p <;> first | exact absurd m (by decide) | simp [Same]
    · intro r ends there
      have sec := down.sec n
      obtain ⟨isolate, earth, noreclose⟩ := loweredIn_counts h.kind (feederOf n).isSome (s.standsOpen n) (s.sec n)
      obtain ⟨switched, still⟩ := loweredIn_switch h.kind (feederOf n).isSome (s.standsOpen n) (s.sec n)
      obtain ⟨neighbour, energisation, deadRun, feed, mismatch, wanted⟩ :=
        loweredIn_others h.kind (feederOf n).isSome (s.standsOpen n) (s.sec n)
      have bars : n ∈ h.sections → n ≠ busSection → (t.sec n).bars = t.barsOf n := fun hmem hbus => down.bars n hmem (.inr hbus)
      by_cases hmem : n ∈ h.sections
      · rw [if_pos hmem] at sec
        have hends : ends ↔ endsEarth h.kind (feederOf n).isSome (s.sec n) := by
          show (n ∈ h.sections ∧ n ≠ busSection ∧ _) ↔ (_ ∧ _)
          rw [feederOf_isSome]
          exact and_iff_right hmem
        refine ⟨(congrArg SectionRec.isolate sec).trans (isolate.trans ?_), (congrArg SectionRec.earth sec).trans (earth.trans ?_),
          (congrArg SectionRec.noreclose sec).trans (noreclose.trans ?_), fun hend => ?_, fun hend => ?_,
          (congrArg SectionRec.neighbour sec).trans neighbour, (congrArg SectionRec.energisation sec).trans energisation,
          (congrArg SectionRec.deadRun sec).trans deadRun, (congrArg SectionRec.feed sec).trans feed,
          (congrArg SectionRec.mismatch sec).trans mismatch, (congrArg SectionRec.wanted sec).trans wanted, bars⟩
        · exact ite_of_iff (and_iff_right hmem).symm
        · exact ite_of_iff ((and_congr_left' feederOf_isSome).trans (and_iff_right hmem).symm)
        · exact ite_of_iff ((and_congr_left' feederOf_isSome).trans (and_iff_right hmem).symm)
        · obtain ⟨commanded, drive, timer⟩ := switched (hends.1 hend)
          refine ⟨(congrArg SectionRec.commandedClosed sec).trans commanded, fun hthere => ?_, fun hthere => ?_⟩
          · rw [if_pos (State.standsOpen_iff.2 hthere)] at drive timer
            exact ⟨(congrArg SectionRec.drive sec).trans drive, (congrArg SectionRec.mismatchTimer sec).trans timer⟩
          · rw [if_neg (mt State.standsOpen_iff.1 hthere)] at drive timer
            exact ⟨(congrArg SectionRec.drive sec).trans drive, (congrArg SectionRec.mismatchTimer sec).trans timer⟩
        · obtain ⟨commanded, drive, timer⟩ := still (mt hends.2 hend)
          exact ⟨(congrArg SectionRec.commandedClosed sec).trans commanded, (congrArg SectionRec.drive sec).trans drive,
            (congrArg SectionRec.mismatchTimer sec).trans timer⟩
      · rw [if_neg hmem] at sec
        exact ⟨(congrArg SectionRec.isolate sec).trans (if_neg fun c => hmem c.1).symm,
          (congrArg SectionRec.earth sec).trans (if_neg fun c => hmem c.1).symm,
          (congrArg SectionRec.noreclose sec).trans (if_neg fun c => hmem c.1).symm, fun hend => absurd hend.1 hmem,
          fun _ => ⟨(congrArg SectionRec.commandedClosed sec).trans rfl, (congrArg SectionRec.drive sec).trans rfl,
            (congrArg SectionRec.mismatchTimer sec).trans rfl⟩,
          (congrArg SectionRec.neighbour sec).trans rfl, (congrArg SectionRec.energisation sec).trans rfl,
          (congrArg SectionRec.deadRun sec).trans rfl, (congrArg SectionRec.feed sec).trans rfl,
          (congrArg SectionRec.mismatch sec).trans rfl, (congrArg SectionRec.wanted sec).trans rfl, bars⟩
  · intro gone quiet failing earthing active
    have ho : peerPort h.origin = none := by obtain h | h := horigin <;> rw [h] <;> rfl
    have unasked {reason : FailReason} (hs : caughtInFlight h = true) := State.failHold_unasked e hs ho ha reason
    refine ⟨fun ht hs => ?_, fun ht hs => ?_, fun ht hs => ?_, fun ht hs => ⟨fun hd => ?_, fun hd hk => ?_,
      fun k hd hk hsec hfit hc hu => ⟨fun hb h0 => ⟨fun hpos => ?_, fun hpos => ?_⟩, fun hb => ?_⟩⟩, fun ht hs => ?_, fun ht hs => ?_,
      fun ht => ⟨fun n hn => ?_, fun k hr hk hs hsec => ?_⟩⟩
    · have timeout : s.limitReason h = .timeout := by simp [State.limitReason, ha]
      show execSecuringLimitExpiry id s = _
      unfold execSecuringLimitExpiry
      exact event_holdTimer_fails r hw e ht hlen rfl r.quiet (by rw [timeout]; exact unasked (by simp [caughtInFlight, hs]))
    · show execProvingLimitExpiry id s = _
      unfold execProvingLimitExpiry
      exact event_holdTimer_fails r hw e ht hlen rfl r.quiet (unasked (by simp [caughtInFlight, hs]))
    · show execEarthingLimitExpiry id s = _
      unfold execEarthingLimitExpiry
      exact event_holdTimer_fails r hw e ht hlen rfl r.quiet (unasked (by simp [caughtInFlight, hs]))
    · show execProvingWaitExpiry id s = _
      unfold execProvingWaitExpiry
      exact event_holdTimer_quiet r.running e ht ((State.judgeProof_waited e hs).trans (if_neg (by simp [hd]))) r.quiet
    · show execProvingWaitExpiry id s = _
      unfold execProvingWaitExpiry
      exact event_holdTimer_quiet r.running e ht ((State.judgeProof_waited e hs).trans ((if_pos hd).trans (if_neg (by simp [hk])))) r.quiet
    · have granted := State.enterEarthing_granted e hsec hfit hc r.quiet hu hb h0
      rw [if_neg hpos, State.earthClosing_moving (s := s.modHold id earthingHold) hpos] at granted
      show execProvingWaitExpiry id s = _
      unfold execProvingWaitExpiry
      exact event_holdTimer_quiet r.running e ht
        ((State.judgeProof_waited e hs).trans ((if_pos hd).trans ((if_pos hk).trans granted))) r.quiet
    · have granted := State.enterEarthing_granted e hsec hfit hc r.quiet hu hb h0
      rw [if_pos hpos, State.earthClosing_standing (s := s.modHold id earthingHold) hpos] at granted
      show execProvingWaitExpiry id s = _
      unfold execProvingWaitExpiry
      exact event_holdTimer_quiet r.running e ht
        ((State.judgeProof_waited e hs).trans ((if_pos hd).trans ((if_pos hk).trans granted))) r.quiet
    · have refused := State.enterEarthing_refused e hsec hfit hc ho ha hb
      show execProvingWaitExpiry id s = _
      unfold execProvingWaitExpiry
      exact event_holdTimer_fails (u := s.modHold id earthingHold) r hw e ht hlen rfl r.quiet
        ((State.judgeProof_waited e hs).trans ((if_pos hd).trans ((if_pos hk).trans refused)))
    · show execDropLimitExpiry id s = _
      unfold execDropLimitExpiry
      exact event_holdTimer_retires r hw e ht hlen (by rw [hs]; decide)
    · show execRetireTimerExpiry id s = _
      unfold execRetireTimerExpiry
      exact event_holdTimer_quiet r.running e ht (State.retireHold_failed e hs) ((State.unbind_agenda _ id).trans r.quiet)
    · show execMinuteTimerExpiry id s = _
      unfold execMinuteTimerExpiry
      exact event_holdTimer_quiet r.running e ht (State.minuteEnds_more hn) r.quiet
    · show execMinuteTimerExpiry id s = _
      unfold execMinuteTimerExpiry
      exact event_minute_last r hw e ht hr hk hs hsec ha

end Sys2Proof.Machine
end

section
/-! PROOF. O42: frames discarded, timed out and taken, on the channel records and the reception record. -/

namespace Sys2Proof.Machine

open Sys2Proof

variable {s t u : State}

/-! ### A change of every channel record -/

/-- The channel records with `f` applied to each. -/
def State.slotted (f : ChannelNo → Channel → Channel) (s : State) : Vector Channel 16 :=
  ⟨⟨allChannels.map fun c => f c (s.mi.channels.get c)⟩, rfl⟩

theorem State.slotted_get (f : ChannelNo → Channel → Channel) (c : ChannelNo) : (s.slotted f).get c = f c (s.channel c) := by
  have at_all : ∀ c : ChannelNo, allChannels[c.val]'c.isLt = c := by decide
  have mapped : (s.slotted f).get c =
      f (allChannels[c.val]'c.isLt) (s.mi.channels.get (allChannels[c.val]'c.isLt)) := by
    simp only [State.slotted, Vector.get, List.getElem_toArray, List.getElem_map]
    rfl
  rw [mapped, at_all]
  rfl

/-- The events of a change of every channel record. -/
theorem State.modChannels_eq (f : ChannelNo → Channel → Channel) (s : State) :
    s.modChannels f = State.channelEvents s.mi.channels { s with mi := { s.mi with channels := s.slotted f } } := rfl

/-- R9, R15: a change that fails no channel and brings none back is handed to nobody, and none is until verification has
ended. -/
theorem State.modChannels_silent {f : ChannelNo → Channel → Channel}
    (h : s.verification ≠ none ∨ ∀ c, (f c (s.channel c)).state = .failed ↔ (s.channel c).state = .failed) :
    s.modChannels f = { s with mi := { s.mi with channels := s.slotted f } } := by
  rw [State.modChannels_eq]
  unfold State.channelEvents
  split
  · rfl
  · next hv =>
    have none_moves : ∀ c, (f c (s.channel c)).state = .failed ↔ (s.channel c).state = .failed := by
      refine h.resolve_left fun e => hv ?_
      exact Option.isSome_iff_ne_none.2 e
    have no_events : (allChannels.filterMap fun c =>
        if (s.mi.channels.get c).state ≠ .failed ∧
            (State.channel { s with mi := { s.mi with channels := s.slotted f } } c).state = .failed then
          some (Signal.channelFailed c)
        else if (s.mi.channels.get c).state = .failed ∧
            (State.channel { s with mi := { s.mi with channels := s.slotted f } } c).state = .good then
          some (Signal.channelRecovered c)
        else none) = [] := by
      rw [List.filterMap_eq_nil_iff]
      intro c _
      have now : State.channel { s with mi := { s.mi with channels := s.slotted f } } c = f c (s.channel c) := s.slotted_get f c
      have was : s.mi.channels.get c = s.channel c := rfl
      rw [now, was, if_neg (fun e => e.1 ((none_moves c).1 e.2)), if_neg]
      rintro ⟨failed, good⟩
      rw [(none_moves c).2 failed] at good
      cases good
    rw [no_events]
    simp [State.handAll]

/-! ### Missed slots -/

/-- R7: whether a run of missed slots leaves a channel FAILED. -/
theorem missSlots_failed_iff {n : Nat} {r : Channel} (h : r.state = .failed ∨ n = 0 ∨ r.miss + n < 4) :
    (missSlots n r).state = .failed ↔ r.state = .failed := by
  cases n with
  | zero => exact Iff.rfl
  | succ n =>
    rw [missSlots_succ_state]
    by_cases hf : r.state = .failed
    · simp [hf]
    · have counts := h.resolve_left hf
      have few : ¬ 4 ≤ r.miss + (n + 1) := by omega
      simp [hf, few]

/-- R3 to R6: slots missed by every channel, none of which comes to stand FAILED by them. -/
theorem State.countMissed_silent {n : Nat}
    (h : s.verification ≠ none ∨ ∀ c, (s.channel c).state = .failed ∨ n = 0 ∨ (s.channel c).miss + n < 4) :
    s.countMissed n = { s with mi := { s.mi with channels := s.slotted fun _ => missSlots n } } :=
  State.modChannels_silent (h.imp_right fun g c => missSlots_failed_iff (g c))

/-! ### The slots a gap reveals -/

theorem gapOf_eq (last seq : Byte) : gapOf last seq = (seq - last - 1).toNat := by
  unfold gapOf
  rw [BitVec.toNat_sub, BitVec.toNat_sub]
  have hs := seq.isLt
  have hl := last.isLt
  simp
  omega

/-! ### Frames discarded and timed out -/

/-- R3, R5: a frame that is no arrival, with the reception record as it leaves it. -/
theorem event_missed {f : State → State} {n : Nat} {r : Reception} (ready : Ready s)
    (hf : f s = (s.setReception r).countMissed n)
    (h : s.verification ≠ none ∨ ∀ c, (s.channel c).state = .failed ∨ n = 0 ∨ (s.channel c).miss + n < 4) :
    event f s = .next (State.finish { s with mi := { s.mi with channels := s.slotted (fun _ => missSlots n), reception := r } }) := by
  refine event_quiet_next (u := { s with mi := { s.mi with channels := s.slotted (fun _ => missSlots n), reception := r } })
    ready.running ?_ ready.quiet
  rw [hf, State.countMissed_silent (s := s.setReception r) (n := n) h]
  rfl

theorem State.takeFrame_discarded {f : SampleFrame} {order : List ArrivalTaker}
    (h : frameChecks f = false ∨ s.mi.reception.lastSeq = some f.seq) : s.takeFrame f order = s.frameDiscarded := by
  unfold State.takeFrame
  rcases h with h | h
  · simp [h]
  · simp [h]

theorem State.takeFrame_taken {f : SampleFrame} {order : List ArrivalTaker}
    (hc : frameChecks f = true) (hs : s.mi.reception.lastSeq ≠ some f.seq) : s.takeFrame f order = s.frameArrives f order := by
  unfold State.takeFrame
  simp [hc, hs]

/-! ### Frames taken -/

theorem revealed_first {r : Reception} (h : r.lastSeq = none) (seq : Byte) : revealed r seq = 0 := by
  unfold revealed; rw [h]

theorem revealed_later {r : Reception} {last : Byte} (h : r.lastSeq = some last) (seq : Byte) :
    revealed r seq = (seq - last - 1).toNat - r.charge := by
  unfold revealed; rw [h, ← gapOf_eq]

/-- R4: a sample arrival, once the slots its gap reveals have been counted. -/
def State.frameCounted (f : SampleFrame) (slots : Nat) (s : State) : State :=
  { s with mi := { s.mi with
      channels := s.slotted (fun _ => missSlots slots)
      reception := { lastSeq := some f.seq, charge := 0, timeout := some 2 } } }

theorem State.frameArrives_eq {f : SampleFrame} {order : List ArrivalTaker} {slots : Nat} (quiet : s.agenda = [])
    (hn : revealed s.mi.reception f.seq = slots)
    (h : s.verification ≠ none ∨ ∀ c, (s.channel c).state = .failed ∨ slots = 0 ∨ (s.channel c).miss + slots < 4) :
    s.frameArrives f order =
      { s.frameCounted f slots with
        agenda := .takeValues f :: (arrivalOrder order).map fun t => Signal.arrival t (validBits f) } := by
  have counted : (s.setReception { lastSeq := some f.seq, charge := 0, timeout := some 2 }).countMissed slots =
      s.frameCounted f slots :=
    State.countMissed_silent (s := s.setReception { lastSeq := some f.seq, charge := 0, timeout := some 2 }) h
  unfold State.frameArrives
  dsimp only
  rw [hn, counted]
  have still : (s.frameCounted f slots).agenda = [] := quiet
  simp [State.hand, State.handAll, still]

/-- R9: the events of a change of every channel record write no channel, no reception record and no other record either. -/
theorem State.modChannels_only (f : ChannelNo → Channel → Channel) (s : State) :
    OnlyChanges [.channels, .agenda] s (s.modChannels f) ∧ (s.modChannels f).mi.channels = s.slotted f ∧
      ((∀ g ∈ s.agenda, Consequence g = true) → ∀ g ∈ (s.modChannels f).agenda, Consequence g = true) := by
  rw [State.modChannels_eq]
  unfold State.channelEvents
  split
  · refine ⟨fun p m => ?_, rfl, id⟩
    cases p <;> first | exact absurd m (by decide) | simp [Same]
  · refine ⟨fun p m => ?_, rfl, fun h g mg => ?_⟩
    · cases p <;> first | exact absurd m (by decide) | simp [Same, State.handAll]
    · rcases List.mem_append.1 mg with mg | mg
      · exact h g mg
      · obtain ⟨c, _, hc⟩ := List.mem_filterMap.1 mg
        dsimp only at hc
        split at hc
        · cases hc; rfl
        · split at hc
          · cases hc; rfl
          · cases hc

/-! ### The slot of a channel on an arrival -/

theorem arrivalSlot_carried (f : SampleFrame) (c : ChannelNo) (h : c.val < 15) (r : Channel) :
    arrivalSlot f c r =
      if f.valid.getLsbD c.val then
        validSlot (readingOf c (f.values.get ⟨c.val, h⟩).toInt (f.saturated.getLsbD c.val)) r
      else missSlot r := by
  have below : c.val ≠ 15 := by omega
  have own (b : Bool) (w : Half) : (BitVec.cons b (w.setWidth 15)).getLsbD c.val = w.getLsbD c.val := by
    rw [BitVec.getLsbD_cons, if_neg below, BitVec.getLsbD_setWidth]
    simp [h]
  unfold arrivalSlot validBits saturatedBits carriedValue
  rw [own, own, dif_pos h]

theorem arrivalSlot_temperature (f : SampleFrame) (r : Channel) :
    arrivalSlot f chTT r =
      if f.ttValid then validSlot (readingOf chTT f.tt.toInt f.ttSaturated) r else missSlot r := by
  have own (b : Bool) (w : Half) : (BitVec.cons b (w.setWidth 15)).getLsbD chTT.val = b := by
    rw [BitVec.getLsbD_cons]
    exact if_pos rfl
  unfold arrivalSlot validBits saturatedBits carriedValue
  rw [own, own, dif_neg (by decide)]

/-! ### What the arrival leaves -/

theorem State.atRest_only (s : State) : OnlyChanges reached s s.atRest := by
  intro p m
  cases p <;> first | exact absurd m (by decide) | simp [Same, State.atRest]

/-- The end of an event whose handings have begun. -/
theorem State.settled_only (n : Nat) (c : Consequential s) : OnlyChanges reached s (s.settle n).atRest.finish :=
  ((State.settle_only n c).trans (State.atRest_only _)).trans ((State.finish_only _).mono (by decide))

theorem State.frameCounted_only (f : SampleFrame) (slots : Nat) (s : State) :
    OnlyChanges [.channels, .reception] s (s.frameCounted f slots) := by
  intro p m
  cases p <;> first | exact absurd m (by decide) | simp [Same, State.frameCounted]

/-- An arrival takes its values into the channel records first; the blocks that take it write neither these nor the reception
record. -/
theorem event_frameArrives {f : SampleFrame} {order : List ArrivalTaker} {slots : Nat} (ready : Ready s)
    (hc : frameChecks f = true) (hs : s.mi.reception.lastSeq ≠ some f.seq) (hn : revealed s.mi.reception f.seq = slots)
    (h : s.verification ≠ none ∨ ∀ c, (s.channel c).state = .failed ∨ slots = 0 ∨ (s.channel c).miss + slots < 4) :
    ∃ t, event (State.takeFrame f order) s = .next t ∧
      t.mi.reception = { lastSeq := some f.seq, charge := 0, timeout := some 2 } ∧
      (∀ c, t.channel c = arrivalSlot f c (missSlots slots (s.channel c))) ∧
      OnlyChanges (.channels :: .reception :: reached) s t := by
  have first := (State.takeFrame_taken (order := order) hc hs).trans (State.frameArrives_eq ready.quiet hn h)
  have quiet : ({ s.frameCounted f slots with agenda := [] } : State) = s.frameCounted f slots := State.quiet_eq ready.quiet
  obtain ⟨only, channels, handed⟩ := State.modChannels_only (arrivalSlot f) (s.frameCounted f slots)
  generalize ht : (s.frameCounted f slots).modChannels (arrivalSlot f) = valued at only channels handed
  have arrive : ∀ g ∈ (arrivalOrder order).map (fun t => Signal.arrival t (validBits f)), ∃ t valid, g = Signal.arrival t valid := by
    intro g mg
    obtain ⟨t, _, rfl⟩ := List.mem_map.1 mg
    exact ⟨t, _, rfl⟩
  generalize (arrivalOrder order).map (fun t => Signal.arrival t (validBits f)) = arrivals at first arrive
  have value : State.handle (.takeValues f) { s.frameCounted f slots with agenda := [] } = valued := by
    rw [quiet]; exact ht
  have ends : s.event (State.takeFrame f order) =
      (State.settle 4095 { valued with agenda := valued.agenda ++ arrivals }).atRest.finish := by
    unfold State.event
    rw [first]
    show (State.settle (4095 + 1) _).atRest.finish = _
    rw [settle_cons rfl 4095]
    exact congrArg (fun v : State => (State.settle 4095 { v with agenda := v.agenda ++ arrivals }).atRest.finish) value
  have waits : Consequential { valued with agenda := valued.agenda ++ arrivals } := by
    intro g mg
    rcases List.mem_append.1 mg with mg | mg
    · refine .inl (handed ?_ g mg)
      intro x mx
      rw [show (s.frameCounted f slots).agenda = [] from ready.quiet] at mx
      cases mx
    · exact .inr (arrive g mg)
  have rest := State.settled_only 4095 waits
  rw [← ends] at rest
  refine ⟨_, event_running _ ready.running, ?_, fun c => ?_, ?_⟩
  · have same : (s.event (State.takeFrame f order)).mi.reception = valued.mi.reception := rest .reception (by decide)
    exact same.trans (only .reception (by decide))
  · have taken : (s.event (State.takeFrame f order)).channel c = arrivalSlot f c ((s.frameCounted f slots).channel c) := by
      have same : (s.event (State.takeFrame f order)).mi.channels = valued.mi.channels := rest .channels (by decide)
      unfold State.channel
      rw [same, channels]
      exact State.slotted_get _ c
    rw [taken]
    exact congrArg (arrivalSlot f c) (s.slotted_get _ c)
  · have counted := (s.frameCounted_only f slots).mono (m := .channels :: .reception :: reached) (by decide)
    have values := only.mono (l := [.channels, .agenda]) (m := .channels :: .reception :: reached) (by decide)
    have agenda : OnlyChanges (.channels :: .reception :: reached) valued { valued with agenda := valued.agenda ++ arrivals } := by
      intro p m
      cases p <;> first | exact absurd m (by decide) | simp [Same]
    exact ((counted.trans values).trans agenda).trans (rest.mono (by decide))

/-- Settles O42: a frame is discarded, times out or arrives; the reading that an arrival takes is the first of its handings, and
what follows writes no channel. -/
theorem framesTaken : Obligations.FramesTaken := by
  unfold Obligations.FramesTaken
  intro s f order ready
  refine ⟨fun discarded few => ?_, fun few => ?_, fun hc hs => ?_⟩
  · have counted : s.takeFrame f order =
        (s.setReception { s.mi.reception with charge := s.mi.reception.charge + 1 }).countMissed 1 :=
      State.takeFrame_discarded discarded
    refine ⟨_, event_missed ready counted (few.imp_right fun g c => ?_), fun c => s.slotted_get _ c⟩
    exact (g c).imp_right fun e => .inr (by omega)
  · exact ⟨_, event_missed ready rfl (few.imp_right fun g c => .inl (g c)), fun c => s.slotted_get _ c⟩
  · intro slots few
    have hn : revealed s.mi.reception f.seq = slots := by
      cases e : s.mi.reception.lastSeq with
      | none => rw [revealed_first e]; simp only [slots, e]
      | some last => rw [revealed_later e]; simp only [slots, e]
    obtain ⟨t, run, reception, channels, only⟩ := event_frameArrives (order := order) ready hc hs hn few
    refine ⟨t, run, reception, fun c h => ?_, ?_, only⟩
    · rw [channels, arrivalSlot_carried f c h]
    · rw [channels, arrivalSlot_temperature]

end Sys2Proof.Machine
end

section
/-! PROOF. What a link that is UP hears: BEACON and INTERTRIP (R98, R109, R159, R160). -/

namespace Sys2Proof.Machine

open Sys2Proof

variable {s t u : State} {k : FeederNo} {p : Port}

/-! ### A message taken on a link that is UP (R147, R148, R151) -/

/-- R148: a link that is UP has heard a message. -/
def State.heardOn (p : Port) (s : State) : State := s.modLink p fun l => { l with supervision := some 350 }

theorem State.heardOn_agenda : (s.heardOn p).agenda = s.agenda := State.modLink_agenda _ _ _

theorem State.heardOn_ht : (s.heardOn p).ht = s.ht := State.modLink_ht _ _ _

theorem State.heardOn_store : (s.heardOn p).store = s.store := State.modLink_store _ _ _

theorem State.heardOn_link : (s.heardOn p).link p = { s.link p with supervision := some 350 } := State.modLink_link _ _ _

theorem State.linkHears_up (hq : (s.link p).state = .up) : s.linkHears p = s.heardOn p := by
  unfold State.linkHears
  dsimp only
  rw [hq]
  rfl

section
variable {station : Byte} {body : MsgBody} (r : Ready s) (hv : s.verification = none) (hq : (s.link p).state = .up)
  (hst : station = (s.store.cfg.port p).neighbour) (hbody : fieldsValid body = true)

include r hv hq hst hbody

/-- R151: a message that a link which is UP takes, with what it hands on. -/
theorem event_message {l : List Signal} {n : Nat} (hm : (s.heardOn p).takeMessage p body = { u with agenda := l })
    (c : Carried n u l t) (hn : n < 4096) : event (State.linkReceives p station body) s = .next t.finish := by
  have quiet : (s.heardOn p).agenda = [] := State.heardOn_agenda.trans r.quiet
  have hears := State.linkReceives_valid hv (by rw [hq]; decide) hst hbody (State.linkHears_up hq) quiet
  have handed : State.handle (.message p body) { s.heardOn p with agenda := [] } = { u with agenda := l } := by
    rw [State.quiet_eq quiet]
    exact hm
  refine event_carried_next r.running hears (Carried.step (l := []) handed ?_) hn
  rw [List.append_nil]
  exact c

/-- R151: a message that hands nothing on. -/
theorem event_message_quiet (hm : (s.heardOn p).takeMessage p body = u) (hu : u.agenda = []) :
    event (State.linkReceives p station body) s = .next u.finish :=
  event_message r hv hq hst hbody (n := 0) (hm.trans (State.quiet_eq hu).symm) (carried_nothing hu) (by decide)

end

/-! ### Loops in which one feeder acts -/

theorem forEach_one {α : Type} {l : List α} {f : α → State → State} {a : α} (ha : a ∈ l) (hn : l.Nodup) (acts : f a s = t)
    (before : ∀ b ∈ l, b ≠ a → f b s = s) (after : ∀ b ∈ l, b ≠ a → f b t = t) : forEach l f s = t := by
  induction l with
  | nil => cases ha
  | cons b l ih =>
    obtain ⟨hb, hl⟩ := List.nodup_cons.1 hn
    show forEach l f (f b s) = t
    by_cases hba : b = a
    · subst hba
      rw [acts]
      exact forEach_still fun c hc => after c (by simp [hc]) fun e => hb (e ▸ hc)
    · rw [before b (by simp) hba]
      exact ih ((List.mem_cons.1 ha).resolve_left (Ne.symm hba)) hl (fun c hc => before c (by simp [hc]))
        fun c hc => after c (by simp [hc])

theorem allFeeders_nodup : allFeeders.Nodup := by decide

/-! ### The contents of a BEACON (R98, R99, R109) -/

/-- R98: what a beacon on a port says to feeder k. -/
def State.reportTo (p : Port) (entries : List BeaconEntry) (k : FeederNo) (s : State) : State :=
  match s.share k with
  | some (q, line) => if q = p then s.setNeighbour k (reportedBreaker entries line) else s
  | none => s

theorem State.takeReport_eq (entries : List BeaconEntry) :
    s.takeReport p entries = forEach allFeeders (State.reportTo p entries) s := rfl

theorem State.reportTo_shared {entries : List BeaconEntry} {line : Byte} (h : s.share k = some (p, line)) :
    s.reportTo p entries k = s.setNeighbour k (reportedBreaker entries line) := by
  unfold State.reportTo
  rw [h]
  exact if_pos rfl

theorem State.reportTo_unshared {entries : List BeaconEntry} (h : ∀ line, s.share k ≠ some (p, line)) :
    s.reportTo p entries k = s := by
  unfold State.reportTo
  cases e : s.share k with
  | none => rfl
  | some x =>
    obtain ⟨q, line⟩ := x
    refine if_neg ?_
    rintro rfl
    exact h line e

theorem State.takeReport_unshared {entries : List BeaconEntry} (h : ∀ k line, s.share k ≠ some (p, line)) :
    s.takeReport p entries = s :=
  forEach_still fun k _ => State.reportTo_unshared (h k)

theorem State.setNeighbour_store (b : NeighbourBreaker) : (s.setNeighbour k b).store = s.store := by
  unfold State.setNeighbour
  split <;> simp

/-- R98: a beacon reaches the one section shared on its port. -/
theorem State.takeReport_line {entries : List BeaconEntry} {line : Byte} (h : s.share k = some (p, line))
    (only : ∀ j l, s.share j = some (p, l) → j = k) :
    s.takeReport p entries = s.setNeighbour k (reportedBreaker entries line) := by
  have out {t : State} (ht : t.store = s.store) {j : FeederNo} (hj : j ≠ k) : t.reportTo p entries j = t := by
    refine State.reportTo_unshared fun l e => hj (only j l ?_)
    unfold State.share at e ⊢
    rw [← ht]
    exact e
  rw [State.takeReport_eq]
  exact forEach_one (mem_allFeeders k) allFeeders_nodup (State.reportTo_shared h) (fun j _ hj => out rfl hj)
    fun j _ hj => out (State.setNeighbour_store _) hj

/-- R98, R99: the neighbour's breaker of section k and the feed modes that follow. -/
def State.neighbourSeen (k : FeederNo) (b : NeighbourBreaker) (s : State) : State :=
  (s.modSec (sectionOf k) fun r => { r with neighbour := some b }).deriveFeed k

theorem State.setNeighbour_new {b : NeighbourBreaker} (h : (s.sec (sectionOf k)).neighbour ≠ some b) :
    s.setNeighbour k b = (s.neighbourSeen k b).deriveWanted k := by
  unfold State.setNeighbour
  rw [if_neg h]
  rfl

theorem State.neighbourSeen_sec (b : NeighbourBreaker) : ∃ feed, (s.neighbourSeen k b).sec (sectionOf k) =
    { s.sec (sectionOf k) with neighbour := some b, feed := feed } := by
  unfold State.neighbourSeen State.deriveFeed
  dsimp only
  rw [State.modSec_sec_ne _ (sectionOf_ne_bus k), State.modSec_sec, State.modSec_sec]
  exact ⟨_, rfl⟩

/-- R36, R109: the wanted set that follows from what a beacon says, on a link that is UP. -/
theorem State.wantedOf_seen {b : NeighbourBreaker} {line : Byte} (h : s.share k = some (p, line)) (hq : (s.link p).state = .up) :
    (s.neighbourSeen k b).wantedOf k = if b = .closed ∧ s.breakerPos k = some .closed then .double else .single := by
  obtain ⟨feed, hsec⟩ := State.neighbourSeen_sec (s := s) (k := k) b
  have link : ((s.neighbourSeen k b).link p).state = .up := by cases p <;> exact hq
  rw [State.wantedOf_up (s := s.neighbourSeen k b) (line := line) h link, hsec]
  exact ite_of_iff (by rw [Option.some_inj]; rfl)

theorem State.deriveWanted_same (h : s.fitted k = false ∨ (s.sec (sectionOf k)).wanted = s.wantedOf k) : s.deriveWanted k = s := by
  unfold State.deriveWanted
  dsimp only
  split
  next hf =>
    rw [if_pos (h.resolve_left (by simp [hf]))]
  · rfl

/-- R37: the engine of feeder k takes another wanted set. -/
def resetTo (set : SetSel) (e : Engine) : Engine :=
  { e with
    wanted := set, setInUse := set
    warning := e.copy.thermal.enable && decide (heatLimit e.copy.thermal * 3 / 4 ≤ e.heat)
    recloseBar := e.copy.thermal.enable && decide (heatLimit e.copy.thermal / 2 < e.heat) }

/-- R37, R38: an engine at rest takes another wanted set at once. -/
theorem EngineRests.wantSet (r : EngineRests s k) (hf : s.fitted k = true) {set : SetSel} (h : (s.engine k).setInUse ≠ set)
    (ha : s.agenda = []) :
    ∃ l, (∀ g ∈ l, g = .judgeWait k) ∧ l.length ≤ 1 ∧ s.wantSet k set = { s.modEngine k (resetTo set) with agenda := l } := by
  have taken : Engine.takeOver (s.feederSettings k) s.groupSource (s.fitted k) { s.engine k with wanted := set } =
      resetTo set (s.engine k) := by
    have resting : (({ s.engine k with wanted := set } : Engine).resting &&
        (({ s.engine k with wanted := set } : Engine).groupPending || set != (s.engine k).setInUse)) = true := by
      have moved : (set != (s.engine k).setInUse) = true := by simpa using Ne.symm h
      simp [Engine.resting, r.stage, r.imax, r.reverse, moved]
    unfold Engine.takeOver
    rw [if_pos resting, hf]
    dsimp only
    rw [if_neg (by rw [r.group]; decide)]
    rfl
  have engines : (s.modEngine k fun e => ({ e with wanted := set } : Engine).takeOver (s.feederSettings k) s.groupSource (s.fitted k)) =
      s.modEngine k (resetTo set) := by
    unfold State.modEngine
    exact congrArg (fun x => { s with engines := s.engines.set k x k.isLt }) taken
  unfold State.wantSet State.changeEngine
  dsimp only
  rw [engines]
  split
  · exact ⟨[], by simp, by simp, (State.quiet_eq (s := s.modEngine k (resetTo set)) ha).symm⟩
  · exact ⟨[.judgeWait k], by simp, by simp, State.hand_quiet (u := s.modEngine k (resetTo set)) ha _⟩

/-! ### BEACON -/

/-- R159: the report that a BEACON leaves on a link that is UP. -/
def State.told (p : Port) (entries : List BeaconEntry) (delivers : Bool) (s : State) : State :=
  s.modLink p fun l => { l with supervision := some 350, report := some { entries := entries, delivering := delivers } }

theorem State.takeMessage_beacon (entries : List BeaconEntry) (delivers : Bool) :
    (s.heardOn p).takeMessage p (.beacon entries delivers) = (s.told p entries delivers).takeReport p entries := by
  have told : ((s.heardOn p).modLink p fun l => { l with report := some { entries := entries, delivering := delivers } }) =
      s.told p entries delivers := State.modLink_modLink _ _
  show State.takeBeacon p entries delivers (s.heardOn p) = _
  unfold State.takeBeacon
  rw [told]

section
variable {entries : List BeaconEntry} {delivers : Bool} {station : Byte} (r : Ready s) (hv : s.verification = none)
  (hq : (s.link p).state = .up) (hst : station = (s.store.cfg.port p).neighbour)
  (hbody : fieldsValid (.beacon entries delivers) = true)

include r hv hq hst hbody

theorem exec_beacon_unshared (h : ∀ k line, s.share k ≠ some (p, line)) :
    exec (.beacon p station entries delivers) s = .next (s.told p entries delivers).finish := by
  show execBeacon p station entries delivers s = _
  unfold execBeacon
  refine event_message_quiet r hv hq hst hbody ?_ ((State.modLink_agenda _ _ _).trans r.quiet)
  rw [State.takeMessage_beacon]
  refine State.takeReport_unshared fun k line => ?_
  unfold State.share State.told
  rw [State.modLink_store]
  exact h k line

variable {line : Byte} (h : s.share k = some (p, line)) (only : ∀ j l, s.share j = some (p, l) → j = k)

include h only

omit r hv hq hst hbody in
theorem State.takeMessage_beacon_line : (s.heardOn p).takeMessage p (.beacon entries delivers) =
    (s.told p entries delivers).setNeighbour k (reportedBreaker entries line) := by
  have same (j : FeederNo) : (s.told p entries delivers).share j = s.share j := by
    unfold State.share State.told
    rw [State.modLink_store]
  rw [State.takeMessage_beacon]
  exact State.takeReport_line ((same k).trans h) fun j l e => only j l ((same j).symm.trans e)

/-- R98: a BEACON that says what is known already. -/
theorem exec_beacon_known (hn : (s.sec (sectionOf k)).neighbour = some (reportedBreaker entries line)) :
    exec (.beacon p station entries delivers) s = .next (s.told p entries delivers).finish := by
  show execBeacon p station entries delivers s = _
  unfold execBeacon
  refine event_message_quiet r hv hq hst hbody ?_ ((State.modLink_agenda _ _ _).trans r.quiet)
  rw [State.takeMessage_beacon_line h only]
  unfold State.setNeighbour
  have sec : (s.told p entries delivers).sec (sectionOf k) = s.sec (sectionOf k) := by cases p <;> rfl
  exact if_pos (by rw [sec]; exact hn)

variable (hn : (s.sec (sectionOf k)).neighbour ≠ some (reportedBreaker entries line))

include hn

omit r hv hq hst hbody in
theorem State.takeMessage_beacon_new : (s.heardOn p).takeMessage p (.beacon entries delivers) =
    ((s.told p entries delivers).neighbourSeen k (reportedBreaker entries line)).deriveWanted k := by
  have sec : (s.told p entries delivers).sec (sectionOf k) = s.sec (sectionOf k) := by cases p <;> rfl
  rw [State.takeMessage_beacon_line h only]
  exact State.setNeighbour_new (by rw [sec]; exact hn)

omit r hv hst hbody only hn in
theorem State.wantedOf_told : ((s.told p entries delivers).neighbourSeen k (reportedBreaker entries line)).wantedOf k =
    if reportedBreaker entries line = .closed ∧ s.breakerPos k = some .closed then .double else .single := by
  have pos : (s.told p entries delivers).breakerPos k = s.breakerPos k := by cases p <;> rfl
  have link : ((s.told p entries delivers).link p).state = .up := by
    unfold State.told
    rw [State.modLink_link]
    exact hq
  have share : (s.told p entries delivers).share k = some (p, line) := by
    unfold State.share State.told at *
    rw [State.modLink_store]
    exact h
  rw [State.wantedOf_seen share link, pos]

/-- R98, R99: a BEACON that changes no wanted set. -/
theorem exec_beacon_seen (hw : s.fitted k = false ∨ (s.sec (sectionOf k)).wanted =
      if reportedBreaker entries line = .closed ∧ s.breakerPos k = some .closed then .double else .single) :
    exec (.beacon p station entries delivers) s =
      .next ((s.told p entries delivers).neighbourSeen k (reportedBreaker entries line)).finish := by
  obtain ⟨feed, sec⟩ := State.neighbourSeen_sec (s := s.told p entries delivers) (k := k) (reportedBreaker entries line)
  have sec' : (s.told p entries delivers).sec (sectionOf k) = s.sec (sectionOf k) := by cases p <;> rfl
  have fitted : ((s.told p entries delivers).neighbourSeen k (reportedBreaker entries line)).fitted k = s.fitted k := by cases p <;> rfl
  show execBeacon p station entries delivers s = _
  unfold execBeacon
  refine event_message_quiet r hv hq hst hbody ?_ (by cases p <;> exact r.quiet)
  rw [State.takeMessage_beacon_new h only hn]
  refine State.deriveWanted_same (hw.imp fitted.trans fun e => ?_)
  rw [State.wantedOf_told hq h, sec, sec']
  exact e

/-- R37, R109: a BEACON that changes the wanted set of an engine at rest. -/
theorem exec_beacon_wanted {set : SetSel}
    (hset : set = if reportedBreaker entries line = .closed ∧ s.breakerPos k = some .closed then .double else .single)
    (hf : s.fitted k = true) (hw : (s.sec (sectionOf k)).wanted ≠ set) (rests : EngineRests s k) (hu : (s.engine k).setInUse ≠ set)
    (hwait : (s.seq k).wait = none) :
    exec (.beacon p station entries delivers) s =
      .next ((((s.told p entries delivers).neighbourSeen k (reportedBreaker entries line)).modSec (sectionOf k) fun x =>
        { x with wanted := set }).modEngine k (resetTo set)).finish := by
  obtain ⟨feed, sec⟩ := State.neighbourSeen_sec (s := s.told p entries delivers) (k := k) (reportedBreaker entries line)
  have sec' : (s.told p entries delivers).sec (sectionOf k) = s.sec (sectionOf k) := by cases p <;> rfl
  have derived := State.wantedOf_told (delivers := delivers) (entries := entries) hq h
  rw [← hset] at derived
  let v := ((s.told p entries delivers).neighbourSeen k (reportedBreaker entries line)).modSec (sectionOf k) fun x =>
    { x with wanted := set }
  have same : v.engine k = s.engine k ∧ v.fitted k = s.fitted k ∧ v.agenda = s.agenda ∧ v.seq k = s.seq k ∧ v.engines = s.engines := by
    cases p <;> exact ⟨rfl, rfl, rfl, rfl, rfl⟩
  obtain ⟨engine, fitted, agenda, seq, engines⟩ := same
  have fits : ((s.told p entries delivers).neighbourSeen k (reportedBreaker entries line)).fitted k = true := fitted.trans hf
  obtain ⟨l, hl, hlen, taken⟩ := (rests.congr engines).wantSet (fitted.trans hf) (set := set) (by rw [engine]; exact hu)
    (agenda.trans r.quiet)
  show execBeacon p station entries delivers s = _
  unfold execBeacon
  refine event_message r hv hq hst hbody (l := l) ?_
    (waits_carried (u := v.modEngine k (resetTo set)) hl (by exact (congrArg Sequencer.wait seq).trans hwait) (agenda.trans r.quiet))
    (by omega)
  rw [State.takeMessage_beacon_new h only hn, ← taken]
  unfold State.deriveWanted
  dsimp only
  rw [if_pos fits, derived, if_neg (by rw [sec, sec']; exact hw)]

end

/-! ### INTERTRIP (R46, R160) -/

theorem State.sharedOn_line {line : Byte} (h : s.share k = some (p, line)) (only : ∀ j, s.share j = some (p, line) → j = k) :
    s.sharedOn p line = some k := by
  unfold State.sharedOn
  refine find?_first allFeeders_ascending (mem_allFeeders k) (by simp [h]) fun j hj => ?_
  rw [beq_eq_false_iff_ne]
  intro e
  exact absurd (only j e) (Fin.ne_of_lt hj)

theorem State.sharedOn_none {line : Byte} (h : ∀ k, s.share k ≠ some (p, line)) : s.sharedOn p line = none := by
  unfold State.sharedOn
  rw [List.find?_eq_none]
  intro k _
  simpa using h k

/-- R44 to R46: a trip of a feeder in service whose cause has a point and no intertrip of its own. -/
theorem EngineRests.seqTrip_pulsing (r : EngineRests s k) {cause : TripCause} (hs : silentCause cause = false)
    (hi : s.share k = none ∨ intertripOf cause = none) (h : (s.seq k).state = some .inService) (hb : s.breakerPos k ≠ some .opened) :
    s.seqTrip k cause none =
      { (s.modSeq k fun x => x.tripped (s.demandRecord k cause) (some (x.openPulse.getD s.store.cfg.tOpenMax))).pulse
          (feederPoint 0 k) with agenda := s.agenda ++ [.seqChanged k] } := by
  have tripped : s.modSeq k (fun x => x.tripped (s.demandRecord k cause) (some ((s.seq k).openPulse.getD s.store.cfg.tOpenMax))) =
      s.modSeq k fun x => x.tripped (s.demandRecord k cause) (some (x.openPulse.getD s.store.cfg.tOpenMax)) := State.modSeq_congr rfl
  rw [r.seqTrip cause (some ((s.seq k).openPulse.getD s.store.cfg.tOpenMax)) (.inl h) (if_neg hb).symm, tripped]
  refine (if_neg hb).trans ?_
  have pulsed := (State.pulse_comm (s := s.modSeq k fun x => x.tripped (s.demandRecord k cause) (some (x.openPulse.getD s.store.cfg.tOpenMax)))
    (f := fun u => { u with agenda := s.agenda ++ [.seqChanged k] }) (feederPoint 0 k) (fun _ => rfl) rfl rfl rfl).symm
  unfold State.afterTrip
  rw [if_neg (by rw [hs]; decide)]
  dsimp only
  rw [pulsed]
  cases e : intertripOf cause with
  | none => rfl
  | some c =>
    refine State.intertripFor_unshared ?_ c
    have unshared := hi.resolve_right (by rw [e]; simp)
    show (State.pulse (feederPoint 0 k) _).share k = none
    unfold State.share
    rw [State.pulse_store]
    exact unshared

/-- R160: the INTERTRIP that a link which is UP has heard. -/
def State.intertripKept (p : Port) (line : Byte) (cause : IntertripCause) (s : State) : State :=
  s.modLink p fun l => { l with supervision := some 350, lastIntertrip := some { line := line, cause := cause, stamp := s.stamp } }

section
variable {station line : Byte} {cause : IntertripCause} (r : Ready s) (hv : s.verification = none)
  (hq : (s.link p).state = .up) (hst : station = (s.store.cfg.port p).neighbour) (hline : line ≠ 0)

omit r hv hq hst hline in
theorem State.intertripKept_share (j : FeederNo) : (s.intertripKept p line cause).share j = s.share j := by
  unfold State.share State.intertripKept
  rw [State.modLink_store]

omit r hv hq hst hline in
theorem State.takeMessage_intertrip (found : Option FeederNo) (h : (s.intertripKept p line cause).sharedOn p line = found) :
    (s.heardOn p).takeMessage p (.intertrip line cause) =
      found.elim (s.intertripKept p line cause) fun k => (s.intertripKept p line cause).seqIntertrip k := by
  have kept : ((s.heardOn p).modLink p fun l =>
      { l with lastIntertrip := some { line := line, cause := cause, stamp := (s.heardOn p).stamp } }) = s.intertripKept p line cause := by
    have stamp : (s.heardOn p).stamp = s.stamp := by cases p <;> rfl
    unfold State.heardOn at stamp ⊢
    rw [State.modLink_modLink, stamp]
    rfl
  show State.takeIntertrip p line cause (s.heardOn p) = _
  unfold State.takeIntertrip
  dsimp only
  rw [kept, h]
  cases found <;> rfl

include r hv hq hst hline

theorem exec_intertrip_unshared (h : ∀ k, s.share k ≠ some (p, line)) :
    exec (.intertrip p station line cause) s = .next (s.intertripKept p line cause).finish := by
  show execIntertrip p station line cause s = _
  unfold execIntertrip
  refine event_message_quiet r hv hq hst (by simpa [fieldsValid] using hline) ?_ ((State.modLink_agenda _ _ _).trans r.quiet)
  exact State.takeMessage_intertrip none (State.sharedOn_none fun k => by rw [State.intertripKept_share]; exact h k)

variable (h : s.share k = some (p, line)) (only : ∀ j, s.share j = some (p, line) → j = k)

include h only

omit r hv hq hst hline in
theorem State.takeMessage_intertrip_line : (s.heardOn p).takeMessage p (.intertrip line cause) =
    (s.intertripKept p line cause).seqIntertrip k :=
  State.takeMessage_intertrip (some k) (State.sharedOn_line ((State.intertripKept_share k).trans h) fun j e =>
    only j ((State.intertripKept_share j).symm.trans e))

/-- R46: an INTERTRIP for a feeder that stands open pulses its point. -/
theorem exec_intertrip_opened (ho : (s.seq k).state = some .opened) :
    exec (.intertrip p station line cause) s = .next ((s.intertripKept p line cause).pulse 55).finish := by
  show execIntertrip p station line cause s = _
  unfold execIntertrip
  refine event_message_quiet r hv hq hst (by simpa [fieldsValid] using hline) ?_
    ((State.pulse_agenda _ _).trans ((State.modLink_agenda _ _ _).trans r.quiet))
  rw [State.takeMessage_intertrip_line h only]
  unfold State.seqIntertrip
  dsimp only
  have state : (((s.intertripKept p line cause).pulse 55).seq k).state = some .opened := by
    unfold State.seq
    rw [State.pulse_seqs]
    cases p <;> exact ho
  rw [state]

/-- R46: an INTERTRIP trips a feeder in service. -/
theorem exec_intertrip_trips (hs : (s.seq k).state = some .inService) (quiet : FeederQuiet s k) (hb : s.breakerPos k ≠ some .opened) :
    exec (.intertrip p station line cause) s =
      .next (State.deriveBars (sectionOf k) ((((s.intertripKept p line cause).pulse 55).modSeq k fun x =>
        x.tripped (s.demandRecord k .intertrip) (some (x.openPulse.getD s.store.cfg.tOpenMax))).pulse (feederPoint 0 k))).finish := by
  let u := (s.intertripKept p line cause).pulse 55
  have same : u.engines = s.engines ∧ u.mi = s.mi ∧ u.stamp = s.stamp ∧ u.seq k = s.seq k ∧ u.agenda = [] ∧ u.store = s.store ∧
      u.ht = s.ht := by
    refine ⟨(State.pulse_engines _ 55).trans ?_, (State.pulse_mi _ 55).trans ?_, (State.pulse_stamp 55).trans ?_, ?_,
      (State.pulse_agenda _ 55).trans ?_, (State.pulse_store _ 55).trans ?_, (State.pulse_ht _ 55).trans ?_⟩
    · cases p <;> rfl
    · cases p <;> rfl
    · cases p <;> rfl
    · unfold State.seq
      rw [State.pulse_seqs]
      cases p <;> rfl
    · exact (State.modLink_agenda _ _ _).trans r.quiet
    · exact State.modLink_store _ _ _
    · exact State.modLink_ht _ _ _
  obtain ⟨engines, mi, stamp, seq, agenda, store, ht⟩ := same
  have trip := (quiet.toEngineRests.congr engines).seqTrip_pulsing (cause := .intertrip) rfl (.inr rfl)
    ((congrArg Sequencer.state seq).trans hs) (by rw [State.breakerPos_congr mi]; exact hb)
  rw [State.demandRecord_congr (k := k) .intertrip engines mi stamp (congrArg Sequencer.attempts seq), agenda, store] at trip
  let w := (u.modSeq k fun x => x.tripped (s.demandRecord k .intertrip) (some (x.openPulse.getD s.store.cfg.tOpenMax))).pulse
    (feederPoint 0 k)
  have securing : w.securingOver k = [] := by
    have covering : w.securingOver k = s.securingOver k := by
      unfold State.securingOver State.covers State.fitted
      rw [show w.ht = s.ht from (State.pulse_ht _ (feederPoint 0 k)).trans ht, show w.store = s.store from (State.pulse_store _ (feederPoint 0 k)).trans store]
    rw [covering]
    exact quiet.securing
  have c : Carried 1 w [.seqChanged k] { State.deriveBars (sectionOf k) w with agenda := [] } :=
    .step (m := []) (handle_seqChanged securing) (.done 0 _)
  rw [State.quiet_eq (s := State.deriveBars (sectionOf k) w) (by exact (State.pulse_agenda _ (feederPoint 0 k)).trans agenda)] at c
  show execIntertrip p station line cause s = _
  unfold execIntertrip
  refine event_message r hv hq hst (by simpa [fieldsValid] using hline) (l := [.seqChanged k]) ?_ c (by decide)
  rw [State.takeMessage_intertrip_line h only]
  unfold State.seqIntertrip
  dsimp only
  have state : (u.seq k).state = some .inService := (congrArg Sequencer.state seq).trans hs
  rw [state]
  exact trip

end

end Sys2Proof.Machine
end

section
/-! PROOF. O55: what a link that is UP hears of holds, and the eight messages together (R118, R120, R122, R138, R161 to R166). -/

namespace Sys2Proof.Machine

open Sys2Proof

variable {s t u : State} {k : FeederNo} {p : Port} {id : Byte} {h : Hold}

/-! ### What a message reads of the part that has heard it -/

theorem State.heardOn_hold (i : Byte) : (s.heardOn p).hold i = s.hold i := State.hold_congr State.heardOn_ht i

theorem State.heardOn_peerHold : (s.heardOn p).peerHold p id = s.peerHold p id := by
  unfold State.peerHold
  rw [State.heardOn_ht]

theorem State.heardOn_share (j : FeederNo) : (s.heardOn p).share j = s.share j := by
  unfold State.share
  rw [State.heardOn_store]

theorem State.heardOn_seq (j : FeederNo) : (s.heardOn p).seq j = s.seq j := by
  unfold State.seq State.heardOn
  rw [State.modLink_seqs]

theorem State.heardOn_sec (n : SectionNo) : (s.heardOn p).sec n = s.sec n := by
  unfold State.sec State.heardOn
  rw [State.modLink_sections]

theorem State.heardOn_breakerPos (j : FeederNo) : (s.heardOn p).breakerPos j = s.breakerPos j :=
  State.breakerPos_congr (State.modLink_mi _ _ _) j

theorem State.heardOn_fitted (j : FeederNo) : (s.heardOn p).fitted j = s.fitted j := by
  unfold State.fitted
  rw [State.heardOn_store]

theorem State.heardOn_stamp : (s.heardOn p).stamp = s.stamp := by cases p <;> rfl

/-- What waits is no matter of a link. -/
theorem offLink_agenda (l : List Signal) : OffLink p (fun t => { t with agenda := l }) where
  modLink _ _ := by cases p <;> rfl
  link _ := by cases p <;> rfl
  verification _ := rfl
  cfg _ := rfl
  mi _ := rfl
  seqs _ := rfl
  rect _ := rfl
  audit _ := rfl

/-! ### ASK (R118, R119, R161, R162) -/

/-- R118: the port of a PEER origin. -/
theorem peerPort_peerOrigin : peerPort (peerOrigin p) = some p := by cases p <;> rfl

theorem State.peerAnswer_unshared {line : Byte} (h : ∀ k, s.share k ≠ some (p, line)) :
    s.peerAnswer p line = .inl .wrongSection := by
  unfold State.peerAnswer
  rw [State.sharedOn_none h]

theorem State.peerAnswer_line {line : Byte} (h : s.sharedOn p line = some k) (hf : s.fitted k = true)
    (hroom : s.ht.holds.length < 24) (hpeers : (s.ht.holds.filter fun h => h.origin = peerOrigin p).length < 8)
    (hfault : s.faultyFeeder k = false) : s.peerAnswer p line = .inr k := by
  unfold State.peerAnswer
  rw [h]
  dsimp only
  rw [if_neg (by simp [hf]), if_neg (by omega), if_neg (by simp [hfault])]

/-- R119: a hold of the neighbour that is secured is ACTIVE at once, and granted. -/
theorem handle_judgeHold_peer (e : s.hold id = some h) (hs : h.state = .securing) (ho : peerPort h.origin = some p) (ha : h.asks = [])
    (hb : s.breakersSecured h = true) (hf : s.breakerFails h = false) (quiet : s.agenda = []) :
    State.handle (.judgeHold id) { s with agenda := [] } =
      { (s.modHold id activeHold).queueMessage p (.grant (h.tag.setWidth 8) id) with agenda := [] } := by
  have still : ((s.modHold id activeHold).queueMessage p (.grant (h.tag.setWidth 8) id)).agenda = [] :=
    (State.queueMessage_agenda _ _ _).trans quiet
  rw [handle_judgeHold e hs, if_neg (by simp [hf]), if_pos (by simp [hb, ha]), State.quiet_eq quiet, State.quiet_eq still]
  unfold State.secured
  rw [ho]

/-- R101: the counts of a PEER hold on its one line section, with the permission. -/
def State.peerCounted (kind : HoldKind) (k : FeederNo) (s : State) : State :=
  State.deriveBars (sectionOf k) (s.modSec (sectionOf k) fun r =>
    if kind = .noreclose then { r with noreclose := r.noreclose + 1 } else { r with isolate := r.isolate + 1 })

/-- The handings of a placement that change nothing before the hold is judged. -/
def placementHandings (k : FeederNo) (l : List Signal) : Prop := ∀ g ∈ l, g = .judgeWait k ∨ g = .recloseBar k ∨ g = .holdDemand k

theorem State.raiseCounts_peer {kind : HoldKind} (hk : kind = .noreclose ∨ kind = .isolate ∧ (s.sec (sectionOf k)).isolate = 0) :
    ∃ l, placementHandings k l ∧ l.length ≤ 3 ∧ (kind = .noreclose → ∀ g ∈ l, g ≠ .holdDemand k) ∧
      (kind = .isolate → ∀ g ∈ l, g ≠ .recloseBar k) ∧
      s.raiseCounts kind (sectionOf k) = { s.peerCounted kind k with agenda := s.agenda ++ l } := by
  obtain rfl | ⟨rfl, h0⟩ := hk
  · obtain ⟨l, hl, hlen, raised⟩ := State.raiseNoreclose_line (s := s) (k := k)
    refine ⟨l, fun g mg => (hl g mg).elim (fun e => .inr (.inl e)) .inl, by omega, fun _ g mg => ?_, (by intro c; cases c), ?_⟩
    · obtain rfl | rfl := hl g mg <;> simp
    · exact raised
  · obtain ⟨l, hl, hlen, raised⟩ := State.raiseCounts_line (s := s) (k := k) (kind := .isolate) (by decide) h0
    refine ⟨.holdDemand k :: l, fun g mg => ?_, by simp only [List.length_cons]; omega, (by intro c; cases c), fun _ g mg => ?_, raised⟩
    · exact (List.mem_cons.1 mg).elim (fun e => .inr (.inr e)) fun e => .inl (hl g e)
    · obtain rfl | e := List.mem_cons.1 mg
      · simp
      · rw [hl g e]
        simp

/-- R112: the tag of a PEER hold is the asker's ID. -/
theorem setWidth_tag (id : Byte) : (id.setWidth 16).setWidth 8 = id := by
  apply BitVec.eq_of_toNat_eq
  simp

theorem fieldsValid_ask {line : Byte} (kind : HoldKind) (hid : id ≠ 0) (hline : line ≠ 0) :
    fieldsValid (.ask id line kind) = true := by
  simpa [fieldsValid] using ⟨hid, hline⟩

theorem fieldsValid_grant {holdId : Byte} (hid : id ≠ 0) (hh : holdId ≠ 0) : fieldsValid (.grant id holdId) = true := by
  simpa [fieldsValid] using ⟨hid, hh⟩

theorem peerKind_cases (kind : HoldKind) : kind = .noreclose ∧ peerKind kind = .noreclose ∨ kind ≠ .noreclose ∧ peerKind kind = .isolate := by
  cases kind <;> simp [peerKind]

section
variable {station line : Byte} {kind : HoldKind} (r : Ready s) (hv : s.verification = none) (hq : (s.link p).state = .up)
  (hst : station = (s.store.cfg.port p).neighbour) (hid : id ≠ 0) (hline : line ≠ 0)

include r hv hq hst hid hline

/-- R162: an ASK for a section that is not shared on the port is denied. -/
theorem exec_ask_unshared (hnone : s.peerHold p id = none) (h : ∀ k, s.share k ≠ some (p, line)) :
    exec (.ask p station id line kind) s = .next ((s.heardOn p).queueMessage p (.deny id .wrongSection)).finish := by
  show execAsk p station id line kind s = _
  unfold execAsk
  refine event_message_quiet r hv hq hst (fieldsValid_ask kind hid hline) ?_
    ((State.queueMessage_agenda _ _ _).trans (State.heardOn_agenda.trans r.quiet))
  show State.takeAsk p id line kind (s.heardOn p) = _
  unfold State.takeAsk
  rw [State.heardOn_peerHold, hnone]
  dsimp only
  unfold State.placePeer
  rw [State.peerAnswer_unshared fun k => by rw [State.heardOn_share]; exact h k]

variable (hshare : s.share k = some (p, line)) (only : ∀ j, s.share j = some (p, line) → j = k)

omit r hv hq hst hid hline in
include hshare only in
theorem State.heardOn_sharedOn : (s.heardOn p).sharedOn p line = some k :=
  State.sharedOn_line ((State.heardOn_share k).trans hshare) fun j e => only j ((State.heardOn_share j).symm.trans e)

include hshare only

/-- R118, R119: an ASK is placed as a PEER hold, which is secured at once, ACTIVE and granted. -/
theorem exec_ask_placed (hnone : s.peerHold p id = none) (hf : s.fitted k = true) (hroom : s.ht.holds.length < 24)
    (hpeers : (s.ht.holds.filter fun h => h.origin = peerOrigin p).length < 8)
    (hfeeder : (kind = .noreclose ∧ (s.seq k).state = some .inService) ∨
      (kind ≠ .noreclose ∧ s.isolated k = false ∧ s.securingOver k = [] ∧
        ((s.seq k).state = some .opened ∨ (s.seq k).state = some .lockout) ∧ s.breakerPos k = some .opened)) :
    exec (.ask p station id line kind) s =
      .next ((((((s.heardOn p).withHold (s.lineHold (peerKind kind) (peerOrigin p) (id.setWidth 16) k none [])).peerCounted
        (peerKind kind) k).modHold (drawId s.ht.holds s.ht.lastId) fun x => { x with state := .active, timers := noHoldTimers })).queueMessage
          p (.grant id (drawId s.ht.holds s.ht.lastId))).finish := by
  let placed := s.lineHold (peerKind kind) (peerOrigin p) (id.setWidth 16) k none []
  let w := (s.heardOn p).withHold placed
  let v := w.peerCounted (peerKind kind) k
  have quiet : v.agenda = [] := State.heardOn_agenda.trans r.quiet
  have seq : v.seq k = s.seq k := State.heardOn_seq k
  have pos : v.breakerPos k = s.breakerPos k := State.heardOn_breakerPos k
  have counts : peerKind kind = .noreclose ∨ peerKind kind = .isolate ∧ (w.sec (sectionOf k)).isolate = 0 := by
    obtain ⟨_, hk⟩ | ⟨hk, hk'⟩ := peerKind_cases kind
    · exact .inl hk
    · obtain ⟨hc, _⟩ | ⟨_, hi, _⟩ := hfeeder
      · exact absurd hc hk
      · refine .inr ⟨hk', ?_⟩
        unfold State.isolated at hi
        simp only [Bool.or_eq_false_iff, bne_eq_false_iff_eq] at hi
        exact (congrArg SectionRec.isolate (State.heardOn_sec _)).trans hi.1
  obtain ⟨l, hl, hlen, hnoreclose, hisolate, raised⟩ := State.raiseCounts_peer (s := w) (k := k) counts
  have kinds : (peerKind kind = .noreclose ∧ (s.seq k).state = some .inService) ∨
      (peerKind kind = .isolate ∧ ((s.seq k).state = some .opened ∨ (s.seq k).state = some .lockout) ∧ s.breakerPos k = some .opened) := by
    obtain ⟨hk, hs⟩ | ⟨hk, _, _, hs, hb⟩ := hfeeder
    · exact .inl ⟨by rw [hk]; rfl, hs⟩
    · exact .inr ⟨(peerKind_cases kind).elim (fun c => absurd c.1 hk) fun c => c.2, hs, hb⟩
  have fault : (s.heardOn p).faultyFeeder k = false := by
    unfold State.faultyFeeder State.seqIn
    rw [State.heardOn_seq]
    obtain ⟨_, hs⟩ | ⟨_, hs | hs, _⟩ := kinds <;> simp [hs]
  have placement : (s.heardOn p).takeMessage p (.ask id line kind) =
      { v with agenda := l ++ [.judgeHold (drawId s.ht.holds s.ht.lastId)] } := by
    have answer := State.peerAnswer_line (State.heardOn_sharedOn hshare only) ((State.heardOn_fitted k).trans hf)
      (by rw [State.heardOn_ht]; exact hroom) (by rw [State.heardOn_ht]; exact hpeers) fault
    have record : (s.heardOn p).lineHold (peerKind kind) (peerOrigin p) (id.setWidth 16) k none [] = placed := by
      unfold State.lineHold
      rw [State.heardOn_ht, State.heardOn_stamp]
      rfl
    show State.takeAsk p id line kind (s.heardOn p) = _
    unfold State.takeAsk
    rw [State.heardOn_peerHold, hnone]
    dsimp only
    unfold State.placePeer
    rw [answer]
    dsimp only
    rw [State.placeHold_unasked (.inr (by rw [peerPort_peerOrigin]; rfl)), record, State.heardOn_ht]
    show (w.raiseCounts (peerKind kind) (sectionOf k)).hand _ = _
    rw [raised, show w.agenda = [] from State.heardOn_agenda.trans r.quiet]
    rfl
  have found : v.hold (drawId s.ht.holds s.ht.lastId) = some placed :=
    State.withHold_hold hroom [] (by
      show ((s.heardOn p).withHold placed).ht = (s.withHold placed).ht
      unfold State.withHold
      show ({ (s.heardOn p).ht with holds := (s.heardOn p).ht.holds ++ [placed], lastId := placed.id } : HoldTable) = _
      rw [State.heardOn_ht]
      rfl)
  have breakers : v.breakersSecured placed = true ∧ v.breakerFails placed = false := by
    obtain ⟨hk, _⟩ | ⟨_, hs, hb⟩ := kinds
    · have isNoreclose : placed.kind = .noreclose := hk
      exact ⟨by simp [State.breakersSecured, isNoreclose], by simp [State.breakerFails, isNoreclose]⟩
    · exact State.breakersSecured_line (h := placed) (k := k) rfl (by rw [seq]; exact hs) (pos.trans hb)
  have active : v.modHold (drawId s.ht.holds s.ht.lastId) activeHold =
      v.modHold (drawId s.ht.holds s.ht.lastId) fun x => { x with state := .active, timers := noHoldTimers } := by
    refine State.modHold_congr fun x hx hxid => ?_
    have member : x ∈ s.ht.holds ++ [placed] := by
      have table : v.ht.holds = s.ht.holds ++ [placed] := by
        show (s.heardOn p).ht.holds ++ [placed] = _
        rw [State.heardOn_ht]
      rwa [table] at hx
    rw [State.lineHold_only hroom member hxid]
    rfl
  have judged := Carried.step (l := []) (m := [])
    (handle_judgeHold_peer (p := p) found rfl peerPort_peerOrigin rfl breakers.1 breakers.2 quiet) (.done 0 _)
  have grant : placed.tag.setWidth 8 = id := setWidth_tag id
  rw [active, grant] at judged
  rw [State.quiet_eq (s := (v.modHold _ _).queueMessage p _) (by exact (State.queueMessage_agenda _ _ _).trans quiet)] at judged
  have c := Carried.skips (s := v) (m := l) (fun g mg => ?_) judged
  · show execAsk p station id line kind s = _
    unfold execAsk
    exact event_message r hv hq hst (fieldsValid_ask kind hid hline) placement c (by omega)
  · obtain ⟨hk, hs⟩ | ⟨hk, hs, hb⟩ := kinds
    · obtain rfl | rfl | rfl := hl g mg
      · exact handle_judgeWait_out (by rw [seq, hs]; decide)
      · exact handle_recloseBar_out (by rw [seq, hs])
      · exact absurd rfl (hnoreclose hk _ mg)
    · obtain rfl | rfl | rfl := hl g mg
      · refine handle_judgeWait_out ?_
        rw [seq]
        obtain e | e := hs <;> rw [e] <;> decide
      · exact absurd rfl (hisolate hk _ mg)
      · exact handle_holdDemand_opened (by rw [seq]; exact hs) (pos.trans hb)

omit r hv hq hst hid hline in
/-- R161: an ASK that repeats one which stands. -/
theorem State.takeAsk_repeated {x : Hold} (hx : s.peerHold p id = some x) (hk : x.kind = peerKind kind)
    (hsec : x.sections = [sectionOf k]) (hs : x.state ≠ .failed) :
    (s.heardOn p).takeMessage p (.ask id line kind) =
      if x.state = .active then (s.heardOn p).queueMessage p (.grant id x.id) else s.heardOn p := by
  have matched : (s.heardOn p).askMatches p line kind x = true := by
    unfold State.askMatches
    rw [State.heardOn_sharedOn hshare only]
    simp [hk, hsec]
  show State.takeAsk p id line kind (s.heardOn p) = _
  unfold State.takeAsk
  rw [State.heardOn_peerHold, hx]
  dsimp only
  rw [if_neg (by simp [matched, hs])]

theorem exec_ask_securing {x : Hold} (hx : s.peerHold p id = some x) (hk : x.kind = peerKind kind)
    (hsec : x.sections = [sectionOf k]) (hs : x.state = .securing) :
    exec (.ask p station id line kind) s = .next (s.heardOn p).finish := by
  show execAsk p station id line kind s = _
  unfold execAsk
  refine event_message_quiet r hv hq hst (fieldsValid_ask kind hid hline) ?_ (State.heardOn_agenda.trans r.quiet)
  rw [State.takeAsk_repeated hshare only hx hk hsec (by rw [hs]; decide), if_neg (by rw [hs]; decide)]

theorem exec_ask_active {x : Hold} (hx : s.peerHold p id = some x) (hk : x.kind = peerKind kind)
    (hsec : x.sections = [sectionOf k]) (hs : x.state = .active) :
    exec (.ask p station id line kind) s = .next ((s.heardOn p).queueMessage p (.grant id x.id)).finish := by
  show execAsk p station id line kind s = _
  unfold execAsk
  refine event_message_quiet r hv hq hst (fieldsValid_ask kind hid hline) ?_
    ((State.queueMessage_agenda _ _ _).trans (State.heardOn_agenda.trans r.quiet))
  rw [State.takeAsk_repeated hshare only hx hk hsec (by rw [hs]; decide), if_pos hs]

end

/-! ### GRANT, DENY, DROP and DROPPED (R120, R122, R138, R163) -/

section
variable {station : Byte} (r : Ready s) (hv : s.verification = none) (hq : (s.link p).state = .up)
  (hst : station = (s.store.cfg.port p).neighbour) (hid : id ≠ 0)

omit hid in
include r hv hq hst in
/-- R57, R103: a message that hands on nothing but waits, while no feeder waits. -/
theorem event_message_waits {body : MsgBody} (hbody : fieldsValid body = true) (hm : (s.heardOn p).takeMessage p body = u)
    (hw : ∀ k, (u.seq k).wait = none) (hl : waitsOnly u.agenda) (hn : u.agenda.length < 4096) :
    event (State.linkReceives p station body) s = .next (State.finish { u with agenda := [] }) := by
  have c := Carried.skips (s := u) (m := u.agenda) (l := []) (fun g mg => by
    obtain ⟨k, rfl⟩ := hl g mg
    exact handle_judgeWait (hw k)) (.done 0 u)
  rw [List.append_nil] at c
  exact event_message r hv hq hst hbody hm c (by omega)

include r hv hq hst hid

theorem exec_grant_unknown {holdId : Byte} (hh : holdId ≠ 0) (e : s.hold id = none) :
    exec (.grant p station id holdId) s = .next ((s.heardOn p).queueMessage p (.drop id)).finish := by
  show execGrant p station id holdId s = _
  unfold execGrant
  refine event_message_quiet r hv hq hst (fieldsValid_grant hid hh) ?_
    ((State.queueMessage_agenda _ _ _).trans (State.heardOn_agenda.trans r.quiet))
  show State.takeGrant p id holdId (s.heardOn p) = _
  unfold State.takeGrant
  rw [State.heardOn_hold, e]

/-- R122: the GRANT that a standing hold's ask is given. -/
theorem exec_grant_standing {holdId : Byte} (hh : holdId ≠ 0) (e : s.hold id = some h) (ha : (h.askOn p).isSome = true)
    (hs : h.state = .proving ∨ h.state = .earthing ∨ h.state = .active) :
    exec (.grant p station id holdId) s =
      .next ((s.heardOn p).modHold id (modAsks p fun a => { a with status := .granted, peerId := some holdId })).finish := by
  show execGrant p station id holdId s = _
  unfold execGrant
  refine event_message_quiet r hv hq hst (fieldsValid_grant hid hh) ?_ (State.heardOn_agenda.trans r.quiet)
  show State.takeGrant p id holdId (s.heardOn p) = _
  unfold State.takeGrant
  rw [State.heardOn_hold, e]
  dsimp only
  rw [if_neg (mt Option.isNone_iff_eq_none.1 (Option.isSome_iff_ne_none.1 ha))]
  obtain hs | hs | hs := hs <;> rw [hs]

theorem exec_deny_unknown {reason : DenyReason} (e : s.hold id = none) :
    exec (.deny p station id reason) s = .next (s.heardOn p).finish := by
  show execDeny p station id reason s = _
  unfold execDeny
  refine event_message_quiet r hv hq hst (by simpa [fieldsValid] using hid) ?_ (State.heardOn_agenda.trans r.quiet)
  show State.takeDeny p id reason (s.heardOn p) = _
  unfold State.takeDeny
  rw [State.heardOn_hold, e]

/-- R122: the ask of a hold denied. -/
def denied (p : Port) (reason : DenyReason) : Hold → Hold :=
  modAsks p fun a => { a with status := .denied, deny := some reason, awaiting := false }

/-- R120, R131: a DENY fails the hold whose one ask it answers. -/
theorem exec_deny_fails {reason : DenyReason} {a : PeerAsk} (e : s.hold id = some h) (ha : h.asks = [a]) (hp : a.port = p)
    (hstatus : a.status = .asked) (hs : h.state = .securing) (ho : h.origin = .station) (hlen : h.sections.length ≤ 7)
    (hw : ∀ k, (s.seq k).wait = none) :
    exec (.deny p station id reason) s = .next (State.finish
      { ((((s.heardOn p).modHold id (denied p reason)).modHold id (failedHold .peerDenied)).lowerHold h).pulse 57 with agenda := [] }) := by
  have own : h.id = id := State.hold_id e
  have found : ((s.heardOn p).modHold id (denied p reason)).hold id = some (denied p reason h) :=
    State.modHold_hold ((State.heardOn_hold id).trans e) own
  let w := ((s.heardOn p).modHold id (denied p reason)).modHold id (failedHold .peerDenied)
  have fails : State.failHold id .peerDenied ((s.heardOn p).modHold id (denied p reason)) = (w.lowerHold h).pulse 57 := by
    have silent : State.dropAsks (denied p reason h) (w.lowerHold h) = w.lowerHold h := by
      have asks : (denied p reason h).asks = [{ a with status := .denied, deny := some reason, awaiting := false }] := by
        show h.asks.map _ = _
        rw [ha, List.map_cons, if_pos hp]
        rfl
      unfold State.dropAsks
      rw [asks]
      refine forEach_still fun x hx => if_neg ?_
      rw [List.mem_singleton.1 hx]
      rintro ⟨c | c, _⟩ <;> cases c
    unfold State.failHold
    rw [found]
    dsimp only
    rw [if_pos (show caughtInFlight (denied p reason h) = true by simp [caughtInFlight, denied, modAsks, hs])]
    have lowered : State.lowerHold (denied p reason h) w = w.lowerHold h := rfl
    have station : peerPort (denied p reason h).origin = none := by
      show peerPort h.origin = none
      rw [ho]
      rfl
    show State.pulse 57 (match peerPort (denied p reason h).origin with
      | some q => _
      | none => State.dropAsks (denied p reason h) (State.lowerHold (denied p reason h) w)) = _
    rw [station, lowered, silent]
  obtain ⟨l, hl, hlen', agenda⟩ := State.lowerHold_agenda (s := w) h
  have agenda' : ((w.lowerHold h).pulse 57).agenda = l := by
    rw [State.pulse_agenda, agenda, show w.agenda = [] from State.heardOn_agenda.trans r.quiet, List.nil_append]
  show execDeny p station id reason s = _
  unfold execDeny
  refine event_message_waits r hv hq hst (by simpa [fieldsValid] using hid) (u := (w.lowerHold h).pulse 57) ?_ (fun k => ?_)
    (by rw [agenda']; exact hl) (by rw [agenda']; omega)
  · have asked : h.askOn p = some a := by
      unfold Hold.askOn
      rw [ha]
      exact List.find?_cons_of_pos (by simpa using hp)
    show State.takeDeny p id reason (s.heardOn p) = _
    unfold State.takeDeny
    rw [State.heardOn_hold, e]
    dsimp only
    rw [asked]
    exact (if_pos ⟨hs, hstatus⟩).trans fails
  · unfold State.seq
    rw [State.pulse_seqs, State.lowerHold_seqs]
    exact (congrArg Sequencer.wait (State.heardOn_seq k)).trans (hw k)

theorem exec_drop_unknown (hnone : s.peerHold p id = none) :
    exec (.drop p station id) s = .next ((s.heardOn p).queueMessage p (.dropped id)).finish := by
  show execDrop p station id s = _
  unfold execDrop
  refine event_message_quiet r hv hq hst (by simpa [fieldsValid] using hid) ?_
    ((State.queueMessage_agenda _ _ _).trans (State.heardOn_agenda.trans r.quiet))
  show State.takeDrop p id (s.heardOn p) = _
  unfold State.takeDrop
  rw [State.heardOn_peerHold, hnone]

/-- R138, R163: a DROP releases the PEER hold. -/
theorem exec_drop_releases (hx : s.peerHold p id = some h) (e : s.hold h.id = some h) (hk : h.kind ≠ .earth)
    (hsec : h.sections = [sectionOf k]) (ha : h.asks = []) (hw : (s.seq k).wait = none) (hs : h.state = .securing ∨ h.state = .active) :
    exec (.drop p station id) s =
      .next ((((s.heardOn p).retiredOn h.id h.kind k).unbind h.id).queueMessage p (.dropped id)).finish := by
  obtain ⟨l, hl, hlen, freed⟩ := State.releaseHold_line (s := s.heardOn p) ((State.heardOn_hold h.id).trans e)
    (hs.elim .inl fun c => .inr (.inr (.inr c))) hsec (fun c => absurd c hk) ha
  rw [State.heardOn_agenda, r.quiet, List.nil_append] at freed
  generalize hu : ((s.heardOn p).retiredOn h.id h.kind k).unbind h.id = v at freed
  have quiet : v.agenda = [] := by
    rw [← hu, State.unbind_agenda, State.retiredOn_agenda, State.heardOn_agenda, r.quiet]
  have wait : (v.seq k).wait = none := by
    have seqs : v.seqs = (s.heardOn p).seqs := by rw [← hu, State.unbind_seqs, State.retiredOn_seqs]
    unfold State.seq
    rw [seqs]
    exact (congrArg Sequencer.wait (State.heardOn_seq k)).trans hw
  have answered : State.queueMessage p (.dropped id) { v with agenda := l } = { v.queueMessage p (.dropped id) with agenda := l } :=
    (offLink_agenda l).queueMessage v (.dropped id)
  show execDrop p station id s = _
  unfold execDrop
  refine event_message r hv hq hst (by simpa [fieldsValid] using hid) (l := l) (u := v.queueMessage p (.dropped id)) ?_
    (waits_carried hl (by unfold State.seq; rw [State.queueMessage_seqs]; exact wait) ((State.queueMessage_agenda _ _ _).trans quiet))
    (by omega)
  rw [← answered, ← freed]
  show State.takeDrop p id (s.heardOn p) = _
  unfold State.takeDrop
  rw [State.heardOn_peerHold, hx]
  dsimp only
  rw [if_neg (by obtain hs | hs := hs <;> rw [hs] <;> decide)]

theorem exec_dropped_unknown (e : s.hold id = none) : exec (.dropped p station id) s = .next (s.heardOn p).finish :=
  dropped_unknown_heard r hv (by rw [hq]; decide) hst hid (State.linkHears_up hq) (State.heardOn_agenda.trans r.quiet)
    ((State.heardOn_hold id).trans e)

/-- R136, R137: the last DROPPED that a hold waits for retires it. -/
theorem exec_dropped_retires {a : PeerAsk} (e : s.hold id = some h) (ha : h.asks = [a]) (hp : a.port = p) (hwait : a.awaiting = true)
    (hs : h.state = .releasing) (hphase : h.phase = some .peerDrop) (hlen : h.sections.length ≤ 7) (hw : ∀ k, (s.seq k).wait = none) :
    exec (.dropped p station id) s = .next (State.finish
      { ((((s.heardOn p).modHold id (modAsks p fun a => { a with awaiting := false })).retired id).lowerHold h).unbind id with
        agenda := [] }) := by
  have own : h.id = id := State.hold_id e
  let w := (s.heardOn p).modHold id (modAsks p fun a => { a with awaiting := false })
  have found : w.hold id = some (modAsks p (fun a => { a with awaiting := false }) h) :=
    State.modHold_hold ((State.heardOn_hold id).trans e) own
  have done : (modAsks p (fun a => { a with awaiting := false }) h).asks.all (fun a => !a.awaiting) = true := by
    show (h.asks.map _).all _ = true
    rw [ha, List.map_cons, if_pos hp]
    rfl
  have retires : w.judgeDrop id = ((w.retired id).lowerHold h).unbind id := by
    unfold State.judgeDrop
    rw [found]
    refine (if_pos ⟨hphase, done⟩).trans ?_
    unfold State.retireHold
    rw [found]
    dsimp only
    rw [if_neg (show ¬ (modAsks p (fun a => { a with awaiting := false }) h).state = .failed by
      show ¬ h.state = .failed
      rw [hs]
      decide)]
    rfl
  obtain ⟨l, hl, hlen', agenda⟩ := State.lowerHold_agenda (s := w.retired id) h
  have agenda' : (((w.retired id).lowerHold h).unbind id).agenda = l := by
    rw [State.unbind_agenda, agenda, show (w.retired id).agenda = [] from State.heardOn_agenda.trans r.quiet, List.nil_append]
  show execDropped p station id s = _
  unfold execDropped
  refine event_message_waits r hv hq hst (by simpa [fieldsValid] using hid) (u := ((w.retired id).lowerHold h).unbind id) ?_ (fun k => ?_)
    (by rw [agenda']; exact hl) (by rw [agenda']; omega)
  · have asked : h.askOn p = some a := by
      unfold Hold.askOn
      rw [ha]
      exact List.find?_cons_of_pos (by simpa using hp)
    show State.takeDropped p id (s.heardOn p) = _
    unfold State.takeDropped
    rw [State.heardOn_hold, e]
    dsimp only
    rw [asked]
    exact (if_pos ⟨hs, hwait⟩).trans retires
  · unfold State.seq
    rw [State.unbind_seqs, State.lowerHold_seqs]
    exact (congrArg Sequencer.wait (State.heardOn_seq k)).trans (hw k)

end

/-! ### AUDIT (R166) -/

/-- R166: a hold stands for the audit. -/
def Hold.auditable (h : Hold) : Prop :=
  h.state = .securing ∨ h.state = .proving ∨ h.state = .earthing ∨ h.state = .active ∨
    (h.state = .releasing ∧ h.phase = some .earthOpen)

theorem auditStands_iff : auditStands h = true ↔ h.auditable := by
  unfold auditStands Hold.auditable
  cases h.state <;> simp

/-- R166: a DROP is owed for an ID of the list. -/
theorem auditEnds_iff {holds : List Hold} {x : Byte} :
    (!holds.any fun h => h.id == x && auditStands h && (h.askOn p).isSome) = true ↔
      ∀ h ∈ holds, h.id = x → ¬ h.auditable ∨ ∀ a ∈ h.asks, a.port ≠ p := by
  have asked (h : Hold) : (h.askOn p).isSome = true ↔ ∃ a ∈ h.asks, a.port = p := by
    unfold Hold.askOn
    rw [List.find?_isSome]
    simp
  have one (h : Hold) : (h.id == x && auditStands h && (h.askOn p).isSome) = true ↔
      h.id = x ∧ h.auditable ∧ ∃ a ∈ h.asks, a.port = p := by
    rw [Bool.and_eq_true, Bool.and_eq_true, asked, auditStands_iff, beq_iff_eq, and_assoc]
  rw [Bool.not_eq_true', List.any_eq_false]
  refine forall_congr' fun h => forall_congr' fun _ => ?_
  rw [one]
  constructor
  · intro c hid
    by_cases hs : h.auditable
    · exact .inr fun a ha hp => c ⟨hid, hs, a, ha, hp⟩
    · exact .inl hs
  · rintro c ⟨hid, hs, a, ha, hp⟩
    exact (c hid).elim (fun d => d hs) fun d => d a ha hp

/-- R166: the DROPs, the ASKs and the ASKs again that an AUDIT is answered with. -/
def State.auditAnswered (p : Port) (ends : List Byte) (asked lost : List (Byte × Byte × HoldKind)) (s : State) : State :=
  forEach lost (fun x u => (u.modHold x.1 (modAsks p fun a => { a with status := .asked, peerId := none })).queueMessage p
    (.ask x.1 x.2.1 x.2.2))
    (forEach asked (fun x => State.queueMessage p (.ask x.1 x.2.1 x.2.2))
      (forEach ends (fun x => State.queueMessage p (.drop x)) s))

theorem State.auditAnswered_agenda (ends : List Byte) (asked lost : List (Byte × Byte × HoldKind)) :
    (s.auditAnswered p ends asked lost).agenda = s.agenda := by
  unfold State.auditAnswered
  rw [forEach_same State.agenda _ _ _ fun x u => by simp, forEach_same State.agenda _ _ _ fun x u => by simp,
    forEach_same State.agenda _ _ _ fun x u => by simp]

theorem exec_audit_eq {station : Byte} {ids ends : List Byte} {asked lost : List (Byte × Byte × HoldKind)} (r : Ready s)
    (hv : s.verification = none) (hq : (s.link p).state = .up) (hst : station = (s.store.cfg.port p).neighbour)
    (hbody : fieldsValid (.audit ids) = true)
    (hends : ends = ids.filter fun x => !s.ht.holds.any fun h => h.id == x && auditStands h && (h.askOn p).isSome)
    (hasked : asked = auditAsks s.ht.holds p .asked)
    (hlost : lost = (auditAsks s.ht.holds p .granted).filter fun x => !ids.contains x.1) :
    exec (.audit p station ids) s = .next (State.finish (if lost = [] then (s.heardOn p).auditAnswered p ends asked lost
      else ((s.heardOn p).auditAnswered p ends asked lost).pulse 59)) := by
  have quiet : ((s.heardOn p).auditAnswered p ends asked lost).agenda = [] :=
    (State.auditAnswered_agenda _ _ _).trans (State.heardOn_agenda.trans r.quiet)
  show execAudit p station ids s = _
  unfold execAudit
  refine event_message_quiet r hv hq hst hbody ?_ ?_
  · show State.takeAudit p ids (s.heardOn p) = _
    unfold State.takeAudit
    dsimp only
    rw [State.heardOn_ht, ← hends, ← hasked, ← hlost]
    exact ite_of_iff List.isEmpty_iff
  · split
    · exact quiet
    · exact (State.pulse_agenda _ _).trans quiet

/-! ### The eight messages -/

/-- Settles O55, message by message. -/
theorem messagesTaken : Obligations.MessagesTaken := by
  unfold Obligations.MessagesTaken
  refine ⟨fun s p station id line kind => ⟨_, rfl⟩, fun s p station id r hv hq hst hid => ?_⟩
  intro heard shared gone noTimers
  have origins : (if p = .a then Origin.peerA else .peerB) = peerOrigin p := by cases p <;> rfl
  refine ⟨fun entries delivers hbody => ?_, fun line cause hline => ?_, fun line kind hline => ?_, fun holdId hh => ?_, fun reason => ?_,
    ?_, ?_, fun ids hbody => ?_⟩
  · intro told
    refine ⟨fun h => exec_beacon_unshared r hv hq hst hbody h, fun k line h only => ?_⟩
    intro said seen lineFed fed set
    exact ⟨fun hn => exec_beacon_known r hv hq hst hbody h only hn,
      fun hn hw => exec_beacon_seen r hv hq hst hbody h only hn hw,
      fun hn hf hw rests hu hwait => exec_beacon_wanted r hv hq hst hbody h only hn rfl hf hw rests hu hwait⟩
  · intro kept
    exact ⟨fun h => exec_intertrip_unshared r hv hq hst hline h, fun k h =>
      ⟨fun ho => exec_intertrip_opened r hv hq hst hline h.1 h.2 ho,
        fun hs quiet hb => exec_intertrip_trips r hv hq hst hline h.1 h.2 hs quiet hb⟩⟩
  · intro taken
    have kinds : taken = peerKind kind := by cases kind <;> rfl
    refine ⟨fun hnone h => exec_ask_unshared r hv hq hst hid hline hnone h, fun k h => ?_⟩
    intro holdId origin placed counted
    refine ⟨fun hnone hf hroom hpeers hfeeder => ?_, fun x hx hk hsec =>
      ⟨fun hs => exec_ask_securing r hv hq hst hid hline h.1 h.2 hx (hk.trans kinds) hsec hs,
        fun hs => exec_ask_active r hv hq hst hid hline h.1 h.2 hx (hk.trans kinds) hsec hs⟩⟩
    have table : heard.ht = s.ht := State.heardOn_ht
    have record : placed = s.lineHold (peerKind kind) (peerOrigin p) (id.setWidth 16) k none [] := by
      show ({ id := _, kind := taken, origin := origin, tag := _, sections := _, state := _, remaining := _, asks := _, purpose := _,
              phase := _, unearth := _, failure := _, placed := _, timers := _ } : Hold) = _
      rw [kinds, show origin = peerOrigin p from origins]
      rfl
    have counting : counted = (heard.withHold (s.lineHold (peerKind kind) (peerOrigin p) (id.setWidth 16) k none [])).peerCounted
        (peerKind kind) k := by
      unfold State.withHold State.peerCounted
      rw [table, ← record, ← kinds]
    rw [counting]
    exact exec_ask_placed r hv hq hst hid hline h.1 h.2 hnone hf hroom (by rw [← origins]; exact hpeers) hfeeder
  · exact ⟨fun e => exec_grant_unknown r hv hq hst hid hh e, fun h e ha hs => exec_grant_standing r hv hq hst hid hh e ha hs⟩
  · exact ⟨fun e => exec_deny_unknown r hv hq hst hid e, fun h a e ha hp hstatus hs ho hlen hw =>
      exec_deny_fails r hv hq hst hid e ha hp hstatus hs ho hlen hw⟩
  · refine ⟨fun hnone => exec_drop_unknown r hv hq hst hid hnone, fun h k hx e hk hsec ha hw hs => ?_⟩
    have lowered : loweredBy h.kind = fun r : SectionRec =>
        if h.kind = .noreclose then { r with noreclose := r.noreclose - 1 } else { r with isolate := r.isolate - 1 } := by
      funext r
      cases hkind : h.kind
      · rfl
      · exact absurd hkind hk
      · rfl
    have drops := exec_drop_releases r hv hq hst hid hx e hk hsec ha hw hs
    unfold State.retiredOn at drops
    rw [lowered] at drops
    exact drops
  · exact ⟨fun e => exec_dropped_unknown r hv hq hst hid e, fun h a e ha hp hwait hs hphase hlen hw =>
      exec_dropped_retires r hv hq hst hid e ha hp hwait hs hphase hlen hw⟩
  · intro stands asks ends lost dropping asking again
    have asking_eq (status : AskStatus) : asks status = auditAsks s.ht.holds p status := by
      refine congrArg (fun f => s.ht.holds.filterMap f) (funext fun h => ?_)
      unfold Hold.askOn
      cases h.asks.find? fun a => a.port = p with
      | none => rfl
      | some a =>
        refine ite_of_iff ?_
        rw [Bool.and_eq_true, beq_iff_eq, auditStands_iff]
        rfl
    refine exec_audit_eq r hv hq hst hbody (ends := ends) (asked := asks .asked) (lost := lost) ?_ (asking_eq _) ?_
    · refine List.filter_congr fun x _ => ?_
      rw [Bool.eq_iff_iff, auditEnds_iff, decide_eq_true_iff]
      rfl
    · show (asks .granted).filter _ = _
      rw [asking_eq]
      refine List.filter_congr fun x _ => ?_
      simp

end Sys2Proof.Machine
end

section
/-! PROOF. Contact inputs and pairs that settle, and the breaker of a feeder that takes a position (R11 to R14, R48, R53 to R55,
R61, R65, R99, R128). -/

namespace Sys2Proof.Machine

open Sys2Proof

variable {s t u v m : State} {k : FeederNo} {i : InputId} {p : PairId} {pos : Pos}

/-! ### Pins (R11) -/

theorem State.setInput_same (i : InputId) : s.setInput i (s.input i) = s := by
  have same : s.mi.inputs.set (inputIndex i).val (s.mi.inputs.get (inputIndex i)) (inputIndex i).isLt = s.mi.inputs := vset_get _ _
  unfold State.setInput State.input
  rw [same]

theorem rawChange_same {r : ContactInput} {on : Bool} (h : r.raw = on) : rawChange on r = r := if_pos h

theorem rawChange_new {r : ContactInput} {on : Bool} (h : r.raw ≠ on) :
    rawChange on r = { r with raw := on, stability := if r.level = some on then none else some 3 } := by
  unfold rawChange
  rw [if_neg h]
  cases hl : r.level with
  | none => rfl
  | some l =>
    by_cases e : on = l
    · subst e
      simp
    · simp [e, Ne.symm e]

/-! ### Inputs that settle (R11, R15) -/

theorem State.takeInput_settles (h : (s.input i).level = none) :
    s.takeInput i = (s.setInput i { s.input i with level := some (s.input i).raw, stability := none }).inputTaken i false := by
  unfold State.takeInput
  dsimp only
  rw [h]

theorem State.takeInput_changes (h : (s.input i).level = some (!(s.input i).raw)) (hs : (s.input i).stability ≠ none) :
    s.takeInput i =
      (s.setInput i { raw := (s.input i).raw, level := some (s.input i).raw, stability := none }).inputTaken i true := by
  unfold State.takeInput
  dsimp only
  rw [h]
  dsimp only
  rw [if_pos]
  rw [Bool.and_eq_true, Option.isSome_iff_ne_none]
  refine ⟨hs, ?_⟩
  cases (s.input i).raw <;> rfl

theorem pairOf_contactsOf (h : i = (contactsOf p).1 ∨ i = (contactsOf p).2) : pairOf i = some p := by
  cases p <;> obtain rfl | rfl := h <;> rfl

/-- R12: the position that two settled contacts show. -/
theorem State.shown_settled {a b : Bool} (ha : (s.input (contactsOf p).1).level = some a)
    (hb : (s.input (contactsOf p).2).level = some b) : s.shown p = some (positionOf a b) := by
  unfold State.shown
  rw [ha, hb]

theorem positionOf_eq (a b : Bool) :
    positionOf a b = if a then (if b then Pos.discrepant else .closed) else if b then .opened else .transit := by
  cases a <;> cases b <;> rfl

theorem State.derivePair_shown (h : s.shown p = some pos) :
    s.derivePair p = s.pairBecomes p pos (if pos = .transit then some s.store.cfg.tTransit else none) := by
  unfold State.derivePair
  rw [h]

/-- R12, R15: a position derived before equipment verification has ended is not handed on. -/
theorem State.pairBecomes_verifying (h : s.verification ≠ none) (timer : Option Nat) :
    s.pairBecomes p pos timer = s.setPair p { derived := some pos, handed := (s.pair p).handed, transit := timer } := by
  have verifying : s.verifying = true := Option.isSome_iff_ne_none.2 h
  unfold State.pairBecomes
  simp [verifying]

/-- R14: a new position reaches the owners. -/
theorem State.pairBecomes_new (h : s.verification = none) (hp : (s.pair p).derived ≠ some pos) (timer : Option Nat) :
    s.pairBecomes p pos timer =
      (s.setPair p { derived := some pos, handed := some pos, transit := timer }).takePosition p (s.pair p).handed pos := by
  have verified : s.verifying = false := by simp [State.verifying, h]
  unfold State.pairBecomes
  simp [verified, hp]

/-! ### The AC breaker of a group that does not run (R88) -/

theorem State.acMoves_discrepant (h : s.rect.state = .off ∨ s.rect.state = .tripped) (hsec : s.securingBus = []) :
    s.acMoves .discrepant = s := by
  have taken : s.rectTakesAc .discrepant = s := by
    unfold State.rectTakesAc State.rectTripRunning
    obtain h | h := h <;> simp [h, groupRuns]
  unfold State.acMoves
  dsimp only
  rw [taken, hsec, if_neg (by simp)]
  unfold State.handAll
  rw [List.map_nil, List.append_nil]

/-! ### A breaker that moves, of an unshared feeder whose engine rests -/

/-- The breaker of feeder k has come to a position that its owners have not taken yet; nothing but the feeder looks at it. -/
structure BreakerMoved (m : State) (k : FeederNo) (pos : Pos) : Prop where
  at_pos : m.breakerPos k = some pos
  quiet : FeederQuiet m k
  agenda : m.agenda = []
  fitted : m.fitted k = true
  share : m.share k = none
  wanted : (m.sec (sectionOf k)).wanted = .single
  commanded : (m.sec (sectionOf k)).commandedClosed = false
  drive : (m.sec (sectionOf k)).drive ≠ .close

theorem State.handAll_nil : s.handAll [] = s := by
  unfold State.handAll
  rw [List.append_nil]

theorem State.deriveFeed_line (k : FeederNo) : ∃ feed, (s.deriveFeed k).sec (sectionOf k) = { s.sec (sectionOf k) with feed := feed } := by
  unfold State.deriveFeed
  dsimp only
  rw [State.modSec_sec_ne _ (sectionOf_ne_bus k), State.modSec_sec]
  exact ⟨_, rfl⟩

theorem State.wantedOf_unshared (h : s.share k = none) : s.wantedOf k = .single := by
  unfold State.wantedOf
  rw [h]

theorem State.securingOver_congr (hht : t.ht = s.ht) (hst : t.store = s.store) : t.securingOver k = s.securingOver k := by
  unfold State.securingOver State.covers State.fitted
  rw [hht, hst]

/-- R14: what the owners of a breaker do besides its sequencer, whose own part leaves `v` and hands on `l`. -/
theorem BreakerMoved.breakerMoves (b : BreakerMoved m k pos) {l : List Signal} (hv : m.seqTakesPosition k pos = { v with agenda := l })
    (hsec : v.sections = m.sections) (hst : v.store = m.store) (hht : v.ht = m.ht) (before : Option Pos) :
    m.breakerMoves k before pos =
      if pos = .closed then
        State.violation k (m.seqIn k .closing && (m.seq k).holdOpenPending) { v.deriveFeed k with agenda := l }
      else { v.deriveFeed k with agenda := l } := by
  have interlock : m.earthInterlock k = m := by
    unfold State.earthInterlock
    dsimp only
    rw [if_neg b.drive, b.commanded]
    simp
  have derived : (State.deriveFeed k { v with agenda := l }).deriveWanted k = { v.deriveFeed k with agenda := l } := by
    have share : State.share (State.deriveFeed k { v with agenda := l }) k = none := by
      unfold State.share
      rw [State.deriveFeed_store]
      exact (congrArg (fun x => State.share { m with store := x } k) hst).trans b.share
    refine State.deriveWanted_same (.inr ?_)
    obtain ⟨feed, hfeed⟩ := State.deriveFeed_line (s := { v with agenda := l }) k
    rw [State.wantedOf_unshared share, hfeed]
    have same : State.sec { v with agenda := l } (sectionOf k) = m.sec (sectionOf k) := by
      unfold State.sec
      rw [← hsec]
    rw [same]
    exact b.wanted
  have share : State.share { v.deriveFeed k with agenda := l } k = none :=
    (congrArg (fun x => State.share { m with store := x } k) ((State.deriveFeed_store v k).trans hst)).trans b.share
  have securing : State.securingOver { v.deriveFeed k with agenda := l } k = [] :=
    (State.securingOver_congr ((State.deriveFeed_ht v k).trans hht) ((State.deriveFeed_store v k).trans hst)).trans b.quiet.securing
  unfold State.breakerMoves
  dsimp only
  rw [interlock, hv, derived, share]
  dsimp only
  rw [securing, List.map_nil, State.handAll_nil]

theorem State.violation_free {pending : Bool} (h : s.isolated k = false ∨ pending = true) : s.violation k pending = s := by
  unfold State.violation
  obtain h | h := h <;> simp [h]

theorem State.deriveFeed_isolated (k : FeederNo) : (s.deriveFeed k).isolated k = s.isolated k := by
  have bus : ((s.deriveFeed k).sec busSection).isolate = (s.sec busSection).isolate := by
    unfold State.deriveFeed
    dsimp only
    rw [State.modSec_sec, State.modSec_sec_ne _ (sectionOf_ne_bus k).symm]
  obtain ⟨feed, line⟩ := State.deriveFeed_line (s := s) k
  unfold State.isolated
  rw [bus, line]

/-- R14, R128: a position that violates no hold. -/
theorem BreakerMoved.breakerMoves_free (b : BreakerMoved m k pos) {l : List Signal}
    (hv : m.seqTakesPosition k pos = { v with agenda := l }) (hsec : v.sections = m.sections) (hst : v.store = m.store) (hht : v.ht = m.ht)
    (hfree : pos ≠ .closed ∨ m.isolated k = false ∨ (m.seq k).state = some .closing ∧ (m.seq k).holdOpenPending = true)
    (before : Option Pos) : m.breakerMoves k before pos = { v.deriveFeed k with agenda := l } := by
  rw [b.breakerMoves hv hsec hst hht]
  split
  next hc =>
    refine State.violation_free ?_
    obtain h | h | ⟨h, h'⟩ := hfree
    · exact absurd hc h
    · refine .inl ((State.deriveFeed_isolated (s := v) k).trans ?_)
      unfold State.isolated State.sec at h ⊢
      rw [hsec]
      exact h
    · exact .inr (by simp [State.seqIn, h, h'])
  · rfl

/-! ### What it leads to -/

section
variable {f : State → State} {before : Option Pos} (b : BreakerMoved m k pos) (hrun : s.resetHeld = false)
  (hf : f s = m.breakerMoves k before pos)
  (hfree : pos ≠ .closed ∨ m.isolated k = false ∨ (m.seq k).state = some .closing ∧ (m.seq k).holdOpenPending = true)

include b hrun hf hfree

/-- A position that leaves the state of the sequencer. -/
theorem BreakerMoved.stays (hv : m.seqTakesPosition k pos = v) (ha : v.agenda = []) (hsec : v.sections = m.sections)
    (hst : v.store = m.store) (hht : v.ht = m.ht) : event f s = .next (v.deriveFeed k).finish := by
  have quiet : (v.deriveFeed k).agenda = [] := (State.deriveFeed_agenda v k).trans ha
  have moves := hf.trans (b.breakerMoves_free (l := []) (hv.trans (State.quiet_eq ha).symm) hsec hst hht hfree before)
  rw [State.quiet_eq quiet] at moves
  exact event_quiet_next hrun moves quiet

/-- A position on which the sequencer enters another state. -/
theorem BreakerMoved.enters {g : Sequencer → Sequencer} {l : List Signal} (hl : l = [.seqChanged k] ∨ l = [.seqChanged k, .seqChanged k])
    (hv : m.seqTakesPosition k pos = { v.modSeq k g with agenda := l }) (ha : v.agenda = []) (hsec : v.sections = m.sections)
    (hst : v.store = m.store) (hht : v.ht = m.ht) :
    event f s = .next (State.deriveBars (sectionOf k) ((v.modSeq k g).deriveFeed k)).finish := by
  let w := (v.modSeq k g).deriveFeed k
  have securing : w.securingOver k = [] :=
    (State.securingOver_congr ((State.deriveFeed_ht _ k).trans hht) ((State.deriveFeed_store _ k).trans hst)).trans b.quiet.securing
  have quiet : (State.deriveBars (sectionOf k) w).agenda = [] := (State.deriveFeed_agenda _ k).trans ha
  have once : Carried 1 w [.seqChanged k] { State.deriveBars (sectionOf k) w with agenda := [] } :=
    .step (m := []) (handle_seqChanged securing) (.done 0 _)
  have twice : Carried 2 w [.seqChanged k, .seqChanged k] { State.deriveBars (sectionOf k) w with agenda := [] } := by
    refine .step (m := []) (handle_seqChanged securing) (.step (m := []) (u := State.deriveBars (sectionOf k) w) ?_ (.done 0 _))
    refine (handle_seqChanged (s := State.deriveBars (sectionOf k) w) (k := k) securing).trans ?_
    rw [State.deriveBars_twice]
  have moves := hf.trans (b.breakerMoves_free hv hsec hst hht hfree before)
  rw [State.quiet_eq quiet] at once twice
  obtain rfl | rfl := hl
  · exact event_carried_next hrun moves once (by decide)
  · exact event_carried_next hrun moves twice (by decide)

end

end Sys2Proof.Machine
end

section
/-! PROOF. What a breaker sequencer does at each position of its breaker (R48, R53 to R55, R61, R65, R128). -/

namespace Sys2Proof.Machine

open Sys2Proof

variable {s t u v m : State} {k : FeederNo} {pos : Pos}

/-- R43: the open pulse of a sequencer ends. -/
def pulseOff (r : Sequencer) : Sequencer := { r with openPulse := none }

/-- R48, R49: the sequencer of feeder k when its open is confirmed. -/
def State.confirms (m : State) (k : FeederNo) (r : Sequencer) : Sequencer :=
  r.confirmed (m.reclose k) (confirmedOutcome (m.isolated k) (m.reclosBarred k) (m.reclose k).nRec r)

theorem State.confirms_pulseOff (r : Sequencer) : m.confirms k (pulseOff r) = m.confirms k r := by
  unfold State.confirms
  have same : confirmedOutcome (m.isolated k) (m.reclosBarred k) (m.reclose k).nRec (pulseOff r) =
      confirmedOutcome (m.isolated k) (m.reclosBarred k) (m.reclose k).nRec r := rfl
  rw [same]
  cases confirmedOutcome (m.isolated k) (m.reclosBarred k) (m.reclose k).nRec r <;> rfl

section
variable (r : EngineRests m k)

include r

theorem EngineRests.takesOpened : m.seqTakesPosition k .opened =
    if (m.seq k).state = some .inService then (m.modSeq k pulseOff).seqTrip k .direct none
    else if (m.seq k).state = some .tripping then (m.modSeq k pulseOff).openConfirmed k
    else m.modSeq k pulseOff := by
  have rests : EngineRests (m.modSeq k pulseOff) k := r.congr rfl
  have state : ((m.modSeq k pulseOff).seq k).state = (m.seq k).state := by
    rw [State.modSeq_seq]
    rfl
  have off : (m.modSeq k fun r => { r with openPulse := none }).engineOpen k = m.modSeq k pulseOff := rests.engineOpen
  unfold State.seqTakesPosition
  dsimp only
  rw [off, state]
  split
  next h => rw [if_pos h]
  next h => rw [h]; rfl
  next h1 h2 => rw [if_neg h1, if_neg h2]

/-- R48: the breaker opens in TRIPPING. -/
theorem EngineRests.takesOpened_tripping (ha : m.agenda = []) (h : (m.seq k).state = some .tripping) :
    m.seqTakesPosition k .opened = { m.modSeq k (m.confirms k) with agenda := [.seqChanged k] } := by
  have rests : EngineRests (m.modSeq k pulseOff) k := r.congr rfl
  have seq : (m.modSeq k pulseOff).seq k = pulseOff (m.seq k) := State.modSeq_seq _ _ _
  have confirmed := rests.openConfirmed (by rw [seq]; exact h)
  rw [r.takesOpened, if_neg (by rw [h]; decide), if_pos h, confirmed, seq]
  have written : (m.modSeq k pulseOff).modSeq k (fun x => x.confirmed (m.reclose k)
      (confirmedOutcome (m.isolated k) (m.reclosBarred k) (m.reclose k).nRec (pulseOff (m.seq k)))) = m.modSeq k (m.confirms k) :=
    (State.modSeq_modSeq _ _).trans (State.modSeq_congr (State.confirms_pulseOff (m.seq k)))
  have agenda : (m.modSeq k pulseOff).agenda ++ [Signal.seqChanged k] = [.seqChanged k] := by
    rw [State.modSeq_agenda, ha]
    rfl
  rw [agenda]
  exact congrArg (fun v : State => { v with agenda := [.seqChanged k] }) written

end

/-- R44 to R46, R54: a DIRECT trip of an unshared feeder whose breaker stands OPEN is confirmed at once. -/
theorem EngineRests.directTrip_confirmed (r : EngineRests m k) (ha : m.agenda = []) (h : (m.seq k).state = some .inService)
    (hb : m.breakerPos k = some .opened) (hshare : m.share k = none) :
    (m.modSeq k pulseOff).seqTrip k .direct none =
      { (m.pulse (feederPoint 0 k)).modSeq k (fun x => m.confirms k (x.tripped (m.demandRecord k .direct) none)) with
        agenda := [.seqChanged k, .seqChanged k] } := by
  have rests : EngineRests (m.modSeq k pulseOff) k := r.congr rfl
  have seq : (m.modSeq k pulseOff).seq k = pulseOff (m.seq k) := State.modSeq_seq _ _ _
  have demand : (m.modSeq k pulseOff).demandRecord k .direct = m.demandRecord k .direct :=
    State.demandRecord_congr .direct rfl rfl rfl (by rw [seq]; rfl)
  let trips : Sequencer → Sequencer := fun x => x.tripped (m.demandRecord k .direct) none
  let w : State := { (m.pulse (feederPoint 0 k)).modSeq k trips with agenda := [.seqChanged k] }
  have tripped : State.afterTrip k .direct
      { (m.modSeq k pulseOff).modSeq k trips with agenda := (m.modSeq k pulseOff).agenda ++ [.seqChanged k] } = w := by
    have written : (m.modSeq k pulseOff).modSeq k trips = m.modSeq k trips :=
      (State.modSeq_modSeq _ _).trans (State.modSeq_congr rfl)
    have agenda : (m.modSeq k pulseOff).agenda ++ [Signal.seqChanged k] = [.seqChanged k] := by
      rw [State.modSeq_agenda, ha]
      rfl
    rw [agenda]
    have both : ({ (m.modSeq k pulseOff).modSeq k trips with agenda := [.seqChanged k] } : State) =
        { m.modSeq k trips with agenda := [.seqChanged k] } := congrArg (fun v : State => { v with agenda := [.seqChanged k] }) written
    rw [both]
    refine (State.intertripFor_unshared ?_ _).trans (State.pulse_modSeq _ _ _)
    show (State.pulse (feederPoint 0 k) { m.modSeq k trips with agenda := [.seqChanged k] }).share k = none
    unfold State.share
    rw [State.pulse_store]
    exact hshare
  have frame : w.engines = m.engines ∧ w.sections = m.sections ∧ w.store = m.store :=
    ⟨State.pulse_engines _ _, State.pulse_sections _ _, State.pulse_store _ _⟩
  obtain ⟨engines, sections, store⟩ := frame
  have wseq : w.seq k = trips (m.seq k) := by
    show ((m.pulse (feederPoint 0 k)).modSeq k trips).seq k = _
    rw [State.modSeq_seq]
    unfold State.seq
    rw [State.pulse_seqs]
  have confirmed := (r.congr engines : EngineRests w k).openConfirmed (by rw [wseq]; rfl)
  have isolated : w.isolated k = m.isolated k := by unfold State.isolated State.sec; rw [sections]
  have barred : w.reclosBarred k = m.reclosBarred k := by unfold State.reclosBarred State.sec; rw [sections]
  have reclose : w.reclose k = m.reclose k := by
    unfold State.reclose State.feederSettings
    rw [store]
  rw [isolated, barred, reclose, wseq] at confirmed
  rw [rests.seqTrip .direct none (.inl (by rw [seq]; exact h)) (by rw [if_pos (by exact hb)]), demand]
  dsimp only
  rw [if_pos (by exact hb), tripped, confirmed]
  have written : w.modSeq k (fun x => x.confirmed (m.reclose k)
      (confirmedOutcome (m.isolated k) (m.reclosBarred k) (m.reclose k).nRec (trips (m.seq k)))) =
      { (m.pulse (feederPoint 0 k)).modSeq k (fun x => m.confirms k (trips x)) with agenda := [.seqChanged k] } := by
    have same : ((m.pulse (feederPoint 0 k)).modSeq k trips).modSeq k (fun x => x.confirmed (m.reclose k)
        (confirmedOutcome (m.isolated k) (m.reclosBarred k) (m.reclose k).nRec (trips (m.seq k)))) =
        (m.pulse (feederPoint 0 k)).modSeq k (fun x => m.confirms k (trips x)) := by
      rw [State.modSeq_modSeq]
      refine State.modSeq_congr ?_
      have record : (m.pulse (feederPoint 0 k)).seq k = m.seq k := by unfold State.seq; rw [State.pulse_seqs]
      rw [record]
      rfl
    exact congrArg (fun v : State => { v with agenda := [.seqChanged k] }) same
  exact congrArg (fun v : State => { v with agenda := [.seqChanged k, .seqChanged k] }) written

/-! ### TRANSIT -/

theorem State.takesTransit : m.seqTakesPosition k .transit =
    if (m.seq k).state = some .inService then m.seqTrip k .direct none else m := by
  unfold State.seqTakesPosition
  dsimp only
  split
  next h => rw [if_pos h]
  next h => rw [if_neg h]

/-- R44 to R46, R53: a DIRECT trip of an unshared feeder whose breaker is on its way. -/
theorem EngineRests.takesTransit (r : EngineRests m k) (ha : m.agenda = []) (h : (m.seq k).state = some .inService)
    (hb : m.breakerPos k ≠ some .opened) (hshare : m.share k = none) :
    m.seqTakesPosition k .transit =
      { (m.pulse (feederPoint 0 k)).modSeq k (fun x =>
          x.tripped (m.demandRecord k .direct) (some (x.openPulse.getD m.store.cfg.tOpenMax))) with agenda := [.seqChanged k] } := by
  rw [State.takesTransit, if_pos h, r.seqTrip_pulsing rfl (.inl hshare) h hb, ha, List.nil_append]
  exact congrArg (fun v : State => { v with agenda := [.seqChanged k] })
    (State.pulse_comm (f := State.modSeq k _) (feederPoint 0 k) (fun _ => rfl) rfl rfl rfl).symm

/-! ### CLOSED -/

/-- R61: the sequencer of feeder k when its breaker closes in CLOSING. -/
def State.hasClosed (m : State) (k : FeederNo) (r : Sequencer) : Sequencer :=
  { r.bare .inService with
    lastClose := .closed
    closeKind := if r.closeKind = some .automatic then some .automatic else none
    reclaimTimer := if r.closeKind = some .automatic then some ((m.reclose k).tReclaim * 1000) else none }

theorem EngineRests.takesClosed_closing (r : EngineRests m k) (ha : m.agenda = []) (h : (m.seq k).state = some .closing)
    (hp : (m.seq k).holdOpenPending = false) :
    m.seqTakesPosition k .closed = { m.modSeq k (m.hasClosed k) with agenda := [.seqChanged k] } := by
  unfold State.seqTakesPosition
  dsimp only
  rw [h]
  dsimp only
  rw [if_neg (by rw [hp]; decide)]
  unfold State.closingComplete
  dsimp only
  refine r.enters_now ha (by rw [h]; decide) ?_
  unfold State.hasClosed
  by_cases hk : (m.seq k).closeKind = some .automatic
  · simp [enterFields, Sequencer.bare, hk]
  · simp [enterFields, Sequencer.bare, hk]

/-- R65: the breaker closes in CLOSING with hold open pending. -/
theorem EngineRests.takesClosed_pending (r : EngineRests m k) (ha : m.agenda = []) (h : (m.seq k).state = some .closing)
    (hp : (m.seq k).holdOpenPending = true) (hb : m.breakerPos k ≠ some .opened) :
    m.seqTakesPosition k .closed =
      { m.modSeq k (fun x => x.tripped (m.demandRecord k .hold) (some (x.openPulse.getD m.store.cfg.tOpenMax))) with
        agenda := [.seqChanged k] } := by
  unfold State.seqTakesPosition
  dsimp only
  rw [h]
  dsimp only
  rw [if_pos hp, r.seqTrip .hold (some ((m.seq k).openPulse.getD m.store.cfg.tOpenMax)) (.inr h) (if_neg hb).symm]
  dsimp only
  rw [if_neg hb, ha, List.nil_append]
  have written : m.modSeq k (fun x => x.tripped (m.demandRecord k .hold) (some ((m.seq k).openPulse.getD m.store.cfg.tOpenMax))) =
      m.modSeq k fun x => x.tripped (m.demandRecord k .hold) (some (x.openPulse.getD m.store.cfg.tOpenMax)) := State.modSeq_congr rfl
  exact congrArg (fun v : State => { v with agenda := [.seqChanged k] }) written

theorem State.takesClosed_open (h : (m.seq k).state = some .opened ∨ (m.seq k).state = some .lockout) :
    m.seqTakesPosition k .closed = m.pulse (feederPoint 12 k) := by
  unfold State.seqTakesPosition
  obtain h | h := h <;> simp only [h]

theorem EngineRests.takesClosed_testing (r : EngineRests m k) (ha : m.agenda = [])
    (h : (m.seq k).state = some .deadTime ∨ (m.seq k).state = some .lineTest) :
    m.seqTakesPosition k .closed =
      { (m.pulse (feederPoint 12 k)).modSeq k (Sequencer.bare .lockout) with agenda := [.seqChanged k] } := by
  have rests : EngineRests (m.pulse (feederPoint 12 k)) k := r.congr (State.pulse_engines _ _)
  have seq : (m.pulse (feederPoint 12 k)).seq k = m.seq k := by unfold State.seq; rw [State.pulse_seqs]
  have locked : (m.pulse (feederPoint 12 k)).seqToLockout k =
      { (m.pulse (feederPoint 12 k)).modSeq k (Sequencer.bare .lockout) with agenda := [.seqChanged k] } := by
    refine rests.enters_now ((State.pulse_agenda _ _).trans ha) ?_ rfl
    rw [seq]
    obtain h | h := h <;> rw [h] <;> decide
  rw [← locked]
  unfold State.seqTakesPosition
  obtain h | h := h <;> simp only [h]

theorem State.takesClosed_rest (h : (m.seq k).state = some .inService ∨ (m.seq k).state = some .tripping ∨
    (m.seq k).state = some .breakerFault) : m.seqTakesPosition k .closed = m := by
  unfold State.seqTakesPosition
  obtain h | h | h := h <;> simp only [h]

/-! ### DISCREPANT (R53) -/

/-- R53: a sequencer that finds its breaker DISCREPANT. -/
def foundDiscrepant (r : Sequencer) : Sequencer := { r.bare .breakerFault with failure := some .discrepant }

theorem EngineRests.discrepant_faults (r : EngineRests m k) (ha : m.agenda = []) (h : (m.seq k).state ≠ some .breakerFault) :
    (m.enter k .breakerFault fun x => { x with failure := some .discrepant }) =
      { m.modSeq k foundDiscrepant with agenda := [.seqChanged k] } := r.enters_now ha h rfl

theorem EngineRests.takesDiscrepant_running (r : EngineRests m k) (ha : m.agenda = []) (hb : m.breakerPos k ≠ some .opened)
    (h : (m.seq k).state = some .inService ∨ (m.seq k).state = some .closing) :
    m.seqTakesPosition k .discrepant =
      { m.modSeq k (fun x => { foundDiscrepant x with openPulse := some (x.openPulse.getD m.store.cfg.tOpenMax) }) with
        agenda := [.seqChanged k] } := by
  have faults := r.discrepant_faults ha (by obtain h | h := h <;> rw [h] <;> decide)
  have pulsed : (m.enter k .breakerFault fun x => { x with failure := some .discrepant }).startOpenPulse k =
      { m.modSeq k (fun x => { foundDiscrepant x with openPulse := some (x.openPulse.getD m.store.cfg.tOpenMax) }) with
        agenda := [.seqChanged k] } := by
    rw [faults, State.startOpenPulse_moving (by exact hb)]
    have written : ((m.modSeq k foundDiscrepant).modSeq k fun x =>
        { x with closeCoil := false, closeTimer := none, openPulse := some (x.openPulse.getD m.store.cfg.tOpenMax) }) =
        m.modSeq k fun x => { foundDiscrepant x with openPulse := some (x.openPulse.getD m.store.cfg.tOpenMax) } :=
      (State.modSeq_modSeq _ _).trans (State.modSeq_congr rfl)
    exact congrArg (fun v : State => { v with agenda := [.seqChanged k] }) written
  rw [← pulsed]
  show m.seqDiscrepant k = _
  unfold State.seqDiscrepant
  obtain h | h := h <;> simp only [h]

theorem EngineRests.takesDiscrepant_standing (r : EngineRests m k) (ha : m.agenda = [])
    (h : (m.seq k).state = some .tripping ∨ (m.seq k).state = some .lineTest ∨ (m.seq k).state = some .deadTime ∨
      (m.seq k).state = some .opened ∨ (m.seq k).state = some .lockout) :
    m.seqTakesPosition k .discrepant = { m.modSeq k foundDiscrepant with agenda := [.seqChanged k] } := by
  have faults := r.discrepant_faults ha (by obtain h | h | h | h | h := h <;> rw [h] <;> decide)
  rw [← faults]
  show m.seqDiscrepant k = _
  unfold State.seqDiscrepant
  obtain h | h | h | h | h := h <;> simp only [h]

theorem State.takesDiscrepant_fault (h : (m.seq k).state = some .breakerFault) : m.seqTakesPosition k .discrepant = m := by
  show m.seqDiscrepant k = _
  unfold State.seqDiscrepant
  simp only [h]

/-! ### An unexpected closing on an isolated section (R55, R128) -/

/-- R43: the sequencer of feeder k whose open pulse starts. -/
def State.reopens (m : State) (r : Sequencer) : Sequencer :=
  { r with closeCoil := false, closeTimer := none, openPulse := some (r.openPulse.getD m.store.cfg.tOpenMax) }

theorem BreakerMoved.violates {f : State → State} {before : Option Pos} (b : BreakerMoved m k .closed) (hrun : s.resetHeld = false)
    (hf : f s = m.breakerMoves k before .closed) (hi : m.isolated k = true)
    (h : (m.seq k).state = some .opened ∨ (m.seq k).state = some .lockout) :
    event f s = .next ((((m.pulse (feederPoint 12 k)).deriveFeed k).pulse 59).modSeq k m.reopens).finish := by
  let v := m.pulse (feederPoint 12 k)
  let w := (v.deriveFeed k).pulse 59
  have quiet : v.agenda = [] := (State.pulse_agenda _ _).trans b.agenda
  have pending : (m.seqIn k .closing && (m.seq k).holdOpenPending) = false := by
    obtain h | h := h <;> simp [State.seqIn, h]
  have still : (v.deriveFeed k).agenda = [] := (State.deriveFeed_agenda v k).trans quiet
  have isolated : (v.deriveFeed k).isolated k = true := by
    rw [State.deriveFeed_isolated]
    unfold State.isolated State.sec at hi ⊢
    rw [State.pulse_sections]
    exact hi
  have moves : f s = { w with agenda := [.holdDemand k] } := by
    rw [hf, b.breakerMoves (v := v) (l := []) ((State.takesClosed_open h).trans (State.quiet_eq quiet).symm) (State.pulse_sections _ _)
      (State.pulse_store _ _) (State.pulse_ht _ _), if_pos rfl, pending, State.quiet_eq still]
    unfold State.violation
    rw [isolated]
    exact State.hand_quiet ((State.pulse_agenda _ _).trans still) _
  have seq : w.seq k = m.seq k := by
    unfold State.seq
    rw [State.pulse_seqs, State.deriveFeed_seqs, State.pulse_seqs]
  have pos : w.breakerPos k = some .closed := by
    rw [State.breakerPos_congr (t := w) (s := m) (((State.pulse_mi _ _).trans (State.deriveFeed_mi v k)).trans (State.pulse_mi _ _))]
    exact b.at_pos
  have store : w.store = m.store := ((State.pulse_store _ _).trans (State.deriveFeed_store v k)).trans (State.pulse_store _ _)
  have opens : State.handle (.holdDemand k) { w with agenda := [] } = { w.modSeq k m.reopens with agenda := [] } := by
    have demanded : State.seqHoldDemand k { w with agenda := [] } = State.startOpenPulse k { w with agenda := [] } := by
      have correct : State.correctiveOpen k { w with agenda := [] } = State.startOpenPulse k { w with agenda := [] } :=
        if_neg (by rw [show State.breakerPos { w with agenda := [] } k = some .closed from pos]; decide)
      have state : (State.seq { w with agenda := [] } k).state = (m.seq k).state := congrArg Sequencer.state seq
      rw [← correct]
      unfold State.seqHoldDemand
      rw [state]
      obtain h | h := h <;> simp only [h]
    refine (show State.handle (.holdDemand k) { w with agenda := [] } = _ from demanded).trans ?_
    rw [State.startOpenPulse_moving (by rw [show State.breakerPos { w with agenda := [] } k = some .closed from pos]; decide)]
    unfold State.reopens
    rw [← store]
    rfl
  have c := Carried.step (l := []) (m := []) opens (.done 0 _)
  rw [State.quiet_eq (s := w.modSeq k m.reopens) ((State.pulse_agenda _ 59).trans still)] at c
  exact event_carried_next hrun moves c (by decide)

end Sys2Proof.Machine
end

section
/-! PROOF. O43: an earth switch that takes a position, and the contacts together (R95, R106, R107, R126, R129, R135). -/

namespace Sys2Proof.Machine

open Sys2Proof

variable {s t u v m : State} {k : FeederNo} {pos : Pos} {h : Hold}

/-! ### The section record (R106, R107) -/

/-- R106, R107: the record of a fitted section whose earth switch has come to a position. -/
def earthTaken (pos : Pos) (r : SectionRec) : SectionRec :=
  { r with
    drive := if (r.drive = .close ∧ pos = .closed) ∨ (r.drive = .opened ∧ pos = .opened) then .none else r.drive
    mismatchTimer := if pos = (if r.commandedClosed then .closed else .opened) then none else some (r.mismatchTimer.getD 10000)
    mismatch := if pos = (if r.commandedClosed then .closed else .opened) then false else if pos = .discrepant then true else r.mismatch }

theorem atCommand_some {closed : Bool} : atCommand closed (some pos) = true ↔ pos = if closed then .closed else .opened := by
  simp [atCommand]

theorem earthAt_eq (r : SectionRec) : earthAt pos r = earthTaken pos r := by
  unfold earthAt earthTaken
  dsimp only
  simp only [atCommand_some]
  congr 1
  · cases r.drive <;> cases pos <;> rfl
  · cases r.mismatchTimer <;> rfl

/-! ### The holds that an earth switch concerns -/

/-- R129: an ACTIVE EARTH hold covers a section. -/
def State.earthed (s : State) (n : SectionNo) : Prop :=
  ∃ h ∈ s.ht.holds, h.state = .active ∧ h.kind = .earth ∧ n ∈ h.sections

/-- R126, R135: a hold that an earth switch keeps waiting. -/
def Hold.waitsFor (n : SectionNo) (h : Hold) : Prop := n ∈ h.sections ∧ (h.state = .earthing ∨ h.phase = some .earthOpen)


theorem State.earthLoss_lost (hl : s.earthed (sectionOf k)) : s.earthLoss k = s.pulse 59 := by
  obtain ⟨x, hx, hs, hk, hn⟩ := hl
  unfold State.earthLoss
  refine if_pos (List.any_eq_true.2 ⟨x, hx, ?_⟩)
  simp [hs, hk, hn]

theorem State.earthLoss_kept (hl : ¬ s.earthed (sectionOf k)) : s.earthLoss k = s := by
  unfold State.earthLoss
  refine if_neg fun c => hl ?_
  obtain ⟨x, hx, hb⟩ := List.any_eq_true.1 c
  simp only [Bool.and_eq_true, beq_iff_eq, List.contains_iff_mem] at hb
  obtain ⟨⟨hs, hk⟩, hn⟩ := hb
  exact ⟨x, hx, hs, hk, hn⟩

/-- R106 to R108: the Section Table has taken the position of earth switch k. -/
def State.earthSeen (k : FeederNo) (pos : Pos) (m : State) : State :=
  State.deriveBars (sectionOf k) (m.modSec (sectionOf k) (earthTaken pos))

theorem State.earthMoves_unfitted (hf : m.fitted k = false) : m.earthMoves k pos = State.deriveBars (sectionOf k) m := by
  have step : m.sectionTakesEarth k pos = State.deriveBars (sectionOf k) m := by
    unfold State.sectionTakesEarth
    dsimp only
    rw [if_neg (show ¬ m.fitted k = true by simp [hf])]
  have unfitted : ¬ (State.deriveBars (sectionOf k) m).fitted k = true := by
    show ¬ m.fitted k = true
    simp [hf]
  unfold State.earthMoves
  dsimp only
  rw [step, if_neg unfitted]

/-- R126: the holds in EARTHING that an earth switch concerns. -/
def State.earthingOn (m : State) (n : SectionNo) : List Byte :=
  (m.ht.holds.filter fun h => h.state = .earthing && h.sections.contains n).map Hold.id

theorem State.earthMoves_fitted (hf : m.fitted k = true) (hw : v = m.earthSeen k pos ∧ ¬ (pos = .opened ∧ m.earthed (sectionOf k)) ∨
      v = (m.earthSeen k pos).pulse 59 ∧ pos = .opened ∧ m.earthed (sectionOf k)) :
    m.earthMoves k pos = { v with
      agenda := v.agenda ++ ((m.earthingOn (sectionOf k)).map Signal.judgeEarthing ++
        (m.unearthing (sectionOf k)).map Signal.judgeUnearth) } := by
  have seen : m.sectionTakesEarth k pos = m.earthSeen k pos := by
    unfold State.sectionTakesEarth
    dsimp only
    rw [if_pos hf, show (earthAt pos) = earthTaken pos from funext earthAt_eq]
    rfl
  have fitted : (m.earthSeen k pos).fitted k = true := hf
  have watched : (if pos = .opened then (m.earthSeen k pos).earthLoss k else m.earthSeen k pos) = v := by
    obtain ⟨rfl, hno⟩ | ⟨rfl, hpos, hl⟩ := hw
    · split
      next hpos => exact State.earthLoss_kept (s := m.earthSeen k pos) fun c => hno ⟨hpos, c⟩
      · rfl
    · rw [if_pos hpos]
      exact State.earthLoss_lost (s := m.earthSeen k pos) hl
  have table : v.ht = m.ht := by
    obtain ⟨rfl, _⟩ | ⟨rfl, _⟩ := hw
    · rfl
    · exact State.pulse_ht _ _
  unfold State.earthMoves
  dsimp only
  rw [seen, if_pos fitted]
  unfold State.holdsTakeEarth
  dsimp only
  rw [watched, table]
  have both : (State.handAll ((m.ht.holds.filter fun h => h.state = .earthing && h.sections.contains (sectionOf k)).map fun h =>
      Signal.judgeEarthing h.id) v).unearthing (sectionOf k) = m.unearthing (sectionOf k) := by
    show v.unearthing (sectionOf k) = _
    unfold State.unearthing
    rw [table]
  rw [both]
  have judged : (m.ht.holds.filter fun h => h.state = .earthing && h.sections.contains (sectionOf k)).map
      (fun h => Signal.judgeEarthing h.id) = (m.earthingOn (sectionOf k)).map Signal.judgeEarthing := by
    unfold State.earthingOn
    rw [List.map_map]
    rfl
  rw [judged, ← List.append_assoc, ← table]
  rfl

section
variable {waits : Hold → Bool} (hwaits : ∀ x, waits x = true ↔ x.waitsFor (sectionOf k))

include hwaits

/-- The holds that an earth switch keeps waiting, taken apart. -/
theorem State.earthJudgements {l : List Hold} (hl : m.ht.holds.filter waits = l) :
    m.earthingOn (sectionOf k) = (l.filter fun h => h.state = .earthing).map Hold.id ∧
      m.unearthing (sectionOf k) = (l.filter fun h => h.phase == some .earthOpen).map Hold.id := by
  subst hl
  unfold State.earthingOn State.unearthing
  rw [List.filter_filter, List.filter_filter]
  have earthing : (fun h : Hold => decide (h.state = .earthing) && h.sections.contains (sectionOf k)) =
      fun h => decide (h.state = .earthing) && waits h := by
    funext x
    rw [Bool.eq_iff_iff, Bool.and_eq_true, Bool.and_eq_true, hwaits, decide_eq_true_iff, List.contains_iff_mem]
    exact ⟨fun c => ⟨c.1, c.2, .inl c.1⟩, fun c => ⟨c.1, c.2.1⟩⟩
  have opening : (fun h : Hold => h.phase == some .earthOpen && h.sections.contains (sectionOf k)) =
      fun h => h.phase == some .earthOpen && waits h := by
    funext x
    rw [Bool.eq_iff_iff, Bool.and_eq_true, Bool.and_eq_true, hwaits, beq_iff_eq, List.contains_iff_mem]
    exact ⟨fun c => ⟨c.1, c.2, .inr c.1⟩, fun c => ⟨c.1, c.2.1⟩⟩
  rw [earthing, opening]
  exact ⟨rfl, rfl⟩

end

/-- R126: the one hold that waits for an earth switch to close becomes ACTIVE. -/
theorem handle_judgeEarthing (e : s.hold h.id = some h) (hs : h.state = .earthing) (hsec : h.sections = [sectionOf k])
    (hpos : s.earthPos k = some .closed) :
    State.handle (.judgeEarthing h.id) { s with agenda := [] } = { s.modHold h.id activeHold with agenda := [] } := by
  have all : State.allEarthed { s with agenda := [] } h = true := by
    unfold State.allEarthed
    rw [hsec, List.all_cons, feederOf_sectionOf]
    simp [show State.earthPos { s with agenda := [] } k = some .closed from hpos]
  show State.judgeEarthing h.id { s with agenda := [] } = _
  unfold State.judgeEarthing
  rw [show State.hold { s with agenda := [] } h.id = some h from e]
  exact if_pos ⟨hs, all⟩

/-- R135, R137: the one hold that waits for an earth switch to open ends. -/
theorem handle_judgeUnearth_ends (e : s.hold h.id = some h) (hs : h.state = .releasing) (hphase : h.phase = some .earthOpen)
    (hpurpose : h.purpose = some .retire) (hset : h.unearth = [sectionOf k]) (ha : h.asks = []) (hpos : s.earthPos k = some .opened)
    (quiet : s.agenda = []) :
    State.handle (.judgeUnearth h.id) { s with agenda := [] } = ((s.retired h.id).lowerHold h).unbind h.id := by
  have unearthed : h.unearth.all s.unearthed = true := by
    rw [hset, List.all_cons]
    unfold State.unearthed
    rw [feederOf_sectionOf]
    simp [hpos]
  rw [State.quiet_eq quiet]
  show State.judgeUnearth h.id s = _
  unfold State.judgeUnearth
  rw [e]
  dsimp only
  rw [if_pos ⟨hphase, unearthed⟩, hpurpose]
  dsimp only
  rw [State.dropPhase_unasked e ha]
  unfold State.retireHold
  rw [e]
  dsimp only
  rw [if_neg (by rw [hs]; decide)]
  rfl

/-- The switch that moves is the one whose position has been handed. -/
theorem State.setPair_earthPos (r : SwitchPair) : (s.setPair (.earth k) r).earthPos k = r.handed := by
  unfold State.earthPos
  rw [State.setPair_pair]

section
variable {f : State → State} (hrun : s.resetHeld = false) (hf : f s = m.earthMoves k pos) (quiet : m.agenda = []) (fitted : m.fitted k = true)

include hrun hf quiet fitted

/-- An earth switch that no hold waits for. -/
theorem event_earthMoves_quiet (hw : v = m.earthSeen k pos ∧ ¬ (pos = .opened ∧ m.earthed (sectionOf k)) ∨
      v = (m.earthSeen k pos).pulse 59 ∧ pos = .opened ∧ m.earthed (sectionOf k))
    (hnone : ∀ x ∈ m.ht.holds, ¬ x.waitsFor (sectionOf k)) : event f s = .next v.finish := by
  have earthing : m.earthingOn (sectionOf k) = [] := by
    unfold State.earthingOn
    rw [List.map_eq_nil_iff, List.filter_eq_nil_iff]
    intro x hx c
    rw [Bool.and_eq_true, decide_eq_true_iff, List.contains_iff_mem] at c
    exact hnone x hx ⟨c.2, .inl c.1⟩
  have opening : m.unearthing (sectionOf k) = [] := by
    unfold State.unearthing
    rw [List.map_eq_nil_iff, List.filter_eq_nil_iff]
    intro x hx c
    rw [Bool.and_eq_true, beq_iff_eq, List.contains_iff_mem] at c
    exact hnone x hx ⟨c.2, .inr c.1⟩
  have agenda : v.agenda = [] := by
    obtain ⟨rfl, _⟩ | ⟨rfl, _⟩ := hw
    · exact quiet
    · exact (State.pulse_agenda _ _).trans quiet
  have moves := hf.trans (State.earthMoves_fitted fitted hw)
  rw [earthing, opening, agenda] at moves
  exact event_quiet_next hrun (moves.trans (State.quiet_eq agenda)) agenda

variable {waits : Hold → Bool} (hwaits : ∀ x, waits x = true ↔ x.waitsFor (sectionOf k)) (hone : m.ht.holds.filter waits = [h])
  (e : m.hold h.id = some h) (hkept : ¬ (pos = .opened ∧ m.earthed (sectionOf k)))

include hwaits hone e hkept

/-- R126: the one hold that waits becomes ACTIVE when the switch closes. -/
theorem event_earthMoves_active (hpos : m.earthPos k = some .closed) (hs : h.state = .earthing) (hphase : h.phase = none)
    (hsec : h.sections = [sectionOf k]) : event f s = .next ((m.earthSeen k pos).modHold h.id activeHold).finish := by
  obtain ⟨earthing, opening⟩ := State.earthJudgements hwaits hone
  have moves := hf.trans (State.earthMoves_fitted fitted (.inl ⟨rfl, hkept⟩))
  rw [earthing, opening, List.filter_cons_of_pos (by simpa using hs), List.filter_cons_of_neg (by simp [hphase]),
    show (m.earthSeen k pos).agenda = [] from quiet] at moves
  have judged := Carried.step (l := []) (m := []) (handle_judgeEarthing (s := m.earthSeen k pos) (k := k) e hs hsec hpos) (.done 0 _)
  rw [State.quiet_eq (s := (m.earthSeen k pos).modHold h.id activeHold) (by exact quiet)] at judged
  exact event_carried_next hrun moves judged (by decide)

/-- R135: the one hold that waits ends when the switch opens. -/
theorem event_earthMoves_ends (hpos : m.earthPos k = some .opened) (hs : h.state = .releasing) (hphase : h.phase = some .earthOpen)
    (hpurpose : h.purpose = some .retire) (hset : h.unearth = [sectionOf k]) (ha : h.asks = []) (hlen : h.sections.length ≤ 7)
    (hw : ∀ j, (m.seq j).wait = none) :
    event f s = .next (State.finish { ((((m.earthSeen k pos).retired h.id).lowerHold h).unbind h.id) with agenda := [] }) := by
  obtain ⟨earthing, opening⟩ := State.earthJudgements hwaits hone
  have moves := hf.trans (State.earthMoves_fitted fitted (.inl ⟨rfl, hkept⟩))
  rw [earthing, opening, List.filter_cons_of_neg (by simp [hs]), List.filter_cons_of_pos (by simp [hphase]),
    show (m.earthSeen k pos).agenda = [] from quiet] at moves
  obtain ⟨l, hl, hlen', agenda⟩ := State.lowerHold_agenda (s := (m.earthSeen k pos).retired h.id) h
  have seqs : ((((m.earthSeen k pos).retired h.id).lowerHold h).unbind h.id).seqs = m.seqs :=
    (State.unbind_seqs _ _).trans (State.lowerHold_seqs _ _)
  have agenda' : ((((m.earthSeen k pos).retired h.id).lowerHold h).unbind h.id).agenda = l :=
    (State.unbind_agenda _ _).trans (agenda.trans (by
      rw [show ((m.earthSeen k pos).retired h.id).agenda = [] from quiet, List.nil_append]))
  have ends := handle_judgeUnearth_ends (s := m.earthSeen k pos) (k := k) e hs hphase hpurpose hset ha hpos quiet
  generalize ((((m.earthSeen k pos).retired h.id).lowerHold h).unbind h.id) = w at ends seqs agenda' ⊢
  have rest := Carried.skips (s := w) (m := l) (l := []) (fun g mg => by
    obtain ⟨j, rfl⟩ := hl g mg
    refine handle_judgeWait ?_
    unfold State.seq
    rw [seqs]
    exact hw j) (.done 0 w)
  have c := Carried.step (s := m.earthSeen k pos) (g := .judgeUnearth h.id) (l := []) (u := w) (m := l)
    (ends.trans (by rw [← agenda'])) rest
  exact event_carried_next hrun moves c (by omega)

end

end Sys2Proof.Machine
end

section
/-! PROOF. O43: contacts that change and settle, and the switches they move (R11 to R14, R48, R53 to R55, R61, R65, R95, R106,
R107, R126, R128, R129, R135, R204). -/

namespace Sys2Proof.Machine

open Sys2Proof

variable {s t u v m : State} {k : FeederNo} {i : InputId} {p : PairId} {pos : Pos}

/-! ### The breaker of a feeder, position by position -/

section
variable {f : State → State} {before : Option Pos} (b : BreakerMoved m k pos) (hrun : s.resetHeld = false)
  (hf : f s = m.breakerMoves k before pos)

include b hrun hf

/-- The position changes neither the state nor the records of the sequencer. -/
theorem BreakerMoved.ignored
    (hfree : pos ≠ .closed ∨ m.isolated k = false ∨ (m.seq k).state = some .closing ∧ (m.seq k).holdOpenPending = true)
    (hv : m.seqTakesPosition k pos = m) : event f s = .next (State.deriveFeed k m).finish :=
  b.stays hrun hf hfree hv b.agenda rfl rfl rfl

/-- The sequencer enters a state with no pulse of a point. -/
theorem BreakerMoved.enters_now {g : Sequencer → Sequencer}
    (hfree : pos ≠ .closed ∨ m.isolated k = false ∨ (m.seq k).state = some .closing ∧ (m.seq k).holdOpenPending = true)
    (hv : m.seqTakesPosition k pos = { m.modSeq k g with agenda := [.seqChanged k] }) :
    event f s = .next (State.deriveBars (sectionOf k) (State.deriveFeed k (m.modSeq k g))).finish :=
  b.enters hrun hf hfree (.inl rfl) hv b.agenda rfl rfl rfl

/-- The sequencer enters a state with a pulse of a point. -/
theorem BreakerMoved.enters_pulsing {g : Sequencer → Sequencer} {n : PointNo} {l : List Signal}
    (hl : l = [.seqChanged k] ∨ l = [.seqChanged k, .seqChanged k])
    (hfree : pos ≠ .closed ∨ m.isolated k = false ∨ (m.seq k).state = some .closing ∧ (m.seq k).holdOpenPending = true)
    (hv : m.seqTakesPosition k pos = { (m.pulse n).modSeq k g with agenda := l }) :
    event f s = .next (State.deriveBars (sectionOf k) (State.deriveFeed k ((m.pulse n).modSeq k g))).finish :=
  b.enters hrun hf hfree hl hv ((State.pulse_agenda _ _).trans b.agenda) (State.pulse_sections _ _) (State.pulse_store _ _)
    (State.pulse_ht _ _)

/-- The position pulses a point and leaves the sequencer. -/
theorem BreakerMoved.stays_pulsing {n : PointNo}
    (hfree : pos ≠ .closed ∨ m.isolated k = false ∨ (m.seq k).state = some .closing ∧ (m.seq k).holdOpenPending = true)
    (hv : m.seqTakesPosition k pos = m.pulse n) : event f s = .next (State.deriveFeed k (m.pulse n)).finish :=
  b.stays hrun hf hfree hv ((State.pulse_agenda _ _).trans b.agenda) (State.pulse_sections _ _) (State.pulse_store _ _)
    (State.pulse_ht _ _)

end

section
variable {f : State → State} {before : Option Pos} (hrun : s.resetHeld = false)

include hrun

/-- R48, R54: the breaker opens in service, and the trip it starts is confirmed at once. -/
theorem BreakerMoved.opens_inService (b : BreakerMoved m k .opened) (hf : f s = m.breakerMoves k before .opened)
    (h : (m.seq k).state = some .inService) :
    event f s = .next (State.deriveBars (sectionOf k) (State.deriveFeed k ((m.pulse (feederPoint 0 k)).modSeq k fun r =>
      m.confirms k (r.tripped (m.demandRecord k .direct) none)))).finish := by
  refine b.enters_pulsing hrun hf (.inr rfl) (.inl (by decide)) ?_
  rw [b.quiet.toEngineRests.takesOpened, if_pos h]
  exact b.quiet.toEngineRests.directTrip_confirmed b.agenda h b.at_pos b.share

/-- R43: the breaker opens where no trip is under way. -/
theorem BreakerMoved.opens_standing (b : BreakerMoved m k .opened) (hf : f s = m.breakerMoves k before .opened)
    (h : (m.seq k).state ≠ some .inService) (h' : (m.seq k).state ≠ some .tripping) :
    event f s = .next (State.deriveFeed k (m.modSeq k pulseOff)).finish := by
  refine b.stays hrun hf (.inl (by decide)) ?_ b.agenda rfl rfl rfl
  rw [b.quiet.toEngineRests.takesOpened, if_neg h, if_neg h']

/-- R53: a breaker is on its way where it was not in service. -/
theorem BreakerMoved.transits_standing (b : BreakerMoved m k .transit) (hf : f s = m.breakerMoves k before .transit)
    (h : (m.seq k).state ≠ some .inService) : event f s = .next (State.deriveFeed k m).finish :=
  b.ignored hrun hf (.inl (by decide)) (State.takesTransit.trans (if_neg h))

end

/-! ### Contacts that settle -/

/-- R11: an input that has settled on its raw level. -/
def State.leveled (i : InputId) (s : State) : State :=
  s.setInput i { raw := (s.input i).raw, level := some (s.input i).raw, stability := none }

theorem State.leveled_inputOn : (s.leveled i).inputOn i = (s.input i).raw := by
  unfold State.inputOn State.leveled
  rw [State.setInput_input]
  cases (s.input i).raw <;> rfl

/-- R12: the pair of switch p as its contacts show it, handed on. -/
def State.pairMoved (p : PairId) (pos : Pos) (s : State) : State :=
  s.setPair p { derived := some pos, handed := some pos, transit := if pos = .transit then some s.store.cfg.tTransit else none }

/-- R12: a settled contact of a pair. -/
theorem State.inputTaken_pair {change : Bool} (hi : i = (contactsOf p).1 ∨ i = (contactsOf p).2) (hs : s.shown p = some pos) :
    s.inputTaken i change = s.pairBecomes p pos (if pos = .transit then some s.store.cfg.tTransit else none) := by
  unfold State.inputTaken
  rw [pairOf_contactsOf hi]
  exact State.derivePair_shown hs

/-- R12 to R14: a contact changes the position of a switch, and the position is handed on. -/
theorem State.takeInput_moves {a b : Bool} (hv : s.verification = none) (hi : i = (contactsOf p).1 ∨ i = (contactsOf p).2)
    (hl : (s.input i).level = some (!(s.input i).raw)) (hs : (s.input i).stability ≠ none)
    (ha : ((s.leveled i).input (contactsOf p).1).level = some a) (hb : ((s.leveled i).input (contactsOf p).2).level = some b)
    (hp : (s.pair p).derived ≠ some (positionOf a b)) :
    s.takeInput i = ((s.leveled i).pairMoved p (positionOf a b)).takePosition p (s.pair p).handed (positionOf a b) := by
  rw [State.takeInput_changes hl hs]
  refine (State.inputTaken_pair (s := s.leveled i) hi (State.shown_settled ha hb)).trans ?_
  exact State.pairBecomes_new (s := s.leveled i) hv hp _

/-- R12, R15: a contact of a pair settles before equipment verification has ended. -/
theorem exec_inputChange_verifying {a b : Bool} (hr : Ready s) (hv : s.verification ≠ none)
    (hi : i = (contactsOf p).1 ∨ i = (contactsOf p).2) (hl : (s.input i).level = none)
    (ha : ((s.leveled i).input (contactsOf p).1).level = some a) (hb : ((s.leveled i).input (contactsOf p).2).level = some b) :
    exec (.inputChange i) s = .next ((s.leveled i).setPair p
      { derived := some (positionOf a b), handed := (s.pair p).handed,
        transit := if positionOf a b = .transit then some s.store.cfg.tTransit else none }).finish := by
  have settles : s.takeInput i = (s.leveled i).setPair p
      { derived := some (positionOf a b), handed := (s.pair p).handed,
        transit := if positionOf a b = .transit then some s.store.cfg.tTransit else none } := by
    rw [State.takeInput_settles hl]
    refine (State.inputTaken_pair (s := s.leveled i) hi (State.shown_settled ha hb)).trans ?_
    exact State.pairBecomes_verifying (s := s.leveled i) hv _
  exact event_quiet_next hr.running settles hr.quiet

/-- R204: the authority key settles on its other level. -/
theorem exec_inputChange_authority (hr : Ready s) (hv : s.verification = none)
    (hl : (s.input .authorityKey).level = some (!(s.input .authorityKey).raw)) (hs : (s.input .authorityKey).stability ≠ none) :
    exec (.inputChange .authorityKey) s =
      .next ((s.leveled .authorityKey).modSp (takeAuthority (s.input .authorityKey).raw)).finish := by
  have changes : s.takeInput .authorityKey = (s.leveled .authorityKey).modSp (takeAuthority (s.input .authorityKey).raw) := by
    rw [State.takeInput_changes hl hs]
    have verified : ¬ (s.leveled .authorityKey).verifying = true := by
      show ¬ s.verification.isSome = true
      simp [hv]
    refine (if_neg verified).trans ?_
    show (s.leveled .authorityKey).modSp (takeAuthority ((s.leveled .authorityKey).inputOn .authorityKey)) = _
    rw [State.leveled_inputOn]
  exact event_quiet_next hr.running changes hr.quiet

/-- R204: the port record that the authority key leaves. -/
theorem takeAuthority_eq (on : Bool) (r : StationPort) : takeAuthority on r =
    { r with
      localAuthority := on
      selection := if on then none else r.selection
      selectionTimer := if on then none else r.selectionTimer } := by
  cases on <;> rfl

/-- R13, R88: the AC breaker of a group that does not run is in transit too long. -/
theorem exec_transitTimerExpiry_ac (hr : Ready s) (ht : (s.pair .ac).transit ≠ none) (hp : (s.pair .ac).derived = some .transit)
    (hv : s.verification = none) (hg : s.rect.state = .off ∨ s.rect.state = .tripped) (hsec : s.securingBus = []) :
    exec (.transitTimerExpiry .ac) s =
      .next (s.setPair .ac { derived := some .discrepant, handed := some .discrepant, transit := none }).finish := by
  have times : (if (s.pair .ac).transit.isSome then s.transitTimesOut .ac else s) =
      s.setPair .ac { derived := some .discrepant, handed := some .discrepant, transit := none } := by
    rw [if_pos (Option.isSome_iff_ne_none.2 ht)]
    unfold State.transitTimesOut
    rw [State.pairBecomes_new hv (by rw [hp]; decide)]
    exact State.acMoves_discrepant hg hsec
  show execTransitTimerExpiry .ac s = _
  unfold execTransitTimerExpiry
  exact event_quiet_next hr.running times hr.quiet

/-- The breaker of a quiet feeder whose position is handed on. -/
theorem State.breakerMoved (hr : Ready s) (i : InputId) (hf : s.fitted k = true) (hshare : s.share k = none) (hq : FeederQuiet s k)
    (hw : (s.sec (sectionOf k)).wanted = .single) (hc : (s.sec (sectionOf k)).commandedClosed = false)
    (hd : (s.sec (sectionOf k)).drive ≠ .close) : BreakerMoved ((s.leveled i).pairMoved (.breaker k) pos) k pos where
  at_pos := by
    unfold State.breakerPos State.pairMoved
    rw [State.setPair_pair]
  quiet := ⟨hq.toEngineRests.congr rfl, hq.securing⟩
  agenda := hr.quiet
  fitted := hf
  share := hshare
  wanted := hw
  commanded := hc
  drive := hd

/-- Settles O43: the inputs and the timer by the rule of each, the switches by the rule of the position they come to. -/
theorem contactsTaken : Obligations.ContactsTaken := by
  unfold Obligations.ContactsTaken
  intro s hr
  refine ⟨fun i on => ⟨fun h => ?_, fun h => ?_⟩, ?_, ?_, exec_transitTimerExpiry_ac hr, ?_⟩
  · show Host.Outcome.next (s.setInput i (if s.resetHeld then _ else _)) = _
    rw [hr.running]
    simp only [Bool.false_eq_true, if_false]
    rw [rawChange_same h, State.setInput_same]
  · show Host.Outcome.next (s.setInput i (if s.resetHeld then _ else _)) = _
    rw [hr.running]
    simp only [Bool.false_eq_true, if_false]
    rw [rawChange_new h]
  · intro p i a b hv hi hl u ha hb pos
    have shown : pos = positionOf a b := (positionOf_eq a b).symm
    rw [shown]
    exact exec_inputChange_verifying hr hv hi hl ha hb
  · intro hv hl hs isLocal u
    have changes := exec_inputChange_authority hr hv hl hs
    unfold State.modSp at changes
    rw [takeAuthority_eq] at changes
    exact changes
  · intro p i a b hv hi hl hs u ha hb pos hp moved gives
    have shown : pos = positionOf a b := (positionOf_eq a b).symm
    have moves := State.takeInput_moves hv hi hl hs ha hb (by rw [← shown]; exact hp)
    rw [← shown] at moves
    have hrun := hr.running
    clear_value pos
    refine ⟨?_, ?_⟩
    · rintro k rfl hfit hshare hq hw hc hd q pending stays enters running confirmed faulty
      have b : BreakerMoved moved k pos := State.breakerMoved hr i hfit hshare hq hw hc hd
      have r : EngineRests moved k := b.quiet.toEngineRests
      have hf : State.takeInput i s = moved.breakerMoves k (s.pair (.breaker k)).handed pos := moves
      have at_pos := b.at_pos
      refine ⟨?_, ?_, ?_, ?_⟩
      · rintro rfl
        exact ⟨b.opens_inService hrun hf,
          fun h => b.enters_now hrun hf (.inl (by decide)) (r.takesOpened_tripping b.agenda h),
          fun h h' => b.opens_standing hrun hf h h'⟩
      · rintro rfl
        exact ⟨fun h => b.enters_pulsing hrun hf (.inl rfl) (.inl (by decide))
            (r.takesTransit b.agenda h (by rw [at_pos]; decide) b.share),
          fun h => b.transits_standing hrun hf h⟩
      · rintro rfl
        refine ⟨fun h hpend => b.enters_now hrun hf (.inr (.inr ⟨h, hpend⟩))
            (r.takesClosed_pending b.agenda h hpend (by rw [at_pos]; decide)), fun hi => ⟨fun h hpend => ?_, fun h => ?_, fun h => ?_, fun h => ?_⟩,
          fun hi h => b.violates hrun hf hi h⟩
        · exact b.enters_now hrun hf (.inr (.inl hi)) (r.takesClosed_closing b.agenda h hpend)
        · exact b.stays_pulsing hrun hf (.inr (.inl hi)) (State.takesClosed_open h)
        · exact b.enters_pulsing hrun hf (.inl rfl) (.inr (.inl hi)) (r.takesClosed_testing b.agenda h)
        · exact b.ignored hrun hf (.inr (.inl hi)) (State.takesClosed_rest h)
      · rintro rfl
        exact ⟨fun h => b.enters_now hrun hf (.inl (by decide)) (r.takesDiscrepant_running b.agenda (by rw [at_pos]; decide) h),
          fun h => b.enters_now hrun hf (.inl (by decide)) (r.takesDiscrepant_standing b.agenda h),
          fun h => b.ignored hrun hf (.inl (by decide)) (State.takesDiscrepant_fault h)⟩
    · rintro k rfl n taken seen waits loses
      have hf : State.takeInput i s = moved.earthMoves k pos := moves
      have at_pos : moved.earthPos k = some pos := State.setPair_earthPos _
      refine ⟨fun hfit => ?_, fun hfit hnone => ⟨fun hl => ?_, fun hl => ?_⟩, fun hfit hl h hone e => ⟨?_, ?_⟩⟩
      · exact event_quiet_next hrun (hf.trans (State.earthMoves_unfitted (m := moved) hfit)) hr.quiet
      · exact event_earthMoves_quiet hrun hf hr.quiet hfit (.inr ⟨rfl, hl⟩) hnone
      · exact event_earthMoves_quiet hrun hf hr.quiet hfit (.inl ⟨rfl, hl⟩) hnone
      · rintro rfl hstate hphase hsec
        exact event_earthMoves_active hrun hf hr.quiet hfit (waits := fun x => decide (waits x)) (fun x => decide_eq_true_iff) hone e hl
          at_pos hstate hphase hsec
      · rintro rfl hstate hphase hpurpose hset hasks hlen hwait
        exact event_earthMoves_ends hrun hf hr.quiet hfit (waits := fun x => decide (waits x)) (fun x => decide_eq_true_iff) hone e hl
          at_pos hstate hphase hpurpose hset hasks hlen hwait

end Sys2Proof.Machine
end

section
/-! PROOF. The pushbuttons of the panel and EMERGENCY (R62, R63, R76, R81, R90, R208, R210). -/

namespace Sys2Proof.Machine

open Sys2Proof

variable {s t u v m : State} {k : FeederNo} {i : InputId}

/-! ### Inputs of the panel -/

/-- R208: an input of the panel that settles on its other level. -/
theorem State.takeInput_panel (hv : s.verification = none) (hp : pairOf i = none) (hl : (s.input i).level = some (!(s.input i).raw))
    (hs : (s.input i).stability ≠ none) : s.takeInput i = (s.leveled i).panelInput i (s.input i).raw true := by
  have verified : ¬ (s.leveled i).verifying = true := by
    show ¬ s.verification.isSome = true
    simp [hv]
  rw [State.takeInput_changes hl hs]
  show (s.leveled i).inputTaken i true = _
  unfold State.inputTaken
  rw [hp]
  dsimp only
  rw [if_neg verified, State.leveled_inputOn]

/-- A switching pushbutton (R208). -/
def isSwitching (i : InputId) : Prop := i = .startButton ∨ i = .stopButton ∨ ∃ k, i = .openButton k ∨ i = .closeButton k

theorem pairOf_switching (h : isSwitching i) : pairOf i = none := by
  obtain rfl | rfl | ⟨k, rfl | rfl⟩ := h <;> rfl

/-- R208: the panel's result written beside what the owner answers. -/
def State.pressed (code : Byte) (result : CmdResult) (value : Nat) (s : State) : State :=
  { s with sp := { s.sp with lastResult := some { code := code, result := result, value := value } } }

section
variable {code : Byte} {target : Nat} {owner : State → Answer}

theorem State.panelPress_remote (h : s.sp.localAuthority = false) : s.panelPress code target owner = s :=
  if_neg (ne_true_of_eq_false h)

theorem State.panelPress_local (h : s.sp.localAuthority = true) :
    s.panelPress code target owner = (owner s).state.pressed code (owner s).result target := if_pos h

theorem State.panelPress_refused (h : s.sp.localAuthority = true) {reason : RefusalCode} (ho : owner s = refuse s reason) :
    s.panelPress code target owner = s.pressed code (.refused reason) target := by
  rw [State.panelPress_local h, ho]
  rfl

theorem State.panelPress_taken (h : s.sp.localAuthority = true) (ho : owner s = accept u) :
    s.panelPress code target owner = u.pressed code .accepted target := by
  rw [State.panelPress_local h, ho]
  rfl

end

/-- R208: a pushbutton that is released, or pressed under REMOTE. -/
theorem State.panelInput_ignored (hi : isSwitching i) {on : Bool} (h : s.sp.localAuthority = false ∨ on = false) :
    s.panelInput i on true = s := by
  obtain h | rfl := h
  · cases on
    · obtain rfl | rfl | ⟨k, rfl | rfl⟩ := hi <;> rfl
    · obtain rfl | rfl | ⟨k, rfl | rfl⟩ := hi <;> exact State.panelPress_remote h
  · obtain rfl | rfl | ⟨k, rfl | rfl⟩ := hi <;> rfl

/-! ### EMERGENCY (R210) -/

/-- R210: a sequencer that an EMERGENCY demand leaves as it is. -/
def State.ignoresEmergency (s : State) (k : FeederNo) : Prop :=
  ∃ q, (s.seq k).state = some q ∧ (q = .opened ∨ q = .lockout ∨ q = .breakerFault ∨ q = .notFitted)

theorem State.seqEmergency_ignored (h : s.ignoresEmergency k) : s.seqEmergency k = s := by
  obtain ⟨q, hq, hs⟩ := h
  unfold State.seqEmergency
  rw [hq]
  obtain rfl | rfl | rfl | rfl := hs <;> rfl

/-- R90: the record of a group that EMERGENCY trips, its AC breaker driven open. -/
def State.emergencyTripped (s : State) : Rectifier :=
  { s.rect.trippedBy s.store.cfg.alphaMax .emergency s.stamp with acDrive := true }

/-- R90: the EMERGENCY demand on the rectifier group. -/
theorem State.rectDemand_emergency (ha : s.agenda = []) (hr : s.rect.state ≠ .tripped) (hac : s.acPos ≠ some .opened) :
    s.rectDemand .emergency = { s with rect := s.emergencyTripped, agenda := [.rectChanged] } := by
  unfold State.rectDemand
  rw [State.rectTrip_eq ha hr]
  exact if_neg hac

/-- R210: EMERGENCY pressed while no feeder is in service or on its way, and none is shared. -/
theorem State.emergencyPress_rectifier (ha : s.agenda = []) (hq : ∀ k, s.ignoresEmergency k) (hshare : ∀ k, s.share k = none)
    (hr : s.rect.state ≠ .tripped) (hac : s.acPos ≠ some .opened) :
    s.emergencyPress =
      { State.pulse 50 { s with sp := dropSelection s.sp, rect := s.emergencyTripped } with agenda := [.rectChanged] } := by
  let w : State := { s with rect := s.emergencyTripped, agenda := [.rectChanged] }
  have links : forEach allFeeders (fun k s => State.intertripFor k .emergency s) w = w :=
    forEach_still fun k _ => State.intertripFor_unshared (s := w) (hshare k) .emergency
  unfold State.emergencyPress
  dsimp only
  rw [forEach_still (f := State.seqEmergency) fun k _ => State.seqEmergency_ignored (hq k), State.rectDemand_emergency ha hr hac, links]
  exact (State.pulse_comm (s := { s with sp := dropSelection s.sp, rect := s.emergencyTripped })
    (f := fun u => { u with agenda := [.rectChanged] }) 50 (fun _ => rfl) rfl rfl rfl).symm

theorem exec_inputChange_emergency (r : Ready s) (hv : s.verification = none) (n : NothingWaits s)
    (hl : (s.input .emergencyButton).level = some false) (hraw : (s.input .emergencyButton).raw = true)
    (hs : (s.input .emergencyButton).stability ≠ none) (hshare : ∀ k, s.share k = none) (hq : ∀ k, s.ignoresEmergency k)
    (hr : s.rect.state ≠ .tripped) (hac : s.acPos ≠ some .opened) :
    exec (.inputChange .emergencyButton) s =
      .next (State.deriveBusFeed (State.pulse 50
        { s.leveled .emergencyButton with
          sp := { s.sp with emergency := true, selection := none, selectionTimer := none }
          rect := s.emergencyTripped })).finish := by
  let w : State := { s.leveled .emergencyButton with
    sp := { s.sp with emergency := true, selection := none, selectionTimer := none }
    rect := s.emergencyTripped }
  let m := (s.leveled .emergencyButton).modSp fun x => { x with emergency := true }
  have demands := State.emergencyPress_rectifier (s := m) r.quiet hq hshare hr hac
  have written : ({ m with sp := dropSelection m.sp, rect := m.emergencyTripped } : State) = w := rfl
  have shown : (s.leveled .emergencyButton).panelInput .emergencyButton true true = m.emergencyPress := by
    unfold State.panelInput
    exact if_pos rfl
  rw [written] at demands
  have pressed : s.takeInput .emergencyButton = { State.pulse 50 w with agenda := [.rectChanged] } := by
    rw [State.takeInput_panel hv rfl (by rw [hl, hraw]; rfl) hs, hraw, shown]
    exact demands
  exact event_rectChanged (u := State.pulse 50 w) r.running pressed
    (n.congr (State.pulse_seqs w 50) (State.pulse_ht w 50)) ((State.pulse_agenda w 50).trans r.quiet)

/-! ### The switching pushbuttons under LOCAL (R208) -/

section
variable (r : Ready s) (hv : s.verification = none) (hl : (s.input i).level = some (!(s.input i).raw))
  (hs : (s.input i).stability ≠ none)

include r hv hl hs

theorem exec_inputChange_ignored (hi : isSwitching i) (h : s.sp.localAuthority = false ∨ (s.input i).raw = false) :
    exec (.inputChange i) s = .next (s.leveled i).finish :=
  event_quiet_next r.running
    ((State.takeInput_panel hv (pairOf_switching hi) hl hs).trans (State.panelInput_ignored (s := s.leveled i) hi h)) r.quiet

variable (hlocal : s.sp.localAuthority = true) (hon : (s.input i).raw = true)

include hlocal hon

theorem exec_inputChange_refused {code : Byte} {target : Nat} {owner : State → Answer} (hp : pairOf i = none)
    (hi : (s.leveled i).panelInput i true true = (s.leveled i).panelPress code target owner) {reason : RefusalCode}
    (ho : owner (s.leveled i) = refuse (s.leveled i) reason) :
    exec (.inputChange i) s = .next ((s.leveled i).pressed code (.refused reason) target).finish := by
  refine event_quiet_next r.running ?_ r.quiet
  rw [State.takeInput_panel hv hp hl hs, hon, hi]
  exact State.panelPress_refused (s := s.leveled i) hlocal ho

/-- A press that its owner accepts, with what the owner hands on. -/
theorem exec_inputChange_pressed {code : Byte} {target n : Nat} {owner : State → Answer} {l : List Signal} (hp : pairOf i = none)
    (hi : (s.leveled i).panelInput i true true = (s.leveled i).panelPress code target owner)
    (ho : owner (s.leveled i) = accept { u with agenda := l }) (c : Carried n (u.pressed code .accepted target) l t) (hn : n ≤ 4096) :
    exec (.inputChange i) s = .next t.finish := by
  refine event_carried_next (u := u.pressed code .accepted target) r.running ?_ c hn
  rw [State.takeInput_panel hv hp hl hs, hon, hi]
  exact State.panelPress_taken (s := s.leveled i) hlocal ho

end

section
variable (r : Ready s) (hv : s.verification = none)

include r hv

theorem exec_inputChange_start (hl : (s.input .startButton).level = some (!(s.input .startButton).raw))
    (hs : (s.input .startButton).stability ≠ none) (hlocal : s.sp.localAuthority = true) (hon : (s.input .startButton).raw = true)
    (hoff : s.rect.state ≠ .off) (htripped : s.rect.state ≠ .tripped) :
    exec (.inputChange .startButton) s = .next ((s.leveled .startButton).pressed 0x72 (.refused .state) 6).finish :=
  exec_inputChange_refused r hv hl hs hlocal hon rfl (owner := State.rectStart) rfl
    (State.rectStart_runs (s := s.leveled .startButton) hoff htripped)

section
variable (hl : (s.input .stopButton).level = some (!(s.input .stopButton).raw)) (hs : (s.input .stopButton).stability ≠ none)
  (hlocal : s.sp.localAuthority = true) (hon : (s.input .stopButton).raw = true)

include hl hs hlocal hon

theorem exec_inputChange_stop_off (hoff : s.rect.state = .off) :
    exec (.inputChange .stopButton) s = .next ((s.leveled .stopButton).pressed 0x73 .accepted 6).finish := by
  refine exec_inputChange_pressed (owner := State.commandStop) (u := s.leveled .stopButton) (l := []) r hv hl hs hlocal hon rfl rfl ?_
    (carried_nothing (u := (s.leveled .stopButton).pressed 0x73 .accepted 6) r.quiet) (by decide)
  unfold State.commandStop State.rectStop
  rw [if_pos (by exact hoff), State.quiet_eq (s := s.leveled .stopButton) r.quiet]

/-- R81: the record of a group that is stopped. -/
theorem exec_inputChange_stop (hoff : s.rect.state ≠ .off) (n : NothingWaits s) :
    exec (.inputChange .stopButton) s = .next (State.deriveBusFeed (State.pressed 0x73 .accepted 6
      { s.leveled .stopButton with rect := rectFields s.store.cfg.alphaMax .off s.rect })).finish := by
  let w : State := { s.leveled .stopButton with rect := rectFields s.store.cfg.alphaMax .off s.rect }
  refine exec_inputChange_pressed (owner := State.commandStop) (u := w) r hv hl hs hlocal hon rfl rfl ?_
    ((n.congr rfl rfl : NothingWaits (w.pressed 0x73 .accepted 6)).carried_quiet r.quiet) (by decide)
  unfold State.commandStop State.rectStop
  rw [if_neg (by exact hoff), State.rectEnter_changed (s := s.leveled .stopButton) _ hoff r.quiet]
  rfl

end

section
variable (hl : (s.input (.openButton k)).level = some (!(s.input (.openButton k)).raw)) (hs : (s.input (.openButton k)).stability ≠ none)
  (hlocal : s.sp.localAuthority = true) (hon : (s.input (.openButton k)).raw = true)

include hl hs hlocal hon

theorem exec_inputChange_open_refused (hq : (s.seq k).state = some .opened ∨ (s.seq k).state = some .lockout)
    (hb : s.breakerPos k = some .opened) :
    exec (.inputChange (.openButton k)) s = .next ((s.leveled (.openButton k)).pressed 0x70 (.refused .state) k.val).finish :=
  exec_inputChange_refused r hv hl hs hlocal hon rfl (owner := State.commandOpen k) rfl
    ((State.commandOpen_opened (s := s.leveled (.openButton k)) hq).trans (if_pos hb))

theorem exec_inputChange_open (q : FeederQuiet s k) (hq : (s.seq k).state = some .inService ∨ (s.seq k).state = some .closing)
    (hb : s.breakerPos k ≠ some .opened) :
    exec (.inputChange (.openButton k)) s = .next (State.entering k
      (fun x => x.tripped (s.demandRecord k .command) (some (x.openPulse.getD s.store.cfg.tOpenMax)))
      ((s.leveled (.openButton k)).pressed 0x70 .accepted k.val)).finish := by
  let g : Sequencer → Sequencer := fun x => x.tripped (s.demandRecord k .command) (some (x.openPulse.getD s.store.cfg.tOpenMax))
  let v := (s.leveled (.openButton k)).pressed 0x70 .accepted k.val
  have rests : EngineRests (s.leveled (.openButton k)) k := q.toEngineRests.congr rfl
  have c : Carried 1 (v.modSeq k g) [.seqChanged k] { v.entering k g with agenda := [] } := carried_seqChanged q.securing
  rw [State.quiet_eq (s := v.entering k g) r.quiet] at c
  exact exec_inputChange_pressed (owner := State.commandOpen k) (u := (s.leveled (.openButton k)).modSeq k g) r hv hl hs hlocal hon rfl rfl
    ((State.commandOpen_running (s := s.leveled (.openButton k)) hq).trans (congrArg accept (rests.seqTrip_command r.quiet hq hb)))
    c (by decide)

end

section
variable (hl : (s.input (.closeButton k)).level = some (!(s.input (.closeButton k)).raw)) (hs : (s.input (.closeButton k)).stability ≠ none)
  (hlocal : s.sp.localAuthority = true) (hon : (s.input (.closeButton k)).raw = true)

include hl hs hlocal hon

theorem exec_inputChange_close_refused (hfit : (s.seq k).state ≠ some .notFitted)
    (hq : (s.seq k).state ≠ some .opened ∨ s.breakerPos k ≠ some .opened) :
    exec (.inputChange (.closeButton k)) s = .next ((s.leveled (.closeButton k)).pressed 0x71 (.refused .state) k.val).finish :=
  exec_inputChange_refused r hv hl hs hlocal hon rfl (owner := State.commandClose k) rfl
    (State.commandClose_state (s := s.leveled (.closeButton k)) hfit hq)

/-- R59, R63: CLOSE with a line test. -/
theorem exec_inputChange_close (q : FeederQuiet s k) (hstandby : s.rect.state ≠ .standby) (hq : (s.seq k).state = some .opened)
    (hb : s.breakerPos k = some .opened) (hbar : (s.sec (sectionOf k)).bars.barred = false) (hi : (s.channel (chIF k)).state ≠ .failed)
    (hu : (s.channel (chUL k)).state ≠ .failed) (hbus : s.busLow k = false)
    (htest : (s.channel (chUL k)).value < (s.channel chUB).value * 4 / 5) :
    exec (.inputChange (.closeButton k)) s = .next (State.entering k (fun x => { x.bare .lineTest with
        attempts := 0, closeKind := some .manual, testContactor := true, testTimer := some ((s.reclose k).tTest * 10) })
      ((s.leveled (.closeButton k)).pressed 0x71 .accepted k.val)).finish := by
  let m := s.leveled (.closeButton k)
  let g : Sequencer → Sequencer := fun x => { x.bare .lineTest with
    attempts := 0, closeKind := some .manual, testContactor := true, testTimer := some ((s.reclose k).tTest * 10) }
  let v := m.pressed 0x71 .accepted k.val
  have rests : EngineRests m k := q.toEngineRests.congr rfl
  have closes : m.closes k = g := State.closes_tested (s := m) htest
  have answer : m.commandClose k = accept { m.modSeq k g with agenda := [.seqChanged k, .wake] } := by
    rw [State.commandClose_ready (s := m) hq hb, if_neg (show ¬ (m.sec (sectionOf k)).bars.barred = true from ne_true_of_eq_false hbar),
      if_neg, rests.closes r.quiet hq, closes]
    show ¬ (s.chFailed (chIF k) || s.chFailed (chUL k) || s.busLow k) = true
    rw [Bool.or_eq_true, Bool.or_eq_true, State.chFailed_iff, State.chFailed_iff, hbus]
    rintro ((h | h) | h)
    · exact hi h
    · exact hu h
    · cases h
  have c : Carried 2 (v.modSeq k g) [.seqChanged k, .wake] { v.entering k g with agenda := [] } :=
    carried_seqChanged_wake q.securing hstandby
  rw [State.quiet_eq (s := v.entering k g) r.quiet] at c
  exact exec_inputChange_pressed (owner := State.commandClose k) (u := m.modSeq k g) r hv hl hs hlocal hon rfl rfl answer c (by decide)

end

end

end Sys2Proof.Machine
end

section
/-! PROOF. The hold keys of the panel: the move that a contact makes, and what a move does to the hold of its key (R117, R140 to
R142, R209). -/

namespace Sys2Proof.Machine

open Sys2Proof

variable {s t u v m : State} {k : FeederNo} {i : InputId} {n : KeyNo} {id : Byte} {a b : KeyPos} {kind : HoldKind}

/-! ### The move of a key (R209) -/

theorem State.modKey_modKey (f g : KeyRec → KeyRec) : (s.modKey n f).modKey n g = s.modKey n fun r => g (f r) := by
  unfold State.modKey
  simp [vget_set]

/-- R209: the record of a key at another position. -/
def State.turned (n : KeyNo) (pos : KeyPos) (s : State) : State := s.modKey n fun r => { r with pos := pos }

theorem State.keyPosition_line (before : KeyPos) : s.keyPosition (sectionOf k) before =
    keyShows (s.inputOn (.holdIsolate (sectionOf k))) (s.inputOn (.holdEarth k)) before := by
  unfold State.keyPosition
  rw [feederOf_sectionOf]

theorem State.keyTurns_step (hpos : (s.key n).pos = a) (hshow : s.keyPosition n a = b) (hstep : keySteps a b = [b])
    (ha : s.agenda = []) : s.keyTurns n = { s with agenda := [.keyMove n b] } := by
  unfold State.keyTurns
  dsimp only
  rw [hpos, hshow, hstep]
  exact State.hand_quiet ha _

/-- R209: a contact of the hold key of feeder k settles, and the key moves from one position to the next. -/
structure KeyTurns (s : State) (i : InputId) (k : FeederNo) (a b : KeyPos) : Prop where
  ready : Ready s
  verified : s.verification = none
  contact : i = .holdIsolate (sectionOf k) ∨ i = .holdEarth k
  level : (s.input i).level = some (!(s.input i).raw)
  settled : (s.input i).stability ≠ none
  before : (s.key (sectionOf k)).pos = a
  shows : (s.leveled i).keyPosition (sectionOf k) a = b
  step : keySteps a b = [b]

section
variable (y : KeyTurns s i k a b)

include y

theorem KeyTurns.takeInput : s.takeInput i = { s.leveled i with agenda := [.keyMove (sectionOf k) b] } := by
  have turns : (s.leveled i).keyTurns (sectionOf k) = { s.leveled i with agenda := [.keyMove (sectionOf k) b] } :=
    State.keyTurns_step y.before y.shows y.step y.ready.quiet
  have panel : pairOf i = none ∧ ∀ on, (s.leveled i).panelInput i on true = (s.leveled i).keyTurns (sectionOf k) := by
    obtain rfl | rfl := y.contact <;> exact ⟨rfl, fun _ => rfl⟩
  rw [State.takeInput_panel y.verified panel.1 y.level y.settled, panel.2, turns]

/-- The move carried out, with what it hands on. -/
theorem KeyTurns.turns {l : List Signal} {c : Nat} (hmove : (s.leveled i).keyMove (sectionOf k) b = { u with agenda := l })
    (carried : Carried c u l t) (hc : c < 4096) : exec (.inputChange i) s = .next t.finish := by
  have quiet : ({ s.leveled i with agenda := [] } : State) = s.leveled i := State.quiet_eq y.ready.quiet
  have moved : State.handle (.keyMove (sectionOf k) b) { s.leveled i with agenda := [] } = { u with agenda := l } := by
    rw [quiet]
    exact hmove
  have first : Carried (c + 1) (s.leveled i) [.keyMove (sectionOf k) b] t := .step moved (by rw [List.append_nil]; exact carried)
  exact event_carried_next y.ready.running y.takeInput first (by omega)

theorem KeyTurns.turns_quiet (hmove : (s.leveled i).keyMove (sectionOf k) b = u) (hu : u.agenda = []) :
    exec (.inputChange i) s = .next u.finish :=
  y.turns (hmove.trans (State.quiet_eq hu).symm) (carried_nothing hu) (by decide)

end

/-! ### What a move does (R140) -/

/-- R140: the record of a key that has come to OFF. -/
def State.keyOff (n : KeyNo) (s : State) : State :=
  s.modKey n fun r => { r with pos := .off, needsCycling := false, bound := none }

theorem State.keyMove_on (h : (s.key n).pos = .off) : s.keyMove n .isolate = (s.turned n .isolate).keyPlaces n .isolate := by
  unfold State.keyMove
  dsimp only
  rw [h]
  rfl

theorem State.keyMove_unbound (h : (s.key n).pos = .isolate) (hb : (s.key n).bound = none) : s.keyMove n .off = s.keyOff n := by
  unfold State.keyMove
  dsimp only
  rw [h, hb]
  exact State.modKey_modKey _ _

theorem State.keyMove_off (h : (s.key n).pos = .isolate) (hb : (s.key n).bound = some id) :
    s.keyMove n .off = (s.keyOff n).keyReleases id := by
  unfold State.keyMove
  dsimp only
  rw [h, hb]
  exact congrArg (State.keyReleases id) (State.modKey_modKey _ _)

theorem State.keyMove_earth (h : (s.key n).pos = .isolate) (hb : (s.key n).bound = some id) :
    s.keyMove n .earth = (s.turned n .earth).keyEarths id := by
  unfold State.keyMove
  dsimp only
  rw [h, hb]
  rfl

theorem State.keyMove_isolate (h : (s.key n).pos = .earth) (hb : (s.key n).bound = some id) :
    s.keyMove n .isolate = (s.turned n .isolate).keyIsolates id := by
  unfold State.keyMove
  dsimp only
  rw [h, hb]
  rfl

/-! ### A key that places (R117) -/

theorem State.keyPlaces_barred (h : (s.key n).needsCycling = true ∨ (s.key n).bound ≠ none) : s.keyPlaces n kind = s :=
  if_pos (by rw [Bool.or_eq_true, Option.isSome_iff_ne_none]; exact h)

section
variable (hc : (s.key n).needsCycling = false) (hb : (s.key n).bound = none)

include hc hb

theorem State.keyPlaces_refuses {code : RefusalCode} {value : Nat} (h : s.placementRefusal [n] false = some (code, value)) :
    s.keyPlaces n kind = s.refuseKey n code := by
  unfold State.keyPlaces
  rw [if_neg (by simp [hc, hb])]
  show (match s.placementRefusal [n] false with | some (code, _) => s.refuseKey n code | none => _) = _
  rw [h]

theorem State.keyPlaces_placed (h : s.placementRefusal [n] false = none) :
    s.keyPlaces n kind = (s.placeHold kind .panel (keyTag n) [n] none).1.modKey n fun r =>
      { r with bound := some (s.placeHold kind .panel (keyTag n) [n] none).2, lastRefusal := none } := by
  unfold State.keyPlaces
  rw [if_neg (by simp [hc, hb])]
  show (match s.placementRefusal [n] false with | some (code, _) => s.refuseKey n code | none => _) = _
  rw [h]
  rfl

end

/-- R115: nothing refuses a key placement on one fitted section whose breaker is no faulty one. -/
theorem State.placementRefusal_line (hfit : s.fitted k = true) (hroom : s.ht.holds.length < 24) (hfault : s.faultyFeeder k = false) :
    s.placementRefusal [sectionOf k] false = none := by
  have fitted : s.namesUnfitted [sectionOf k] = false := by
    rw [Bool.eq_false_iff, Ne, State.namesUnfitted_iff]
    rintro ⟨j, hj, hf⟩
    rw [sectionOf_inj (List.mem_singleton.1 hj), hfit] at hf
    cases hf
  have free : s.interlockFeeder [sectionOf k] = none := by
    unfold State.interlockFeeder
    rw [List.find?_eq_none]
    intro j _ h
    obtain ⟨hc, hf⟩ := (Bool.and_eq_true _ _).mp h
    rw [State.covers_line rfl, decide_eq_true_iff] at hc
    subst hc
    rw [hfault] at hf
    cases hf
  unfold State.placementRefusal
  rw [if_neg (by simp [fitted]), if_neg (by simp), if_neg (by omega), free]

/-- R117: what refuses a key placement on one section. -/
theorem State.placementRefusal_faulty (hfit : s.fitted k = true) (hroom : s.ht.holds.length < 24) (hfault : s.faultyFeeder k = true) :
    s.placementRefusal [sectionOf k] false = some (.interlock, k.val) := by
  refine State.placementRefusal_interlock ?_ rfl hroom ⟨?_, hfault⟩ fun j hj h => ?_
  · rintro ⟨j, hj, hf⟩
    rw [sectionOf_inj (List.mem_singleton.1 hj), hfit] at hf
    cases hf
  · rw [State.covers_line rfl]
    simp
  · rw [State.covers_line rfl, decide_eq_true_iff] at h
    exact absurd h.1 (Fin.ne_of_lt hj)

/-- R117: the key that has placed is bound to its hold. -/
def boundTo (id : Byte) (r : KeyRec) : KeyRec := { r with bound := some id, lastRefusal := none }

/-- R117, R119, R124: a key places an ISOLATE hold over an open feeder of an unshared section. -/
theorem State.keyPlaces_open (hc : (s.key (sectionOf k)).needsCycling = false) (hb : (s.key (sectionOf k)).bound = none)
    (ha : s.agenda = []) (hfit : s.fitted k = true) (hroom : s.ht.holds.length < 24)
    (hq : (s.seq k).state = some .opened ∨ (s.seq k).state = some .lockout) (hshare : s.share k = none) (hi : s.isolated k = false) :
    ∃ l, (∀ g ∈ l, g = .judgeWait k) ∧ l.length ≤ 2 ∧
      s.keyPlaces (sectionOf k) .isolate =
        { ((s.withHold (s.lineHold .isolate .panel (keyTag (sectionOf k)) k none [])).counted .isolate k).modKey (sectionOf k)
            (boundTo (drawId s.ht.holds s.ht.lastId)) with
          agenda := .holdDemand k :: (l ++ [.judgeHold (drawId s.ht.holds s.ht.lastId)]) } := by
  have hfault : s.faultyFeeder k = false := by obtain h | h := hq <;> simp [State.faultyFeeder, State.seqIn, h]
  have h0 : ((s.withHold (s.lineHold .isolate .panel (keyTag (sectionOf k)) k none [])).sec (sectionOf k)).isolate = 0 := by
    unfold State.isolated at hi
    simp only [Bool.or_eq_false_iff, bne_eq_false_iff_eq] at hi
    exact hi.1
  obtain ⟨l, hl, hlen, raised⟩ := State.raiseCounts_line (kind := .isolate) (by decide) h0
  refine ⟨l, hl, hlen, ?_⟩
  rw [State.keyPlaces_placed hc hb (State.placementRefusal_line hfit hroom hfault), State.placeHold_unasked (.inl hshare)]
  dsimp only
  rw [raised, show (s.withHold (s.lineHold .isolate .panel (keyTag (sectionOf k)) k none [])).agenda = [] from ha]
  rfl

/-- R119, R124: the placement carried out: the hold is proved next. -/
theorem carried_keyPlacement {l : List Signal} (hl : ∀ g ∈ l, g = .judgeWait k) (hlen : l.length ≤ 2) (ha : s.agenda = [])
    (hroom : s.ht.holds.length < 24) (hq : (s.seq k).state = some .opened ∨ (s.seq k).state = some .lockout)
    (hpos : s.breakerPos k = some .opened) (hch : (s.channel (chUL k)).state ≠ .failed) {tag : Half} {f : KeyRec → KeyRec}
    (hu : u = ((s.withHold (s.lineHold .isolate .panel tag k none [])).counted .isolate k).modKey (sectionOf k) f) :
    ∃ c, c < 4096 ∧ Carried c u (.holdDemand k :: (l ++ [.judgeHold (drawId s.ht.holds s.ht.lastId)]))
      (u.modHold (drawId s.ht.holds s.ht.lastId) fun x => { x with
        state := .proving, timers := { noHoldTimers with provingWait := some 2000, provingLimit := some 10000 } }) := by
  subst hu
  let w := ((s.withHold (s.lineHold .isolate .panel tag k none [])).counted .isolate k).modKey (sectionOf k) f
  have found : w.hold (drawId s.ht.holds s.ht.lastId) = some (s.lineHold .isolate .panel tag k none []) :=
    State.withHold_hold (t := (s.withHold (s.lineHold .isolate .panel tag k none [])).counted .isolate k) hroom [] rfl
  have judged := Carried.step (s := w) (m := []) (l := [])
    (handle_judgeHold_proving (k := k) found rfl (show HoldKind.isolate ≠ .noreclose by decide) rfl rfl rfl hq hpos hch) (.done 0 _)
  rw [State.quiet_eq (s := w.modHold _ _) (by exact ha)] at judged
  exact ⟨_, by omega, carried_openPlacement (v := w) hl hq hpos judged⟩

/-! ### A key that releases or converts its hold (R140 to R142) -/

section
variable {h : Hold} (e : s.hold id = some h)

include e

theorem State.keyReleases_failed (hf : h.state = .failed) : s.keyReleases id = (s.retired id).unbind id := by
  unfold State.keyReleases
  rw [e]
  exact (if_pos hf).trans (State.retireHold_failed e hf)

theorem State.keyReleases_standing (hf : h.state ≠ .failed) : s.keyReleases id = s.releaseHold id := by
  unfold State.keyReleases
  rw [e]
  exact if_neg hf

variable (hsec : h.sections = [sectionOf k])

include hsec

theorem State.keyEarths_line (hk : h.kind = .isolate) (hs : h.state = .securing ∨ h.state = .proving) :
    s.keyEarths id =
      { State.deriveBars (sectionOf k) ((s.modHold id fun x => { x with kind := .earth }).modSec (sectionOf k) fun r =>
          { r with earth := r.earth + 1 }) with agenda := s.agenda ++ [.judgeWait k] } := by
  have earths : s.earthHold id h = State.raiseEarth (sectionOf k) (s.modHold id fun x => { x with kind := .earth }) := by
    unfold State.earthHold
    rw [hsec]
    rfl
  have step : s.keyEarths id = s.earthHold id h := by
    unfold State.keyEarths
    rw [e]
    dsimp only
    rw [hk]
    obtain hs | hs := hs <;> rw [hs]
  rw [step, earths, State.raiseEarth_line]
  rfl

variable (hk : h.kind = .earth)

include hk

theorem State.keyIsolates_line (hs : h.state = .securing ∨ h.state = .proving)
    (hstay : (s.sec (sectionOf k)).commandedClosed = false ∨ 2 ≤ (s.sec (sectionOf k)).earth) :
    s.keyIsolates id =
      { State.deriveBars (sectionOf k) ((s.modHold id fun x => { x with kind := .isolate }).modSec (sectionOf k) fun r =>
          { r with earth := r.earth - 1 }) with agenda := s.agenda ++ [.judgeWait k] } := by
  have isolates : s.isolateHold id h (fun x => x) = State.lowerEarth (sectionOf k) (s.modHold id fun x => { x with kind := .isolate }) := by
    unfold State.isolateHold
    rw [hsec]
    rfl
  have step : s.keyIsolates id = s.isolateHold id h fun x => x := by
    unfold State.keyIsolates
    rw [e]
    dsimp only
    rw [if_neg (by rw [hk]; decide)]
    obtain hs | hs := hs <;> rw [hs]
  rw [step, isolates, State.lowerEarth_line (by exact hstay)]
  rfl

/-- R142: the record of a hold whose section is to be unearthed before it is converted. -/
def Hold.convertingOn (k : FeederNo) (h : Hold) : Hold :=
  { h with state := .releasing, purpose := some .convert, phase := some .earthOpen, unearth := [sectionOf k], timers := noHoldTimers }

theorem State.keyIsolates_earthed (hs : h.state = .earthing ∨ h.state = .active) (h1 : (s.sec (sectionOf k)).earth = 1)
    (hc : (s.sec (sectionOf k)).commandedClosed = true) (hpos : s.earthPos k ≠ some .opened) :
    s.keyIsolates id =
      { State.earthOpening k (s.modHold id (Hold.convertingOn k)) with agenda := s.agenda ++ [.judgeUnearth id] } := by
  have set : s.unearthSet h = [sectionOf k] := by rw [State.unearthSet_line hsec, if_pos ⟨hk, h1, hc⟩]
  have step : s.keyIsolates id = s.beginUnearth id .convert [sectionOf k] := by
    unfold State.keyIsolates
    rw [e]
    dsimp only
    rw [if_neg (by rw [hk]; decide)]
    obtain hs | hs := hs <;> rw [hs] <;> dsimp only <;> rw [set]
  rw [step]
  unfold State.beginUnearth
  dsimp only
  show State.hand (.judgeUnearth id) (State.earthOpenRequest (sectionOf k) (s.modHold id (Hold.convertingOn k))) = _
  unfold State.earthOpenRequest
  rw [feederOf_sectionOf]
  dsimp only
  rw [State.commandEarth_opens (by exact hc) (by exact hpos)]
  rfl

end

/-- R135, R142: a hold that converts waits for the switch of its section to open. -/
theorem carried_converting {h : Hold} (e : s.hold id = some h) (hpos : s.earthPos k ≠ some .opened) (ha : s.agenda = []) :
    Carried 1 (State.earthOpening k (s.modHold id (Hold.convertingOn k))) [.judgeUnearth id]
      (State.earthOpening k (s.modHold id (Hold.convertingOn k))) := by
  let u := State.earthOpening k (s.modHold id (Hold.convertingOn k))
  have hid : h.id = id := State.hold_id e
  have found : u.hold id = some (h.convertingOn k) := State.modHold_hold (s := s) e hid
  have commanded : (u.sec (sectionOf k)).commandedClosed = false := by
    show ((State.earthOpening k _).sec (sectionOf k)).commandedClosed = false
    unfold State.earthOpening State.deriveBars
    rw [State.modSec_sec, State.modSec_sec]
  have closed : u.unearthed (sectionOf k) = false := by
    unfold State.unearthed
    rw [commanded, feederOf_sectionOf]
    show (false || s.earthPos k == some .opened) = false
    simp [hpos]
  have waiting := Carried.skip (handle_judgeUnearth_waiting found (by simp [Hold.convertingOn, closed])) (.done 0 u)
  rwa [State.quiet_eq (s := u) ha] at waiting

end Sys2Proof.Machine
end

section
/-! PROOF. O44: the panel, input by input (R117, R140 to R142, R208 to R210). -/

namespace Sys2Proof.Machine

open Sys2Proof

variable {s t u v m : State} {k : FeederNo} {i j : InputId} {id : Byte} {a b : KeyPos}

/-! ### The contacts of a key (R209) -/

theorem State.leveled_inputOn_ne (h : inputIndex j ≠ inputIndex i) : (s.leveled i).inputOn j = s.inputOn j := by
  unfold State.inputOn State.leveled
  rw [State.setInput_input_ne s h]

theorem State.inputOn_iff : s.inputOn i = true ↔ (s.input i).level = some true := by simp [State.inputOn]

theorem keyContacts_apart : ∀ k : FeederNo, inputIndex (.holdEarth k) ≠ inputIndex (.holdIsolate (sectionOf k)) := by decide

section
variable (r : Ready s) (hv : s.verification = none) (hl : (s.input i).level = some (!(s.input i).raw))
  (hs : (s.input i).stability ≠ none) (hp : (s.key (sectionOf k)).pos = a)

include r hv hl hs hp

/-- R209: the ISOLATE contact of a key settles. -/
theorem KeyTurns.of_isolate (hi : i = .holdIsolate (sectionOf k)) {earth : Bool} (he : s.inputOn (.holdEarth k) = earth)
    (hshow : keyShows (s.input i).raw earth a = b) (hstep : keySteps a b = [b]) : KeyTurns s i k a b where
  ready := r
  verified := hv
  contact := .inl hi
  level := hl
  settled := hs
  before := hp
  shows := by
    subst hi
    rw [State.keyPosition_line, State.leveled_inputOn, State.leveled_inputOn_ne (keyContacts_apart k), he]
    exact hshow
  step := hstep

/-- R209: the EARTH contact of a key settles. -/
theorem KeyTurns.of_earth (hi : i = .holdEarth k) {isolate : Bool} (he : s.inputOn (.holdIsolate (sectionOf k)) = isolate)
    (hshow : keyShows isolate (s.input i).raw a = b) (hstep : keySteps a b = [b]) : KeyTurns s i k a b where
  ready := r
  verified := hv
  contact := .inr hi
  level := hl
  settled := hs
  before := hp
  shows := by
    subst hi
    rw [State.keyPosition_line, State.leveled_inputOn, State.leveled_inputOn_ne (keyContacts_apart k).symm, he]
    exact hshow
  step := hstep

end

/-! ### A key turned to ISOLATE (R117) -/

section
variable (y : KeyTurns s i k .off .isolate)

include y

theorem KeyTurns.places_barred (h : (s.key (sectionOf k)).needsCycling = true ∨ (s.key (sectionOf k)).bound ≠ none) :
    exec (.inputChange i) s = .next ((s.leveled i).turned (sectionOf k) .isolate).finish := by
  refine y.turns_quiet ?_ y.ready.quiet
  rw [State.keyMove_on (s := s.leveled i) y.before]
  refine State.keyPlaces_barred ?_
  unfold State.turned
  rw [State.modKey_key]
  exact h

variable (hc : (s.key (sectionOf k)).needsCycling = false) (hb : (s.key (sectionOf k)).bound = none)

include hc hb

theorem KeyTurns.places_refused {code : RefusalCode} {value : Nat}
    (h : s.placementRefusal [sectionOf k] false = some (code, value)) :
    exec (.inputChange i) s =
      .next (State.refuseKey (sectionOf k) code ((s.leveled i).turned (sectionOf k) .isolate)).finish := by
  refine y.turns_quiet ?_ ((State.pulse_agenda _ _).trans y.ready.quiet)
  rw [State.keyMove_on (s := s.leveled i) y.before]
  refine State.keyPlaces_refuses ?_ ?_ (value := value) h
  · unfold State.turned
    rw [State.modKey_key]
    exact hc
  · unfold State.turned
    rw [State.modKey_key]
    exact hb

theorem KeyTurns.places_open (hfit : s.fitted k = true) (hroom : s.ht.holds.length < 24)
    (hq : (s.seq k).state = some .opened ∨ (s.seq k).state = some .lockout) (hpos : s.breakerPos k = some .opened)
    (hshare : s.share k = none) (hi : s.isolated k = false) (hch : (s.channel (chUL k)).state ≠ .failed) :
    exec (.inputChange i) s = .next ((((((s.leveled i).turned (sectionOf k) .isolate).withHold
      (s.lineHold .isolate .panel (keyTag (sectionOf k)) k none [])).counted .isolate k).modKey (sectionOf k)
        (boundTo (drawId s.ht.holds s.ht.lastId))).modHold (drawId s.ht.holds s.ht.lastId) fun x => { x with
          state := .proving, timers := { noHoldTimers with provingWait := some 2000, provingLimit := some 10000 } }).finish := by
  let m := (s.leveled i).turned (sectionOf k) .isolate
  have key : m.key (sectionOf k) = { s.key (sectionOf k) with pos := .isolate } := State.modKey_key _ _ _
  obtain ⟨l, hl, hlen, placed⟩ := State.keyPlaces_open (s := m) (by rw [key]; exact hc) (by rw [key]; exact hb) y.ready.quiet hfit hroom hq
    hshare hi
  obtain ⟨c, hc', carried⟩ := carried_keyPlacement (s := m) hl hlen y.ready.quiet hroom hq hpos hch rfl
  exact y.turns ((State.keyMove_on (s := s.leveled i) y.before).trans placed) carried hc'

end

/-! ### A key turned to OFF (R140) -/

section
variable (y : KeyTurns s i k .isolate .off)

include y

theorem KeyTurns.off_unbound (hb : (s.key (sectionOf k)).bound = none) :
    exec (.inputChange i) s = .next ((s.leveled i).keyOff (sectionOf k)).finish :=
  y.turns_quiet (State.keyMove_unbound (s := s.leveled i) y.before hb) y.ready.quiet

variable {h : Hold} (hb : (s.key (sectionOf k)).bound = some id) (e : s.hold id = some h)

include hb e

theorem KeyTurns.off_failed (hf : h.state = .failed) :
    exec (.inputChange i) s = .next ((((s.leveled i).keyOff (sectionOf k)).retired id).unbind id).finish :=
  y.turns_quiet
    ((State.keyMove_off (s := s.leveled i) y.before hb).trans (State.keyReleases_failed (s := (s.leveled i).keyOff (sectionOf k)) e hf))
    ((State.unbind_agenda _ id).trans y.ready.quiet)

theorem KeyTurns.off_standing (hs : h.stands) (hk : h.kind = .isolate) (hsec : h.sections = [sectionOf k]) (ha : h.asks = [])
    (hw : (s.seq k).wait = none) :
    exec (.inputChange i) s = .next ((((s.leveled i).keyOff (sectionOf k)).retiredOn id .isolate k).unbind id).finish := by
  let m := (s.leveled i).keyOff (sectionOf k)
  have standing : h.state ≠ .failed := by
    intro hf
    obtain h | h | h | h := hs <;> exact absurd (h.symm.trans hf) (by decide)
  obtain ⟨l, hl, hlen, freed⟩ := State.releaseHold_line (s := m) e hs hsec (fun c => absurd (hk.symm.trans c) (by decide)) ha
  rw [show m.agenda = [] from y.ready.quiet, List.nil_append, hk] at freed
  refine y.turns ((State.keyMove_off (s := s.leveled i) y.before hb).trans ((State.keyReleases_standing (s := m) e standing).trans freed)) (c := 0 + l.length)
    (waits_carried hl ?_ ((State.unbind_agenda _ id).trans y.ready.quiet)) (by omega)
  unfold State.seq
  rw [State.unbind_seqs, State.retiredOn_seqs]
  exact hw

end

/-! ### A key turned between ISOLATE and EARTH (R141, R142) -/

section
variable {h : Hold} (hb : (s.key (sectionOf k)).bound = some id) (e : s.hold id = some h) (hsec : h.sections = [sectionOf k])
  (hw : (s.seq k).wait = none)

include hb e hsec hw

omit hb e hsec in
/-- What a conversion that is carried out at once hands on. -/
theorem KeyTurns.turns_waits (y : KeyTurns s i k a b) (hmove : (s.leveled i).keyMove (sectionOf k) b = { u with agenda := [.judgeWait k] })
    (hseqs : u.seqs = s.seqs) (hu : u.agenda = []) : exec (.inputChange i) s = .next u.finish := by
  have wait : (u.seq k).wait = none := by
    unfold State.seq
    rw [hseqs]
    exact hw
  exact y.turns hmove (waits_carried (l := [.judgeWait k]) (by simp) wait hu) (by simp)

theorem KeyTurns.to_earth (y : KeyTurns s i k .isolate .earth) (hk : h.kind = .isolate) (hs : h.state = .securing ∨ h.state = .proving) :
    exec (.inputChange i) s = .next (State.deriveBars (sectionOf k)
      ((((s.leveled i).turned (sectionOf k) .earth).modHold id fun x => { x with kind := .earth }).modSec (sectionOf k) fun r =>
        { r with earth := r.earth + 1 })).finish := by
  let m := (s.leveled i).turned (sectionOf k) .earth
  have earths := State.keyEarths_line (s := m) e hsec hk hs
  rw [show m.agenda = [] from y.ready.quiet] at earths
  exact KeyTurns.turns_waits hw y ((State.keyMove_earth (s := s.leveled i) y.before hb).trans earths) rfl y.ready.quiet

variable (y : KeyTurns s i k .earth .isolate) (hk : h.kind = .earth)

include y hk

theorem KeyTurns.to_isolate (hs : h.state = .securing ∨ h.state = .proving)
    (hstay : (s.sec (sectionOf k)).commandedClosed = false ∨ 2 ≤ (s.sec (sectionOf k)).earth) :
    exec (.inputChange i) s = .next (State.deriveBars (sectionOf k)
      ((((s.leveled i).turned (sectionOf k) .isolate).modHold id fun x => { x with kind := .isolate }).modSec (sectionOf k) fun r =>
        { r with earth := r.earth - 1 })).finish := by
  let m := (s.leveled i).turned (sectionOf k) .isolate
  have isolates := State.keyIsolates_line (s := m) e hsec hk hs hstay
  rw [show m.agenda = [] from y.ready.quiet] at isolates
  exact KeyTurns.turns_waits hw y ((State.keyMove_isolate (s := s.leveled i) y.before hb).trans isolates) rfl y.ready.quiet

omit hw in
theorem KeyTurns.to_isolate_earthed (hs : h.state = .earthing ∨ h.state = .active) (h1 : (s.sec (sectionOf k)).earth = 1)
    (hc : (s.sec (sectionOf k)).commandedClosed = true) (hpos : s.earthPos k ≠ some .opened) :
    exec (.inputChange i) s = .next (State.earthOpening k
      (((s.leveled i).turned (sectionOf k) .isolate).modHold id (Hold.convertingOn k))).finish := by
  let m := (s.leveled i).turned (sectionOf k) .isolate
  have isolates := State.keyIsolates_earthed (s := m) e hsec hk hs h1 hc hpos
  rw [show m.agenda = [] from y.ready.quiet] at isolates
  exact y.turns ((State.keyMove_isolate (s := s.leveled i) y.before hb).trans isolates)
    (carried_converting (s := m) e hpos y.ready.quiet) (by decide)

end

/-- Settles O44: EMERGENCY, the pushbuttons, and the moves of a hold key by the hold that is bound to it. -/
theorem emergencyPressed : Obligations.EmergencyPressed := by
  unfold Obligations.EmergencyPressed
  intro s r hv
  refine ⟨fun n hl hraw hs hshare hq hr hac => ?_, ?_⟩
  · have pressed := exec_inputChange_emergency r hv n hl hraw hs hshare hq hr hac
    unfold State.leveled at pressed
    rw [hraw] at pressed
    exact pressed
  intro i hl hs on u gives
  refine ⟨?_, ?_, ?_, ?_⟩
  · exact fun hi h => exec_inputChange_ignored r hv hl hs hi h
  · intro hlocal hon writes
    refine ⟨?_, ?_, ?_, ?_⟩
    · rintro rfl hoff htripped
      exact exec_inputChange_start r hv hl hs hlocal hon hoff htripped
    · rintro rfl hoff
      exact exec_inputChange_stop_off r hv hl hs hlocal hon hoff
    · rintro rfl hoff n
      exact exec_inputChange_stop r hv hl hs hlocal hon hoff n
    · intro k q bus line
      refine ⟨?_, ?_⟩
      · rintro rfl
        exact ⟨exec_inputChange_open_refused r hv hl hs hlocal hon, fun f => exec_inputChange_open r hv hl hs hlocal hon f⟩
      · rintro rfl
        refine ⟨exec_inputChange_close_refused r hv hl hs hlocal hon, fun f hstandby hq hb hbar hi hu hub hbus htest => ?_⟩
        refine exec_inputChange_close r hv hl hs hlocal hon f hstandby hq hb hbar hi hu ?_ htest
        rw [Bool.eq_false_iff, Ne, State.busLow_iff]
        rintro (h | h)
        · exact hub h
        · exact absurd hbus (Int.not_le.2 h)
  · intro k hi n key turned earth none'
    have unearthed (h : ¬ earth) : s.inputOn (.holdEarth k) = false := by
      rw [Bool.eq_false_iff]
      exact mt State.inputOn_iff.1 h
    refine ⟨?_, ?_, fun id h hb e hsec he hw hoff hp hk hstate => ?_⟩
    · intro hon he hp refusing
      have y : KeyTurns s i k .off .isolate :=
        KeyTurns.of_isolate r hv hl hs hp hi (unearthed he) (by rw [show (s.input i).raw = true from hon]; rfl) rfl
      refine ⟨y.places_barred, fun hc hb => ⟨fun hf => ?_, fun hf hfull => ?_, fun hf hroom hq hpos => ?_, ?_⟩⟩
      · exact y.places_refused hc hb (State.placementRefusal_notFitted ⟨k, List.mem_singleton.2 rfl, hf⟩)
      · refine y.places_refused hc hb (State.placementRefusal_full ?_ rfl hfull)
        rintro ⟨j, hj, hf'⟩
        rw [sectionOf_inj (List.mem_singleton.1 hj), hf] at hf'
        cases hf'
      · exact y.places_refused hc hb (State.placementRefusal_faulty hf hroom (State.faultyFeeder_iff.2 ⟨hq, hpos⟩))
      · intro hf hroom hq hpos hshare hiso _ hch
        exact y.places_open hc hb hf hroom hq hpos hshare hiso hch
    · intro hoff he hp off gone
      have y : KeyTurns s i k .isolate .off :=
        KeyTurns.of_isolate r hv hl hs hp hi (unearthed he) (by rw [show (s.input i).raw = false from hoff]; rfl) rfl
      refine ⟨y.off_unbound, fun id h hb e => ⟨y.off_failed hb e, fun hstate hk hsec ha hw => ?_⟩⟩
      exact y.off_standing hb e (hstate.elim .inl fun x => x.elim (fun x => .inr (.inl x)) fun x => .inr (.inr (.inr x))) hk hsec ha hw
    · have y : KeyTurns s i k .isolate .earth :=
        KeyTurns.of_isolate r hv hl hs hp hi (State.inputOn_iff.2 he) (by rw [show (s.input i).raw = false from hoff]; rfl) rfl
      exact KeyTurns.to_earth hb e hsec hw y hk hstate
  · intro k id h hi hoff hiso hp hb e hsec hk hw n turned
    have y : KeyTurns s i k .earth .isolate :=
      KeyTurns.of_earth r hv hl hs hp hi (State.inputOn_iff.2 hiso) (by rw [show (s.input i).raw = false from hoff]; rfl) rfl
    exact ⟨fun hstate hstay => KeyTurns.to_isolate hb e hsec hw y hk hstate hstay,
      fun hstate h1 hc hpos => KeyTurns.to_isolate_earthed hb e hsec y hk hstate h1 hc hpos⟩

end Sys2Proof.Machine
end

section
/-! PROOF. O45: equipment verification ends on a quiet station with every switch OPEN (R15, R71, R94, R99, R108, R111, R144, R145,
R168, R184, R212). -/

namespace Sys2Proof.Machine

open Sys2Proof

variable {s t u v : State} {k : FeederNo}

/-! ### Loops and handings -/

/-- What a step of a loop brings about, and no step undoes, stands behind the loop. -/
theorem forEach_establishes {α : Type} {P : State → Prop} {R : α → State → Prop} {f : α → State → State}
    (keeps : ∀ a s, P s → P (f a s)) (makes : ∀ a s, P s → R a (f a s)) (stands : ∀ a b s, P s → R a s → R a (f b s)) (l : List α) (h : P s) :
    ∀ a ∈ l, R a (forEach l f s) := by
  have later {a : α} (l : List α) : ∀ {s : State}, P s → R a s → R a (forEach l f s) := by
    induction l with
    | nil => exact fun _ hr => hr
    | cons b l ih => exact fun hs hr => ih (keeps b _ hs) (stands a b _ hs hr)
  induction l generalizing s with
  | nil => exact fun _ ha => absurd ha List.not_mem_nil
  | cons b l ih =>
    intro a ha
    obtain rfl | ha := List.mem_cons.1 ha
    · exact later l (keeps a _ h) (makes a _ h)
    · exact ih (keeps b _ h) a ha

/-- A handing that leaves nothing to carry out. -/
theorem Carried.quiet_step {g : Signal} {l : List Signal} {n : Nat} (hs : s.agenda = []) (hu : (State.handle g s).agenda = [])
    (c : Carried n (State.handle g s) l t) : Carried (n + 1) s (g :: l) t := by
  refine .step (m := []) ?_ c
  rw [State.quiet_eq hs, State.quiet_eq hu]

/-! ### The part while its starting states are handed -/

/-- R15: a part with nothing held, in which every position found has been handed as OPEN. -/
structure Opening (s u : State) : Prop where
  pairs : ∀ p, u.pair p = { s.pair p with handed := some .opened }
  matched : u.mi.mismatch = false
  inputs : u.mi.inputs = s.mi.inputs
  rectifier : u.rect = s.rect
  store : u.store = s.store
  links : u.linkA = s.linkA ∧ u.linkB = s.linkB
  held : u.resetHeld = s.resetHeld
  holds : u.ht.holds = []
  settled : u.ht.resetFailed = false
  counts : ∀ n, (u.sec n).isolate = 0 ∧ (u.sec n).commandedClosed = false
  wanted : ∀ k, (u.sec (sectionOf k)).wanted = .single
  quiet : u.agenda = []

/-- A station with every feeder fitted and unshared. -/
structure PlainStation (s : State) : Prop where
  fitted : ∀ k, s.fitted k = true
  share : ∀ k, s.share k = none

namespace Opening

variable (o : Opening s u)

include o

/-- A write of a section's record that leaves its counts, its command and the wanted set. -/
theorem modSec {n : SectionNo} {f : SectionRec → SectionRec}
    (hf : ∀ r, (f r).isolate = r.isolate ∧ (f r).commandedClosed = r.commandedClosed ∧ (f r).wanted = r.wanted) :
    Opening s (u.modSec n f) := by
  have same (m : SectionNo) : ((u.modSec n f).sec m).isolate = (u.sec m).isolate ∧
      ((u.modSec n f).sec m).commandedClosed = (u.sec m).commandedClosed ∧ ((u.modSec n f).sec m).wanted = (u.sec m).wanted := by
    by_cases hm : m = n
    · subst hm
      rw [State.modSec_sec]
      exact hf _
    · rw [State.modSec_sec_ne _ hm]
      exact ⟨rfl, rfl, rfl⟩
  exact ⟨o.pairs, o.matched, o.inputs, o.rectifier, o.store, o.links, o.held, o.holds, o.settled,
    fun m => ⟨(same m).1.trans (o.counts m).1, (same m).2.1.trans (o.counts m).2⟩, fun k => (same _).2.2.trans (o.wanted k), o.quiet⟩

theorem deriveBars (n : SectionNo) : Opening s (State.deriveBars n u) := o.modSec fun _ => ⟨rfl, rfl, rfl⟩

theorem deriveFeed (k : FeederNo) : Opening s (u.deriveFeed k) :=
  (o.modSec (n := sectionOf k) (f := fun r => { r with feed := u.lineFeed k }) fun _ => ⟨rfl, rfl, rfl⟩).modSec (n := busSection)
    (f := fun r => { r with feed := (u.modSec (sectionOf k) fun r => { r with feed := u.lineFeed k }).busFeed }) fun _ => ⟨rfl, rfl, rfl⟩

theorem startEarth (k : FeederNo) : Opening s (u.startEarth k) := by
  unfold State.startEarth
  split
  · exact o.modSec fun _ => ⟨rfl, rfl, rfl⟩
  · exact o

theorem modSeq (k : FeederNo) (f : Sequencer → Sequencer) : Opening s (u.modSeq k f) :=
  ⟨o.pairs, o.matched, o.inputs, o.rectifier, o.store, o.links, o.held, o.holds, o.settled, o.counts, o.wanted, o.quiet⟩

theorem modSp (f : StationPort → StationPort) : Opening s (u.modSp f) :=
  ⟨o.pairs, o.matched, o.inputs, o.rectifier, o.store, o.links, o.held, o.holds, o.settled, o.counts, o.wanted, o.quiet⟩

theorem modKey (n : KeyNo) (f : KeyRec → KeyRec) : Opening s (u.modKey n f) :=
  ⟨o.pairs, o.matched, o.inputs, o.rectifier, o.store, o.links, o.held, o.holds, o.settled, o.counts, o.wanted, o.quiet⟩

theorem breakerPos (k : FeederNo) : u.breakerPos k = some .opened := congrArg SwitchPair.handed (o.pairs (.breaker k))

theorem earthPos (k : FeederNo) : u.earthPos k = some .opened := congrArg SwitchPair.handed (o.pairs (.earth k))

theorem fitted (p : PlainStation s) (k : FeederNo) : u.fitted k = true :=
  (congrArg (fun x => State.fitted { s with store := x } k) o.store).trans (p.fitted k)

theorem share (p : PlainStation s) (k : FeederNo) : u.share k = none :=
  (congrArg (fun x => State.share { s with store := x } k) o.store).trans (p.share k)

theorem isolated (k : FeederNo) : u.isolated k = false := by
  unfold State.isolated
  rw [(o.counts _).1, (o.counts _).1]
  rfl

theorem securingOver (k : FeederNo) : u.securingOver k = [] := by
  unfold State.securingOver
  rw [o.holds]
  rfl

theorem inputOn (h : ∀ i, pairOf i = none → (s.input i).level ≠ some true) {i : InputId} (hi : pairOf i = none) :
    u.inputOn i = false := by
  have same : u.input i = s.input i := by
    unfold State.input
    rw [o.inputs]
  rw [Bool.eq_false_iff, Ne, State.inputOn_iff, same]
  exact h i hi

end Opening

/-! ### Positions (R15, steps 1 to 3) -/

theorem mem_allPairs (p : PairId) : p ∈ allPairs := by
  cases p <;> simp [allPairs, mem_allFeeders]

/-- R15: every position found is handed as OPEN. -/
theorem State.handPositions_pair (hfit : ∀ k, s.fitted k = true) (h : ∀ p, (s.pair p).derived = some .opened) (p : PairId) :
    s.handPositions.pair p = { s.pair p with handed := some .opened } := by
  let P := fun u : State => u.store = s.store ∧
    ∀ q, u.pair q = s.pair q ∨ u.pair q = { s.pair q with handed := some .opened }
  have starting {u : State} (hu : P u) (q : PairId) : u.startingPosition q = some .opened := by
    have found : (u.pair q).derived = some .opened := by
      obtain e | e := hu.2 q <;> rw [e] <;> exact h q
    unfold State.startingPosition
    cases q with
    | breaker k =>
      have fitted : u.fitted k = true := (congrArg (fun x => State.fitted { s with store := x } k) hu.1).trans (hfit k)
      dsimp only
      rw [if_pos fitted, found]
      rfl
    | earth k => dsimp only; rw [found]; rfl
    | ac => dsimp only; rw [found]; rfl
  have written {u : State} (hu : P u) (q : PairId) :
      { u.pair q with handed := u.startingPosition q } = { s.pair q with handed := some .opened } := by
    rw [starting hu]
    obtain e | e := hu.2 q <;> rw [e]
  have makes (q : PairId) (u : State) (hu : P u) :
      (u.setPair q { u.pair q with handed := u.startingPosition q }).pair q = { s.pair q with handed := some .opened } := by
    rw [State.setPair_pair, written hu]
  have stands (q q' : PairId) (u : State) (hu : P u) (he : u.pair q = { s.pair q with handed := some .opened }) :
      (u.setPair q' { u.pair q' with handed := u.startingPosition q' }).pair q = { s.pair q with handed := some .opened } := by
    by_cases hi : pairIndex q = pairIndex q'
    · have one (w : State) : w.pair q = w.pair q' := congrArg w.mi.pairs.get hi
      rw [one, makes q' u hu, one]
    · rw [State.setPair_pair_ne _ hi, he]
  refine forEach_establishes (P := P) (R := fun q u => u.pair q = { s.pair q with handed := some .opened }) ?_ makes stands allPairs
    ⟨rfl, fun q => .inl rfl⟩ p (mem_allPairs p)
  refine fun q u hu => ⟨hu.1, fun q' => ?_⟩
  obtain e | e := hu.2 q'
  · by_cases hi : pairIndex q' = pairIndex q
    · have one (w : State) : w.pair q' = w.pair q := congrArg w.mi.pairs.get hi
      rw [one, one]
      exact .inr (makes q u hu)
    · rw [State.setPair_pair_ne _ hi]
      exact .inl e
  · exact .inr (stands q' q u hu e)

/-! ### Sequencers (R71) -/

/-- R71: the record of a sequencer that starts with its breaker OPEN. -/
def startsOpen (r : Sequencer) : Sequencer := enterFields .opened { r with attempts := 0 }

/-- R71, R108: the sequencer of feeder k has started in OPEN. -/
def State.opensAt (k : FeederNo) (u : State) : State := State.deriveBars (sectionOf k) (u.modSeq k startsOpen)

theorem Opening.startSequencer (o : Opening s u) (p : PlainStation s) (hq : (u.seq k).state = none) :
    State.handle (.startSequencer k) { u with agenda := [] } = { u.modSeq k startsOpen with agenda := [.seqChanged k] } := by
  have enters : u.enter k .opened (fun r => { r with attempts := 0 }) = { u.modSeq k startsOpen with agenda := [.seqChanged k] } := by
    rw [State.enter_idle .opened _ (by decide) (by rw [hq]; rfl), o.quiet, hq]
    rfl
  have isolated : State.isolated { u.modSeq k startsOpen with agenda := [.seqChanged k] } k = false := o.isolated k
  rw [State.quiet_eq o.quiet]
  show State.startSequencer k u = _
  unfold State.startSequencer
  rw [o.fitted p, o.breakerPos]
  simp only [Bool.not_true, Bool.false_eq_true, if_false]
  rw [enters, isolated]
  exact if_neg Bool.false_ne_true

theorem Opening.opensAt (o : Opening s u) (k : FeederNo) : Opening s (u.opensAt k) := (o.modSeq k startsOpen).deriveBars _

theorem State.opensAt_seq_ne {j : FeederNo} (h : j ≠ k) : (s.opensAt k).seq j = s.seq j := State.modSeq_seq_ne s h _

theorem State.opensAt_seq : (s.opensAt k).seq k = startsOpen (s.seq k) := State.modSeq_seq s k _

theorem carried_startSequencers (p : PlainStation s) {l : List FeederNo} (hl : l.Nodup) (o : Opening s u)
    (hq : ∀ k ∈ l, (u.seq k).state = none) {n : Nat} {rest : List Signal} (c : Carried n (forEach l State.opensAt u) rest t) :
    Carried (n + 2 * l.length) u (l.map Signal.startSequencer ++ rest) t := by
  induction l generalizing u with
  | nil => exact c
  | cons k l ih =>
    obtain ⟨hk, hl⟩ := List.nodup_cons.1 hl
    have later : Carried (n + 2 * l.length) (u.opensAt k) (l.map Signal.startSequencer ++ rest) t :=
      ih hl (o.opensAt k) (fun j hj => by
        rw [State.opensAt_seq_ne (ne_of_mem_of_not_mem hj hk)]
        exact hq j (List.mem_cons_of_mem _ hj)) c
    exact .step (m := [.seqChanged k]) (o.startSequencer p (hq k List.mem_cons_self))
      (.step (m := []) (handle_seqChanged (s := u.modSeq k startsOpen) ((o.modSeq k startsOpen).securingOver k)) later)

theorem forEach_opensAt_seq {l : List FeederNo} (hl : l.Nodup) :
    ∀ k, (forEach l State.opensAt u).seq k = if k ∈ l then startsOpen (u.seq k) else u.seq k := by
  induction l generalizing u with
  | nil => exact fun _ => rfl
  | cons j l ih =>
    obtain ⟨hj, hl⟩ := List.nodup_cons.1 hl
    intro k
    refine (ih (u := u.opensAt j) hl k).trans ?_
    by_cases hk : k = j
    · subst hk
      rw [if_neg hj, if_pos List.mem_cons_self, State.opensAt_seq]
    · rw [State.opensAt_seq_ne hk]
      simp [hk]

/-! ### Sections (R15 step 3, R99, R108, R111) -/

theorem Opening.lineFeed (o : Opening s u) (p : PlainStation s) (k : FeederNo) : u.lineFeed k = .unfed := by
  have near : (u.breakerPos k == some .closed) = false := by rw [o.breakerPos]; rfl
  have far : u.remoteFeeds k = false := by
    unfold State.remoteFeeds
    rw [o.share p]
    rfl
  unfold State.lineFeed
  rw [near, far]
  rfl

theorem Opening.barsOf (o : Opening s u) (p : PlainStation s) (hq : ∀ k, (u.seq k).state = some .opened) (k : FeederNo) :
    (u.barsOf (sectionOf k)).barred = false := by
  have standing : u.seqIn k .lockout = false ∧ u.seqIn k .breakerFault = false := by
    unfold State.seqIn
    rw [hq]
    exact ⟨rfl, rfl⟩
  unfold State.barsOf
  rw [feederOf_sectionOf]
  dsimp only
  rw [(o.counts _).1, (o.counts _).1, (o.counts _).2, o.earthPos, standing.1, standing.2, o.fitted p]
  rfl

theorem State.startEarth_sec (j : FeederNo) (n : SectionNo) :
    ((s.startEarth j).sec n).feed = (s.sec n).feed ∧ ((s.startEarth j).sec n).bars = (s.sec n).bars := by
  unfold State.startEarth
  split
  · by_cases hn : n = sectionOf j
    · subst hn
      rw [State.modSec_sec]
      exact ⟨rfl, rfl⟩
    · rw [State.modSec_sec_ne _ hn]
      exact ⟨rfl, rfl⟩
  · exact ⟨rfl, rfl⟩

theorem State.deriveBars_feed (m n : SectionNo) : ((State.deriveBars m s).sec n).feed = (s.sec n).feed := by
  unfold State.deriveBars
  by_cases hn : n = m
  · subst hn
    rw [State.modSec_sec]
  · rw [State.modSec_sec_ne _ hn]

theorem State.deriveFeed_feed (j : FeederNo) :
    ((s.deriveFeed j).sec (sectionOf k)).feed = if k = j then s.lineFeed k else (s.sec (sectionOf k)).feed := by
  unfold State.deriveFeed
  dsimp only
  rw [State.modSec_sec_ne _ (sectionOf_ne_bus k)]
  split
  next h =>
    subst h
    rw [State.modSec_sec]
  next h => rw [State.modSec_sec_ne _ fun e => h (sectionOf_inj e)]

/-- R15 step 3: the Section Table of a part with every switch OPEN and nothing held. -/
structure SectionsStarted (s u : State) : Prop where
  opening : Opening s u
  seqs : ∀ k, (u.seq k).state = some .opened
  feed : ∀ k, (u.sec (sectionOf k)).feed = .unfed
  bars : ∀ k, (u.sec (sectionOf k)).bars.barred = false

/-! What the loops of the Section Table leave. -/

theorem State.startFeeds_rest : (forEach allFeeders State.deriveFeed s).seqs = s.seqs ∧ (forEach allFeeders State.deriveFeed s).sp = s.sp :=
  ⟨forEach_same (fun u : State => u.seqs) allFeeders State.deriveFeed s fun k s => State.deriveFeed_seqs s k,
    forEach_same (fun u : State => u.sp) allFeeders State.deriveFeed s fun k s => State.deriveFeed_sp s k⟩

theorem State.deriveAllBars_rest : s.deriveAllBars.seqs = s.seqs ∧ s.deriveAllBars.sp = s.sp ∧
    ∀ n, (s.deriveAllBars.sec n).feed = (s.sec n).feed := by
  unfold State.deriveAllBars
  exact ⟨forEach_same (fun u : State => u.seqs) allSections State.deriveBars s fun _ _ => rfl,
    forEach_same (fun u : State => u.sp) allSections State.deriveBars s fun _ _ => rfl,
    fun n => forEach_same (fun u : State => (u.sec n).feed) allSections State.deriveBars s fun m _ => State.deriveBars_feed m n⟩

theorem State.startEarth_rest (k : FeederNo) : (s.startEarth k).seqs = s.seqs ∧ (s.startEarth k).sp = s.sp := by
  unfold State.startEarth
  split <;> exact ⟨rfl, rfl⟩

theorem State.startEarths_rest : (forEach allFeeders State.startEarth s).seqs = s.seqs ∧ (forEach allFeeders State.startEarth s).sp = s.sp ∧
    ∀ n, ((forEach allFeeders State.startEarth s).sec n).feed = (s.sec n).feed ∧
      ((forEach allFeeders State.startEarth s).sec n).bars = (s.sec n).bars :=
  ⟨forEach_same (fun u : State => u.seqs) allFeeders State.startEarth s fun k _ => (State.startEarth_rest k).1,
    forEach_same (fun u : State => u.sp) allFeeders State.startEarth s fun k _ => (State.startEarth_rest k).2,
    fun n => ⟨forEach_same (fun u : State => (u.sec n).feed) allFeeders State.startEarth s fun k _ => (State.startEarth_sec k n).1,
      forEach_same (fun u : State => (u.sec n).bars) allFeeders State.startEarth s fun k _ => (State.startEarth_sec k n).2⟩⟩

section
variable (o : Opening s u)

include o

theorem Opening.deriveFeeds : Opening s (forEach allFeeders State.deriveFeed u) :=
  forEach_keeps allFeeders State.deriveFeed (fun k _ h => h.deriveFeed k) o

theorem Opening.deriveAllBars : Opening s u.deriveAllBars :=
  forEach_keeps allSections State.deriveBars (fun n _ h => h.deriveBars n) o

theorem Opening.startEarths : Opening s (forEach allFeeders State.startEarth u) :=
  forEach_keeps allFeeders State.startEarth (fun k _ h => h.startEarth k) o

theorem Opening.unfed (p : PlainStation s) (k : FeederNo) :
    ((forEach allFeeders State.deriveFeed u).sec (sectionOf k)).feed = .unfed := by
  refine forEach_establishes (P := Opening s) (R := fun k u => (u.sec (sectionOf k)).feed = .unfed) (fun k _ h => h.deriveFeed k)
    (fun k u h => ?_) (fun k j u h hk => ?_) allFeeders o k (mem_allFeeders k)
  · rw [State.deriveFeed_feed, if_pos rfl, h.lineFeed p]
  · rw [State.deriveFeed_feed]
    split
    · exact h.lineFeed p k
    · exact hk

theorem Opening.permitted (p : PlainStation s) (hq : ∀ k, (u.seq k).state = some .opened) (k : FeederNo) :
    (u.deriveAllBars.sec (sectionOf k)).bars.barred = false := by
  refine forEach_establishes (P := fun u => Opening s u ∧ ∀ k, (u.seq k).state = some .opened)
    (R := fun n u => n = sectionOf k → (u.sec n).bars.barred = false) (fun n _ h => ⟨h.1.deriveBars n, h.2⟩)
    (fun n u h hn => ?_) (fun n m u h hn e => ?_) allSections ⟨o, hq⟩ (sectionOf k) (mem_allSections _) rfl
  · subst hn
    unfold State.deriveBars
    rw [State.modSec_sec]
    exact h.1.barsOf p h.2 k
  · subst e
    unfold State.deriveBars
    by_cases hm : sectionOf k = m
    · subst hm
      rw [State.modSec_sec]
      exact h.1.barsOf p h.2 k
    · rw [State.modSec_sec_ne _ hm]
      exact hn rfl

/-- R111: no bus hold stands and no wanted set changes. -/
theorem Opening.startSections_eq (p : PlainStation s) : u.startSections =
    forEach allFeeders State.startEarth (forEach allFeeders State.deriveFeed u).deriveAllBars := by
  have ob := o.deriveFeeds.deriveAllBars
  unfold State.startSections
  dsimp only
  generalize (forEach allFeeders State.deriveFeed u).deriveAllBars = b at ob ⊢
  have wanted : forEach allFeeders State.deriveWanted b = b := forEach_still fun k _ => State.deriveWanted_same (.inr (by
    rw [State.wantedOf_unshared (ob.share p k)]
    exact ob.wanted k))
  rw [wanted]
  exact if_neg fun c => c (ob.startEarths.counts busSection).1

theorem Opening.startSections (p : PlainStation s) (hq : ∀ k, (u.seq k).state = some .opened) :
    SectionsStarted s u.startSections ∧ u.startSections.seqs = u.seqs ∧ u.startSections.sp = u.sp := by
  rw [o.startSections_eq p]
  have oa := o.deriveFeeds
  have unfed := o.unfed p
  obtain ⟨seqsA, spA⟩ := State.startFeeds_rest (s := u)
  generalize forEach allFeeders State.deriveFeed u = a at oa unfed seqsA spA ⊢
  have hqa : ∀ k, (a.seq k).state = some .opened := fun k => by
    unfold State.seq
    rw [seqsA]
    exact hq k
  have ob := oa.deriveAllBars
  have permitted := oa.permitted p hqa
  obtain ⟨seqsB, spB, feedB⟩ := State.deriveAllBars_rest (s := a)
  generalize a.deriveAllBars = b at ob permitted seqsB spB feedB ⊢
  obtain ⟨seqsE, spE, secE⟩ := State.startEarths_rest (s := b)
  have seqs := seqsE.trans (seqsB.trans seqsA)
  refine ⟨⟨ob.startEarths, fun k => ?_, fun k => ?_, fun k => ?_⟩, seqs, spE.trans (spB.trans spA)⟩
  · unfold State.seq
    rw [seqs]
    exact hq k
  · rw [(secE _).1, feedB, unfed]
  · rw [(secE _).2]
    exact permitted k

end

end Sys2Proof.Machine
end

section
/-! PROOF. O45: the panel's starting levels, the end of verification, and the evaluation of the points (R15, R144, R145, R168, R184,
R212). -/

namespace Sys2Proof.Machine

open Sys2Proof

variable {s t u v : State} {k : FeederNo}

/-! ### The panel (R145, R212) -/

/-- R145: the record of a key that starts at OFF with no hold to bind. -/
def keyAtOff : KeyRec := { pos := .off, bound := none, needsCycling := false, lastRefusal := none }

/-- R212: the port's record with every key and pushbutton off. -/
def panelOff (r : StationPort) : StationPort :=
  { r with localAuthority := false, settingsKey := false, supervisorKey := false, emergency := false }

theorem mem_allKeys : ∀ n : KeyNo, n ∈ allKeys := by decide

section
variable (o : Opening s u) (hoff : ∀ i, pairOf i = none → (s.input i).level ≠ some true)

include o hoff

theorem Opening.keyPosition (n : KeyNo) : u.keyPosition n .off = .off := by
  unfold State.keyPosition
  rw [o.inputOn hoff (i := .holdIsolate n) rfl]
  cases feederOf n with
  | none => rfl
  | some k =>
    dsimp only
    rw [o.inputOn hoff (i := .holdEarth k) rfl]
    rfl

theorem Opening.rebuildKey (n : KeyNo) : u.rebuildKey n (u.keyPosition n .off) = u.modKey n fun _ => keyAtOff := by
  rw [o.keyPosition hoff]
  unfold State.rebuildKey
  rw [o.holds]
  rfl

/-- R212: the port's record while its keys are rebuilt. -/
theorem Opening.startPanel_eq :
    u.startPanel = forEach allKeys (fun n s => s.rebuildKey n (s.keyPosition n .off)) (u.modSp panelOff) := by
  have off {i : InputId} (hi : pairOf i = none) : u.inputOn i = false := o.inputOn hoff hi
  unfold State.startPanel
  rw [off (i := .authorityKey) rfl, off (i := .settingsKey) rfl, off (i := .supervisorKey) rfl, off (i := .emergencyButton) rfl]
  rfl

/-- R145, R212: the panel has started. -/
theorem Opening.startPanel : Opening s u.startPanel ∧ (∀ n, u.startPanel.key n = keyAtOff) ∧ u.startPanel.sp = panelOff u.sp ∧
    u.startPanel.seqs = u.seqs ∧ u.startPanel.sections = u.sections := by
  rw [o.startPanel_eq hoff]
  have rebuilt (n : KeyNo) (w : State) (hw : Opening s w) :
      w.rebuildKey n (w.keyPosition n .off) = w.modKey n fun _ => keyAtOff := hw.rebuildKey hoff n
  have rest := forEach_keeps (P := fun w => Opening s w ∧ w.sp = panelOff u.sp ∧ w.seqs = u.seqs ∧ w.sections = u.sections)
    (s := u.modSp panelOff) allKeys (fun n w => w.rebuildKey n (w.keyPosition n .off)) (fun n w hw => by
      rw [rebuilt n w hw.1]
      exact ⟨hw.1.modKey n _, hw.2⟩) ⟨o.modSp panelOff, rfl, rfl, rfl⟩
  refine ⟨rest.1, fun n => ?_, rest.2⟩
  refine forEach_establishes (P := Opening s) (R := fun n w => w.key n = keyAtOff) (fun n w hw => ?_) (fun n w hw => ?_)
    (fun n m w hw hn => ?_) allKeys (o.modSp panelOff) n (mem_allKeys n)
  · rw [rebuilt n w hw]
    exact hw.modKey n _
  · rw [rebuilt n w hw, State.modKey_key]
  · rw [rebuilt m w hw]
    by_cases h : n = m
    · subst h
      rw [State.modKey_key]
    · rw [State.modKey_key_ne _ h]
      exact hn

end

/-! ### Autostart, holds and links (R94, R144, R168) -/

section
variable (o : Opening s u)

include o

theorem Opening.rectAutostart (h : s.store.cfg.autostart = false) : u.rectAutostart = u := by
  refine if_neg ?_
  rw [o.store, h]
  decide

theorem Opening.startHolds : u.startHolds = u := by
  have cleared : ({ u with ht := { u.ht with resetFailed := false } } : State) = u := by rw [← o.settled]
  unfold State.startHolds
  dsimp only
  rw [if_neg (by rw [o.settled]; decide), cleared, o.holds]
  rfl

theorem Opening.startLinks (ha : s.linkA.state = .unused) (hb : s.linkB.state = .unused) : u.startLinks = u := by
  have a : u.startPort .a = u := if_pos ((congrArg Link.state o.links.1).trans ha)
  have b : u.startPort .b = u := if_pos ((congrArg Link.state o.links.2).trans hb)
  unfold State.startLinks
  rw [a, b]

end

/-! ### The start-up evaluation (R184) -/

/-- R184: the evaluation writes the Annunciation Unit alone. -/
theorem State.evaluatePoints_rest (a : Annunciation) : ({ s.evaluatePoints with au := a } : State) = { s with au := a } := by
  unfold State.evaluatePoints
  exact forEach_same (fun u : State => ({ u with au := a } : State)) allPoints _ s fun _ _ => rfl

theorem State.transmit_unused {p : Port} (h : (s.link p).state = .unused) : s.transmit p = s := if_pos (by rw [h]; simp)

theorem State.startEvaluation_rest (ha : s.linkA.state = .unused) (hb : s.linkB.state = .unused) (a : Annunciation) :
    ({ s.startEvaluation with au := a } : State) = { s with verification := none, au := a } := by
  have rest := State.evaluatePoints_rest (s := { s with verification := none }) a
  unfold State.startEvaluation
  dsimp only
  generalize State.evaluatePoints { s with verification := none } = e at rest ⊢
  have linkA : (e.link .a).state = .unused := (congrArg (fun u : State => u.linkA.state) rest).trans ha
  have linkB : (e.link .b).state = .unused := (congrArg (fun u : State => u.linkB.state) rest).trans hb
  rw [State.transmit_unused linkA, State.transmit_unused linkB]
  exact rest

/-- R15: the handing of the positions writes the pairs alone. -/
theorem State.handPositions_rest (m : Measurement) : ({ s.handPositions with mi := m } : State) = { s with mi := m } := by
  unfold State.handPositions
  exact forEach_same (fun u : State => ({ u with mi := m } : State)) allPairs _ s fun _ _ => rfl

theorem State.handPositions_mi (x : Vector SwitchPair 13) : { s.handPositions.mi with pairs := x } = { s.mi with pairs := x } := by
  have same := forEach_same (fun u : State => { u.mi with pairs := x }) allPairs
    (fun p s => s.setPair p { s.pair p with handed := s.startingPosition p }) s fun _ _ => rfl
  exact same

/-- R15: the quiet station when verification ends. -/
structure QuietStation (s : State) : Prop extends PlainStation s where
  ready : Ready s
  verifying : s.verification ≠ none
  unstarted : ∀ k, (s.seq k).state = none
  wanted : ∀ k, (s.sec (sectionOf k)).wanted = .single
  open_ : ∀ p, (s.pair p).derived = some .opened
  counts : ∀ n, (s.sec n).isolate = 0 ∧ (s.sec n).commandedClosed = false
  holds : s.ht.holds = []
  settled : s.ht.resetFailed = false
  channels : ∀ c, (s.channel c).state ≠ .failed
  autostart : s.store.cfg.autostart = false
  linkA : s.linkA.state = .unused
  linkB : s.linkB.state = .unused
  panel : ∀ i, pairOf i = none → (s.input i).level ≠ some true

namespace QuietStation

variable (q : QuietStation s)

include q

theorem handed : ∃ u, Opening s u ∧ u.seqs = s.seqs ∧ u.sp = s.sp ∧ s.verificationEnds = { u with
    agenda := allFeeders.map Signal.startSequencer ++ [.startSections, .startPanel, .autostart, .startHolds, .startLinks] } := by
  have pairs := State.handPositions_pair q.fitted q.open_
  have mi := State.handPositions_mi (s := s) s.mi.pairs
  have others := State.handPositions_rest (s := s) s.mi
  unfold State.verificationEnds
  dsimp only
  generalize s.handPositions = w at pairs mi others ⊢
  have fitted : ∀ k, w.fitted k = true := fun k => (congrArg (fun u => State.fitted u k) others).trans (q.fitted k)
  have matched : w.mismatched = false := by
    unfold State.mismatched
    rw [List.any_eq_false]
    intro k _
    simp [fitted]
  let u : State := { w with mi := { w.mi with mismatch := false } }
  have sound : allChannels.filter s.chFailed = [] := by
    rw [List.filter_eq_nil_iff]
    exact fun c _ h => q.channels c (State.chFailed_iff.1 h)
  have channels : ∀ l, State.chFailed { u with agenda := l } = s.chFailed := fun l => by
    funext c
    unfold State.chFailed State.channel
    rw [show ({ u with agenda := l } : State).mi.channels = s.mi.channels from (congrArg Measurement.channels mi :)]
  have quiet : w.agenda = [] := (congrArg State.agenda others :).trans q.ready.quiet
  refine ⟨u, ?_, (congrArg State.seqs others :), (congrArg State.sp others :), ?_⟩
  · exact ⟨pairs, rfl, (congrArg Measurement.inputs mi :), (congrArg State.rect others :), (congrArg State.store others :),
      ⟨(congrArg State.linkA others :), (congrArg State.linkB others :)⟩, (congrArg State.resetHeld others :),
      (congrArg (fun u : State => u.ht.holds) others :).trans q.holds, (congrArg (fun u : State => u.ht.resetFailed) others :).trans q.settled,
      fun n => ⟨(congrArg (fun u : State => (u.sec n).isolate) others :).trans (q.counts n).1,
        (congrArg (fun u : State => (u.sec n).commandedClosed) others :).trans (q.counts n).2⟩,
      fun k => (congrArg (fun u : State => (u.sec (sectionOf k)).wanted) others).trans (q.wanted k), quiet⟩
  · rw [matched]
    show State.handAll [.autostart, .startHolds, .startLinks]
      (State.handAll ((allChannels.filter (State.chFailed { u with
          agenda := (w.agenda ++ allFeeders.map Signal.startSequencer) ++ [.startSections, .startPanel] })).map Signal.channelFailed)
        { u with agenda := (w.agenda ++ allFeeders.map Signal.startSequencer) ++ [.startSections, .startPanel] }) = _
    rw [channels, sound, quiet]
    rfl

/-- R71: the sequencers have started. -/
theorem startSequencers (o : Opening s u) (seqs : u.seqs = s.seqs) : ∃ a, Opening s a ∧ (∀ k, a.seq k = startsOpen (s.seq k)) ∧
    a.sp = u.sp ∧ ∀ n rest t, Carried n a rest t → Carried (n + 12) u (allFeeders.map Signal.startSequencer ++ rest) t := by
  have fresh : ∀ k, u.seq k = s.seq k := fun k => congrArg (fun x => x.get k) seqs
  refine ⟨forEach allFeeders State.opensAt u, forEach_keeps allFeeders State.opensAt (fun k _ h => h.opensAt k) o, fun k => ?_,
    forEach_same (fun u : State => u.sp) allFeeders State.opensAt u fun _ _ => rfl, fun n rest t c => ?_⟩
  · refine (forEach_opensAt_seq allFeeders_nodup k).trans ?_
    rw [if_pos (mem_allFeeders k), fresh]
  · exact carried_startSequencers q.toPlainStation allFeeders_nodup o (fun k _ => by rw [fresh]; exact q.unstarted k) c

/-- R94, R144, R168: what is handed on last changes nothing. -/
theorem carried_idle (o : Opening s u) : Carried 3 u [.autostart, .startHolds, .startLinks] u := by
  have idle {l : List Signal} {n : Nat} {g : Signal} (hg : State.handle g u = u) (rest : Carried n u l u) : Carried (n + 1) u (g :: l) u :=
    Carried.quiet_step o.quiet (by rw [hg]; exact o.quiet) (by rw [hg]; exact rest)
  exact idle (o.rectAutostart q.autostart) (idle o.startHolds (idle (o.startLinks q.linkA q.linkB) (carried_nothing o.quiet)))

/-- R15 steps 3 and 4: the Section Table and the panel have started. -/
theorem startBlocks (o : Opening s u) (hq : ∀ k, u.seq k = startsOpen (s.seq k)) : ∃ c, SectionsStarted s c ∧ c.seqs = u.seqs ∧
    c.sp = panelOff u.sp ∧ (∀ n, c.key n = keyAtOff) ∧
      Carried 5 u [.startSections, .startPanel, .autostart, .startHolds, .startLinks] c := by
  obtain ⟨started, seqs, sp⟩ := o.startSections q.toPlainStation fun k => by rw [hq]; rfl
  have first := fun n l t (c : Carried n u.startSections l t) =>
    Carried.quiet_step (g := .startSections) o.quiet started.opening.quiet c
  generalize u.startSections = b at started seqs sp first
  obtain ⟨oc, keys, spC, seqsC, sectionsC⟩ := started.opening.startPanel q.panel
  have second := fun n l t (c : Carried n b.startPanel l t) =>
    Carried.quiet_step (g := .startPanel) started.opening.quiet oc.quiet c
  generalize b.startPanel = c at oc keys spC seqsC sectionsC second
  refine ⟨c, ⟨oc, fun k => ?_, fun k => ?_, fun k => ?_⟩, seqsC.trans seqs, ?_, keys, first 4 _ c (second 3 _ c (q.carried_idle oc))⟩
  · unfold State.seq
    rw [seqsC]
    exact started.seqs k
  · unfold State.sec
    rw [sectionsC]
    exact started.feed k
  · unfold State.sec
    rw [sectionsC]
    exact started.bars k
  · rw [spC, sp]

/-- R15: what the end of verification hands on, carried out. -/
theorem carried : ∃ u, s.verificationEnds.settle Config.handingBound = u ∧ SectionsStarted s u ∧ (∀ k, u.seq k = startsOpen (s.seq k)) ∧
    u.sp = panelOff s.sp ∧ ∀ n, u.key n = keyAtOff := by
  obtain ⟨u, o, seqs, sp, handed⟩ := q.handed
  obtain ⟨a, oa, seqA, spA, sequencers⟩ := q.startSequencers o seqs
  obtain ⟨c, started, seqsC, spC, keys, blocks⟩ := q.startBlocks oa seqA
  refine ⟨c, ?_, started, fun k => ?_, ?_, keys⟩
  · rw [handed]
    exact (sequencers 5 _ c blocks).settle _ (by decide)
  · rw [← seqA k]
    unfold State.seq
    rw [seqsC]
  · rw [spC, spA, sp]

end QuietStation

/-- Settles O45: the handings one by one, and then the evaluation of the points. -/
theorem verificationEnds : Obligations.VerificationEnds := by
  unfold Obligations.VerificationEnds
  intro s r hv hstation hopen hcounts hholds hsettled hchannels hauto hA hB hpanel halert
  have q : QuietStation s :=
    ⟨⟨fun k => (hstation k).1, fun k => (hstation k).2.1⟩, r, hv, fun k => (hstation k).2.2.1, fun k => (hstation k).2.2.2, hopen,
      fun n => ⟨(hcounts n).1, (hcounts n).2.2.2⟩, hholds, hsettled, hchannels, hauto, hA, hB, hpanel⟩
  obtain ⟨u, settled, started, seqs, sp, keys⟩ := q.carried
  have o := started.opening
  have rest := State.startEvaluation_rest (s := u) ((congrArg Link.state o.links.1).trans hA) ((congrArg Link.state o.links.2).trans hB) u.au
  have evaluated : s.endVerification = u.startEvaluation.finish := by
    unfold State.endVerification
    rw [settled]
    unfold State.atRest
    rw [State.quiet_eq o.quiet]
  generalize u.startEvaluation = e at rest evaluated
  have exec_eq : exec .equipmentVerificationEnd s = .next e.finish := by
    have verifying : s.verifying = true := Option.isSome_iff_ne_none.2 hv
    show execEquipmentVerificationEnd s = _
    unfold execEquipmentVerificationEnd
    rw [taken_running _ r.running, if_pos verifying, evaluated]
  have eseqs : e.seqs = u.seqs := (congrArg State.seqs rest :)
  have emi : e.mi = u.mi := (congrArg State.mi rest :)
  have esections : e.sections = u.sections := (congrArg State.sections rest :)
  have eht : e.ht = u.ht := (congrArg State.ht rest :)
  refine ⟨e.finish, exec_eq, ?_, fun k => ?_, fun p => ?_, ?_, ?_, ?_, fun k => ?_, fun n => ?_, ?_,
    exec_alertLaw .equipmentVerificationEnd exec_eq halert, e.finish_attn, e.finish_level⟩
  · rw [State.finish_verification]
    exact (congrArg State.verification rest :)
  · unfold State.seq at seqs ⊢
    rw [State.finish_seqs, eseqs, seqs]
    rfl
  · rw [← o.pairs p]
    unfold State.pair
    rw [State.finish_mi, emi]
  · rw [State.finish_rect, ← o.rectifier]
    exact (congrArg State.rect rest :)
  · rw [State.finish_mi, emi]
    exact o.matched
  · rw [State.finish_sp]
    exact (congrArg State.sp rest :).trans sp
  · unfold State.sec
    rw [State.finish_sections, esections]
    exact ⟨started.bars k, started.feed k⟩
  · unfold State.key
    rw [State.finish_ht, eht]
    exact keys n
  · rw [State.finish_ht, eht]
    exact o.holds

end Sys2Proof.Machine
end
